-- ==== Sys2Proof/Word.lean ====
section
/-!
DEFINITION. The words of the HW4 and the one shape of every table of the model.

A `TMap` is a table from numbers to values: a list of (key, value) pairs with the keys strictly rising and no entry
equal to the table's default, so that equal tables are equal data. Its operations are in Machine/TMap.lean.
-/

namespace Sys2Proof

/-- A byte of memory (R26). -/
abbrev Byte := BitVec 8

/-- A register word (R8). -/
abbrev Word := BitVec 32

/-- A 64-bit register pair, an address or a counter (R10). -/
abbrev DWord := BitVec 64

/-- The lanes of a troupe, one bit each (R99). -/
abbrev LaneMask := BitVec 32

/-- A table from numbers to values in its one canonical form; the default is named where the table is read. -/
abbrev TMap (α : Type) := List (Nat × α)

end Sys2Proof
end

