-- ==== Sys2Proof/Syntax.lean ====
section
/-!
DEFINITION. The abstract syntax of the HW4: one constructor of `Instr` per row of spec/opcode_table.json.

The first part of `Instr` holds the instruction words (03 R47-R62), with every field already pulled apart; the second
part holds the steps of the device itself (95_what_each_step_holds.md), which have no word and carry as arguments what
the outside world or the device supplies.
-/

namespace Sys2Proof

/-- The header of a full-form word: lookahead, guard and negate (R48). -/
structure Hdr where
  /-- lookahead L, 0-15 -/
  la : BitVec 4
  /-- guard: 0-6 name p0-p6, 7 names pa -/
  guard : BitVec 3
  /-- inverts the guard -/
  neg : Bool
  deriving DecidableEq, Repr

/-- A 9-bit operand field (R49). -/
inductive Operand where
  /-- per-lane register v0-v255 -/
  | v (n : BitVec 8)
  /-- uniform register k0-k127 -/
  | k (n : BitVec 7)
  /-- special register: operand value 384 + n -/
  | s (n : BitVec 6)
  /-- inline constant: operand value 448 + n stands for n - 32 -/
  | c (n : BitVec 6)
  deriving DecidableEq, Repr

/-- Class A with one source (R51): A and its reuse hint. -/
structure A1 where
  hd : Hdr
  d : Operand
  a : Operand
  ha : Bool
  deriving DecidableEq, Repr

/-- Class A with two sources (R51). -/
structure A2 where
  hd : Hdr
  d : Operand
  a : Operand
  b : Operand
  ha : Bool
  hb : Bool
  deriving DecidableEq, Repr

/-- Class A with three sources (R51). -/
structure A3 where
  hd : Hdr
  d : Operand
  a : Operand
  b : Operand
  c : Operand
  ha : Bool
  hb : Bool
  hc : Bool
  deriving DecidableEq, Repr

/-- Class A compare (R51, R52): predicate destination and compare code. -/
structure ACmp where
  hd : Hdr
  a : Operand
  b : Operand
  ha : Bool
  hb : Bool
  /-- predicate destination, 7 discards -/
  pd : BitVec 3
  /-- compare code of R52 -/
  cc : BitVec 4
  deriving DecidableEq, Repr

/-- Class I (R53, R80). -/
structure Imm where
  hd : Hdr
  d : Operand
  a : Operand
  imm : BitVec 27
  deriving DecidableEq, Repr

/-- Access width (R54). -/
inductive Width where
  | b8 | b16 | b32 | b64 | b128
  deriving DecidableEq, Repr

/-- Memory order (R54). -/
inductive Order where
  | rlx | acq | rel | acqrel | sc
  deriving DecidableEq, Repr

/-- Memory scope (R54, R246). -/
inductive Scope where
  | tr | wg | co | pk | pd
  deriving DecidableEq, Repr

/-- Cache hint (R54). -/
inductive Hint where
  | dflt | strm | keep | nl1
  deriving DecidableEq, Repr

/-- Class M (R54, R111). Bit 14 is SX on a load and MODE on `WADDR`. -/
structure Mem where
  hd : Hdr
  d : Operand
  a : Operand
  b : Operand
  width : Width
  sx : Bool
  order : Order
  scope : Scope
  hint : Hint
  disp : BitVec 6
  deriving DecidableEq, Repr

/-- Group 9 (R55, R123). -/
structure Atom where
  hd : Hdr
  d : Operand
  a : Operand
  b : Operand
  width : Width
  order : Order
  scope : Scope
  op : BitVec 4
  disp : BitVec 4
  deriving DecidableEq, Repr

/-- A tile copy (R138): timeline, handle, descriptor quad, direction and format of the scratchpad side. -/
structure Tile where
  hd : Hdr
  a : Operand
  h : BitVec 8
  tl : BitVec 3
  dir : Bool
  sfmt : BitVec 4
  deriving DecidableEq, Repr

/-- A matrix operation that names a handle (R153). -/
structure MOp where
  hd : Hdr
  a : Operand
  h : BitVec 8
  /-- barrier named by the trailing operand -/
  bar : BitVec 4
  /-- ARR: the operation arrives at `bar` -/
  arr : Bool
  deriving DecidableEq, Repr

/-- A phaser word's common part (R197). -/
structure Ph where
  hd : Hdr
  x : BitVec 6
  deriving DecidableEq, Repr

/-- A slot opcode of a paired word (R58). -/
inductive SlotOp where
  | mov | movi | iadd | isub | iaddi | imul | imin | imax | and | or | xor | andn | shli | shri | sari
  | fadd | fsub | fmul | fmin | fmax | frcp | cvt | nop | isel
  deriving DecidableEq, Repr

/-- One slot of a paired word (R57). -/
structure Slot where
  op : SlotOp
  /-- 00 all lanes, 01 p0, 10 p1, 11 not p0 -/
  guard : BitVec 2
  d : BitVec 8
  s : BitVec 8
  imm : BitVec 6
  deriving DecidableEq, Repr

/-- The reasons of the reserved-encoding trap, in the order of R64. -/
inductive Reason where
  | engine | opcode | rsvbit | code | operand | guard | lookahead | pairing
  deriving DecidableEq, Repr

/-- A word that is no instruction: the word, the reason of R64 and the slot reported. -/
structure BadWord where
  word : DWord
  reason : Reason
  slot : Bool
  deriving DecidableEq, Repr

/-- The engine that executes a word (R63). -/
inductive Engine where
  | troupe | matrix | copy | control | firmware
  deriving DecidableEq, Repr

/-- Names a sub-group of a troupe by its lowest lane. -/
structure SubRef where
  ctx : Nat
  wg : Nat
  troupe : Nat
  lane : Nat
  deriving DecidableEq, Repr

/-- An EQ Link packet (R277), its CTRL field pulled apart (R390, R391). -/
structure Packet where
  typ : BitVec 4
  tc : BitVec 2
  src : Nat
  dst : Nat
  seq : BitVec 16
  plane : Nat
  srcDie : BitVec 2
  addr : DWord
  cap : BitVec 128
  width : Nat
  op : Nat
  lanes : LaneMask
  regs : Nat
  regOff : Nat
  rel : Bool
  scope : Scope
  /-- answer code of R188 (REGANS) or PROT of R414 -/
  code : Nat
  newEpoch : Bool
  ackTo : BitVec 16
  group : Nat
  retire : BitVec 16
  rvalid : Bool
  severity : Nat
  congested : Nat
  tag : Nat
  data : List Byte
  /-- its flits come in a replay of the link layer (R386) -/
  resent : Bool
  deriving DecidableEq, Repr

/-- The kinds of access of R346. -/
inductive Access where
  | load | store | atomic | fetch | copyRead | copyWrite
  deriving DecidableEq, Repr

/-- A request at a home (R249, R363): the requester's package and die, the kind, the place and the operands. -/
structure HomeReq where
  pkg : Nat
  die : Nat
  kind : Access
  addr : Nat
  data : List Byte
  width : Nat
  op : Nat
  cmp : Nat
  deriving DecidableEq, Repr

/-- The name of a phaser (R195): package slot, or pod-wide number. -/
inductive PhName where
  | pkg (slot : Nat)
  | pod (num : Nat)
  deriving DecidableEq, Repr

/-- An any-of candidate (R293). -/
structure Cand where
  value : Word
  pkg : Nat
  die : Nat
  wgl : Nat
  deriving DecidableEq, Repr

/-- The totals of a child for its two open phases (R286, R287): its signals and the members that it expects to signal of each, the
members expected from the phase after them on, and the candidates that it has forwarded. -/
structure TetherCounts where
  n0 : Nat
  e0 : Nat
  n1 : Nat
  e1 : Nat
  later : Nat
  cand0 : Option Cand
  cand1 : Option Cand
  deriving DecidableEq, Repr

/-- What a child sends up the Tether: a registration with its KIND and ROOT (R289, R291), its totals (R286), or its report to a standby
root, with the any-of record of the latest phase that it has seen released (R288). -/
inductive TetherWhat where
  | join (anyOf : Bool) (rootIx : Nat)
  | totals (k : TetherCounts)
  | report (found : Bool) (win : Cand) (k : TetherCounts)
  deriving DecidableEq, Repr

/-- A message of a child up the Tether (R286-R289, R293): its phaser, the number of phases that the child has seen released, which is
its first open phase, the leaf node by which it comes, and what it says. -/
structure TetherMsg where
  name : PhName
  leaf : Nat
  phase : Word
  what : TetherWhat
  deriving DecidableEq, Repr

/-- The link of a Tether port (R287, R297): regained, or lost by a port that is not in use. -/
structure TetherLink where
  port : Bool
  up : Bool
  deriving DecidableEq, Repr

/-- A stream of a source (R278, R393): its class, and in class 3 its multicast group. -/
structure StreamClass where
  tc : BitVec 2
  group : Nat
  deriving DecidableEq, Repr

/-- A flit or a lane of a port, and the time in microseconds for the counts of R399. -/
structure Moment where
  ix : Nat
  time : Nat
  deriving DecidableEq, Repr

/-- A planned change of a port's width (R385, R421): asked for by PWIDTH (none), or by power management to this width. -/
structure WidthChange where
  port : Nat
  lpm : Option (BitVec 2)
  deriving DecidableEq, Repr

/-- A renewal of a leader, and the dies that receive it (R406). -/
structure Renewal where
  die : Nat
  heard : List Nat
  deriving DecidableEq, Repr

/-- A Ringmaster command of a die, and the die through which it reaches its target (R407). -/
structure CommandPath where
  die : Nat
  via : Nat
  deriving DecidableEq, Repr

/-- A queue's registers as the firmware core reaches them (none), or a function of the host through its BAR0 (R321, R423). -/
structure QueueAccess where
  fn : Option Nat
  q : Nat
  deriving DecidableEq, Repr

/-- The state of a TDI (R422): in RUN, and its host traffic under an IDE stream. -/
structure TdiState where
  run : Bool
  ide : Bool
  deriving DecidableEq, Repr

/-- A pod-wide phaser that has lost its root, and the spine node that is its standby (R288). -/
structure RootLoss where
  name : PhName
  standby : Nat
  deriving DecidableEq, Repr

/-- What a time exchange tells a node (R296, R300): its skew bound in ns, and whether a node above it is degraded. -/
structure Skew where
  bound : BitVec 12
  above : Bool
  deriving DecidableEq, Repr

/-- A release message on its way down (R298, R294); `skewed` when a node above has degraded this package's subtree (R300). -/
structure Release where
  name : PhName
  phase : Word
  base : DWord
  window : Nat
  late : Bool
  found : Bool
  win : Cand
  skewed : Bool
  deriving DecidableEq, Repr

/-- The resources of R399. -/
inductive Resource where
  | hbmRow | fabricLane | bank | matrixCell
  deriving DecidableEq, Repr

/-- What an uncorrectable error strikes (R397). -/
inductive Struck where
  /-- a 16-byte unit of memory -/
  | memory (addr : Nat)
  /-- a 16-byte unit of a scratchpad -/
  | scratch (ctx wg off : Nat)
  /-- a per-lane register (banked store) -/
  | register (ctx wg troupe lane reg : Nat)
  /-- a uniform register of a troupe (banked store) -/
  | uniform (ctx wg troupe reg : Nat)
  /-- a 16-byte unit of the line of an address in the L1 of a workgroup (banked store) -/
  | l1Line (ctx wg addr : Nat)
  /-- a 16-byte unit of the line of an address in the RDC of a die -/
  | rdcLine (die addr : Nat)
  /-- the 16-byte unit of the predicates of four lanes of a troupe (banked store) -/
  | predicate (ctx wg troupe lane : Nat)
  /-- a unit of a state page or of a capability slot (banked store), whose contents no rule marks -/
  | statePage (ctx wg : Nat)
  /-- the unit of a word of a delivery in the queue pool of a core -/
  | delivery (id word : Nat)
  /-- a copy command in the queue pool of a core -/
  | command (core id : Nat)
  /-- a 16-byte unit of memory in an L2 slice -/
  | l2Unit (addr : Nat)
  /-- an array cell of a core: column -/
  | cell (core col : Nat)
  /-- an accumulator value of a workgroup -/
  | acc (ctx wg tile row col : Nat)
  /-- a cluster control core -/
  | control (cluster : Nat)
  /-- a firmware core -/
  | firmware (die : Nat)
  deriving DecidableEq, Repr

/-- Events that end a `HALT` (R219). -/
inductive CoreEvent where
  | assist | mailbox | error | timer
  deriving DecidableEq, Repr

/-- THE instruction set and the device's own steps, one constructor per row of spec/opcode_table.json. -/
inductive Instr where
  /-- Each participating lane sets D to A + B, wrapping or saturating under .sat. (R77) -/
  | iadd (x : A2) (sat : Bool)
  /-- Each participating lane sets D to A − B, wrapping or saturating. (R77) -/
  | isub (x : A2) (sat : Bool)
  /-- Each participating lane sets D to the low 32 bits of A × B. (R77) -/
  | imul (x : A2)
  /-- Each participating lane sets D to the high 32 bits of the signed or unsigned product. (R77) -/
  | imulhi (x : A2) (u : Bool)
  /-- Each participating lane sets D to A × B + C with one wrap or saturation. (R77) -/
  | imad (x : A3) (sat : Bool)
  /-- Each participating lane sets the D pair to sx64(A) × sx64(B) + C pair, modulo 2^64. (R77) -/
  | imadw (x : A3)
  /-- Each participating lane adds with a carry-in predicate and writes the carry-out predicate. (R77) -/
  | iaddc (x : A2) (cin cout : BitVec 3)
  /-- Each participating lane subtracts with a borrow-in predicate and writes the borrow-out predicate. (R77) -/
  | isubb (x : A2) (cin cout : BitVec 3)
  /-- Each participating lane sets D to the signed or unsigned minimum. (R77) -/
  | imin (x : A2) (u : Bool)
  /-- Each participating lane sets D to the signed or unsigned maximum. (R77) -/
  | imax (x : A2) (u : Bool)
  /-- Each participating lane sets D to the absolute value of A. (R77) -/
  | iabs (x : A1) (sat : Bool)
  /-- Each participating lane sets D to −A. (R77) -/
  | ineg (x : A1) (sat : Bool)
  /-- Each participating lane adds the sum of absolute byte differences to C. (R77) -/
  | isad (x : A3)
  /-- Each participating lane adds the signed four-byte dot product to C. (R77) -/
  | idot4 (x : A3) (sat : Bool)
  /-- Each participating lane sets the D pair to the A pair plus the extended B shifted by SH. (R77) -/
  | lea (x : A2) (sh : BitVec 5) (u : Bool)
  /-- Each participating lane adds two 64-bit pairs. (R77) -/
  | iadd64 (x : A2) (sat : Bool)
  /-- Each participating lane subtracts two 64-bit pairs. (R77) -/
  | isub64 (x : A2) (sat : Bool)
  /-- Each participating lane writes PD with the integer comparison of A and B. (R77) -/
  | icmp (x : ACmp)
  /-- Each participating lane selects A or B according to a predicate. (R77) -/
  | isel (x : A2) (ps : BitVec 3) (ns : Bool)
  /-- Each participating lane sets D to A AND B. (R79) -/
  | and (x : A2)
  /-- Each participating lane sets D to A OR B. (R79) -/
  | or (x : A2)
  /-- Each participating lane sets D to A XOR B. (R79) -/
  | xor (x : A2)
  /-- Each participating lane sets D to A AND NOT B. (R79) -/
  | andn (x : A2)
  /-- Each participating lane sets D to NOT A. (R79) -/
  | not (x : A1)
  /-- Each participating lane applies a three-input truth table bitwise. (R79) -/
  | bool3 (hd : Hdr) (d a b c : Operand) (tt : BitVec 8)
  /-- Each participating lane shifts A left by B. (R79) -/
  | shl (x : A2)
  /-- Each participating lane shifts A right logically by B. (R79) -/
  | shr (x : A2)
  /-- Each participating lane shifts A right arithmetically by min(B, 31). (R79) -/
  | sar (x : A2)
  /-- Each participating lane rotates A left by B mod 32. (R79) -/
  | rotl (x : A2)
  /-- Each participating lane extracts 32 bits from the 64-bit concatenation of B and A. (R79) -/
  | funnel (x : A3)
  /-- Each participating lane extracts a bit field, zero- or sign-extended. (R79) -/
  | bfx (x : A2) (sx : Bool)
  /-- Each participating lane inserts a bit field of A into C. (R79) -/
  | bfi (x : A3)
  /-- Each participating lane counts the 1 bits of A. (R79) -/
  | popc (x : A1)
  /-- Each participating lane counts the leading zero bits of A. (R79) -/
  | clz (x : A1)
  /-- Each participating lane counts the trailing zero bits of A. (R79) -/
  | ctz (x : A1)
  /-- Each participating lane reverses the bits of A. (R79) -/
  | brev (x : A1)
  /-- Each participating lane builds D from selected bytes of A and B. (R79) -/
  | byteperm (x : A3)
  /-- Each participating lane combines two predicates into PD. (R79) -/
  | pset (hd : Hdr) (pd pa : BitVec 3) (na : Bool) (pb : BitVec 3) (nb : Bool) (op : BitVec 2)
  /-- Each participating lane copies p0–p6 into D. (R79) -/
  | pmovGet (hd : Hdr) (d : Operand)
  /-- Each participating lane sets p0–p6 from A. (R79) -/
  | pmovSet (hd : Hdr) (a : Operand) (ha : Bool)
  /-- Each participating lane sets D to the sign-extended immediate. (R80) -/
  | movi (hd : Hdr) (d : Operand) (imm : BitVec 27)
  /-- Each participating lane replaces the high half of D with the immediate. (R80) -/
  | movhi (hd : Hdr) (d : Operand) (imm : BitVec 27)
  /-- Each participating lane adds the immediate to A. (R80) -/
  | iaddi (x : Imm)
  /-- Each participating lane multiplies A by the immediate. (R80) -/
  | imuli (x : Imm)
  /-- Each participating lane ANDs A with the immediate. (R80) -/
  | andi (x : Imm)
  /-- Each participating lane ORs A with the immediate. (R80) -/
  | ori (x : Imm)
  /-- Each participating lane XORs A with the immediate. (R80) -/
  | xori (x : Imm)
  /-- Each participating lane shifts A left by the immediate. (R80) -/
  | shli (x : Imm)
  /-- Each participating lane shifts A right logically by the immediate. (R80) -/
  | shri (x : Imm)
  /-- Each participating lane shifts A right arithmetically by the immediate. (R80) -/
  | sari (x : Imm)
  /-- Each participating lane compares A with a 20-bit immediate into PD. (R80) -/
  | icmpi (hd : Hdr) (a : Operand) (cc : BitVec 4) (pd : BitVec 3) (imm : BitVec 20)
  /-- Each participating lane adds the sign-extended immediate to the A pair. (R80) -/
  | leai (x : Imm)
  /-- Each participating lane adds two FP32 values with one rounding. (R82) -/
  | fadd (x : A2) (rnd : BitVec 3) (sat : Bool) (sm : BitVec 2)
  /-- Each participating lane subtracts two FP32 values. (R82) -/
  | fsub (x : A2) (rnd : BitVec 3) (sat : Bool) (sm : BitVec 2)
  /-- Each participating lane multiplies two FP32 values. (R82) -/
  | fmul (x : A2) (rnd : BitVec 3) (sat : Bool) (sm : BitVec 2)
  /-- Each participating lane computes A × B + C in FP32, rounded once. (R82) -/
  | ffma (x : A3) (rnd : BitVec 3) (sat : Bool) (sm : BitVec 2)
  /-- Each participating lane takes the FP32 minimum under R29. (R82) -/
  | fmin (x : A2) (sm : BitVec 2)
  /-- Each participating lane takes the FP32 maximum under R29. (R82) -/
  | fmax (x : A2) (sm : BitVec 2)
  /-- Each participating lane writes PD with the FP32 comparison code. (R84) -/
  | fcmp (x : ACmp) (sm : BitVec 2)
  /-- Each participating lane writes the one-hot class of A. (R84) -/
  | fclass (x : A1) (sm : BitVec 2)
  /-- Each participating lane computes the correctly rounded FP32 reciprocal. (R83) -/
  | frcp (x : A1) (rnd : BitVec 3) (sat : Bool) (sm : BitVec 2)
  /-- Each participating lane computes the correctly rounded reciprocal square root. (R83) -/
  | frsq (x : A1) (sm : BitVec 2)
  /-- Each participating lane computes the correctly rounded square root. (R83) -/
  | fsqrt (x : A1) (rnd : BitVec 3) (sm : BitVec 2)
  /-- Each participating lane computes the correctly rounded 2^A. (R83) -/
  | fex2 (x : A1) (sat : Bool) (sm : BitVec 2)
  /-- Each participating lane computes the correctly rounded log2 A. (R83) -/
  | flg2 (x : A1) (sm : BitVec 2)
  /-- Each participating lane computes the correctly rounded sine. (R83) -/
  | fsin (x : A1) (sm : BitVec 2)
  /-- Each participating lane computes the correctly rounded cosine. (R83) -/
  | fcos (x : A1) (sm : BitVec 2)
  /-- Each participating lane adds two FP64 pairs. (R85) -/
  | dadd (x : A2) (rnd : BitVec 3) (sat : Bool) (sm : BitVec 2)
  /-- Each participating lane subtracts two FP64 pairs. (R85) -/
  | dsub (x : A2) (rnd : BitVec 3) (sat : Bool) (sm : BitVec 2)
  /-- Each participating lane multiplies two FP64 pairs. (R85) -/
  | dmul (x : A2) (rnd : BitVec 3) (sat : Bool) (sm : BitVec 2)
  /-- Each participating lane computes a fused FP64 multiply-add. (R85) -/
  | dfma (x : A3) (rnd : BitVec 3) (sat : Bool) (sm : BitVec 2)
  /-- Each participating lane takes the FP64 minimum. (R85) -/
  | dmin (x : A2) (sm : BitVec 2)
  /-- Each participating lane takes the FP64 maximum. (R85) -/
  | dmax (x : A2) (sm : BitVec 2)
  /-- Each participating lane writes PD with the FP64 comparison code. (R84) -/
  | dcmp (x : ACmp) (sm : BitVec 2)
  /-- Each participating lane computes the correctly rounded FP64 reciprocal. (R85) -/
  | drcp (x : A1) (rnd : BitVec 3) (sat : Bool) (sm : BitVec 2)
  /-- Each participating lane adds two packed FP16 pairs per element. (R85) -/
  | add2h (x : A2) (rnd : BitVec 3) (sat : Bool) (sm : BitVec 2)
  /-- Each participating lane multiplies packed FP16 elements. (R85) -/
  | mul2h (x : A2) (rnd : BitVec 3) (sat : Bool) (sm : BitVec 2)
  /-- Each participating lane computes a fused multiply-add per FP16 element. (R85) -/
  | fma2h (x : A3) (rnd : BitVec 3) (sat : Bool) (sm : BitVec 2)
  /-- Each participating lane takes the maximum per FP16 element. (R85) -/
  | max2h (x : A2) (sm : BitVec 2)
  /-- Each participating lane adds packed BF16 elements. (R85) -/
  | add2b (x : A2) (rnd : BitVec 3) (sat : Bool) (sm : BitVec 2)
  /-- Each participating lane multiplies packed BF16 elements. (R85) -/
  | mul2b (x : A2) (rnd : BitVec 3) (sat : Bool) (sm : BitVec 2)
  /-- Each participating lane computes a fused multiply-add per BF16 element. (R85) -/
  | fma2b (x : A3) (rnd : BitVec 3) (sat : Bool) (sm : BitVec 2)
  /-- Each participating lane takes the maximum per BF16 element. (R85) -/
  | max2b (x : A2) (sm : BitVec 2)
  /-- Each participating lane converts A between the formats named by DST and SRC. (R87) -/
  | cvt (x : A1) (dst src : BitVec 4) (rnd : BitVec 3) (sat : Bool) (sm : BitVec 2)
  /-- The troupe builds one BX block from the FP32 operands of its participating lanes. (R90) -/
  | cvtbx (hd : Hdr) (d a c : Operand) (rnd : BitVec 3) (bx4 : Bool) (sm : BitVec 2)
  /-- Each participating lane converts one BX element to FP32 with its own exponent pair. (R91) -/
  | unpkbx (hd : Hdr) (d a c : Operand) (bx4 : Bool)
  /-- Each participating lane rounds A to an integral value in the same format. (R88) -/
  | frnd (x : A1) (fmt : BitVec 4) (rnd : BitVec 3) (sm : BitVec 2)
  /-- Each participating lane copies A, or the A pair, to D. (R89) -/
  | mov (x : A1) (b64 : Bool)
  /-- A uniform register receives register A of one chosen lane. (R89) -/
  | movk (hd : Hdr) (d a b : Operand)
  /-- The sub-group forms an inclusive or exclusive Kogge–Stone scan over lane positions. (R93) -/
  | lscan (x : A1) (op : BitVec 4) (excl : Bool)
  /-- The sub-group reduces lane positions pairwise and gives every participating lane the result. (R93) -/
  | lred (x : A1) (op : BitVec 4)
  /-- The sub-group votes a predicate into PD, or into a lane mask in D. (R94) -/
  | lvote (hd : Hdr) (d : Operand) (mode : BitVec 2) (ns : Bool) (ps pd : BitVec 3)
  /-- Every participating lane receives register A of one source lane. (R95) -/
  | lbcast (hd : Hdr) (d a b : Operand) (ha b64 : Bool)
  /-- Every participating lane receives the lowest or highest lane with a true predicate. (R96) -/
  | lfind (hd : Hdr) (d : Operand) (hi ns : Bool) (ps pd : BitVec 3)
  /-- A paired word performs its two slot operations, both reading before either writes. (R57) -/
  | pairedWord (s0 s1 : Slot)
  /-- A word that breaks an encoding rule traps precisely to the handler or to system software. (R65) -/
  | reservedEncodingTrap (w : BadWord)
  /-- Participating lanes branch to pc + 8 × imm; the others fall through, splitting the sub-group if needed. (R106) -/
  | bra (hd : Hdr) (imm : BitVec 27)
  /-- Participating lanes branch to their own 64-bit target. (R106) -/
  | brx (hd : Hdr) (a : Operand)
  /-- Participating lanes push return addresses on the stack and branch. (R107) -/
  | call (hd : Hdr) (imm : BitVec 27)
  /-- Participating lanes push return addresses and branch to per-lane targets. (R107) -/
  | callx (hd : Hdr) (a : Operand)
  /-- Participating lanes pop their return addresses and branch to them. (R107) -/
  | ret (hd : Hdr)
  /-- Sets TARGET of a reconvergence slot and adds participating lanes to EXPECT. (R108) -/
  | rcb (hd : Hdr) (slot : BitVec 3) (imm : BitVec 27)
  /-- Participating expected lanes arrive and wait at the reconvergence point. (R108) -/
  | rcw (hd : Hdr) (slot : BitVec 3)
  /-- Participating lanes end. (R109) -/
  | exit (hd : Hdr)
  /-- The sub-group is withheld from issue until other ready sub-groups and troupes have issued once. (R109) -/
  | yield (hd : Hdr)
  /-- Does nothing. (R105) -/
  | nop (hd : Hdr)
  /-- Stops the sub-group and passes it to the debug agent. (R110) -/
  | brk (hd : Hdr) (code : BitVec 6)
  /-- Enters the user handler with cause TRAP and a code. (R110) -/
  | trap (hd : Hdr) (code : BitVec 6)
  /-- Leaves the handler once the handler set has gathered, replaying the trapping word from the operand log. (R433) -/
  | tret (hd : Hdr)
  /-- Leaves the handler and resumes after the trapping word, replaying only the cancelled words. (R433) -/
  | tretSkip (hd : Hdr)
  /-- Each participating lane loads w bytes from its effective address into D. (R113) -/
  | ld (m : Mem)
  /-- Each participating lane stores w bytes of D at its effective address. (R113) -/
  | st (m : Mem)
  /-- One load per word from a uniform address into a uniform register. (R114) -/
  | ldu (m : Mem)
  /-- One store per word of uniform data to a uniform address. (R114) -/
  | stu (m : Mem)
  /-- Requests the lines of participating lanes into the levels that the hint names. (R115) -/
  | pref (m : Mem)
  /-- Orders the troupe's accesses: the release part waits for earlier stores and the acquire part discards cached lines. (R117) -/
  | fence (m : Mem)
  /-- Invalidates, and at pod scope writes back, the line of each participating lane. (R116) -/
  | cflush (m : Mem)
  /-- Each participating lane waits until a window word meets the comparison with D. (R118) -/
  | waddr (m : Mem)
  /-- Each participating lane performs an atomic read-modify-write and receives the old value. (R124) -/
  | atom (x : Atom)
  /-- Each participating lane performs a compare-and-swap and receives the old value. (R124) -/
  | atomcas (x : Atom)
  /-- Each participating lane performs an atomic reduction without a result. (R123) -/
  | red (x : Atom)
  /-- Issues a per-lane copy of w bytes from each A address to each D address. (R139) -/
  | cpy (hd : Hdr) (tl : BitVec 3) (d a : Operand) (width : BitVec 2)
  /-- Issues a tile copy between a tensor and a packed scratchpad side with conversion. (R141) -/
  | cpyt (x : Tile)
  /-- Issues a tile copy that combines source into destination with a reduction operation. (R141) -/
  | cpyr (hd : Hdr) (tl : BitVec 3) (h : BitVec 8) (a : Operand) (dir : Bool) (op : BitVec 3)
  /-- Issues a tile copy followed by a notify-word write. (R141) -/
  | cpyn (x : Tile)
  /-- Issues a gather or scatter of tile rows through a row-index list. (R141) -/
  | cpyg (x : Tile)
  /-- Binds a chunk-map slot and zeroes its map. (R146) -/
  | cminit (hd : Hdr) (slot : BitVec 4) (a b : Operand)
  /-- Writes the chunk-map condition, phase and arrival count to D without waiting. (R147) -/
  | cmtest (hd : Hdr) (d : Operand) (slot : BitVec 4) (a b : Operand) (scope : Scope)
  /-- Waits until a chunk-map range is met or the phase has changed. (R147) -/
  | cmwait (hd : Hdr) (slot : BitVec 4) (a b : Operand) (scope : Scope)
  /-- Waits until a timeline counter's VALUE reaches the target. (R149) -/
  | tlwait (hd : Hdr) (tl : BitVec 3) (a : Operand) (scope : Scope)
  /-- Reads VALUE, ISSUED or the status word of a counter, optionally clearing the status. (R149) -/
  | tlread (hd : Hdr) (d : Operand) (tl : BitVec 3) (sel : BitVec 2) (clr : Bool)
  /-- Ends the sequencer program once every operation it issued has completed. (R151) -/
  | seqend (hd : Hdr)
  /-- Loads a weight tile into the shadow plane. (R156) -/
  | mldw (x : MOp)
  /-- Exchanges the active and shadow planes once earlier loads and streams allow. (R157) -/
  | mswap (hd : Hdr) (bar : BitVec 4) (arr : Bool)
  /-- Streams an activation tile past the active plane into an accumulator tile. (R158) -/
  | mstrm (x : MOp) (tile : BitVec 3) (clr : Bool)
  /-- Loads a transposed weight tile into the shadow plane. (R156) -/
  | mldt (x : MOp)
  /-- Loads a transposed FP32 or INT32 tile into an accumulator tile. (R156) -/
  | mldtAcc (x : MOp) (tile : BitVec 3)
  /-- Clears the accumulator tiles in the mask and their saturation flags. (R159) -/
  | maclr (hd : Hdr) (mask : BitVec 8) (bar : BitVec 4) (arr : Bool)
  /-- Loads an accumulator tile from a 64 × 64 tile. (R159) -/
  | macld (x : MOp) (tile : BitVec 3)
  /-- Stores rows of an accumulator tile to a tile with conversion. (R159) -/
  | macst (x : MOp) (tile : BitVec 3)
  /-- Sets the matrix sequencer's valid count. (R155) -/
  | mvcnt (hd : Hdr) (a : Operand)
  /-- Decrements a uniform register and branches while it is nonzero. (R160) -/
  | mloop (hd : Hdr) (d : Operand) (off : BitVec 18)
  /-- Sets MODE once the array has finished every earlier operation. (R155) -/
  | mmode (hd : Hdr) (fmt : BitVec 3)
  /-- Starts the matrix and copy sequencers at the given addresses once they are idle. (R168) -/
  | fork (hd : Hdr) (a b : Operand)
  /-- Waits until both sequencers are idle. (R169) -/
  | rdv (hd : Hdr)
  /-- Initialises a numbered barrier with EXPECT. (R165) -/
  | barinit (hd : Hdr) (bar : BitVec 4) (a : Operand)
  /-- Arrives at a barrier, completing its phase when ARRIVED reaches EXPECT. (R166) -/
  | barrive (hd : Hdr) (d : Operand) (bar : BitVec 4)
  /-- Waits until the barrier's phase differs from the given value. (R166) -/
  | barwait (hd : Hdr) (bar : BitVec 4) (a : Operand)
  /-- Reads LAST, STATUS, PHASE or the counts of a barrier. (R166) -/
  | barstat (hd : Hdr) (d : Operand) (bar : BitVec 4) (sel : BitVec 2)
  /-- Draws one coordinate from a Turnstile dispenser, stealing from other dies' slices if allowed. (R335) -/
  | tfetch (hd : Hdr) (d : Operand) (disp : BitVec 2)
  /-- Appends each participating lane's work record to its list. (R172) -/
  | wpush (hd : Hdr) (d a : Operand)
  /-- Takes the oldest record of each lane's list, or reports the list empty. (R172) -/
  | wpop (hd : Hdr) (d a : Operand) (p : BitVec 3)
  /-- Retires a record and decrements its join object, pushing the parent at zero. (R173) -/
  | wdone (hd : Hdr) (a : Operand)
  /-- Waits until the Curtain reports the context quiescent at package or pod scope. (R174) -/
  | cwait (hd : Hdr) (scope : Scope)
  /-- Reads, checks and installs a 64-byte tensor record in a handle and writes a status. (R134) -/
  | thset (hd : Hdr) (d : Operand) (h : BitVec 8) (a : Operand)
  /-- Writes the 64 bytes of a handle to memory. (R134) -/
  | thget (hd : Hdr) (h : BitVec 8) (a : Operand)
  /-- Makes a register capability for a range of the issuing troupe's registers. (R182) -/
  | rcapmkReg (hd : Hdr) (d : Operand) (reg : BitVec 8) (n : BitVec 3) (a : Operand) (wr xp : Bool)
  /-- Binds a landing entry and makes a landing token for it. (R182) -/
  | rcapmkLand (hd : Hdr) (d : Operand) (e : BitVec 4) (a b : Operand) (wr xp : Bool)
  /-- Copies a capability quad into a capability slot. (R183) -/
  | rcapld (hd : Hdr) (slot : BitVec 4) (a : Operand)
  /-- Adds 1 to the troupe's REGGEN, revoking its register capabilities. (R184) -/
  | rcaprevReg (hd : Hdr)
  /-- Adds 1 to a landing entry's generation and invalidates it. (R184) -/
  | rcaprevLand (hd : Hdr) (e : BitVec 4)
  /-- Checks a capability and sends remote register deliveries on a ticket. (R185) -/
  | rwr (hd : Hdr) (a : Operand) (slot : BitVec 4) (tl : BitVec 3) (scope : Scope) (rel : Bool) (off : BitVec 3) (k : BitVec 3)
  /-- Marks registers empty once outstanding writes to them have completed. (R191) -/
  | rarm (hd : Hdr) (d : Operand) (k : BitVec 3)
  /-- Reads full bits without waiting. (R192) -/
  | rpoll (hd : Hdr) (d a : Operand) (k : BitVec 3) (p : BitVec 3)
  /-- Registers a handle as a phaser member and returns the status and first phase. (R198) -/
  | phreg (x : Ph) (d a : Operand) (mode : BitVec 2)
  /-- Signals the open phase and removes the member from later phases. (R199) -/
  | phdrop (x : Ph)
  /-- Signals the member's next phase as a release at its scope. (R200) -/
  | phsig (x : Ph) (d : Operand) (scope : Scope)
  /-- Signals the next phase, held until a timeline counter reaches a target. (R200) -/
  | phsigb (x : Ph) (d : Operand) (tl : BitVec 3) (b : Operand)
  /-- Offers a candidate value for an any-of phase. (R200) -/
  | phany (x : Ph) (d a : Operand)
  /-- Offers a candidate held until a timeline counter reaches a target. (R200) -/
  | phanyBind (x : Ph) (d a : Operand) (tl : BitVec 3) (b : Operand)
  /-- Waits until a phase is done. (R202) -/
  | phwait (x : Ph) (a : Operand) (scope : Scope)
  /-- Writes the phaser status word without waiting. (R203) -/
  | phtest (x : Ph) (d a : Operand)
  /-- Waits for an any-of phase and writes the winner record. (R202) -/
  | phwin (x : Ph) (d a : Operand) (scope : Scope)
  /-- Requests a release time and stagger window for the current phase. (R204) -/
  | phtime (x : Ph) (a b : Operand)
  /-- Starts a collective that turns one sharding layout into another. (R208) -/
  | coll (hd : Hdr) (tl : BitVec 3) (h : BitVec 8) (a : Operand)
  /-- Reads the state of a collective. (R209) -/
  | collst (hd : Hdr) (d a : Operand)
  /-- Writes a special register to D. (R212) -/
  | sread (hd : Hdr) (d a : Operand)
  /-- Writes a system register to D. (R212) -/
  | sreadSys (hd : Hdr) (d : Operand) (n : BitVec 17)
  /-- Writes B to a writable special register. (R213) -/
  | swrite (hd : Hdr) (a b : Operand)
  /-- Writes B to a system register. (R213) -/
  | swriteSys (hd : Hdr) (n : BitVec 17) (b : Operand)
  /-- Sets or removes the troupe's trap handler address. (R214) -/
  | sethdl (hd : Hdr) (a : Operand)
  /-- Reads one item of the operand log for the executing lane. (R215) -/
  | estatLog (hd : Hdr) (d a : Operand)
  /-- Removes the oldest entry of the context error queue. (R216) -/
  | estatEq (hd : Hdr) (d : Operand)
  /-- Bumps an address space's generation and waits until older translations are drained. (R217) -/
  | pggen (hd : Hdr) (d a : Operand)
  /-- Takes the next subnormal tile-store request. (R218) -/
  | assistNext (hd : Hdr) (d : Operand)
  /-- Reads a recorded accumulator value and its position. (R218) -/
  | assistGet (hd : Hdr) (d a : Operand)
  /-- Writes an assisted element through its recorded physical line. (R218) -/
  | assistPut (hd : Hdr) (a b : Operand)
  /-- Completes the request so that the MACST completes and arrives. (R218) -/
  | assistDone (hd : Hdr)
  /-- Stops the core until an event of its core arrives. (R219) -/
  | halt (hd : Hdr)
  /-- Stops the core until reset. (R219) -/
  | haltStop (hd : Hdr)
  /-- Device step. The troupe ends once its last lane has ended and every issued memory word has completed. (R109) -/
  | troupeEnd (ctx wg t : Nat)
  /-- Device step. The WADDR condition has held in every participating lane and the word completes. (R118) -/
  | waddrRelease (r : SubRef)
  /-- Device step. The result of a long-latency word arrives and is written after its lookahead window has read its operands. (R61) -/
  | longLatencyResult (r : SubRef)
  /-- Device step. A die applies a held package-homed write once its vector clock covers the write's stamp. (R258) -/
  | dieApplyWrite (die : Nat)
  /-- Device step. The walk-ahead engine translates the pages of an accepted tile command before it may start. (R354) -/
  | walkAheadTranslate (core : Nat)
  /-- Device step. The chunk-map condition holds and the waiting sub-group is released with an acquire. (R147) -/
  | cmwaitRelease (r : SubRef)
  /-- Device step. The counter reaches the target and the waiting sub-group is released with an acquire. (R149) -/
  | tlwaitRelease (r : SubRef)
  /-- Device step. A sequencer that executed SEQEND becomes idle once its operations have completed. (R151) -/
  | sequencerIdle (ctx wg : Nat) (copy : Bool)
  /-- Device step. The block-transfer engine starts the next copy command in rotating issuer order and frees its queue entries. (R235) -/
  | copyStart (core : Nat)
  /-- Device step. A written chunk sets its map bit and counts one arrival, reloading the map when EXPECT is reached. (R145) -/
  | chunkArrival (core : Nat) (i : Nat)
  /-- Device step. A copy command completes with its status, writes its notify word and advances its timeline counter. (R142) -/
  | copyComplete (core : Nat) (i : Nat)
  /-- Device step. The array starts an accepted matrix operation and checks its record snapshot. (R154) -/
  | arrayOpStart (core : Nat)
  /-- Device step. A matrix operation finishes its writes and, with ARR, arrives at its barrier with the pending status. (R162) -/
  | arrayOpComplete (core : Nat)
  /-- Device step. The array passes to a waiting workgroup, saving and loading matrix state. (R234) -/
  | arrayOwnershipChange (core : Nat)
  /-- Device step. A sequencer named by a waiting FORK becomes idle and starts with copied uniform registers. (R168) -/
  | forkStart (r : SubRef)
  /-- Device step. Both sequencers are idle and the waiting sub-group is released with an acquire. (R169) -/
  | rdvRelease (r : SubRef)
  /-- Device step. The barrier's phase changes and the waiting sub-group is released with an acquire. (R166) -/
  | barwaitRelease (r : SubRef)
  /-- Device step. A parent record waiting at a full list's home is placed once a WPOP frees room. (R173) -/
  | parentPush (ctx list : Nat)
  /-- Device step. Quiescence is reported and the waiting sub-group is released with an acquire. (R174) -/
  | cwaitRelease (r : SubRef)
  /-- Device step. A stalled producer takes its queue-pool entries once the cap and shared room allow. (R238) -/
  | poolEntryGrant (core queue : Nat)
  /-- Device step. The target applies a delivery whole, or refuses it with STALE or OVERWRITE. (R187) -/
  | rwrDeliveryApply (i : Nat)
  /-- Device step. The target's answer reaches the sender and completes the ticket, recording any refusal. (R188) -/
  | rwrAnswer (i : Nat)
  /-- Device step. The phase is released at the package and the waiting sub-group is released with an acquire. (R202) -/
  | phwaitRelease (r : SubRef)
  /-- Device step. An assist request, mailbox message, error report or timer wakes a halted core. (R219) -/
  | coreEventWake (core : Nat) (e : CoreEvent)
  /-- Device step. The timer event arises when EN is set and s_clock reaches CMP. (R220) -/
  | tcmpTimerEvent (core : Nat)
  /-- Device step. Every 1,024 cycles the core adjusts the memory limit, decays scores and admits starved troupes. (R231) -/
  | throttleEpochEnd (core : Nat)
  /-- Device step. After old-mode requests drain, the die switches routing mode with a new seed. (R267) -/
  | routingModeSwitch (die : Nat)
  /-- Device step. A packet head reaches the next stop and chooses the pool, an escape channel or waits. (R273) -/
  | carouselHop (cluster i : Nat)
  /-- Device step. A target stop ejects a packet once it can be consumed at once. (R274) -/
  | carouselEject (cluster stop : Nat)
  /-- Device step. An L2 slice forwards inter-cluster traffic to its target core or performs it for a swapped-out target. (R265) -/
  | sliceForward (i : Nat)
  /-- Device step. The destination sends a cumulative ACK, with RETIRE when answers need reporting. (R391) -/
  | ackSend (src : Nat) (tc : StreamClass)
  /-- Device step. At its offset time the package node releases its waiters on all four dies. (R298) -/
  | packageRelease (name : PhName)
  /-- Device step. A held bound signal leaves the die node once its ticket and fabric-write conditions hold. (R295) -/
  | boundSignalRelease (die i : Nat)
  /-- Device step. The Curtain reports O = 0 and completes every CWAIT.pk of the context. (R339) -/
  | curtainQuiescent (ctx : Nat)
  /-- Device step. After its waits the launch is checked, measured and either refused or placed. (R325) -/
  | launchStart (q : Nat)
  /-- Device step. The word reaches VALUE and the WAIT starts, acquiring at pod scope. (R323) -/
  | waitConditionMet (q : Nat)
  /-- Device step. A NOP command is fetched and starts at once. (R322) -/
  | cmdNop (q : Nat)
  /-- Device step. A LAUNCH command is fetched and waits under R326. (R322) -/
  | cmdLaunch (q : Nat)
  /-- Device step. A WAIT command is fetched and waits on a word in memory. (R323) -/
  | cmdWait (q : Nat)
  /-- Device step. A SIGNAL writes VALUE once every earlier launch of its queue has ended. (R323) -/
  | cmdSignal (q : Nat)
  /-- Device step. A command of reserved TYPE halts the queue with BADCMD. (R322) -/
  | cmdBadType (q : Nat)
  /-- Device step. A workgroup is placed on its core when room appears and its starting state is set up. (R328) -/
  | workgroupPlace (ctx wg : Nat)
  /-- Device step. A finished workgroup drops its phaser handles, bumps REGGEN and frees its pages. (R331) -/
  | workgroupEnd (ctx wg : Nat)
  /-- Device step. The launch destroys its phasers, discards its key and writes the completion record and DONEVAL. (R331) -/
  | launchEnd (ctx : Nat)
  /-- Device step. The scheduler pre-empts a cohort, saving only state that has no page. (R359) -/
  | preemptCohort (ctx cohort : Nat)
  /-- Device step. A pre-empted cohort is placed again, its queues and matrix state restored and replays run. (R361) -/
  | resumeCohort (ctx cohort : Nat) (cores : List Nat)
  /-- Device step. After writes drain, the unit's ciphertext is copied to the new home and held requests forwarded. (R364) -/
  | pageHomeMove (unit : Nat)
  /-- Device step. The collective completes at every surviving member and its ticket advances. (R375) -/
  | collectiveComplete (ctx num : Nat)
  /-- Device step. A lasting matrix cell's column is spared at the first cycle with no operation on the array. (R401) -/
  | matrixColumnSpare (core : Nat)
  /-- Device step. A trapped or failed control core is restarted from its image within 100 µs. (R403) -/
  | controlCoreRestart (cluster : Nat)
  /-- Device step. A trapped or failed firmware core restarts from the verified image as a follower. (R403) -/
  | firmwareCoreRestart (die : Nat)
  /-- Device step. Packets whose last copy left on a port that left UP are replayed. (R392) -/
  | linkLossReplay (port plane : Nat)
  /-- Device step. A bank grants one waiting row per cycle in rotating requester order. (R430) -/
  | bankGrant (core bank : Nat)
  /-- Device step. Each 1 ns the root adds signals, completes phases, processes registrations and applies PHTIME. (R292) -/
  | rootNodeCycle (name : PhName)
  /-- Device step. A 20 µs training attempt ends with a digest check that enters UP, retries or fails the port. (R383) -/
  | trainingAttemptEnd (port : Nat) (digest : Word) (locked : BitVec 4) (verified : Bool)
  /-- Device step. A load, store or atomic request is performed at the place of record of its location. (R249) -/
  | memoryRequestAtHome (q : HomeReq)
  /-- Device step. The walker translates an address through the five-level table and sets A and D. (R346) -/
  | translationWalk (core asid : Nat) (va : DWord) (kind : Access)
  /-- Device step. A write of TCMP clears a pending event and compares again. (R220) -/
  | tcmpWrite (core : Nat) (value : DWord)
  /-- Device step. Every 256 cycles the die computes the imbalance and decides on a routing-mode change. (R267) -/
  | nocWindowEnd (die : Nat) (counts : List (List Nat))
  /-- Device step. A received load request is performed in stream order and answered. (R389) -/
  | packetLdreq (p : Packet)
  /-- Device step. A received load response delivers its data and retires the request. (R390) -/
  | packetLdrsp (p : Packet)
  /-- Device step. A received write is performed in stream order. (R389) -/
  | packetWrite (p : Packet)
  /-- Device step. A received atomic is performed once and its answer cached, or answered from the response cache. (R390) -/
  | packetAtom (p : Packet)
  /-- Device step. A received atomic response delivers the old value and retires the request. (R390) -/
  | packetAtomrsp (p : Packet)
  /-- Device step. A received remote register delivery is applied once and answered. (R187) -/
  | packetRegwr (p : Packet)
  /-- Device step. A received delivery answer completes the sender's ticket. (R188) -/
  | packetRegans (p : Packet)
  /-- Device step. A received copy packet writes its tile bytes at the destination. (R142) -/
  | packetCopy (p : Packet)
  /-- Device step. A received collective chunk is combined or written under the ring order. (R369) -/
  | packetCollect (p : Packet)
  /-- Device step. A received multicast copy is checked against the landing token and delivered. (R283) -/
  | packetMcast (p : Packet)
  /-- Device step. A received ACK advances the acknowledged and retired points of a stream. (R391) -/
  | packetAck (p : Packet)
  /-- Device step. A received downdraft notice lowers the rate toward the congested destination. (R280) -/
  | packetDowndraft (p : Packet)
  /-- Device step. A packet with a reserved TYPE or field is discarded and counted as a link error. (R277) -/
  | packetReserved (header : BitVec 512)
  /-- Device step. Every RSTEP µs each rate without a notice rises by one 64th. (R280) -/
  | rateRecovery (dst : Nat)
  /-- Device step. An unretired packet times out, its plane is excluded and it is replayed on another plane. (R392) -/
  | e2eTimeoutReplay (dst : Nat) (tc : BitVec 2) (seq : BitVec 16) (plane : Nat)
  /-- Device step. A plane removed toward a destination after a timeout rejoins after 1 ms. (R392) -/
  | planeExclusionExpire (dst plane : Nat)
  /-- Device step. A stream without a route or progress for LINKTMO is closed and its packets complete with LINK. (R392) -/
  | streamClose (dst : Nat) (tc : BitVec 2)
  /-- Device step. A received flit fails its check and the receiver requests a replay. (R386) -/
  | linkFlitFail (port : Nat)
  /-- Device step. The sender resends from a flit on a replay request, retraining after eight failures. (R386) -/
  | linkReplay (port : Nat) (flit : Moment)
  /-- Device step. An acknowledged flit leaves the link retry buffer. (R386) -/
  | linkFlitAck (port : Nat)
  /-- Device step. A lane loses lock or exceeds its error threshold, forcing a narrower retrain. (R385) -/
  | laneLockLoss (port : Nat) (lane : Moment)
  /-- Device step. Both ends change width at the next packet boundary. (R385) -/
  | plannedWidthChange (port : WidthChange)
  /-- Device step. Setting EN starts training; clearing it turns the port off. (R382) -/
  | portctlEn (port : Nat) (en : Bool)
  /-- Device step. Writing RESET leaves FAILED and starts training with TRIES cleared. (R396) -/
  | portctlReset (port : Nat)
  /-- Device step. A write to PWIDTH requests a planned width change. (R385) -/
  | portctlPwidth (port : Nat) (w : BitVec 2)
  /-- Device step. A Tether node receives a subtree total or candidate and merges it into its upward message. (R286) -/
  | tetherCountMessage (node child : Nat) (m : TetherMsg)
  /-- Device step. A package node receives a release message with base time, window and LATE. (R298) -/
  | releaseReceipt (m : Release)
  /-- Device step. On loss of the active port the package node switches ports and resends its totals. (R287) -/
  | tetherPortFailover
  /-- Device step. A write of ACTIVE switches Tether ports. (R297) -/
  | tethcfgActiveWrite (port : Bool)
  /-- Device step. A leaf that loses its root for 20 µs redirects to the standby root and sends ROOTLOST. (R288) -/
  | leafRootFailover (loss : RootLoss)
  /-- Device step. A package node receiving ROOTLOST sends its phaser state to the standby root. (R288) -/
  | rootlost (name : PhName)
  /-- Device step. Every 10 µs a node exchanges time messages with its parent and corrects pod time. (R296) -/
  | timeSyncExchange (parent : DWord) (skew : Skew)
  /-- Device step. A PHDESC write setting VALID creates a phaser with its KIND. (R289) -/
  | phdescCreate (value : Word)
  /-- Device step. A PHDESC write clearing VALID destroys a phaser unless BUSY. (R289) -/
  | phdescDestroy (value : Word)
  /-- Device step. Advancing TAIL lets the device fetch the queued commands. (R321) -/
  | qtailWrite (q : QueueAccess) (tail : Word)
  /-- Device step. Writing 1 to HALTED skips the bad command, clears ERR and resumes the queue. (R321) -/
  | qstatSkip (q : QueueAccess)
  /-- Device step. A CTXCTL write with bit 7 clear pre-empts the context. (R359) -/
  | ctxctlPreempt (ctx : Nat)
  /-- Device step. A CTXCTL write with bit 7 set ends the context with STATUS 3. (R362) -/
  | ctxctlEnd (ctx : Nat)
  /-- Device step. An answer with DECLINE clear makes the faulting agent walk again and replay. (R356) -/
  | pfqdoneRetry (id : Word)
  /-- Device step. An answer with DECLINE set ends the troupe or fails the engine command. (R356) -/
  | pfqdoneDecline (id : Word)
  /-- Device step. A write pushes a free 64 KiB frame into a die's pool. (R357) -/
  | migfreePush (die : Nat) (frame : DWord)
  /-- Device step. Pins an origin unit at its home. (R357) -/
  | migpinPin (unit : Nat)
  /-- Device step. Unpins an origin unit. (R357) -/
  | migpinUnpin (unit : Nat)
  /-- Device step. At each epoch end a unit's home considers moving it to its top requester. (R364) -/
  | migrationEpochEnd (unit : Nat)
  /-- Device step. A member lags past the timeout and its successor starts a re-stitch. (R373) -/
  | collectiveLagTimeout (ctx num laggard : Nat) (counts : List Nat)
  /-- Device step. A corrected error is counted and, when lasting, its resource is repaired. (R399) -/
  | correctedError (res : Resource) (die unit index : Nat) (time : Nat)
  /-- Device step. An uncorrectable error marks the unit or elements as a data error. (R397) -/
  | uncorrectableError (what : Struck) (time : Nat)
  /-- Device step. A write pre-empts every context on a core and disables the core. (R402) -/
  | coredis (core : Nat)
  /-- Device step. Every 10 ms the Ringmaster sends a renewal to the followers. (R406) -/
  | leaseRenewal (die : Renewal)
  /-- Device step. After the guard a follower proposes the next term. (R406) -/
  | termProposal (die : Nat)
  /-- Device step. A firmware core receives a proposal and grants or refuses its vote. (R406) -/
  | voteRequest (die proposer : Nat) (term : Word)
  /-- Device step. A register target accepts a Ringmaster command of a current term or refuses a stale one. (R407) -/
  | ringmasterCommand (die : CommandPath) (term : Word) (reg : BitVec 17) (value : DWord)
  /-- Device step. On reset the boot ROM wipes the package, verifies the firmware image and starts the firmware cores. (R405) -/
  | resetBoot (image : List Byte)
  /-- Device step. A verified signed transition command moves the life-cycle state and wipes the package. (R415) -/
  | lccmd (cmd : List Byte)
  /-- Device step. The firmware generates a memory key when a key index is allocated. (R412) -/
  | keyAllocate (asid key : Nat)
  /-- Device step. The firmware discards tagged lines and erases a released key. (R412) -/
  | keyErase (key : Nat)
  /-- Device step. The power controller moves the current ceiling toward its target at the slew limit. (R416) -/
  | powerCeilingUpdate (us iest : Nat) (waiting : Bool)
  /-- Device step. Above 105 °C the device sets HOT and lowers the ceiling to 1,500 A. (R420) -/
  | thermalLimitEnter (die celsius : Nat)
  /-- Device step. Below 100 °C the thermal limit is lifted. (R420) -/
  | thermalLimitLift (die celsius : Nat)
  /-- Device step. The firmware signs a quote of a context's measurement with the attestation key. (R411) -/
  | mbQuote (fn : Nat)
  /-- Device step. The firmware returns the keys, digest and identity-signed certificate. (R425) -/
  | mbGetcert (fn : Nat)
  /-- Device step. The firmware writes PWRCFG from the mailbox. (R425) -/
  | mbPwrwr (fn : Nat)
  /-- Device step. The firmware returns PWRCFG and PWRSTAT. (R425) -/
  | mbPwrrd (fn : Nat)
  /-- Device step. The firmware returns fault-log records and advances RASHEAD. (R425) -/
  | mbLogrd (fn : Nat)
  /-- Device step. The firmware writes a signed life-cycle command to LCCMD. (R425) -/
  | mbLccmd (fn : Nat)
  /-- Device step. The device reads, verifies and optionally stores a firmware image from host memory. (R425) -/
  | mbImage (fn : Nat) (image : List Byte)
  /-- Device step. Sets the address space that a function's BAR2 uses. (R425) -/
  | mbHostasid (fn : Nat)
  /-- Device step. A host access to device memory through BAR2 is translated and performed at the home. (R423) -/
  | hostBar2Access (fn : Nat) (kind : Access) (addr : DWord) (data : List Byte) (width : Nat)
  /-- Device step. A write to a register without behaviour of its own updates its fields per their access codes. (R4) -/
  | registerWrite (n : BitVec 17) (unit : Nat) (value : DWord)
  /-- Device step. An MBGO write whose buffered command code is unknown, or whose LEN is wrong, finishes with status BADCMD. (R425) -/
  | mbBadcmd (fn : Nat)
  /-- Device step. Setting EN in QCFG starts command fetch when HEAD differs from TAIL, and clearing it stops fetch. (R322) -/
  | qcfgEnWrite (q : QueueAccess) (en : Bool)
  /-- Device step. Advancing PFQHEAD frees fault-ring records, so that agents waiting to write a PAGE record can proceed. (R355) -/
  | pfqheadWrite (head : Word)
  /-- Device step. The attached debug agent resumes a sub-group stopped at BRK at pc + 8, or ends its troupe. (R110) -/
  | debugAgentResume (r : SubRef) (resume : Bool)
  /-- Device step. A TDISP message moves a virtual function's TDI into or out of the RUN state, which changes how its BAR accesses are served. (R422) -/
  | tdiStateChange (fn : Nat) (run : TdiState)
  /-- Device step. A Tether port regains its link, which sets UP0 or UP1 and ends the wait of phases when both ports were down. (R287) -/
  | tetherPortLinkUp (link : TetherLink)
  /-- Device step. A node above a lost leaf node discards the totals it held from that child and takes the moved packages' totals as new. (R288) -/
  | tetherChildLoss (node child : Nat)
  /-- Device step. A proposer that receives its third vote for a term becomes Ringmaster. (R406) -/
  | voteReceipt (die source : Nat) (term : Word)
  /-- Device step. A leader receiving acknowledgements of a renewal from at least two followers extends its lease to 50 ms after that renewal. (R406) -/
  | renewalAck (die source : Nat) (term : Word)
  /-- Device step. The thrash hold expires and moves are considered again. (R365) -/
  | thrashHoldEnd (unit : Nat)
  /-- Device step. A page is pinned on first touch after resume, refilling from its backing if needed. (R361) -/
  | pageRefill (ctx wg page : Nat)
  /-- Device step. A lease lapses 50 ms after the last acknowledged renewal and the holder stops acting. (R406) -/
  | leaseExpiry (die : Nat)
  deriving DecidableEq, Repr

end Sys2Proof
end

