-- ==== Sys2Proof/WellFormed.lean ====
section
/-!
DEFINITION. When an instruction word is well formed: the rules of R64 that its fields can still break once the word is
pulled apart, namely reuse hints, codes, operands, guard and lookahead. Each check is one function over what `Instr.uses`
says of the instruction's operands and over its header.
-/

namespace Sys2Proof

/-- How an instruction uses an operand field (R10, R49, R54, R140, R164, R181). -/
inductive Role where
  /-- source of 1, 2 or 4 words -/
  | src (n : Nat)
  /-- destination of 1, 2 or 4 words -/
  | dst (n : Nat)
  /-- a source register in the D field that is no store data, of 1, 2 or 4 words (R49) -/
  | dsrc (n : Nat)
  /-- store data: a source in the D field, of 1, 2 or 4 words (R49) -/
  | data (n : Nat)
  /-- memory base: an even register pair (R54) -/
  | base
  /-- memory base that must be uniform (R111, R134) -/
  | ubase
  /-- uniform source of n words: a per-lane register is refused -/
  | usrc (n : Nat)
  /-- uniform destination register of n words -/
  | udst (n : Nat)
  /-- uniform destination, or field 0 to discard (R197) -/
  | udstOpt
  /-- destination, or field 0 to discard (R164) -/
  | dstOpt
  /-- uniform register quad holding a descriptor or a capability -/
  | uquad
  /-- n consecutive per-lane registers as a source (R181) -/
  | lanes (n : Nat)
  /-- n consecutive per-lane registers as a destination (R181) -/
  | lanesDst (n : Nat)
  /-- n consecutive registers of one class as a source, no alignment (R181, RWR) -/
  | range (n : Nat)
  /-- record octet of per-lane registers (R164), source -/
  | octet
  /-- record octet of per-lane registers (R164), destination -/
  | octetDst
  /-- special register that the word names (R210) -/
  | special
  deriving DecidableEq, Repr

/-- Whether the field is zero, that is v0 (R49). -/
def Operand.isZero (o : Operand) : Bool := o == .v 0

/-- Whether the operand is a per-lane register. -/
def Operand.perLane : Operand → Bool
  | .v _ => true
  | .k _ => false
  | .s _ => false
  | .c _ => false

/-- The registers `n` to `n + count - 1` exist when `.regs` is `nregs` (R9). -/
def laneRegsExist (nregs n count : Nat) : Bool := n + count ≤ 32 * ((nregs + 31) / 32)

/-- A register operand of `count` words: aligned under R10 and existing under R9. -/
def Operand.regOk (nregs count : Nat) : Operand → Bool
  | .v n => n.toNat % count == 0 && laneRegsExist nregs n.toNat count
  | .k n => n.toNat % count == 0
  | .s n => decide (n.toNat < 24)
  | .c _ => true

/-- Whether the operand may stand in its role (R9, R10, R14, R49, R54). -/
def Role.accepts (nregs : Nat) : Role → Operand → Bool
  | .src n, o => o.regOk nregs n
  | .dst n, .v r => (Operand.v r).regOk nregs n
  | .dst n, .k r => (Operand.k r).regOk nregs n
  | .dst _, _ => false
  | .data n, o => o.regOk nregs n
  | .dsrc n, .v r => (Operand.v r).regOk nregs n
  | .dsrc n, .k r => (Operand.k r).regOk nregs n
  | .dsrc _, _ => false
  | .base, .v r => (Operand.v r).regOk nregs 2
  | .base, .k r => (Operand.k r).regOk nregs 2
  | .base, _ => false
  | .ubase, .k r => (Operand.k r).regOk nregs 2
  | .ubase, _ => false
  | .usrc _, .v _ => false
  | .usrc n, o => o.regOk nregs n
  | .udst n, .k r => (Operand.k r).regOk nregs n
  | .udst _, _ => false
  | .udstOpt, .k _ => true
  | .udstOpt, o => o.isZero
  | .dstOpt, .v r => (Operand.v r).regOk nregs 1
  | .dstOpt, .k _ => true
  | .dstOpt, _ => false
  | .uquad, .k r => (Operand.k r).regOk nregs 4
  | .uquad, _ => false
  | .lanes n, .v r => laneRegsExist nregs r.toNat n
  | .lanes _, _ => false
  | .lanesDst n, .v r => laneRegsExist nregs r.toNat n
  | .lanesDst _, _ => false
  | .range n, .v r => laneRegsExist nregs r.toNat n
  | .range n, .k r => decide (r.toNat + n ≤ 128)
  | .range _, _ => false
  | .octet, .v r => r.toNat % 8 == 0 && laneRegsExist nregs r.toNat 8
  | .octet, _ => false
  | .octetDst, .v r => r.toNat % 8 == 0 && laneRegsExist nregs r.toNat 8
  | .octetDst, _ => false
  | .special, .s n => decide (n.toNat < 24)
  | .special, _ => false

/-- A destination that field 0 discards (R164, R197). -/
def Role.optional : Role → Bool
  | .dstOpt | .udstOpt => true
  | .src _ | .dst _ | .dsrc _ | .data _ | .base | .ubase | .usrc _ | .udst _ | .uquad | .lanes _ | .lanesDst _ | .range _
  | .octet | .octetDst | .special => false

/-- The width of an access in registers of 32 bits (R112). -/
def Width.words : Width → Nat
  | .b8 => 1
  | .b16 => 1
  | .b32 => 1
  | .b64 => 2
  | .b128 => 4

/-- The width of an access in bytes (R54). -/
def Width.bytes : Width → Nat
  | .b8 => 1
  | .b16 => 2
  | .b32 => 4
  | .b64 => 8
  | .b128 => 16

/-- The registers that the destination of a load fills (R112): `b32` with `sx` fills a pair. -/
def Mem.destWords (m : Mem) : Nat := if m.sx && m.width == .b32 then 2 else m.width.words

/-- The registers of a value in a format of R86. -/
def fmtWords (f : BitVec 4) : Nat := if f = 0 ∨ f = 7 ∨ f = 11 then 2 else 1

/-- The registers of a scan value (R93): `add64` and `dadd` work on pairs. -/
def scanWords (op : BitVec 4) : Nat := if op = 1 ∨ op = 3 then 2 else 1

/-- Uses of an instruction of one source. -/
def A1.uses (x : A1) (n : Nat) : List (Role × Operand) := [(.dst n, x.d), (.src n, x.a)]

/-- Uses of an instruction of two sources. -/
def A2.uses (x : A2) (n : Nat) : List (Role × Operand) := [(.dst n, x.d), (.src n, x.a), (.src n, x.b)]

/-- Uses of an instruction of three sources. -/
def A3.uses (x : A3) (n : Nat) : List (Role × Operand) :=
  [(.dst n, x.d), (.src n, x.a), (.src n, x.b), (.src n, x.c)]

/-- Uses of a compare. -/
def ACmp.uses (x : ACmp) (n : Nat) : List (Role × Operand) := [(.src n, x.a), (.src n, x.b)]

/-- Uses of an immediate form. -/
def Imm.uses (x : Imm) (n : Nat) : List (Role × Operand) := [(.dst n, x.d), (.src n, x.a)]

/-- The number of words that a special or system register takes on a read or write (R14, R212). -/
def specialWords (n : BitVec 6) : Nat :=
  if n = 9 ∨ n = 10 ∨ n = 11 ∨ n = 12 ∨ n = 16 ∨ n = 18 then 2 else 1

/-- The width in words of a system register (R211, R213): the 64-bit ones of R321, R357, R400, R404, R407 and R220. -/
def sysWords (n : BitVec 17) : Nat :=
  let x := n.toNat
  if (0x12000 ≤ x ∧ x < 0x12200 ∧ x % 8 = 0) ∨ x = 0x13000 ∨ x = 0x13002 ∨ x = 0x13004 ∨ x = 0x13007
     ∨ x = 0x13008 ∨ x = 0x13009 ∨ (0x13010 ≤ x ∧ x ≤ 0x13014) ∨ (0x14000 ≤ x ∧ x ≤ 0x14003)
     ∨ x = 0x14010 ∨ x = 0x14021 ∨ x = 0x14030 ∨ x = 0x9000 then 2 else 1

/-- The words that a special-register operand of `SREAD` or `SWRITE` moves. -/
def Operand.specialWords : Operand → Nat
  | .s n => Sys2Proof.specialWords n
  | .v _ => 1
  | .k _ => 1
  | .c _ => 1

/-- Every operand that the instruction uses, with its role. A device step and a paired word use none here; the slots of
a paired word are checked by `Slot.ok`. DEDUCED (log entry 48): the 64-bit target of BRX and CALLX may be an inline constant or a special
register, as every 64-bit source may, since R105 and R107 name no form that it must not have. -/
def Instr.uses : Instr → List (Role × Operand)
  | .iadd x _ | .isub x _ | .imulhi x _ | .imin x _ | .imax x _ | .isel x _ _ | .bfx x _ => x.uses 1
  | .iaddc x _ _ | .isubb x _ _ => x.uses 1
  | .imul x | .and x | .or x | .xor x | .andn x | .shl x | .shr x | .sar x | .rotl x => x.uses 1
  | .iadd64 x _ | .isub64 x _ => x.uses 2
  | .imad x _ | .idot4 x _ => x.uses 1
  | .isad x | .funnel x | .bfi x | .byteperm x => x.uses 1
  | .imadw x => [(.dst 2, x.d), (.src 1, x.a), (.src 1, x.b), (.src 2, x.c)]
  | .iabs x _ | .ineg x _ => x.uses 1
  | .not x | .popc x | .clz x | .ctz x | .brev x => x.uses 1
  | .lea x _ _ => [(.dst 2, x.d), (.src 2, x.a), (.src 1, x.b)]
  | .icmp x => x.uses 1
  | .bool3 _ d a b c _ => [(.dst 1, d), (.src 1, a), (.src 1, b), (.src 1, c)]
  | .pmovGet _ d => [(.dst 1, d)]
  | .pmovSet _ a _ => [(.src 1, a)]
  | .movi _ d _ => [(.dst 1, d)]
  | .movhi _ d _ => [(.dst 1, d), (.src 1, d)]
  | .iaddi x | .imuli x | .andi x | .ori x | .xori x | .shli x | .shri x | .sari x => x.uses 1
  | .leai x => x.uses 2
  | .icmpi _ a _ _ _ => [(.src 1, a)]
  | .fadd x _ _ _ | .fsub x _ _ _ | .fmul x _ _ _ | .add2h x _ _ _ | .mul2h x _ _ _ | .add2b x _ _ _
  | .mul2b x _ _ _ => x.uses 1
  | .dadd x _ _ _ | .dsub x _ _ _ | .dmul x _ _ _ => x.uses 2
  | .ffma x _ _ _ | .fma2h x _ _ _ | .fma2b x _ _ _ => x.uses 1
  | .dfma x _ _ _ => x.uses 2
  | .fmin x _ | .fmax x _ | .max2h x _ | .max2b x _ => x.uses 1
  | .dmin x _ | .dmax x _ => x.uses 2
  | .fcmp x _ => x.uses 1
  | .dcmp x _ => x.uses 2
  | .fclass x _ | .frsq x _ | .flg2 x _ | .fsin x _ | .fcos x _ => x.uses 1
  | .frcp x _ _ _ => x.uses 1
  | .fsqrt x _ _ => x.uses 1
  | .fex2 x _ _ => x.uses 1
  | .drcp x _ _ _ => x.uses 2
  | .cvt x dst src _ _ _ => [(.dst (fmtWords dst), x.d), (.src (fmtWords src), x.a)]
  | .cvtbx _ d a c _ _ _ => [(.dst 1, d), (.src 1, a), (.udst 1, c)]
  | .unpkbx _ d a c _ => [(.dst 1, d), (.src 1, a), (.src 1, c)]
  | .frnd x fmt _ _ => x.uses (fmtWords fmt)
  | .mov x b64 => x.uses (if b64 then 2 else 1)
  | .movk _ d a b => [(.udst 1, d), (.src 1, a), (.src 1, b)]
  | .lscan x op _ => x.uses (scanWords op)
  | .lred x op => x.uses (scanWords op)
  | .lvote _ d mode _ _ _ => if mode = 3 then [(.dst 1, d)] else []
  | .lbcast _ d a b _ b64 => [(.dst (if b64 then 2 else 1), d), (.src (if b64 then 2 else 1), a), (.src 1, b)]
  | .lfind _ d _ _ _ _ => [(.dst 1, d)]
  | .brx _ a | .callx _ a => [(.src 2, a)]
  | .ld m => [(.dst m.destWords, m.d), (.base, m.a), (.src 1, m.b)]
  | .st m => [(.data m.width.words, m.d), (.base, m.a), (.src 1, m.b)]
  | .ldu m => [(.udst m.destWords, m.d), (.ubase, m.a), (.usrc 1, m.b)]
  | .stu m => [(.usrc m.width.words, m.d), (.ubase, m.a), (.usrc 1, m.b)]
  | .pref m | .cflush m => [(.base, m.a), (.src 1, m.b)]
  | .fence _ => []
  | .waddr m => [(.dsrc m.width.words, m.d), (.base, m.a), (.src 1, m.b)]
  | .atom x => [(.dst x.width.words, x.d), (.dsrc x.width.words, x.d), (.base, x.a), (.src x.width.words, x.b)]
  | .atomcas x => [(.dst x.width.words, x.d), (.dsrc x.width.words, x.d), (.base, x.a), (.src x.width.words, x.b)]
  | .red x => [(.base, x.a), (.src x.width.words, x.b)]
  | .cpy _ _ d a _ => [(.base, d), (.base, a)]
  | .cpyt x | .cpyn x | .cpyg x => [(.uquad, x.a)]
  | .cpyr _ _ _ a _ _ => [(.uquad, a)]
  | .cminit _ _ a b => [(.usrc 1, a), (.usrc 1, b)]
  | .cmtest _ d _ a b _ => [(.dst 1, d), (.usrc 1, a), (.usrc 1, b)]
  | .cmwait _ _ a b _ => [(.usrc 1, a), (.usrc 1, b)]
  | .tlwait _ _ a _ => [(.usrc 2, a)]
  | .tlread _ d _ sel _ => [(.dst (if sel = 2 then 1 else 2), d)]
  | .mldw x | .mldt x => [(.usrc 1, x.a)]
  | .mstrm x _ _ => [(.usrc 1, x.a)]
  | .mldtAcc x _ | .macld x _ | .macst x _ => [(.usrc 1, x.a)]
  | .mvcnt _ a => [(.usrc 1, a)]
  | .mloop _ d _ => [(.udst 1, d)]
  | .fork _ a b => [(.usrc 2, a), (.usrc 2, b)]
  | .barinit _ _ a | .barwait _ _ a => [(.usrc 1, a)]
  | .barrive _ d _ => [(.dstOpt, d)]
  | .barstat _ d _ _ => [(.dst 1, d)]
  | .tfetch _ d _ => [(.udst 2, d)]
  | .wpush _ d a => [(.octet, d), (.src 1, a)]
  | .wpop _ d a _ => [(.octetDst, d), (.src 1, a)]
  | .wdone _ a => [(.src 2, a)]
  | .thset _ d _ a => [(.udst 1, d), (.ubase, a)]
  | .thget _ _ a => [(.ubase, a)]
  | .rcapmkReg _ d reg n a _ _ => [(.udst 4, d), (.lanes (n.toNat + 1), .v reg), (.usrc 1, a)]
  | .rcapmkLand _ d _ a b _ _ => [(.udst 4, d), (.usrc 1, a), (.usrc 1, b)]
  | .rcapld _ _ a => [(.uquad, a)]
  | .rwr _ a _ _ _ _ _ k => [(.range (k.toNat + 1), a)]
  | .rarm _ d k => [(.lanesDst (k.toNat + 1), d)]
  | .rpoll _ d a k _ => [(.lanesDst 1, d), (.lanes (k.toNat + 1), a)]
  | .phreg _ d a _ => [(.udst 2, d), (.usrc 1, a)]
  | .phsig _ d _ => [(.udstOpt, d)]
  | .phsigb _ d _ b => [(.udstOpt, d), (.usrc 2, b)]
  | .phany _ d a => [(.udstOpt, d), (.usrc 1, a)]
  | .phanyBind _ d a _ b => [(.udstOpt, d), (.usrc 1, a), (.usrc 2, b)]
  | .phwait _ a _ => [(.usrc 1, a)]
  | .phtest _ d a => [(.dst 1, d), (.usrc 1, a)]
  | .phwin _ d a _ => [(.dst 2, d), (.usrc 1, a)]
  | .phtime _ a b => [(.usrc 2, a), (.usrc 1, b)]
  | .coll _ _ _ a => [(.uquad, a)]
  | .collst _ d a => [(.dst 2, d), (.usrc 1, a)]
  | .sread _ d a => [(.dst a.specialWords, d), (.special, a)]
  | .sreadSys _ d n => [(.dst (sysWords n), d)]
  | .swrite _ a b => [(.special, a), (.src a.specialWords, b)]
  | .swriteSys _ n b => [(.src (sysWords n), b)]
  | .sethdl _ a => [(.src 2, a)]
  | .estatLog _ d a => [(.dst 2, d), (.usrc 1, a)]
  | .estatEq _ d => [(.dst 2, d)]
  | .pggen _ d a => [(.dst 1, d), (.src 1, a)]
  | .assistNext _ d => [(.dst 2, d)]
  | .assistGet _ d a => [(.dst 2, d), (.src 1, a)]
  | .assistPut _ a b => [(.src 1, a), (.src 1, b)]
  | _ => []

/-- The header of a full-form word; a paired word and a device step have none. -/
def Instr.hdr? : Instr → Option Hdr
  | .iadd x _ => some x.hd
  | .isub x _ => some x.hd
  | .imul x => some x.hd
  | .imulhi x _ => some x.hd
  | .imad x _ => some x.hd
  | .imadw x => some x.hd
  | .iaddc x _ _ => some x.hd
  | .isubb x _ _ => some x.hd
  | .imin x _ => some x.hd
  | .imax x _ => some x.hd
  | .iabs x _ => some x.hd
  | .ineg x _ => some x.hd
  | .isad x => some x.hd
  | .idot4 x _ => some x.hd
  | .lea x _ _ => some x.hd
  | .iadd64 x _ => some x.hd
  | .isub64 x _ => some x.hd
  | .icmp x => some x.hd
  | .isel x _ _ => some x.hd
  | .and x => some x.hd
  | .or x => some x.hd
  | .xor x => some x.hd
  | .andn x => some x.hd
  | .not x => some x.hd
  | .bool3 hd _ _ _ _ _ => some hd
  | .shl x => some x.hd
  | .shr x => some x.hd
  | .sar x => some x.hd
  | .rotl x => some x.hd
  | .funnel x => some x.hd
  | .bfx x _ => some x.hd
  | .bfi x => some x.hd
  | .popc x => some x.hd
  | .clz x => some x.hd
  | .ctz x => some x.hd
  | .brev x => some x.hd
  | .byteperm x => some x.hd
  | .pset hd _ _ _ _ _ _ => some hd
  | .pmovGet hd _ => some hd
  | .pmovSet hd _ _ => some hd
  | .movi hd _ _ => some hd
  | .movhi hd _ _ => some hd
  | .iaddi x => some x.hd
  | .imuli x => some x.hd
  | .andi x => some x.hd
  | .ori x => some x.hd
  | .xori x => some x.hd
  | .shli x => some x.hd
  | .shri x => some x.hd
  | .sari x => some x.hd
  | .icmpi hd _ _ _ _ => some hd
  | .leai x => some x.hd
  | .fadd x _ _ _ => some x.hd
  | .fsub x _ _ _ => some x.hd
  | .fmul x _ _ _ => some x.hd
  | .ffma x _ _ _ => some x.hd
  | .fmin x _ => some x.hd
  | .fmax x _ => some x.hd
  | .fcmp x _ => some x.hd
  | .fclass x _ => some x.hd
  | .frcp x _ _ _ => some x.hd
  | .frsq x _ => some x.hd
  | .fsqrt x _ _ => some x.hd
  | .fex2 x _ _ => some x.hd
  | .flg2 x _ => some x.hd
  | .fsin x _ => some x.hd
  | .fcos x _ => some x.hd
  | .dadd x _ _ _ => some x.hd
  | .dsub x _ _ _ => some x.hd
  | .dmul x _ _ _ => some x.hd
  | .dfma x _ _ _ => some x.hd
  | .dmin x _ => some x.hd
  | .dmax x _ => some x.hd
  | .dcmp x _ => some x.hd
  | .drcp x _ _ _ => some x.hd
  | .add2h x _ _ _ => some x.hd
  | .mul2h x _ _ _ => some x.hd
  | .fma2h x _ _ _ => some x.hd
  | .max2h x _ => some x.hd
  | .add2b x _ _ _ => some x.hd
  | .mul2b x _ _ _ => some x.hd
  | .fma2b x _ _ _ => some x.hd
  | .max2b x _ => some x.hd
  | .cvt x _ _ _ _ _ => some x.hd
  | .cvtbx hd _ _ _ _ _ _ => some hd
  | .unpkbx hd _ _ _ _ => some hd
  | .frnd x _ _ _ => some x.hd
  | .mov x _ => some x.hd
  | .movk hd _ _ _ => some hd
  | .lscan x _ _ => some x.hd
  | .lred x _ => some x.hd
  | .lvote hd _ _ _ _ _ => some hd
  | .lbcast hd _ _ _ _ _ => some hd
  | .lfind hd _ _ _ _ _ => some hd
  | .bra hd _ => some hd
  | .brx hd _ => some hd
  | .call hd _ => some hd
  | .callx hd _ => some hd
  | .ret hd => some hd
  | .rcb hd _ _ => some hd
  | .rcw hd _ => some hd
  | .exit hd => some hd
  | .yield hd => some hd
  | .nop hd => some hd
  | .brk hd _ => some hd
  | .trap hd _ => some hd
  | .tret hd => some hd
  | .tretSkip hd => some hd
  | .ld m => some m.hd
  | .st m => some m.hd
  | .ldu m => some m.hd
  | .stu m => some m.hd
  | .pref m => some m.hd
  | .fence m => some m.hd
  | .cflush m => some m.hd
  | .waddr m => some m.hd
  | .atom x => some x.hd
  | .atomcas x => some x.hd
  | .red x => some x.hd
  | .cpy hd _ _ _ _ => some hd
  | .cpyt x => some x.hd
  | .cpyr hd _ _ _ _ _ => some hd
  | .cpyn x => some x.hd
  | .cpyg x => some x.hd
  | .cminit hd _ _ _ => some hd
  | .cmtest hd _ _ _ _ _ => some hd
  | .cmwait hd _ _ _ _ => some hd
  | .tlwait hd _ _ _ => some hd
  | .tlread hd _ _ _ _ => some hd
  | .seqend hd => some hd
  | .mldw x => some x.hd
  | .mswap hd _ _ => some hd
  | .mstrm x _ _ => some x.hd
  | .mldt x => some x.hd
  | .mldtAcc x _ => some x.hd
  | .maclr hd _ _ _ => some hd
  | .macld x _ => some x.hd
  | .macst x _ => some x.hd
  | .mvcnt hd _ => some hd
  | .mloop hd _ _ => some hd
  | .mmode hd _ => some hd
  | .fork hd _ _ => some hd
  | .rdv hd => some hd
  | .barinit hd _ _ => some hd
  | .barrive hd _ _ => some hd
  | .barwait hd _ _ => some hd
  | .barstat hd _ _ _ => some hd
  | .tfetch hd _ _ => some hd
  | .wpush hd _ _ => some hd
  | .wpop hd _ _ _ => some hd
  | .wdone hd _ => some hd
  | .cwait hd _ => some hd
  | .thset hd _ _ _ => some hd
  | .thget hd _ _ => some hd
  | .rcapmkReg hd _ _ _ _ _ _ => some hd
  | .rcapmkLand hd _ _ _ _ _ _ => some hd
  | .rcapld hd _ _ => some hd
  | .rcaprevReg hd => some hd
  | .rcaprevLand hd _ => some hd
  | .rwr hd _ _ _ _ _ _ _ => some hd
  | .rarm hd _ _ => some hd
  | .rpoll hd _ _ _ _ => some hd
  | .phreg x _ _ _ => some x.hd
  | .phdrop x => some x.hd
  | .phsig x _ _ => some x.hd
  | .phsigb x _ _ _ => some x.hd
  | .phany x _ _ => some x.hd
  | .phanyBind x _ _ _ _ => some x.hd
  | .phwait x _ _ => some x.hd
  | .phtest x _ _ => some x.hd
  | .phwin x _ _ _ => some x.hd
  | .phtime x _ _ => some x.hd
  | .coll hd _ _ _ => some hd
  | .collst hd _ _ => some hd
  | .sread hd _ _ => some hd
  | .sreadSys hd _ _ => some hd
  | .swrite hd _ _ => some hd
  | .swriteSys hd _ _ => some hd
  | .sethdl hd _ => some hd
  | .estatLog hd _ _ => some hd
  | .estatEq hd _ => some hd
  | .pggen hd _ _ => some hd
  | .assistNext hd _ => some hd
  | .assistGet hd _ _ => some hd
  | .assistPut hd _ _ => some hd
  | .assistDone hd => some hd
  | .halt hd => some hd
  | .haltStop hd => some hd
  | _ => none

/-- The full-form opcode, group x 64 + position (R62); 1024 for a paired word and a device step, which have none. -/
def Instr.opcode : Instr → Nat
  | .iadd _ _ => 0
  | .isub _ _ => 1
  | .imul _ => 2
  | .imulhi _ _ => 3
  | .imad _ _ => 4
  | .imadw _ => 5
  | .iaddc _ _ _ => 6
  | .isubb _ _ _ => 7
  | .imin _ _ => 8
  | .imax _ _ => 9
  | .iabs _ _ => 10
  | .ineg _ _ => 11
  | .isad _ => 12
  | .idot4 _ _ => 13
  | .lea _ _ _ => 14
  | .iadd64 _ _ => 15
  | .isub64 _ _ => 16
  | .icmp _ => 17
  | .isel _ _ _ => 18
  | .and _ => 64
  | .or _ => 65
  | .xor _ => 66
  | .andn _ => 67
  | .not _ => 68
  | .bool3 _ _ _ _ _ _ => 69
  | .shl _ => 70
  | .shr _ => 71
  | .sar _ => 72
  | .rotl _ => 73
  | .funnel _ => 74
  | .bfx _ _ => 75
  | .bfi _ => 76
  | .popc _ => 77
  | .clz _ => 78
  | .ctz _ => 79
  | .brev _ => 80
  | .byteperm _ => 81
  | .pset _ _ _ _ _ _ _ => 82
  | .pmovGet _ _ => 83
  | .pmovSet _ _ _ => 83
  | .movi _ _ _ => 128
  | .movhi _ _ _ => 129
  | .iaddi _ => 130
  | .imuli _ => 131
  | .andi _ => 132
  | .ori _ => 133
  | .xori _ => 134
  | .shli _ => 135
  | .shri _ => 136
  | .sari _ => 137
  | .icmpi _ _ _ _ _ => 138
  | .leai _ => 139
  | .fadd _ _ _ _ => 192
  | .fsub _ _ _ _ => 193
  | .fmul _ _ _ _ => 194
  | .ffma _ _ _ _ => 195
  | .fmin _ _ => 196
  | .fmax _ _ => 197
  | .fcmp _ _ => 198
  | .fclass _ _ => 199
  | .frcp _ _ _ _ => 200
  | .frsq _ _ => 201
  | .fsqrt _ _ _ => 202
  | .fex2 _ _ _ => 203
  | .flg2 _ _ => 204
  | .fsin _ _ => 205
  | .fcos _ _ => 206
  | .dadd _ _ _ _ => 256
  | .dsub _ _ _ _ => 257
  | .dmul _ _ _ _ => 258
  | .dfma _ _ _ _ => 259
  | .dmin _ _ => 260
  | .dmax _ _ => 261
  | .dcmp _ _ => 262
  | .drcp _ _ _ _ => 263
  | .add2h _ _ _ _ => 264
  | .mul2h _ _ _ _ => 265
  | .fma2h _ _ _ _ => 266
  | .max2h _ _ => 267
  | .add2b _ _ _ _ => 268
  | .mul2b _ _ _ _ => 269
  | .fma2b _ _ _ _ => 270
  | .max2b _ _ => 271
  | .cvt _ _ _ _ _ _ => 320
  | .cvtbx _ _ _ _ _ _ _ => 321
  | .unpkbx _ _ _ _ _ => 322
  | .frnd _ _ _ _ => 323
  | .mov _ _ => 324
  | .movk _ _ _ _ => 325
  | .lscan _ _ _ => 384
  | .lred _ _ => 385
  | .lvote _ _ _ _ _ _ => 386
  | .lbcast _ _ _ _ _ _ => 387
  | .lfind _ _ _ _ _ _ => 388
  | .bra _ _ => 448
  | .brx _ _ => 449
  | .call _ _ => 450
  | .callx _ _ => 451
  | .ret _ => 452
  | .rcb _ _ _ => 453
  | .rcw _ _ => 454
  | .exit _ => 455
  | .yield _ => 456
  | .nop _ => 457
  | .brk _ _ => 458
  | .trap _ _ => 459
  | .tret _ => 460
  | .tretSkip _ => 460
  | .ld _ => 512
  | .st _ => 513
  | .ldu _ => 514
  | .stu _ => 515
  | .pref _ => 516
  | .fence _ => 517
  | .cflush _ => 518
  | .waddr _ => 519
  | .atom _ => 576
  | .atomcas _ => 577
  | .red _ => 578
  | .cpy _ _ _ _ _ => 640
  | .cpyt _ => 641
  | .cpyr _ _ _ _ _ _ => 642
  | .cpyn _ => 643
  | .cpyg _ => 644
  | .cminit _ _ _ _ => 645
  | .cmtest _ _ _ _ _ _ => 646
  | .cmwait _ _ _ _ _ => 647
  | .tlwait _ _ _ _ => 648
  | .tlread _ _ _ _ _ => 649
  | .seqend _ => 650
  | .mldw _ => 704
  | .mswap _ _ _ => 705
  | .mstrm _ _ _ => 706
  | .mldt _ => 707
  | .mldtAcc _ _ => 707
  | .maclr _ _ _ _ => 708
  | .macld _ _ => 709
  | .macst _ _ => 710
  | .mvcnt _ _ => 711
  | .mloop _ _ _ => 712
  | .mmode _ _ => 713
  | .fork _ _ _ => 768
  | .rdv _ => 769
  | .barinit _ _ _ => 770
  | .barrive _ _ _ => 771
  | .barwait _ _ _ => 772
  | .barstat _ _ _ _ => 773
  | .tfetch _ _ _ => 774
  | .wpush _ _ _ => 775
  | .wpop _ _ _ _ => 776
  | .wdone _ _ => 777
  | .cwait _ _ => 778
  | .thset _ _ _ _ => 779
  | .thget _ _ _ => 780
  | .rcapmkReg _ _ _ _ _ _ _ => 832
  | .rcapmkLand _ _ _ _ _ _ _ => 832
  | .rcapld _ _ _ => 833
  | .rcaprevReg _ => 834
  | .rcaprevLand _ _ => 834
  | .rwr _ _ _ _ _ _ _ _ => 835
  | .rarm _ _ _ => 836
  | .rpoll _ _ _ _ _ => 837
  | .phreg _ _ _ _ => 896
  | .phdrop _ => 897
  | .phsig _ _ _ => 898
  | .phsigb _ _ _ _ => 899
  | .phany _ _ _ => 900
  | .phanyBind _ _ _ _ _ => 900
  | .phwait _ _ _ => 901
  | .phtest _ _ _ => 902
  | .phwin _ _ _ _ => 903
  | .phtime _ _ _ => 904
  | .coll _ _ _ _ => 905
  | .collst _ _ _ => 906
  | .sread _ _ _ => 960
  | .sreadSys _ _ _ => 960
  | .swrite _ _ _ => 961
  | .swriteSys _ _ _ => 961
  | .sethdl _ _ => 962
  | .estatLog _ _ _ => 963
  | .estatEq _ _ => 963
  | .pggen _ _ _ => 964
  | .assistNext _ _ => 965
  | .assistGet _ _ _ => 965
  | .assistPut _ _ _ => 965
  | .assistDone _ => 965
  | .halt _ => 966
  | .haltStop _ => 966
  | _ => 1024

/-- The reuse hints with the operands they mark (R51, R93, R95). -/
def Instr.hints : Instr → List (Bool × Operand)
  | .iadd x _ | .isub x _ | .iadd64 x _ | .isub64 x _ | .imulhi x _ | .imin x _ | .imax x _ | .bfx x _ =>
    [(x.ha, x.a), (x.hb, x.b)]
  | .iaddc x _ _ | .isubb x _ _ | .lea x _ _ | .isel x _ _ => [(x.ha, x.a), (x.hb, x.b)]
  | .imul x | .and x | .or x | .xor x | .andn x | .shl x | .shr x | .sar x | .rotl x =>
    [(x.ha, x.a), (x.hb, x.b)]
  | .fadd x _ _ _ | .fsub x _ _ _ | .fmul x _ _ _ | .dadd x _ _ _ | .dsub x _ _ _ | .dmul x _ _ _
  | .add2h x _ _ _ | .mul2h x _ _ _ | .add2b x _ _ _ | .mul2b x _ _ _ => [(x.ha, x.a), (x.hb, x.b)]
  | .fmin x _ | .fmax x _ | .dmin x _ | .dmax x _ | .max2h x _ | .max2b x _ => [(x.ha, x.a), (x.hb, x.b)]
  | .imad x _ | .idot4 x _ => [(x.ha, x.a), (x.hb, x.b), (x.hc, x.c)]
  | .imadw x | .isad x | .funnel x | .bfi x | .byteperm x => [(x.ha, x.a), (x.hb, x.b), (x.hc, x.c)]
  | .ffma x _ _ _ | .dfma x _ _ _ | .fma2h x _ _ _ | .fma2b x _ _ _ => [(x.ha, x.a), (x.hb, x.b), (x.hc, x.c)]
  | .iabs x _ | .ineg x _ | .mov x _ | .lred x _ => [(x.ha, x.a)]
  | .not x | .popc x | .clz x | .ctz x | .brev x => [(x.ha, x.a)]
  | .fclass x _ | .frsq x _ | .flg2 x _ | .fsin x _ | .fcos x _ => [(x.ha, x.a)]
  | .frcp x _ _ _ | .drcp x _ _ _ => [(x.ha, x.a)]
  | .fsqrt x _ _ | .fex2 x _ _ | .lscan x _ _ => [(x.ha, x.a)]
  | .cvt x _ _ _ _ _ => [(x.ha, x.a)]
  | .frnd x _ _ _ => [(x.ha, x.a)]
  | .icmp x => [(x.ha, x.a), (x.hb, x.b)]
  | .fcmp x _ | .dcmp x _ => [(x.ha, x.a), (x.hb, x.b)]
  | .pmovSet _ a ha => [(ha, a)]
  | .lbcast _ _ a _ ha _ => [(ha, a)]
  | _ => []

/-- No reuse hint marks an operand that is not a per-lane register (R51, reason RSVBIT). -/
def Instr.hintsOk (i : Instr) : Bool := i.hints.all fun h => !h.1 || h.2.perLane

/-- The fields that the instruction does not use are zero (R49, R111, R153, reason RSVBIT): those that its constructor
carries all the same. -/
def Instr.fieldsOk : Instr → Bool
  | .ldu m | .stu m | .waddr m => m.hint == .dflt
  | .pref m => m.d.isZero
  | .cflush m => m.d.isZero && m.hint == .dflt
  | .fence m => m.d.isZero && m.a.isZero && m.b.isZero && m.hint == .dflt && m.disp == 0
  | .red x => x.d.isZero
  | .mldw x | .mstrm x _ _ | .mldt x | .mldtAcc x _ | .macld x _ | .macst x _ => x.arr || x.bar == 0
  | .mswap _ bar arr | .maclr _ _ bar arr => arr || bar == 0
  | _ => true

/-- Rounding codes 0 to 3 (R30). -/
def rnd4 (r : BitVec 3) : Bool := decide (r.toNat < 4)

/-- Rounding codes 0 to 4, with `rna` (R30). -/
def rnd5 (r : BitVec 3) : Bool := decide (r.toNat < 5)

/-- The system register numbers that an agent reaches (R211): a cluster control core or a firmware core. -/
def sysReach (e : Engine) (n : BitVec 17) : Bool :=
  let x := n.toNat
  let perCore := decide (x < 0x8000) && [0x200, 0x201, 0x210, 0x211, 0x212, 0x213, 0x218, 0x219, 0x21a, 0x21b, 0x230].contains (x % 0x1000)
  let queue := decide (0x12000 ≤ x) && decide (x < 0x12200) && decide (x % 8 < 5)
  let ctx := (decide (0x13000 ≤ x) && decide (x ≤ 0x13009)) || (decide (0x13010 ≤ x) && decide (x ≤ 0x13014)) || x == 0x13018
  let ras := (decide (0x14000 ≤ x) && decide (x ≤ 0x14003)) || [0x14010, 0x14011, 0x14012, 0x14018, 0x14020, 0x14021, 0x14030].contains x
    || (decide (0x14100 ≤ x) && decide (x ≤ 0x1417f))
  let port := decide (0x18400 ≤ x) && decide (x < 0x18460) && decide (x % 4 < 3)
  match e with
  | .control => perCore || x == 0x8000 || (decide (0x8010 ≤ x) && decide (x ≤ 0x8017)) || x == 0x9000
  | .firmware => x == 0x9000 || x == 0x10000 || x == 0x10001 || queue || ctx || ras || x == 0x15000 || x == 0x15001
      || [0x18000, 0x18100, 0x18101, 0x18110, 0x18111, 0x18200, 0x18300, 0x18301, 0x18302].contains x || port
  | .troupe => false
  | .matrix => false
  | .copy => false

/-- The codes of the fields are none that R64 refuses (reason CODE): rounding, compare, width, order, scope and the
codes of the fields that an entry defines. `e` is the executing engine, which decides on system register numbers. -/
def Instr.codesOk (e : Engine) : Instr → Bool
  | .icmp x => decide (x.cc.toNat < 10)
  | .icmpi _ _ cc _ _ => decide (cc.toNat < 10)
  | .fcmp x _ | .dcmp x _ => decide (x.cc.toNat < 14)
  | .movhi _ _ imm => decide (imm.toNat < 65536)
  | .shli x | .shri x | .sari x => decide (x.imm.toNat < 32)
  | .fadd _ r _ _ | .fsub _ r _ _ | .fmul _ r _ _ | .dadd _ r _ _ | .dsub _ r _ _ | .dmul _ r _ _
  | .add2h _ r _ _ | .mul2h _ r _ _ | .add2b _ r _ _ | .mul2b _ r _ _ => rnd4 r
  | .ffma _ r _ _ | .dfma _ r _ _ | .fma2h _ r _ _ | .fma2b _ r _ _ => rnd4 r
  | .frcp _ r _ _ | .drcp _ r _ _ => rnd4 r
  | .fsqrt _ r _ => rnd4 r
  | .cvt _ dst src r _ sm => decide (dst.toNat < 12) && decide (src.toNat < 12) && rnd5 r && (sm == 0 || decide (src.toNat < 4))
  | .cvtbx _ _ _ _ r _ _ => rnd5 r
  | .frnd _ fmt r _ => decide (fmt.toNat < 4) && rnd5 r
  | .lscan _ op _ => decide (op.toNat < 14)
  | .lred _ op => decide (op.toNat < 14)
  | .lvote _ _ mode _ _ pd => mode != 3 || pd == 7
  | .ld m | .ldu m => (m.order == .rlx || m.order == .acq || m.order == .sc) && (!m.sx || (m.width != .b64 && m.width != .b128))
  | .st m | .stu m => (m.order == .rlx || m.order == .rel || m.order == .sc) && !m.sx
  | .pref m => m.order == .rlx && m.width == .b8 && m.scope == .tr && !m.sx
  | .fence m => m.order != .rlx && m.width == .b8 && !m.sx
  | .cflush m => m.order == .rlx && m.width == .b8 && !m.sx
  | .waddr m => (m.order == .rlx || m.order == .acq) && (m.width == .b32 || m.width == .b64)
      && (m.scope == .tr || m.scope == .wg || m.scope == .co)
  | .atom x => (x.width == .b32 || x.width == .b64) && decide (x.op.toNat < 15) && (x.op != 14 || x.width == .b32)
  | .atomcas x => (x.width == .b32 || x.width == .b64) && x.op == 0
  | .red x => (x.width == .b32 || x.width == .b64) && decide (x.op.toNat < 15) && (x.op != 14 || x.width == .b32)
      && (x.order == .rlx || x.order == .rel)
  | .cpy _ _ _ _ w => w != 3
  | .cpyt x | .cpyn x | .cpyg x => decide (x.sfmt.toNat < 12) || x.sfmt == 15
  | .cpyr _ _ _ _ _ op => op != 7
  | .tlread _ _ _ sel clr => sel != 3 && (!clr || sel == 2)
  | .maclr _ mask _ _ => mask != 0
  | .mmode _ fmt => decide (fmt.toNat < 5)
  | .cwait _ sc => sc == .pk || sc == .pd
  | .rcapmkReg _ _ reg n _ _ _ => decide (reg.toNat + n.toNat < 256)
  | .rwr _ (.v r) _ _ _ _ _ k => decide (r.toNat + k.toNat < 256)
  | .rarm _ (.v r) k => decide (r.toNat + k.toNat < 256)
  | .rpoll _ _ (.v r) k _ => decide (r.toNat + k.toNat < 256)
  | .phsig _ _ sc => sc != .tr
  | .phwait _ _ sc => sc != .tr
  | .phwin _ _ _ sc => sc != .tr
  | .tret hd => hd.guard == 7 && !hd.neg
  | .tretSkip hd => hd.guard == 7 && !hd.neg
  | .sreadSys _ _ n => sysReach e n
  | .swrite _ (.s n) _ => decide (11 ≤ n.toNat) && decide (n.toNat ≤ 15)
  | .swrite _ _ _ => false
  | .swriteSys _ n _ => sysReach e n
  | _ => true

/-- Every operand may stand where it stands (reason OPERAND); a sequencer names no per-lane register (R63). -/
def Instr.operandsOk (e : Engine) (nregs : Nat) (i : Instr) : Bool :=
  i.uses.all fun u => u.1.accepts nregs u.2
    && ((e != .matrix && e != .copy) || !u.2.perLane || (u.1.optional && u.2.isZero))

/-- The long-latency instructions, which may carry a lookahead (R60). -/
def Instr.longLatency (i : Instr) : Bool :=
  let g := i.opcode / 64
  let p := i.opcode % 64
  (g == 3 && decide (8 ≤ p) && decide (p ≤ 14)) || (g == 4 && decide (p < 8)) || g == 6 || g == 8 || g == 9 || g == 10
    || g == 13 || g == 14 || (g == 11 && p != 8) || (g == 15 && p == 0)

/-- The slot reads its S field (R58). -/
def SlotOp.readsS : SlotOp → Bool
  | .movi | .iaddi | .shli | .shri | .sari | .nop => false
  | .mov | .iadd | .isub | .imul | .imin | .imax | .and | .or | .xor | .andn | .fadd | .fsub | .fmul | .fmin | .fmax
  | .frcp | .cvt | .isel => true

/-- The slot uses its imm6 field (R58). -/
def SlotOp.usesImm : SlotOp → Bool
  | .movi | .iaddi | .shli | .shri | .sari | .cvt | .isel => true
  | .mov | .iadd | .isub | .imul | .imin | .imax | .and | .or | .xor | .andn | .fadd | .fsub | .fmul | .fmin | .fmax
  | .frcp | .nop => false

/-- The unused fields of the slot are zero (R58, reason RSVBIT). -/
def Slot.fieldsOk (x : Slot) : Bool :=
  (x.op.readsS || x.s == 0) && (x.op.usesImm || x.imm == 0) && (x.op != .nop || x.d == 0)

/-- The slot's imm6 is no reserved code (R58, reason CODE). -/
def Slot.codesOk (x : Slot) : Bool :=
  match x.op with
  | .shli | .shri | .sari => decide (x.imm.toNat < 32)
  | .cvt => decide (x.imm.toNat < 4)
  | .mov | .movi | .iadd | .isub | .iaddi | .imul | .imin | .imax | .and | .or | .xor | .andn | .fadd | .fsub | .fmul
  | .fmin | .fmax | .frcp | .nop | .isel => true

/-- The registers that the slot names exist (R9, reason OPERAND). -/
def Slot.operandsOk (nregs : Nat) (x : Slot) : Bool :=
  (x.op == .nop || laneRegsExist nregs x.d.toNat 1) && (!x.op.readsS || laneRegsExist nregs x.s.toNat 1)

/-- The read set of a slot under the bank pairing rule (R59). -/
def Slot.readSet (x : Slot) : List Nat :=
  if x.op = .nop then [] else if x.op.readsS then [x.d.toNat, x.s.toNat] else [x.d.toNat]

/-- The bank pairing rule of R59. -/
def pairOk (x y : Slot) : Bool :=
  let regs := (x.readSet ++ y.readSet).dedup
  (regs.map (· % 4)).Nodup && (x.op == .nop || y.op == .nop || x.d.toNat % 4 != y.d.toNat % 4)

/-- A word that the engine accepts: every rule of R64 that its fields could break. `RESERVED_ENCODING_TRAP` and the
device steps are no words and are always well formed as syntax. -/
def Instr.wf (e : Engine) (nregs : Nat) (i : Instr) : Bool :=
  match i with
  | .pairedWord x y =>
    x.fieldsOk && y.fieldsOk && x.codesOk && y.codesOk && x.operandsOk nregs && y.operandsOk nregs && pairOk x y
  | _ =>
    i.hintsOk && i.fieldsOk && i.codesOk e && i.operandsOk e nregs
      && (match i.hdr? with
          | some hd => !(hd.guard == 7 && hd.neg) && (hd.la == 0 || i.longLatency)
          | none => true)

end Sys2Proof
end

