-- ==== Sys2Proof/Decode.lean ====
section
/-!
DEFINITION. From a 64-bit word to an instruction or a named refusal, and back (R47-R67).

`decode` is total: it answers the instruction, or the reason of R64 with the slot that R65 reports. `encode` gives the
word of an instruction and is written from the same tables of the spec; a device step has no word.
-/

namespace Sys2Proof

/-- A 9-bit operand field read under R49. -/
def Operand.dec (x : BitVec 9) : Operand :=
  if x.getLsbD 8 then
    if x.getLsbD 7 then
      if x.getLsbD 6 then .c (x.extractLsb' 0 6) else .s (x.extractLsb' 0 6)
    else .k (x.extractLsb' 0 7)
  else .v (x.extractLsb' 0 8)

/-- The 9-bit operand field of an operand (R49). -/
def Operand.enc : Operand → BitVec 9
  | .v n => 0#1 ++ n
  | .k n => 0b10#2 ++ n
  | .s n => 0b110#3 ++ n
  | .c n => 0b111#3 ++ n

/-- Width codes (R54). -/
def Width.dec (x : BitVec 3) : Width :=
  if x = 1 then .b16 else if x = 2 then .b32 else if x = 3 then .b64 else if x = 4 then .b128 else .b8

/-- Width codes (R54). -/
def Width.enc : Width → BitVec 3
  | .b8 => 0
  | .b16 => 1
  | .b32 => 2
  | .b64 => 3
  | .b128 => 4

/-- Codes 5 to 7 are reserved (R54). -/
def Width.valid (x : BitVec 3) : Bool := decide (x.toNat < 5)

/-- Order codes (R54). -/
def Order.dec (x : BitVec 3) : Order :=
  if x = 1 then .acq else if x = 2 then .rel else if x = 3 then .acqrel else if x = 4 then .sc else .rlx

/-- Order codes (R54). -/
def Order.enc : Order → BitVec 3
  | .rlx => 0
  | .acq => 1
  | .rel => 2
  | .acqrel => 3
  | .sc => 4

/-- Codes 5 to 7 are reserved (R54). -/
def Order.valid (x : BitVec 3) : Bool := decide (x.toNat < 5)

/-- Scope codes (R54). -/
def Scope.dec (x : BitVec 3) : Scope :=
  if x = 1 then .wg else if x = 2 then .co else if x = 3 then .pk else if x = 4 then .pd else .tr

/-- Scope codes (R54). -/
def Scope.enc : Scope → BitVec 3
  | .tr => 0
  | .wg => 1
  | .co => 2
  | .pk => 3
  | .pd => 4

/-- Codes 5 to 7 are reserved (R54). -/
def Scope.valid (x : BitVec 3) : Bool := decide (x.toNat < 5)

/-- Hint codes (R54). -/
def Hint.dec (x : BitVec 2) : Hint :=
  if x = 1 then .strm else if x = 2 then .keep else if x = 3 then .nl1 else .dflt

/-- Hint codes (R54). -/
def Hint.enc : Hint → BitVec 2
  | .dflt => 0
  | .strm => 1
  | .keep => 2
  | .nl1 => 3

/-- The fields of a full-form word (R48). -/
structure Raw where
  op : BitVec 10
  la : BitVec 4
  guard : BitVec 3
  neg : Bool
  dRaw : BitVec 9
  aRaw : BitVec 9
  bRaw : BitVec 9
  f : BitVec 18
  deriving DecidableEq, Repr

/-- The fields of a word at the places of R48. -/
def Raw.unpack (w : DWord) : Raw where
  op := w.extractLsb' 53 10
  la := w.extractLsb' 49 4
  guard := w.extractLsb' 46 3
  neg := w.getLsbD 45
  dRaw := w.extractLsb' 36 9
  aRaw := w.extractLsb' 27 9
  bRaw := w.extractLsb' 18 9
  f := w.extractLsb' 0 18

/-- The word of the fields (R48): bit 63 is 0. -/
def Raw.pack (r : Raw) : DWord :=
  (0#1 ++ r.op ++ r.la ++ r.guard ++ BitVec.ofBool r.neg ++ r.dRaw ++ r.aRaw ++ r.bRaw ++ r.f : BitVec 64)

/-- The header of the word. -/
def Raw.hd (r : Raw) : Hdr := ⟨r.la, r.guard, r.neg⟩

/-- The D operand. -/
def Raw.d (r : Raw) : Operand := .dec r.dRaw

/-- The A operand. -/
def Raw.a (r : Raw) : Operand := .dec r.aRaw

/-- The B operand. -/
def Raw.b (r : Raw) : Operand := .dec r.bRaw

/-- The 27-bit immediate of class I, in place of B and F (R53). -/
def Raw.imm (r : Raw) : BitVec 27 := r.bRaw ++ r.f

/-- A word pulled apart: whether an unused field is not zero, whether a field holds a code that its type cannot, and
the instruction. -/
structure Parsed where
  rsv : Bool
  code : Bool
  instr : Instr
  deriving DecidableEq, Repr

/-- The instruction at a position of group 0, integer arithmetic (R62), with its unused-field and code checks. DEDUCED (log entry 48): SM
other than 00 on an integer instruction is a reserved code, reason CODE, and no unused field (R51, R64, R76). -/
def parseG0 (r : Raw) : Nat → Option Parsed
  | 0 => some ⟨(r.f.extractLsb' 9 9 != 0 || r.f.extractLsb' 6 1 != 0), (r.f.extractLsb' 3 3 != 0 || r.f.extractLsb' 0 2 != 0),
      .iadd ⟨r.hd, r.d, r.a, r.b, r.f.getLsbD 8, r.f.getLsbD 7⟩ (r.f.getLsbD 2)⟩
  | 1 => some ⟨(r.f.extractLsb' 9 9 != 0 || r.f.extractLsb' 6 1 != 0), (r.f.extractLsb' 3 3 != 0 || r.f.extractLsb' 0 2 != 0),
      .isub ⟨r.hd, r.d, r.a, r.b, r.f.getLsbD 8, r.f.getLsbD 7⟩ (r.f.getLsbD 2)⟩
  | 2 => some ⟨(r.f.extractLsb' 9 9 != 0 || r.f.extractLsb' 6 1 != 0), (r.f.extractLsb' 3 3 != 0 || r.f.extractLsb' 2 1 != 0 || r.f.extractLsb' 0 2 != 0),
      .imul ⟨r.hd, r.d, r.a, r.b, r.f.getLsbD 8, r.f.getLsbD 7⟩⟩
  | 3 => some ⟨(r.f.extractLsb' 10 8 != 0 || r.f.extractLsb' 6 1 != 0), (r.f.extractLsb' 3 3 != 0 || r.f.extractLsb' 2 1 != 0 || r.f.extractLsb' 0 2 != 0),
      .imulhi ⟨r.hd, r.d, r.a, r.b, r.f.getLsbD 8, r.f.getLsbD 7⟩ (r.f.getLsbD 9)⟩
  | 4 => some ⟨false, (r.f.extractLsb' 3 3 != 0 || r.f.extractLsb' 0 2 != 0),
      .imad ⟨r.hd, r.d, r.a, r.b, Operand.dec (r.f.extractLsb' 9 9), r.f.getLsbD 8, r.f.getLsbD 7, r.f.getLsbD 6⟩ (r.f.getLsbD 2)⟩
  | 5 => some ⟨false, (r.f.extractLsb' 3 3 != 0 || r.f.extractLsb' 2 1 != 0 || r.f.extractLsb' 0 2 != 0),
      .imadw ⟨r.hd, r.d, r.a, r.b, Operand.dec (r.f.extractLsb' 9 9), r.f.getLsbD 8, r.f.getLsbD 7, r.f.getLsbD 6⟩⟩
  | 6 => some ⟨(r.f.extractLsb' 12 3 != 0 || r.f.extractLsb' 6 1 != 0), (r.f.extractLsb' 3 3 != 0 || r.f.extractLsb' 2 1 != 0 || r.f.extractLsb' 0 2 != 0),
      .iaddc ⟨r.hd, r.d, r.a, r.b, r.f.getLsbD 8, r.f.getLsbD 7⟩ (r.f.extractLsb' 15 3) (r.f.extractLsb' 9 3)⟩
  | 7 => some ⟨(r.f.extractLsb' 12 3 != 0 || r.f.extractLsb' 6 1 != 0), (r.f.extractLsb' 3 3 != 0 || r.f.extractLsb' 2 1 != 0 || r.f.extractLsb' 0 2 != 0),
      .isubb ⟨r.hd, r.d, r.a, r.b, r.f.getLsbD 8, r.f.getLsbD 7⟩ (r.f.extractLsb' 15 3) (r.f.extractLsb' 9 3)⟩
  | 8 => some ⟨(r.f.extractLsb' 10 8 != 0 || r.f.extractLsb' 6 1 != 0), (r.f.extractLsb' 3 3 != 0 || r.f.extractLsb' 2 1 != 0 || r.f.extractLsb' 0 2 != 0),
      .imin ⟨r.hd, r.d, r.a, r.b, r.f.getLsbD 8, r.f.getLsbD 7⟩ (r.f.getLsbD 9)⟩
  | 9 => some ⟨(r.f.extractLsb' 10 8 != 0 || r.f.extractLsb' 6 1 != 0), (r.f.extractLsb' 3 3 != 0 || r.f.extractLsb' 2 1 != 0 || r.f.extractLsb' 0 2 != 0),
      .imax ⟨r.hd, r.d, r.a, r.b, r.f.getLsbD 8, r.f.getLsbD 7⟩ (r.f.getLsbD 9)⟩
  | 10 => some ⟨(r.bRaw != 0 || r.f.extractLsb' 9 9 != 0 || r.f.extractLsb' 7 1 != 0 || r.f.extractLsb' 6 1 != 0), (r.f.extractLsb' 3 3 != 0 || r.f.extractLsb' 0 2 != 0),
      .iabs ⟨r.hd, r.d, r.a, r.f.getLsbD 8⟩ (r.f.getLsbD 2)⟩
  | 11 => some ⟨(r.bRaw != 0 || r.f.extractLsb' 9 9 != 0 || r.f.extractLsb' 7 1 != 0 || r.f.extractLsb' 6 1 != 0), (r.f.extractLsb' 3 3 != 0 || r.f.extractLsb' 0 2 != 0),
      .ineg ⟨r.hd, r.d, r.a, r.f.getLsbD 8⟩ (r.f.getLsbD 2)⟩
  | 12 => some ⟨false, (r.f.extractLsb' 3 3 != 0 || r.f.extractLsb' 2 1 != 0 || r.f.extractLsb' 0 2 != 0),
      .isad ⟨r.hd, r.d, r.a, r.b, Operand.dec (r.f.extractLsb' 9 9), r.f.getLsbD 8, r.f.getLsbD 7, r.f.getLsbD 6⟩⟩
  | 13 => some ⟨false, (r.f.extractLsb' 3 3 != 0 || r.f.extractLsb' 0 2 != 0),
      .idot4 ⟨r.hd, r.d, r.a, r.b, Operand.dec (r.f.extractLsb' 9 9), r.f.getLsbD 8, r.f.getLsbD 7, r.f.getLsbD 6⟩ (r.f.getLsbD 2)⟩
  | 14 => some ⟨(r.f.extractLsb' 15 3 != 0 || r.f.extractLsb' 6 1 != 0), (r.f.extractLsb' 3 3 != 0 || r.f.extractLsb' 2 1 != 0 || r.f.extractLsb' 0 2 != 0),
      .lea ⟨r.hd, r.d, r.a, r.b, r.f.getLsbD 8, r.f.getLsbD 7⟩ (r.f.extractLsb' 9 5) (r.f.getLsbD 14)⟩
  | 15 => some ⟨(r.f.extractLsb' 9 9 != 0 || r.f.extractLsb' 6 1 != 0), (r.f.extractLsb' 3 3 != 0 || r.f.extractLsb' 0 2 != 0),
      .iadd64 ⟨r.hd, r.d, r.a, r.b, r.f.getLsbD 8, r.f.getLsbD 7⟩ (r.f.getLsbD 2)⟩
  | 16 => some ⟨(r.f.extractLsb' 9 9 != 0 || r.f.extractLsb' 6 1 != 0), (r.f.extractLsb' 3 3 != 0 || r.f.extractLsb' 0 2 != 0),
      .isub64 ⟨r.hd, r.d, r.a, r.b, r.f.getLsbD 8, r.f.getLsbD 7⟩ (r.f.getLsbD 2)⟩
  | 17 => some ⟨(r.dRaw != 0 || r.f.extractLsb' 12 6 != 0 || r.f.extractLsb' 6 1 != 0), (r.f.extractLsb' 0 2 != 0),
      .icmp ⟨r.hd, r.a, r.b, r.f.getLsbD 8, r.f.getLsbD 7, r.f.extractLsb' 9 3, r.f.extractLsb' 2 4⟩⟩
  | 18 => some ⟨(r.f.extractLsb' 13 5 != 0 || r.f.extractLsb' 6 1 != 0), (r.f.extractLsb' 3 3 != 0 || r.f.extractLsb' 2 1 != 0 || r.f.extractLsb' 0 2 != 0),
      .isel ⟨r.hd, r.d, r.a, r.b, r.f.getLsbD 8, r.f.getLsbD 7⟩ (r.f.extractLsb' 9 3) (r.f.getLsbD 12)⟩
  | _ => none

/-- The instruction at a position of group 1, logic, shift and predicate (R62), with its unused-field and code checks. -/
def parseG1 (r : Raw) : Nat → Option Parsed
  | 0 => some ⟨(r.f.extractLsb' 9 9 != 0 || r.f.extractLsb' 6 1 != 0), (r.f.extractLsb' 3 3 != 0 || r.f.extractLsb' 2 1 != 0 || r.f.extractLsb' 0 2 != 0),
      .and ⟨r.hd, r.d, r.a, r.b, r.f.getLsbD 8, r.f.getLsbD 7⟩⟩
  | 1 => some ⟨(r.f.extractLsb' 9 9 != 0 || r.f.extractLsb' 6 1 != 0), (r.f.extractLsb' 3 3 != 0 || r.f.extractLsb' 2 1 != 0 || r.f.extractLsb' 0 2 != 0),
      .or ⟨r.hd, r.d, r.a, r.b, r.f.getLsbD 8, r.f.getLsbD 7⟩⟩
  | 2 => some ⟨(r.f.extractLsb' 9 9 != 0 || r.f.extractLsb' 6 1 != 0), (r.f.extractLsb' 3 3 != 0 || r.f.extractLsb' 2 1 != 0 || r.f.extractLsb' 0 2 != 0),
      .xor ⟨r.hd, r.d, r.a, r.b, r.f.getLsbD 8, r.f.getLsbD 7⟩⟩
  | 3 => some ⟨(r.f.extractLsb' 9 9 != 0 || r.f.extractLsb' 6 1 != 0), (r.f.extractLsb' 3 3 != 0 || r.f.extractLsb' 2 1 != 0 || r.f.extractLsb' 0 2 != 0),
      .andn ⟨r.hd, r.d, r.a, r.b, r.f.getLsbD 8, r.f.getLsbD 7⟩⟩
  | 4 => some ⟨(r.bRaw != 0 || r.f.extractLsb' 9 9 != 0 || r.f.extractLsb' 7 1 != 0 || r.f.extractLsb' 6 1 != 0), (r.f.extractLsb' 3 3 != 0 || r.f.extractLsb' 2 1 != 0 || r.f.extractLsb' 0 2 != 0),
      .not ⟨r.hd, r.d, r.a, r.f.getLsbD 8⟩⟩
  | 5 => some ⟨(r.f.extractLsb' 0 1 != 0), false,
      .bool3 r.hd (r.d) (r.a) (r.b) (Operand.dec (r.f.extractLsb' 9 9)) (r.f.extractLsb' 1 8)⟩
  | 6 => some ⟨(r.f.extractLsb' 9 9 != 0 || r.f.extractLsb' 6 1 != 0), (r.f.extractLsb' 3 3 != 0 || r.f.extractLsb' 2 1 != 0 || r.f.extractLsb' 0 2 != 0),
      .shl ⟨r.hd, r.d, r.a, r.b, r.f.getLsbD 8, r.f.getLsbD 7⟩⟩
  | 7 => some ⟨(r.f.extractLsb' 9 9 != 0 || r.f.extractLsb' 6 1 != 0), (r.f.extractLsb' 3 3 != 0 || r.f.extractLsb' 2 1 != 0 || r.f.extractLsb' 0 2 != 0),
      .shr ⟨r.hd, r.d, r.a, r.b, r.f.getLsbD 8, r.f.getLsbD 7⟩⟩
  | 8 => some ⟨(r.f.extractLsb' 9 9 != 0 || r.f.extractLsb' 6 1 != 0), (r.f.extractLsb' 3 3 != 0 || r.f.extractLsb' 2 1 != 0 || r.f.extractLsb' 0 2 != 0),
      .sar ⟨r.hd, r.d, r.a, r.b, r.f.getLsbD 8, r.f.getLsbD 7⟩⟩
  | 9 => some ⟨(r.f.extractLsb' 9 9 != 0 || r.f.extractLsb' 6 1 != 0), (r.f.extractLsb' 3 3 != 0 || r.f.extractLsb' 2 1 != 0 || r.f.extractLsb' 0 2 != 0),
      .rotl ⟨r.hd, r.d, r.a, r.b, r.f.getLsbD 8, r.f.getLsbD 7⟩⟩
  | 10 => some ⟨false, (r.f.extractLsb' 3 3 != 0 || r.f.extractLsb' 2 1 != 0 || r.f.extractLsb' 0 2 != 0),
      .funnel ⟨r.hd, r.d, r.a, r.b, Operand.dec (r.f.extractLsb' 9 9), r.f.getLsbD 8, r.f.getLsbD 7, r.f.getLsbD 6⟩⟩
  | 11 => some ⟨(r.f.extractLsb' 10 8 != 0 || r.f.extractLsb' 6 1 != 0), (r.f.extractLsb' 3 3 != 0 || r.f.extractLsb' 2 1 != 0 || r.f.extractLsb' 0 2 != 0),
      .bfx ⟨r.hd, r.d, r.a, r.b, r.f.getLsbD 8, r.f.getLsbD 7⟩ (r.f.getLsbD 9)⟩
  | 12 => some ⟨false, (r.f.extractLsb' 3 3 != 0 || r.f.extractLsb' 2 1 != 0 || r.f.extractLsb' 0 2 != 0),
      .bfi ⟨r.hd, r.d, r.a, r.b, Operand.dec (r.f.extractLsb' 9 9), r.f.getLsbD 8, r.f.getLsbD 7, r.f.getLsbD 6⟩⟩
  | 13 => some ⟨(r.bRaw != 0 || r.f.extractLsb' 9 9 != 0 || r.f.extractLsb' 7 1 != 0 || r.f.extractLsb' 6 1 != 0), (r.f.extractLsb' 3 3 != 0 || r.f.extractLsb' 2 1 != 0 || r.f.extractLsb' 0 2 != 0),
      .popc ⟨r.hd, r.d, r.a, r.f.getLsbD 8⟩⟩
  | 14 => some ⟨(r.bRaw != 0 || r.f.extractLsb' 9 9 != 0 || r.f.extractLsb' 7 1 != 0 || r.f.extractLsb' 6 1 != 0), (r.f.extractLsb' 3 3 != 0 || r.f.extractLsb' 2 1 != 0 || r.f.extractLsb' 0 2 != 0),
      .clz ⟨r.hd, r.d, r.a, r.f.getLsbD 8⟩⟩
  | 15 => some ⟨(r.bRaw != 0 || r.f.extractLsb' 9 9 != 0 || r.f.extractLsb' 7 1 != 0 || r.f.extractLsb' 6 1 != 0), (r.f.extractLsb' 3 3 != 0 || r.f.extractLsb' 2 1 != 0 || r.f.extractLsb' 0 2 != 0),
      .ctz ⟨r.hd, r.d, r.a, r.f.getLsbD 8⟩⟩
  | 16 => some ⟨(r.bRaw != 0 || r.f.extractLsb' 9 9 != 0 || r.f.extractLsb' 7 1 != 0 || r.f.extractLsb' 6 1 != 0), (r.f.extractLsb' 3 3 != 0 || r.f.extractLsb' 2 1 != 0 || r.f.extractLsb' 0 2 != 0),
      .brev ⟨r.hd, r.d, r.a, r.f.getLsbD 8⟩⟩
  | 17 => some ⟨false, (r.f.extractLsb' 3 3 != 0 || r.f.extractLsb' 2 1 != 0 || r.f.extractLsb' 0 2 != 0),
      .byteperm ⟨r.hd, r.d, r.a, r.b, Operand.dec (r.f.extractLsb' 9 9), r.f.getLsbD 8, r.f.getLsbD 7, r.f.getLsbD 6⟩⟩
  | 18 => some ⟨(r.dRaw != 0 || r.aRaw != 0 || r.bRaw != 0 || r.f.extractLsb' 12 2 != 0 || r.f.extractLsb' 6 3 != 0), false,
      .pset r.hd (r.f.extractLsb' 9 3) (r.f.extractLsb' 15 3) (r.f.getLsbD 14) (r.f.extractLsb' 3 3) (r.f.getLsbD 2) (r.f.extractLsb' 0 2)⟩
  | 19 =>
    if !r.f.getLsbD 9 then some ⟨(r.aRaw != 0 || r.bRaw != 0 || r.f.extractLsb' 10 8 != 0 || r.f.extractLsb' 8 1 != 0 || r.f.extractLsb' 7 1 != 0 || r.f.extractLsb' 6 1 != 0), (r.f.extractLsb' 3 3 != 0 || r.f.extractLsb' 2 1 != 0 || r.f.extractLsb' 0 2 != 0),
      .pmovGet r.hd (r.d)⟩
    else some ⟨(r.dRaw != 0 || r.bRaw != 0 || r.f.extractLsb' 10 8 != 0 || r.f.extractLsb' 7 1 != 0 || r.f.extractLsb' 6 1 != 0), (r.f.extractLsb' 3 3 != 0 || r.f.extractLsb' 2 1 != 0 || r.f.extractLsb' 0 2 != 0),
      .pmovSet r.hd (r.a) (r.f.getLsbD 8)⟩
  | _ => none

/-- The instruction at a position of group 2, immediate (R62), with its unused-field and code checks. -/
def parseG2 (r : Raw) : Nat → Option Parsed
  | 0 => some ⟨(r.aRaw != 0), false,
      .movi r.hd (r.d) (r.imm)⟩
  | 1 => some ⟨(r.aRaw != 0), false,
      .movhi r.hd (r.d) (r.imm)⟩
  | 2 => some ⟨false, false,
      .iaddi ⟨r.hd, r.d, r.a, r.imm⟩⟩
  | 3 => some ⟨false, false,
      .imuli ⟨r.hd, r.d, r.a, r.imm⟩⟩
  | 4 => some ⟨false, false,
      .andi ⟨r.hd, r.d, r.a, r.imm⟩⟩
  | 5 => some ⟨false, false,
      .ori ⟨r.hd, r.d, r.a, r.imm⟩⟩
  | 6 => some ⟨false, false,
      .xori ⟨r.hd, r.d, r.a, r.imm⟩⟩
  | 7 => some ⟨false, false,
      .shli ⟨r.hd, r.d, r.a, r.imm⟩⟩
  | 8 => some ⟨false, false,
      .shri ⟨r.hd, r.d, r.a, r.imm⟩⟩
  | 9 => some ⟨false, false,
      .sari ⟨r.hd, r.d, r.a, r.imm⟩⟩
  | 10 => some ⟨(r.dRaw != 0), false,
      .icmpi r.hd (r.a) (r.imm.extractLsb' 23 4) (r.imm.extractLsb' 20 3) (r.imm.extractLsb' 0 20)⟩
  | 11 => some ⟨false, false,
      .leai ⟨r.hd, r.d, r.a, r.imm⟩⟩
  | _ => none

/-- The instruction at a position of group 3, FP32 (R62), with its unused-field and code checks. -/
def parseG3 (r : Raw) : Nat → Option Parsed
  | 0 => some ⟨(r.f.extractLsb' 9 9 != 0 || r.f.extractLsb' 6 1 != 0), false,
      .fadd ⟨r.hd, r.d, r.a, r.b, r.f.getLsbD 8, r.f.getLsbD 7⟩ (r.f.extractLsb' 3 3) (r.f.getLsbD 2) (r.f.extractLsb' 0 2)⟩
  | 1 => some ⟨(r.f.extractLsb' 9 9 != 0 || r.f.extractLsb' 6 1 != 0), false,
      .fsub ⟨r.hd, r.d, r.a, r.b, r.f.getLsbD 8, r.f.getLsbD 7⟩ (r.f.extractLsb' 3 3) (r.f.getLsbD 2) (r.f.extractLsb' 0 2)⟩
  | 2 => some ⟨(r.f.extractLsb' 9 9 != 0 || r.f.extractLsb' 6 1 != 0), false,
      .fmul ⟨r.hd, r.d, r.a, r.b, r.f.getLsbD 8, r.f.getLsbD 7⟩ (r.f.extractLsb' 3 3) (r.f.getLsbD 2) (r.f.extractLsb' 0 2)⟩
  | 3 => some ⟨false, false,
      .ffma ⟨r.hd, r.d, r.a, r.b, Operand.dec (r.f.extractLsb' 9 9), r.f.getLsbD 8, r.f.getLsbD 7, r.f.getLsbD 6⟩ (r.f.extractLsb' 3 3) (r.f.getLsbD 2) (r.f.extractLsb' 0 2)⟩
  | 4 => some ⟨(r.f.extractLsb' 9 9 != 0 || r.f.extractLsb' 6 1 != 0), (r.f.extractLsb' 3 3 != 0 || r.f.extractLsb' 2 1 != 0),
      .fmin ⟨r.hd, r.d, r.a, r.b, r.f.getLsbD 8, r.f.getLsbD 7⟩ (r.f.extractLsb' 0 2)⟩
  | 5 => some ⟨(r.f.extractLsb' 9 9 != 0 || r.f.extractLsb' 6 1 != 0), (r.f.extractLsb' 3 3 != 0 || r.f.extractLsb' 2 1 != 0),
      .fmax ⟨r.hd, r.d, r.a, r.b, r.f.getLsbD 8, r.f.getLsbD 7⟩ (r.f.extractLsb' 0 2)⟩
  | 6 => some ⟨(r.dRaw != 0 || r.f.extractLsb' 12 6 != 0 || r.f.extractLsb' 6 1 != 0), false,
      .fcmp ⟨r.hd, r.a, r.b, r.f.getLsbD 8, r.f.getLsbD 7, r.f.extractLsb' 9 3, r.f.extractLsb' 2 4⟩ (r.f.extractLsb' 0 2)⟩
  | 7 => some ⟨(r.bRaw != 0 || r.f.extractLsb' 9 9 != 0 || r.f.extractLsb' 7 1 != 0 || r.f.extractLsb' 6 1 != 0), (r.f.extractLsb' 3 3 != 0 || r.f.extractLsb' 2 1 != 0),
      .fclass ⟨r.hd, r.d, r.a, r.f.getLsbD 8⟩ (r.f.extractLsb' 0 2)⟩
  | 8 => some ⟨(r.bRaw != 0 || r.f.extractLsb' 9 9 != 0 || r.f.extractLsb' 7 1 != 0 || r.f.extractLsb' 6 1 != 0), false,
      .frcp ⟨r.hd, r.d, r.a, r.f.getLsbD 8⟩ (r.f.extractLsb' 3 3) (r.f.getLsbD 2) (r.f.extractLsb' 0 2)⟩
  | 9 => some ⟨(r.bRaw != 0 || r.f.extractLsb' 9 9 != 0 || r.f.extractLsb' 7 1 != 0 || r.f.extractLsb' 6 1 != 0), (r.f.extractLsb' 3 3 != 0 || r.f.extractLsb' 2 1 != 0),
      .frsq ⟨r.hd, r.d, r.a, r.f.getLsbD 8⟩ (r.f.extractLsb' 0 2)⟩
  | 10 => some ⟨(r.bRaw != 0 || r.f.extractLsb' 9 9 != 0 || r.f.extractLsb' 7 1 != 0 || r.f.extractLsb' 6 1 != 0), (r.f.extractLsb' 2 1 != 0),
      .fsqrt ⟨r.hd, r.d, r.a, r.f.getLsbD 8⟩ (r.f.extractLsb' 3 3) (r.f.extractLsb' 0 2)⟩
  | 11 => some ⟨(r.bRaw != 0 || r.f.extractLsb' 9 9 != 0 || r.f.extractLsb' 7 1 != 0 || r.f.extractLsb' 6 1 != 0), (r.f.extractLsb' 3 3 != 0),
      .fex2 ⟨r.hd, r.d, r.a, r.f.getLsbD 8⟩ (r.f.getLsbD 2) (r.f.extractLsb' 0 2)⟩
  | 12 => some ⟨(r.bRaw != 0 || r.f.extractLsb' 9 9 != 0 || r.f.extractLsb' 7 1 != 0 || r.f.extractLsb' 6 1 != 0), (r.f.extractLsb' 3 3 != 0 || r.f.extractLsb' 2 1 != 0),
      .flg2 ⟨r.hd, r.d, r.a, r.f.getLsbD 8⟩ (r.f.extractLsb' 0 2)⟩
  | 13 => some ⟨(r.bRaw != 0 || r.f.extractLsb' 9 9 != 0 || r.f.extractLsb' 7 1 != 0 || r.f.extractLsb' 6 1 != 0), (r.f.extractLsb' 3 3 != 0 || r.f.extractLsb' 2 1 != 0),
      .fsin ⟨r.hd, r.d, r.a, r.f.getLsbD 8⟩ (r.f.extractLsb' 0 2)⟩
  | 14 => some ⟨(r.bRaw != 0 || r.f.extractLsb' 9 9 != 0 || r.f.extractLsb' 7 1 != 0 || r.f.extractLsb' 6 1 != 0), (r.f.extractLsb' 3 3 != 0 || r.f.extractLsb' 2 1 != 0),
      .fcos ⟨r.hd, r.d, r.a, r.f.getLsbD 8⟩ (r.f.extractLsb' 0 2)⟩
  | _ => none

/-- The instruction at a position of group 4, FP64 and packed (R62), with its unused-field and code checks. -/
def parseG4 (r : Raw) : Nat → Option Parsed
  | 0 => some ⟨(r.f.extractLsb' 9 9 != 0 || r.f.extractLsb' 6 1 != 0), false,
      .dadd ⟨r.hd, r.d, r.a, r.b, r.f.getLsbD 8, r.f.getLsbD 7⟩ (r.f.extractLsb' 3 3) (r.f.getLsbD 2) (r.f.extractLsb' 0 2)⟩
  | 1 => some ⟨(r.f.extractLsb' 9 9 != 0 || r.f.extractLsb' 6 1 != 0), false,
      .dsub ⟨r.hd, r.d, r.a, r.b, r.f.getLsbD 8, r.f.getLsbD 7⟩ (r.f.extractLsb' 3 3) (r.f.getLsbD 2) (r.f.extractLsb' 0 2)⟩
  | 2 => some ⟨(r.f.extractLsb' 9 9 != 0 || r.f.extractLsb' 6 1 != 0), false,
      .dmul ⟨r.hd, r.d, r.a, r.b, r.f.getLsbD 8, r.f.getLsbD 7⟩ (r.f.extractLsb' 3 3) (r.f.getLsbD 2) (r.f.extractLsb' 0 2)⟩
  | 3 => some ⟨false, false,
      .dfma ⟨r.hd, r.d, r.a, r.b, Operand.dec (r.f.extractLsb' 9 9), r.f.getLsbD 8, r.f.getLsbD 7, r.f.getLsbD 6⟩ (r.f.extractLsb' 3 3) (r.f.getLsbD 2) (r.f.extractLsb' 0 2)⟩
  | 4 => some ⟨(r.f.extractLsb' 9 9 != 0 || r.f.extractLsb' 6 1 != 0), (r.f.extractLsb' 3 3 != 0 || r.f.extractLsb' 2 1 != 0),
      .dmin ⟨r.hd, r.d, r.a, r.b, r.f.getLsbD 8, r.f.getLsbD 7⟩ (r.f.extractLsb' 0 2)⟩
  | 5 => some ⟨(r.f.extractLsb' 9 9 != 0 || r.f.extractLsb' 6 1 != 0), (r.f.extractLsb' 3 3 != 0 || r.f.extractLsb' 2 1 != 0),
      .dmax ⟨r.hd, r.d, r.a, r.b, r.f.getLsbD 8, r.f.getLsbD 7⟩ (r.f.extractLsb' 0 2)⟩
  | 6 => some ⟨(r.dRaw != 0 || r.f.extractLsb' 12 6 != 0 || r.f.extractLsb' 6 1 != 0), false,
      .dcmp ⟨r.hd, r.a, r.b, r.f.getLsbD 8, r.f.getLsbD 7, r.f.extractLsb' 9 3, r.f.extractLsb' 2 4⟩ (r.f.extractLsb' 0 2)⟩
  | 7 => some ⟨(r.bRaw != 0 || r.f.extractLsb' 9 9 != 0 || r.f.extractLsb' 7 1 != 0 || r.f.extractLsb' 6 1 != 0), false,
      .drcp ⟨r.hd, r.d, r.a, r.f.getLsbD 8⟩ (r.f.extractLsb' 3 3) (r.f.getLsbD 2) (r.f.extractLsb' 0 2)⟩
  | 8 => some ⟨(r.f.extractLsb' 9 9 != 0 || r.f.extractLsb' 6 1 != 0), false,
      .add2h ⟨r.hd, r.d, r.a, r.b, r.f.getLsbD 8, r.f.getLsbD 7⟩ (r.f.extractLsb' 3 3) (r.f.getLsbD 2) (r.f.extractLsb' 0 2)⟩
  | 9 => some ⟨(r.f.extractLsb' 9 9 != 0 || r.f.extractLsb' 6 1 != 0), false,
      .mul2h ⟨r.hd, r.d, r.a, r.b, r.f.getLsbD 8, r.f.getLsbD 7⟩ (r.f.extractLsb' 3 3) (r.f.getLsbD 2) (r.f.extractLsb' 0 2)⟩
  | 10 => some ⟨false, false,
      .fma2h ⟨r.hd, r.d, r.a, r.b, Operand.dec (r.f.extractLsb' 9 9), r.f.getLsbD 8, r.f.getLsbD 7, r.f.getLsbD 6⟩ (r.f.extractLsb' 3 3) (r.f.getLsbD 2) (r.f.extractLsb' 0 2)⟩
  | 11 => some ⟨(r.f.extractLsb' 9 9 != 0 || r.f.extractLsb' 6 1 != 0), (r.f.extractLsb' 3 3 != 0 || r.f.extractLsb' 2 1 != 0),
      .max2h ⟨r.hd, r.d, r.a, r.b, r.f.getLsbD 8, r.f.getLsbD 7⟩ (r.f.extractLsb' 0 2)⟩
  | 12 => some ⟨(r.f.extractLsb' 9 9 != 0 || r.f.extractLsb' 6 1 != 0), false,
      .add2b ⟨r.hd, r.d, r.a, r.b, r.f.getLsbD 8, r.f.getLsbD 7⟩ (r.f.extractLsb' 3 3) (r.f.getLsbD 2) (r.f.extractLsb' 0 2)⟩
  | 13 => some ⟨(r.f.extractLsb' 9 9 != 0 || r.f.extractLsb' 6 1 != 0), false,
      .mul2b ⟨r.hd, r.d, r.a, r.b, r.f.getLsbD 8, r.f.getLsbD 7⟩ (r.f.extractLsb' 3 3) (r.f.getLsbD 2) (r.f.extractLsb' 0 2)⟩
  | 14 => some ⟨false, false,
      .fma2b ⟨r.hd, r.d, r.a, r.b, Operand.dec (r.f.extractLsb' 9 9), r.f.getLsbD 8, r.f.getLsbD 7, r.f.getLsbD 6⟩ (r.f.extractLsb' 3 3) (r.f.getLsbD 2) (r.f.extractLsb' 0 2)⟩
  | 15 => some ⟨(r.f.extractLsb' 9 9 != 0 || r.f.extractLsb' 6 1 != 0), (r.f.extractLsb' 3 3 != 0 || r.f.extractLsb' 2 1 != 0),
      .max2b ⟨r.hd, r.d, r.a, r.b, r.f.getLsbD 8, r.f.getLsbD 7⟩ (r.f.extractLsb' 0 2)⟩
  | _ => none

/-- The instruction at a position of group 5, conversion and move (R62), with its unused-field and code checks. -/
def parseG5 (r : Raw) : Nat → Option Parsed
  | 0 => some ⟨(r.bRaw != 0 || r.f.extractLsb' 9 1 != 0 || r.f.extractLsb' 7 1 != 0 || r.f.extractLsb' 6 1 != 0), false,
      .cvt ⟨r.hd, r.d, r.a, r.f.getLsbD 8⟩ (r.f.extractLsb' 14 4) (r.f.extractLsb' 10 4) (r.f.extractLsb' 3 3) (r.f.getLsbD 2) (r.f.extractLsb' 0 2)⟩
  | 1 => some ⟨(r.bRaw != 0 || r.f.extractLsb' 6 3 != 0), false,
      .cvtbx r.hd (r.d) (r.a) (Operand.dec (r.f.extractLsb' 9 9)) (r.f.extractLsb' 3 3) (r.f.getLsbD 2) (r.f.extractLsb' 0 2)⟩
  | 2 => some ⟨(r.bRaw != 0 || r.f.extractLsb' 6 3 != 0), (r.f.extractLsb' 3 3 != 0 || r.f.extractLsb' 0 2 != 0),
      .unpkbx r.hd (r.d) (r.a) (Operand.dec (r.f.extractLsb' 9 9)) (r.f.getLsbD 2)⟩
  | 3 => some ⟨(r.bRaw != 0 || r.f.extractLsb' 9 5 != 0 || r.f.extractLsb' 7 1 != 0 || r.f.extractLsb' 6 1 != 0), (r.f.extractLsb' 2 1 != 0),
      .frnd ⟨r.hd, r.d, r.a, r.f.getLsbD 8⟩ (r.f.extractLsb' 14 4) (r.f.extractLsb' 3 3) (r.f.extractLsb' 0 2)⟩
  | 4 => some ⟨(r.bRaw != 0 || r.f.extractLsb' 10 8 != 0 || r.f.extractLsb' 7 1 != 0 || r.f.extractLsb' 6 1 != 0), (r.f.extractLsb' 3 3 != 0 || r.f.extractLsb' 2 1 != 0 || r.f.extractLsb' 0 2 != 0),
      .mov ⟨r.hd, r.d, r.a, r.f.getLsbD 8⟩ (r.f.getLsbD 9)⟩
  | 5 => some ⟨(r.f.extractLsb' 0 18 != 0), false,
      .movk r.hd (r.d) (r.a) (r.b)⟩
  | _ => none

/-- The instruction at a position of group 6, scan tree (R62), with its unused-field and code checks. -/
def parseG6 (r : Raw) : Nat → Option Parsed
  | 0 => some ⟨(r.bRaw != 0 || r.f.extractLsb' 9 4 != 0 || r.f.extractLsb' 0 8 != 0), false,
      .lscan ⟨r.hd, r.d, r.a, r.f.getLsbD 8⟩ (r.f.extractLsb' 14 4) (r.f.getLsbD 13)⟩
  | 1 => some ⟨(r.bRaw != 0 || r.f.extractLsb' 9 4 != 0 || r.f.extractLsb' 0 8 != 0), (r.f.extractLsb' 13 1 != 0),
      .lred ⟨r.hd, r.d, r.a, r.f.getLsbD 8⟩ (r.f.extractLsb' 14 4)⟩
  | 2 => some ⟨((r.f.extractLsb' 16 2 != 3 && r.dRaw != 0) || r.aRaw != 0 || r.bRaw != 0 || r.f.extractLsb' 0 9 != 0), false,
      .lvote r.hd (r.d) (r.f.extractLsb' 16 2) (r.f.getLsbD 15) (r.f.extractLsb' 12 3) (r.f.extractLsb' 9 3)⟩
  | 3 => some ⟨(r.f.extractLsb' 10 8 != 0 || r.f.extractLsb' 0 8 != 0), false,
      .lbcast r.hd (r.d) (r.a) (r.b) (r.f.getLsbD 8) (r.f.getLsbD 9)⟩
  | 4 => some ⟨(r.aRaw != 0 || r.bRaw != 0 || r.f.extractLsb' 17 1 != 0 || r.f.extractLsb' 0 9 != 0), false,
      .lfind r.hd (r.d) (r.f.getLsbD 16) (r.f.getLsbD 15) (r.f.extractLsb' 12 3) (r.f.extractLsb' 9 3)⟩
  | _ => none

/-- The instruction at a position of group 7, control (R62), with its unused-field and code checks. -/
def parseG7 (r : Raw) : Nat → Option Parsed
  | 0 => some ⟨(r.dRaw != 0 || r.aRaw != 0), false,
      .bra r.hd (r.imm)⟩
  | 1 => some ⟨(r.dRaw != 0 || r.bRaw != 0 || r.f.extractLsb' 0 18 != 0), false,
      .brx r.hd (r.a)⟩
  | 2 => some ⟨(r.dRaw != 0 || r.aRaw != 0), false,
      .call r.hd (r.imm)⟩
  | 3 => some ⟨(r.dRaw != 0 || r.bRaw != 0 || r.f.extractLsb' 0 18 != 0), false,
      .callx r.hd (r.a)⟩
  | 4 => some ⟨(r.dRaw != 0 || r.aRaw != 0 || r.bRaw != 0 || r.f.extractLsb' 0 18 != 0), false,
      .ret r.hd⟩
  | 5 => some ⟨(r.aRaw != 0), (r.dRaw.extractLsb' 3 6 != 0),
      .rcb r.hd (r.dRaw.extractLsb' 0 3) (r.imm)⟩
  | 6 => some ⟨(r.dRaw != 0 || r.aRaw != 0 || r.bRaw != 0 || r.f.extractLsb' 10 8 != 0 || r.f.extractLsb' 0 6 != 0), (r.f.extractLsb' 9 1 != 0),
      .rcw r.hd (r.f.extractLsb' 6 3)⟩
  | 7 => some ⟨(r.dRaw != 0 || r.aRaw != 0 || r.bRaw != 0 || r.f.extractLsb' 0 18 != 0), false,
      .exit r.hd⟩
  | 8 => some ⟨(r.dRaw != 0 || r.aRaw != 0 || r.bRaw != 0 || r.f.extractLsb' 0 18 != 0), false,
      .yield r.hd⟩
  | 9 => some ⟨(r.dRaw != 0 || r.aRaw != 0 || r.bRaw != 0 || r.f.extractLsb' 0 18 != 0), false,
      .nop r.hd⟩
  | 10 => some ⟨(r.dRaw != 0 || r.aRaw != 0 || r.bRaw != 0 || r.f.extractLsb' 6 12 != 0), false,
      .brk r.hd (r.f.extractLsb' 0 6)⟩
  | 11 => some ⟨(r.dRaw != 0 || r.aRaw != 0 || r.bRaw != 0 || r.f.extractLsb' 6 12 != 0), false,
      .trap r.hd (r.f.extractLsb' 0 6)⟩
  | 12 =>
    if !r.f.getLsbD 0 then some ⟨(r.dRaw != 0 || r.aRaw != 0 || r.bRaw != 0 || r.f.extractLsb' 6 12 != 0), (r.f.extractLsb' 1 5 != 0),
      .tret r.hd⟩
    else some ⟨(r.dRaw != 0 || r.aRaw != 0 || r.bRaw != 0 || r.f.extractLsb' 6 12 != 0), (r.f.extractLsb' 1 5 != 0),
      .tretSkip r.hd⟩
  | _ => none

/-- The instruction at a position of group 8, memory (R62), with its unused-field and code checks. -/
def parseG8 (r : Raw) : Nat → Option Parsed
  | 0 => some ⟨false, (!Width.valid (r.f.extractLsb' 15 3) || !Order.valid (r.f.extractLsb' 11 3) || !Scope.valid (r.f.extractLsb' 8 3)),
      .ld ⟨r.hd, r.d, r.a, r.b, Width.dec (r.f.extractLsb' 15 3), r.f.getLsbD 14, Order.dec (r.f.extractLsb' 11 3), Scope.dec (r.f.extractLsb' 8 3), Hint.dec (r.f.extractLsb' 6 2), r.f.extractLsb' 0 6⟩⟩
  | 1 => some ⟨false, (!Width.valid (r.f.extractLsb' 15 3) || !Order.valid (r.f.extractLsb' 11 3) || !Scope.valid (r.f.extractLsb' 8 3)),
      .st ⟨r.hd, r.d, r.a, r.b, Width.dec (r.f.extractLsb' 15 3), r.f.getLsbD 14, Order.dec (r.f.extractLsb' 11 3), Scope.dec (r.f.extractLsb' 8 3), Hint.dec (r.f.extractLsb' 6 2), r.f.extractLsb' 0 6⟩⟩
  | 2 => some ⟨(r.f.extractLsb' 6 2 != 0), (!Width.valid (r.f.extractLsb' 15 3) || !Order.valid (r.f.extractLsb' 11 3) || !Scope.valid (r.f.extractLsb' 8 3)),
      .ldu ⟨r.hd, r.d, r.a, r.b, Width.dec (r.f.extractLsb' 15 3), r.f.getLsbD 14, Order.dec (r.f.extractLsb' 11 3), Scope.dec (r.f.extractLsb' 8 3), Hint.dec (r.f.extractLsb' 6 2), r.f.extractLsb' 0 6⟩⟩
  | 3 => some ⟨(r.f.extractLsb' 6 2 != 0), (!Width.valid (r.f.extractLsb' 15 3) || !Order.valid (r.f.extractLsb' 11 3) || !Scope.valid (r.f.extractLsb' 8 3)),
      .stu ⟨r.hd, r.d, r.a, r.b, Width.dec (r.f.extractLsb' 15 3), r.f.getLsbD 14, Order.dec (r.f.extractLsb' 11 3), Scope.dec (r.f.extractLsb' 8 3), Hint.dec (r.f.extractLsb' 6 2), r.f.extractLsb' 0 6⟩⟩
  | 4 => some ⟨(r.dRaw != 0), (!Width.valid (r.f.extractLsb' 15 3) || !Order.valid (r.f.extractLsb' 11 3) || !Scope.valid (r.f.extractLsb' 8 3)),
      .pref ⟨r.hd, r.d, r.a, r.b, Width.dec (r.f.extractLsb' 15 3), r.f.getLsbD 14, Order.dec (r.f.extractLsb' 11 3), Scope.dec (r.f.extractLsb' 8 3), Hint.dec (r.f.extractLsb' 6 2), r.f.extractLsb' 0 6⟩⟩
  | 5 => some ⟨(r.dRaw != 0 || r.aRaw != 0 || r.bRaw != 0 || r.f.extractLsb' 6 2 != 0 || r.f.extractLsb' 0 6 != 0), (!Width.valid (r.f.extractLsb' 15 3) || !Order.valid (r.f.extractLsb' 11 3) || !Scope.valid (r.f.extractLsb' 8 3)),
      .fence ⟨r.hd, r.d, r.a, r.b, Width.dec (r.f.extractLsb' 15 3), r.f.getLsbD 14, Order.dec (r.f.extractLsb' 11 3), Scope.dec (r.f.extractLsb' 8 3), Hint.dec (r.f.extractLsb' 6 2), r.f.extractLsb' 0 6⟩⟩
  | 6 => some ⟨(r.dRaw != 0 || r.f.extractLsb' 6 2 != 0), (!Width.valid (r.f.extractLsb' 15 3) || !Order.valid (r.f.extractLsb' 11 3) || !Scope.valid (r.f.extractLsb' 8 3)),
      .cflush ⟨r.hd, r.d, r.a, r.b, Width.dec (r.f.extractLsb' 15 3), r.f.getLsbD 14, Order.dec (r.f.extractLsb' 11 3), Scope.dec (r.f.extractLsb' 8 3), Hint.dec (r.f.extractLsb' 6 2), r.f.extractLsb' 0 6⟩⟩
  | 7 => some ⟨(r.f.extractLsb' 6 2 != 0), (!Width.valid (r.f.extractLsb' 15 3) || !Order.valid (r.f.extractLsb' 11 3) || !Scope.valid (r.f.extractLsb' 8 3)),
      .waddr ⟨r.hd, r.d, r.a, r.b, Width.dec (r.f.extractLsb' 15 3), r.f.getLsbD 14, Order.dec (r.f.extractLsb' 11 3), Scope.dec (r.f.extractLsb' 8 3), Hint.dec (r.f.extractLsb' 6 2), r.f.extractLsb' 0 6⟩⟩
  | _ => none

/-- The instruction at a position of group 9, atomic (R62), with its unused-field and code checks. -/
def parseG9 (r : Raw) : Nat → Option Parsed
  | 0 => some ⟨(r.f.extractLsb' 14 1 != 0), (!Width.valid (r.f.extractLsb' 15 3) || !Order.valid (r.f.extractLsb' 11 3) || !Scope.valid (r.f.extractLsb' 8 3)),
      .atom ⟨r.hd, r.d, r.a, r.b, Width.dec (r.f.extractLsb' 15 3), Order.dec (r.f.extractLsb' 11 3), Scope.dec (r.f.extractLsb' 8 3), r.f.extractLsb' 4 4, r.f.extractLsb' 0 4⟩⟩
  | 1 => some ⟨(r.f.extractLsb' 14 1 != 0), (!Width.valid (r.f.extractLsb' 15 3) || !Order.valid (r.f.extractLsb' 11 3) || !Scope.valid (r.f.extractLsb' 8 3)),
      .atomcas ⟨r.hd, r.d, r.a, r.b, Width.dec (r.f.extractLsb' 15 3), Order.dec (r.f.extractLsb' 11 3), Scope.dec (r.f.extractLsb' 8 3), r.f.extractLsb' 4 4, r.f.extractLsb' 0 4⟩⟩
  | 2 => some ⟨(r.dRaw != 0 || r.f.extractLsb' 14 1 != 0), (!Width.valid (r.f.extractLsb' 15 3) || !Order.valid (r.f.extractLsb' 11 3) || !Scope.valid (r.f.extractLsb' 8 3)),
      .red ⟨r.hd, r.d, r.a, r.b, Width.dec (r.f.extractLsb' 15 3), Order.dec (r.f.extractLsb' 11 3), Scope.dec (r.f.extractLsb' 8 3), r.f.extractLsb' 4 4, r.f.extractLsb' 0 4⟩⟩
  | _ => none

/-- The instruction at a position of group 10, copy (R62), with its unused-field and code checks. -/
def parseG10 (r : Raw) : Nat → Option Parsed
  | 0 => some ⟨(r.bRaw != 0 || r.f.extractLsb' 10 8 != 0 || r.f.extractLsb' 9 1 != 0 || r.f.extractLsb' 2 4 != 0), false,
      .cpy r.hd (r.f.extractLsb' 6 3) (r.d) (r.a) (r.f.extractLsb' 0 2)⟩
  | 1 => some ⟨(r.dRaw != 0 || r.bRaw != 0 || r.f.extractLsb' 9 1 != 0 || r.f.extractLsb' 5 1 != 0), false,
      .cpyt ⟨r.hd, r.a, r.f.extractLsb' 10 8, r.f.extractLsb' 6 3, r.f.getLsbD 0, r.f.extractLsb' 1 4⟩⟩
  | 2 => some ⟨(r.dRaw != 0 || r.bRaw != 0 || r.f.extractLsb' 9 1 != 0 || r.f.extractLsb' 4 2 != 0), false,
      .cpyr r.hd (r.f.extractLsb' 6 3) (r.f.extractLsb' 10 8) (r.a) (r.f.getLsbD 0) (r.f.extractLsb' 1 3)⟩
  | 3 => some ⟨(r.dRaw != 0 || r.bRaw != 0 || r.f.extractLsb' 9 1 != 0 || r.f.extractLsb' 5 1 != 0), false,
      .cpyn ⟨r.hd, r.a, r.f.extractLsb' 10 8, r.f.extractLsb' 6 3, r.f.getLsbD 0, r.f.extractLsb' 1 4⟩⟩
  | 4 => some ⟨(r.dRaw != 0 || r.bRaw != 0 || r.f.extractLsb' 9 1 != 0 || r.f.extractLsb' 5 1 != 0), false,
      .cpyg ⟨r.hd, r.a, r.f.extractLsb' 10 8, r.f.extractLsb' 6 3, r.f.getLsbD 0, r.f.extractLsb' 1 4⟩⟩
  | 5 => some ⟨(r.dRaw != 0 || r.f.extractLsb' 10 8 != 0 || r.f.extractLsb' 0 6 != 0), false,
      .cminit r.hd (r.f.extractLsb' 6 4) (r.a) (r.b)⟩
  | 6 => some ⟨(r.f.extractLsb' 10 8 != 0 || r.f.extractLsb' 3 3 != 0), (!Scope.valid (r.f.extractLsb' 0 3)),
      .cmtest r.hd (r.d) (r.f.extractLsb' 6 4) (r.a) (r.b) (Scope.dec (r.f.extractLsb' 0 3))⟩
  | 7 => some ⟨(r.dRaw != 0 || r.f.extractLsb' 10 8 != 0 || r.f.extractLsb' 3 3 != 0), (!Scope.valid (r.f.extractLsb' 0 3)),
      .cmwait r.hd (r.f.extractLsb' 6 4) (r.a) (r.b) (Scope.dec (r.f.extractLsb' 0 3))⟩
  | 8 => some ⟨(r.dRaw != 0 || r.bRaw != 0 || r.f.extractLsb' 10 8 != 0 || r.f.extractLsb' 9 1 != 0 || r.f.extractLsb' 3 3 != 0), (!Scope.valid (r.f.extractLsb' 0 3)),
      .tlwait r.hd (r.f.extractLsb' 6 3) (r.a) (Scope.dec (r.f.extractLsb' 0 3))⟩
  | 9 => some ⟨(r.aRaw != 0 || r.bRaw != 0 || r.f.extractLsb' 10 8 != 0 || r.f.extractLsb' 9 1 != 0 || r.f.extractLsb' 3 3 != 0), false,
      .tlread r.hd (r.d) (r.f.extractLsb' 6 3) (r.f.extractLsb' 0 2) (r.f.getLsbD 2)⟩
  | 10 => some ⟨(r.dRaw != 0 || r.aRaw != 0 || r.bRaw != 0 || r.f.extractLsb' 0 18 != 0), false,
      .seqend r.hd⟩
  | _ => none

/-- The instruction at a position of group 11, matrix (R62), with its unused-field and code checks. -/
def parseG11 (r : Raw) : Nat → Option Parsed
  | 0 => some ⟨(r.dRaw != 0 || r.bRaw != 0 || r.f.extractLsb' 0 5 != 0), false,
      .mldw ⟨r.hd, r.a, r.f.extractLsb' 10 8, r.f.extractLsb' 6 4, r.f.getLsbD 5⟩⟩
  | 1 => some ⟨(r.dRaw != 0 || r.aRaw != 0 || r.bRaw != 0 || r.f.extractLsb' 10 8 != 0 || r.f.extractLsb' 0 5 != 0), false,
      .mswap r.hd (r.f.extractLsb' 6 4) (r.f.getLsbD 5)⟩
  | 2 => some ⟨(r.dRaw != 0 || r.bRaw != 0 || r.f.extractLsb' 4 1 != 0), false,
      .mstrm ⟨r.hd, r.a, r.f.extractLsb' 10 8, r.f.extractLsb' 6 4, r.f.getLsbD 5⟩ (r.f.extractLsb' 0 3) (r.f.getLsbD 3)⟩
  | 3 =>
    if !r.f.getLsbD 4 then some ⟨(r.dRaw != 0 || r.bRaw != 0 || r.f.extractLsb' 0 4 != 0), false,
      .mldt ⟨r.hd, r.a, r.f.extractLsb' 10 8, r.f.extractLsb' 6 4, r.f.getLsbD 5⟩⟩
    else some ⟨(r.dRaw != 0 || r.bRaw != 0 || r.f.extractLsb' 3 1 != 0), false,
      .mldtAcc ⟨r.hd, r.a, r.f.extractLsb' 10 8, r.f.extractLsb' 6 4, r.f.getLsbD 5⟩ (r.f.extractLsb' 0 3)⟩
  | 4 => some ⟨(r.dRaw != 0 || r.aRaw != 0 || r.bRaw != 0 || r.f.extractLsb' 0 5 != 0), false,
      .maclr r.hd (r.f.extractLsb' 10 8) (r.f.extractLsb' 6 4) (r.f.getLsbD 5)⟩
  | 5 => some ⟨(r.dRaw != 0 || r.bRaw != 0 || r.f.extractLsb' 3 2 != 0), false,
      .macld ⟨r.hd, r.a, r.f.extractLsb' 10 8, r.f.extractLsb' 6 4, r.f.getLsbD 5⟩ (r.f.extractLsb' 0 3)⟩
  | 6 => some ⟨(r.dRaw != 0 || r.bRaw != 0 || r.f.extractLsb' 3 2 != 0), false,
      .macst ⟨r.hd, r.a, r.f.extractLsb' 10 8, r.f.extractLsb' 6 4, r.f.getLsbD 5⟩ (r.f.extractLsb' 0 3)⟩
  | 7 => some ⟨(r.dRaw != 0 || r.bRaw != 0 || r.f.extractLsb' 10 8 != 0 || r.f.extractLsb' 6 4 != 0 || r.f.extractLsb' 0 6 != 0), false,
      .mvcnt r.hd (r.a)⟩
  | 8 => some ⟨(r.aRaw != 0 || r.bRaw != 0), false,
      .mloop r.hd (r.d) (r.f.extractLsb' 0 18)⟩
  | 9 => some ⟨(r.dRaw != 0 || r.aRaw != 0 || r.bRaw != 0 || r.f.extractLsb' 10 8 != 0 || r.f.extractLsb' 6 4 != 0 || r.f.extractLsb' 3 3 != 0), false,
      .mmode r.hd (r.f.extractLsb' 0 3)⟩
  | _ => none

/-- The instruction at a position of group 12, barrier and work (R62), with its unused-field and code checks. -/
def parseG12 (r : Raw) : Nat → Option Parsed
  | 0 => some ⟨(r.dRaw != 0 || r.f.extractLsb' 10 8 != 0 || r.f.extractLsb' 6 4 != 0 || r.f.extractLsb' 0 6 != 0), false,
      .fork r.hd (r.a) (r.b)⟩
  | 1 => some ⟨(r.dRaw != 0 || r.aRaw != 0 || r.bRaw != 0 || r.f.extractLsb' 0 18 != 0), false,
      .rdv r.hd⟩
  | 2 => some ⟨(r.dRaw != 0 || r.bRaw != 0 || r.f.extractLsb' 10 8 != 0 || r.f.extractLsb' 0 6 != 0), false,
      .barinit r.hd (r.f.extractLsb' 6 4) (r.a)⟩
  | 3 => some ⟨(r.aRaw != 0 || r.bRaw != 0 || r.f.extractLsb' 10 8 != 0 || r.f.extractLsb' 0 6 != 0), false,
      .barrive r.hd (r.d) (r.f.extractLsb' 6 4)⟩
  | 4 => some ⟨(r.dRaw != 0 || r.bRaw != 0 || r.f.extractLsb' 10 8 != 0 || r.f.extractLsb' 0 6 != 0), false,
      .barwait r.hd (r.f.extractLsb' 6 4) (r.a)⟩
  | 5 => some ⟨(r.aRaw != 0 || r.bRaw != 0 || r.f.extractLsb' 10 8 != 0 || r.f.extractLsb' 2 4 != 0), false,
      .barstat r.hd (r.d) (r.f.extractLsb' 6 4) (r.f.extractLsb' 0 2)⟩
  | 6 => some ⟨(r.aRaw != 0 || r.bRaw != 0 || r.f.extractLsb' 10 8 != 0 || r.f.extractLsb' 6 4 != 0 || r.f.extractLsb' 2 4 != 0), false,
      .tfetch r.hd (r.d) (r.f.extractLsb' 0 2)⟩
  | 7 => some ⟨(r.bRaw != 0 || r.f.extractLsb' 10 8 != 0 || r.f.extractLsb' 6 4 != 0 || r.f.extractLsb' 0 6 != 0), false,
      .wpush r.hd (r.d) (r.a)⟩
  | 8 => some ⟨(r.bRaw != 0 || r.f.extractLsb' 10 8 != 0 || r.f.extractLsb' 6 4 != 0 || r.f.extractLsb' 3 3 != 0), false,
      .wpop r.hd (r.d) (r.a) (r.f.extractLsb' 0 3)⟩
  | 9 => some ⟨(r.dRaw != 0 || r.bRaw != 0 || r.f.extractLsb' 10 8 != 0 || r.f.extractLsb' 6 4 != 0 || r.f.extractLsb' 0 6 != 0), false,
      .wdone r.hd (r.a)⟩
  | 10 => some ⟨(r.dRaw != 0 || r.aRaw != 0 || r.bRaw != 0 || r.f.extractLsb' 10 8 != 0 || r.f.extractLsb' 6 4 != 0 || r.f.extractLsb' 3 3 != 0), (!Scope.valid (r.f.extractLsb' 0 3)),
      .cwait r.hd (Scope.dec (r.f.extractLsb' 0 3))⟩
  | 11 => some ⟨(r.bRaw != 0 || r.f.extractLsb' 6 4 != 0 || r.f.extractLsb' 0 6 != 0), false,
      .thset r.hd (r.d) (r.f.extractLsb' 10 8) (r.a)⟩
  | 12 => some ⟨(r.dRaw != 0 || r.bRaw != 0 || r.f.extractLsb' 6 4 != 0 || r.f.extractLsb' 0 6 != 0), false,
      .thget r.hd (r.f.extractLsb' 10 8) (r.a)⟩
  | _ => none

/-- The instruction at a position of group 13, remote register (R62), with its unused-field and code checks. -/
def parseG13 (r : Raw) : Nat → Option Parsed
  | 0 =>
    if !r.f.getLsbD 2 then some ⟨(r.bRaw != 0 || r.f.extractLsb' 9 1 != 0 || r.f.extractLsb' 3 3 != 0), false,
      .rcapmkReg r.hd (r.d) (r.f.extractLsb' 10 8) (r.f.extractLsb' 6 3) (r.a) (r.f.getLsbD 0) (r.f.getLsbD 1)⟩
    else some ⟨(r.f.extractLsb' 10 8 != 0 || r.f.extractLsb' 3 3 != 0), false,
      .rcapmkLand r.hd (r.d) (r.f.extractLsb' 6 4) (r.a) (r.b) (r.f.getLsbD 0) (r.f.getLsbD 1)⟩
  | 1 => some ⟨(r.dRaw != 0 || r.bRaw != 0 || r.f.extractLsb' 10 8 != 0 || r.f.extractLsb' 0 6 != 0), false,
      .rcapld r.hd (r.f.extractLsb' 6 4) (r.a)⟩
  | 2 =>
    if !r.f.getLsbD 2 then some ⟨(r.dRaw != 0 || r.aRaw != 0 || r.bRaw != 0 || r.f.extractLsb' 10 8 != 0 || r.f.extractLsb' 6 4 != 0 || r.f.extractLsb' 3 3 != 0 || r.f.extractLsb' 0 2 != 0), false,
      .rcaprevReg r.hd⟩
    else some ⟨(r.dRaw != 0 || r.aRaw != 0 || r.bRaw != 0 || r.f.extractLsb' 10 8 != 0 || r.f.extractLsb' 3 3 != 0 || r.f.extractLsb' 0 2 != 0), false,
      .rcaprevLand r.hd (r.f.extractLsb' 6 4)⟩
  | 3 => some ⟨(r.dRaw != 0 || r.bRaw != 0 || r.f.extractLsb' 13 1 != 0), (!Scope.valid (r.f.extractLsb' 15 3)),
      .rwr r.hd (r.a) (r.f.extractLsb' 6 4) (r.f.extractLsb' 0 3) (Scope.dec (r.f.extractLsb' 15 3)) (r.f.getLsbD 14) (r.f.extractLsb' 10 3) (r.f.extractLsb' 3 3)⟩
  | 4 => some ⟨(r.aRaw != 0 || r.bRaw != 0 || r.f.extractLsb' 10 8 != 0 || r.f.extractLsb' 9 1 != 0 || r.f.extractLsb' 0 6 != 0), false,
      .rarm r.hd (r.d) (r.f.extractLsb' 6 3)⟩
  | 5 => some ⟨(r.bRaw != 0 || r.f.extractLsb' 10 8 != 0 || r.f.extractLsb' 9 1 != 0 || r.f.extractLsb' 3 3 != 0), false,
      .rpoll r.hd (r.d) (r.a) (r.f.extractLsb' 6 3) (r.f.extractLsb' 0 3)⟩
  | _ => none

/-- The instruction at a position of group 14, phaser and collective (R62), with its unused-field and code checks. -/
def parseG14 (r : Raw) : Nat → Option Parsed
  | 0 => some ⟨(r.bRaw != 0 || r.f.extractLsb' 10 8 != 0 || r.f.extractLsb' 8 2 != 0), false,
      .phreg ⟨r.hd, r.f.extractLsb' 0 6⟩ (r.d) (r.a) (r.f.extractLsb' 6 2)⟩
  | 1 => some ⟨(r.dRaw != 0 || r.aRaw != 0 || r.bRaw != 0 || r.f.extractLsb' 10 8 != 0 || r.f.extractLsb' 6 4 != 0), false,
      .phdrop ⟨r.hd, r.f.extractLsb' 0 6⟩⟩
  | 2 => some ⟨(r.aRaw != 0 || r.bRaw != 0 || r.f.extractLsb' 10 8 != 0 || r.f.extractLsb' 9 1 != 0), (!Scope.valid (r.f.extractLsb' 6 3)),
      .phsig ⟨r.hd, r.f.extractLsb' 0 6⟩ (r.d) (Scope.dec (r.f.extractLsb' 6 3))⟩
  | 3 => some ⟨(r.aRaw != 0 || r.f.extractLsb' 10 8 != 0 || r.f.extractLsb' 9 1 != 0), false,
      .phsigb ⟨r.hd, r.f.extractLsb' 0 6⟩ (r.d) (r.f.extractLsb' 6 3) (r.b)⟩
  | 4 =>
    if !r.f.getLsbD 10 then some ⟨(r.bRaw != 0 || r.f.extractLsb' 11 7 != 0 || r.f.extractLsb' 6 4 != 0), false,
      .phany ⟨r.hd, r.f.extractLsb' 0 6⟩ (r.d) (r.a)⟩
    else some ⟨(r.f.extractLsb' 11 7 != 0 || r.f.extractLsb' 9 1 != 0), false,
      .phanyBind ⟨r.hd, r.f.extractLsb' 0 6⟩ (r.d) (r.a) (r.f.extractLsb' 6 3) (r.b)⟩
  | 5 => some ⟨(r.dRaw != 0 || r.bRaw != 0 || r.f.extractLsb' 10 8 != 0 || r.f.extractLsb' 9 1 != 0), (!Scope.valid (r.f.extractLsb' 6 3)),
      .phwait ⟨r.hd, r.f.extractLsb' 0 6⟩ (r.a) (Scope.dec (r.f.extractLsb' 6 3))⟩
  | 6 => some ⟨(r.bRaw != 0 || r.f.extractLsb' 10 8 != 0 || r.f.extractLsb' 6 4 != 0), false,
      .phtest ⟨r.hd, r.f.extractLsb' 0 6⟩ (r.d) (r.a)⟩
  | 7 => some ⟨(r.bRaw != 0 || r.f.extractLsb' 10 8 != 0 || r.f.extractLsb' 9 1 != 0), (!Scope.valid (r.f.extractLsb' 6 3)),
      .phwin ⟨r.hd, r.f.extractLsb' 0 6⟩ (r.d) (r.a) (Scope.dec (r.f.extractLsb' 6 3))⟩
  | 8 => some ⟨(r.dRaw != 0 || r.f.extractLsb' 10 8 != 0 || r.f.extractLsb' 6 4 != 0), false,
      .phtime ⟨r.hd, r.f.extractLsb' 0 6⟩ (r.a) (r.b)⟩
  | 9 => some ⟨(r.dRaw != 0 || r.bRaw != 0 || r.f.extractLsb' 9 1 != 0 || r.f.extractLsb' 0 6 != 0), false,
      .coll r.hd (r.f.extractLsb' 6 3) (r.f.extractLsb' 10 8) (r.a)⟩
  | 10 => some ⟨(r.bRaw != 0 || r.f.extractLsb' 10 8 != 0 || r.f.extractLsb' 6 4 != 0 || r.f.extractLsb' 0 6 != 0), false,
      .collst r.hd (r.d) (r.a)⟩
  | _ => none

/-- The instruction at a position of group 15, system (R62), with its unused-field and code checks. -/
def parseG15 (r : Raw) : Nat → Option Parsed
  | 0 =>
    if !r.f.getLsbD 0 then some ⟨(r.bRaw != 0 || r.f.extractLsb' 1 17 != 0), false,
      .sread r.hd (r.d) (r.a)⟩
    else some ⟨(r.aRaw != 0 || r.bRaw != 0), false,
      .sreadSys r.hd (r.d) (r.f.extractLsb' 1 17)⟩
  | 1 =>
    if !r.f.getLsbD 0 then some ⟨(r.dRaw != 0 || r.f.extractLsb' 1 17 != 0), false,
      .swrite r.hd (r.a) (r.b)⟩
    else some ⟨(r.dRaw != 0 || r.aRaw != 0), false,
      .swriteSys r.hd (r.f.extractLsb' 1 17) (r.b)⟩
  | 2 => some ⟨(r.dRaw != 0 || r.bRaw != 0 || r.f.extractLsb' 10 8 != 0 || r.f.extractLsb' 6 4 != 0 || r.f.extractLsb' 0 6 != 0), false,
      .sethdl r.hd (r.a)⟩
  | 3 =>
    if !r.f.getLsbD 0 then some ⟨(r.bRaw != 0 || r.f.extractLsb' 10 8 != 0 || r.f.extractLsb' 6 4 != 0 || r.f.extractLsb' 1 5 != 0), false,
      .estatLog r.hd (r.d) (r.a)⟩
    else some ⟨(r.aRaw != 0 || r.bRaw != 0 || r.f.extractLsb' 10 8 != 0 || r.f.extractLsb' 6 4 != 0 || r.f.extractLsb' 1 5 != 0), false,
      .estatEq r.hd (r.d)⟩
  | 4 => some ⟨(r.bRaw != 0 || r.f.extractLsb' 10 8 != 0 || r.f.extractLsb' 6 4 != 0 || r.f.extractLsb' 0 6 != 0), false,
      .pggen r.hd (r.d) (r.a)⟩
  | 5 =>
    if r.f.extractLsb' 0 2 == 0 then some ⟨(r.aRaw != 0 || r.bRaw != 0 || r.f.extractLsb' 10 8 != 0 || r.f.extractLsb' 6 4 != 0 || r.f.extractLsb' 2 4 != 0), false,
      .assistNext r.hd (r.d)⟩
    else if r.f.extractLsb' 0 2 == 1 then some ⟨(r.bRaw != 0 || r.f.extractLsb' 10 8 != 0 || r.f.extractLsb' 6 4 != 0 || r.f.extractLsb' 2 4 != 0), false,
      .assistGet r.hd (r.d) (r.a)⟩
    else if r.f.extractLsb' 0 2 == 2 then some ⟨(r.dRaw != 0 || r.f.extractLsb' 10 8 != 0 || r.f.extractLsb' 6 4 != 0 || r.f.extractLsb' 2 4 != 0), false,
      .assistPut r.hd (r.a) (r.b)⟩
    else some ⟨(r.dRaw != 0 || r.aRaw != 0 || r.bRaw != 0 || r.f.extractLsb' 10 8 != 0 || r.f.extractLsb' 6 4 != 0 || r.f.extractLsb' 2 4 != 0), false,
      .assistDone r.hd⟩
  | 6 =>
    if !r.f.getLsbD 0 then some ⟨(r.dRaw != 0 || r.aRaw != 0 || r.bRaw != 0 || r.f.extractLsb' 10 8 != 0 || r.f.extractLsb' 6 4 != 0 || r.f.extractLsb' 1 5 != 0), false,
      .halt r.hd⟩
    else some ⟨(r.dRaw != 0 || r.aRaw != 0 || r.bRaw != 0 || r.f.extractLsb' 10 8 != 0 || r.f.extractLsb' 6 4 != 0 || r.f.extractLsb' 1 5 != 0), false,
      .haltStop r.hd⟩
  | _ => none

/-- The instruction of a full-form word by its group and position; none for a reserved cell (R62). -/
def Raw.parse (r : Raw) : Option Parsed :=
  let p := (r.op.extractLsb' 0 6).toNat
  match (r.op.extractLsb' 6 4).toNat with
  | 0 => parseG0 r p
  | 1 => parseG1 r p
  | 2 => parseG2 r p
  | 3 => parseG3 r p
  | 4 => parseG4 r p
  | 5 => parseG5 r p
  | 6 => parseG6 r p
  | 7 => parseG7 r p
  | 8 => parseG8 r p
  | 9 => parseG9 r p
  | 10 => parseG10 r p
  | 11 => parseG11 r p
  | 12 => parseG12 r p
  | 13 => parseG13 r p
  | 14 => parseG14 r p
  | 15 => parseG15 r p
  | _ => none

/-- Number of instructions of each group (R62): positions at or above it are reserved. -/
def groupSize (g : Nat) : Nat :=
  [19, 20, 12, 15, 16, 6, 5, 13, 8, 3, 11, 10, 13, 6, 11, 7].getD g 0

/-- Whether the engine executes the instruction at a group and position (R63). -/
def engineRuns (e : Engine) (g p : Nat) : Bool :=
  match e with
  | .troupe => decide (g ≤ 9) || (g == 10 && p != 10) || (decide (12 ≤ g) && decide (g ≤ 14)) || (g == 15 && decide (p ≤ 3))
  | .matrix => g == 11 || (g == 10 && (p == 10 || p == 8)) || (g == 12 && (p == 3 || p == 4 || p == 5))
      || (g == 7 && (p == 0 || p == 9)) || decide (g ≤ 2)
  | .copy => g == 10 || (g == 12 && (p == 3 || p == 4 || p == 5)) || (g == 14 && (p == 2 || p == 3 || p == 5))
      || (g == 7 && (p == 0 || p == 9)) || decide (g ≤ 2)
  | .control => decide (g ≤ 2) || g == 5 || g == 8 || g == 9 || g == 15 || (g == 7 && p != 5 && p != 6)
  | .firmware => decide (g ≤ 2) || g == 5 || g == 8 || g == 9 || g == 15 || (g == 7 && p != 5 && p != 6)

/-- Whether the engine executes any instruction of the group (R63). -/
def engineRunsGroup (e : Engine) (g : Nat) : Bool :=
  (List.range (groupSize g)).any (engineRuns e g)

/-- A full-form word: the instruction, or the first reason of R64 that it meets. -/
def decodeFull (e : Engine) (nregs : Nat) (w : DWord) : Except Reason Instr :=
  let r := Raw.unpack w
  let g := (r.op.extractLsb' 6 4).toNat
  let p := (r.op.extractLsb' 0 6).toNat
  if !engineRunsGroup e g || (decide (p < groupSize g) && !engineRuns e g p) then .error .engine
  else match r.parse with
    | none => .error .opcode
    | some ⟨rsv, code, i⟩ =>
      if rsv || !i.hintsOk || !i.fieldsOk then .error .rsvbit
      else if code || !i.codesOk e then .error .code
      else if !i.operandsOk e nregs then .error .operand
      else if r.guard == 7 && r.neg then .error .guard
      else if r.la != 0 && !i.longLatency then .error .lookahead
      else .ok i

/-- Slot opcodes 0 to 23 (R58). -/
def SlotOp.dec (x : BitVec 7) : Option SlotOp :=
  [SlotOp.mov, .movi, .iadd, .isub, .iaddi, .imul, .imin, .imax, .and, .or, .xor, .andn, .shli, .shri, .sari, .fadd,
    .fsub, .fmul, .fmin, .fmax, .frcp, .cvt, .nop, .isel][x.toNat]?

/-- Slot opcodes (R58). -/
def SlotOp.enc : SlotOp → BitVec 7
  | .mov => 0
  | .movi => 1
  | .iadd => 2
  | .isub => 3
  | .iaddi => 4
  | .imul => 5
  | .imin => 6
  | .imax => 7
  | .and => 8
  | .or => 9
  | .xor => 10
  | .andn => 11
  | .shli => 12
  | .shri => 13
  | .sari => 14
  | .fadd => 15
  | .fsub => 16
  | .fmul => 17
  | .fmin => 18
  | .fmax => 19
  | .frcp => 20
  | .cvt => 21
  | .nop => 22
  | .isel => 23

/-- A slot's 31 bits pulled apart (R57); none for slot opcodes 24 to 127. -/
def Slot.dec (x : BitVec 31) : Option Slot :=
  (SlotOp.dec (x.extractLsb' 24 7)).map fun op =>
    ⟨op, x.extractLsb' 22 2, x.extractLsb' 14 8, x.extractLsb' 6 8, x.extractLsb' 0 6⟩

/-- The 31 bits of a slot (R57). -/
def Slot.enc (s : Slot) : BitVec 31 := (s.op.enc ++ s.guard ++ s.d ++ s.s ++ s.imm : BitVec 31)

/-- The reasons that one slot meets on its own, in the order of R64. -/
def slotReasons (nregs : Nat) (x : Option Slot) : List Reason :=
  match x with
  | none => [.opcode]
  | some s =>
    (if s.fieldsOk then [] else [Reason.rsvbit]) ++ (if s.codesOk then [] else [.code])
      ++ (if s.operandsOk nregs then [] else [.operand])

/-- A paired word: the instruction, or the first reason in the order of R64 among all the rules that the word breaks,
with the lowest slot that breaks a rule of that reason (R65). Only a troupe executes one (R63). DEDUCED (log entry 48): a control or firmware
core refuses it with ENGINE as a sequencer does, since the table of R63 gives paired words to no engine. -/
def decodePaired (e : Engine) (nregs : Nat) (w : DWord) : Except (Reason × Bool) Instr :=
  let x := Slot.dec (w.extractLsb' 31 31)
  let y := Slot.dec (w.extractLsb' 0 31)
  let r0 := slotReasons nregs x
  let r1 := slotReasons nregs y
  if e != .troupe then .error (.engine, false)
  else if r0.contains .opcode then .error (.opcode, false)
  else if r1.contains .opcode then .error (.opcode, true)
  else if w.getLsbD 62 || r0.contains .rsvbit then .error (.rsvbit, false)
  else if r1.contains .rsvbit then .error (.rsvbit, true)
  else if r0.contains .code then .error (.code, false)
  else if r1.contains .code then .error (.code, true)
  else if r0.contains .operand then .error (.operand, false)
  else if r1.contains .operand then .error (.operand, true)
  else match x, y with
    | some s0, some s1 => if pairOk s0 s1 then .ok (.pairedWord s0 s1) else .error (.pairing, false)
    | _, _ => .error (.opcode, false)

/-- The instruction of a word for an engine whose threads have `nregs` per-lane registers, or the word as
`RESERVED_ENCODING_TRAP` reports it (R64, R65). -/
def decode (e : Engine) (nregs : Nat) (w : DWord) : Except BadWord Instr :=
  if w.getLsbD 63 then
    match decodePaired e nregs w with
    | .ok i => .ok i
    | .error (r, s) => .error ⟨w, r, s⟩
  else
    match decodeFull e nregs w with
    | .ok i => .ok i
    | .error r => .error ⟨w, r, false⟩

/-- A full-form word from its fields (R48). -/
def encFull (op : Nat) (hd : Hdr) (d a b : BitVec 9) (f : BitVec 18) : DWord :=
  Raw.pack ⟨BitVec.ofNat 10 op, hd.la, hd.guard, hd.neg, d, a, b, f⟩

/-- A class I word: the immediate stands in place of B and F (R53). -/
def encImm (op : Nat) (hd : Hdr) (d a : BitVec 9) (imm : BitVec 27) : DWord :=
  encFull op hd d a (imm.extractLsb' 18 9) (imm.extractLsb' 0 18)

/-- The word of an instruction, written from the field tables of R48-R58, R76-R80, R86-R96, R105, R111, R123, R138,
R153, R164, R181, R197 and R210; none for a device step and for the trap, which have no word. -/
def encode : Instr → Option DWord
  | .iadd x sat => some (encFull 0 x.hd x.d.enc x.a.enc x.b.enc (0#9 ++ BitVec.ofBool x.ha ++ BitVec.ofBool x.hb ++ 0#1 ++ 0#3 ++ BitVec.ofBool sat ++ 0#2))
  | .isub x sat => some (encFull 1 x.hd x.d.enc x.a.enc x.b.enc (0#9 ++ BitVec.ofBool x.ha ++ BitVec.ofBool x.hb ++ 0#1 ++ 0#3 ++ BitVec.ofBool sat ++ 0#2))
  | .imul x => some (encFull 2 x.hd x.d.enc x.a.enc x.b.enc (0#9 ++ BitVec.ofBool x.ha ++ BitVec.ofBool x.hb ++ 0#1 ++ 0#3 ++ 0#1 ++ 0#2))
  | .imulhi x u => some (encFull 3 x.hd x.d.enc x.a.enc x.b.enc (0#8 ++ BitVec.ofBool u ++ BitVec.ofBool x.ha ++ BitVec.ofBool x.hb ++ 0#1 ++ 0#3 ++ 0#1 ++ 0#2))
  | .imad x sat => some (encFull 4 x.hd x.d.enc x.a.enc x.b.enc (x.c.enc ++ BitVec.ofBool x.ha ++ BitVec.ofBool x.hb ++ BitVec.ofBool x.hc ++ 0#3 ++ BitVec.ofBool sat ++ 0#2))
  | .imadw x => some (encFull 5 x.hd x.d.enc x.a.enc x.b.enc (x.c.enc ++ BitVec.ofBool x.ha ++ BitVec.ofBool x.hb ++ BitVec.ofBool x.hc ++ 0#3 ++ 0#1 ++ 0#2))
  | .iaddc x cin cout => some (encFull 6 x.hd x.d.enc x.a.enc x.b.enc (cin ++ 0#3 ++ cout ++ BitVec.ofBool x.ha ++ BitVec.ofBool x.hb ++ 0#1 ++ 0#3 ++ 0#1 ++ 0#2))
  | .isubb x cin cout => some (encFull 7 x.hd x.d.enc x.a.enc x.b.enc (cin ++ 0#3 ++ cout ++ BitVec.ofBool x.ha ++ BitVec.ofBool x.hb ++ 0#1 ++ 0#3 ++ 0#1 ++ 0#2))
  | .imin x u => some (encFull 8 x.hd x.d.enc x.a.enc x.b.enc (0#8 ++ BitVec.ofBool u ++ BitVec.ofBool x.ha ++ BitVec.ofBool x.hb ++ 0#1 ++ 0#3 ++ 0#1 ++ 0#2))
  | .imax x u => some (encFull 9 x.hd x.d.enc x.a.enc x.b.enc (0#8 ++ BitVec.ofBool u ++ BitVec.ofBool x.ha ++ BitVec.ofBool x.hb ++ 0#1 ++ 0#3 ++ 0#1 ++ 0#2))
  | .iabs x sat => some (encFull 10 x.hd x.d.enc x.a.enc 0 (0#9 ++ BitVec.ofBool x.ha ++ 0#1 ++ 0#1 ++ 0#3 ++ BitVec.ofBool sat ++ 0#2))
  | .ineg x sat => some (encFull 11 x.hd x.d.enc x.a.enc 0 (0#9 ++ BitVec.ofBool x.ha ++ 0#1 ++ 0#1 ++ 0#3 ++ BitVec.ofBool sat ++ 0#2))
  | .isad x => some (encFull 12 x.hd x.d.enc x.a.enc x.b.enc (x.c.enc ++ BitVec.ofBool x.ha ++ BitVec.ofBool x.hb ++ BitVec.ofBool x.hc ++ 0#3 ++ 0#1 ++ 0#2))
  | .idot4 x sat => some (encFull 13 x.hd x.d.enc x.a.enc x.b.enc (x.c.enc ++ BitVec.ofBool x.ha ++ BitVec.ofBool x.hb ++ BitVec.ofBool x.hc ++ 0#3 ++ BitVec.ofBool sat ++ 0#2))
  | .lea x sh u => some (encFull 14 x.hd x.d.enc x.a.enc x.b.enc (0#3 ++ BitVec.ofBool u ++ sh ++ BitVec.ofBool x.ha ++ BitVec.ofBool x.hb ++ 0#1 ++ 0#3 ++ 0#1 ++ 0#2))
  | .iadd64 x sat => some (encFull 15 x.hd x.d.enc x.a.enc x.b.enc (0#9 ++ BitVec.ofBool x.ha ++ BitVec.ofBool x.hb ++ 0#1 ++ 0#3 ++ BitVec.ofBool sat ++ 0#2))
  | .isub64 x sat => some (encFull 16 x.hd x.d.enc x.a.enc x.b.enc (0#9 ++ BitVec.ofBool x.ha ++ BitVec.ofBool x.hb ++ 0#1 ++ 0#3 ++ BitVec.ofBool sat ++ 0#2))
  | .icmp x => some (encFull 17 x.hd 0 x.a.enc x.b.enc (0#6 ++ x.pd ++ BitVec.ofBool x.ha ++ BitVec.ofBool x.hb ++ 0#1 ++ x.cc ++ 0#2))
  | .isel x ps ns => some (encFull 18 x.hd x.d.enc x.a.enc x.b.enc (0#5 ++ BitVec.ofBool ns ++ ps ++ BitVec.ofBool x.ha ++ BitVec.ofBool x.hb ++ 0#1 ++ 0#3 ++ 0#1 ++ 0#2))
  | .and x => some (encFull 64 x.hd x.d.enc x.a.enc x.b.enc (0#9 ++ BitVec.ofBool x.ha ++ BitVec.ofBool x.hb ++ 0#1 ++ 0#3 ++ 0#1 ++ 0#2))
  | .or x => some (encFull 65 x.hd x.d.enc x.a.enc x.b.enc (0#9 ++ BitVec.ofBool x.ha ++ BitVec.ofBool x.hb ++ 0#1 ++ 0#3 ++ 0#1 ++ 0#2))
  | .xor x => some (encFull 66 x.hd x.d.enc x.a.enc x.b.enc (0#9 ++ BitVec.ofBool x.ha ++ BitVec.ofBool x.hb ++ 0#1 ++ 0#3 ++ 0#1 ++ 0#2))
  | .andn x => some (encFull 67 x.hd x.d.enc x.a.enc x.b.enc (0#9 ++ BitVec.ofBool x.ha ++ BitVec.ofBool x.hb ++ 0#1 ++ 0#3 ++ 0#1 ++ 0#2))
  | .not x => some (encFull 68 x.hd x.d.enc x.a.enc 0 (0#9 ++ BitVec.ofBool x.ha ++ 0#1 ++ 0#1 ++ 0#3 ++ 0#1 ++ 0#2))
  | .bool3 hd d a b c tt => some (encFull 69 hd d.enc a.enc b.enc (c.enc ++ tt ++ 0#1))
  | .shl x => some (encFull 70 x.hd x.d.enc x.a.enc x.b.enc (0#9 ++ BitVec.ofBool x.ha ++ BitVec.ofBool x.hb ++ 0#1 ++ 0#3 ++ 0#1 ++ 0#2))
  | .shr x => some (encFull 71 x.hd x.d.enc x.a.enc x.b.enc (0#9 ++ BitVec.ofBool x.ha ++ BitVec.ofBool x.hb ++ 0#1 ++ 0#3 ++ 0#1 ++ 0#2))
  | .sar x => some (encFull 72 x.hd x.d.enc x.a.enc x.b.enc (0#9 ++ BitVec.ofBool x.ha ++ BitVec.ofBool x.hb ++ 0#1 ++ 0#3 ++ 0#1 ++ 0#2))
  | .rotl x => some (encFull 73 x.hd x.d.enc x.a.enc x.b.enc (0#9 ++ BitVec.ofBool x.ha ++ BitVec.ofBool x.hb ++ 0#1 ++ 0#3 ++ 0#1 ++ 0#2))
  | .funnel x => some (encFull 74 x.hd x.d.enc x.a.enc x.b.enc (x.c.enc ++ BitVec.ofBool x.ha ++ BitVec.ofBool x.hb ++ BitVec.ofBool x.hc ++ 0#3 ++ 0#1 ++ 0#2))
  | .bfx x sx => some (encFull 75 x.hd x.d.enc x.a.enc x.b.enc (0#8 ++ BitVec.ofBool sx ++ BitVec.ofBool x.ha ++ BitVec.ofBool x.hb ++ 0#1 ++ 0#3 ++ 0#1 ++ 0#2))
  | .bfi x => some (encFull 76 x.hd x.d.enc x.a.enc x.b.enc (x.c.enc ++ BitVec.ofBool x.ha ++ BitVec.ofBool x.hb ++ BitVec.ofBool x.hc ++ 0#3 ++ 0#1 ++ 0#2))
  | .popc x => some (encFull 77 x.hd x.d.enc x.a.enc 0 (0#9 ++ BitVec.ofBool x.ha ++ 0#1 ++ 0#1 ++ 0#3 ++ 0#1 ++ 0#2))
  | .clz x => some (encFull 78 x.hd x.d.enc x.a.enc 0 (0#9 ++ BitVec.ofBool x.ha ++ 0#1 ++ 0#1 ++ 0#3 ++ 0#1 ++ 0#2))
  | .ctz x => some (encFull 79 x.hd x.d.enc x.a.enc 0 (0#9 ++ BitVec.ofBool x.ha ++ 0#1 ++ 0#1 ++ 0#3 ++ 0#1 ++ 0#2))
  | .brev x => some (encFull 80 x.hd x.d.enc x.a.enc 0 (0#9 ++ BitVec.ofBool x.ha ++ 0#1 ++ 0#1 ++ 0#3 ++ 0#1 ++ 0#2))
  | .byteperm x => some (encFull 81 x.hd x.d.enc x.a.enc x.b.enc (x.c.enc ++ BitVec.ofBool x.ha ++ BitVec.ofBool x.hb ++ BitVec.ofBool x.hc ++ 0#3 ++ 0#1 ++ 0#2))
  | .pset hd pd pa na pb nb op => some (encFull 82 hd 0 0 0 (pa ++ BitVec.ofBool na ++ 0#2 ++ pd ++ 0#3 ++ pb ++ BitVec.ofBool nb ++ op))
  | .pmovGet hd d => some (encFull 83 hd d.enc 0 0 (0#8 ++ 0#1 ++ 0#1 ++ 0#1 ++ 0#1 ++ 0#3 ++ 0#1 ++ 0#2))
  | .pmovSet hd a ha => some (encFull 83 hd 0 a.enc 0 (0#8 ++ 1#1 ++ BitVec.ofBool ha ++ 0#1 ++ 0#1 ++ 0#3 ++ 0#1 ++ 0#2))
  | .movi hd d imm => some (encImm 128 hd d.enc 0 imm)
  | .movhi hd d imm => some (encImm 129 hd d.enc 0 imm)
  | .iaddi x => some (encImm 130 x.hd x.d.enc x.a.enc x.imm)
  | .imuli x => some (encImm 131 x.hd x.d.enc x.a.enc x.imm)
  | .andi x => some (encImm 132 x.hd x.d.enc x.a.enc x.imm)
  | .ori x => some (encImm 133 x.hd x.d.enc x.a.enc x.imm)
  | .xori x => some (encImm 134 x.hd x.d.enc x.a.enc x.imm)
  | .shli x => some (encImm 135 x.hd x.d.enc x.a.enc x.imm)
  | .shri x => some (encImm 136 x.hd x.d.enc x.a.enc x.imm)
  | .sari x => some (encImm 137 x.hd x.d.enc x.a.enc x.imm)
  | .icmpi hd a cc pd imm => some (encImm 138 hd 0 a.enc (cc ++ pd ++ imm))
  | .leai x => some (encImm 139 x.hd x.d.enc x.a.enc x.imm)
  | .fadd x rnd sat sm => some (encFull 192 x.hd x.d.enc x.a.enc x.b.enc (0#9 ++ BitVec.ofBool x.ha ++ BitVec.ofBool x.hb ++ 0#1 ++ rnd ++ BitVec.ofBool sat ++ sm))
  | .fsub x rnd sat sm => some (encFull 193 x.hd x.d.enc x.a.enc x.b.enc (0#9 ++ BitVec.ofBool x.ha ++ BitVec.ofBool x.hb ++ 0#1 ++ rnd ++ BitVec.ofBool sat ++ sm))
  | .fmul x rnd sat sm => some (encFull 194 x.hd x.d.enc x.a.enc x.b.enc (0#9 ++ BitVec.ofBool x.ha ++ BitVec.ofBool x.hb ++ 0#1 ++ rnd ++ BitVec.ofBool sat ++ sm))
  | .ffma x rnd sat sm => some (encFull 195 x.hd x.d.enc x.a.enc x.b.enc (x.c.enc ++ BitVec.ofBool x.ha ++ BitVec.ofBool x.hb ++ BitVec.ofBool x.hc ++ rnd ++ BitVec.ofBool sat ++ sm))
  | .fmin x sm => some (encFull 196 x.hd x.d.enc x.a.enc x.b.enc (0#9 ++ BitVec.ofBool x.ha ++ BitVec.ofBool x.hb ++ 0#1 ++ 0#3 ++ 0#1 ++ sm))
  | .fmax x sm => some (encFull 197 x.hd x.d.enc x.a.enc x.b.enc (0#9 ++ BitVec.ofBool x.ha ++ BitVec.ofBool x.hb ++ 0#1 ++ 0#3 ++ 0#1 ++ sm))
  | .fcmp x sm => some (encFull 198 x.hd 0 x.a.enc x.b.enc (0#6 ++ x.pd ++ BitVec.ofBool x.ha ++ BitVec.ofBool x.hb ++ 0#1 ++ x.cc ++ sm))
  | .fclass x sm => some (encFull 199 x.hd x.d.enc x.a.enc 0 (0#9 ++ BitVec.ofBool x.ha ++ 0#1 ++ 0#1 ++ 0#3 ++ 0#1 ++ sm))
  | .frcp x rnd sat sm => some (encFull 200 x.hd x.d.enc x.a.enc 0 (0#9 ++ BitVec.ofBool x.ha ++ 0#1 ++ 0#1 ++ rnd ++ BitVec.ofBool sat ++ sm))
  | .frsq x sm => some (encFull 201 x.hd x.d.enc x.a.enc 0 (0#9 ++ BitVec.ofBool x.ha ++ 0#1 ++ 0#1 ++ 0#3 ++ 0#1 ++ sm))
  | .fsqrt x rnd sm => some (encFull 202 x.hd x.d.enc x.a.enc 0 (0#9 ++ BitVec.ofBool x.ha ++ 0#1 ++ 0#1 ++ rnd ++ 0#1 ++ sm))
  | .fex2 x sat sm => some (encFull 203 x.hd x.d.enc x.a.enc 0 (0#9 ++ BitVec.ofBool x.ha ++ 0#1 ++ 0#1 ++ 0#3 ++ BitVec.ofBool sat ++ sm))
  | .flg2 x sm => some (encFull 204 x.hd x.d.enc x.a.enc 0 (0#9 ++ BitVec.ofBool x.ha ++ 0#1 ++ 0#1 ++ 0#3 ++ 0#1 ++ sm))
  | .fsin x sm => some (encFull 205 x.hd x.d.enc x.a.enc 0 (0#9 ++ BitVec.ofBool x.ha ++ 0#1 ++ 0#1 ++ 0#3 ++ 0#1 ++ sm))
  | .fcos x sm => some (encFull 206 x.hd x.d.enc x.a.enc 0 (0#9 ++ BitVec.ofBool x.ha ++ 0#1 ++ 0#1 ++ 0#3 ++ 0#1 ++ sm))
  | .dadd x rnd sat sm => some (encFull 256 x.hd x.d.enc x.a.enc x.b.enc (0#9 ++ BitVec.ofBool x.ha ++ BitVec.ofBool x.hb ++ 0#1 ++ rnd ++ BitVec.ofBool sat ++ sm))
  | .dsub x rnd sat sm => some (encFull 257 x.hd x.d.enc x.a.enc x.b.enc (0#9 ++ BitVec.ofBool x.ha ++ BitVec.ofBool x.hb ++ 0#1 ++ rnd ++ BitVec.ofBool sat ++ sm))
  | .dmul x rnd sat sm => some (encFull 258 x.hd x.d.enc x.a.enc x.b.enc (0#9 ++ BitVec.ofBool x.ha ++ BitVec.ofBool x.hb ++ 0#1 ++ rnd ++ BitVec.ofBool sat ++ sm))
  | .dfma x rnd sat sm => some (encFull 259 x.hd x.d.enc x.a.enc x.b.enc (x.c.enc ++ BitVec.ofBool x.ha ++ BitVec.ofBool x.hb ++ BitVec.ofBool x.hc ++ rnd ++ BitVec.ofBool sat ++ sm))
  | .dmin x sm => some (encFull 260 x.hd x.d.enc x.a.enc x.b.enc (0#9 ++ BitVec.ofBool x.ha ++ BitVec.ofBool x.hb ++ 0#1 ++ 0#3 ++ 0#1 ++ sm))
  | .dmax x sm => some (encFull 261 x.hd x.d.enc x.a.enc x.b.enc (0#9 ++ BitVec.ofBool x.ha ++ BitVec.ofBool x.hb ++ 0#1 ++ 0#3 ++ 0#1 ++ sm))
  | .dcmp x sm => some (encFull 262 x.hd 0 x.a.enc x.b.enc (0#6 ++ x.pd ++ BitVec.ofBool x.ha ++ BitVec.ofBool x.hb ++ 0#1 ++ x.cc ++ sm))
  | .drcp x rnd sat sm => some (encFull 263 x.hd x.d.enc x.a.enc 0 (0#9 ++ BitVec.ofBool x.ha ++ 0#1 ++ 0#1 ++ rnd ++ BitVec.ofBool sat ++ sm))
  | .add2h x rnd sat sm => some (encFull 264 x.hd x.d.enc x.a.enc x.b.enc (0#9 ++ BitVec.ofBool x.ha ++ BitVec.ofBool x.hb ++ 0#1 ++ rnd ++ BitVec.ofBool sat ++ sm))
  | .mul2h x rnd sat sm => some (encFull 265 x.hd x.d.enc x.a.enc x.b.enc (0#9 ++ BitVec.ofBool x.ha ++ BitVec.ofBool x.hb ++ 0#1 ++ rnd ++ BitVec.ofBool sat ++ sm))
  | .fma2h x rnd sat sm => some (encFull 266 x.hd x.d.enc x.a.enc x.b.enc (x.c.enc ++ BitVec.ofBool x.ha ++ BitVec.ofBool x.hb ++ BitVec.ofBool x.hc ++ rnd ++ BitVec.ofBool sat ++ sm))
  | .max2h x sm => some (encFull 267 x.hd x.d.enc x.a.enc x.b.enc (0#9 ++ BitVec.ofBool x.ha ++ BitVec.ofBool x.hb ++ 0#1 ++ 0#3 ++ 0#1 ++ sm))
  | .add2b x rnd sat sm => some (encFull 268 x.hd x.d.enc x.a.enc x.b.enc (0#9 ++ BitVec.ofBool x.ha ++ BitVec.ofBool x.hb ++ 0#1 ++ rnd ++ BitVec.ofBool sat ++ sm))
  | .mul2b x rnd sat sm => some (encFull 269 x.hd x.d.enc x.a.enc x.b.enc (0#9 ++ BitVec.ofBool x.ha ++ BitVec.ofBool x.hb ++ 0#1 ++ rnd ++ BitVec.ofBool sat ++ sm))
  | .fma2b x rnd sat sm => some (encFull 270 x.hd x.d.enc x.a.enc x.b.enc (x.c.enc ++ BitVec.ofBool x.ha ++ BitVec.ofBool x.hb ++ BitVec.ofBool x.hc ++ rnd ++ BitVec.ofBool sat ++ sm))
  | .max2b x sm => some (encFull 271 x.hd x.d.enc x.a.enc x.b.enc (0#9 ++ BitVec.ofBool x.ha ++ BitVec.ofBool x.hb ++ 0#1 ++ 0#3 ++ 0#1 ++ sm))
  | .cvt x dst src rnd sat sm => some (encFull 320 x.hd x.d.enc x.a.enc 0 (dst ++ src ++ 0#1 ++ BitVec.ofBool x.ha ++ 0#1 ++ 0#1 ++ rnd ++ BitVec.ofBool sat ++ sm))
  | .cvtbx hd d a c rnd bx4 sm => some (encFull 321 hd d.enc a.enc 0 (c.enc ++ 0#3 ++ rnd ++ BitVec.ofBool bx4 ++ sm))
  | .unpkbx hd d a c bx4 => some (encFull 322 hd d.enc a.enc 0 (c.enc ++ 0#3 ++ 0#3 ++ BitVec.ofBool bx4 ++ 0#2))
  | .frnd x fmt rnd sm => some (encFull 323 x.hd x.d.enc x.a.enc 0 (fmt ++ 0#5 ++ BitVec.ofBool x.ha ++ 0#1 ++ 0#1 ++ rnd ++ 0#1 ++ sm))
  | .mov x b64 => some (encFull 324 x.hd x.d.enc x.a.enc 0 (0#8 ++ BitVec.ofBool b64 ++ BitVec.ofBool x.ha ++ 0#1 ++ 0#1 ++ 0#3 ++ 0#1 ++ 0#2))
  | .movk hd d a b => some (encFull 325 hd d.enc a.enc b.enc (0#18))
  | .lscan x op excl => some (encFull 384 x.hd x.d.enc x.a.enc 0 (op ++ BitVec.ofBool excl ++ 0#4 ++ BitVec.ofBool x.ha ++ 0#8))
  | .lred x op => some (encFull 385 x.hd x.d.enc x.a.enc 0 (op ++ 0#1 ++ 0#4 ++ BitVec.ofBool x.ha ++ 0#8))
  | .lvote hd d mode ns ps pd => some (encFull 386 hd d.enc 0 0 (mode ++ BitVec.ofBool ns ++ ps ++ pd ++ 0#9))
  | .lbcast hd d a b ha b64 => some (encFull 387 hd d.enc a.enc b.enc (0#8 ++ BitVec.ofBool b64 ++ BitVec.ofBool ha ++ 0#8))
  | .lfind hd d hi ns ps pd => some (encFull 388 hd d.enc 0 0 (0#1 ++ BitVec.ofBool hi ++ BitVec.ofBool ns ++ ps ++ pd ++ 0#9))
  | .bra hd imm => some (encImm 448 hd 0 0 imm)
  | .brx hd a => some (encFull 449 hd 0 a.enc 0 (0#18))
  | .call hd imm => some (encImm 450 hd 0 0 imm)
  | .callx hd a => some (encFull 451 hd 0 a.enc 0 (0#18))
  | .ret hd => some (encFull 452 hd 0 0 0 (0#18))
  | .rcb hd slot imm => some (encImm 453 hd (0#6 ++ slot) 0 imm)
  | .rcw hd slot => some (encFull 454 hd 0 0 0 (0#8 ++ 0#1 ++ slot ++ 0#6))
  | .exit hd => some (encFull 455 hd 0 0 0 (0#18))
  | .yield hd => some (encFull 456 hd 0 0 0 (0#18))
  | .nop hd => some (encFull 457 hd 0 0 0 (0#18))
  | .brk hd code => some (encFull 458 hd 0 0 0 (0#12 ++ code))
  | .trap hd code => some (encFull 459 hd 0 0 0 (0#12 ++ code))
  | .tret hd => some (encFull 460 hd 0 0 0 (0#12 ++ 0#5 ++ 0#1))
  | .tretSkip hd => some (encFull 460 hd 0 0 0 (0#12 ++ 0#5 ++ 1#1))
  | .ld m => some (encFull 512 m.hd m.d.enc m.a.enc m.b.enc (m.width.enc ++ BitVec.ofBool m.sx ++ m.order.enc ++ m.scope.enc ++ m.hint.enc ++ m.disp))
  | .st m => some (encFull 513 m.hd m.d.enc m.a.enc m.b.enc (m.width.enc ++ BitVec.ofBool m.sx ++ m.order.enc ++ m.scope.enc ++ m.hint.enc ++ m.disp))
  | .ldu m => some (encFull 514 m.hd m.d.enc m.a.enc m.b.enc (m.width.enc ++ BitVec.ofBool m.sx ++ m.order.enc ++ m.scope.enc ++ m.hint.enc ++ m.disp))
  | .stu m => some (encFull 515 m.hd m.d.enc m.a.enc m.b.enc (m.width.enc ++ BitVec.ofBool m.sx ++ m.order.enc ++ m.scope.enc ++ m.hint.enc ++ m.disp))
  | .pref m => some (encFull 516 m.hd m.d.enc m.a.enc m.b.enc (m.width.enc ++ BitVec.ofBool m.sx ++ m.order.enc ++ m.scope.enc ++ m.hint.enc ++ m.disp))
  | .fence m => some (encFull 517 m.hd m.d.enc m.a.enc m.b.enc (m.width.enc ++ BitVec.ofBool m.sx ++ m.order.enc ++ m.scope.enc ++ m.hint.enc ++ m.disp))
  | .cflush m => some (encFull 518 m.hd m.d.enc m.a.enc m.b.enc (m.width.enc ++ BitVec.ofBool m.sx ++ m.order.enc ++ m.scope.enc ++ m.hint.enc ++ m.disp))
  | .waddr m => some (encFull 519 m.hd m.d.enc m.a.enc m.b.enc (m.width.enc ++ BitVec.ofBool m.sx ++ m.order.enc ++ m.scope.enc ++ m.hint.enc ++ m.disp))
  | .atom x => some (encFull 576 x.hd x.d.enc x.a.enc x.b.enc (x.width.enc ++ 0#1 ++ x.order.enc ++ x.scope.enc ++ x.op ++ x.disp))
  | .atomcas x => some (encFull 577 x.hd x.d.enc x.a.enc x.b.enc (x.width.enc ++ 0#1 ++ x.order.enc ++ x.scope.enc ++ x.op ++ x.disp))
  | .red x => some (encFull 578 x.hd x.d.enc x.a.enc x.b.enc (x.width.enc ++ 0#1 ++ x.order.enc ++ x.scope.enc ++ x.op ++ x.disp))
  | .cpy hd tl d a width => some (encFull 640 hd d.enc a.enc 0 (0#8 ++ 0#1 ++ tl ++ 0#4 ++ width))
  | .cpyt x => some (encFull 641 x.hd 0 x.a.enc 0 (x.h ++ 0#1 ++ x.tl ++ 0#1 ++ x.sfmt ++ BitVec.ofBool x.dir))
  | .cpyr hd tl h a dir op => some (encFull 642 hd 0 a.enc 0 (h ++ 0#1 ++ tl ++ 0#2 ++ op ++ BitVec.ofBool dir))
  | .cpyn x => some (encFull 643 x.hd 0 x.a.enc 0 (x.h ++ 0#1 ++ x.tl ++ 0#1 ++ x.sfmt ++ BitVec.ofBool x.dir))
  | .cpyg x => some (encFull 644 x.hd 0 x.a.enc 0 (x.h ++ 0#1 ++ x.tl ++ 0#1 ++ x.sfmt ++ BitVec.ofBool x.dir))
  | .cminit hd slot a b => some (encFull 645 hd 0 a.enc b.enc (0#8 ++ slot ++ 0#6))
  | .cmtest hd d slot a b scope => some (encFull 646 hd d.enc a.enc b.enc (0#8 ++ slot ++ 0#3 ++ scope.enc))
  | .cmwait hd slot a b scope => some (encFull 647 hd 0 a.enc b.enc (0#8 ++ slot ++ 0#3 ++ scope.enc))
  | .tlwait hd tl a scope => some (encFull 648 hd 0 a.enc 0 (0#8 ++ 0#1 ++ tl ++ 0#3 ++ scope.enc))
  | .tlread hd d tl sel clr => some (encFull 649 hd d.enc 0 0 (0#8 ++ 0#1 ++ tl ++ 0#3 ++ BitVec.ofBool clr ++ sel))
  | .seqend hd => some (encFull 650 hd 0 0 0 (0#18))
  | .mldw x => some (encFull 704 x.hd 0 x.a.enc 0 (x.h ++ x.bar ++ BitVec.ofBool x.arr ++ 0#5))
  | .mswap hd bar arr => some (encFull 705 hd 0 0 0 (0#8 ++ bar ++ BitVec.ofBool arr ++ 0#5))
  | .mstrm x tile clr => some (encFull 706 x.hd 0 x.a.enc 0 (x.h ++ x.bar ++ BitVec.ofBool x.arr ++ 0#1 ++ BitVec.ofBool clr ++ tile))
  | .mldt x => some (encFull 707 x.hd 0 x.a.enc 0 (x.h ++ x.bar ++ BitVec.ofBool x.arr ++ 0#1 ++ 0#4))
  | .mldtAcc x tile => some (encFull 707 x.hd 0 x.a.enc 0 (x.h ++ x.bar ++ BitVec.ofBool x.arr ++ 1#1 ++ 0#1 ++ tile))
  | .maclr hd mask bar arr => some (encFull 708 hd 0 0 0 (mask ++ bar ++ BitVec.ofBool arr ++ 0#5))
  | .macld x tile => some (encFull 709 x.hd 0 x.a.enc 0 (x.h ++ x.bar ++ BitVec.ofBool x.arr ++ 0#2 ++ tile))
  | .macst x tile => some (encFull 710 x.hd 0 x.a.enc 0 (x.h ++ x.bar ++ BitVec.ofBool x.arr ++ 0#2 ++ tile))
  | .mvcnt hd a => some (encFull 711 hd 0 a.enc 0 (0#8 ++ 0#4 ++ 0#6))
  | .mloop hd d off => some (encFull 712 hd d.enc 0 0 (off))
  | .mmode hd fmt => some (encFull 713 hd 0 0 0 (0#8 ++ 0#4 ++ 0#3 ++ fmt))
  | .fork hd a b => some (encFull 768 hd 0 a.enc b.enc (0#8 ++ 0#4 ++ 0#6))
  | .rdv hd => some (encFull 769 hd 0 0 0 (0#18))
  | .barinit hd bar a => some (encFull 770 hd 0 a.enc 0 (0#8 ++ bar ++ 0#6))
  | .barrive hd d bar => some (encFull 771 hd d.enc 0 0 (0#8 ++ bar ++ 0#6))
  | .barwait hd bar a => some (encFull 772 hd 0 a.enc 0 (0#8 ++ bar ++ 0#6))
  | .barstat hd d bar sel => some (encFull 773 hd d.enc 0 0 (0#8 ++ bar ++ 0#4 ++ sel))
  | .tfetch hd d disp => some (encFull 774 hd d.enc 0 0 (0#8 ++ 0#4 ++ 0#4 ++ disp))
  | .wpush hd d a => some (encFull 775 hd d.enc a.enc 0 (0#8 ++ 0#4 ++ 0#6))
  | .wpop hd d a p => some (encFull 776 hd d.enc a.enc 0 (0#8 ++ 0#4 ++ 0#3 ++ p))
  | .wdone hd a => some (encFull 777 hd 0 a.enc 0 (0#8 ++ 0#4 ++ 0#6))
  | .cwait hd scope => some (encFull 778 hd 0 0 0 (0#8 ++ 0#4 ++ 0#3 ++ scope.enc))
  | .thset hd d h a => some (encFull 779 hd d.enc a.enc 0 (h ++ 0#4 ++ 0#6))
  | .thget hd h a => some (encFull 780 hd 0 a.enc 0 (h ++ 0#4 ++ 0#6))
  | .rcapmkReg hd d reg n a wr xp => some (encFull 832 hd d.enc a.enc 0 (reg ++ 0#1 ++ n ++ 0#3 ++ 0#1 ++ BitVec.ofBool xp ++ BitVec.ofBool wr))
  | .rcapmkLand hd d e a b wr xp => some (encFull 832 hd d.enc a.enc b.enc (0#8 ++ e ++ 0#3 ++ 1#1 ++ BitVec.ofBool xp ++ BitVec.ofBool wr))
  | .rcapld hd slot a => some (encFull 833 hd 0 a.enc 0 (0#8 ++ slot ++ 0#6))
  | .rcaprevReg hd => some (encFull 834 hd 0 0 0 (0#8 ++ 0#4 ++ 0#3 ++ 0#1 ++ 0#2))
  | .rcaprevLand hd e => some (encFull 834 hd 0 0 0 (0#8 ++ e ++ 0#3 ++ 1#1 ++ 0#2))
  | .rwr hd a slot tl scope rel off k => some (encFull 835 hd 0 a.enc 0 (scope.enc ++ BitVec.ofBool rel ++ 0#1 ++ off ++ slot ++ k ++ tl))
  | .rarm hd d k => some (encFull 836 hd d.enc 0 0 (0#8 ++ 0#1 ++ k ++ 0#6))
  | .rpoll hd d a k p => some (encFull 837 hd d.enc a.enc 0 (0#8 ++ 0#1 ++ k ++ 0#3 ++ p))
  | .phreg x d a mode => some (encFull 896 x.hd d.enc a.enc 0 (0#8 ++ 0#2 ++ mode ++ x.x))
  | .phdrop x => some (encFull 897 x.hd 0 0 0 (0#8 ++ 0#4 ++ x.x))
  | .phsig x d scope => some (encFull 898 x.hd d.enc 0 0 (0#8 ++ 0#1 ++ scope.enc ++ x.x))
  | .phsigb x d tl b => some (encFull 899 x.hd d.enc 0 b.enc (0#8 ++ 0#1 ++ tl ++ x.x))
  | .phany x d a => some (encFull 900 x.hd d.enc a.enc 0 (0#7 ++ 0#1 ++ 0#4 ++ x.x))
  | .phanyBind x d a tl b => some (encFull 900 x.hd d.enc a.enc b.enc (0#7 ++ 1#1 ++ 0#1 ++ tl ++ x.x))
  | .phwait x a scope => some (encFull 901 x.hd 0 a.enc 0 (0#8 ++ 0#1 ++ scope.enc ++ x.x))
  | .phtest x d a => some (encFull 902 x.hd d.enc a.enc 0 (0#8 ++ 0#4 ++ x.x))
  | .phwin x d a scope => some (encFull 903 x.hd d.enc a.enc 0 (0#8 ++ 0#1 ++ scope.enc ++ x.x))
  | .phtime x a b => some (encFull 904 x.hd 0 a.enc b.enc (0#8 ++ 0#4 ++ x.x))
  | .coll hd tl h a => some (encFull 905 hd 0 a.enc 0 (h ++ 0#1 ++ tl ++ 0#6))
  | .collst hd d a => some (encFull 906 hd d.enc a.enc 0 (0#8 ++ 0#4 ++ 0#6))
  | .sread hd d a => some (encFull 960 hd d.enc a.enc 0 (0#17 ++ 0#1))
  | .sreadSys hd d n => some (encFull 960 hd d.enc 0 0 (n ++ 1#1))
  | .swrite hd a b => some (encFull 961 hd 0 a.enc b.enc (0#17 ++ 0#1))
  | .swriteSys hd n b => some (encFull 961 hd 0 0 b.enc (n ++ 1#1))
  | .sethdl hd a => some (encFull 962 hd 0 a.enc 0 (0#8 ++ 0#4 ++ 0#6))
  | .estatLog hd d a => some (encFull 963 hd d.enc a.enc 0 (0#8 ++ 0#4 ++ 0#5 ++ 0#1))
  | .estatEq hd d => some (encFull 963 hd d.enc 0 0 (0#8 ++ 0#4 ++ 0#5 ++ 1#1))
  | .pggen hd d a => some (encFull 964 hd d.enc a.enc 0 (0#8 ++ 0#4 ++ 0#6))
  | .assistNext hd d => some (encFull 965 hd d.enc 0 0 (0#8 ++ 0#4 ++ 0#4 ++ 0#2))
  | .assistGet hd d a => some (encFull 965 hd d.enc a.enc 0 (0#8 ++ 0#4 ++ 0#4 ++ 1#2))
  | .assistPut hd a b => some (encFull 965 hd 0 a.enc b.enc (0#8 ++ 0#4 ++ 0#4 ++ 2#2))
  | .assistDone hd => some (encFull 965 hd 0 0 0 (0#8 ++ 0#4 ++ 0#4 ++ 3#2))
  | .halt hd => some (encFull 966 hd 0 0 0 (0#8 ++ 0#4 ++ 0#5 ++ 0#1))
  | .haltStop hd => some (encFull 966 hd 0 0 0 (0#8 ++ 0#4 ++ 0#5 ++ 1#1))
  | .pairedWord s0 s1 => some (1#1 ++ 0#1 ++ s0.enc ++ s1.enc : BitVec 64)
  | _ => none

/-- The engine whose decoder accepts the word, of the five in the order troupe, matrix sequencer, copy sequencer,
cluster control core, firmware core, with the instruction; none when all refuse it. -/
def decodeAny (w : DWord) : Option (Engine × Instr) :=
  [Engine.troupe, .matrix, .copy, .control, .firmware].findSome? fun e =>
    match decode e 256 w with
    | .ok i => some (e, i)
    | .error _ => none

/-- The instruction that the decoder reads from an instruction whose bits are `w`, least significant first: every
instruction is one 64-bit word in little-endian byte order (R47, R26), so `w` is the word. -/
def decodeTableWord (nbits w : Nat) : Option Instr :=
  if nbits ≤ 64 then (decodeAny (BitVec.ofNat 64 (w % 2 ^ nbits))).map Prod.snd else none

end Sys2Proof
end

