-- ==== Sys2Proof/Machine/TMap.lean ====
section
/-!
DEFINITION. The operations on tables (`TMap`), byte order and bit fields that every other file of the machine uses.
-/

namespace Sys2Proof.Machine

/-- The value at key `n`, or the default `d` where the table lists none. -/
def tget {α : Type} (d : α) (m : TMap α) (n : Nat) : α :=
  match m with
  | [] => d
  | (k, x) :: r => if k = n then x else tget d r n

/-- The table without key `n`. -/
def terase {α : Type} (m : TMap α) (n : Nat) : TMap α :=
  match m with
  | [] => []
  | (k, x) :: r => if k = n then terase r n else (k, x) :: terase r n

/-- Insert a key that the table does not list, in rising order. -/
def tinsert {α : Type} (m : TMap α) (n : Nat) (x : α) : TMap α :=
  match m with
  | [] => [(n, x)]
  | (k, y) :: r => if n < k then (n, x) :: (k, y) :: r else (k, y) :: tinsert r n x

/-- Write key `n`; writing the default removes the entry, so that the form stays canonical. -/
def tset {α : Type} [DecidableEq α] (d : α) (m : TMap α) (n : Nat) (x : α) : TMap α :=
  if x = d then terase m n else tinsert (terase m n) n x

/-- Put the entries `new`, which lie in [lo, hi), in place of what the table lists there. -/
def tsplice {α : Type} (m : TMap α) (lo hi : Nat) (new : TMap α) : TMap α :=
  m.filter (fun e => decide (e.1 < lo)) ++ new ++ m.filter fun e => decide (hi ≤ e.1)

/-- The table is in its canonical form: keys strictly rising and no entry equal to the default. -/
def twf {α : Type} [DecidableEq α] (d : α) (m : TMap α) : Bool :=
  decide (m.Pairwise fun a b => a.1 < b.1) && m.all fun e => decide (e.2 ≠ d)

/-- The lanes of a mask, lowest first (R99). -/
def lanesOf (m : LaneMask) : List Nat := (List.range 32).filter fun l => m.getLsbD l

/-- The lowest lane of a mask; 0 where the mask is empty. -/
def lowLane (m : LaneMask) : Nat := ((lanesOf m).head?).getD 0

/-- The mask of one lane. -/
def laneBit (l : Nat) : LaneMask := BitVec.ofNat 32 (2 ^ l)

/-- The mask of the lanes for which `f` holds. -/
def maskOf (f : Nat → Bool) : LaneMask :=
  (List.range 32).foldl (fun m l => if f l then m ||| laneBit l else m) 0

/-- The `n` least significant bytes of a number, least significant first (R26). -/
def toBytes (n : Nat) (x : Nat) : List Byte :=
  (List.range n).map fun i => BitVec.ofNat 8 (x / 256 ^ i)

/-- The number that bytes hold, least significant first (R26). -/
def ofBytes : List Byte → Nat
  | [] => 0
  | b :: r => b.toNat + 256 * ofBytes r

/-- Bits [hi:lo] of a number. -/
def bitsN (x hi lo : Nat) : Nat := x / 2 ^ lo % 2 ^ (hi + 1 - lo)

/-- `x` with bits [hi:lo] replaced by `v`. -/
def setBitsN (x hi lo v : Nat) : Nat :=
  x - bitsN x hi lo * 2 ^ lo + v % 2 ^ (hi + 1 - lo) * 2 ^ lo

/-- ⌈a ÷ b⌉. -/
def ceilDiv (a b : Nat) : Nat := (a + b - 1) / b

/-- The entry of a list whose key is `k`. -/
def lookupBy {κ α : Type} [DecidableEq κ] (k : κ) : List (κ × α) → Option α
  | [] => none
  | (j, x) :: r => if j = k then some x else lookupBy k r

/-- Put an entry under key `k`, in place of the entry that held it, or at the end. -/
def putBy {κ α : Type} [DecidableEq κ] (k : κ) (x : α) : List (κ × α) → List (κ × α)
  | [] => [(k, x)]
  | (j, y) :: r => if j = k then (j, x) :: r else (j, y) :: putBy k x r

/-- Remove the entry under key `k`. -/
def dropBy {κ α : Type} [DecidableEq κ] (k : κ) : List (κ × α) → List (κ × α)
  | [] => []
  | (j, y) :: r => if j = k then dropBy k r else (j, y) :: dropBy k r

/-- Insert an entry behind those that it does not come before. -/
def insertBy {α : Type} (before : α → α → Bool) (x : α) : List α → List α
  | [] => [x]
  | y :: r => if before x y then x :: y :: r else y :: insertBy before x r

/-- A list in the order of `before`; entries of equal rank keep their order. -/
def sortBy {α : Type} (before : α → α → Bool) (l : List α) : List α := l.foldl (fun r x => insertBy before x r) []

/-- Replace the entry at an index of a list. -/
def setAt {α : Type} (l : List α) (i : Nat) (x : α) : List α := l.set i x

/-- Remove the entry at an index of a list. -/
def removeAt {α : Type} : List α → Nat → List α
  | [], _ => []
  | _ :: r, 0 => r
  | x :: r, i + 1 => x :: removeAt r i

end Sys2Proof.Machine
end

