-- ==== Sys2Proof/Machine/Float.lean ====
section
/-!
DEFINITION. The floating-point arithmetic of the HW4 (02 R28-R33, R37, R38, 04 R83-R88): exact dyadic values, one
rounding, the flags of R29-R33, and the special functions computed to far more bits than a correct rounding needs.
-/

namespace Sys2Proof.Machine

/-- A binary format: exponent and fraction bits (R28). -/
structure FFmt where
  eb : Nat
  fb : Nat
  deriving DecidableEq, Repr

/-- FP64 (R28). -/
def fp64 : FFmt := ⟨11, 52⟩
/-- FP32 (R28). -/
def fp32 : FFmt := ⟨8, 23⟩
/-- FP16 (R28). -/
def fp16 : FFmt := ⟨5, 10⟩
/-- BF16 (R28). -/
def bf16 : FFmt := ⟨8, 7⟩

/-- Width of the format in bits. -/
def FFmt.width (f : FFmt) : Nat := 1 + f.eb + f.fb
/-- Bias of the format (R28). -/
def FFmt.bias (f : FFmt) : Nat := 2 ^ (f.eb - 1) - 1
/-- The canonical NaN (R28). -/
def FFmt.cnan (f : FFmt) : Nat := (2 ^ f.eb - 1) * 2 ^ f.fb + 2 ^ (f.fb - 1)
/-- Infinity of a sign. -/
def FFmt.inf (f : FFmt) (neg : Bool) : Nat := (if neg then 2 ^ (f.eb + f.fb) else 0) + (2 ^ f.eb - 1) * 2 ^ f.fb
/-- Zero of a sign. -/
def FFmt.zero (f : FFmt) (neg : Bool) : Nat := if neg then 2 ^ (f.eb + f.fb) else 0
/-- The largest finite value of a sign (R28). -/
def FFmt.maxFin (f : FFmt) (neg : Bool) : Nat :=
  (if neg then 2 ^ (f.eb + f.fb) else 0) + (2 ^ f.eb - 1) * 2 ^ f.fb - 1
/-- The exponent of the smallest normal value. -/
def FFmt.emin (f : FFmt) : Int := 1 - (f.bias : Int)

/-- The flags that one operation raises (R15, R29, R31). -/
structure FFlags where
  iv : Bool
  dz : Bool
  ov : Bool
  uf : Bool
  nx : Bool
  sat : Bool
  deriving DecidableEq, Repr

/-- No flag. -/
def FFlags.none : FFlags := ⟨false, false, false, false, false, false⟩
/-- The flags of two operations together (R73). -/
def FFlags.or (a b : FFlags) : FFlags :=
  ⟨a.iv || b.iv, a.dz || b.dz, a.ov || b.ov, a.uf || b.uf, a.nx || b.nx, a.sat || b.sat⟩
/-- The flags as bits [13:8] of `s_fpmode` (R15). -/
def FFlags.bits (f : FFlags) : Nat :=
  (if f.iv then 0x100 else 0) + (if f.dz then 0x200 else 0) + (if f.ov then 0x400 else 0) + (if f.uf then 0x800 else 0)
    + (if f.nx then 0x1000 else 0) + (if f.sat then 0x2000 else 0)
/-- Only IV. -/
def FFlags.invalid : FFlags := { FFlags.none with iv := true }
/-- Only DZ. -/
def FFlags.divZero : FFlags := { FFlags.none with dz := true }

/-- A value: NaN (signalling or not), infinity, or a finite (-1)^neg × m × 2^e. -/
inductive FVal where
  | nan (signalling : Bool)
  | inf (neg : Bool)
  | fin (neg : Bool) (m : Nat) (e : Int)
  deriving DecidableEq, Repr

/-- A result with its flags. -/
structure FRes where
  bits : Nat
  flags : FFlags
  deriving DecidableEq, Repr

/-- Take a pattern apart, every subnormal exactly. -/
def unpackExact (f : FFmt) (x : Nat) : FVal :=
  let neg := x / 2 ^ (f.eb + f.fb) % 2 == 1
  let ex := x / 2 ^ f.fb % 2 ^ f.eb
  let fr := x % 2 ^ f.fb
  if ex = 2 ^ f.eb - 1 then
    if fr = 0 then .inf neg else .nan (decide (fr < 2 ^ (f.fb - 1)))
  else if ex = 0 then .fin neg fr (f.emin - (f.fb : Int))
  else .fin neg (2 ^ f.fb + fr) ((ex : Int) - (f.bias : Int) - (f.fb : Int))

/-- Take an operand apart under SUBN (R33): with SUBN = 0 a subnormal operand is a zero of its sign. -/
def unpack (f : FFmt) (subn : Bool) (x : Nat) : FVal :=
  match unpackExact f x with
  | .fin neg m e => if !subn && decide (m < 2 ^ f.fb) then .fin neg 0 e else .fin neg m e
  | .nan b => .nan b
  | .inf neg => .inf neg

/-- The number of bits of a natural number. -/
def bitLen (n : Nat) : Nat := if n = 0 then 0 else Nat.log2 n + 1

/-- Round m × 2^(-sh) to an integer in a mode of R30; `sticky` says that the value lies strictly above m. -/
def roundShift (mode : BitVec 3) (neg : Bool) (m : Nat) (sh : Nat) (sticky : Bool) : Nat × Bool :=
  let q := m / 2 ^ sh
  let r := m % 2 ^ sh
  let inexact := decide (r ≠ 0) || sticky
  let half := 2 ^ sh / 2
  let above := decide (half < r) || (decide (r = half) && sticky && decide (0 < sh))
  let tie := decide (r = half) && !sticky && decide (0 < sh)
  let up := if mode = 0 then above || (tie && decide (q % 2 = 1))
    else if mode = 1 then false
    else if mode = 2 then inexact && !neg
    else if mode = 3 then inexact && neg
    else above || tie
  (if up then q + 1 else q, inexact)

/-- Round a value at the quantum 2^q: the integer multiple and whether it is inexact. -/
def roundAt (mode : BitVec 3) (neg : Bool) (m : Nat) (e q : Int) (sticky : Bool) : Nat × Bool :=
  if q ≤ e then (m * 2 ^ (e - q).toNat, sticky) else roundShift mode neg m (q - e).toNat sticky

/-- The result of an overflow (R32): OF and NX, and under `sat` the largest finite value. -/
def overflowRes (f : FFmt) (mode : BitVec 3) (sat neg : Bool) : FRes :=
  let toInf := !sat && (decide (mode = 0) || decide (mode = 4) || (decide (mode = 2) && !neg) || (decide (mode = 3) && neg))
  ⟨if toInf then f.inf neg else f.maxFin neg, { FFlags.none with ov := true, nx := true }⟩

/-- Round a nonzero exact value m × 2^e (plus something below one unit of m when `sticky`) to a format (R31-R33). -/
def roundFin (f : FFmt) (mode : BitVec 3) (sat subn neg : Bool) (m : Nat) (e : Int) (sticky : Bool) : FRes :=
  let q := e + (bitLen m : Int) - (f.fb : Int) - 1
  let (mant, inexact) := roundAt mode neg m e q sticky
  let top := q + (bitLen mant : Int) - 1
  let sign := f.zero neg
  if top < f.emin then
    if !subn then ⟨sign, { FFlags.none with uf := true, nx := true }⟩
    else
      let (ms, inx) := roundAt mode neg m e (f.emin - (f.fb : Int)) sticky
      ⟨sign + ms, { FFlags.none with uf := inx, nx := inx }⟩
  else if top > (f.bias : Int) then overflowRes f mode sat neg
  else
    let frac := if mant < 2 ^ (f.fb + 1) then mant - 2 ^ f.fb else 0
    ⟨sign + (top + (f.bias : Int)).toNat * 2 ^ f.fb + frac, { FFlags.none with nx := inexact }⟩

/-- Deliver a canonical NaN with IV (R29). -/
def invalidRes (f : FFmt) : FRes := ⟨f.cnan, FFlags.invalid⟩

/-- The NaN result of operands of which one is a NaN (R29). -/
def nanRes (f : FFmt) (vs : List FVal) : FRes :=
  ⟨f.cnan, { FFlags.none with iv := vs.any fun v => v == .nan true }⟩

/-- Whether an operand is a NaN. -/
def FVal.isNan : FVal → Bool
  | .nan _ => true
  | .inf _ => false
  | .fin _ _ _ => false

/-- Change the sign (R81). -/
def FVal.negate : FVal → FVal
  | .nan b => .nan b
  | .inf n => .inf (!n)
  | .fin n m e => .fin (!n) m e

/-- The sign bit of a value. -/
def FVal.sign : FVal → Bool
  | .nan _ => false
  | .inf n => n
  | .fin n _ _ => n

/-- A signed dyadic sum: the exact value a × 2^ea + b × 2^eb as an integer and an exponent. -/
def dyAdd (a : Int) (ea : Int) (b : Int) (eb : Int) : Int × Int :=
  if ea ≤ eb then (a + b * 2 ^ (eb - ea).toNat, ea) else (a * 2 ^ (ea - eb).toNat + b, eb)

/-- The signed integer of a finite value. -/
def sInt (neg : Bool) (m : Nat) : Int := if neg then -(m : Int) else m

/-- Round a signed dyadic value; an exact zero has the sign that R29 gives a sum. -/
def roundSigned (f : FFmt) (mode : BitVec 3) (sat subn : Bool) (v e : Int) (zeroNeg : Bool) : FRes :=
  if v = 0 then ⟨f.zero zeroNeg, FFlags.none⟩
  else roundFin f mode sat subn (decide (v < 0)) v.natAbs e false

/-- The sign of an exact zero sum (R29): the common sign, else + but - under rm. -/
def zeroSumSign (mode : BitVec 3) (na nb : Bool) : Bool := if na = nb then na else decide (mode = 3)

/-- a + b over values. -/
def addVal (f : FFmt) (mode : BitVec 3) (sat subn : Bool) (a b : FVal) : FRes :=
  match a, b with
  | .nan _, _ => nanRes f [a, b]
  | _, .nan _ => nanRes f [a, b]
  | .inf n, .inf k => if n = k then ⟨f.inf n, FFlags.none⟩ else invalidRes f
  | .inf n, .fin _ _ _ => ⟨f.inf n, FFlags.none⟩
  | .fin _ _ _, .inf n => ⟨f.inf n, FFlags.none⟩
  | .fin n m e, .fin k p d =>
    let (v, x) := dyAdd (sInt n m) e (sInt k p) d
    roundSigned f mode sat subn v x (zeroSumSign mode n k)

/-- a × b over values. -/
def mulVal (f : FFmt) (mode : BitVec 3) (sat subn : Bool) (a b : FVal) : FRes :=
  match a, b with
  | .nan _, _ => nanRes f [a, b]
  | _, .nan _ => nanRes f [a, b]
  | .inf n, .inf k => ⟨f.inf (n != k), FFlags.none⟩
  | .inf n, .fin k m _ => if m = 0 then invalidRes f else ⟨f.inf (n != k), FFlags.none⟩
  | .fin k m _, .inf n => if m = 0 then invalidRes f else ⟨f.inf (n != k), FFlags.none⟩
  | .fin n m e, .fin k p d =>
    if m * p = 0 then ⟨f.zero (n != k), FFlags.none⟩ else roundFin f mode sat subn (n != k) (m * p) (e + d) false

/-- a × b + c over values, rounded once (R31). -/
def fmaVal (f : FFmt) (mode : BitVec 3) (sat subn : Bool) (a b c : FVal) : FRes :=
  let badProduct := match a, b with
    | .inf _, .fin _ m _ => m == 0
    | .fin _ m _, .inf _ => m == 0
    | _, _ => false
  if a.isNan || b.isNan || c.isNan then
    ⟨f.cnan, { FFlags.none with iv := badProduct || [a, b, c].any fun v => v == .nan true }⟩
  else if badProduct then invalidRes f
  else
    let ps := a.sign != b.sign
    match a, b, c with
    | .fin _ m e, .fin _ p d, .fin k r g =>
      let (v, x) := dyAdd (sInt ps (m * p)) (e + d) (sInt k r) g
      roundSigned f mode sat subn v x (zeroSumSign mode ps k)
    | .fin _ _ _, .fin _ _ _, .inf k => ⟨f.inf k, FFlags.none⟩
    | _, _, .inf k => if ps = k then ⟨f.inf k, FFlags.none⟩ else invalidRes f
    | _, _, _ => ⟨f.inf ps, FFlags.none⟩

/-- The order of two values that are no NaN: less, equal (zeros alike) or greater. -/
def cmpVal (a b : FVal) : Ordering :=
  match a, b with
  | .inf n, .inf k => if n = k then .eq else if n then .lt else .gt
  | .inf n, _ => if n then .lt else .gt
  | _, .inf k => if k then .gt else .lt
  | .fin n m e, .fin k p d =>
    let v := (dyAdd (sInt n m) e (-(sInt k p)) d).1
    if v < 0 then .lt else if v = 0 then .eq else .gt
  | _, _ => .eq

/-- Minimum or maximum (R29): a and b are the patterns after SM and SUBN; -0 is below +0. -/
def minMax (f : FFmt) (subn isMax : Bool) (x y : Nat) : FRes :=
  let a := unpack f subn x
  let b := unpack f subn y
  let flush (v : FVal) (p : Nat) : Nat := match v with
    | .fin n m _ => if m = 0 then f.zero n else p
    | .inf _ => p
    | .nan _ => f.cnan
  let fl := { FFlags.none with iv := a == .nan true || b == .nan true }
  if a.isNan && b.isNan then ⟨f.cnan, fl⟩
  else if a.isNan then ⟨flush b y, fl⟩
  else if b.isNan then ⟨flush a x, fl⟩
  else
    let less := match cmpVal a b with
      | .lt => true
      | .gt => false
      | .eq => a.sign && !b.sign
    if less != isMax then ⟨flush a x, fl⟩ else ⟨flush b y, fl⟩

/-- Compare code of R52 on two floating-point values, with IV on a signalling NaN (R84). -/
def fcmpVal (cc : BitVec 4) (a b : FVal) : Bool × FFlags :=
  let un := a.isNan || b.isNan
  let o := cmpVal a b
  let r := match cc.toNat with
    | 0 => !un && o == .eq
    | 1 => !un && o != .eq
    | 2 => !un && o == .lt
    | 3 => !un && o != .gt
    | 4 => !un && o == .gt
    | 5 => !un && o != .lt
    | 6 => un || o == .lt
    | 7 => un || o != .gt
    | 8 => un || o == .gt
    | 9 => un || o != .lt
    | 10 => un || o == .eq
    | 11 => un || o != .eq
    | 12 => !un
    | 13 => un
    | _ => false
  (r, { FFlags.none with iv := a == .nan true || b == .nan true })

/-- The class bit of a pattern (R84). -/
def fclassOf (f : FFmt) (x : Nat) : Nat :=
  match unpackExact f x with
  | .nan s => if s then 0 else 1
  | .inf n => if n then 2 else 9
  | .fin n m _ =>
    if m = 0 then (if n then 5 else 6)
    else if m < 2 ^ f.fb then (if n then 4 else 7) else (if n then 3 else 8)

/-- The largest r with r × r ≤ n, found bit by bit from bit `fuel` - 1 down. -/
def isqrtFrom (n : Nat) : Nat → Nat → Nat
  | 0, r => r
  | fuel + 1, r =>
    let c := r + 2 ^ fuel
    if c * c ≤ n then isqrtFrom n fuel c else isqrtFrom n fuel r

/-- The integer square root. -/
def isqrt (n : Nat) : Nat := isqrtFrom n (bitLen n / 2 + 1) 0

/-- Reciprocal (R83, R85). -/
def rcpVal (f : FFmt) (mode : BitVec 3) (sat subn : Bool) (a : FVal) : FRes :=
  match a with
  | .nan _ => nanRes f [a]
  | .inf n => ⟨f.zero n, FFlags.none⟩
  | .fin n m e =>
    if m = 0 then ⟨f.inf n, FFlags.divZero⟩
    else
      let k := 2 * f.fb + 8 + bitLen m
      roundFin f mode sat subn n (2 ^ k / m) (-e - (k : Int)) (decide (2 ^ k % m ≠ 0))

/-- Square root (R83). -/
def sqrtVal (f : FFmt) (mode : BitVec 3) (subn : Bool) (a : FVal) : FRes :=
  match a with
  | .nan _ => nanRes f [a]
  | .inf n => if n then invalidRes f else ⟨f.inf false, FFlags.none⟩
  | .fin n m e =>
    if m = 0 then ⟨f.zero n, FFlags.none⟩
    else if n then invalidRes f
    else
      let k := 2 * (f.fb + 4)
      let (m1, e1) := if e % 2 = 0 then (m, e) else (2 * m, e - 1)
      let big := m1 * 2 ^ (2 * k)
      let r := isqrt big
      roundFin f mode false subn false r (e1 / 2 - (k : Int)) (decide (r * r ≠ big))

/-- Reciprocal square root in rn (R83). -/
def rsqVal (f : FFmt) (subn : Bool) (a : FVal) : FRes :=
  match a with
  | .nan _ => nanRes f [a]
  | .inf n => if n then invalidRes f else ⟨f.zero false, FFlags.none⟩
  | .fin n m e =>
    if m = 0 then ⟨f.inf n, FFlags.divZero⟩
    else if n then invalidRes f
    else
      -- 1 ÷ √(m × 2^e) = √(2^(2k) ÷ m1) × 2^(-k - e1 ÷ 2), m1 × 2^e1 = m × 2^e with e1 even
      let (m1, e1) := if e % 2 = 0 then (m, e) else (2 * m, e - 1)
      let k := 2 * f.fb + 16 + bitLen m1
      let q := 2 ^ (2 * k) / m1
      let r := isqrt q
      roundFin f 0 false subn false r (-(k : Int) - e1 / 2) (decide (r * r * m1 ≠ 2 ^ (2 * k)))

/-- The number of fraction bits of the fixed-point arithmetic behind the special functions. -/
def spBits : Nat := 480

/-- 2^(fr ÷ 2^n) × 2^spBits for the `n` fraction bits `fr`, most significant bit first: root holds 2^(2^-i). -/
def exp2Fixed (n fr : Nat) : Nat → Nat → Nat → Nat
  | 0, _, acc => acc
  | i + 1, root, acc =>
    let root' := isqrt (root * 2 ^ spBits)
    exp2Fixed n fr i root' (if fr / 2 ^ i % 2 = 1 then acc * root' / 2 ^ spBits else acc)

/-- 2^A in rn (R83): A = ±m × 2^e. -/
def ex2Val (f : FFmt) (sat subn : Bool) (a : FVal) : FRes :=
  match a with
  | .nan _ => nanRes f [a]
  | .inf n => ⟨if n then f.zero false else f.inf false, FFlags.none⟩
  | .fin neg m e =>
    if m = 0 then roundFin f 0 sat subn false 1 0 false
    else if (bitLen m : Int) + e > 12 then
      if neg then roundFin f 0 sat subn false 1 (-5000) true else overflowRes f 0 sat false
    else if (bitLen m : Int) + e < -64 then
      if neg then roundFin f 0 sat subn false (2 ^ 128 - 1) (-128) true else roundFin f 0 sat subn false (2 ^ 128) (-128) true
    else
      let v : Int := sInt neg m
      if 0 ≤ e then roundFin f 0 sat subn false 1 (v * 2 ^ e.toNat) false
      else
        let n := (-e).toNat
        let whole := v / 2 ^ n
        let fr := (v % 2 ^ n).toNat
        if fr = 0 then roundFin f 0 sat subn false 1 whole false
        else roundFin f 0 sat subn false (exp2Fixed n fr n (2 ^ (spBits + 1)) (2 ^ spBits)) (whole - (spBits : Int)) true

/-- `n` bits of log2 y for y in [1, 2) held with spBits fraction bits. -/
def log2Fixed : Nat → Nat → Nat → Nat
  | 0, _, acc => acc
  | n + 1, y, acc =>
    let y2 := y * y / 2 ^ spBits
    if 2 ^ (spBits + 1) ≤ y2 then log2Fixed n (y2 / 2) (2 * acc + 1) else log2Fixed n y2 (2 * acc)

/-- log2 A in rn (R83). -/
def lg2Val (f : FFmt) (subn : Bool) (a : FVal) : FRes :=
  match a with
  | .nan _ => nanRes f [a]
  | .inf n => if n then invalidRes f else ⟨f.inf false, FFlags.none⟩
  | .fin neg m e =>
    if m = 0 then ⟨f.inf true, FFlags.divZero⟩
    else if neg then invalidRes f
    else
      let b := bitLen m - 1
      let whole : Int := e + (b : Int)
      if m = 2 ^ b then roundSigned f 0 false subn whole 0 false
      else
        let fr := log2Fixed 160 (m * 2 ^ spBits / 2 ^ b) 0
        let v : Int := whole * 2 ^ 160 + (fr : Int)
        if v < 0 then roundFin f 0 false subn true (v.natAbs - 1) (-160) true
        else roundFin f 0 false subn false v.natAbs (-160) true

/-- arctan(1 ÷ x) × 2^spBits by its series, term by term. -/
def atanInv (x : Nat) : Nat → Nat → Nat → Int → Int
  | 0, _, _, acc => acc
  | n + 1, k, pow, acc =>
    let t : Int := ((pow / (2 * k + 1) : Nat) : Int)
    atanInv x n (k + 1) (pow / (x * x)) (if k % 2 = 0 then acc + t else acc - t)

/-- π × 2^spBits (Machin's formula), to within a few units. -/
def piFixed : Nat :=
  (16 * atanInv 5 220 0 (2 ^ spBits / 5) 0 - 4 * atanInv 239 80 0 (2 ^ spBits / 239) 0).toNat

/-- The Taylor series Σ ±t^k ÷ k! over every second k, on fixed-point numbers with spBits fraction bits: `sq` is t². -/
def trigSeries (sq : Nat) : Nat → Nat → Nat → Bool → Int → Int
  | 0, _, _, _, acc => acc
  | n + 1, k, term, plus, acc =>
    trigSeries sq n (k + 2) (term * sq / 2 ^ spBits / ((k + 1) * (k + 2))) (!plus)
      (if plus then acc + (term : Int) else acc - (term : Int))

/-- sin t × 2^spBits for 0 ≤ t < 1.6 in fixed point. -/
def sinFixed (t : Nat) : Int := trigSeries (t * t / 2 ^ spBits) 60 1 t true 0
/-- cos t × 2^spBits for 0 ≤ t < 1.6 in fixed point. -/
def cosFixed (t : Nat) : Int := trigSeries (t * t / 2 ^ spBits) 60 0 (2 ^ spBits) true 0

/-- Sine (or cosine) in rn of ±m × 2^e, the argument reduced exactly (R83). -/
def trigVal (f : FFmt) (subn cosine : Bool) (a : FVal) : FRes :=
  match a with
  | .nan _ => nanRes f [a]
  | .inf _ => invalidRes f
  | .fin neg m e =>
    if m = 0 then (if cosine then roundFin f 0 false subn false 1 0 false else ⟨f.zero neg, FFlags.none⟩)
    else if (bitLen m : Int) + e < -64 then
      if cosine then roundFin f 0 false subn false (2 ^ 128 - 1) (-128) true
      else roundFin f 0 false subn neg (m * 2 ^ 64 - 1) (e - 64) true
    else
      -- the quarter turns in the operand: x × 2 ÷ π; e ≥ -149 here and the product is exact enough at spBits + 160 bits
      let num := if 0 ≤ e then m * 2 ^ e.toNat * 2 ^ (spBits + 1) else m * 2 ^ (spBits + 1) / 2 ^ (-e).toNat
      let quarter := num / piFixed
      let t := (num % piFixed) / 2
      let k := (if cosine then quarter + 1 else quarter) % 4
      let v := if k % 2 = 0 then sinFixed t else cosFixed t
      let negative := (if cosine then false else neg) != decide (2 ≤ k)
      roundFin f 0 false subn negative v.natAbs (-(spBits : Int)) true

/-- Convert a value to a format (R38). -/
def toFormat (f : FFmt) (mode : BitVec 3) (sat subn : Bool) (v : FVal) : FRes :=
  match v with
  | .nan _ => nanRes f [v]
  | .inf n => ⟨f.inf n, FFlags.none⟩
  | .fin n m e => if m = 0 then ⟨f.zero n, FFlags.none⟩ else roundFin f mode sat subn n m e false

/-- Round a finite value to an integer in a mode (R38, R88). -/
def toIntegral (mode : BitVec 3) (neg : Bool) (m : Nat) (e : Int) : Int × Bool :=
  let (q, inexact) := roundAt mode neg m e 0 false
  (sInt neg q, inexact)

/-- Convert a value to an integer range, saturating (R38): value and flags. -/
def toInteger (mode : BitVec 3) (lo hi : Int) (v : FVal) : Int × FFlags :=
  match v with
  | .nan _ => (0, FFlags.invalid)
  | .inf n => (if n then lo else hi, FFlags.invalid)
  | .fin n m e =>
    let (q, inexact) := toIntegral mode n m e
    if q < lo then (lo, FFlags.invalid) else if hi < q then (hi, FFlags.invalid)
    else (q, { FFlags.none with nx := inexact })

/-- Round to an integral value in the same format (R88): no NX. -/
def roundIntegral (f : FFmt) (mode : BitVec 3) (subn : Bool) (x : Nat) : FRes :=
  match unpack f subn x with
  | .nan b => nanRes f [.nan b]
  | .inf n => ⟨f.inf n, FFlags.none⟩
  | .fin n m e =>
    let (q, _) := toIntegral mode n m e
    if q = 0 then ⟨f.zero n, FFlags.none⟩ else ⟨(roundFin f 1 true subn n q.natAbs 0 false).bits, FFlags.none⟩

/-- The value of a BX element (R34): BX8 has 6 magnitude bits and bias 132, BX4 has 2 and 128. -/
def bxValue (bx4 : Bool) (e0 e1 : Nat) (x : Nat) : FVal :=
  let mb := if bx4 then 2 else 6
  let m := x % 2 ^ mb
  let ex := if x / 2 ^ mb % 2 = 1 then e1 else e0
  let neg := x / 2 ^ (mb + 1) % 2 == 1
  if ex = 0xff then .nan false else .fin neg m ((ex : Int) - (if bx4 then 128 else 132))

/-- RoundMag of R36: the magnitude of a value in units of 2^(E - B), rounded on the signed value. -/
def roundMag (bx4 : Bool) (mode : BitVec 3) (neg : Bool) (m : Nat) (e : Int) (ex : Nat) : Nat × Bool :=
  roundAt mode neg m e ((ex : Int) - (if bx4 then 128 else 132)) false

end Sys2Proof.Machine
end

