-- ==== Sys2Proof/Config.lean ====
section
/-!
DEFINITION. What no rule of the spec fixes: free values, random numbers and the external standards that the spec
names. Every constant here is opaque, so no proof can lean on a value of it (log entries 2 and 4).
-/

namespace Sys2Proof.Config

/-- A free word: the value of the model's n-th open choice (log entry 2). -/
opaque freeWord : Nat → Word

/-- A free number, for open choices that are not words (log entry 2). -/
opaque freeNat : Nat → Nat

/-- The n-th output of the package's random-number generator, 256 bits (R179, R412; log entry 4). -/
opaque random : Nat → BitVec 256

/-- The leftmost 28 bits of KMAC256 under a key, over the 100 bits of a capability (R179; log entry 4). -/
opaque kmac256 : BitVec 256 → BitVec 100 → BitVec 28

/-- SHAKE256 with 256 bits of output (R405, R410; log entry 4). -/
opaque shake256 : List Byte → BitVec 256

/-- Whether the XMSS signature of an image or command verifies under the fused root key (R405, R415; log entry 4). -/
opaque rootVerifies : List Byte → Bool

/-- The life-cycle state that a verified transition command names (R415; log entry 4). -/
opaque transitionTarget : List Byte → Nat

/-- Whether a verified transition command names the package of a number (R415; log entry 4). -/
opaque transitionNames : List Byte → Nat → Bool

/-- Whether a verified image is a manufacturing image (R415; log entry 4). -/
opaque manufacturing : List Byte → Bool

/-- The XMSS signature under a key at a leaf index (R408, R409; log entry 4). -/
opaque xmssSign : BitVec 256 → Nat → List Byte → List Byte

/-- The public half of an XMSS key (R408; log entry 4). -/
opaque xmssPublic : BitVec 256 → List Byte

/-- AES-256-XTS encryption of a 128-byte line under a key with the line's tweak (R351; log entry 4). -/
opaque xtsEncrypt : BitVec 512 → Nat → List Byte → List Byte

/-- AES-256-XTS decryption of a 128-byte line under a key with the line's tweak (R351; log entry 4). -/
opaque xtsDecrypt : BitVec 512 → Nat → List Byte → List Byte

/-- The hash of a line address and a seed that picks the intermediate router (R267; log entry 4). -/
opaque routeHash : Nat → Nat → Nat

/-- The SUB field of the fault record that an access to a package outside the pod trust table writes (R355, R414; log
entry 2). -/
opaque trustSubcode : Nat

/-- The number of the leaf node to which a Tether port is cabled (R284, R288). -/
opaque leafOf : Bool → Nat

/-- The VA field of the fault record of a PROT fault that no address raises (R205, R218, R337, R355; log entry 49). -/
opaque protVa : Nat

/-- The SUB field of the fault record of a PROT fault that no translation raises (R205, R218, R337, R355; log entry 49). -/
opaque protSubcode : Nat

/-- What a byte of a save area holds that the spec gives no content, by its address (R243, R358; log entry 34). -/
opaque saveFill : Nat → Byte

/-- The SUB field of the fault record of a matrix operation that fails a check other than a translation (R154, R355; log entry
49). -/
opaque matrixSubcode : Nat

/-- CTRL of a packet of another type than ACK and DOWNDRAFT, of the values that it carries (R277; log entry 11). -/
opaque packetCtrl : List Nat → BitVec 64

/-- The integrity tag of the link layer, over the rest of the header and the payload (R277; log entry 4). -/
opaque linkTag : BitVec 384 → List Byte → BitVec 128

/-- The bank of an HBM4 row (R401; log entry 4). -/
opaque rowBank : Nat → Nat

end Sys2Proof.Config
end

