-- ==== Sys2Proof/Machine/State.lean ====
section
/-!
DEFINITION. The state of the machine: one package of the pod, with every engine, store, table and register that the spec
gives it. Everything here is plain data. `State.reset` is the package right after reset.
-/

namespace Sys2Proof.Machine

/-- Why the machine stops. The only stop of the model. -/
inductive Fault where
  /-- Raised by an access whose translation lands in the origin directory, the top 16 MiB of a die's memory, which no
  table entry may map (R344): the spec gives such an access no effect. Safe. -/
  | originDirectory
  deriving DecidableEq, Repr

/-- Why the machine refuses an instruction. -/
inductive Refusal where
  /-- Raised by an arm of `exec` whose instruction has no meaning yet. Safe. -/
  | notModelled (mnemonic : String)
  deriving DecidableEq, Repr

/-! ### Troupes, sequencers and cores -/

/-- An agent that executes words (R63): a troupe, a sequencer of a workgroup, a control core or a firmware core. -/
inductive Agent where
  | troupe (ctx wg t : Nat)
  | matrix (ctx wg : Nat)
  | copy (ctx wg : Nat)
  | control (cluster : Nat)
  | firmware (die : Nat)
  deriving DecidableEq, Repr

/-- The causes of `s_trapcause` (R17). -/
inductive Cause where
  | none | reserved | stack | align | window | page | prot | brk | trap | data
  deriving DecidableEq, Repr

/-- What a sub-group is doing (R99, R108, R110, R126, R433). -/
inductive SubState where
  /-- it issues when its turn comes -/
  | run
  /-- it has arrived at an RCW of a slot and waits -/
  | rcw (slot : Nat)
  /-- it has executed a TRET (`.skip` or plain) and waits for the rest of the handler set -/
  | tret (skip : Bool)
  /-- stopped at a BRK, in the hands of the debug agent: the lowest lane that takes part and the word -/
  | brk (lane : Nat) (word : DWord)
  /-- its word awaits an answer of system software, by fault-record ID; the lowest lane that met the fault -/
  | page (id lane : Nat)
  deriving DecidableEq, Repr

/-- The logged operands of one lane (R128, R215). -/
structure LogLane where
  lane : Nat
  addr : DWord
  a : DWord
  b : DWord
  data : BitVec 128
  /-- an address operand, and a data operand, is marked as a data error (R75) -/
  addrMark : Bool
  dataMark : Bool
  deriving DecidableEq, Repr

/-- One word of the operand log (R128): the word, its lanes, the address at which its sub-group goes on after it, and the words of
its window that are still to issue. -/
structure LogWord where
  word : DWord
  took : LaneMask
  faulted : LaneMask
  lanes : List LogLane
  next : DWord
  left : Nat
  deriving DecidableEq, Repr

/-- A sub-group (R99): its lanes, its program counter, whether it holds the broadcast role, what it is doing, the
logged word that it performs again first (R128), where a YIELD withholds it, the agents of its scheduler and the lanes of its troupe
that have issued since (R109), and whether an RCW has fixed its lanes for its next word (R104). -/
structure Sub where
  mask : LaneMask
  pc : DWord
  bcast : Bool
  st : SubState
  replay : Option LogWord
  yielded : Option (List Agent × LaneMask)
  fixed : Bool
  deriving DecidableEq, Repr

/-- A reconvergence slot (R108). -/
structure Recon where
  target : DWord
  expect : LaneMask
  deriving DecidableEq, Repr

/-- The handler state of a troupe (R433): its handler set and the kind of the TRET already waiting. -/
structure Handler where
  set : LaneMask
  kind : Option Bool
  deriving DecidableEq, Repr

/-- A chunk-map slot (R144). -/
structure ChunkSlot where
  mapoff : BitVec 14
  base : BitVec 11
  expect : BitVec 12
  arrived : BitVec 12
  phase : Bool
  deriving DecidableEq, Repr

/-- A chunk-map slot that is not bound (R8, R144). -/
def ChunkSlot.unbound : ChunkSlot := ⟨0, 0, 0, 0, false⟩

/-- The mode of a phaser handle (R197). -/
inductive PhMode where
  | sig | wait | sigwait | any
  deriving DecidableEq, Repr

/-- A phaser handle (R196): binding, mode, the next phase that the member signals and its first phase. -/
structure PhHandle where
  name : PhName
  mode : PhMode
  sigph : Word
  joined : Word
  deriving DecidableEq, Repr

/-- One write of a result: a per-lane register, a uniform register or a predicate, with its data-error mark (R75); flags that the
word raises when it completes (R73); or the state other than registers that a long-latency word writes (R61). -/
inductive Wr where
  | v (lane n : Nat) (x : Word) (mark : Bool)
  | k (n : Nat) (x : Word) (mark : Bool)
  | p (lane n : Nat) (x : Bool) (mark : Bool)
  | fl (bits : Word)
  | cap (n : Nat) (x : BitVec 128)
  | cm (n : Nat) (x : ChunkSlot)
  | ph (n : Nat) (x : Option PhHandle)
  deriving DecidableEq, Repr

/-- A place that a local access reaches (R20, R21, R346): the own or a cohort scratchpad, a register-window offset, or
memory at an origin physical address. -/
inductive Place where
  | scratch (ctx wg off : Nat)
  | window (off : Nat)
  | mem (pa key : Nat)
  deriving DecidableEq, Repr

/-- An answer from another package that a load or atomic awaits (R277): its tag, the lane, the destination, the place of
the lane's bytes in the answer and the form of the result. -/
structure Await where
  tag : Nat
  lane : Nat
  d : Operand
  off : Nat
  width : Nat
  sx : Bool
  deriving DecidableEq, Repr

/-- Accesses and engine commands that use translations of an older generation (R353): tags of accesses to other packages, started copy
commands by core and number, workgroups with a tile store in the assist, collectives by context, number and member, and how many
accesses of the host are performed once those of them are. -/
structure Older where
  tags : List Nat
  cmds : List (Nat × Nat)
  assists : List (Nat × Nat)
  colls : List (Nat × Nat × Nat)
  hosts : Nat
  deriving DecidableEq, Repr

/-- A read of a cohort member's scratchpad over the Carousel (R20, R270): the tag of its request, and the reply: the bytes, and
which of their 16-byte units are marked. -/
structure Peek where
  tag : Nat
  got : Option (List Byte × Nat)
  deriving DecidableEq, Repr

/-- What a waiting word waits for, with its operand values as read at issue (R118, R147, R149, R166, R168, R169, R174,
R200, R202). -/
inductive Wait where
  /-- FENCE: the tags of the earlier writes to other packages that its release part waits for, and the scope of its acquire part
  (R117) -/
  | fence (tags : List Nat) (acq : Option Scope)
  /-- a signalling word one phase ahead (R200): its handle, D with the lanes that take part, the candidate, the binding, and the
  earlier writes to other packages that its release waits for -/
  | signal (h : Nat) (d : Operand) (act : LaneMask) (cand : Option Cand) (bound : Option (Nat × DWord)) (tags : List Nat)
      (drops : List Wr)
  /-- WADDR: the lanes still to be met with the place and comparand of each, and the read of a cohort member that is on its way -/
  | waddr (width : Nat) (geu : Bool) (acq : Bool) (scope : Scope) (left : List (Nat × Place × DWord × Option Peek))
  | cm (slot : Nat) (first count : Nat) (phase : Bool) (scope : Scope)
  | tl (tl : Nat) (target : DWord) (scope : Scope)
  | bar (b : Nat) (phase : Word)
  | fork (a b : DWord)
  | rdv
  | cwait (scope : Scope)
  | ph (h : Nat) (phase : Word) (scope : Scope)
  | phwin (h : Nat) (phase : Word) (scope : Scope) (d : Operand) (act : LaneMask) (drops : List Wr)
  /-- PGGEN: the new generation, its destination with its mark, and what it waits for (R217, R353) -/
  | gen (x : Word) (d : Operand) (act : LaneMask) (mark : Bool) (older : Older)
  /-- a matrix word that waits for the array to finish earlier operations (R155) or SEQEND (R151) -/
  | seqend
  deriving DecidableEq, Repr

/-- What a long-latency word still owes (R61): results to write, with the answers still awaited and the destinations
that a word of the window has written since, or a wait. -/
inductive Owed where
  | result (ws : List Wr) (await : List Await) (drops : List Wr)
  | wait (w : Wait)
  deriving DecidableEq, Repr

/-- A long-latency word with an open window or an outstanding completion (R61, R360): its lanes, its address, the words
of its window still to issue, whether a word of the window has issued (R429), what it owes, the slots and handles that it has
written as they were before it (R61), its operands while another package has yet to check it (R127, R414), and the word and operands
of a wait that pre-emption may keep (R429). -/
structure Pend where
  lanes : LaneMask
  pc : DWord
  left : Nat
  issued : Bool
  owed : Owed
  olds : List Wr
  check : Option LogWord
  word : Option LogWord
  deriving DecidableEq, Repr

/-- The placement-dependent identity registers of R14. -/
structure Ident where
  troupe : Nat
  wg : Nat
  stage : Nat
  cohort : Nat
  core : Nat
  cluster : Nat
  die : Nat
  pkg : Nat
  deriving DecidableEq, Repr

/-- What issues at most one word in a cycle (R226): one of the four schedulers of a core, or a sequencer, control core or firmware
core by itself. -/
inductive IssuePort where
  | scheduler (core j : Nat)
  | single (a : Agent)
  deriving DecidableEq, Repr

/-- Whether an agent runs, and why not (R63, R67, R109, R151, R219). -/
inductive Status where
  | running
  /-- a sequencer that is idle: never forked, or past its SEQEND (R151, R169) -/
  | idle
  /-- a control or firmware core in HALT -/
  | halted
  /-- a core in HALT.stop, or not yet started, until reset -/
  | stopped
  /-- its last lane has executed EXIT (R109) -/
  | ended
  /-- ended by a trap or fault, with its cause (R65, R126) -/
  | faulted (c : Cause)
  deriving DecidableEq, Repr

/-- One executing agent: a troupe, or a sequencer or core as a single lane. Registers of lane l and number n stand under
key 256 × l + n. -/
structure Thread where
  agent : Agent
  status : Status
  /-- `.regs` of the launch (R9) -/
  nregs : Nat
  v : TMap Word
  vEmpty : TMap Bool
  /-- the marked 16-byte units of registers (R18, R397), under the key of their first register -/
  vMark : TMap Bool
  k : TMap Word
  kMark : TMap Bool
  /-- predicate n as a lane mask, under key n (R8), and the lanes in which it is marked as a data error (R75) -/
  p : TMap LaneMask
  pMark : TMap LaneMask
  caps : TMap (BitVec 128)
  ident : Ident
  stklo : DWord
  stkhi : DWord
  vcnt : Word
  fpmode : Word
  err : Word
  /-- address space of a control or firmware core (log entry 9); a troupe or sequencer uses its context's -/
  asid : Nat
  hdl : DWord
  trapcause : Word
  trappc : DWord
  trapop : Word
  trapd : Word
  trapa : Word
  trapb : Word
  trapf : Word
  slots : TMap Recon
  regGen : BitVec 16
  /-- the sub-group whose turn it is, and the others in rotating order (R103) -/
  grp : Sub
  rest : List Sub
  live : LaneMask
  handler : Option Handler
  log : List LogWord
  pend : List Pend
  /-- tags of this agent's fabric writes that are not yet acknowledged end to end (R117) -/
  fabric : List Nat
  /-- tags of `sc` and acquiring accesses and of atomics at other packages that later accesses wait for (R254, R257), and the scope of the acquire
  that takes effect when they complete -/
  blocked : List Nat
  acq : Option Scope
  /-- the slot of its scheduler that a troupe occupies (R225), and the wait count of that slot (R227) -/
  slot : Nat
  waited : Nat
  /-- it has resumed, and its pending replays issue before its other words (R361) -/
  resumed : Bool
  /-- THE MODEL'S OWN: the words that it has issued (log entry 1) -/
  issues : Nat
  deriving DecidableEq, Repr

/-- An agent as it is created: registers zero and full, one sub-group of its lanes with the broadcast role, at no address
(R8, R99). A sequencer or core is one lane. -/
def Thread.fresh (a : Agent) (st : Status) (lanes : LaneMask) : Thread :=
  { agent := a, status := st, nregs := 256, v := [], vEmpty := [], vMark := [], k := [], kMark := [], p := [], pMark := [], caps := [],
    ident := ⟨0, 0, 0, 0, 0, 0, 0, 0⟩, stklo := 0, stkhi := 0, vcnt := 64, fpmode := 0, err := 0, asid := 0, hdl := 0,
    trapcause := 0, trappc := 0, trapop := 0, trapd := 0, trapa := 0, trapb := 0, trapf := 0, slots := [], regGen := 0,
    grp := ⟨lanes, 0, true, .run, none, none, false⟩, rest := [], live := lanes, handler := none, log := [], pend := [],
    fabric := [], blocked := [], acq := none, slot := 0, waited := 0, resumed := false, issues := 0 }

/-! ### Workgroups -/

/-- A numbered barrier (R163, R167). -/
structure Bar where
  phase : Word
  arrived : BitVec 12
  expect : BitVec 12
  status : Word
  last : Word
  deriving DecidableEq, Repr

/-- A timeline counter (R148, R150): ISSUED, VALUE, the status word, and the tickets above VALUE that have completed. -/
structure Timeline where
  issued : DWord
  value : DWord
  status : Word
  done : List Nat
  deriving DecidableEq, Repr

/-- A landing entry (R193). -/
structure Landing where
  off : BitVec 13
  size : BitVec 8
  gen : BitVec 16
  valid : Bool
  deriving DecidableEq, Repr

/-- A weight plane (R152): the mode it was loaded in, and weight [k][j] under key 64 × k + j: FP32 bits of the exact value
in the float modes, the sign-extended integer under `i8`; and the weights marked as data errors. -/
structure Plane where
  tag : BitVec 3
  w : TMap Word
  mark : TMap Bool
  deriving DecidableEq, Repr

/-- The matrix state of a workgroup (R152): planes, accumulator element [t][i][j] under key 4096 × t + 64 × i + j, the
saturation flags, the elements marked as data errors, MODE, the valid count, the pending status, the columns of cells that have
failed their check during the operation on the array, and the elements whose parity is wrong and that no operation has read yet
(R397). -/
structure Matrix where
  active : Plane
  shadow : Plane
  acc : TMap Word
  accMark : TMap Bool
  sat : BitVec 8
  mode : BitVec 3
  vcount : Nat
  pending : Word
  badCells : List Nat
  badAcc : List Nat
  deriving DecidableEq, Repr

/-- The state of a page of the banked store (R358). -/
inductive PageState where
  | pinned | unpinned | evicted
  deriving DecidableEq, Repr

/-- A tensor record as installed (R135), 512 bits. -/
abbrev TRecord := BitVec 512

/-- A matrix operation with its operands as read at issue (R131, R153). -/
inductive MatKind where
  | ldw (transposed : Bool)
  | ldacc (tile : BitVec 3)
  | swap
  | strm (tile : BitVec 3) (clr : Bool)
  | clr (mask : BitVec 8)
  | macld (tile : BitVec 3)
  | macst (tile : BitVec 3)
  | vcnt (n : Nat)
  | mode (fmt : BitVec 3)
  /-- a BARRIVE of the matrix sequencer, queued behind the operations before it (R162) -/
  | arrive (bar : BitVec 4)
  deriving DecidableEq, Repr

/-- Where an operation on the array stands (R154, R162, R44). -/
inductive MatPhase where
  | queued | started | assist
  /-- its subnormal elements wait until an earlier request of the core has been served (R45) -/
  | assistWait
  /-- its writes to other packages are not yet acknowledged, or it only has to arrive -/
  | acking
  /-- a page of the operation awaits an answer of system software -/
  | page (id : Nat)
  deriving DecidableEq, Repr

/-- An accepted matrix operation (R131): record snapshot, tile index, its barrier, the address of its word, the tags of
its writes to other packages, and the elements that the assist has still to be asked for (R44, R45). -/
structure MatOp where
  kind : MatKind
  handle : TRecord
  index : Word
  bar : Option (BitVec 4)
  phase : MatPhase
  pc : DWord
  remote : List Nat
  left : List (Nat × Nat × Word × Place)
  /-- its place in the order of acceptance (R354), and whether it holds its entries of queue 1: from its acceptance on, and after a resume
  once there is room (R361) -/
  seq : Nat
  paid : Bool
  deriving DecidableEq, Repr

/-- Where the scratchpad side of a tile command lies (R140). -/
inductive Side where
  | scratch (ctx wg off : Nat)
  /-- a landing buffer: token and offset -/
  | land (cap : BitVec 128) (off : Nat)
  deriving DecidableEq, Repr

/-- The kinds of copy command (R138). -/
inductive CopyKind where
  | cpy (width : Nat) (lanes : List (DWord × DWord))
  | tile (sfmt : BitVec 4)
  | notify (sfmt : BitVec 4)
  | reduce (op : BitVec 3)
  | gather (sfmt : BitVec 4) (list : Nat)
  deriving DecidableEq, Repr

/-- Where a copy command stands: queued, started (with its code so far), or held by a page fault. -/
inductive CopyPhase where
  | queued | started | page (id : Nat)
  deriving DecidableEq, Repr

/-- An accepted copy command (R131, R142): issuer, counter and ticket, record snapshot, descriptor, what is left of its
chunk arrivals, and its status so far. -/
structure CopyCmd where
  /-- names the command within its core -/
  id : Nat
  issuer : Agent
  tl : Nat
  ticket : Nat
  kind : CopyKind
  out : Bool
  handle : TRecord
  desc : BitVec 128
  token : BitVec 128
  vcount : Nat
  entries : Nat
  phase : CopyPhase
  code : Nat
  /-- the SAT, DATA and STALE bits of R150 -/
  sat : Bool
  data : Bool
  stale : Bool
  /-- the code comes from the checks of a landing token (R194) -/
  byToken : Bool
  /-- chunk arrivals still to count: workgroup, map offset, chunk -/
  chunks : List (Nat × Nat × Nat × Nat)
  /-- the notify word to write on completion: context, workgroup, offset and value (R142) -/
  notify : Option (Nat × Nat × Nat × Word)
  /-- tags of writes to other packages or to a cohort member that are not yet acknowledged -/
  remote : List Nat
  /-- its reads of a cohort member's scratchpad: the place, the bytes and the reply (R140, R270) -/
  reads : List (Place × Nat × Peek)
  /-- its place in the order of acceptance (R354) -/
  seq : Nat
  deriving DecidableEq, Repr

/-- A line of a workgroup's L1 (R428): origin address of the line, its 128 bytes as one number,
its marks, its hint and the slot of the troupe that touched it last (R230). -/
structure CacheLine where
  addr : Nat
  key : Nat
  bytes : Nat
  marks : Nat
  hint : Hint
  toucher : Nat
  deriving DecidableEq, Repr

/-- A request for a line that is to fill L1 (R115, R428): its tag, the line's address, the key index, the hint and the slot of the
troupe that asked. -/
structure L1Fill where
  tag : Nat
  addr : Nat
  key : Nat
  hint : Hint
  toucher : Nat
  deriving DecidableEq, Repr

/-- What a write does to memory: runs of bytes with their places, the 16-byte units that it marks as data errors, and those whose mark it
clears (R398). -/
structure MemWrite where
  runs : List (Nat × List Byte)
  marks : List Nat
  clears : List Nat
  deriving DecidableEq, Repr

/-- A store toward another package to a line that the L1 of its workgroup holds (R113, R250, R428): the tag of its WRITE, the agent and lane,
the address, the key index and what it writes. Until it has been performed, its lane alone sees it. -/
structure L1Own where
  tag : Nat
  agent : Agent
  lane : Nat
  addr : Nat
  key : Nat
  write : MemWrite
  deriving DecidableEq, Repr

/-- A workgroup (R18, R223): its own state and what its engines hold. -/
structure Workgroup where
  ctx : Nat
  wgl : Nat
  stage : Nat
  cohort : Nat
  /-- the core that holds it; none before placement and while swapped out -/
  core : Option Nat
  placed : Bool
  ended : Bool
  troupes : Nat
  nregs : Nat
  scratchSize : Nat
  scratch : TMap Byte
  /-- 16-byte units of the scratchpad marked as a data error, by offset ÷ 16 (R397) -/
  scratchMark : TMap Bool
  bars : TMap Bar
  tls : TMap Timeline
  cms : TMap ChunkSlot
  lands : TMap Landing
  phs : List (Nat × PhHandle)
  matrix : Matrix
  /-- accepted matrix operations in issue order, those on the array included -/
  mq : List MatOp
  /-- the workgroup has owned an array, so its matrix save area is valid (R234) -/
  ownedArray : Bool
  /-- FORK words that wait for an idle sequencer, oldest first: troupe and lowest lane (R168) -/
  forkq : List (Nat × Nat)
  l1pg : Nat
  /-- L1 lines, most recently used first (R428) -/
  l1 : List CacheLine
  /-- lines of other packages that are to fill L1 when their answers come (R115, R428) -/
  l1Due : List L1Fill
  /-- its stores toward other packages that L1 still has to take (R250, R428) -/
  l1Own : List L1Own
  pages : TMap PageState
  /-- when each page was pinned last since the workgroup was placed, and when it was placed (R358) -/
  pinTimes : List (Nat × Nat)
  pinBase : Nat
  /-- troupes that have issued a CWAIT or ended, for the start credit of R339; the credit is spent -/
  credited : LaneMask
  credit : Bool
  /-- pre-emption or the end of its context has stopped its issue (R359, R362) -/
  stopping : Bool
  /-- commands that were accepted and not started when it was pre-empted (R243) -/
  saved : List CopyCmd
  /-- the core whose frames hold its unpinned pages, and the pre-emptions before its own (R358, R329) -/
  frames : Option Nat
  outOrder : Nat
  /-- its troupes that have ended (R109, R331) -/
  gone : LaneMask
  deriving DecidableEq, Repr

/-- A plane at launch start: all +0, tagged `bf16` (R152). -/
def Plane.fresh : Plane := ⟨0, [], []⟩

/-- The matrix state at launch start (R152). -/
def Matrix.fresh : Matrix := ⟨Plane.fresh, Plane.fresh, [], [], 0, 0, 64, 0, [], []⟩

/-- No workgroup: what `State.wg` holds beside a control core or a firmware core. -/
def Workgroup.none : Workgroup :=
  { ctx := 0, wgl := 0, stage := 0, cohort := 0, core := Option.none, placed := false, ended := false, troupes := 0, nregs := 0,
    scratchSize := 0, scratch := [], scratchMark := [], bars := [], tls := [], cms := [], lands := [], phs := [],
    matrix := Matrix.fresh, mq := [], ownedArray := false, forkq := [], l1pg := 0, l1 := [], l1Due := [], l1Own := [], pages := [], pinTimes := [], pinBase := 0, credited := 0, credit := false,
    stopping := false, saved := [], frames := Option.none, outOrder := 0, gone := 0 }

/-! ### Sends -/

/-- Where a delivery of an RWR is (R186-R188, R238, R243, R265, R270): at its word, which stalls for its entries of queue 0, in the save
area of its swapped-out sender, on a Carousel, in the forwarding queue of a slice, in queue 2 of the target core, on the fabric, or
answered with a code. -/
inductive DeliveryPhase where
  | source | saved | ring | slice
  | inbound (core : Nat)
  | fabric
  | answered (code : Nat)
  deriving DecidableEq, Repr

/-- Where a delivery comes from (R185, R186): an RWR of an agent on a core with its counter and ticket, or a REGWR packet of another
package. -/
inductive Sender where
  | word (a : Agent) (core tl ticket : Nat)
  | packet (p : Packet)
  deriving DecidableEq, Repr

/-- A delivery of an RWR (R186): its number, where it comes from, capability, word offset, registers per lane, lanes, the words that it
carries with their marks, the order and scope, whether it came by the Carousel, and where it is. -/
structure Delivery where
  id : Nat
  sender : Sender
  cap : BitVec 128
  off : Nat
  k : Nat
  lanes : LaneMask
  vals : List (Word × Bool)
  rel : Bool
  scope : Scope
  byRing : Bool
  phase : DeliveryPhase
  deriving DecidableEq, Repr

/-! ### The fabric and the on-chip paths -/

/-- A packet of an outgoing stream (R392): the packet, the port of its last copy, none while it waits to be sent, the plane of its last
copy once it is in the source retry buffer, and the destinations to which a replay of a multicast has still to send a unicast copy (R393). -/
structure Sent where
  pkt : Packet
  port : Option Nat
  last : Option Nat
  to_ : List Nat
  deriving DecidableEq, Repr

/-- An outgoing stream (R278, R388, R390, R393): the next SEQ, the unretired packets in SEQ order, the acknowledged point, the
SEQs of ATOM and REGWR packets that are not answered, the RETIRE point once there is one and whether it is still to be reported, whether
the next packet carries NEWEPOCH, and the acknowledged point of each destination of a multicast group. -/
structure Flow where
  next : BitVec 16
  unretired : List Sent
  acked : BitVec 16
  unanswered : List (BitVec 16)
  retire : Option (BitVec 16)
  retireDue : Bool
  newEpoch : Bool
  acks : TMap (BitVec 16)
  deriving DecidableEq, Repr

/-- An incoming stream (R389, R390, R392): E, the held early packets, the response cache by SEQ mod 1,024, the retired
point, and the TAG of the NEWEPOCH packet that began it. -/
structure Inflow where
  expect : BitVec 16
  held : List Packet
  cache : TMap Packet
  retired : BitVec 16
  anyRetired : Bool
  epoch : Option Nat
  deriving DecidableEq, Repr

/-- The states of a port (R382). -/
inductive PortState where
  | off | train | up | failed
  deriving DecidableEq, Repr

/-- A flit in a link retry buffer (R386): its packet and its place in it, 0 for the header. -/
structure Flit where
  pkt : Packet
  idx : Nat
  deriving DecidableEq, Repr

/-- A port (R382-R387, R396): PORTCTL, PORTSTAT and PORTERR, whether a width that PWIDTH asks for is still to be taken, the lanes that the
last training found usable, the retired lanes, the link retry buffer, the failures in a row of its first flit, and whether a replay of a
failed flit has been asked for. -/
structure Port where
  en : Bool
  pwidth : BitVec 2
  lmask : BitVec 4
  st : PortState
  active : BitVec 4
  tries : Nat
  mismatch : Bool
  lreplay : Nat
  retrain : Nat
  forced : Nat
  planned : Bool
  lanes : BitVec 4
  retiredLanes : BitVec 4
  flits : List Flit
  fails : Nat
  asked : Bool
  deriving DecidableEq, Repr

/-- The end-to-end layer of the package (R277-R283, R388-R396). -/
structure Fabric where
  /-- outgoing streams by (destination, class, multicast group) -/
  flows : List ((Nat × Nat × Nat) × Flow)
  /-- incoming streams by (source, class, multicast group) -/
  inflows : List ((Nat × Nat × Nat) × Inflow)
  /-- rate of each destination, 64 where unlisted, and the destinations with a notice in this interval (R280) -/
  rates : TMap Nat
  noticed : TMap Bool
  rateCfg : Word
  e2ecfg : Word
  replays : Nat
  closed : Nat
  outside : Nat
  linkErrors : Nat
  ports : TMap Port
  /-- planes removed toward a destination after a timeout (R392) -/
  excluded : List (Nat × Nat)
  /-- members of the multicast groups that the Ringmaster has installed (R282) -/
  groups : TMap (List Nat)
  /-- streams (source, class, group) whose ACK waits for a plane (R391) -/
  acksDue : List (Nat × Nat × Nat)
  /-- the next source tag (R277) -/
  nextTag : Nat
  /-- requests of other packages that went on to a unit's new home under a tag of this package (R363) -/
  relayed : List (Nat × Packet)
  deriving DecidableEq, Repr

/-- The buffer that holds the head of a Carousel packet (R272, R273). -/
inductive CarBuffer where
  | source | pool | escape
  deriving DecidableEq, Repr

/-- What a cohort access does at the bank (R20, R125, R141): it reads, writes, performs an atomic with its operation, width and operands,
or combines the elements of a CPYR. -/
inductive CohortOp where
  | read (n : Nat)
  | write (data : List Byte) (mark : Bool)
  | atomic (op width b expected : Nat) (mark : Bool)
  | combine (op fmt : Nat) (data : List Byte) (mark : Bool)
  deriving DecidableEq, Repr

/-- A cohort access on its way (R270): its tag, the scratchpad and offset, and what it does there. -/
structure CohortReq where
  tag : Nat
  ctx : Nat
  wgl : Nat
  off : Nat
  op : CohortOp
  deriving DecidableEq, Repr

/-- What a Carousel carries (R270): a delivery or its answer, by the delivery's number; a cohort request; or a reply with its bytes, which
of their 16-byte units are marked, and SAT. -/
inductive CarLoad where
  | delivery (id : Nat)
  | answer (id : Nat)
  | request (r : CohortReq)
  | reply (tag : Nat) (data : List Byte) (marks : Nat) (sat : Bool)
  deriving DecidableEq, Repr

/-- The flits of a packet in a buffer of a stop behind its head (R272, R273). -/
structure CarSpot where
  stop : Nat
  buf : CarBuffer
  vc1 : Bool
  flits : Nat
  deriving DecidableEq, Repr

/-- A packet on a Carousel (R269-R275): its number, what it carries, its stops, its direction, channel, length, the buffer of its head, its
sequence number for its pair of stops once it has left its source, and, at the stop of a cohort request's target, the rows that have
still to be granted to it and what each one granted has brought, with its mark (R430); the flits in the buffer of its head, and those
behind it, nearest first: the rest has not left the source. -/
structure CarPacket where
  id : Nat
  load : CarLoad
  src : Nat
  dst : Nat
  cur : Nat
  clockwise : Bool
  vc1 : Bool
  len : Nat
  buf : CarBuffer
  seq : BitVec 6
  rows : List Nat
  got : List (Nat × List Byte × Bool)
  sat : Bool
  here : Nat
  trail : List CarSpot
  deriving DecidableEq, Repr

/-- A stop of a Carousel (R272, R276): flits in use of its two pools and of the four escape halves (key 2 × direction +
channel), and CARSTAT's counters. -/
structure CarStop where
  usedCw : Nat
  usedCcw : Nat
  escape : TMap Nat
  escuse : Nat
  dlcross : Nat
  deriving DecidableEq, Repr

/-- The Carousel of a cluster (R269-R276). -/
structure Carousel where
  rdir : BitVec 2
  refused : Bool
  stops : TMap CarStop
  packets : List CarPacket
  /-- next sequence number to send and next to perform of each pair, by 8 × source + target -/
  nextSeq : TMap (BitVec 6)
  nextDo : TMap (BitVec 6)
  deriving DecidableEq, Repr

/-- A stop with nothing in it (R272, R276). -/
def CarStop.fresh : CarStop := ⟨0, 0, [], 0, 0⟩

/-- A Carousel at reset (R276). -/
def Carousel.fresh : Carousel := ⟨0, false, [], [], [], []⟩

/-- The routing of a die's butterflies (R267, R268): NOCCFG, the mode, the last imbalance, the switches counted, the
windows below LEAVE, the mode that a pending switch waits to take, and the seed. -/
structure Noc where
  cfg : Word
  twoPhase : Bool
  imb : Nat
  switches : Nat
  below : Nat
  pending : Option Bool
  seed : Nat
  deriving DecidableEq, Repr

/-- The routing of a die at reset (R267, R268). -/
def Noc.fresh : Noc := ⟨BitVec.ofNat 32 (32 + 20 * 2 ^ 8 + 4 * 2 ^ 16), false, 0, 0, 0, none, 0⟩

/-! ### The Tether -/

/-- What one child of a root contributes (R291): signals and expected signals of the phases C and C + 1, and the members
expected from C + 2 on. -/
structure Kid where
  n0 : Nat
  e0 : Nat
  n1 : Nat
  e1 : Nat
  later : Nat
  deriving DecidableEq, Repr

/-- What waits at a root for its next node cycle (R292): a signal or candidate of this package, the totals of another child for the
phases `c` and `c + 1` with its candidates and the leaf node that they came by, the registration of a package, that of a member of this one
(context, workgroup, handle), a drop with the member's SIGPH, or a PHTIME. -/
inductive PhArrival where
  | signal (phase : Word) (cand : Option Cand)
  | totals (child leaf : Nat) (c : Word) (k : Kid) (cand0 cand1 : Option Cand)
  | join (child : Nat)
  | register (member : Nat × Nat × Nat) (signals : Bool)
  | drop (sigph : Word)
  | time (a : DWord) (window : Nat)
  deriving DecidableEq, Repr

/-- A release of a phase (R294, R298): base time, window, LATE and the record; `timed` when a PHTIME applied, `skewed` when this
package's subtree was degraded as the phase completed (R300). -/
structure PhRelease where
  phase : Word
  base : Nat
  window : Nat
  late : Bool
  timed : Bool
  found : Bool
  win : Cand
  skewed : Bool
  deriving DecidableEq, Repr

/-- The root of a phaser (R288, R291, R292): its kind and ROOT as first registered, the spine node in use, C, what each child
contributes (by package; the own package for a package phaser), plus 1 the leaf node by which its totals came (R288), the candidates of the two open phases, PHTIME, arrivals with the
pod time at which each reached its package node, releases that have not reached this package, the record of the latest completed
phase, and, while a standby root rebuilds, the packages whose reports it awaits and whether one has come; and the first phases of members
that it has registered in this cycle (R198). -/
structure PhRoot where
  anyOf : Bool
  rootIx : Nat
  spine : Nat
  c : Word
  kids : TMap Kid
  paths : TMap Nat
  cand0 : Option Cand
  cand1 : Option Cand
  time : Option (DWord × Nat)
  inbox : List (Nat × PhArrival)
  unsent : List PhRelease
  found : Bool
  win : Cand
  lost : List Nat
  heard : Bool
  answers : List ((Nat × Nat × Nat) × Word)
  deriving DecidableEq, Repr

/-- A phaser at the package node (R288, R289, R298): PHDESC, the members bound here, this package's totals for the phases `seen` and
`seen + 1`, the candidates that it has forwarded and not seen answered, C as received and the latest phase released to waiters plus
1, LATE, SKEW and the record of that phase, and the releases that wait for their time with that time and their SKEW. -/
structure PhNode where
  anyOf : Bool
  ctx : Nat
  maxmem : Nat
  rootIx : Nat
  members : Nat
  own : Kid
  fwd : List (Word × Cand)
  seen : Word
  released : Word
  late : Bool
  skew : Bool
  found : Bool
  win : Cand
  pending : List (PhRelease × Nat × Bool)
  deriving DecidableEq, Repr

/-- A signal that a die node holds (R295): its die, the member (context, workgroup, handle), the phaser, what it will send, the
counter and target of a bound signal, and the fabric writes that it waits for. -/
structure Held where
  die : Nat
  member : Nat × Nat × Nat
  name : PhName
  what : PhArrival
  bound : Option (Nat × DWord)
  tags : List Nat
  deriving DecidableEq, Repr

/-- A PHREG on its way to its root and back (R198, R285): the agent, the member (context, workgroup, handle), the phaser and the mode, and
the first phase when the root has answered. -/
structure Joining where
  agent : Agent
  member : Nat × Nat × Nat
  name : PhName
  mode : PhMode
  first : Option Word
  deriving DecidableEq, Repr

/-- KIND, CTX, MAXMEM and ROOT of a PHDESC (R289). -/
structure PhDesc where
  anyOf : Bool
  ctx : Nat
  maxmem : Nat
  rootIx : Nat
  deriving DecidableEq, Repr

/-- PHDESC at reset (R289). -/
def PhDesc.reset : PhDesc := ⟨false, 0, 12288, 0⟩

/-- The Tether of the package and the roots of its phasers (R284-R300): TETHCFG, TETHSTAT, the time lock, whether a node above is
degraded by its parent, a count that is ahead and what is left to slew, PHSEL, PHDESC's REFUSED, the fields of a PHDESC whose VALID
is 0, the phasers, held signals, and registrations on their way. -/
structure Tether where
  active : Bool
  autofail : Bool
  pos : Nat
  up0 : Bool
  up1 : Bool
  locked : Bool
  skb : Nat
  failovers : Nat
  rootfails : Nat
  above : Bool
  ahead : Nat
  slew : Int
  phsel : Word
  refused : Bool
  descs : List (PhName × PhDesc)
  nodes : List (PhName × PhNode)
  roots : List (PhName × PhRoot)
  held : List Held
  joining : List Joining
  deriving DecidableEq, Repr

/-- The Tether at reset (R297). -/
def Tether.reset : Tether :=
  { active := false, autofail := true, pos := 0, up0 := false, up1 := false, locked := false, skb := 4095, failovers := 0,
    rootfails := 0, above := false, ahead := 0, slew := 0, phsel := 0, refused := false, descs := [], nodes := [], roots := [], held := [], joining := [] }

/-! ### Collectives -/

/-- The exchanges of R368, with the axes and dimensions that they use. -/
inductive Exchange where
  | reduceScatter (a d : Nat)
  | allReduce (a : Nat)
  | allGather (a d : Nat)
  | allToAll (a d1 d2 : Nat)
  | permute (a b : Nat)
  | localCopy
  deriving DecidableEq, Repr

/-- What a member tells the others without bytes: it has started (R376), its destination is written (R208), it is DONE (R377). -/
inductive CollNews where
  | begun | written | done
  deriving DecidableEq, Repr

/-- A message of a collective (R369): the members it comes from and goes to, the segment, the 256-byte block of the destination,
whether it carries a partial result, the re-stitches before it, and its bytes with their data-error marks. Without bytes or news it is
still to be read at its source. `gen` counts the uses of its number (R377). -/
structure CollMsg where
  ctx : Nat
  num : Nat
  from_ : Nat
  to_ : Nat
  seg : Nat
  blk : Nat
  part : Bool
  epoch : Nat
  bytes : List Byte
  marks : List Bool
  news : Option CollNews
  gen : BitVec 16
  deriving DecidableEq, Repr

/-- Where a collective of a member is (R208, R373, R375). -/
inductive CollPhase where
  | accepted | running
  /-- its own access was refused: it contributes nothing and waits for the re-stitch around it -/
  | failed
  | done
  /-- a page of its source or destination awaits an answer of system software -/
  | page (id : Nat)
  deriving DecidableEq, Repr

/-- A collective at one member of this package (R208, R366-R377): issuer, ticket, records, OP and number as read at issue; then
the exchange, the members as package and WGL, the own member number, and the own position in the ring group. -/
structure Coll where
  ctx : Nat
  num : Nat
  issuer : Agent
  tl : Nat
  ticket : Nat
  core : Nat
  src : TRecord
  dst : TRecord
  op : Nat
  /-- bits [15:11] of the descriptor's first word -/
  zero : Nat
  meshAddr : DWord
  timeout : Nat
  phase : CollPhase
  exch : Exchange
  local_ : Nat
  members : List (Nat × Nat)
  me : Nat
  pos : Nat
  /-- the members of the ring group by position, and the positions that are still in the ring -/
  group : List Nat
  ring : List Nat
  epoch : Nat
  q : Nat
  /-- segments and blocks that have been written -/
  got : List (Nat × Nat)
  /-- tags of writes to other packages that are not acknowledged -/
  remote : List Nat
  /-- its own part is complete and the other survivors have been told, and the survivors that have told it (R208) -/
  told : Bool
  fins : List Nat
  code : Nat
  data : Bool
  sat : Bool
  /-- ORDER_CHANGED and RESTITCHED of COLLST (R209) -/
  order : Bool
  restitched : Bool
  /-- its place in the order of acceptance (R354), and whether it holds its entries of queue 0, as for a matrix operation -/
  seq : Nat
  paid : Bool
  /-- the use of its number, and the members that have told it that they have started and that they are DONE (R376, R377) -/
  gen : BitVec 16
  begun : List Nat
  dones : List Nat
  /-- pod times of its COLL, and of the last message that it took in its ring or of the last re-stitch (R373) -/
  issued : Nat
  since : Nat
  deriving DecidableEq, Repr

/-! ### Contexts -/

/-- A dispenser slice set (R333, R335): the coordinates left in each die's slice, in increasing order. -/
structure Dispenser where
  configured : Bool
  nosteal : Bool
  slices : List (Nat × List Nat)
  undrawn : Nat
  deriving DecidableEq, Repr

/-- A work list at its home (R337): the records taken so far, whose number gives the place of the oldest one in the ring, and the
records that it holds, oldest first, each as 32 bytes in one number. -/
structure WorkList where
  taken : Nat
  recs : List Nat
  deriving DecidableEq, Repr

/-- The first fault of a launch (R332). -/
structure FaultInfo where
  cause : Nat
  wg : Nat
  troupe : Nat
  pc : DWord
  deriving DecidableEq, Repr

/-- A context: one launch and what the device keeps for it (R324-R341). -/
structure Context where
  ctx : Nat
  live : Bool
  asid : Nat
  queue : Nat
  dynamic : Bool
  stages : Nat
  troupes : Nat
  regs : Nat
  uregs : Nat
  scratch : Nat
  l1pg : Nat
  stack : Nat
  nopre : Bool
  prio : Nat
  code : DWord
  cores : BitVec 192
  uregp : DWord
  ttab : DWord
  stkbase : DWord
  nlist : Nat
  lcaplog : Nat
  wlbase : DWord
  pcurt : Nat
  cen : Bool
  doneaddr : DWord
  doneval : DWord
  /-- the number of workgroups W (R327) -/
  wcount : Nat
  key : BitVec 256
  handles : TMap TRecord
  /-- error queue, oldest first, and the entries lost before the next one (R216) -/
  errq : List DWord
  /-- the entries that the error queue has taken so far, which is where the next one stands in the save area (R216, R358) -/
  errCount : Nat
  errOvf : Bool
  disps : TMap Dispenser
  /-- work lists (R337): what each list's home keeps of it -/
  lists : TMap WorkList
  /-- parent records that wait for room in a list (R173) -/
  parents : List (Nat × Nat)
  /-- tags of WDONE steps at join objects of other packages -/
  joins : List Nat
  /-- the Curtain's count O (R339) -/
  open_ : Nat
  /-- the Curtain has reported the context quiescent -/
  quiet : Bool
  /-- the package has signalled phase 0 of PCURT (R340) -/
  podQuiet : Bool
  fault : Option FaultInfo
  endedBySystem : Bool
  /-- phasers that PHREQ created (R331) -/
  phreqs : List PhName
  /-- launches of the package that started before it (R329) -/
  order : Nat
  /-- the code region, first and one past its last virtual address, and the measurement (R410) -/
  codeLo : Nat
  codeHi : Nat
  /-- the 64 KiB units of memory that hold the code region, by number (R410) -/
  codeUnits : List Nat
  mctx : BitVec 256
  /-- workgroups not yet placed, with their core, cohort and stage (R327, R330) -/
  toPlace : List (Nat × Nat × Nat × Nat)
  /-- cohorts that pre-emption is stopping (R359), and whether CTXCTL or a disabled core ends the launch (R342, R362) -/
  preempting : List Nat
  ending : Bool
  /-- the completion record has been sent, or awaits an answer, by fault-record ID (R325, R331) -/
  doneWait : Option Nat
  declined : Bool
  deriving DecidableEq, Repr


/-- No context. -/
def Context.none : Context :=
  { ctx := 0, live := false, asid := 0, queue := 0, dynamic := false, stages := 1, troupes := 0, regs := 0, uregs := 0,
    scratch := 0, l1pg := 0, stack := 0, nopre := false, prio := 0, code := 0, cores := 0, uregp := 0, ttab := 0, stkbase := 0,
    nlist := 0, lcaplog := 0, wlbase := 0, pcurt := 0, cen := false, doneaddr := 0, doneval := 0, wcount := 0, key := 0,
    handles := [], errq := [], errCount := 0, errOvf := false, disps := [], lists := [], parents := [], joins := [], open_ := 0, quiet := false, podQuiet := false,
    fault := Option.none, endedBySystem := false, phreqs := [], order := 0,
    codeLo := 0, codeHi := 0, codeUnits := [], mctx := 0, toPlace := [], preempting := [], ending := false, doneWait := Option.none, declined := false }

/-! ### Cores, clusters and translation -/

/-- A TLB entry (R348, R353): address space and generation, the page of virtual addresses, the origin address it maps,
and the leaf's R, W, X, PRIV, D and KEY. -/
structure TlbEntry where
  asid : Nat
  gen : Nat
  va : Nat
  size : Nat
  pa : Nat
  r : Bool
  w : Bool
  x : Bool
  priv : Bool
  d : Bool
  key : Nat
  deriving DecidableEq, Repr

/-- A pointer entry in a walk cache (R347): the address space and generation of the walk that read it, its address and its value. -/
structure WalkEntry where
  asid : Nat
  gen : Nat
  addr : Nat
  value : Nat
  deriving DecidableEq, Repr

/-- One queue of the pool (R238-R241): MIN, CAP, REFUSED, COUNT and PEAK. -/
structure PoolQueue where
  min : Nat
  cap : Nat
  refused : Bool
  count : Nat
  peak : Nat
  deriving DecidableEq, Repr

/-- The locality throttle of a core (R230-R233), by troupe slot: 16 × scheduler + slot of the scheduler (R225). -/
structure Throttle where
  cfg : Word
  m : Nat
  sum : Nat
  grants : Nat
  /-- score of each resident troupe -/
  scores : List (Nat × Nat)
  /-- victim tags, newest first: line and last toucher -/
  victims : List (Nat × Nat)
  /-- consecutive epochs in which a troupe was refused a memory word, and whether it was refused in this one -/
  refusals : List (Nat × (Nat × Bool))
  /-- the resident troupes outside the allowed set, as fixed at the last epoch end, and those placed since then for which it had no
  room -/
  barred : List Nat
  deriving DecidableEq, Repr

/-- Who stalls on a pool queue (R238): the word of a sub-group, by its agent, its lowest lane when it stalled and its address, or an
arriving delivery. -/
inductive Producer where
  | word (a : Agent) (lane : Nat) (pc : DWord)
  | delivery (id : Nat)
  deriving DecidableEq, Repr

/-- What the device keeps for one core (R230-R241, R353, R365). -/
structure CoreSt where
  disabled : Bool
  owner : Option (Nat × Nat)
  /-- the last owner of the array, from which its waiters rotate (R234) -/
  lastOwner : Option (Nat × Nat)
  waiters : List (Nat × Nat)
  copyq : List CopyCmd
  /-- the next command's name -/
  nextCopy : Nat
  /-- the issuer whose command the block-transfer engine started last (R235) -/
  lastIssuer : Option Agent
  pool : List PoolQueue
  /-- producers that stall on the pool, oldest first, by queue (R238) -/
  stalled : List (Nat × Producer)
  throttle : Throttle
  migPinned : Nat
  migHeld : Nat
  /-- the work-list cache (R172, R237): entries of up to two records, each with its context and list -/
  wcache : List (List (Nat × Nat × Nat))
  /-- the slot that issued last on each of the four schedulers (R226), 15 where none has -/
  lastSlot : TMap Nat
  deriving DecidableEq, Repr

/-- A throttle at reset (R230, R232, R233). -/
def Throttle.fresh : Throttle :=
  { cfg := BitVec.ofNat 32 (512 + 2 * 2 ^ 16 + 4 * 2 ^ 22 + 2 ^ 28 + 2 ^ 31), m := 64, sum := 0, grants := 0, scores := [],
    victims := [], refusals := [], barred := [] }

/-- A core at reset (R230-R241, R365). -/
def CoreSt.fresh : CoreSt :=
  { disabled := false, owner := none, lastOwner := none, waiters := [], copyq := [], nextCopy := 0, lastIssuer := none,
    pool := [⟨256, 1024, false, 0, 0⟩, ⟨128, 512, false, 0, 0⟩, ⟨256, 1024, false, 0, 0⟩, ⟨256, 1024, false, 0, 0⟩],
    stalled := [], throttle := Throttle.fresh, migPinned := 0, migHeld := 0, wcache := [], lastSlot := [] }

/-- A request for the subnormal assist (R44, R218): the requesting core and workgroup, the destination format code, the
recorded elements (row, column, accumulator bits and place), whether the control core has taken it, and the cycle of its arrival (R45). -/
structure Assist where
  core : Nat
  ctx : Nat
  wg : Nat
  fmt : Nat
  elems : List (Nat × Nat × Word × Place)
  taken : Bool
  since : Nat
  deriving DecidableEq, Repr

/-- TCMP of a control core or firmware core, and whether its event is pending (R220). -/
structure CoreTimer where
  tcmp : DWord
  timer : Bool
  deriving DecidableEq, Repr

/-- A fault record that awaits its answer (R355, R356): its ID, what waits, the engine command's place, and an answer (true:
declined) that takes effect when the workgroup has resumed. -/
structure FaultWait where
  id : Nat
  va : Nat
  agent : Nat
  ctx : Nat
  wgl : Nat
  core : Nat
  kind : Access
  answer : Option Bool
  deriving DecidableEq, Repr

/-- Translation, save areas, faults and page homes of the package (R352, R355-R357, R363-R365). -/
structure Trans where
  astbase : DWord
  astlen : Word
  savebase : DWord
  savecnt : Word
  pfqbase : DWord
  pfqhead : Word
  pfqtail : Word
  /-- the next record's ID and whether PROT records were dropped before it -/
  nextId : Nat
  pfqOvf : Bool
  waits : List FaultWait
  migcfg : DWord
  moves : Nat
  pins : Nat
  noframe : Nat
  /-- free frames of each die's pool -/
  frames : TMap (List Nat)
  /-- home package × 4 + die + 1 of each unit whose home is not its origin (0: at its origin) -/
  homes : TMap Nat
  /-- frame of each unit that has moved, plus 1; 0: the origin frame, or a frame of another package -/
  unitFrame : TMap Nat
  pinned : TMap Bool
  /-- completion times (ns) of the last three moves of each unit, newest first, each with the core that asked most, plus 1 (0:
  none of this package); and the end of its thrash hold -/
  moveTimes : TMap (List (Nat × Nat))
  hold : TMap Nat
  /-- requests of this epoch per unit: requester package × 4 + die and count, most recent first -/
  counts : TMap (List (Nat × Nat))
  /-- the cores of this package whose requests of this epoch each unit has had: core and count (R365) -/
  askers : TMap (List (Nat × Nat))
  /-- moves decided and not yet made: unit, new home, the frame taken for it, plus 1, and the core that asked most, plus 1 -/
  moving : List (Nat × Nat × Nat × Nat)
  /-- how many commands the walk-ahead engines have been handed (R354) -/
  handed : Nat
  deriving DecidableEq, Repr

/-- A write still to be applied in a die view (R258): its key index, what it does, its home and its stamp. -/
structure DieUpdate where
  key : Nat
  write : MemWrite
  home : Nat
  stamp : List Nat
  deriving DecidableEq, Repr

/-- The die view of a die (R255, R258): its RDC lines, the updates it still has to apply, oldest first, and its vector
clock. -/
structure DieView where
  rdc : List CacheLine
  updates : List DieUpdate
  clock : List Nat
  deriving DecidableEq, Repr

/-- A die view at reset: no lines, no updates, a clock of zeros (R255). -/
def DieView.fresh : DieView := ⟨[], [], [0, 0, 0, 0]⟩

/-! ### Command queues -/

/-- Where the command at the head of a queue stands (R322, R326): fetched and waiting, waiting for the answer to a fault record,
declined, a launch whose first workgroup is still to be placed, or a SIGNAL whose write another package must acknowledge. -/
inductive CmdPhase where
  | fetched
  | page (id : Nat)
  | declined
  | measuring (far : List (Nat × List Byte))
  | placing
  | sent (tag : Nat)
  deriving DecidableEq, Repr

/-- A command queue (R321): its registers, the ASIDs that system software has granted to it (R325 check 8), the command at its head
with its 2,048 bits, and whether the halted command is the one at HEAD. -/
structure Queue where
  base : DWord
  cfg : Word
  tail : Word
  head : Word
  halted : Bool
  err : Nat
  grants : List Nat
  cmd : Option (Nat × CmdPhase)
  bad : Bool
  deriving DecidableEq, Repr

/-- A command queue at reset (R321). -/
def Queue.fresh : Queue := ⟨0, 4, 0, 0, false, 0, [], none, false⟩

/-! ### Faults, repairs, trust and power -/

/-- The fault counting, repair store and fault log (R399-R404): RASLIM0-3, RASBASE, RASHEAD, RASTAIL, dropped records, the event
times of each resource (kind, die, unit, index; newest first), spared rows (die, stack, row), spared columns (core, column,
and whether in effect), and the cores disabled by it. -/
structure Ras where
  lims : List DWord
  base : DWord
  head : Word
  tail : Word
  ovf : Bool
  events : List ((Nat × Nat × Nat × Nat) × List Nat)
  rows : List (Nat × Nat × Nat)
  cols : List (Nat × Nat × Bool)
  deadCols : List (Nat × Nat)
  disabled : List Nat
  deriving DecidableEq, Repr

/-- The fault thresholds at reset (R400). -/
def Ras.reset : Ras :=
  { lims := [BitVec.ofNat 64 (3 + 86400 * 256 + 2 ^ 32), BitVec.ofNat 64 (8 + 600 * 256 + 2 ^ 32),
             BitVec.ofNat 64 (2 + 604800 * 256 + 2 ^ 32), BitVec.ofNat 64 (2 + 3600 * 256 + 2 ^ 32)],
    base := 0, head := 0, tail := 0, ovf := false, events := [], rows := [], cols := [], deadCols := [], disabled := [] }

/-- A firmware core's part in the election (R406, R407): the highest term it has seen, the die of that term's leader, the last vote
it granted (term and proposer), when its lease ends and when its last renewal left (cycles of `clock`), the dies that acknowledged it, the
votes for its own proposal, whether it holds the lease, whether a lease was ever in force, and STALE. -/
structure Lease where
  term : Nat
  leader : Nat
  voted : Option (Nat × Nat)
  ends : Nat
  sent : Nat
  acks : List Nat
  votes : List Nat
  self : Bool
  any : Bool
  stale : Bool
  deriving DecidableEq, Repr

/-- A firmware core's lease at reset (R407). -/
def Lease.fresh : Lease := ⟨0, 0, none, 0, 0, [], [], false, false, false⟩

/-- Boot, keys and life cycle (R405, R408, R409, R415): the package flash, a verified image that takes effect at the next reset
(R425; none: empty), whether the boot ROM waits for an image, the digest of the image that runs, the life-cycle state, the identity key with its counter, the attestation key with its counter, the boot
count, the elections, the highest term that each Ringmaster register has seen, and the pod trust table (R414). -/
structure Trust where
  flash : List Byte
  staged : List Byte
  waiting : Bool
  digest : BitVec 256
  lc : Nat
  idKey : Option (BitVec 256)
  idNext : Nat
  attKey : Option (BitVec 256)
  attNext : Nat
  boots : Nat
  leases : TMap Lease
  regTerms : TMap Nat
  table : TMap Bool
  deriving DecidableEq, Repr

/-- Trust at reset (R414): the life-cycle state is PROVISIONED (log entry 3). -/
def Trust.reset : Trust :=
  { flash := [], staged := [], waiting := false, digest := 0, lc := 1, idKey := none, idNext := 0, attKey := none, attNext := 0, boots := 0,
    leases := [], regTerms := [], table := [] }

/-- The power controller (R416, R421): PWRCFG, the current ceiling and the estimated current in A, SHAPED and HOT. -/
structure Power where
  cfg : Word
  ceiling : Nat
  iest : Nat
  shaped : Nat
  hot : Bool
  deriving DecidableEq, Repr

/-- The power controller at reset (R416, R421). -/
def Power.reset : Power := ⟨BitVec.ofNat 32 (200 + 2 ^ 9 + 2400 * 2 ^ 12 + 2 ^ 24), 375, 0, 0, false⟩

/-- The management mailbox of a function with its command buffer, and the function's address space, TDI state, and whether its
host traffic comes under an IDE stream (R422-R425). -/
structure Mailbox where
  busy : Bool
  done : Bool
  status : Nat
  len : Nat
  rlen : Nat
  buf : TMap Byte
  asid : Nat
  run : Bool
  ide : Bool
  deriving DecidableEq, Repr

/-- What the host gets for an access: the bytes that it reads, or a completion that refuses it (R422, R423). -/
inductive HostAnswer where
  | data (b : List Byte)
  | unsupported
  | abort
  deriving DecidableEq, Repr

/-- A piece of a host access (R262, R423): the address space of its translation, its origin address, the key index, what it writes
(none: a read) and its length. -/
structure HostOp where
  asid : Nat
  pa : Nat
  key : Nat
  data : Option (List Byte)
  width : Nat
  deriving DecidableEq, Repr

/-- The accesses of the host (R262): those that are not performed, in the order in which the host issued them, the tag under which the
first has gone to another package, the completions that the host has had, oldest first, and how many have been performed; and the writes of
completion records and of list places to other packages that are not acknowledged, by tag and address space (R353). -/
structure HostPort where
  ops : List HostOp
  tag : Option Nat
  answers : List HostAnswer
  done : Nat
  front : List (Nat × Nat)
  deriving DecidableEq, Repr

/-- A function at reset (R422, log entry 3). -/
def Mailbox.fresh : Mailbox := ⟨false, false, 0, 0, 0, [], 0, false, false⟩

/-- The machine. `th`, `wg` and `cx` are the agent that issues now, its workgroup and its context; the other agents,
workgroups and contexts stand in the lists. For an agent without a workgroup, `wg` and `cx` are `Workgroup.none` and
`Context.none`. -/
structure State where
  /-- package number in the pod -/
  pkg : Nat
  /-- a debug agent is attached by system software (R110) -/
  debug : Bool
  /-- arithmetic-clock cycles since reset (R14) -/
  clock : Nat
  /-- pod time in nanoseconds (R14, R296) -/
  podTime : Nat
  /-- THE MODEL'S OWN: device steps that are due, in order (log entry 1) -/
  inputs : List Instr
  /-- THE MODEL'S OWN: what has still to issue in this cycle (log entry 1) -/
  turns : List IssuePort
  /-- THE MODEL'S OWN: the number of free values used so far (log entry 2) -/
  free : Nat
  th : Thread
  wg : Workgroup
  cx : Context
  threads : List Thread
  wgs : List Workgroup
  cxs : List Context
  /-- memory by origin physical address, HOST bit included (R344); an unlisted byte is 0 (log entry 5) -/
  mem : TMap Byte
  /-- 16-byte units of memory marked as a data error, by address ÷ 16 (R397) -/
  memMark : TMap Bool
  /-- key index under which a 128-byte line was last written, by address ÷ 128 (R351): 0, the index of the wipe, where unlisted
  (R415); 2,048: the key has been erased, and the bytes are ciphertext (R412) -/
  lineKey : TMap Nat
  /-- memory keys by index, pairs of AES-256-XTS (R351, R412) -/
  keys : TMap (BitVec 512)
  trans : Trans
  /-- TLB entries, newest first, of cores (0-191), walk-ahead engines (200 + cluster), control cores (300 + cluster) and
  firmware cores (400 + die) (R353) -/
  tlbs : TMap (List TlbEntry)
  /-- walk caches of the walkers, newest entry first, by 4 × cluster + walker (R347) -/
  walkers : TMap (List WalkEntry)
  cores : TMap CoreSt
  dies : TMap DieView
  assists : TMap (List Assist)
  /-- timers of cluster control cores (0-23) and firmware cores (24 + die) -/
  timers : TMap CoreTimer
  sends : List Delivery
  fabric : Fabric
  carousels : TMap Carousel
  nocs : TMap Noc
  tether : Tether
  /-- collectives of the package's members, and their messages (R366-R377), and COLLCFG (R378) -/
  colls : List Coll
  collq : List CollMsg
  /-- members that a re-stitch has left out before their COLL started here: context, number, member and Q (R373) -/
  collLagged : List (Nat × Nat × Nat × Nat)
  collcfg : Word
  /-- the forwarding table (R178): (CTX, WGL) with a core + 2, 1 for MOVING, 0 for SWAPPED -/
  forward : List ((Nat × Nat) × Nat)
  /-- the 64 command queues, and the launches that have started (R321, R329) -/
  queues : TMap Queue
  launches : Nat
  ras : Ras
  trust : Trust
  power : Power
  /-- mailboxes of functions 0-15, the virtual ones, and 16, the physical one -/
  mailboxes : TMap Mailbox
  host : HostPort
  deriving DecidableEq, Repr

/-- Translation, faults and homes at reset (R357, R365): MIGCFG holds EN, XPKG, EPOCH 10, THR 512 and HOLD 100. -/
def Trans.reset : Trans :=
  { astbase := 0, astlen := 0, savebase := 0, savecnt := 0, pfqbase := 0, pfqhead := 0, pfqtail := 0, nextId := 0,
    pfqOvf := false, waits := [], migcfg := BitVec.ofNat 64 (3 + 10 * 4 + 512 * 2 ^ 10 + 100 * 2 ^ 22), moves := 0, pins := 0,
    noframe := 0, frames := [], homes := [], unitFrame := [], pinned := [], moveTimes := [], hold := [], counts := [], askers := [],
    moving := [], handed := 0 }

/-- The end-to-end layer at reset (R280, R281, R388, R396): FABRATE 4 and 2, E2ECFG 10, 16 and 1,000. -/
def Fabric.reset : Fabric :=
  { flows := [], inflows := [], rates := [], noticed := [], rateCfg := BitVec.ofNat 32 (4 + 2 * 64),
    e2ecfg := BitVec.ofNat 32 (10 + 16 * 2 ^ 10 + 1000 * 2 ^ 16), replays := 0, closed := 0, outside := 0, linkErrors := 0,
    ports := [], excluded := [], groups := [], acksDue := [], nextTag := 0, relayed := [] }

/-- The cluster control cores and firmware cores at reset: stopped until the boot starts them (R405, log entry 3). -/
def resetCores : List Thread :=
  (List.range 24).map (fun c => { Thread.fresh (.control c) .stopped 1 with ident := ⟨0, 0, 0, 0, 8 * c, c, c / 6, 0⟩ })
    ++ (List.range 3).map fun d =>
      { Thread.fresh (.firmware (d + 1)) .stopped 1 with ident := ⟨0, 0, 0, 0, 48 * (d + 1), 6 * (d + 1), d + 1, 0⟩ }

/-- The package right after reset: no launch, every core stopped until RESET_BOOT has verified an image (R405), every
register at the value that the spec gives it or that the log names. -/
def State.reset : State :=
  { pkg := 0, debug := false, clock := 0, podTime := 0, inputs := [], turns := [], free := 0, th := Thread.fresh (.firmware 0) .stopped 1,
    wg := Workgroup.none, cx := Context.none, threads := resetCores, wgs := [], cxs := [], mem := [], memMark := [],
    lineKey := [], keys := [], trans := Trans.reset, tlbs := [], walkers := [], cores := [], dies := [], assists := [], timers := [],
    sends := [], fabric := Fabric.reset, carousels := [], nocs := [], tether := Tether.reset, colls := [], collq := [], collLagged := [],
    collcfg := BitVec.ofNat 32 (1000 + 64 * 2 ^ 16), forward := [], queues := [], launches := 0,
    ras := Ras.reset, trust := Trust.reset, power := Power.reset, mailboxes := [], host := ⟨[], none, [], 0, []⟩ }

end Sys2Proof.Machine
end

