-- ==== Sys2Proof/Machine/Flags.lean ====
section
/-!
DEFINITION. The sticky flags of a troupe: `s_fpmode` (R15, R33, R73) and `s_err` (R16, R75).
-/

namespace Sys2Proof.Machine

/-- SUBN of `s_fpmode` (R15, R33). -/
def Thread.subn (th : Thread) : Bool := th.fpmode.getLsbD 0

/-- Whether the agent is a matrix or copy sequencer (R63). -/
def Agent.isSequencer : Agent → Bool
  | .matrix _ _ => true
  | .copy _ _ => true
  | .troupe _ _ _ => false
  | .control _ => false
  | .firmware _ => false

/-- Whether the agent is a troupe. -/
def Agent.isTroupe : Agent → Bool
  | .troupe _ _ _ => true
  | .matrix _ _ => false
  | .copy _ _ => false
  | .control _ => false
  | .firmware _ => false

/-- The engine whose decoder an agent uses (R63). -/
def Agent.engine : Agent → Engine
  | .troupe _ _ _ => .troupe
  | .matrix _ _ => .matrix
  | .copy _ _ => .copy
  | .control _ => .control
  | .firmware _ => .firmware

/-- OR bits into the flags of `s_fpmode` (R73); a sequencer sets none. -/
def Thread.raiseFlagBits (th : Thread) (bits : Word) : Thread :=
  if th.agent.isSequencer then th else { th with fpmode := th.fpmode ||| bits }

/-- OR flags into `s_fpmode` (R73). -/
def Thread.raiseFlags (th : Thread) (f : FFlags) : Thread := th.raiseFlagBits (BitVec.ofNat 32 f.bits)

/-- OR bits into `s_err` (R16): 1 SENDF, 2 COPYF, 4 DATAF, 8 STALEF. -/
def Thread.raiseErr (th : Thread) (bits : Word) : Thread := { th with err := th.err ||| bits }

/-- A write of `s_fpmode` (R15, R4): SUBN is RW, bits [13:8] are write-1-to-clear, the rest ignores writes. -/
def writeFpmode (old new : Word) : Word := (old &&& ~~~(new &&& 0x3f00#32) &&& 0x3f00#32) ||| (new &&& 1#32)

/-- A write of `s_err` (R16): bits [3:0] are write-1-to-clear. -/
def writeErr (old new : Word) : Word := old &&& ~~~(new &&& 0xf#32)

end Sys2Proof.Machine
end

