-- ==== Sys2Proof/Machine/Operands.lean ====
section
/-!
DEFINITION. Every operand form of the spec: registers, special registers and inline constants at each width, per lane
(R8-R14, R49, R73), with full bits (R12) and data-error marks (R75); and the writes of a result.
-/

namespace Sys2Proof.Machine

/-- Key of register `n` of lane `l`. -/
def regKey (l n : Nat) : Nat := 256 * l + n

/-- The key of the mark of register `n` of lane `l`: that of its 16-byte unit, which holds it in four lanes (R18, R397, R398). -/
def markKeyV (l n : Nat) : Nat := regKey (l / 4 * 4) n
/-- The key of the mark of uniform register `n`: that of its 16-byte unit, which holds four of them. -/
def markKeyK (n : Nat) : Nat := n / 4 * 4

/-- Per-lane register n of lane l. -/
def Thread.rdV (th : Thread) (l n : Nat) : Word := tget 0 th.v (regKey l n)
/-- Uniform register n. -/
def Thread.rdK (th : Thread) (n : Nat) : Word := tget 0 th.k n
/-- Predicate n of lane l; 7 is `pa` and reads true (R8). -/
def Thread.rdP (th : Thread) (l n : Nat) : Bool := decide (n = 7) || (tget 0 th.p n).getLsbD l
/-- Whether per-lane register n of lane l is empty (R11). -/
def Thread.isEmpty (th : Thread) (l n : Nat) : Bool := tget false th.vEmpty (regKey l n)

/-- The unit of per-lane register n of lane l is marked as a data error. -/
def Thread.markV (th : Thread) (l n : Nat) : Bool := tget false th.vMark (markKeyV l n)
/-- The unit of uniform register n is marked as a data error. -/
def Thread.markK (th : Thread) (n : Nat) : Bool := tget false th.kMark (markKeyK n)

/-- Write a per-lane register: the value, full; marked data mark its unit, and clean data leave the mark of the unit (R11, R75, R398). -/
def Thread.wrV (th : Thread) (l n : Nat) (x : Word) (mark : Bool) : Thread :=
  { th with v := tset 0 th.v (regKey l n) x, vEmpty := tset false th.vEmpty (regKey l n) false,
            vMark := if mark then tset false th.vMark (markKeyV l n) true else th.vMark }

/-- Write a uniform register; marked data mark its unit. -/
def Thread.wrK (th : Thread) (n : Nat) (x : Word) (mark : Bool) : Thread :=
  { th with k := tset 0 th.k n x, kMark := if mark then tset false th.kMark (markKeyK n) true else th.kMark }

/-- A lane mask with one lane set or cleared. -/
def setLane (m : LaneMask) (l : Nat) (x : Bool) : LaneMask := if x then m ||| laneBit l else m &&& ~~~laneBit l

/-- Write predicate n of lane l with a mark (R75); a write to `pa` is ignored (R8). -/
def Thread.wrP (th : Thread) (l n : Nat) (x : Bool) (mark : Bool) : Thread :=
  if n < 7 then
    { th with p := tset 0 th.p n (setLane (tget 0 th.p n) l x), pMark := tset 0 th.pMark n (setLane (tget 0 th.pMark n) l mark) }
  else th

/-- Predicate n of lane l is marked as a data error (R75); `pa` never is. -/
def Thread.markedP (th : Thread) (l n : Nat) : Bool := decide (n < 7) && (tget 0 th.pMark n).getLsbD l

/-- Perform one write of a result. -/
def Thread.write1 (th : Thread) : Wr → Thread
  | .v l n x mark => th.wrV l n x mark
  | .k n x mark => th.wrK n x mark
  | .p l n x mark => th.wrP l n x mark
  | .fl bits => th.raiseFlagBits bits
  | .cap n x => { th with caps := tset 0 th.caps n x }
  | .cm _ _ => th
  | .ph _ _ => th

/-- Some write of a result is to register n of lane l. -/
def writesV (ws : List Wr) (l n : Nat) : Bool := ws.any fun w => match w with
  | .v l' n' _ _ => l' == l && n' == n
  | _ => false

/-- Some write of a result is to uniform register n. -/
def writesK (ws : List Wr) (n : Nat) : Bool := ws.any fun w => match w with
  | .k n' _ _ => n' == n
  | _ => false

/-- The marks of the units that a result writes whole go (R398); its own marked data set them again. -/
def Thread.unmark (th : Thread) (ws : List Wr) : Thread :=
  { th with
    vMark := th.vMark.filter fun e => !(List.range 4).all fun i => writesV ws (e.1 / 256 + i) (e.1 % 256)
    kMark := th.kMark.filter fun e => !(List.range 4).all fun i => writesK ws (e.1 + i) }

/-- Perform the writes of a result in order. -/
def Thread.writes (th : Thread) (ws : List Wr) : Thread := ws.foldl Thread.write1 (th.unmark ws)

/-- The value of a special register, 64 bits (R14). -/
def special (s : State) (lane n : Nat) : DWord :=
  let th := s.th
  match n with
  | 0 => BitVec.ofNat 64 lane
  | 1 => BitVec.ofNat 64 th.ident.troupe
  | 2 => BitVec.ofNat 64 th.ident.wg
  | 3 => BitVec.ofNat 64 th.ident.stage
  | 4 => BitVec.ofNat 64 th.ident.cohort
  | 5 => BitVec.ofNat 64 th.ident.core
  | 6 => BitVec.ofNat 64 th.ident.cluster
  | 7 => BitVec.ofNat 64 th.ident.die
  | 8 => BitVec.ofNat 64 th.ident.pkg
  | 9 => BitVec.ofNat 64 s.podTime
  | 10 => BitVec.ofNat 64 s.clock
  | 11 => th.stklo
  | 12 => th.stkhi
  | 13 => th.vcnt.setWidth 64
  | 14 => th.fpmode.setWidth 64
  | 15 => th.err.setWidth 64
  | 16 => th.hdl
  | 17 => th.trapcause.setWidth 64
  | 18 => th.trappc
  | 19 => th.trapop.setWidth 64
  | 20 => th.trapd.setWidth 64
  | 21 => th.trapa.setWidth 64
  | 22 => th.trapb.setWidth 64
  | 23 => th.trapf.setWidth 64
  | _ => 0

/-- The special registers that are 64 bits wide (R14). -/
def special64 (n : Nat) : Bool := n == 9 || n == 10 || n == 11 || n == 12 || n == 16 || n == 18

/-- An inline constant as an integer (R49). -/
def constInt (n : BitVec 6) : Int := (n.toNat : Int) - 32

/-- A 32-bit operand of a lane (R49). -/
def opnd32 (s : State) (l : Nat) : Operand → Word
  | .v n => s.th.rdV l n.toNat
  | .k n => s.th.rdK n.toNat
  | .s n => (special s l n.toNat).setWidth 32
  | .c n => BitVec.ofInt 32 (constInt n)

/-- A 64-bit operand of a lane: a pair, a constant sign-extended, or the low 32 bits of a special register (R10, R14). -/
def opnd64 (s : State) (l : Nat) : Operand → DWord
  | .v n => s.th.rdV l (n.toNat + 1) ++ s.th.rdV l n.toNat
  | .k n => s.th.rdK (n.toNat + 1) ++ s.th.rdK n.toNat
  | .s n => ((special s l n.toNat).setWidth 32).setWidth 64
  | .c n => BitVec.ofInt 64 (constInt n)

/-- An FP32 operand: a constant is its integer value converted exactly (R49). -/
def opndF32 (s : State) (l : Nat) : Operand → Nat
  | .c n => (roundSigned fp32 0 false true (constInt n) 0 false).bits
  | .v n => (opnd32 s l (.v n)).toNat
  | .k n => (opnd32 s l (.k n)).toNat
  | .s n => (opnd32 s l (.s n)).toNat

/-- An FP64 operand. -/
def opndF64 (s : State) (l : Nat) : Operand → Nat
  | .c n => (roundSigned fp64 0 false true (constInt n) 0 false).bits
  | .v n => (opnd64 s l (.v n)).toNat
  | .k n => (opnd64 s l (.k n)).toNat
  | .s n => (opnd64 s l (.s n)).toNat

/-- A packed operand of two 16-bit elements: a constant stands in both (R49). -/
def opndPacked (f : FFmt) (s : State) (l : Nat) : Operand → Nat
  | .c n => let x := (roundSigned f 0 false true (constInt n) 0 false).bits; x + 65536 * x
  | .v n => (opnd32 s l (.v n)).toNat
  | .k n => (opnd32 s l (.k n)).toNat
  | .s n => (opnd32 s l (.s n)).toNat

/-- A 16-bit floating-point operand in the low half of a register (R73). -/
def opndF16 (f : FFmt) (s : State) (l : Nat) : Operand → Nat
  | .c n => (roundSigned f 0 false true (constInt n) 0 false).bits
  | .v n => (opnd32 s l (.v n)).toNat % 65536
  | .k n => (opnd32 s l (.k n)).toNat % 65536
  | .s n => (opnd32 s l (.s n)).toNat % 65536

/-- Whether one of `n` registers from an operand is marked as a data error in a lane (R75). -/
def Thread.marked (th : Thread) (l n : Nat) : Operand → Bool
  | .v r => (List.range n).any fun i => th.markV l (r.toNat + i)
  | .k r => (List.range n).any fun i => th.markK (r.toNat + i)
  | .s _ => false
  | .c _ => false

/-- Whether one of `n` registers from an operand is empty in some lane of a mask (R12). -/
def Thread.emptyIn (th : Thread) (m : LaneMask) (n : Nat) : Operand → Bool
  | .v r => (lanesOf m).any fun l => (List.range n).any fun i => th.isEmpty l (r.toNat + i)
  | .k _ => false
  | .s _ => false
  | .c _ => false

/-- The registers that a role reads, as a count; 0 for a destination. -/
def roleReads : Role → Nat
  | .src n => n
  | .dst _ => 0
  | .dsrc n => n
  | .data n => n
  | .base => 2
  | .ubase => 2
  | .usrc n => n
  | .udst _ => 0
  | .udstOpt => 0
  | .dstOpt => 0
  | .uquad => 4
  | .lanes n => n
  | .lanesDst _ => 0
  | .range n => n
  | .octet => 8
  | .octetDst => 0
  | .special => 0

/-- The registers that a role writes, as a count; 0 for a source. -/
def roleWrites : Role → Nat
  | .src _ => 0
  | .dst n => n
  | .dsrc _ => 0
  | .data _ => 0
  | .base => 0
  | .ubase => 0
  | .usrc _ => 0
  | .udst n => n
  | .udstOpt => 1
  | .dstOpt => 1
  | .uquad => 0
  | .lanes _ => 0
  | .lanesDst n => n
  | .range _ => 0
  | .octet => 0
  | .octetDst => 8
  | .special => 0

/-- Whether a write of an outstanding result touches register `o` to `o + n - 1` in the lanes of a mask. -/
def Wr.touches (w : Wr) (m : LaneMask) (n : Nat) (o : Operand) : Bool :=
  match w, o with
  | .v l r _ _, .v b => m.getLsbD l && decide (b.toNat ≤ r) && decide (r < b.toNat + n)
  | .k r _ _, .k b => decide (b.toNat ≤ r) && decide (r < b.toNat + n)
  | _, _ => false

/-- Whether an awaited answer will write register `o` to `o + n - 1` in the lanes of a mask. -/
def Await.touches (a : Await) (m : LaneMask) (n : Nat) (o : Operand) : Bool :=
  let w := if a.width ≤ 4 then (if a.sx && a.width == 4 then 2 else 1) else a.width / 4
  match a.d, o with
  | .v d, .v b => m.getLsbD a.lane && decide (d.toNat < b.toNat + n) && decide (b.toNat < d.toNat + w)
  | .k d, .k b => decide (d.toNat < b.toNat + n) && decide (b.toNat < d.toNat + w)
  | _, _ => false

/-- Two writes have one destination. -/
def Wr.sameDest : Wr → Wr → Bool
  | .v l n _ _, .v l' n' _ _ => l == l' && n == n'
  | .k n _ _, .k n' _ _ => n == n'
  | .p l n _ _, .p l' n' _ _ => l == l' && n == n'
  | .cap n _, .cap n' _ => n == n'
  | .cm n _, .cm n' _ => n == n'
  | .ph n _, .ph n' _ => n == n'
  | _, _ => false

/-- The result of one lane: up to two words of value and the flags it raises. -/
structure LaneRes where
  val : DWord
  flags : FFlags
  deriving DecidableEq, Repr

/-- A 32-bit result without flags. -/
def LaneRes.word (x : Word) : LaneRes := ⟨x.setWidth 64, FFlags.none⟩
/-- A 64-bit result without flags. -/
def LaneRes.dword (x : DWord) : LaneRes := ⟨x, FFlags.none⟩
/-- A floating-point result. -/
def LaneRes.fp (r : FRes) : LaneRes := ⟨BitVec.ofNat 64 r.bits, r.flags⟩

/-- The writes of a value of `n` words (1 or 2) to a destination register of one lane. -/
def regWrites (l n : Nat) (x : DWord) (mark : Bool) : Operand → List Wr
  | .v r => .v l r.toNat (x.setWidth 32) mark :: (if n = 2 then [.v l (r.toNat + 1) (x.extractLsb' 32 32) mark] else [])
  | .k r => .k r.toNat (x.setWidth 32) mark :: (if n = 2 then [.k (r.toNat + 1) (x.extractLsb' 32 32) mark] else [])
  | .s _ => []
  | .c _ => []

/-- The writes of a per-lane result: every active lane's own, or under a uniform destination the lowest active lane's
(R49). -/
def laneWrites (act : LaneMask) (n : Nat) (d : Operand) (f : Nat → DWord) (mark : Nat → Bool) : List Wr :=
  match d with
  | .v r => (lanesOf act).flatMap fun l => regWrites l n (f l) (mark l) (.v r)
  | .k r => if act = 0 then [] else regWrites (lowLane act) n (f (lowLane act)) (mark (lowLane act)) (.k r)
  | .s _ => []
  | .c _ => []

end Sys2Proof.Machine
end

