-- ==== Sys2Proof/Machine/Ops.lean ====
section
/-!
DEFINITION. The shared operations of every word: participation (R50), holding and issuing under full bits and lookahead
(R12, R61, R102), sub-groups (R99-R101), taking a trap and returning from it (R65-R67, R126, R433), and the ends of lanes
and troupes (R109).
-/

namespace Sys2Proof.Machine

/-- The outcome of one instruction. -/
abbrev Out := Host.Outcome State Fault Refusal

/-- The lanes of the sub-group in which the guard holds (R50). -/
def activeLanes (th : Thread) (hd : Hdr) : LaneMask :=
  maskOf fun l => th.grp.mask.getLsbD l && (th.rdP l hd.guard.toNat != hd.neg)

/-- A word that ends every lookahead window it meets: group 7 except NOP, and MLOOP (R61). -/
def endsWindow (i : Instr) : Bool :=
  (i.opcode / 64 == 7 && i.opcode != 457) || i.opcode == 712

/-- The writes to other destinations than those of `ds`. -/
def keepOthers (ds ws : List Wr) : List Wr := ws.filter fun w => !(ds.any fun d => d.sameDest w)

/-- What a slot or handle was before a word is hidden once the window of that word has closed, and a later word whose window has
closed hides what it was before an earlier one (R61). -/
def settleOlds : List Pend → List Pend
  | [] => []
  | p :: r =>
    let hidden := (r.filter fun q => q.left == 0 && p.lanes &&& q.lanes != 0).flatMap fun q => q.olds
    { p with olds := if p.left = 0 then [] else keepOthers hidden p.olds } :: settleOlds r

/-- Close the windows of the lanes of a mask (R61). -/
def closeWindows (th : Thread) (m : LaneMask) : Thread :=
  { th with pend := settleOlds (th.pend.map fun p => if p.lanes &&& m = 0 then p else { p with left := 0 }) }

/-- What a slot or handle was before the words whose windows are open over the sub-group (R61); none where they leave it alone. -/
def Thread.before {α : Type} (th : Thread) (f : Wr → Option α) : Option α :=
  th.pend.findSome? fun p => if p.lanes &&& th.grp.mask = 0 then none else p.olds.findSome? f

/-- A capability slot as a word of the current sub-group reads it (R61, R183). -/
def Thread.cap (th : Thread) (n : Nat) : BitVec 128 :=
  (th.before fun w => (match w with | .cap m x => if m = n then some x else none | _ => none)).getD (tget 0 th.caps n)

/-- Whether an outstanding result touches a register that the word names (R61). -/
def Owed.touches (o : Owed) (uses : List (Role × Operand)) (m : LaneMask) : Bool :=
  match o with
  | .wait _ => false
  | .result ws aw _ => uses.any fun u =>
      let n := max (roleReads u.1) (roleWrites u.1)
      ws.any (fun w => w.touches m n u.2) || aw.any (fun a => a.touches m n u.2)

/-- The destinations that a wait writes when it completes (R200, R202). -/
def Wait.dests : Wait → List Wr
  | .phwin _ _ _ d act dr => keepOthers dr (laneWrites act 2 d (fun _ => 0) fun _ => false)
  | .signal _ d act _ _ _ dr => keepOthers dr (laneWrites act 1 d (fun _ => 0) fun _ => false)
  | .gen _ d act _ _ => laneWrites act 1 d (fun _ => 0) fun _ => false
  | _ => []

/-- Whether a result that has not arrived will write register `o` to `o + n - 1` in the lanes of a mask. -/
def Owed.awaits (o : Owed) (m : LaneMask) (n : Nat) (d : Operand) : Bool :=
  match o with
  | .wait w => w.dests.any fun x => x.touches m n d
  | .result _ aw _ => aw.any fun a => a.touches m n d

/-- Whether an outstanding long-latency word with its window closed holds back a word of the lanes of a mask: a wait
always, a result that has arrived until it is written, an awaited result when the word depends on it (R61). -/
def Pend.holds (p : Pend) (uses : List (Role × Operand)) (m : LaneMask) : Bool :=
  p.lanes &&& m != 0 && p.left == 0 &&
    match p.owed with
    | .wait _ => true
    | .result _ [] _ => true
    | .result _ (_ :: _) _ => p.owed.touches uses m

/-- The word takes one of the sixteen window records of its troupe (R360): its window is open, or it is a wait that pre-emption would keep
(R429). -/
def Pend.recorded (p : Pend) : Bool := p.left != 0 || (p.word.isSome && p.issued)

/-- Whether a word cannot issue now: an empty source register of an active lane (R12), an outstanding result or wait
(R61), or a seventeenth window (R360). -/
def heldBack (th : Thread) (uses : List (Role × Operand)) (la : Nat) (act : LaneMask) : Bool :=
  uses.any (fun u => th.emptyIn act (roleReads u.1) u.2)
    || th.pend.any (fun p => p.holds uses th.grp.mask)
    || (decide (0 < la) && decide (16 ≤ (th.pend.filter Pend.recorded).length))

/-- The writes that a word of a window makes, as destinations alone (R61). -/
def destsOf (uses : List (Role × Operand)) (act : LaneMask) : List Wr :=
  uses.flatMap fun u =>
    (List.range (roleWrites u.1)).flatMap fun i => match u.2 with
      | .v r => (lanesOf act).map fun l => .v l (r.toNat + i) 0 false
      | .k r => if act = 0 then [] else [.k (r.toNat + i) 0 false]
      | .s _ => []
      | .c _ => []

/-- The result of a wait that writes one leaves destinations as a word of its window writes them (R61). -/
def Wait.yieldTo (ds : List Wr) : Wait → Wait
  | .phwin h phase scope d act dr => .phwin h phase scope d act (ds ++ dr)
  | .signal h d act cand bound tags dr => .signal h d act cand bound tags (ds ++ dr)
  | w => w

/-- An outstanding result leaves destinations as a word of its window writes them (R61). -/
def Owed.yieldTo (ds : List Wr) : Owed → Owed
  | .wait w => .wait (w.yieldTo ds)
  | .result ws aw dr => .result (keepOthers ds ws) aw (ds ++ dr)

/-- A word of the lanes of a mask issues inside the windows that are open over them: one word fewer is left, and its own
destinations stay as it writes them (R61). The last word of a window still reads the slots and handles as they were. -/
def countWindows (th : Thread) (m : LaneMask) (ds : List Wr) : Thread :=
  { th with pend := (settleOlds th.pend).map fun p =>
      if p.lanes &&& m = 0 ∨ p.left = 0 then p
      else { p with left := p.left - 1, issued := true, owed := p.owed.yieldTo ds } }

/-- The result at an index is written and leaves the list. An older result that is still outstanding over its lanes leaves
those destinations alone; it was due until now (R61). DEDUCED (log entry 8). -/
def retirePend (ps : List Pend) (i : Nat) (lanes : LaneMask) (ws : List Wr) : List Pend :=
  (ps.take i).map (fun p => if p.lanes &&& lanes = 0 then p else { p with owed := p.owed.yieldTo ws }) ++ ps.drop (i + 1)

/-- The address at which the sub-group goes on after its word: behind it, or, where the word is performed again, behind the last
word that had issued (R128). -/
def nextPc (g : Sub) : DWord :=
  match g.replay with
  | some w => w.next
  | none => g.pc + 8

/-- The sub-group goes on at the next word. -/
def advance (th : Thread) : Thread :=
  { th with grp := { th.grp with pc := nextPc th.grp, replay := none, fixed := false }, issues := th.issues + 1 }

/-- State with the thread changed. -/
def State.setTh (s : State) (th : Thread) : State := { s with th := th }

/-- The lanes that take part in a word: those of the guard, or those that the operand log records when the word is
performed again (R50, R128). -/
def takesPart (th : Thread) (hd : Hdr) : LaneMask :=
  match th.grp.replay with
  | some w => w.took
  | none => activeLanes th hd

/-- The result of the word has arrived and its window has closed (R61). -/
def Pend.due (p : Pend) : Bool :=
  p.left == 0 && p.check.isNone && match p.owed with
    | .wait _ => false
    | .result _ aw _ => aw.isEmpty

/-- Every answer for the word has come, and another package has refused it in some lane (R414). -/
def Pend.refused (p : Pend) : Bool :=
  (p.check.any fun w => w.faulted != 0) && match p.owed with
    | .wait _ => false
    | .result _ aw _ => aw.isEmpty

/-- The pending word is a wait of a kind. -/
def Pend.waitsFor (f : Wait → Bool) (p : Pend) : Bool :=
  match p.owed with
  | .wait w => f w
  | .result _ _ _ => false

/-- Whether the wait of a pending word is a WADDR. -/
def Pend.isWaddr (p : Pend) : Bool :=
  match p.owed with
  | .wait (.waddr _ _ _ _ _) => true
  | _ => false

/-- Whether the wait of a pending word is a FENCE. -/
def Pend.isFence (p : Pend) : Bool :=
  match p.owed with
  | .wait (.fence _ _) => true
  | _ => false

/-- An earlier word of the sub-group has still to pass a check of another package (R127, R414). -/
def unchecked (th : Thread) : Bool := th.pend.any fun p => p.check.isSome && p.lanes &&& th.grp.mask != 0

/-- Whether a word must wait: inside the window of a FENCE or WADDR (R119), behind an `sc` or acquiring access at another package
(R251, R257), or, as a word that can fault or branch, behind a word that another package has still to check (R127). -/
def fenced (th : Thread) (i : Instr) : Bool :=
  let g := i.opcode / 64
  ([8, 9, 10, 13, 14].contains g && th.pend.any fun p => (p.isWaddr || p.isFence) && p.lanes &&& th.grp.mask != 0)
    || (decide (7 ≤ g) && i.opcode != 457 && (!th.blocked.isEmpty || (decide (g ≤ 14) && unchecked th)))

/-- The destinations that keep what the word writes against the results of the windows that are open over it (R61): those of a word
with a window of its own are written later. `preds` are the predicates that it writes. -/
def issueDests (hd : Hdr) (uses : List (Role × Operand)) (preds : List (BitVec 3)) (act : LaneMask) : List Wr :=
  if hd.la != 0 then []
  else destsOf uses act ++ preds.flatMap fun p => (lanesOf act).map fun l => .p l p.toNat false false

/-- Issue a word: hold it back, or run its effect with the active lanes (R12, R50, R61). `uses` names its register
operands and `preds` the predicates it writes. -/
def issue (i : Instr) (uses : List (Role × Operand)) (preds : List (BitVec 3)) (hd : Hdr) (s : State)
    (body : LaneMask → State → Out) : Out :=
  let th := if endsWindow i then closeWindows s.th s.th.grp.mask else s.th
  let act := takesPart th hd
  let reads := if th.grp.replay = none then uses else []
  if heldBack th reads hd.la.toNat act || fenced th i then .next (s.setTh th)
  else body act (s.setTh (countWindows th th.grp.mask (issueDests hd uses preds act)))

/-- Perform one write of a result, to the thread or to its workgroup. -/
def State.write1 (s : State) : Wr → State
  | .v l n x mark => s.setTh (s.th.write1 (.v l n x mark))
  | .k n x mark => s.setTh (s.th.write1 (.k n x mark))
  | .p l n x mark => s.setTh (s.th.write1 (.p l n x mark))
  | .fl bits => s.setTh (s.th.write1 (.fl bits))
  | .cap n x => s.setTh (s.th.write1 (.cap n x))
  | .cm n x => { s with wg := { s.wg with cms := tset ChunkSlot.unbound s.wg.cms n x } }
  | .ph n x => { s with wg := { s.wg with phs := match x with | some h => putBy n h s.wg.phs | none => dropBy n s.wg.phs } }

/-- Perform the writes of a result in order. -/
def State.writes (s : State) (ws : List Wr) : State := ws.foldl State.write1 (s.setTh (s.th.unmark ws))

/-- The words that the window of a word takes in: its L, or what was left of it where the word is performed again (R61, R128). -/
def windowLen (th : Thread) (hd : Hdr) : Nat :=
  match th.grp.replay with
  | some w => w.left
  | none => hd.la.toNat

/-- A word as the operand log records it (R128): its lanes with their operands as read at issue. -/
def logOf (i : Instr) (hd : Hdr) (th : Thread) (took faulted : LaneMask) (ls : List LogLane) : LogWord :=
  ⟨(encode i).getD 0, took, faulted, ls, nextPc th.grp, windowLen th hd⟩

/-- The word that issues stays pending with what it owes. -/
def openPend (hd : Hdr) (o : Owed) (olds : List Wr) (check word : Option LogWord) (th : Thread) : Thread :=
  { th with pend := th.pend ++ [⟨th.grp.mask, th.grp.pc, windowLen th hd, false, o, olds, check, word⟩] }

/-- Deliver the result of a long-latency word (R61): at once with an empty window, else when the window closes. -/
def deliver (hd : Hdr) (ws : List Wr) (th : Thread) : Thread :=
  if windowLen th hd = 0 || ws.isEmpty then th.writes ws else openPend hd (.result ws [] []) [] none none th

/-- Open a wait (R61, R118): the sub-group goes on inside its window and then waits. -/
def openWait (hd : Hdr) (w : Wait) (th : Thread) : Thread := openPend hd (.wait w) [] none none th

/-- Open a wait that pre-emption keeps once a word of its window has issued, with its operands as read at issue (R429). -/
def openKept (hd : Hdr) (w : Wait) (lw : LogWord) (th : Thread) : Thread := openPend hd (.wait w) [] none (some lw) th

/-- A word writes slots or handles (R61): at once, so that every other agent and every word after the window sees them; words of
its window read them as they were (`olds`). With an empty window the word's own value stays in the windows that are open over it.
`res` is its result in registers. -/
def writeSlots (hd : Hdr) (olds ws res : List Wr) (s : State) : State :=
  let s := s.writes ws
  let th := s.th
  let own (p : Pend) : Pend := if p.lanes &&& th.grp.mask = 0 then p else { p with olds := keepOthers ws p.olds }
  s.setTh (if windowLen th hd = 0 then Thread.writes { th with pend := th.pend.map own } res
    else openPend hd (.result res [] []) olds none none th)

/-! ### Sub-groups -/

/-- The parts that a sub-group splits into when its lanes go to different program counters (R100), in order of their
lowest lane. -/
def partsBy (lanes : List Nat) (pc : Nat → DWord) : List (DWord × LaneMask) :=
  lanes.foldl (fun ps l =>
    match lookupBy (pc l) ps with
    | some m => putBy (pc l) (m ||| laneBit l) ps
    | none => ps ++ [(pc l, laneBit l)]) []

/-- Send each lane of the sub-group to its next program counter, splitting it where they differ (R100): the part with the
lowest lane keeps the broadcast role. -/
def branchTo (th : Thread) (pc : Nat → DWord) : Thread :=
  match partsBy (lanesOf th.grp.mask) pc with
  | [] => th
  | (p, m) :: ps =>
    let sub := { th.grp with mask := m, pc := p, replay := none, fixed := false }
    { th with issues := th.issues + 1, grp := sub, rest := th.rest ++ ps.map fun q => { sub with mask := q.2, pc := q.1, bcast := false } }

/-- When no sub-group holds the broadcast role, the one with the lowest live lane takes it (R100). -/
def passBroadcast (th : Thread) : Thread :=
  let subs := th.grp :: th.rest
  if subs.any (fun g => g.bcast && g.mask != 0) then th
  else
    let all := subs.foldl (fun m g => m ||| g.mask) 0
    let low := laneBit (lowLane all)
    let fix (g : Sub) : Sub := { g with bcast := g.mask &&& low != 0 }
    { th with grp := fix th.grp, rest := th.rest.map fix }

/-- Drop empty sub-groups, and make the next one current when the current one is empty. -/
def tidy (th : Thread) : Thread :=
  let rest := th.rest.filter fun g => g.mask != 0
  if th.grp.mask = 0 then
    match rest with
    | [] => { th with rest := [] }
    | g :: r => { th with grp := g, rest := r }
  else { th with rest := rest }

/-- A completed reconvergence (R108, R433): the waiting sub-groups that `waits` names form one sub-group at `pc`. No other joins one that
an RCW has formed before its next word (R104): it is `fixed`. -/
def gather (th : Thread) (waits : Sub → Bool) (pc : DWord) (replay : Option LogWord) (fixed : Bool) : Thread :=
  let subs := th.grp :: th.rest
  let arrived := subs.filter waits
  let mask := arrived.foldl (fun m g => m ||| g.mask) 0
  if mask = 0 then th
  else
    let role := arrived.any (fun g => g.bcast) || !(subs.any fun g => g.bcast && g.mask != 0)
    let others := subs.filter fun g => !waits g
    { th with grp := ⟨mask, pc, role, .run, replay, none, fixed⟩, rest := others }

/-- The sub-group waits at an RCW of a slot. -/
def Sub.atRcw (j : Nat) (g : Sub) : Bool := g.st == .rcw j

/-- Complete a reconvergence slot when every expected lane has arrived (R108). -/
def slotCheck (th : Thread) (j : Nat) : Thread :=
  let r := tget ⟨0, 0⟩ th.slots j
  let arrived := (th.grp :: th.rest).foldl (fun m g => if g.atRcw j then m ||| g.mask else m) 0
  if arrived != 0 && r.expect &&& ~~~arrived == 0 then
    gather { th with slots := tset ⟨0, 0⟩ th.slots j ⟨r.target, 0⟩ } (Sub.atRcw j) (r.target + 8) none true
  else th

/-- Remove lanes from what a slot expects (R108, R109). -/
def unexpect (th : Thread) (j : Nat) (m : LaneMask) : Thread :=
  let r := tget ⟨0, 0⟩ th.slots j
  { th with slots := tset ⟨0, 0⟩ th.slots j ⟨r.target, r.expect &&& ~~~m⟩ }

/-- The sub-group waits at a TRET. -/
def Sub.atTret (g : Sub) : Bool :=
  match g.st with
  | .tret _ => true
  | .run => false
  | .rcw _ => false
  | .brk _ _ => false
  | .page _ _ => false

/-- The handler state ends when every live lane of the handler set has executed its TRET (R433): plain TRET resumes at
`s_trappc` with the replay of R128, `.skip` after it. -/
def handlerCheck (th : Thread) : Thread :=
  match th.handler with
  | none => th
  | some h =>
    let arrived := (th.grp :: th.rest).foldl (fun m g => if g.atTret then m ||| g.mask else m) 0
    let want := h.set &&& th.live
    if want &&& ~~~arrived == 0 then
      match h.kind with
      | some true =>
        gather { th with handler := none, log := [] } Sub.atTret (((th.log.head?).map LogWord.next).getD (th.trappc + 8)) none false
      | some false => gather { th with handler := none, log := [] } Sub.atTret th.trappc th.log.head? false
      | none => { th with handler := none, log := [] }
    else th

/-- A write to a register or predicate of a lane of a mask. -/
def Wr.inLanes (m : LaneMask) : Wr → Bool
  | .v l _ _ _ => m.getLsbD l
  | .p l _ _ _ => m.getLsbD l
  | _ => false

/-- What a word owes to lanes that have ended is discarded; an answer on its way is still awaited (R109). -/
def Pend.discard (m : LaneMask) (p : Pend) : Pend :=
  let all := p.lanes &&& ~~~m == 0
  { p with lanes := p.lanes &&& ~~~m, owed := match p.owed with
      | .wait w => .wait w
      | .result ws aw dr => .result (if all then [] else ws.filter fun w => !w.inLanes m)
          (aw.map fun a => if all || m.getLsbD a.lane then { a with d := .c 0 } else a) dr }

/-- Nothing waits for the word any more. -/
def Pend.gone (p : Pend) : Bool :=
  p.lanes == 0 && match p.owed with
    | .wait _ => true
    | .result _ aw _ => aw.isEmpty

/-- The lanes of a mask end (R109): they leave their sub-group, every slot and the handler set, and their outstanding results are
discarded. -/
def endLanes (th : Thread) (m : LaneMask) : Thread :=
  let cut (g : Sub) : Sub := { g with mask := g.mask &&& ~~~m }
  let pend := (th.pend.map (Pend.discard m)).filter fun p => !p.gone
  let th := { th with live := th.live &&& ~~~m, grp := cut th.grp, rest := th.rest.map cut, pend := pend }
  let th := (List.range 8).foldl (fun t j => unexpect t j m) th
  let th := (List.range 8).foldl slotCheck th
  passBroadcast (tidy (handlerCheck th))

/-! ### Traps -/

/-- The code of a cause (R17). -/
def Cause.code : Cause → Nat
  | .none => 0
  | .reserved => 1
  | .stack => 2
  | .align => 3
  | .window => 4
  | .page => 5
  | .prot => 6
  | .brk => 7
  | .trap => 8
  | .data => 9

/-- The trap registers of a word (R65, R66): `s_trapop`, `s_trapd`, `s_trapa`, `s_trapb`, `s_trapf`. -/
structure TrapRegs where
  op : Word
  d : Word
  a : Word
  b : Word
  f : Word
  deriving DecidableEq, Repr

/-- The trap registers of a full-form word with a reason code (R65, R66). -/
def fullTrapRegs (w : DWord) (reason : Nat) : TrapRegs :=
  let r := Raw.unpack w
  ⟨BitVec.ofNat 32 (r.op.toNat + reason * 4096), r.dRaw.setWidth 32, r.aRaw.setWidth 32, r.bRaw.setWidth 32,
    BitVec.ofNat 32 (r.f.toNat + r.la.toNat * 2 ^ 18 + r.guard.toNat * 2 ^ 22 + (if r.neg then 2 ^ 25 else 0))⟩

/-- The trap registers of a paired word for one slot with a reason code (R65, R66). -/
def pairTrapRegs (w : DWord) (slot : Bool) (reason : Nat) : TrapRegs :=
  let x := if slot then w.extractLsb' 0 31 else w.extractLsb' 31 31
  ⟨BitVec.ofNat 32 (x.toNat / 2 ^ 24 % 128 + 1024 + reason * 4096), (x.extractLsb' 14 8).setWidth 32,
    (x.extractLsb' 6 8).setWidth 32, (x.extractLsb' 0 6).setWidth 32, (x.extractLsb' 22 2).setWidth 32⟩

/-- The code of a reason (R64). -/
def reasonCode : Reason → Nat
  | .opcode => 0
  | .rsvbit => 1
  | .code => 2
  | .operand => 3
  | .guard => 4
  | .lookahead => 5
  | .pairing => 6
  | .engine => 7

/-- Set the trap registers (R65). -/
def setTrapRegs (th : Thread) (c : Cause) (lane : Nat) (slot : Bool) (r : TrapRegs) : Thread :=
  { th with trapcause := BitVec.ofNat 32 (c.code + lane % 32 * 256 + (if slot then 8192 else 0)), trappc := th.grp.pc,
            trapop := r.op, trapd := r.d, trapa := r.a, trapb := r.b, trapf := r.f }

/-- The launch reports the first fault of the context (R332). -/
def recordFault (cx : Context) (cause wg troupe : Nat) (pc : DWord) : Context :=
  if cx.fault = none then { cx with fault := some ⟨cause, wg, troupe, pc⟩ } else cx

/-- The agent belongs to a workgroup. -/
def Agent.inWg (c w : Nat) : Agent → Bool
  | .troupe c' w' _ => c == c' && w == w'
  | .matrix c' w' => c == c' && w == w'
  | .copy c' w' => c == c' && w == w'
  | .control _ => false
  | .firmware _ => false

/-- Every other agent of a workgroup ends (R67, R154). -/
def endWorkgroupAgents (s : State) (c w : Nat) (why : Cause) : State :=
  { s with threads := s.threads.map fun u =>
      if u.agent.inWg c w && (u.status == .running || u.status == .idle)
      then { u with status := .faulted why, live := 0, rest := [], grp := { u.grp with mask := 0 }, pend := [] } else u }

/-- An agent ends with a cause (R65, R67, R126): a troupe ends and the launch reports it, a sequencer stops and its
workgroup ends, a control or firmware core is restarted (R403). -/
def endAgent (s : State) (c : Cause) : State :=
  let th := { s.th with status := .faulted c, live := 0, grp := { s.th.grp with mask := 0 }, rest := [], pend := [] }
  match s.th.agent with
  | .troupe c' w t =>
    { s with th := th, cx := recordFault s.cx c.code w t s.th.trappc, inputs := s.inputs ++ [.troupeEnd c' w t] }
  | .matrix c' w =>
    let s := endWorkgroupAgents { s with th := th, cx := recordFault s.cx 0x0a w 0 s.th.grp.pc } c' w c
    { s with inputs := s.inputs ++ [.workgroupEnd c' w] }
  | .copy c' w =>
    let s := endWorkgroupAgents { s with th := th, cx := recordFault s.cx 0x0a w 0 s.th.grp.pc } c' w c
    { s with inputs := s.inputs ++ [.workgroupEnd c' w] }
  | .control c' => { s with th := th, inputs := s.inputs ++ [.controlCoreRestart c'] }
  | .firmware d => { s with th := th, inputs := s.inputs ++ [.firmwareCoreRestart d] }

/-- The sub-group enters the user handler (R65, R433): all its lanes start at `s_traphdl` and form the handler set. -/
def enterHandler (th : Thread) : Thread :=
  { th with grp := { th.grp with pc := th.hdl, replay := none, st := .run }, handler := some ⟨th.grp.mask, none⟩ }

/-- A trap at a word inside a window ends the window at that word, and a result that has arrived is written (R61). -/
def retireNow (s : State) (m : LaneMask) : State :=
  let th := closeWindows s.th m
  let due (p : Pend) : Bool := p.lanes &&& m != 0 && (match p.owed with
    | .wait _ => false
    | .result _ aw _ => aw.isEmpty)
  let ws := (th.pend.filter due).flatMap fun p => match p.owed with
    | .wait _ => []
    | .result ws _ _ => ws
  (s.setTh { th with pend := th.pend.filter fun p => !(due p) }).writes ws

/-- A sub-group outside the handler set of a running handler (R126, R433). -/
def outsideHandler (th : Thread) : Bool :=
  match th.handler with
  | some h => th.grp.mask &&& h.set == 0
  | none => false

/-- Take a trap that goes to the user handler (R65, R67, R126, R433). Inside the handler, or without one, the agent ends;
a sub-group outside the handler set waits at its word until the handler state ends. -/
def takeTrap (s : State) (c : Cause) (lane : Nat) (slot : Bool) (r : TrapRegs) (log : List LogWord) : State :=
  let s := retireNow s s.th.grp.mask
  if outsideHandler s.th then s
  else
    let th := setTrapRegs s.th c lane slot r
    if th.handler.isSome || th.hdl = 0 || !th.agent.isTroupe then endAgent (s.setTh th) c
    else s.setTh (enterHandler { th with log := log })

/-- A trap of a full-form word at the lowest lane of `m`, or the lowest of the sub-group when `m` is empty (R65). -/
def trapWord (s : State) (i : Instr) (c : Cause) (m : LaneMask) (reason : Nat) (log : List LogWord) : Out :=
  let lane := if m = 0 then lowLane s.th.grp.mask else lowLane m
  .next (takeTrap s c lane false (fullTrapRegs ((encode i).getD 0) reason) log)

end Sys2Proof.Machine
end

