-- ==== Sys2Proof/Machine/Fabric.lean ====
section
/-!
DEFINITION. The sending side of the end-to-end layer (R277-R279, R388, R392): tags, streams, the source retry buffer and
the choice of a plane.
-/

namespace Sys2Proof.Machine

/-- A port at reset (R382, R396). -/
def Port.fresh : Port := ⟨true, 0, 0xf, .off, 0, 0, false, 0, 0, 0, false, 0, 0, [], 0, false⟩

/-- A stream that has sent nothing (R388). -/
def Flow.fresh : Flow := ⟨0, [], 0xffff, [], none, false, false, []⟩

/-- A stream that has brought nothing (R389). -/
def Inflow.fresh : Inflow := ⟨0, [], [], 0, false, none⟩

/-- A packet with every field zero (R277). -/
def packetBlank : Packet :=
  { typ := 0, tc := 0, src := 0, dst := 0, seq := 0, plane := 0, srcDie := 0, addr := 0, cap := 0, width := 0,
    op := 0, lanes := 0, regs := 0, regOff := 0, rel := false, scope := .tr, code := 0, newEpoch := false, ackTo := 0,
    group := 0, retire := 0, rvalid := false, severity := 0, congested := 0, tag := 0, data := [], resent := false }

/-- A port of the package. -/
def Fabric.port (f : Fabric) (n : Nat) : Port := tget Port.fresh f.ports n

/-- Change a port. -/
def Fabric.setPort (f : Fabric) (n : Nat) (p : Port) : Fabric := { f with ports := tset Port.fresh f.ports n p }

/-- An outgoing stream. -/
def Fabric.flow (f : Fabric) (key : Nat × Nat × Nat) : Flow := (lookupBy key f.flows).getD Flow.fresh

/-- Change an outgoing stream. -/
def Fabric.setFlow (f : Fabric) (key : Nat × Nat × Nat) (x : Flow) : Fabric := { f with flows := putBy key x f.flows }

/-- An incoming stream. -/
def Fabric.inflow (f : Fabric) (key : Nat × Nat × Nat) : Inflow := (lookupBy key f.inflows).getD Inflow.fresh

/-- Change an incoming stream. -/
def Fabric.setInflow (f : Fabric) (key : Nat × Nat × Nat) (x : Inflow) : Fabric :=
  { f with inflows := putBy key x f.inflows }

/-- State with the fabric changed. -/
def State.setFab (s : State) (f : Fabric) : State := { s with fabric := f }

/-- The flits of a packet: its header and its payload of 64-byte flits (R277). -/
def packetFlits (p : Packet) : Nat := 1 + ceilDiv p.data.length 64

/-- CTRL of a packet (R277): of an ACK and a DOWNDRAFT as R391 lays it out, else a layout that the spec leaves open (log entry 11). -/
def packetCtrlBits (p : Packet) : Nat :=
  if p.typ = 10 then p.ackTo.toNat + p.group % 4096 * 2 ^ 16 + p.retire.toNat * 2 ^ 28 + (if p.rvalid then 2 ^ 44 else 0)
  else if p.typ = 11 then p.congested % 4096 + p.severity % 8 * 2 ^ 12
  else (Config.packetCtrl [p.width, p.op, p.lanes.toNat, p.regs, p.regOff, if p.rel then 1 else 0, p.code, if p.newEpoch then 1 else 0, p.group,
    p.severity, p.congested, p.ackTo.toNat]).toNat

/-- The header of a packet without its LINKTAG (R277). -/
def packetBits (p : Packet) : Nat :=
  p.typ.toNat + p.tc.toNat * 2 ^ 4 + p.src % 4096 * 2 ^ 6 + p.dst % 4096 * 2 ^ 18 + p.seq.toNat * 2 ^ 30
    + min (ceilDiv p.data.length 64) 8 * 2 ^ 46 + p.srcDie.toNat * 2 ^ 50 + p.plane % 32 * 2 ^ 52 + p.addr.toNat % 2 ^ 57 * 2 ^ 64
    + p.cap.toNat * 2 ^ 128 + packetCtrlBits p % 2 ^ 64 * 2 ^ 256 + p.tag % 2 ^ 64 * 2 ^ 320

/-- The header flit of a packet (R277). -/
def packetHeader (p : Packet) : BitVec 512 :=
  BitVec.ofNat 512 (packetBits p + (Config.linkTag (BitVec.ofNat 384 (packetBits p)) p.data).toNat * 2 ^ 384)

/-- A header with a reserved TYPE or with a reserved field that is not zero (R277). -/
def headerReserved (h : BitVec 512) : Bool :=
  decide (12 ≤ (h.extractLsb' 0 4).toNat) || h.extractLsb' 57 7 != 0 || h.extractLsb' 121 7 != 0

/-- The flits of a packet (R277, R386). -/
def flitsOf (p : Packet) : List Flit := (List.range (packetFlits p)).map (Flit.mk p)

/-- The outgoing stream of a packet (R278, R393): of a multicast, that of its group. -/
def flowKey (p : Packet) : Nat × Nat × Nat := if p.tc = 3 then (0, 3, p.group) else (p.dst, p.tc.toNat, 0)

/-- Another copy of the same packet of a stream (R392): not an ACK or a DOWNDRAFT, which belong to none (R277). -/
def sameCopy (p q : Packet) : Bool := p.typ != 10 && p.typ != 11 && flowKey p == flowKey q && p.seq == q.seq

/-- The route set toward some packages (R382, R392): the ports in UP that no timeout has removed toward one of them. -/
def Fabric.routes (f : Fabric) (dsts : List Nat) : List Nat :=
  (List.range 24).filter fun n => (f.port n).st == .up && dsts.all fun d => !(f.excluded.contains (d, n))

/-- Room for some flits in the link retry buffer of a port (R386). -/
def Fabric.linkRoom (f : Fabric) (n flits : Nat) : Bool := decide ((f.port n).flits.length + flits ≤ 256)

/-- The planes that a packet toward a destination may take now. -/
def Fabric.planes (f : Fabric) (dst flits : Nat) : List Nat := (f.routes [dst]).filter fun n => f.linkRoom n flits

/-- The planes that a copy may take now (R392): another than that of the last copy, where the route set holds another. -/
def Fabric.planesFor (f : Fabric) (dsts : List Nat) (last : Option Nat) (flits : Nat) : List Nat :=
  let r := f.routes dsts
  let other := r.filter fun n => last != some n
  (if other.isEmpty then r else other).filter fun n => f.linkRoom n flits

/-- A packet whose answer retires it (R390): ATOM or REGWR. -/
def packetAnswered (p : Packet) : Bool := p.typ == 3 || p.typ == 5

/-- Whether the limits of R388 let a packet leave; one that an ACK has covered, and that awaits its answer, always may. -/
def Flow.mayLeave (x : Flow) (p : Packet) : Bool :=
  (decide ((p.seq - x.acked).toNat ≤ 4096) || decide (32768 ≤ (p.seq - x.acked).toNat))
    && (!packetAnswered p || decide ((x.unanswered.takeWhile fun q => q != p.seq).length < 1024))

/-- The bytes that the packets of a die take in its source retry buffer (R392). -/
def Fabric.retryUsed (f : Fabric) (die : BitVec 2) : Nat :=
  (f.flows.map fun x => (x.2.unretired.map fun e => if e.last.isSome && e.pkt.srcDie == die then 64 * packetFlits e.pkt else 0).sum).sum

/-- Room in the source retry buffer of 2 MiB of its die for a packet that is not in it yet (R392). -/
def Fabric.retryRoom (f : Fabric) (e : Sent) : Bool :=
  e.last.isSome || decide (f.retryUsed e.pkt.srcDie + 64 * packetFlits e.pkt ≤ 2 * 1024 * 1024)

/-- Change a packet of an outgoing stream. -/
def Fabric.setSent (f : Fabric) (key : Nat × Nat × Nat) (seq : BitVec 16) (g : Sent → Sent) : Fabric :=
  let x := f.flow key
  f.setFlow key { x with unretired := x.unretired.map fun e => if e.pkt.seq = seq then g e else e }

/-- A packet leaves on a plane (R279, R386). -/
def Fabric.emit (f : Fabric) (n : Nat) (p : Packet) : Fabric :=
  let port := f.port n
  f.setPort n { port with flits := port.flits ++ flitsOf { p with plane := n } }

/-- A free choice among the planes for a copy (R279; log entry 2); none while there is none. -/
def pickPlane (s : State) (dsts : List Nat) (last : Option Nat) (flits : Nat) : Option (Nat × State) :=
  let ps := s.fabric.planesFor dsts last flits
  ps[Config.freeNat s.free % max 1 ps.length]?.map fun n => (n, { s with free := s.free + 1 })

/-- The unicast copies of a multicast that is replayed (R393), each over a plane toward its destination; the destinations for which there
is none now. -/
def emitUnicast (e : Sent) : List Nat → State → List Nat × State
  | [], s => ([], s)
  | d :: r, s =>
    match pickPlane s [d] e.last (packetFlits e.pkt) with
    | none => let q := emitUnicast e r s; (d :: q.1, q.2)
    | some (n, s) => emitUnicast e r (s.setFab (s.fabric.emit n { e.pkt with dst := d }))

/-- The packages that a packet goes to (R282). -/
def Fabric.targets (f : Fabric) (p : Packet) : List Nat := if p.tc = 3 then tget [] f.groups p.group else [p.dst]

/-- A copy of a packet that waits leaves if it may; whether all of it has left. -/
def emitCopy (key : Nat × Nat × Nat) (e : Sent) (s : State) : Bool × State :=
  if !(s.fabric.flow key).mayLeave e.pkt || !s.fabric.retryRoom e then (false, s)
  else if e.to_.isEmpty then
    match pickPlane s (s.fabric.targets e.pkt) e.last (packetFlits e.pkt) with
    | none => (false, s)
    | some (n, s) => (true, s.setFab ((s.fabric.setSent key e.pkt.seq fun e =>
        { e with pkt := { e.pkt with plane := n }, port := some n, last := some n }).emit n e.pkt))
  else
    let q := emitUnicast e e.to_ s
    let port := if q.1.isEmpty then e.last else none
    (q.1.isEmpty, q.2.setFab (q.2.fabric.setSent key e.pkt.seq fun e => { e with to_ := q.1, port := port }))

/-- Send the packets of a stream that still wait at the source, in SEQ order, while the limits and the ports allow. -/
def pumpWith (key : Nat × Nat × Nat) : List Sent → State → State
  | [], s => s
  | e :: r, s =>
    match e.port with
    | some _ => pumpWith key r s
    | none =>
      let q := emitCopy key e s
      if q.1 then pumpWith key r q.2 else q.2

/-- Send what waits in one stream. -/
def pump (s : State) (key : Nat × Nat × Nat) : State := pumpWith key (s.fabric.flow key).unretired s

/-- Send what waits in every stream. -/
def pumpAll (s : State) : State := s.fabric.flows.foldl (fun s x => pump s x.1) s

/-- A new source tag (R277). -/
def newTag (s : State) : Nat × State :=
  (s.fabric.nextTag, s.setFab { s.fabric with nextTag := s.fabric.nextTag + 1 })

/-- Put a packet into its stream (R278, R388): it takes the next SEQ, NEWEPOCH when the stream starts again (R392), and
leaves when it may. DST of a multicast names its group (R277). -/
def sendFrom (s : State) (die : Nat) (p : Packet) : State :=
  let key := flowKey p
  let x := s.fabric.flow key
  let p := { p with src := s.pkg, dst := if p.tc = 3 then p.group else p.dst, srcDie := BitVec.ofNat 2 die, seq := x.next,
                    newEpoch := x.newEpoch }
  let y := { x with next := x.next + 1, newEpoch := false, unretired := x.unretired ++ [⟨p, none, none, []⟩],
                    unanswered := if packetAnswered p then x.unanswered ++ [p.seq] else x.unanswered }
  pump (s.setFab (s.fabric.setFlow key y)) key

/-- Put a packet of the agent that issues into its stream. -/
def sendPacket (s : State) (p : Packet) : State := sendFrom s s.th.ident.die p

end Sys2Proof.Machine
end

