-- ==== Sys2Proof/Machine/Mem.lean ====
section
/-!
DEFINITION. Memory: bytes, marks and keys at the places of record (R249, R351, R397), homes (R363), the five-level walk
and the TLBs (R343-R354), fault records (R355), the local windows (R20, R21), and the caches that serve reads (R255, R428).
-/

namespace Sys2Proof.Machine

/-! ### Bytes at their places of record -/

/-- The address is a host address (R344). -/
def isHost (pa : Nat) : Bool := decide (2 ^ 51 ≤ pa % 2 ^ 52)

/-- A byte of memory as stored; an unlisted byte is 0 (log entry 5). -/
def rawByte (s : State) (pa : Nat) : Byte := tget 0 s.mem pa

/-- The plaintext of a line was written under this key index (R351). -/
def keyMatches (s : State) (key pa : Nat) : Bool := isHost pa || tget 0 s.lineKey (pa / 128) == key

/-- The ciphertext of a line (R351): of an erased key, the bytes themselves (R412). -/
def cipherLine (s : State) (line : Nat) : List Byte :=
  let raw := (List.range 128).map fun i => rawByte s (128 * line + i)
  let k := tget 0 s.lineKey line
  if k = 2048 then raw else Config.xtsEncrypt (tget 0 s.keys k) line raw

/-- A line that was written under another key index, as a read under `key` decrypts it (R351). -/
def foreignLine (s : State) (key line : Nat) : List Byte :=
  let l := Config.xtsDecrypt (tget 0 s.keys key) line (cipherLine s line)
  (List.range 128).map fun i => (l[i]?).getD 0

/-- A byte of memory read under a key index at its place of record (R249, R351). -/
def memByte (s : State) (key pa : Nat) : Byte :=
  if keyMatches s key pa then rawByte s pa else ((foreignLine s key (pa / 128))[pa % 128]?).getD 0

/-- `n` bytes of memory from an origin address, under a key index. -/
def memBytes (s : State) (key pa n : Nat) : List Byte := (List.range n).map fun i => memByte s key (pa + i)

/-- `n` bytes of memory as a number (R26). -/
def memNat (s : State) (key pa n : Nat) : Nat := ofBytes (memBytes s key pa n)

/-- Put bytes into memory as stored. -/
def putRaw (m : TMap Byte) (pa : Nat) : List Byte → TMap Byte
  | [] => m
  | b :: r => putRaw (tset 0 m pa b) (pa + 1) r

/-- The lines that `n` bytes touch. -/
def linesOf (pa n : Nat) : List Nat := if n = 0 then [] else (List.range ((pa + n - 1) / 128 - pa / 128 + 1)).map (· + pa / 128)

/-- Before a write under a key index, a line of another index becomes what that index reads (R351). -/
def rekey (s : State) (key line : Nat) : State :=
  if isHost (128 * line) then s
  else if keyMatches s key (128 * line) then s
  else { s with mem := putRaw s.mem (128 * line) (foreignLine s key line), lineKey := tset 0 s.lineKey line key }

/-- Write bytes to memory at their place of record under a key index. -/
def memPut (s : State) (key pa : Nat) (data : List Byte) : State :=
  let s := (linesOf pa data.length).foldl (fun s l => rekey s key l) s
  { s with mem := putRaw s.mem pa data }

/-- The 16-byte units that `n` bytes touch (R397). -/
def unitsOf (pa n : Nat) : List Nat := if n = 0 then [] else (List.range ((pa + n - 1) / 16 - pa / 16 + 1)).map (· + pa / 16)

/-- A unit that the bytes touch is marked as a data error. -/
def anyMark (m : TMap Bool) (pa n : Nat) : Bool := (unitsOf pa n).any fun u => tget false m u

/-- A write of `n` bytes marks its units when its data are marked, and clears the mark of a unit only when clean data cover
all of it (R398). -/
def putMark (m : TMap Bool) (pa n : Nat) (mark : Bool) : TMap Bool :=
  (unitsOf pa n).foldl (fun m u =>
    if mark then tset false m u true
    else if decide (pa ≤ 16 * u) && decide (16 * u + 16 ≤ pa + n) then tset false m u false else m) m

/-! ### Homes -/

/-- The current home of an address, package and die (R363); none for host memory. -/
def homeOf (s : State) (pa : Nat) : Option (Nat × Nat) :=
  if isHost pa then none
  else
    match tget 0 s.trans.homes (pa / 65536) with
    | 0 => some (pa / 2 ^ 39 % 4096, pa / 2 ^ 37 % 4)
    | h + 1 => some (h / 4, h % 4)

/-- The address is homed in this package. -/
def homedHere (s : State) (pa : Nat) : Bool :=
  match homeOf s pa with
  | some (p, _) => p == s.pkg
  | none => false

/-- The origin directory: the top 16 MiB of each die's range (R344). -/
def inDirectory (pa : Nat) : Bool := !isHost pa && decide (2 ^ 37 - 2 ^ 24 ≤ pa % 2 ^ 37)

/-- A home counts a request of a unit, for up to 8 requesters in least-recently-used order (R364). -/
def noteRequest (s : State) (pa pkg die : Nat) : State :=
  let u := pa / 65536
  let l := tget [] s.trans.counts u
  let who := 4 * pkg + die
  let n := (lookupBy who l).getD 0
  { s with trans := { s.trans with counts := tset [] s.trans.counts u (((who, n + 1) :: dropBy who l).take 8) } }

/-- A request of a unit comes from a core of this package (R365). -/
def noteAsker (s : State) (pa core : Nat) : State :=
  let u := pa / 65536
  let l := tget [] s.trans.askers u
  { s with trans := { s.trans with askers := tset [] s.trans.askers u (putBy core ((lookupBy core l).getD 0 + 1) l) } }

/-! ### Lines -/

/-- Bytes of a cached line. -/
def CacheLine.read (c : CacheLine) (pa n : Nat) : List Byte := toBytes n (c.bytes / 256 ^ (pa - c.addr))

/-- A unit that the bytes touch is marked in a cached line. -/
def CacheLine.marked (c : CacheLine) (pa n : Nat) : Bool := (unitsOf (pa - c.addr) n).any fun u => c.marks.testBit u

/-- A line holds this address under this key index (R351). -/
def CacheLine.holds (c : CacheLine) (pa key : Nat) : Bool := c.addr == pa / 128 * 128 && c.key == key

/-- A write of bytes at a place (R398). -/
def MemWrite.one (pa : Nat) (data : List Byte) (mark : Bool) : MemWrite :=
  let us := unitsOf pa data.length
  { runs := [(pa, data)], marks := if mark then us else [],
    clears := if mark then [] else us.filter fun u => decide (pa ≤ 16 * u) && decide (16 * u + 16 ≤ pa + data.length) }

/-- One write and then another, as one (R113, R398). -/
def MemWrite.then (w x : MemWrite) : MemWrite :=
  { runs := w.runs ++ x.runs, marks := w.marks.filter (fun u => !x.clears.contains u) ++ x.marks,
    clears := w.clears.filter (fun u => !x.marks.contains u) ++ x.clears }

/-- Where a write begins. -/
def MemWrite.at_ (w : MemWrite) : Nat := (w.runs.head?.map Prod.fst).getD 0

/-- A run of bytes reaches a line: the bytes that fall in it. -/
def patchRun (addr : Nat) (old : List Byte) (r : Nat × List Byte) : List Byte :=
  let lo := r.1 - addr
  let b := (r.2.drop (addr - r.1)).take (128 - lo)
  if 128 ≤ lo then old else old.take lo ++ b ++ old.drop (lo + b.length)

/-- A write reaches a cached line: the bytes that fall in it, and the marks of its units. -/
def CacheLine.take (c : CacheLine) (w : MemWrite) : CacheLine :=
  let u0 := c.addr / 16
  let bit (u : Nat) : Bool := w.marks.contains (u0 + u) || (c.marks.testBit u && !w.clears.contains (u0 + u))
  { c with bytes := ofBytes (w.runs.foldl (patchRun c.addr) (toBytes 128 c.bytes)),
           marks := (List.range 8).foldl (fun m u => if bit u then m + 2 ^ u else m) 0 }

/-- A line of memory, as a cache takes it. -/
def memLine (s : State) (key pa : Nat) (hint : Hint) (toucher : Nat) : CacheLine :=
  let base := pa / 128 * 128
  { addr := base, key := key, bytes := memNat s key base 128,
    marks := (List.range 8).foldl (fun m u => if tget false s.memMark (base / 16 + u) then m + 2 ^ u else m) 0,
    hint := hint, toucher := toucher }

/-! ### Die views -/

/-- The view of a die. -/
def State.die (s : State) (d : Nat) : DieView := tget DieView.fresh s.dies d

/-- Change the view of a die. -/
def State.setDie (s : State) (d : Nat) (v : DieView) : State := { s with dies := tset DieView.fresh s.dies d v }

/-- Count one more write homed on die h in a clock (R255). -/
def tick (clock : List Nat) (h : Nat) : List Nat := clock.set h ((clock[h]?).getD 0 + 1)

/-- A die applies a write to its copies (R258). -/
def DieView.apply (v : DieView) (u : DieUpdate) : DieView :=
  { v with rdc := v.rdc.map fun c => if c.key == u.key then c.take u.write else c, clock := tick v.clock u.home }

/-- A die's clock covers a stamp (R258). -/
def covers (clock stamp : List Nat) : Bool := (List.range 4).all fun i => decide ((stamp[i]?).getD 0 ≤ (clock[i]?).getD 0)

/-- A die applies everything that it still holds, in order (R258, R259). -/
def drainDie (s : State) (d : Nat) : State :=
  let v := s.die d
  s.setDie d (v.updates.foldl DieView.apply { v with updates := [] })

/-- A line enters the RDC of a die, which holds 32 MiB (R1); which line a full one evicts is open (R428; log entry 26). -/
def rdcInsert (s : State) (d : Nat) (c : CacheLine) : State :=
  let v := s.die d
  let others := v.rdc.filter fun x => !(x.addr == c.addr && x.key == c.key)
  if others.length < 262144 then s.setDie d { v with rdc := c :: others }
  else { (s.setDie d { v with rdc := c :: removeAt others (Config.freeNat s.free % others.length) }) with free := s.free + 1 }

/-- What a write does to the bytes and marks of memory at their place of record (R249, R351, R398). -/
def memApply (s : State) (key : Nat) (w : MemWrite) : State :=
  let s := w.runs.foldl (fun s r => memPut s key r.1 r.2) s
  { s with memMark := w.clears.foldl (fun m u => tset false m u false) (w.marks.foldl (fun m u => tset false m u true) s.memMark) }

/-- A write that die h of the package has performed is to be applied by the other dies after what the die `by_` has applied (R258). The
home first applies the writes that it still holds, since one of them may precede this write. -/
def homeSpread (s : State) (key : Nat) (w : MemWrite) (h by_ : Nat) : State :=
  let s := drainDie s h
  let stamp := (s.die by_).clock
  let s := s.setDie h { s.die h with clock := tick (s.die h).clock h }
  let others := (List.range 4).filter fun d => d != h
  others.foldl (fun s d =>
    let v := s.die d
    { (s.setDie d { v with updates := v.updates ++ [⟨key, w, h, stamp⟩] }) with inputs := s.inputs ++ [.dieApplyWrite d] }) s

/-- A write is performed at its home (R249, R258), by a requester that works for a die: the bytes and marks change, the
home's clock counts it, and the other dies of the package are to apply it after what the die `by_` has applied. -/
def homePerform (s : State) (key : Nat) (w : MemWrite) (pkg die by_ : Nat) : State :=
  let s := noteRequest (memApply s key w) w.at_ pkg die
  match homeOf s w.at_ with
  | none => s
  | some (_, h) => homeSpread s key w h by_

/-- A write of bytes at one place is performed at its home. -/
def homeWriteBy (s : State) (pa key : Nat) (data : List Byte) (mark : Bool) (pkg die by_ : Nat) : State :=
  homePerform s key (.one pa data mark) pkg die by_

/-- A write of a requester of this package. -/
def homeWrite (s : State) (pa key : Nat) (data : List Byte) (mark : Bool) (pkg die : Nat) : State :=
  homeWriteBy s pa key data mark pkg die die

/-! ### Translation -/

/-- The cause and subcode of a failed translation (R346). -/
abbrev Refused := Cause × Nat

/-- The entry of an address space (R352), as a number of 512 bits. -/
def spaceEntry (s : State) (asid : Nat) : Nat := memNat s 0 (s.trans.astbase.toNat + 64 * asid) 64

/-- The current generation of an address space (R352). -/
def spaceGen (s : State) (asid : Nat) : Nat := memNat s 0 (s.trans.astbase.toNat + 64 * asid + 8) 4

/-- A key index is granted to an address space (R350). -/
def keyGranted (s : State) (asid key : Nat) : Bool :=
  let base := bitsN (spaceEntry s asid) 184 128
  (memByte s 0 (base + key / 8)).getLsbD (key % 8)

/-- The lowest address bit that a level indexes, and how many bits it indexes (R343). -/
def levelShift : Nat → Nat × Nat
  | 0 => (16, 5)
  | 1 => (21, 5)
  | 2 => (26, 7)
  | 3 => (33, 12)
  | _ => (45, 12)

/-- An entry breaks R345 at its level: order 4 of R346. -/
def badEntry (level e : Nat) : Bool :=
  let leaf := bitsN e 6 6 == 1
  bitsN e 63 63 == 1 || (leaf && level == 4) || (!leaf && level == 0)
    || (!leaf && (bitsN e 5 1 != 0 || bitsN e 7 7 != 0 || bitsN e 62 52 != 0))
    || (!leaf && bitsN e 51 8 * 256 % (8 * 2 ^ (levelShift (level - 1)).2) != 0)
    || (leaf && bitsN e 51 8 * 256 % 2 ^ (levelShift level).1 != 0)
    || (leaf && bitsN e 2 2 == 1 && bitsN e 1 1 == 0)

/-- An entry of a table as a walk reads it, unless the walk cache holds it: one that is refused (orders 2 to 4 of R346), or its value. -/
def readEntry (s : State) (known : List (Nat × Nat)) (level at_ : Nat) : Except Refused Nat :=
  match lookupBy at_ known with
  | some e => .ok e
  | none =>
    if !homedHere s at_ then .error (.page, 2)
    else
      let e := memNat s 0 at_ 8
      if bitsN e 0 0 = 0 then .error (.page, 0) else if badEntry level e then .error (.page, 1) else .ok e

/-- The leaf entry of an address: its own address, its value and its level, from a level down; and the pointer entries on the way, by
address (R346, R347). `known` is what the walk cache holds. -/
def walkFrom (s : State) (known : List (Nat × Nat)) (va : Nat) : Nat → Nat → Except Refused (Nat × Nat × Nat) × List (Nat × Nat)
  | level, table =>
    let sh := levelShift level
    let at_ := table + 8 * (va / 2 ^ sh.1 % 2 ^ sh.2)
    match readEntry s known level at_ with
    | .error r => (.error r, [])
    | .ok e =>
      if bitsN e 6 6 = 1 then (.ok (at_, e, level), [])
      else
        match level with
        | 0 => (.error (.page, 1), [])
        | l + 1 =>
          let r := walkFrom s known va l (bitsN e 51 8 * 256)
          (r.1, (at_, e) :: r.2)

/-- What a translation is for (R346): the kind of access, whether the agent may use PRIV pages, the KEY of the record of
an engine command, and whether R125 refuses it on host memory. -/
structure Purpose where
  kind : Access
  priv : Bool
  recKey : Option Nat
  hostRefused : Bool
  deriving DecidableEq, Repr

/-- The access needs read permission. -/
def accessReads : Access → Bool
  | .load => true
  | .atomic => true
  | .copyRead => true
  | .store => false
  | .fetch => false
  | .copyWrite => false

/-- The access needs write permission, and sets D (R346, R348). -/
def accessWrites : Access → Bool
  | .store => true
  | .atomic => true
  | .copyWrite => true
  | .load => false
  | .fetch => false
  | .copyRead => false

/-- The access is a fetch. -/
def accessFetches : Access → Bool
  | .fetch => true
  | .load => false
  | .store => false
  | .atomic => false
  | .copyRead => false
  | .copyWrite => false

/-- Orders 5 to 8, 10 and 11 of R346, which a cached translation answers too. -/
def leafRefusal (p : Purpose) (t : TlbEntry) : Option Refused :=
  if t.priv && !p.priv then some (.prot, 6)
  else if accessReads p.kind && !t.r then some (.prot, 3)
  else if accessWrites p.kind && !t.w then some (.prot, 4)
  else if accessFetches p.kind && !t.x then some (.prot, 5)
  else if (match p.recKey with | some k => k != t.key | none => false) then some (.prot, 8)
  else if p.hostRefused && isHost t.pa then some (.prot, 10)
  else none

/-- Orders 5 to 11 of R346 on a leaf that the walker has read: the grant of its key comes before orders 10 and 11. -/
def walkRefusal (s : State) (p : Purpose) (t : TlbEntry) : Option Refused :=
  match leafRefusal { p with recKey := none, hostRefused := false } t with
  | some r => some r
  | none => if !keyGranted s t.asid t.key then some (.prot, 7) else leafRefusal p t

/-- The translation that a leaf gives (R345, R348). -/
def leafEntry (asid gen va level e : Nat) : TlbEntry :=
  let sz := 2 ^ (levelShift level).1
  { asid := asid, gen := gen, va := va / sz * sz, size := sz, pa := bitsN e 51 8 * 256, r := bitsN e 1 1 == 1,
    w := bitsN e 2 2 == 1, x := bitsN e 3 3 == 1, priv := bitsN e 7 7 == 1, d := bitsN e 5 5 == 1, key := bitsN e 62 52 }

/-- A TLB entry serves an access (R348, R353). -/
def TlbEntry.serves (t : TlbEntry) (asid gen va : Nat) (k : Access) : Bool :=
  t.asid == asid && t.gen == gen && decide (t.va ≤ va) && decide (va < t.va + t.size) && (t.d || !accessWrites k)

/-- The entries of a TLB: 1,024 in a walk-ahead engine, 128 elsewhere (R353). -/
def tlbCapacity (ix : Nat) : Nat := if 200 ≤ ix ∧ ix < 300 then 1024 else 128

/-- The place holds code of a live context (R410). -/
def codeHeld (s : State) (pa : Nat) : Bool :=
  (s.cx :: s.cxs).any fun x => x.live && x.codeUnits.contains (pa / 65536)

/-- The address lies in the code region of a live context of an address space (R410). -/
def measured (s : State) (asid va : Nat) : Bool :=
  (s.cx :: s.cxs).any fun x => x.live && x.asid == asid && decide (x.codeLo ≤ va) && decide (va < x.codeHi)

/-- A translation as a live context's measurement leaves it (R410): nobody writes to a code region, through whatever address and whatever
address space, and a context fetches nowhere else. -/
def TlbEntry.guarded (t : TlbEntry) (s : State) (asid va : Nat) (p : Purpose) : TlbEntry :=
  { t with w := t.w && !measured s asid va && !codeHeld s (t.pa + (va - t.va)),
           x := t.x && (p.priv || (decide (s.cx.codeLo ≤ va) && decide (va < s.cx.codeHi))) }

/-- The die of a TLB: of a core, a walk-ahead engine, a control core or a firmware core; the front end works on die 0. -/
def tlbDie (ix : Nat) : Nat :=
  if ix < 200 then ix / 48 else if ix < 300 then (ix - 200) / 6 % 4 else if ix < 400 then (ix - 300) / 6 % 4 else if ix < 500 then ix - 400 else 0

/-- The walker that serves a TLB (R347): one of the four of its cluster, the same one each time (log entry 6). Firmware cores and the front
end have none. -/
def walkerOf (ix : Nat) : Option Nat :=
  if ix < 192 then some (4 * (ix / 8) + ix % 4)
  else if 200 ≤ ix ∧ ix < 224 then some (4 * (ix - 200))
  else if 300 ≤ ix ∧ ix < 324 then some (4 * (ix - 300))
  else none

/-- What a walker's cache knows of an address space in its current generation (R347). -/
def knownEntries (s : State) (ix asid : Nat) : List (Nat × Nat) :=
  match walkerOf ix with
  | none => []
  | some w => ((tget [] s.walkers w).filter fun e => e.asid == asid && e.gen == spaceGen s asid).map fun e => (e.addr, e.value)

/-- A walker caches the pointer entries of a walk; its cache holds 64 (R347). -/
def cacheWalk (s : State) (ix asid : Nat) (ptrs : List (Nat × Nat)) : State :=
  match walkerOf ix with
  | none => s
  | some w =>
    let new := ptrs.map fun e => (⟨asid, spaceGen s asid, e.1, e.2⟩ : WalkEntry)
    let old := (tget [] s.walkers w).filter fun e => !new.contains e
    { s with walkers := tset [] s.walkers w ((new ++ old).take 64) }

/-- The homes count what a walk reads: the entries that no walk cache holds (R347, R364). -/
def noteWalk (s : State) (die : Nat) (known : List (Nat × Nat)) (ptrs : List (Nat × Nat)) : State :=
  (ptrs.filter fun e => !known.any fun k => k.1 == e.1).foldl (fun s e => noteRequest s e.1 s.pkg die) s

/-- The walk of R346 to R348: it sets A, and D for a write, in the leaf, and installs the translation. -/
def walk (s : State) (ix asid va : Nat) (p : Purpose) : Except Refused TlbEntry × State :=
  let known := knownEntries s ix asid
  let w := walkFrom s known va 4 (bitsN (spaceEntry s asid) 56 0)
  let leaf := match w.1 with
    | .ok (at_, e, _) => [(at_, e)]
    | .error _ => []
  let s := noteWalk (cacheWalk s ix asid w.2) (tlbDie ix) known (w.2 ++ leaf)
  match w.1 with
  | .error r => (.error r, s)
  | .ok (at_, e, level) =>
    match walkRefusal s p ((leafEntry asid (spaceGen s asid) va level e).guarded s asid va p) with
    | some r => (.error r, s)
    | none =>
      let want := setBitsN (setBitsN e 4 4 1) 5 5 (if accessWrites p.kind then 1 else bitsN e 5 5)
      let s := if want = e then s else homeWrite s at_ 0 (toBytes 8 want) false s.pkg (tlbDie ix)
      let t := leafEntry asid (spaceGen s asid) va level want
      let old := (tget [] s.tlbs ix).filter fun u => !(u.asid == asid && u.va == t.va && u.size == t.size)
      (.ok t, { s with tlbs := tset [] s.tlbs ix ((t :: old).take (tlbCapacity ix)) })

/-- The package may exchange traffic with another (R414). -/
def trusted (s : State) (p : Nat) : Bool := p == s.pkg || tget false s.trust.table p

/-- What a translated address reaches: a home in a package outside the pod trust table is refused with PROT (R414). The record's
subcode is open (log entry 2). -/
def reach (s : State) (pa key : Nat) : Except Refused (Nat × Nat) :=
  match homeOf s pa with
  | some (p, _) => if trusted s p then .ok (pa, key) else .error (.prot, Config.trustSubcode % 16)
  | none => .ok (pa, key)

/-- Translate an address through a TLB, walking when no entry serves (R346, R348, R353). -/
def translate (s : State) (ix asid va : Nat) (p : Purpose) : Except Refused (Nat × Nat) × State :=
  if 2 ^ 57 ≤ va then (.error (.prot, 9), s)
  else
    match (tget [] s.tlbs ix).find? fun t => t.serves asid (spaceGen s asid) va p.kind with
    | some t =>
      match leafRefusal p (t.guarded s asid va p) with
      | some r => (.error r, s)
      | none => (reach s (t.pa + (va - t.va)) t.key, s)
    | none =>
      match walk s ix asid va p with
      | (.error r, s) => (.error r, s)
      | (.ok t, s) => (reach s (t.pa + (va - t.va)) t.key, s)

/-- The address space of the agent that issues (R324, log entry 9). -/
def curAsid (s : State) : Nat :=
  match s.th.agent with
  | .troupe _ _ _ => s.cx.asid
  | .matrix _ _ => s.cx.asid
  | .copy _ _ => s.cx.asid
  | .control _ => s.th.asid
  | .firmware _ => s.th.asid

/-- The TLB of the agent that issues (R353). -/
def curTlb (s : State) : Nat :=
  match s.th.agent with
  | .troupe _ _ _ => s.th.ident.core
  | .matrix _ _ => s.th.ident.core
  | .copy _ _ => s.th.ident.core
  | .control c => 300 + c
  | .firmware d => 400 + d

/-- Cluster control cores and firmware cores may use PRIV pages (R345). -/
def Agent.privileged : Agent → Bool
  | .troupe _ _ _ => false
  | .matrix _ _ => false
  | .copy _ _ => false
  | .control _ => true
  | .firmware _ => true

/-! ### Fault records -/

/-- The AGENT code of a word's fault (R355). -/
def Agent.faultCode : Agent → Nat
  | .troupe _ _ _ => 0
  | .matrix _ _ => 0
  | .copy _ _ => 0
  | .control _ => 4
  | .firmware _ => 4

/-- The bytes of a fault record (R355). -/
def faultRecord (va asid cause sub agent : Nat) (reply : Bool) (ctx wgl core : Nat) (ovf : Bool) (id : Nat) : List Byte :=
  toBytes 32 (va % 2 ^ 57 + asid % 65536 * 2 ^ 64 + cause * 2 ^ 80 + sub * 2 ^ 88 + agent * 2 ^ 92
    + (if reply then 2 ^ 95 else 0) + ctx % 128 * 2 ^ 96 + wgl % 256 * 2 ^ 103 + core % 256 * 2 ^ 111
    + (if ovf then 2 ^ 127 else 0) + id % 2 ^ 32 * 2 ^ 128)

/-- The fault ring holds 1,024 unread records (R355). -/
def ringFull (s : State) : Bool := decide (1024 ≤ (s.trans.pfqtail - s.trans.pfqhead).toNat)

/-- Write a fault record (R355). One that awaits an answer is not written while the ring is full, and any other is then dropped. -/
def writeRecord (s : State) (va asid : Nat) (c : Refused) (agent ctx wgl core : Nat) (kind : Access) (reply : Bool) :
    Option (Nat × State) :=
  if ringFull s then
    if reply then none else some (0, { s with trans := { s.trans with pfqOvf := true } })
  else
    let t := s.trans
    let rec_ := faultRecord va asid c.1.code c.2 agent reply ctx wgl core t.pfqOvf t.nextId
    let s := homeWrite s (t.pfqbase.toNat + 32 * (t.pfqtail.toNat % 1024)) 0 rec_ false s.pkg (core / 48 % 4)
    let w : List FaultWait := if reply then [⟨t.nextId, va, agent, ctx, wgl, core, kind, none⟩] else []
    some (t.nextId, { s with trans := { s.trans with
      pfqtail := t.pfqtail + 1, nextId := (t.nextId + 1) % 2 ^ 32, pfqOvf := false, waits := s.trans.waits ++ w } })

/-- Write the record of a fault (R355): a PAGE record awaits its answer, a PROT record does not. -/
def writeFault (s : State) (va asid : Nat) (c : Refused) (agent ctx wgl core : Nat) (kind : Access) : Option (Nat × State) :=
  writeRecord s va asid c agent ctx wgl core kind (c.1 == .page)

/-! ### Workgroups and windows -/

/-- A workgroup of the package: the current one, or one of the others. -/
def getWg (s : State) (c w : Nat) : Option Workgroup :=
  if s.wg.placed && s.wg.ctx == c && s.wg.wgl == w then some s.wg
  else s.wgs.find? fun g => g.ctx == c && g.wgl == w

/-- The workgroups of the package that have been placed. -/
def allWgs (s : State) : List Workgroup := (if s.wg.placed then [s.wg] else []) ++ s.wgs

/-- Change a workgroup. -/
def putWg (s : State) (g : Workgroup) : State :=
  if s.wg.placed && s.wg.ctx == g.ctx && s.wg.wgl == g.wgl then { s with wg := g }
  else { s with wgs := s.wgs.map fun h => if h.ctx == g.ctx && h.wgl == g.wgl then g else h }

/-- Bytes of a scratchpad. -/
def Workgroup.bytes (g : Workgroup) (off n : Nat) : List Byte := (List.range n).map fun i => tget 0 g.scratch (off + i)

/-- Write bytes to a scratchpad, with the marks of their units (R398). -/
def Workgroup.put (g : Workgroup) (off : Nat) (data : List Byte) (mark : Bool) : Workgroup :=
  { g with scratch := putRaw g.scratch off data, scratchMark := putMark g.scratchMark off data.length mark }

/-- The agent has a workgroup. -/
def Agent.hasWg : Agent → Bool
  | .troupe _ _ _ => true
  | .matrix _ _ => true
  | .copy _ _ => true
  | .control _ => false
  | .firmware _ => false

/-- An offset of the register window names a place (R21); a full-bit word only where its registers exist. -/
def windowHas (nregs off width : Nat) : Bool :=
  let pages := 32 * ((nregs + 31) / 32)
  if off < 0x8000 then decide (off % 1024 / 4 + (width + 3) / 4 ≤ pages)
  else if off < 0x8280 then true
  else if off < 0x8400 then false
  else if off < 0x8800 then decide (32 * (off % 32 / 4 + (width + 3) / 4) ≤ pages)
  else false

/-- The place that an address of a local window names (R20, R21), or cause WINDOW. -/
def windowPlace (s : State) (va width : Nat) : Except Refused Place :=
  let w := bitsN va 51 48
  let off := va % 2 ^ 20
  if bitsN va 47 23 ≠ 0 ∨ !s.th.agent.hasWg then .error (.window, 0)
  else if w = 0 ∧ bitsN va 22 20 = 0 ∧ off + width ≤ s.wg.scratchSize then .ok (.scratch s.wg.ctx s.wg.wgl off)
  else if w = 1 ∧ s.th.agent.isTroupe ∧ va % 2 ^ 23 < 0x8800 ∧ windowHas s.th.nregs off width then .ok (.window off)
  else if w = 2 ∧ bitsN va 22 20 < s.cx.stages ∧ off + width ≤ s.wg.scratchSize then
    .ok (.scratch s.wg.ctx (s.wg.cohort * s.cx.stages + bitsN va 22 20) off)
  else .error (.window, 0)

/-- The address lies in a local window (R20, R343). -/
def isWindow (va : Nat) : Bool := bitsN va 56 52 == 31 && decide (va < 2 ^ 57)

/-! ### The register window -/

/-- A register as earlier words in program order leave it (R22): a result that its window still holds back counts. `f` picks the
writes of the register. -/
def latest {α : Type} (th : Thread) (f : Wr → Option α) (x : α) : α :=
  th.pend.foldl (fun acc p => match p.owed with
    | .wait _ => acc
    | .result ws _ _ => ws.foldl (fun acc w => (f w).getD acc) acc) x

/-- Register n of lane l, and its data-error mark (R22). -/
def latestV (th : Thread) (l n : Nat) : Word × Bool :=
  latest th (fun w => match w with
    | .v l' n' x m => if l' = l ∧ n' = n then some (x, m) else none
    | _ => none) (th.rdV l n, th.markV l n)

/-- Uniform register n, and its mark (R22). -/
def latestK (th : Thread) (n : Nat) : Word × Bool :=
  latest th (fun w => match w with
    | .k n' x m => if n' = n then some (x, m) else none
    | _ => none) (th.rdK n, th.markK n)

/-- Predicate n of lane l, and its mark (R22). -/
def latestP (th : Thread) (l n : Nat) : Bool × Bool :=
  latest th (fun w => match w with
    | .p l' n' x m => if l' = l ∧ n' = n then some (x, m) else none
    | _ => none) (th.rdP l n, th.markedP l n)

/-- Register n of lane l is full (R11, R22). -/
def latestFull (th : Thread) (l n : Nat) : Bool :=
  latest th (fun w => match w with
    | .v l' n' _ _ => if l' = l ∧ n' = n then some true else none
    | _ => none) (!th.isEmpty l n)

/-- The word of the register window at an offset that is a multiple of 4, and its data-error mark (R21, R75). -/
def windowWord (th : Thread) (off : Nat) : Word × Bool :=
  if off < 0x8000 then latestV th (off / 1024) (off % 1024 / 4)
  else if off < 0x8200 then latestK th ((off - 0x8000) / 4)
  else if off < 0x8280 then
    let ps := (List.range 7).map fun n => latestP th ((off - 0x8200) / 4) n
    (BitVec.ofNat 32 ((List.range 7).foldl (fun x n => if ((ps[n]?).map Prod.fst).getD false then x + 2 ^ n else x) 0),
      ps.any Prod.snd)
  else
    let l := (off - 0x8400) / 32
    let b := off % 32 / 4 * 32
    (BitVec.ofNat 32 ((List.range 32).foldl (fun x n => if latestFull th l (b + n) then x + 2 ^ n else x) 0), false)

/-- A load of the register window meets an empty register, or a register or full bit that an earlier word has still to write, and
waits (R12, R21, R22). -/
def windowWaits (th : Thread) (off width : Nat) : Bool :=
  (List.range ((width + 3) / 4)).any fun i =>
    let at_ := off / 4 * 4 + 4 * i
    let awaited (l n : Nat) (d : Operand) : Bool := th.pend.any fun p => p.owed.awaits (laneBit l) n d
    if at_ < 0x8000 then
      let n := at_ % 1024 / 4
      !latestFull th (at_ / 1024) n || awaited (at_ / 1024) 1 (.v (BitVec.ofNat 8 n))
    else if at_ < 0x8200 then awaited 0 1 (.k (BitVec.ofNat 7 ((at_ - 0x8000) / 4)))
    else if at_ < 0x8280 then false
    else awaited ((at_ - 0x8400) / 32) 32 (.v (BitVec.ofNat 8 (at_ % 32 / 4 * 32)))

/-- The bytes of a register-window load and whether a register of it is marked (R21, R26). -/
def windowLoad (th : Thread) (off width : Nat) : List Byte × Bool :=
  let ws := (List.range ((width + 3) / 4)).map fun i => windowWord th (off / 4 * 4 + 4 * i)
  (((ws.flatMap fun w => toBytes 4 w.1.toNat).drop (off % 4)).take width, ws.any fun w => w.2)

/-- Store one word, or bytes of it, in the register window (R11, R21). -/
def windowStoreWord (th : Thread) (off : Nat) (data : List Byte) (mark : Bool) : Thread :=
  let base := off / 4 * 4
  let old := toBytes 4 (windowWord th base).1.toNat
  let new := BitVec.ofNat 32 (ofBytes (old.take (off % 4) ++ data ++ old.drop (off % 4 + data.length)))
  if base < 0x8000 then th.wrV (base / 1024) (base % 1024 / 4) new mark
  else if base < 0x8200 then th.wrK ((base - 0x8000) / 4) new mark
  else if base < 0x8280 then
    (List.range 7).foldl (fun t n => t.wrP ((base - 0x8200) / 4) n (new.getLsbD n) mark) th
  else th

/-- Store bytes in the register window: words one after another (R21); all 16 bytes of a unit clear its mark (R398). -/
def windowStore (th : Thread) (off : Nat) (data : List Byte) (mark : Bool) : Thread :=
  if data.length ≤ 4 then windowStoreWord th off data mark
  else
    let th := if off = off / 16 * 16 && data.length == 16 && decide (0x8000 ≤ off) && decide (off < 0x8200) then
      th.unmark ((List.range 4).map fun i => .k ((off - 0x8000) / 4 + i) 0 false) else th
    (List.range (data.length / 4)).foldl (fun t i => windowStoreWord t (off + 4 * i) ((data.drop (4 * i)).take 4) mark) th

end Sys2Proof.Machine
end

