-- ==== Sys2Proof/Machine/Backing.lean ====
section
/-!
DEFINITION. The context save areas (R358): the pages of the banked store with their backings (R18, R19, R359, R361), the matrix save
areas (R176, R234), the queued items (R243), and the log areas (R128, R360).
-/

namespace Sys2Proof.Machine

/-! ### Writing to a save area -/

/-- A context of the package: the current one, or one of the others. -/
def getCx (s : State) (c : Nat) : Option Context :=
  if s.cx.live && s.cx.ctx == c then some s.cx else s.cxs.find? fun x => x.ctx == c

/-- Where the save area of a workgroup begins (R358). -/
def saveArea (s : State) (c w : Nat) : Nat := s.trans.savebase.toNat + c * 2 ^ 29 + w * 0x280000

/-- A unit of memory lies in a save area, which never changes home (R358). -/
def inSaveAreas (s : State) (unit : Nat) : Bool :=
  decide (s.trans.savebase.toNat ≤ 65536 * unit) && decide (65536 * unit < s.trans.savebase.toNat + s.trans.savecnt.toNat * 2 ^ 29)

/-- Put a block of bytes into memory as stored. -/
def putBlock (m : TMap Byte) (r : Nat × List Byte) : TMap Byte :=
  let new := ((List.range r.2.length).zip r.2).filterMap fun e => if e.2 = 0 then none else some (r.1 + e.1, e.2)
  tsplice m r.1 (r.1 + r.2.length) new

/-- The WRITE packet of one line toward another package (R122, R277): the line's bytes from the first to the last that is written, which
of them are written in CAP (bit i for byte i; zero for all), and the units that it marks and clears in the lane set, bits 7:0 and 15:8
(log entry 11). -/
def lineWrite (s : State) (line key : Nat) (w : MemWrite) : Nat × State :=
  let base := 128 * line
  let hit : Nat := w.runs.foldl (fun m r => (List.range r.2.length).foldl (fun m i => m ||| 2 ^ (r.1 + i - base)) m) 0
  let ons := (List.range 128).filter hit.testBit
  let lo := ons.headD 0
  let n := (ons.getLast?).getD 0 + 1 - lo
  let bytes := w.runs.foldl (patchRun base) (List.replicate 128 (0 : Byte))
  let bits (l : List Nat) : Nat := ((List.range 8).filter fun u => l.contains (8 * line + u)).foldl (fun m u => m + 2 ^ u) 0
  let (t, s) := newTag s
  (t, sendPacket s { packetBlank with
    typ := 2, tc := 0, dst := ((homeOf s base).getD (0, 0)).1, addr := BitVec.ofNat 64 (base + lo), width := n, group := key,
    cap := BitVec.ofNat 128 (hit / 2 ^ lo), lanes := BitVec.ofNat 32 (bits w.marks + 256 * bits w.clears), tag := t,
    data := (bytes.drop lo).take n })

/-- The part of a block of bytes that lies in a line. -/
def blockLine (pa : Nat) (data : List Byte) (line : Nat) : Nat × List Byte :=
  let lo := max pa (128 * line)
  (lo, (data.drop (lo - pa)).take (128 * line + 128 - lo))

/-- The key of a context's save area: the SAVEKEY of its address space (R352, R358). -/
def saveKey (s : State) (x : Context) : Nat := bitsN (spaceEntry s x.asid) 107 97

/-- The device writes to a save area at its home (R352, R358). An area that is homed in another package gets one write for each line. -/
def savePut (s : State) (c pa : Nat) (data : List Byte) (marks : List Nat) : State :=
  match getCx s c, homeOf s pa with
  | some x, some (p, h) =>
    if data.isEmpty then s
    else
      let key := saveKey s x
      let u := unitsOf pa data.length
      let w : MemWrite := ⟨[(pa, data)], marks, u.filter fun i => !marks.contains i⟩
      if p ≠ s.pkg then
        (linesOf pa data.length).foldl (fun s l =>
          (lineWrite s l key ⟨[blockLine pa data l], w.marks.filter (· / 8 == l), w.clears.filter (· / 8 == l)⟩).2) s
      else
        let part (l : Nat) : Bool := decide (128 * l < pa) || decide (pa + data.length < 128 * l + 128)
        let s := ((linesOf pa data.length).filter part).foldl (fun s l => rekey s key l) s
        let s := { s with
          mem := putBlock s.mem (pa, data), lineKey := (linesOf pa data.length).foldl (fun m l => tset 0 m l key) s.lineKey,
          memMark := w.clears.foldl (fun m i => tset false m i false) (w.marks.foldl (fun m i => tset false m i true) s.memMark) }
        homeSpread s key w h h
  | _, _ => s

/-- Bytes of memory as stored, from an address on. -/
def runBytes : Nat → Nat → TMap Byte → List Byte
  | 0, _, _ => []
  | n + 1, a, [] => 0 :: runBytes n (a + 1) []
  | n + 1, a, (k, x) :: r => if k = a then x :: runBytes n (a + 1) r else 0 :: runBytes n (a + 1) ((k, x) :: r)

/-- A block of a save area as the device reads it back (R358); none where it is homed in another package (log entry 34). -/
def saveGet (s : State) (c pa n : Nat) : Option (List Byte) :=
  (getCx s c).bind fun x =>
    if !homedHere s pa then none
    else if (linesOf pa n).all fun l => keyMatches s (saveKey s x) (128 * l) then
      some (runBytes n pa (s.mem.filter fun e => decide (pa ≤ e.1) && decide (e.1 < pa + n)))
    else some (memBytes s (saveKey s x) pa n)

/-- Bytes that the spec leaves open (log entries 2 and 34). -/
def freeBytes (s : State) (n : Nat) : List Byte × State :=
  ((List.range n).map fun i => (Config.freeWord (s.free + i)).setWidth 8, { s with free := s.free + n })

/-- A block of a save area: what it is known to hold, and then bytes that the spec leaves open (log entry 34). -/
def padTo (pa n : Nat) (b : List Byte) : List Byte := b ++ (List.range (n - b.length)).map fun i => Config.saveFill (pa + b.length + i)

/-! ### What a saved block holds -/

/-- A field of a saved block: its bytes, its value, and how a value is put back. -/
structure SaveField (α : Type) where
  size : Nat
  now : Nat
  put : Nat → α → α

/-- The bytes of a saved block, field by field. -/
def fieldBytes {α : Type} (l : List (SaveField α)) : List Byte := l.flatMap fun f => toBytes f.size f.now

/-- What a saved block holds is put back; a field that holds what it was saved with stays as it is. -/
def takeFields {α : Type} : List (SaveField α) → List Byte → α → α
  | [], _, x => x
  | f :: r, b, x =>
    let v := ofBytes (b.take f.size)
    takeFields r (b.drop f.size) (if v = f.now then x else f.put v x)

/-- Bits of a number as booleans from a test. -/
def bitsOf (n : Nat) (f : Nat → Bool) : Nat := (List.range n).foldl (fun x i => if f i then x + 2 ^ i else x) 0

/-! ### Pages -/

/-- The register pages of one troupe (R18). -/
def regPages (g : Workgroup) : Nat := ceilDiv g.nregs 32

/-- The pages of a workgroup that have a backing, in the order of R358: register, troupe state, workgroup state, scratchpad. -/
def backedPages (g : Workgroup) : Nat := g.troupes * (regPages g + 1) + 1 + ceilDiv g.scratchSize 4096

/-- The 16-byte units of a register page that hold a marked register. -/
def regMarks (th : Thread) (i : Nat) : List Nat :=
  (List.range 256).filter fun u => th.markV (u % 8 * 4) (32 * i + u / 8)

/-- The fields of a register page (R18). -/
def regFields (th : Thread) (i : Nat) : List (SaveField Thread) :=
  (List.range 1024).map fun x =>
    let key := regKey (x % 32) (32 * i + x / 32)
    ⟨4, (tget 0 th.v key).toNat, fun v t => { t with v := tset 0 t.v key (BitVec.ofNat 32 v) }⟩

/-- The fields of a reconvergence slot in a troupe state page; their places are the model's (log entry 34). -/
def slotFields (th : Thread) (j : Nat) : List (SaveField Thread) :=
  let r := tget ⟨0, 0⟩ th.slots j
  let put (t : Thread) (x : Recon) : Thread := { t with slots := tset ⟨0, 0⟩ t.slots j x }
  [⟨8, r.target.toNat, fun v t => put t { tget ⟨0, 0⟩ t.slots j with target := BitVec.ofNat 64 v }⟩,
   ⟨8, r.expect.toNat, fun v t => put t { tget ⟨0, 0⟩ t.slots j with expect := BitVec.ofNat 32 v }⟩]

/-- REGGEN, the stack bounds, the trap registers and the handler address in a troupe state page; their places are the model's (log
entry 34). -/
def trapFields (th : Thread) : List (SaveField Thread) :=
  [⟨8, th.regGen.toNat, fun v t => { t with regGen := BitVec.ofNat 16 v }⟩,
   ⟨8, th.stklo.toNat, fun v t => { t with stklo := BitVec.ofNat 64 v }⟩,
   ⟨8, th.stkhi.toNat, fun v t => { t with stkhi := BitVec.ofNat 64 v }⟩,
   ⟨8, th.trappc.toNat, fun v t => { t with trappc := BitVec.ofNat 64 v }⟩,
   ⟨8, th.hdl.toNat, fun v t => { t with hdl := BitVec.ofNat 64 v }⟩,
   ⟨4, th.trapcause.toNat, fun v t => { t with trapcause := BitVec.ofNat 32 v }⟩,
   ⟨4, th.trapop.toNat, fun v t => { t with trapop := BitVec.ofNat 32 v }⟩,
   ⟨4, th.trapd.toNat, fun v t => { t with trapd := BitVec.ofNat 32 v }⟩,
   ⟨4, th.trapa.toNat, fun v t => { t with trapa := BitVec.ofNat 32 v }⟩,
   ⟨4, th.trapb.toNat, fun v t => { t with trapb := BitVec.ofNat 32 v }⟩,
   ⟨64, th.trapf.toNat, fun v t => { t with trapf := BitVec.ofNat 32 v }⟩]

/-- The fields of a troupe state page (R18): uniform registers, predicates, full bits, capability slots, reconvergence slots, the trap
registers, and the directory of the log area. -/
def troupeFields (th : Thread) : List (SaveField Thread) :=
  let ks := (List.range 128).map fun n => (⟨4, (tget 0 th.k n).toNat, fun v t => { t with k := tset 0 t.k n (BitVec.ofNat 32 v) }⟩ : SaveField Thread)
  let ps := (List.range 32).map fun l => (⟨4, bitsOf 7 fun n => th.rdP l n, fun v t =>
    { t with p := (List.range 7).foldl (fun m n => tset 0 m n (setLane (tget 0 m n) l (v.testBit n))) t.p }⟩ : SaveField Thread)
  let fs := (List.range 32).map fun l => (⟨32, bitsOf 256 fun n => !th.isEmpty l n, fun v t =>
    { t with vEmpty := (List.range 256).foldl (fun m n => tset false m (regKey l n) (!v.testBit n)) t.vEmpty }⟩ : SaveField Thread)
  let cs := (List.range 16).map fun n => (⟨16, (tget 0 th.caps n).toNat, fun v t =>
    { t with caps := tset 0 t.caps n (BitVec.ofNat 128 v) }⟩ : SaveField Thread)
  let logs : List (SaveField Thread) := [⟨4, th.log.length, fun _ t => t⟩, ⟨124, (th.pend.filter Pend.recorded).length, fun _ t => t⟩]
  ks ++ ps ++ fs ++ cs ++ (List.range 8).flatMap (slotFields th) ++ trapFields th ++ logs

/-- The bits of a chunk-map slot (R144). -/
def ChunkSlot.bits (c : ChunkSlot) : Nat :=
  c.mapoff.toNat + c.base.toNat * 2 ^ 14 + c.expect.toNat * 2 ^ 25 + c.arrived.toNat * 2 ^ 37 + if c.phase then 2 ^ 49 else 0

/-- A chunk-map slot of its bits (R144). -/
def ChunkSlot.ofBits (x : Nat) : ChunkSlot :=
  ⟨BitVec.ofNat 14 x, BitVec.ofNat 11 (x / 2 ^ 14), BitVec.ofNat 12 (x / 2 ^ 25), BitVec.ofNat 12 (x / 2 ^ 37), x.testBit 49⟩

/-- The bits of a landing entry (R193). -/
def Landing.bits (c : Landing) : Nat := c.off.toNat + c.size.toNat * 2 ^ 13 + c.gen.toNat * 2 ^ 21 + if c.valid then 2 ^ 37 else 0

/-- A landing entry of its bits (R193). -/
def Landing.ofBits (x : Nat) : Landing := ⟨BitVec.ofNat 13 x, BitVec.ofNat 8 (x / 2 ^ 13), BitVec.ofNat 16 (x / 2 ^ 21), x.testBit 37⟩

/-- The bits of a phaser handle in a workgroup state page, in a layout of the model (log entry 34): binding, mode, SIGPH and first
phase; 0 where unbound. -/
def handleBits : Option PhHandle → Nat
  | none => 0
  | some h =>
    let name := match h.name with
      | .pkg n => 1 + 4 * (n % 2 ^ 60)
      | .pod n => 2 + 4 * (n % 2 ^ 60)
    let mode := match h.mode with
      | .sig => 0
      | .wait => 1
      | .sigwait => 2
      | .any => 3
    name + mode * 2 ^ 64 + h.sigph.toNat * 2 ^ 96 + h.joined.toNat * 2 ^ 128

/-- A phaser handle of its bits. -/
def handleFrom (x : Nat) : Option PhHandle :=
  let n := bitsN x 63 2
  let mode : PhMode := match bitsN x 65 64 with
    | 0 => .sig
    | 1 => .wait
    | 2 => .sigwait
    | _ => .any
  match x % 4 with
  | 1 => some ⟨.pkg n, mode, BitVec.ofNat 32 (x / 2 ^ 96), BitVec.ofNat 32 (x / 2 ^ 128)⟩
  | 2 => some ⟨.pod n, mode, BitVec.ofNat 32 (x / 2 ^ 96), BitVec.ofNat 32 (x / 2 ^ 128)⟩
  | _ => none

/-- The fields of a workgroup state page (R18, R144, R193), at places of the model (log entry 34): barriers, timeline counters, what the
matrix state holds besides planes and accumulators, chunk-map slots, landing entries and phaser handles. -/
def wgFields (g : Workgroup) : List (SaveField Workgroup) :=
  let bar (n : Nat) : List (SaveField Workgroup) :=
    let b := tget ⟨0, 0, 0, 0, 0⟩ g.bars n
    let put (g : Workgroup) (f : Bar → Bar) : Workgroup := { g with bars := tset ⟨0, 0, 0, 0, 0⟩ g.bars n (f (tget ⟨0, 0, 0, 0, 0⟩ g.bars n)) }
    [⟨4, b.phase.toNat, fun v g => put g fun b => { b with phase := BitVec.ofNat 32 v }⟩,
     ⟨2, b.arrived.toNat, fun v g => put g fun b => { b with arrived := BitVec.ofNat 12 v }⟩,
     ⟨2, b.expect.toNat, fun v g => put g fun b => { b with expect := BitVec.ofNat 12 v }⟩,
     ⟨4, b.status.toNat, fun v g => put g fun b => { b with status := BitVec.ofNat 32 v }⟩,
     ⟨4, b.last.toNat, fun v g => put g fun b => { b with last := BitVec.ofNat 32 v }⟩]
  let tl (n : Nat) : List (SaveField Workgroup) :=
    let t := tget ⟨0, 0, 0, []⟩ g.tls n
    let put (g : Workgroup) (f : Timeline → Timeline) : Workgroup := { g with tls := tset ⟨0, 0, 0, []⟩ g.tls n (f (tget ⟨0, 0, 0, []⟩ g.tls n)) }
    [⟨8, t.issued.toNat, fun v g => put g fun t => { t with issued := BitVec.ofNat 64 v }⟩,
     ⟨8, t.value.toNat, fun v g => put g fun t => { t with value := BitVec.ofNat 64 v }⟩,
     ⟨8, t.status.toNat, fun v g => put g fun t => { t with status := BitVec.ofNat 32 v }⟩]
  let m := g.matrix
  let mat (g : Workgroup) (f : Matrix → Matrix) : Workgroup := { g with matrix := f g.matrix }
  let mx : List (SaveField Workgroup) :=
    [⟨1, m.active.tag.toNat, fun v g => mat g fun m => { m with active := { m.active with tag := BitVec.ofNat 3 v } }⟩,
     ⟨1, m.shadow.tag.toNat, fun v g => mat g fun m => { m with shadow := { m.shadow with tag := BitVec.ofNat 3 v } }⟩,
     ⟨1, m.sat.toNat, fun v g => mat g fun m => { m with sat := BitVec.ofNat 8 v }⟩,
     ⟨1, m.mode.toNat, fun v g => mat g fun m => { m with mode := BitVec.ofNat 3 v }⟩,
     ⟨4, m.vcount, fun v g => mat g fun m => { m with vcount := v }⟩,
     ⟨8, m.pending.toNat, fun v g => mat g fun m => { m with pending := BitVec.ofNat 32 v }⟩]
  let cm (n : Nat) : SaveField Workgroup :=
    ⟨8, (tget ChunkSlot.unbound g.cms n).bits, fun v g => { g with cms := tset ChunkSlot.unbound g.cms n (ChunkSlot.ofBits v) }⟩
  let land (n : Nat) : SaveField Workgroup :=
    ⟨8, (tget ⟨0, 0, 0, false⟩ g.lands n).bits, fun v g => { g with lands := tset ⟨0, 0, 0, false⟩ g.lands n (Landing.ofBits v) }⟩
  let ph (n : Nat) : SaveField Workgroup :=
    ⟨20, handleBits (lookupBy n g.phs), fun v g => { g with phs := match handleFrom v with
      | some h => putBy n h g.phs
      | none => dropBy n g.phs }⟩
  (List.range 16).flatMap bar ++ (List.range 8).flatMap tl ++ mx ++ (List.range 16).map cm ++ (List.range 16).map land
    ++ (List.range 64).map ph

/-- A troupe of a workgroup. -/
def troupeOf (s : State) (g : Workgroup) (t : Nat) : Thread :=
  ((s.th :: s.threads).find? fun th => th.agent == .troupe g.ctx g.wgl t).getD (Thread.fresh (.troupe g.ctx g.wgl t) .ended 0)

/-- Change the agents of a workgroup that a test picks. -/
def mapWhere (s : State) (f : Agent → Bool) (h : Thread → Thread) : State :=
  let h (t : Thread) : Thread := if f t.agent then h t else t
  { s with th := h s.th, threads := s.threads.map h }

/-- Where the two sequencers of a workgroup stand, which its state page holds (R18). -/
def seqPcs (s : State) (g : Workgroup) : List Byte :=
  [Agent.matrix g.ctx g.wgl, .copy g.ctx g.wgl].flatMap fun a =>
    toBytes 8 (((s.th :: s.threads).find? fun t => t.agent == a).elim 0 fun t => t.grp.pc.toNat)

/-- What page j of a workgroup holds where the spec gives it content, and its marked units (R18). -/
def pageHolds (s : State) (g : Workgroup) (j : Nat) : List Byte × List Nat :=
  let r := regPages g
  let n := g.troupes
  if j < n * r then
    let th := troupeOf s g (j / max 1 r)
    (fieldBytes (regFields th (j % max 1 r)), regMarks th (j % max 1 r))
  else if j < n * r + n then (fieldBytes (troupeFields (troupeOf s g (j - n * r))), [])
  else if j = n * r + n then (fieldBytes (wgFields g) ++ seqPcs s g, [])
  else
    let i := j - (n * r + n + 1)
    (g.bytes (4096 * i) 4096, (List.range 256).filter fun u => tget false g.scratchMark (256 * i + u))

/-- Where the backing of page j of a workgroup lies (R358). -/
def backingAt (s : State) (g : Workgroup) (j : Nat) : Nat := saveArea s g.ctx g.wgl + 4096 * j

/-- A page is written to its backing (R358). -/
def writePage (g : Workgroup) (s : State) (j : Nat) : State :=
  let r := pageHolds s g j
  let pa := backingAt s g j
  savePut s g.ctx pa (padTo pa 4096 r.1) (r.2.map (· + pa / 16))

/-- The marks of a register page after a refill: those of the units of its backing (R397, R398). -/
def takeRegMarks (i : Nat) (units : List Nat) (th : Thread) : Thread :=
  let old := regMarks th i
  (List.range 256).foldl (fun t u =>
    if old.contains u == units.contains u then t
    else { t with vMark := tset false t.vMark (markKeyV (u % 8 * 4) (32 * i + u / 8)) (units.contains u) }) th

/-- Page j of a workgroup is refilled from its backing (R19, R361). -/
def readPage (c w : Nat) (s : State) (j : Nat) : State :=
  match getWg s c w with
  | none => s
  | some g =>
    let pa := backingAt s g j
    match saveGet s c pa 4096 with
    | none => s
    | some b =>
      let units := (List.range 256).filter fun u => tget false s.memMark (pa / 16 + u)
      let r := regPages g
      let n := g.troupes
      if j < n * r then
        let i := j % max 1 r
        mapWhere s (· == .troupe c w (j / max 1 r)) fun th => takeRegMarks i units (takeFields (regFields th i) b th)
      else if j < n * r + n then
        mapWhere s (· == .troupe c w (j - n * r)) fun th => takeFields (troupeFields th) b th
      else if j = n * r + n then
        let fs := wgFields g
        let q := b.drop (fs.map SaveField.size).sum
        let seq (a : Agent) (k : Nat) (s : State) : State :=
          mapWhere s (· == a) fun t => { t with grp := { t.grp with pc := BitVec.ofNat 64 (ofBytes ((q.drop k).take 8)) } }
        seq (.copy c w) 8 (seq (.matrix c w) 0 (putWg s (takeFields fs b g)))
      else
        let i := j - (n * r + n + 1)
        let mark := (List.range 256).foldl (fun m u => tset false m (256 * i + u) (units.contains u)) g.scratchMark
        putWg s { g with scratch := putBlock g.scratch (4096 * i, b), scratchMark := mark }

/-- Pages of a workgroup with a state. -/
def pagesIn (g : Workgroup) (p : PageState) : List Nat := (List.range (backedPages g)).filter fun j => tget .pinned g.pages j == p

/-- Pages of a workgroup take a state. -/
def setPages (g : Workgroup) (l : List Nat) (p : PageState) : Workgroup := { g with pages := l.foldl (fun m j => tset .pinned m j p) g.pages }

/-- Frames are reclaimed: their pages are written to their backings and are EVICTED (R358). -/
def evictPages (s : State) (g : Workgroup) (l : List Nat) : State :=
  let s := l.foldl (writePage g) s
  putWg s (setPages g l .evicted)

/-- When a page was pinned last (R358). -/
def Workgroup.pinnedAt (g : Workgroup) (j : Nat) : Nat := if (g.pinTimes.map Prod.fst).contains j then tget 0 g.pinTimes j else g.pinBase

/-- The unpinned pages of the workgroups that are swapped out from a core and hold frames there, the least recently pinned first, and
pages that were pinned together by their pre-emption and their place (R358). -/
def unpinnedOn (s : State) (core : Nat) : List (Workgroup × Nat) :=
  let gs := (allWgs s).filter fun g => g.core.isNone && g.frames == some core
  let key (p : Workgroup × Nat) : Nat × Nat := (p.1.pinnedAt p.2, p.1.outOrder)
  sortBy (fun p q => decide ((key p).1 < (key q).1) || ((key p).1 == (key q).1 && decide ((key p).2 < (key q).2)))
    (gs.flatMap fun g => (pagesIn g .unpinned).map fun j => (g, j))

/-- Reclaim frames of a core until `n` unpinned pages at most hold one (R358). -/
def reclaimTo (n : Nat) (l : List (Workgroup × Nat)) (s : State) : State :=
  (l.take (l.length - n)).foldl (fun s p =>
    match getWg s p.1.ctx p.1.wgl with
    | none => s
    | some g => evictPages s g [p.2]) s

/-- What has changed in an evicted page reaches its backing (R359). -/
def reback (s : State) (c w : Nat) : State :=
  match getWg s c w with
  | none => s
  | some g => if g.core.isSome then s else (pagesIn g .evicted).foldl (writePage g) s

/-- Every swapped-out workgroup's evicted pages are as their backings. -/
def rebackAll (s : State) : State :=
  ((allWgs s).filter fun g => g.core.isNone && !g.pages.isEmpty).foldl (fun s g => reback s g.ctx g.wgl) s

/-! ### Pinning -/

/-- A resident workgroup touches pages (R19, R361): those that are not pinned are pinned from now on. -/
def Workgroup.touch (now : Nat) (g : Workgroup) (l : List Nat) : Workgroup :=
  if g.pages.isEmpty || g.core.isNone then g
  else
    let new := l.filter fun j => tget .pinned g.pages j != .pinned
    { setPages g new .pinned with pinTimes := new.foldl (fun m j => putBy j now m) g.pinTimes }

/-- Pages of a workgroup are touched. -/
def touchPages (s : State) (c w : Nat) (l : List Nat) : State :=
  match getWg s c w with
  | none => s
  | some g => if g.pages.isEmpty then s else putWg s (g.touch s.clock l)

/-- The scratchpad pages that some bytes touch. -/
def scratchPages (g : Workgroup) (off n : Nat) : List Nat :=
  let base := g.troupes * (regPages g + 1) + 1
  if n = 0 then [] else (List.range ((off + n - 1) / 4096 - off / 4096 + 1)).map (· + (base + off / 4096))

/-- The register pages that an operand of a troupe touches. -/
def operandPages (g : Workgroup) (t n : Nat) : Operand → List Nat
  | .v r => ([r.toNat / 32, (r.toNat + max 1 n - 1) / 32].filter (· < regPages g)).map (· + t * regPages g)
  | .k _ => []
  | .s _ => []
  | .c _ => []

/-- The pages that a word of an agent touches besides the memory that it names: its registers, and the state page of its troupe or
workgroup. -/
def wordPages (g : Workgroup) (a : Agent) (uses : List (Nat × Operand)) : List Nat :=
  match a with
  | .troupe _ _ t => (g.troupes * regPages g + t) :: uses.flatMap fun u => operandPages g t u.1 u.2
  | .matrix _ _ => [g.troupes * (regPages g + 1)]
  | .copy _ _ => [g.troupes * (regPages g + 1)]
  | .control _ => []
  | .firmware _ => []

/-- Bytes of a workgroup's scratchpad are touched. -/
def touchScratch (s : State) (c w off n : Nat) : State :=
  match getWg s c w with
  | none => s
  | some g => touchPages s c w (scratchPages g off n)

/-- The number of a troupe in its workgroup. -/
def Agent.troupeNo : Agent → Nat
  | .troupe _ _ t => t
  | .matrix _ _ => 0
  | .copy _ _ => 0
  | .control _ => 0
  | .firmware _ => 0

/-- The pages that bytes of the register window of a troupe touch (R18, R21). -/
def windowPages (g : Workgroup) (t off n : Nat) : List Nat :=
  if off < 0x8000 then operandPages g t (ceilDiv n 4) (.v (BitVec.ofNat 8 (off % 1024 / 4)))
  else [g.troupes * regPages g + t]

/-! ### The matrix save area -/

/-- A weight as it is saved: 16 bits in a layout of the model (log entry 34), its FP16 bits in `f16` and otherwise the upper half of its FP32
bits, or the low half of the integer in `i8`. -/
def weightCode (tag : BitVec 3) (w : Word) : Nat :=
  if tag = 1 then (toFormat fp16 0 false true (unpackExact fp32 w.toNat)).bits
  else if tag = 4 then w.toNat % 65536
  else w.toNat / 65536

/-- A weight of its saved bits. -/
def weightOf (tag : BitVec 3) (x : Nat) : Word :=
  if tag = 1 then BitVec.ofNat 32 (toFormat fp32 0 false true (unpackExact fp16 x)).bits
  else if tag = 4 then (BitVec.ofNat 16 x).signExtend 32
  else BitVec.ofNat 32 (x * 65536)

/-- The fields of the matrix save area (R176, R358): the planes and the accumulators, tile by tile and row by row (log entry 34). -/
def matrixFields (m : Matrix) : List (SaveField Matrix) :=
  let w (p : Plane) (put : (Plane → Plane) → Matrix → Matrix) : List (SaveField Matrix) :=
    (List.range 4096).map fun i => ⟨2, weightCode p.tag (tget 0 p.w i), fun v => put fun p => { p with w := tset 0 p.w i (weightOf p.tag v) }⟩
  w m.active (fun f m => { m with active := f m.active }) ++ w m.shadow (fun f m => { m with shadow := f m.shadow })
    ++ (List.range 32768).map fun i => ⟨4, (tget 0 m.acc i).toNat, fun v m => { m with acc := tset 0 m.acc i (BitVec.ofNat 32 v) }⟩

/-- The units of the saved matrix state that hold a marked weight or element. -/
def matrixMarks (m : Matrix) : List Nat :=
  let plane (p : Plane) (at_ : Nat) : List Nat := p.mark.map fun e => at_ + e.1 / 8
  let acc : List Nat := m.accMark.map fun e => 1024 + e.1 / 4
  (plane m.active 0 ++ plane m.shadow 512 ++ acc).eraseDups

/-- Where the matrix save area of a workgroup lies (R358). -/
def matrixArea (s : State) (g : Workgroup) : Nat := saveArea s g.ctx g.wgl + 0xe0000

/-- The core writes the matrix state of a workgroup to its save area (R234, R359). -/
def saveMatrix (s : State) (g : Workgroup) : State :=
  if g.ended || !g.ownedArray then s
  else
    let pa := matrixArea s g
    savePut s g.ctx pa (fieldBytes (matrixFields g.matrix)) ((matrixMarks g.matrix).map (· + pa / 16))

/-- The core loads the matrix state of a workgroup from its save area (R176, R234, R361). -/
def loadMatrix (s : State) (g : Workgroup) : Matrix :=
  match saveGet s g.ctx (matrixArea s g) 147456 with
  | none => g.matrix
  | some b =>
    let fs := matrixFields g.matrix
    if fieldBytes fs = b then g.matrix else takeFields fs b g.matrix

/-! ### Queued items and logs -/

/-- The queued items of a workgroup are written to its save area (R243): 64 bytes an entry, in a layout that the spec leaves open. -/
def saveItems (s : State) (g : Workgroup) (entries : Nat) : State :=
  let pa := saveArea s g.ctx g.wgl + 0x104000
  savePut s g.ctx pa (padTo pa (64 * min entries 2048) []) []

/-- Where the log area of a troupe begins (R358). -/
def logArea (s : State) (c w t : Nat) : Nat := saveArea s c w + 0x124000 + t * 0xa000

/-- An entry of the operand log is written (R128, R358). -/
def saveLogWord (c base : Nat) (s : State) (w : LogWord) : State :=
  let s := savePut s c base (toBytes 8 w.word.toNat ++ toBytes 4 w.took.toNat ++ toBytes 4 w.faulted.toNat) []
  w.lanes.foldl (fun s x => savePut s c (base + 64 + 40 * x.lane)
    (toBytes 8 x.addr.toNat ++ toBytes 8 x.a.toNat ++ toBytes 8 x.b.toNat ++ toBytes 16 x.data.toNat) []) s

/-- The operand log of the current troupe is written to its log area (R128). -/
def saveLog (s : State) (l : List LogWord) : State :=
  match s.th.agent with
  | .troupe c w t => (((l.take 16).zip (List.range 16)).foldl (fun s e => saveLogWord c (logArea s c w t + 1536 * e.2) s e.1) s)
  | .matrix _ _ => s
  | .copy _ _ => s
  | .control _ => s
  | .firmware _ => s

/-- A word that has faulted with its operands in the log of its troupe has its log written. -/
def logged (s : State) : State := if s.th.log.isEmpty then s else saveLog s s.th.log

/-- The held result of a lane in a window record (R360). -/
def heldBytes (ws : List Wr) (l : Nat) : List Byte :=
  (ws.flatMap fun w => match w with
    | .v l' _ x _ => if l' = l then toBytes 4 x.toNat else []
    | .k _ x _ => toBytes 4 x.toNat
    | .p l' _ x _ => if l' = l then [if x then 1 else 0] else []
    | .fl _ => []
    | .cap _ x => toBytes 16 x.toNat
    | .cm _ _ => []
    | .ph _ _ => []).take 16

/-- The destination of a held result as a window record names it, in a layout of the model (log entry 34): the register, plus 256 for a
uniform one and 512 for a predicate, and how many words it has. -/
def heldDest (ws : List Wr) : Nat × Nat :=
  match ws.head? with
  | some (.v l n _ _) => (n, (ws.filter fun w => w.inLanes (laneBit l)).length)
  | some (.k n _ _) => (256 + n, ws.length)
  | some (.p _ n _ _) => (512 + n, 1)
  | _ => (0, 0)

/-- A window record (R360): the destination, or the instruction word of a kept wait (R429), the width, the words still to issue, and for
each lane the held result, or the wait's A and B values; the places of the first are the model's (log entry 34). -/
def windowRecord (p : Pend) : List Byte :=
  let lanes (f : Nat → List Byte) : List Byte := (List.range 32).flatMap fun l => (f l ++ List.replicate 16 (0 : Byte)).take 16
  match p.owed, p.word with
  | .wait _, some w => toBytes 8 w.word.toNat ++ toBytes 4 0 ++ toBytes 20 p.left
      ++ lanes fun l => ((w.lanes.find? fun x => x.lane == l).map fun x => toBytes 8 x.a.toNat ++ toBytes 8 x.b.toNat).getD []
  | .wait _, none => toBytes 12 0 ++ toBytes 20 p.left
  | .result ws _ _, _ => toBytes 8 (heldDest ws).1 ++ toBytes 4 (heldDest ws).2 ++ toBytes 20 p.left
      ++ lanes fun l => if p.lanes.getLsbD l then heldBytes ws l else []

/-- The window records of a troupe, in their order (R359, R360, R429). -/
def windowRecords (th : Thread) : List (List Byte) := ((th.pend.filter Pend.recorded).take 16).map windowRecord

/-- The open windows of the troupes of a workgroup, and the waits that pre-emption keeps, are written to their log areas (R359, R360,
R429). -/
def saveWindows (s : State) (g : Workgroup) : State :=
  (List.range g.troupes).foldl (fun s t =>
    ((windowRecords (troupeOf s g t)).zip (List.range 16)).foldl (fun s e =>
      savePut s g.ctx (logArea s g.ctx g.wgl t + 0x6000 + 1024 * e.2) e.1 []) s) s

/-- A step has changed nothing of a workgroup's own state, its troupes and its sequencers' places. -/
def wgKept (s t : State) (old g : Workgroup) : Bool :=
  old == g && seqPcs s old == seqPcs t g && (List.range g.troupes).all fun i => troupeOf s old i == troupeOf t g i

/-- What a step has changed of a workgroup that is swapped out reaches its save area: its evicted pages (R359), and results held for its
open windows that have arrived (R360). `s` is the state before the step. -/
def backWg (s : State) (t : State) (g : Workgroup) : State :=
  match getWg s g.ctx g.wgl with
  | none => t
  | some old =>
    if g.core.isSome || old.core.isSome || wgKept s t old g then t
    else
      let t := ((pagesIn g .evicted).filter fun j => pageHolds s old j != pageHolds t g j).foldl (writePage g) t
      if (List.range g.troupes).all fun i => windowRecords (troupeOf s old i) == windowRecords (troupeOf t g i) then t
      else saveWindows t g

/-- What a step has changed of the workgroups that are swapped out reaches their save areas. -/
def backChanges (s t : State) : State :=
  ((allWgs t).filter fun g => g.core.isNone && !g.pages.isEmpty && !g.ended).foldl (backWg s) t

/-- An entry of a context's error queue is written to its save area (R216, R358): the n-th that was ever recorded. -/
def saveError (s : State) (c n : Nat) (e : DWord) : State :=
  savePut s c (s.trans.savebase.toNat + c * 2 ^ 29 + 0x1e000000 + 8 * (n % 256)) (toBytes 8 e.toNat) []

end Sys2Proof.Machine
end

