-- ==== Sys2Proof/Machine/Access.lean ====
section
/-!
DEFINITION. How an access is performed: the caches that serve a read (R255, R428), the writes that reach every die view
(R258), atomics (R124, R125), acquires and releases (R117, R251, R259), the throttle (R230), and the one path that every
memory word takes through its checks (R112, R126-R128).
-/

namespace Sys2Proof.Machine

/-! ### L1 and the throttle -/

/-- What the device keeps for a core. -/
def State.core (s : State) (c : Nat) : CoreSt := tget CoreSt.fresh s.cores c

/-- Change a core. -/
def State.setCore (s : State) (c : Nat) (x : CoreSt) : State := { s with cores := tset CoreSt.fresh s.cores c x }

/-- The troupe slot of an agent, of the 64 of its core (R225, R230). DESIGN CHOICE (log entry 51): the slots of a scheduler follow each
other, 16 times the scheduler plus its slot, and "lower slot" means this number. -/
def Thread.slotNo (t : Thread) : Option Nat :=
  match t.agent with
  | .troupe _ _ n => some (16 * (n % 4) + t.slot)
  | .matrix _ _ => none
  | .copy _ _ => none
  | .control _ => none
  | .firmware _ => none

/-- The troupe slot of the agent that issues (R230). -/
def curSlot (s : State) : Option Nat := s.th.slotNo

/-- An L1 miss of the issuing troupe on a line whose tag the victim array holds with its slot adds 1 to its score (R230). -/
def throttleMiss (s : State) (line : Nat) : State :=
  match curSlot s with
  | none => s
  | some t =>
    let c := s.core s.th.ident.core
    let x := c.throttle
    if x.victims.contains (line, t) then
      let n := (lookupBy t x.scores).getD 0
      s.setCore s.th.ident.core { c with throttle :=
        { x with victims := x.victims.erase (line, t), scores := putBy t (min (n + 1) 255) x.scores } }
    else s

/-- L1 of a core evicts a line, and the victim array records it with the slot that touched it last (R230). -/
def throttleEvict (s : State) (core : Nat) (v : Option CacheLine) : State :=
  match v with
  | none => s
  | some l =>
    let c := s.core core
    let x := c.throttle
    s.setCore core { c with throttle := { x with victims := ((l.addr, l.toucher) :: x.victims).take 256 } }

/-- The troupe may issue memory words (R230). -/
def throttleAllows (s : State) : Bool :=
  match curSlot s with
  | some t => !(s.core s.th.ident.core).throttle.barred.contains t
  | none => true

/-- A troupe takes a slot of a core beside the troupes of other slots (R230): its score is 0, and the allowed set takes it in while it
has fewer than M members (log entry 48). -/
def Throttle.seat (x : Throttle) (slot : Nat) (others : List Nat) : Throttle :=
  let full := decide (x.m ≤ (others.filter fun t => t != slot && !x.barred.contains t).length)
  { x with scores := dropBy slot x.scores, refusals := dropBy slot x.refusals,
           barred := (x.barred.filter fun t => t != slot) ++ (if full then [slot] else []) }

/-- Troupes leave their slots of a core. -/
def Throttle.leave (x : Throttle) (slots : List Nat) : Throttle :=
  { x with scores := x.scores.filter fun y => !slots.contains y.1, refusals := x.refusals.filter fun y => !slots.contains y.1,
           barred := x.barred.filter fun t => !slots.contains t }

/-- A troupe slot of a core is refused a memory word in this epoch (R231). -/
def refuseSlot (s : State) (core : Nat) : Option Nat → State
  | none => s
  | some t =>
    let c := s.core core
    let r := (lookupBy t c.throttle.refusals).getD (0, false)
    s.setCore core { c with throttle := { c.throttle with refusals := putBy t (r.1, true) c.throttle.refusals } }

/-- The troupe that issues is refused a memory word in this epoch (R231). -/
def throttleRefuse (s : State) : State := refuseSlot s s.th.ident.core (curSlot s)

/-- The troupe that issues has been refused a memory word in this epoch (R231). -/
def throttleRefused (s : State) : Bool :=
  (curSlot s).any fun t => ((lookupBy t (s.core s.th.ident.core).throttle.refusals).getD (0, false)).2

/-- The line that a full set of L1 evicts (R428): first one marked by `strm`, then the least recently used not marked by
`keep`, then the least recently used. `ways` stands most recently used first. -/
def l1Victim (ways : List CacheLine) : Option CacheLine :=
  match ways.reverse.find? (fun c => c.hint == .strm) with
  | some c => some c
  | none =>
    match ways.reverse.find? (fun c => c.hint != .keep) with
    | some c => some c
    | none => ways.getLast?

/-- A line has left L1, or has come afresh: nothing older fills it any more, and the workgroup's own stores to it are behind it (R256). -/
def l1Forget (g : Workgroup) (addr : Nat) : Workgroup :=
  { g with l1Due := g.l1Due.filter fun f => f.addr != addr, l1Own := g.l1Own.filter fun e => e.addr / 128 * 128 != addr }

/-- Put a line into the L1 of a workgroup as its most recently used (R428). -/
def l1Insert (g : Workgroup) (c : CacheLine) : Workgroup × Option CacheLine :=
  if g.l1pg = 0 then (g, none)
  else
    let others := g.l1.filter fun x => !(x.addr == c.addr && x.key == c.key)
    let sets := 4 * g.l1pg
    let ways := others.filter fun x => x.addr / 128 % sets == c.addr / 128 % sets
    if ways.length < 8 then ({ g with l1 := c :: others }, none)
    else
      match l1Victim ways with
      | none => ({ g with l1 := c :: others }, none)
      | some v => (l1Forget { g with l1 := c :: others.filter fun x => !(x.addr == v.addr && x.key == v.key) } v.addr, some v)

/-- A line comes into the L1 of a workgroup (R255, R428). -/
def l1Fresh (g : Workgroup) (c : CacheLine) : Workgroup × Option CacheLine := l1Insert (l1Forget g c.addr) c

/-- Drop a line from the L1 of the issuing workgroup. -/
def l1Drop (s : State) (pa : Nat) : State :=
  { s with wg := l1Forget { s.wg with l1 := s.wg.l1.filter fun c => c.addr != pa / 128 * 128 } (pa / 128 * 128) }

/-- A line of L1 as a lane of the issuing agent sees it: with its own stores that another package has still to perform (R113, R250). -/
def ownSees (s : State) (lane : Nat) (c : CacheLine) : CacheLine :=
  (s.wg.l1Own.filter fun e => e.agent == s.th.agent && e.lane == lane && c.holds e.addr e.key).foldl (fun c e => c.take e.write) c

/-- A store toward another package has been performed there, or is lost: the L1 of its workgroup takes it in the first case (R250, R428). -/
def l1Performed (t : Nat) (done : Bool) (g : Workgroup) : Workgroup :=
  let mine := g.l1Own.filter fun e => e.tag == t
  if mine.isEmpty then g
  else
    let f (c : CacheLine) : CacheLine := if done then (mine.filter fun e => c.holds e.addr e.key).foldl (fun c e => c.take e.write) c else c
    { g with l1 := g.l1.map f, l1Own := g.l1Own.filter fun e => e.tag != t }

/-- Requests of a die for lines are not to fill the RDC: for one line that the die has written to since, or for all when it has
acquired since (R255, R256, R259). -/
def noFill (f : Fabric) (d : Nat) (pa : Option Nat) : Fabric :=
  let hit (p : Packet) : Bool := p.typ == 0 && p.srcDie == BitVec.ofNat 2 d && pa.all fun a => p.addr.toNat / 128 == a / 128
  { f with flows := f.flows.map fun x => (x.1, { x.2 with
      unretired := x.2.unretired.map fun e => if hit e.pkt then { e with pkt := { e.pkt with rvalid := true } } else e }) }

/-- Drop a line from the RDC of a die, and what is on its way there. -/
def rdcDrop (s : State) (d pa : Nat) : State :=
  let v := s.die d
  (s.setFab (noFill s.fabric d (some pa))).setDie d { v with rdc := v.rdc.filter fun c => c.addr != pa / 128 * 128 }

/-! ### Reads -/

/-- A read at the place of record in this package or at the host (R249). -/
def recordRead (s : State) (pa key n : Nat) (pkg die : Nat) : (List Byte × Bool) × State :=
  ((memBytes s key pa n, anyMark s.memMark pa n), noteRequest s pa pkg die)

/-- A read served at a die's view, or at its RDC and on a miss the place of record (R255); none when the place of record is
in another package. -/
def dieReadAt (s : State) (d pa key n : Nat) : Option (List Byte × Bool) × State :=
  let home := homeOf s pa
  if home = some (s.pkg, d) then
    let r := recordRead s pa key n s.pkg d
    (some r.1, r.2)
  else
    match (s.die d).rdc.find? fun c => c.holds pa key with
    | some c => (some (c.read pa n, c.marked pa n), s)
    | none =>
      if homedHere s pa || isHost pa then
        let s := drainDie s d
        let r := recordRead (rdcInsert s d (memLine s key pa .dflt 0)) pa key n s.pkg d
        (some r.1, r.2)
      else (none, s)

/-- A read served at the die of a core, by a requester on that core (R255, R365): a home counts it where the read reaches it. -/
def coreReadAt (s : State) (core pa key n : Nat) : Option (List Byte × Bool) × State :=
  let r := dieReadAt s (core / 48 % 4) pa key n
  (r.1, if r.2.trans.counts == s.trans.counts then r.2 else noteAsker r.2 pa core)

/-- A read served at the die of the agent that issues (R255). -/
def dieRead (s : State) (pa key n : Nat) : Option (List Byte × Bool) × State :=
  let r := dieReadAt s s.th.ident.die pa key n
  (r.1, if r.2.trans.counts == s.trans.counts then r.2 else noteAsker r.2 pa s.th.ident.core)

/-- A load goes through L1 (R255, R428). -/
def nearL1 (order : Order) (scope : Scope) (hint : Hint) : Bool :=
  order != .sc && (scope == .tr || scope == .wg) && hint != .nl1

/-- A load of memory by a lane (R255): the bytes and whether they are marked, or none when another package must answer. -/
def serveLoad (s : State) (lane : Nat) (order : Order) (scope : Scope) (hint : Hint) (pa key n : Nat) :
    Option (List Byte × Bool) × State :=
  let here := homedHere s pa
  let atRecord := order == .sc || (order == .acq && scope == .pd && !here)
  if atRecord then
    let s := rdcDrop (l1Drop (drainDie s s.th.ident.die) pa) s.th.ident.die pa
    if here || isHost pa then
      let r := recordRead s pa key n s.pkg s.th.ident.die
      (some r.1, noteAsker r.2 pa s.th.ident.core)
    else (none, s)
  else if nearL1 order scope hint then
    match s.wg.l1.find? fun c => c.holds pa key with
    | some c =>
      let c := { c with toucher := (curSlot s).getD c.toucher, hint := if hint = .dflt then c.hint else hint }
      let seen := ownSees s lane c
      (some (seen.read pa n, seen.marked pa n), { s with wg := (l1Insert s.wg c).1 })
    | none =>
      let s := throttleMiss s (pa / 128 * 128)
      match dieRead s (pa / 128 * 128) key 128 with
      | (none, s) => (none, s)
      | (some _, s) =>
        let d := s.th.ident.die
        let who := (curSlot s).getD 0
        let own := memLine s key pa hint who
        let copy := ((s.die d).rdc.find? fun c => c.holds pa key).getD own
        let line := if homeOf s pa = some (s.pkg, d) then own else { copy with hint := hint, toucher := who }
        let r := l1Fresh s.wg line
        (some (line.read pa n, line.marked pa n), throttleEvict { s with wg := r.1 } s.th.ident.core r.2)
  else dieRead (l1Drop s pa) pa key n

/-! ### Writes -/

/-- A write of the issuing agent touches its line in the L1 of its workgroup, and updates it (R230, R428). -/
def ownL1 (s : State) (pa key : Nat) (w : Option MemWrite) : State :=
  match s.wg.l1.find? fun c => c.holds pa key with
  | none => s
  | some c =>
    let c := { c with toucher := (curSlot s).getD c.toucher }
    { s with wg := (l1Insert s.wg (match w with
        | some w => c.take w
        | none => c)).1 }

/-- The issuing workgroup's L1 and the issuing die take the writer's own bytes at once (R428, R113, R258). -/
def ownViews (s : State) (pa key : Nat) (data : List Byte) (mark : Bool) : State :=
  let s := drainDie (ownL1 s pa key (some (.one pa data mark))) s.th.ident.die
  if isHost pa then
    let v := s.die s.th.ident.die
    s.setDie s.th.ident.die { v with rdc := v.rdc.map fun c => if c.holds pa key then c.take (.one pa data mark) else c }
  else s

/-- A write toward another package (R113, R250, R428): the RDC line goes, nothing that is on its way fills the line, and L1 takes the bytes
when the write has been performed. -/
def awayViews (s : State) (pa key : Nat) : State :=
  let s := rdcDrop (ownL1 s pa key none) s.th.ident.die pa
  { s with wg := { s.wg with l1Due := s.wg.l1Due.filter fun f => f.addr != pa / 128 * 128 } }

/-- What L1 has still to take of a lane's write toward another package, under the tag of its packet (R250, R428). -/
def awaitOwn (s : State) (tag lane pa key : Nat) (data : List Byte) (mark : Bool) : State :=
  if s.wg.l1.any fun c => c.holds pa key then
    { s with wg := { s.wg with l1Own := s.wg.l1Own ++ [⟨tag, s.th.agent, lane, pa, key, .one pa data mark⟩] } }
  else s

/-- A store to memory by the issuing agent: performed at its home in this package or at the host, or sent to another package
as a WRITE (R277); the tag of a fabric write is answered. The key index travels in the GROUP bits of CTRL, and the marks in
the lane set (log entry 11). -/
def serveStore (s : State) (pa key : Nat) (data : List Byte) (mark : Bool) : Option Nat × State :=
  let away (p : Nat) : Option Nat × State :=
    let (t, s) := newTag (awayViews s pa key)
    let s := awaitOwn s t 32 pa key data mark
    (some t, sendPacket s { packetBlank with
      typ := 2, tc := 0, dst := p, addr := BitVec.ofNat 64 pa, width := data.length, group := key,
      lanes := if mark then 1 else 0, tag := t, data := data })
  match homeOf s pa with
  | none => (none, ownViews (homeWrite s pa key data mark s.pkg s.th.ident.die) pa key data mark)
  | some (p, _) =>
    if p = s.pkg then
      let s := noteAsker (drainDie s s.th.ident.die) pa s.th.ident.core
      (none, ownViews (homeWrite s pa key data mark s.pkg s.th.ident.die) pa key data mark)
    else away p

/-! ### Atomics -/

/-- The new value of an atomic (R124); operation 15 stands for ATOMCAS with its expected value. -/
def atomNew (op width old b expected : Nat) : Nat :=
  let m := 2 ^ (8 * width)
  let f := if width = 8 then fp64 else fp32
  let sg (x : Nat) : Int := if m / 2 ≤ x then (x : Int) - m else x
  match op with
  | 0 => (old + b) % m
  | 1 => old &&& b
  | 2 => old ||| b
  | 3 => old ^^^ b
  | 4 => if sg old ≤ sg b then old else b
  | 5 => if sg old ≤ sg b then b else old
  | 6 => min old b
  | 7 => max old b
  | 8 => b
  | 9 => if b = 0 then (old + 1) % m else (old % b + 1) % b
  | 10 => if b = 0 then (old + m - 1) % m else (old % b + b - 1) % b
  | 11 => (addVal f 0 false true (unpack f true old) (unpack f true b)).bits
  | 12 => (minMax f true false old b).bits
  | 13 => (minMax f true true old b).bits
  | 14 =>
    let h (x y : Nat) : Nat := (addVal bf16 0 false true (unpack bf16 true x) (unpack bf16 true y)).bits
    h (old % 65536) (b % 65536) + 65536 * h (old / 65536) (b / 65536)
  | _ => if old = expected then b else old

/-- What host memory accepts (R125): `add`, `exch` and ATOMCAS. -/
def hostAtomic (op : Nat) : Bool := op == 0 || op == 8 || op == 15

/-! ### Acquires and releases -/

/-- The scope reaches beyond the workgroup. -/
def beyondWg : Scope → Bool
  | .tr => false
  | .wg => false
  | .co => true
  | .pk => true
  | .pd => true

/-- The acquire part of an access at a scope (R117, R259): at `co` and wider the L1 lines go and the die applies what it holds, so
that its view shows the writes that come before the acquire (R256); at `pd` the RDC lines homed outside the package go too. -/
def acquire (s : State) (scope : Scope) : State :=
  let s := if beyondWg scope then drainDie { s with wg := { s.wg with l1 := [], l1Due := [], l1Own := [] } } s.th.ident.die else s
  if scope = .pd then
    let s := s.setFab (noFill s.fabric s.th.ident.die none)
    let v := s.die s.th.ident.die
    s.setDie s.th.ident.die { v with rdc := v.rdc.filter fun c => homedHere s c.addr }
  else s

/-- The release part of an access at a scope must still wait (R117): for stores to another package that are not
acknowledged. Every other store of the troupe has been performed when its word issued. -/
def releaseWaits (th : Thread) (scope : Scope) : Bool := beyondWg scope && !th.fabric.isEmpty

/-- The order has a release part (R251). -/
def releases : Order → Bool
  | .rlx => false
  | .acq => false
  | .rel => true
  | .acqrel => true
  | .sc => true

/-- The order has an acquire part (R251). -/
def acquires : Order → Bool
  | .rlx => false
  | .acq => true
  | .rel => false
  | .acqrel => true
  | .sc => true

/-! ### The checks of a memory word -/

/-- What one lane asks of memory (R112): its address, its width (1 for a line), whether it is a stack access, whether an
address operand is marked, whether a local window and which place of it and whether memory may be named, and the purpose. -/
structure LaneReq where
  va : DWord
  width : Nat
  stack : Bool
  marked : Bool
  windowOk : Bool
  regsOk : Bool
  memOk : Bool
  /-- a branch target of the lane is misaligned (R106) -/
  badTarget : Bool
  purpose : Purpose
  deriving DecidableEq, Repr

/-- The register window. -/
def Place.isRegs : Place → Bool
  | .window _ => true
  | .scratch _ _ _ => false
  | .mem _ _ => false

/-- Bytes at a place are touched (R19). -/
def touchPlace (s : State) (p : Place) (n : Nat) : State :=
  match p with
  | .scratch c w off => touchScratch s c w off n
  | .window off => touchPages s s.wg.ctx s.wg.wgl (windowPages s.wg s.th.agent.troupeNo off n)
  | .mem _ _ => s

/-- The place that a lane reaches, or the cause that it meets first in the order of R126. -/
def resolve (s : State) (r : LaneReq) : Except Refused Place × State :=
  let va := r.va.toNat
  let stackBad := r.stack && !(decide (s.th.stklo.toNat ≤ va) && decide (va + r.width ≤ s.th.stkhi.toNat))
  if r.marked then (.error (.data, 0), s)
  else if va % r.width ≠ 0 ∨ r.badTarget then (.error (.align, 0), s)
  else if isWindow va then
    match windowPlace s va r.width with
    | .error e => (.error e, s)
    | .ok p =>
      if !r.windowOk || (p.isRegs && !r.regsOk) then (.error (.window, 0), s)
      else if stackBad then (.error (.stack, 0), s)
      else (.ok p, touchPlace s p r.width)
  else if !r.memOk then (.error (.window, 0), s)
  else if stackBad then (.error (.stack, 0), s)
  else
    match translate s (curTlb s) (curAsid s) va r.purpose with
    | (.error e, s) => (.error e, s)
    | (.ok (pa, key), s) => (.ok (.mem pa key), s)

/-- A lane of a memory word: its operands as read at issue and what it asks. -/
abbrev LaneWork := LogLane × LaneReq

/-- Resolve every lane of a word, in lane order. -/
def resolveAll : List LaneWork → State → List (LogLane × Except Refused Place × DWord) × State
  | [], s => ([], s)
  | (x, r) :: rest, s =>
    let a := resolve s r
    let b := resolveAll rest a.2
    ((x, a.1, r.va) :: b.1, b.2)

/-- The rank of a cause in R126. -/
def Cause.rank : Cause → Nat
  | .data => 0
  | .align => 1
  | .window => 2
  | .stack => 3
  | .page => 4
  | .prot => 5
  | .none => 6
  | .reserved => 6
  | .brk => 6
  | .trap => 6

/-- The cause that a word reports (R126): the first in rank, at its lowest lane, with the address. -/
def worstOf : List (LogLane × Except Refused Place × DWord) → Option (Nat × Refused × DWord)
  | [] => none
  | (_, .ok _, _) :: rest => worstOf rest
  | (x, .error e, va) :: rest =>
    match worstOf rest with
    | some (l, e', va') => if e'.1.rank < e.1.rank then some (l, e', va') else some (x.lane, e, va)
    | none => some (x.lane, e, va)

/-- The lanes that met a fault. -/
def faultedLanes (rs : List (LogLane × Except Refused Place × DWord)) : LaneMask :=
  rs.foldl (fun m r => match r.2.1 with
    | .ok _ => m
    | .error _ => m ||| laneBit r.1.lane) 0

/-- An earlier store of the thread is not yet known to have been performed: a fault is not reported before (R127). -/
def storesOut (th : Thread) : Bool := !th.fabric.isEmpty

/-- A word faults at a lane (R126-R128), once every earlier store has been performed. A PAGE fault goes to system software and the
sub-group waits for the answer; any other cause goes to the user handler, a PROT fault with a fault record. `s` is the state with the
walks done, `s0` the state to keep where the word must wait. -/
def faultWord (s0 s : State) (kind : Access) (f : Nat × Refused × DWord) (lw : LogWord) : Out :=
  if storesOut s0.th then .next s0 else
  let rec_ := writeFault s f.2.2.toNat (curAsid s) f.2.1 s.th.agent.faultCode s.wg.ctx s.wg.wgl s.th.ident.core kind
  let trap (s : State) : Out := .next (logged (takeTrap s f.2.1.1 f.1 false (fullTrapRegs lw.word 0) [lw]))
  if f.2.1.1 = .page then
    match rec_ with
    | none => .next s0
    | some (id, s) =>
      let s := retireNow s s.th.grp.mask
      .next (saveLog (s.setTh { s.th with grp := { s.th.grp with st := .page id f.1, replay := some lw } }) [lw])
  else if outsideHandler s.th then .next s0
  else if f.2.1.1 = .prot then
    match rec_ with
    | none => trap s
    | some (_, s) => trap s
  else trap s

/-- A PROT fault that a word raises for another reason than a translation (R205, R218, R337, R355): it writes a fault record, whose
VA and SUB the spec leaves open. -/
def protWord (s0 s : State) (lane : Nat) (lw : LogWord) : Out :=
  faultWord s0 s .load (lane, (.prot, Config.protSubcode % 16), Config.protVa) lw

/-- The places that the lanes of a word reach. -/
def placesOf (rs : List (LogLane × Except Refused Place × DWord)) : List (LogLane × Place) :=
  rs.filterMap fun r => match r.2.1 with
    | .ok p => some (r.1, p)
    | .error _ => none

/-- A place in the origin directory, which no table entry may map (R344). -/
def Place.inDirectory : Place → Bool
  | .mem pa _ => Machine.inDirectory pa
  | .scratch _ _ _ => false
  | .window _ => false

/-- A memory word of the throttle (R230): groups 8 and 9, and CPY. -/
def isMemoryWord (i : Instr) : Bool := i.opcode / 64 == 8 || i.opcode / 64 == 9 || i.opcode == 640

/-- The path of a memory word: hold it back (R12, R61, R119, R230), read the operands of each participating lane or take them
from the operand log (R128), check every lane (R112, R126), and then perform it. `body` gets the state in which the word
has issued, and none of its own waits. -/
def memWord (i : Instr) (uses : List (Role × Operand)) (hd : Hdr) (kind : Access) (s : State)
    (lanes : State → LaneMask → List LogLane) (ask : State → LogLane → LaneReq) (waits : State → List (LogLane × Place) → Bool)
    (body : LaneMask → List (LogLane × Place) → State → Out) : Out :=
  let s := if endsWindow i then s.setTh (closeWindows s.th s.th.grp.mask) else s
  let act := takesPart s.th hd
  let reads := if s.th.grp.replay = none then uses else []
  if heldBack s.th reads hd.la.toNat act || fenced s.th i then .next s
  else if isMemoryWord i && !throttleAllows s then .next (throttleRefuse s)
  else
    let ls := match s.th.grp.replay with
      | some w => w.lanes
      | none => lanes s act
    let r := resolveAll (ls.map fun x => (x, ask s x)) s
    match worstOf r.1 with
    | some f => faultWord s r.2 kind f (logOf i hd s.th act (faultedLanes r.1) ls)
    | none =>
      let ps := placesOf r.1
      if ps.any fun p => p.2.inDirectory then .fault .originDirectory
      else if waits r.2 ps then .next r.2
      else body act ps (r.2.setTh (countWindows r.2.th r.2.th.grp.mask (issueDests hd uses [] act)))

end Sys2Proof.Machine
end

