-- ==== Sys2Proof/Machine/Ring.lean ====
section
/-!
DEFINITION. The Carousel (R269-R276): stops, buffers and hops, and the requests of cohort accesses that enter it (R20, R270).
-/

namespace Sys2Proof.Machine

/-! ### Directions and counters -/

/-- The hops of the shorter way and whether it is clockwise; 4 hops go clockwise (R271). -/
def shorterWay (src dst : Nat) : Bool × Nat :=
  let d := (dst + 8 - src) % 8
  if d ≤ 4 then (true, d) else (false, 8 - d)

/-- The direction of a delivery under RDIR (R271). -/
def ringWay (rdir : BitVec 2) (src dst : Nat) : Bool :=
  if rdir = 1 then true else if rdir = 2 then false else (shorterWay src dst).1

/-- A stop that a packet enters over the dateline (R272). -/
def crossesAt (cw : Bool) (stop : Nat) : Bool := if cw then stop == 0 else stop == 7

/-- Count one more packet, saturating at the 11 bits of CARSTAT (R276). -/
def bump11 (n : Nat) : Nat := min (n + 1) 2047

/-! ### Stops -/

/-- The Carousel of a cluster. -/
def State.ring (s : State) (c : Nat) : Carousel := tget Carousel.fresh s.carousels c

/-- Change a Carousel. -/
def State.setRing (s : State) (c : Nat) (x : Carousel) : State :=
  { s with carousels := tset Carousel.fresh s.carousels c x }

/-- Flits in use of the pool of a stop in a direction. -/
def CarStop.pool (x : CarStop) (cw : Bool) : Nat := if cw then x.usedCw else x.usedCcw

/-- Change the flits in use of a pool. -/
def CarStop.setPool (x : CarStop) (cw : Bool) (n : Nat) : CarStop := if cw then { x with usedCw := n } else { x with usedCcw := n }

/-- The key of the escape half of a direction and channel (R272). -/
def escapeKey (cw vc1 : Bool) : Nat := (if cw then 2 else 0) + (if vc1 then 1 else 0)

/-- The flits in use of the buffer of a spot. -/
def CarStop.used (x : CarStop) (cw : Bool) (p : CarSpot) : Nat :=
  match p.buf with
  | .source => 0
  | .pool => x.pool cw
  | .escape => tget 0 x.escape (escapeKey cw p.vc1)

/-- Change the flits in use of the buffer of a spot. -/
def CarStop.setUsed (x : CarStop) (cw : Bool) (p : CarSpot) (n : Nat) : CarStop :=
  match p.buf with
  | .source => x
  | .pool => x.setPool cw n
  | .escape => { x with escape := tset 0 x.escape (escapeKey cw p.vc1) n }

/-- The flits that a buffer holds: 16 in a pool, 2 in each half of an escape channel (R272). -/
def CarBuffer.size : CarBuffer → Nat
  | .source => 0
  | .pool => 16
  | .escape => 2

/-- The buffer that the head of a packet takes on entering a stop, with its first flit (R273), or none where it waits. -/
def CarStop.enter (x : CarStop) (p : CarPacket) : Option (CarBuffer × CarStop) :=
  let k := escapeKey p.clockwise p.vc1
  if min p.len 16 ≤ 16 - x.pool p.clockwise then some (.pool, x.setPool p.clockwise (x.pool p.clockwise + 1))
  else if tget 0 x.escape k < 2 then some (.escape, { x with escape := tset 0 x.escape k (tget 0 x.escape k + 1), escuse := bump11 x.escuse })
  else none

/-- A stop of a Carousel. -/
def Carousel.stop (r : Carousel) (n : Nat) : CarStop := tget CarStop.fresh r.stops n

/-- Change a stop. -/
def Carousel.setStop (r : Carousel) (n : Nat) (x : CarStop) : Carousel := { r with stops := tset CarStop.fresh r.stops n x }

/-! ### Packets -/

/-- The pair of stops of a packet (R275). -/
def CarPacket.pair (p : CarPacket) : Nat := 8 * p.src + p.dst

/-- A packet in its source buffer leaves when no earlier one of its pair is left there (R275). -/
def Carousel.mayLeave (r : Carousel) (p : CarPacket) : Bool :=
  p.buf != .source || (r.packets.find? fun q => q.buf == .source && q.pair == p.pair).map CarPacket.id == some p.id

/-- A packet that leaves its source takes the next sequence number of its pair (R275). -/
def Carousel.number (r : Carousel) (p : CarPacket) : CarPacket × Carousel :=
  if p.buf ≠ .source then (p, r)
  else
    let n := tget 0 r.nextSeq p.pair
    ({ p with seq := n }, { r with nextSeq := tset 0 r.nextSeq p.pair (n + 1) })

/-- The bytes at the bank that a cohort request needs. -/
def CohortOp.width : CohortOp → Nat
  | .read n => n
  | .write data _ => data.length
  | .atomic _ w _ _ _ => w
  | .combine _ _ data _ => data.length

/-- The 16-byte rows that what a packet carries needs at its target, by offset ÷ 16 (R274, R430). -/
def CarLoad.rows : CarLoad → List Nat
  | .request r => unitsOf r.off r.op.width
  | .delivery _ => []
  | .answer _ => []
  | .reply _ _ _ _ => []

/-- Flits enter a buffer of a Carousel, or leave it. -/
def Carousel.use (r : Carousel) (cw : Bool) (p : CarSpot) (f : Nat → Nat) : Carousel :=
  r.setStop p.stop ((r.stop p.stop).setUsed cw p (f ((r.stop p.stop).used cw p)))

/-- The buffer of a spot has a free flit. -/
def Carousel.roomy (r : Carousel) (cw : Bool) (p : CarSpot) : Bool := decide ((r.stop p.stop).used cw p < p.buf.size)

/-- The spot of a packet's head. -/
def CarPacket.head (p : CarPacket) : CarSpot := ⟨p.cur, p.buf, p.vc1, p.here⟩

/-- The flits that have not left the source. -/
def CarPacket.atSource (p : CarPacket) : Nat := p.len - p.here - (p.trail.map fun x => x.flits).sum

/-- The flits behind a spot move up by one each, the foremost first (R273): the spots, what is left at the source, and the ring. -/
def pullFlits (cw : Bool) (front : CarSpot) : List CarSpot → Nat → Carousel → (CarSpot × List CarSpot × Nat) × Carousel
  | [], left, r =>
    if left ≠ 0 ∧ r.roomy cw front then (({ front with flits := front.flits + 1 }, [], left - 1), r.use cw front (· + 1))
    else ((front, [], left), r)
  | b :: rest, left, r =>
    let m := b.flits ≠ 0 ∧ r.roomy cw front
    let front := if m then { front with flits := front.flits + 1 } else front
    let b := if m then { b with flits := b.flits - 1 } else b
    let r := if m then (r.use cw b (· - 1)).use cw front (· + 1) else r
    let q := pullFlits cw b rest left r
    ((front, (if q.1.1.flits = 0 ∧ q.1.2.1.isEmpty ∧ q.1.2.2 = 0 then [] else q.1.1 :: q.1.2.1), q.1.2.2), q.2)

/-- The flits of a packet move up behind its head. -/
def pullPacket (r : Carousel) (p : CarPacket) : CarPacket × Carousel :=
  let q := pullFlits p.clockwise p.head p.trail p.atSource r
  ({ p with here := q.1.1.flits, trail := q.1.2.1 }, q.2)

/-- The head of a packet hops to the next stop of its direction, or waits (R269-R273): the packet and the ring. -/
def headHop (r : Carousel) (p : CarPacket) : Option (CarPacket × Carousel) :=
  let to_ := if p.clockwise then (p.cur + 1) % 8 else (p.cur + 7) % 8
  let cross := crossesAt p.clockwise to_
  let n := r.number p
  let trail := if p.buf = .source then [] else { p.head with flits := p.here - 1 } :: p.trail
  let q := { n.1 with cur := to_, vc1 := p.vc1 || cross, rows := if to_ = p.dst then p.load.rows else [], here := 1, trail := trail }
  if p.cur = p.dst || !r.mayLeave p || (p.buf != .source && p.here == 0) then none
  else
    match (r.stop to_).enter q with
    | none => none
    | some (b, x) =>
      let x := if cross then { x with dlcross := bump11 x.dlcross } else x
      some ({ q with buf := b }, (n.2.setStop to_ x).use p.clockwise p.head (· - 1))

/-- A packet moves on by one flit (R269-R273): its head hops where it can, and the flits behind follow; none where nothing moves. -/
def carHop (r : Carousel) (p : CarPacket) : Option (CarPacket × Carousel) :=
  let h := (headHop r p).getD (p, r)
  let q := if h.1.buf = .source then h else pullPacket h.2 h.1
  if q.1 = p then none else some (q.1, { q.2 with packets := q.2.packets.map fun y => if y.id == p.id then q.1 else y })

/-- Every flit of a packet has reached the buffer of its head. -/
def CarPacket.whole (p : CarPacket) : Bool := p.buf == .source || p.here == p.len

/-- The steps that may move a packet on (R273, R274, R430). -/
def carSteps (cluster : Nat) (p : CarPacket) : List Instr :=
  (if p.cur ≠ p.dst ∨ !p.whole then [.carouselHop cluster p.id] else [])
    ++ (if p.cur ≠ p.dst then [] else if p.rows.isEmpty then [.carouselEject cluster p.dst]
        else p.rows.map fun u => .bankGrant (8 * cluster + p.dst) (u % 32))

/-- The steps that may move a Carousel's packets on. -/
def ringWake (s : State) (cluster : Nat) : List Instr := (s.ring cluster).packets.flatMap (carSteps cluster)

/-- A packet enters the Carousel of a cluster at its source (R269, R271). -/
def enterRing (s : State) (cluster src dst len : Nat) (cw : Bool) (load : CarLoad) : State :=
  let (id, s) := newTag s
  let r := s.ring cluster
  let p : CarPacket := ⟨id, load, src, dst, src, cw, false, len, .source, 0, if src = dst then load.rows else [], [], false, 0, []⟩
  let s := s.setRing cluster { r with packets := r.packets ++ [p] }
  { s with inputs := s.inputs ++ carSteps cluster p }

/-! ### Cohort requests -/

/-- The flits of a cohort request (R269): a read request is one, and what carries bytes has its header and 32 bytes to a flit. -/
def CohortOp.flits : CohortOp → Nat
  | .read _ => 1
  | .write data _ => 1 + ceilDiv data.length 32
  | .atomic op w _ _ _ => 1 + ceilDiv (if op = 15 then 2 * w else w) 32
  | .combine _ _ data _ => 1 + ceilDiv data.length 32

/-- The scratchpad is that of another workgroup than the given one. -/
def isAway (g : Workgroup) (c w : Nat) : Bool := !(g.ctx == c && g.wgl == w)

/-- A core asks for an access to a cohort member's scratchpad (R20, R270, R271): the tag of the reply. -/
def cohortAsk (s : State) (core c w off : Nat) (op : CohortOp) : Nat × State :=
  let (t, s) := newTag s
  let src := core % 8
  let dst := match (getWg s c w).bind fun g => g.core with
    | some k => if k / 8 = core / 8 then k % 8 else src
    | none => src
  (t, enterRing s (core / 8) src dst op.flits (shorterWay src dst).1 (.request ⟨t, c, w, off, op⟩))

end Sys2Proof.Machine
end

