-- ==== Sys2Proof/Machine/Memory.lean ====
section
/-!
DEFINITION. Group 8, loads and stores (R111-R122), and group 9, atomics (R123-R125).
-/

namespace Sys2Proof.Machine

/-! ### Operands and results -/

/-- An operand of up to 128 bits (R10, R112): `n` registers, or a constant sign-extended. -/
def opnd128 (s : State) (l n : Nat) (o : Operand) : BitVec 128 :=
  match n with
  | 1 => (opnd32 s l o).setWidth 128
  | 2 => (opnd64 s l o).setWidth 128
  | _ =>
    match o with
    | .v r => opnd64 s l (.v (r + 2)) ++ opnd64 s l (.v r)
    | .k r => opnd64 s l (.k (r + 2)) ++ opnd64 s l (.k r)
    | .s _ => (opnd64 s l o).setWidth 128
    | .c x => BitVec.ofInt 128 (constInt x)

/-- The effective address of a lane of class M (R54). -/
def memAddr (s : State) (m : Mem) (l : Nat) : DWord :=
  opnd64 s l m.a + (opnd32 s l m.b).signExtend 64 + BitVec.ofInt 64 (m.disp.toInt * m.width.bytes)

/-- The operands of a lane of class M as read at issue; `n` words of D are data (R112, R128). The log holds D of every word
that has one (R215). -/
def memLane (m : Mem) (n : Nat) (s : State) (l : Nat) : LogLane :=
  { lane := l, addr := memAddr s m l, a := opnd64 s l m.a, b := (opnd32 s l m.b).setWidth 64,
    data := opnd128 s l m.width.words m.d, addrMark := s.th.marked l 2 m.a || s.th.marked l 1 m.b,
    dataMark := n != 0 && s.th.marked l n m.d }

/-- What a lane of class M asks (R112); a stack access is one whose base is `k126` (R24). -/
def memAsk (m : Mem) (kind : Access) (s : State) (x : LogLane) : LaneReq :=
  { va := x.addr, width := m.width.bytes, stack := m.a == .k 126, marked := x.addrMark, windowOk := true, regsOk := true,
    memOk := true, badTarget := false, purpose := ⟨kind, s.th.agent.privileged, none, false⟩ }

/-- The register words that the bytes of a load fill (R54, R112). -/
def loadWords (width : Nat) (sx : Bool) (bytes : List Byte) : List Word :=
  let x := ofBytes bytes
  match width with
  | 1 => [if sx then (BitVec.ofNat 8 x).signExtend 32 else BitVec.ofNat 32 x]
  | 2 => [if sx then (BitVec.ofNat 16 x).signExtend 32 else BitVec.ofNat 32 x]
  | 4 => if sx then [BitVec.ofNat 32 x, ((BitVec.ofNat 32 x).signExtend 64).extractLsb' 32 32] else [BitVec.ofNat 32 x]
  | 8 => [BitVec.ofNat 32 x, BitVec.ofNat 32 (x / 2 ^ 32)]
  | _ => [BitVec.ofNat 32 x, BitVec.ofNat 32 (x / 2 ^ 32), BitVec.ofNat 32 (x / 2 ^ 64), BitVec.ofNat 32 (x / 2 ^ 96)]

/-- The writes of register words to a destination. -/
def wordWrites (l : Nat) (d : Operand) (ws : List Word) (mark : Bool) : List Wr :=
  (ws.zip (List.range ws.length)).flatMap fun w => match d with
    | .v r => [.v l (r.toNat + w.2) w.1 mark]
    | .k r => [.k (r.toNat + w.2) w.1 mark]
    | .s _ => []
    | .c _ => []

/-- Deliver a result of which some lanes may still await an answer of another package (R61, R277), which also checks the word
(R127, R414): its operands are kept until then. -/
def deliverWith (hd : Hdr) (ws : List Wr) (aw : List Await) (lw : LogWord) (th : Thread) : Thread :=
  match aw with
  | [] => deliver hd ws th
  | _ :: _ => openPend hd (.result ws aw []) [] (some lw) none th

/-! ### Loads -/

/-- A word's loads so far: the state, results, awaited answers, requests sent by line, whether a marked value came, and the lines that it
has asked for (R122). -/
structure LoadAcc where
  s : State
  ws : List Wr
  aw : List Await
  tags : List (Nat × Nat)
  mark : Bool
  lines : List Nat
  /-- the atomics that go to other packages, by line and key index -/
  atoms : List ((Nat × Nat) × List (LogLane × Nat))
  deriving DecidableEq, Repr

/-- A word sends one request for each line (R122): a home that counts requests (R364) counts a line of the word once. `s0` is the state
before the lane's access. -/
def countOnce (lines : List Nat) (pa : Nat) (s0 s : State) : State :=
  if lines.contains (pa / 128) then { s with trans := { s.trans with counts := s0.trans.counts, askers := s0.trans.askers } } else s

/-- Ask another package for a line (R122, R277). An earlier request of the die for it no longer fills its RDC, whose view would go back
(R256). -/
def requestLineFrom (s : State) (die pa key : Nat) : Nat × State :=
  let (t, s) := newTag (s.setFab (noFill s.fabric die (some pa)))
  let dst := ((homeOf s pa).getD (0, 0)).1
  (t, sendFrom s die { packetBlank with
    typ := 0, tc := 0, dst := dst, addr := BitVec.ofNat 64 (pa / 128 * 128), width := 128, group := key, tag := t })

/-- Ask for a line on behalf of the agent that issues. -/
def requestLine (s : State) (pa key : Nat) : Nat × State := requestLineFrom s s.th.ident.die pa key

/-- Ask for a line, which fills L1 too when the access goes through it (R115, R428). -/
def requestNear (near : Bool) (hint : Hint) (s : State) (pa key : Nat) : Nat × State :=
  let r := requestLine s pa key
  if near then
    let due := r.2.wg.l1Due.filter fun f => f.addr != pa / 128 * 128
    (r.1, { r.2 with wg := { r.2.wg with l1Due := due ++ [⟨r.1, pa / 128 * 128, key, hint, (curSlot s).getD 0⟩] } })
  else r

/-- Above every line of memory: where the tags of cohort reads stand among those of lines. -/
def cohortLine : Nat := 2 ^ 64

/-- One lane's load (R113, R255). Under a uniform destination only the lowest lane's value is taken (R49). The register window shows the
registers of `th`, the thread as the word found it: what earlier words have still to write counts (R22). -/
def loadLane (m : Mem) (th : Thread) (take : Nat → Bool) (a : LoadAcc) (x : LogLane × Place) : LoadAcc :=
  let w := m.width.bytes
  let got (s : State) (b : List Byte) (mark : Bool) : LoadAcc :=
    { a with s := s, mark := a.mark || mark,
             ws := if take x.1.lane then a.ws ++ wordWrites x.1.lane m.d (loadWords w m.sx b) mark else a.ws }
  match x.2 with
  | .scratch c g off =>
    if isAway a.s.wg c g then
      let r := cohortAsk a.s a.s.th.ident.core c g off (.read w)
      { a with s := r.2, tags := a.tags ++ [(cohortLine + r.1, r.1)],
               aw := a.aw ++ [⟨r.1, x.1.lane, if take x.1.lane then m.d else .c 0, 0, w, m.sx⟩] }
    else
      match getWg a.s c g with
      | some h => got a.s (h.bytes off w) (anyMark h.scratchMark off w)
      | none => a
  | .window off => let r := windowLoad th off w; got a.s r.1 r.2
  | .mem pa key =>
    match serveLoad a.s x.1.lane m.order m.scope m.hint pa key w with
    | (some (b, mark), s) => { got (countOnce a.lines pa a.s s) b mark with lines := pa / 128 :: a.lines }
    | (none, s) =>
      let (t, s, tags) := match lookupBy (pa / 128) a.tags with
        | some t => (t, s, a.tags)
        | none => let r := requestNear (nearL1 m.order m.scope m.hint) m.hint s pa key; (r.1, r.2, a.tags ++ [(pa / 128, r.1)])
      { a with s := s, tags := tags,
               aw := a.aw ++ [⟨t, x.1.lane, if take x.1.lane then m.d else .c 0, pa % 128, w, m.sx⟩] }

/-- A load meets an empty register of the register window (R21). -/
def loadWaits (w : Nat) (s : State) (ps : List (LogLane × Place)) : Bool :=
  ps.any fun p => match p.2 with
    | .window off => windowWaits s.th off w
    | .scratch _ _ _ => false
    | .mem _ _ => false

/-- An access that another package must answer holds back later accesses when it acquires or is `sc` (R251, R257). -/
def block (s : State) (order : Order) (scope : Scope) (tags : List Nat) : State :=
  if acquires order && !tags.isEmpty then
    s.setTh { s.th with blocked := s.th.blocked ++ tags, acq := some scope }
  else s

/-- An atomic that returns a value comes before every later access of its lane, whatever its home (R254): one that another
package must perform holds them back. -/
def blockAtomic (s : State) (result : Bool) (order : Order) (tags : List Nat) : State :=
  if result && !acquires order then s.setTh { s.th with blocked := s.th.blocked ++ tags } else s

/-- Perform the loads of a word (R113): the acquire of its order, each lane's read, and the results. `found` is the thread as the word
found it. -/
def loadAll (i : Instr) (m : Mem) (found : Thread) (act : LaneMask) (ps : List (LogLane × Place)) (s : State) : State :=
  let lw := logOf i m.hd s.th act 0 (ps.map Prod.fst)
  let s := if acquires m.order && act != 0 then acquire s m.scope else s
  let uniform := match m.d with
    | .k _ => true
    | .v _ => false
    | .s _ => false
    | .c _ => false
  let r := ps.foldl (loadLane m found fun l => !uniform || l == lowLane act) ⟨s, [], [], [], false, [], []⟩
  let s := block r.s m.order m.scope (r.tags.map Prod.snd)
  let th := if r.mark then s.th.raiseErr 4 else s.th
  s.setTh (advance (deliverWith m.hd r.ws r.aw lw th))

/-- `LD` (R112, R113). -/
def execLd (m : Mem) (s : State) : Out :=
  memWord (.ld m) (Instr.ld m).uses m.hd .load s (fun s act => (lanesOf act).map (memLane m 0 s)) (memAsk m .load)
    (loadWaits m.width.bytes) (fun act ps s' => .next (loadAll (.ld m) m s.th act ps s'))

/-- `LDU`: one access for the word (R114). -/
def execLdu (m : Mem) (s : State) : Out :=
  memWord (.ldu m) (Instr.ldu m).uses m.hd .load s (fun s act => ((lanesOf act).take 1).map (memLane m 0 s)) (memAsk m .load)
    (loadWaits m.width.bytes) (fun act ps s' => .next (loadAll (.ldu m) m s.th act ps s'))

/-! ### Stores -/

/-- A word's stores so far: the state, the tags of those to cohort members, the lines that it has asked for, and what goes to other packages
by line and key index (R122). -/
structure StoreAcc where
  s : State
  tags : List Nat
  lines : List Nat
  out : List ((Nat × Nat) × MemWrite)
  deriving DecidableEq, Repr

/-- One lane's store (R113). -/
def storeLane (w : Nat) (a : StoreAcc) (x : LogLane × Place) : StoreAcc :=
  let data := toBytes w x.1.data.toNat
  let s := a.s
  match x.2 with
  | .scratch c g off =>
    if isAway s.wg c g then
      let r := cohortAsk s s.th.ident.core c g off (.write data x.1.dataMark)
      { a with s := r.2, tags := a.tags ++ [r.1] }
    else
      match getWg s c g with
      | some h => { a with s := putWg s (h.put off data x.1.dataMark) }
      | none => a
  | .window off => { a with s := s.setTh (windowStore s.th off data x.1.dataMark) }
  | .mem pa key =>
    if homedHere s pa || isHost pa then
      { a with s := countOnce a.lines pa s (serveStore s pa key data x.1.dataMark).2, lines := pa / 128 :: a.lines }
    else
      let new := MemWrite.one pa data x.1.dataMark
      let all := match lookupBy (pa / 128, key) a.out with
        | none => new
        | some old => old.then new
      { a with s := awayViews s pa key, out := putBy (pa / 128, key) all a.out }

/-- The writes of a word to other packages leave, one for each line; their tags by line and key index (R122). -/
def sendLines (s : State) (out : List ((Nat × Nat) × MemWrite)) : List ((Nat × Nat) × Nat) × State :=
  out.foldl (fun a e => let r := lineWrite a.2 e.1.1 e.1.2 e.2; (a.1 ++ [(e.1, r.1)], r.2)) ([], s)

/-- L1 has still to take what the lanes of a word have sent to other packages (R250, R428). -/
def awaitOwns (w : Nat) (ps : List (LogLane × Place)) (tags : List ((Nat × Nat) × Nat)) (s : State) : State :=
  ps.foldl (fun s x => match x.2 with
    | .mem pa key => match lookupBy (pa / 128, key) tags with
      | some t => awaitOwn s t x.1.lane pa key (toBytes w x.1.data.toNat) x.1.dataMark
      | none => s
    | .scratch _ _ _ => s
    | .window _ => s) s

/-- The stores of the lanes of a word, in increasing lane order, so that the highest lane's bytes remain (R113): the tags of what goes to
other packages and to cohort members. -/
def storeLanes (w : Nat) (ps : List (LogLane × Place)) (s : State) : List Nat × State :=
  let a := ps.foldl (storeLane w) ⟨s, [], [], []⟩
  let r := sendLines a.s a.out
  (a.tags ++ r.1.map Prod.snd, awaitOwns w ps r.1 r.2)

/-- Perform the stores of a word (R113). -/
def storeAll (m : Mem) (ps : List (LogLane × Place)) (s : State) : State :=
  let r := storeLanes m.width.bytes ps s
  let th := { r.2.th with fabric := r.2.th.fabric ++ r.1, blocked := if m.order = .sc then r.2.th.blocked ++ r.1 else r.2.th.blocked }
  let th := if ps.any fun p => p.1.dataMark then th.raiseErr 4 else th
  r.2.setTh (advance th)

/-- A store with a release part waits for the earlier stores that its scope names (R117, R251). -/
def storeWaits (m : Mem) (s : State) (ps : List (LogLane × Place)) : Bool :=
  releases m.order && releaseWaits s.th m.scope && !ps.isEmpty

/-- `ST` (R112, R113). -/
def execSt (m : Mem) (s : State) : Out :=
  memWord (.st m) (Instr.st m).uses m.hd .store s (fun s act => (lanesOf act).map (memLane m m.width.words s))
    (memAsk m .store) (storeWaits m) (fun _ ps s => .next (storeAll m ps s))

/-- `STU`: one access for the word (R114). -/
def execStu (m : Mem) (s : State) : Out :=
  memWord (.stu m) (Instr.stu m).uses m.hd .store s
    (fun s act => ((lanesOf act).take 1).map (memLane m m.width.words s)) (memAsk m .store) (storeWaits m)
    (fun _ ps s => .next (storeAll m ps s))

/-! ### Lines -/

/-- The operands of a lane of PREF or CFLUSH, which have no D (R115, R116). -/
def lineLane (m : Mem) (s : State) (l : Nat) : LogLane := { memLane m 0 s l with data := 0 }

/-- What a lane of PREF or CFLUSH asks: its line, never misaligned, and no stack check of more than its byte (R112). DEDUCED (log entry 48):
the translation of CFLUSH is checked as that of a load, since R116 names no kind of access. -/
def lineAsk (m : Mem) (s : State) (x : LogLane) : LaneReq :=
  { va := x.addr, width := 1, stack := m.a == .k 126, marked := x.addrMark, windowOk := false, regsOk := false, memOk := true, badTarget := false,
    purpose := ⟨.load, s.th.agent.privileged, none, false⟩ }

/-- One lane's request for a line (R115). A request for a line of another package fills the RDC, and L1, when its
answer comes. -/
def prefLane (m : Mem) (s : State) (x : LogLane × Place) : State :=
  match x.2 with
  | .scratch _ _ _ => s
  | .window _ => s
  | .mem pa key =>
    if inDirectory pa then s
    else
      let scope : Scope := if m.hint = .nl1 then .pk else .wg
      match serveLoad s x.1.lane .rlx scope m.hint (pa / 128 * 128) key 128 with
      | (some _, s) => s
      | (none, s) => (requestNear (m.hint != .nl1) m.hint s pa key).2

/-- The lanes that reach memory, one for each line and key index: a word sends one request for each line (R122). -/
def onePerLine (ps : List (LogLane × Place)) : List (LogLane × Place) :=
  ps.foldl (fun l x => match x.2 with
    | .mem pa key =>
      let again (y : LogLane × Place) : Bool := match y.2 with
        | .mem a k => a / 128 == pa / 128 && k == key
        | .scratch _ _ _ => false
        | .window _ => false
      if l.any again then l else l ++ [x]
    | .scratch _ _ _ => l
    | .window _ => l) []

/-- `PREF` (R115): a request that would fault is dropped. -/
def execPref (m : Mem) (s : State) : Out :=
  issue (.pref m) (Instr.pref m).uses [] m.hd s fun act s' =>
    if !throttleAllows s then .next (throttleRefuse s)
    else
      let r := resolveAll ((lanesOf act).map fun l => (lineLane m s' l, lineAsk m s' (lineLane m s' l))) s'
      let s'' := (onePerLine (placesOf r.1)).foldl (prefLane m) r.2
      .next (s''.setTh (advance s''.th))

/-- One lane's flush of its line (R116). The model's memory holds the home's L2 and its HBM4 as one, so that a write-back
changes nothing there. -/
def flushLane (m : Mem) (s : State) (x : LogLane × Place) : State :=
  match x.2 with
  | .scratch _ _ _ => s
  | .window _ => s
  | .mem pa _ =>
    let s := l1Drop s pa
    if beyondWg m.scope && !(homeOf s pa == some (s.pkg, s.th.ident.die)) then rdcDrop s s.th.ident.die pa else s

/-- `CFLUSH` (R116). -/
def execCflush (m : Mem) (s : State) : Out :=
  memWord (.cflush m) (Instr.cflush m).uses m.hd .load s (fun s act => (lanesOf act).map (lineLane m s)) (lineAsk m)
    (fun _ _ => false) (fun _ ps s =>
      let s := ps.foldl (flushLane m) s
      .next (s.setTh (advance s.th)))

/-- An earlier load of the troupe has not returned (R109). -/
def loadsOut (th : Thread) : Bool :=
  th.pend.any fun p => match p.owed with
    | .wait _ => false
    | .result _ aw _ => !aw.isEmpty

/-- The earlier writes to other packages that a release at a scope waits for (R117). -/
def releaseTags (th : Thread) (scope : Scope) : List Nat := if beyondWg scope then th.fabric else []

/-- The answers that the outstanding loads of a troupe await (R117). -/
def loadTags (th : Thread) : List Nat :=
  th.pend.flatMap fun p => match p.owed with
    | .wait _ => []
    | .result _ aw _ => aw.map Await.tag

/-- What a FENCE waits for: the earlier writes of its release part, and with `sc` every earlier load of the troupe (R117). -/
def fenceTags (th : Thread) (m : Mem) : List Nat :=
  (if releases m.order then releaseTags th m.scope else []) ++ if m.order = .sc then loadTags th else []

/-- A FENCE has its release part behind it: then its acquire part takes effect (R117). -/
def fenceDone (s : State) : Wait → Option State
  | .fence tags acq =>
    if tags.any fun t => s.th.fabric.contains t || (loadTags s.th).contains t then none
    else some (match acq with
      | some scope => acquire s scope
      | none => s)
  | _ => none

/-- `FENCE` (R117): it waits for its release part, and then its acquire part takes effect. The loads of its sub-group before it have
returned, since it does not issue behind one that another package has still to answer. -/
def execFence (m : Mem) (s : State) : Out :=
  issue (.fence m) [] [] m.hd s fun act s' =>
    if !throttleAllows s then .next (throttleRefuse s)
    else if act = 0 then .next (s'.setTh (advance s'.th))
    else
      let w := Wait.fence (fenceTags s.th m) (if acquires m.order then some m.scope else none)
      match fenceDone s' w with
      | some u => .next (u.setTh (advance u.th))
      | none => .next (s'.setTh (advance (openWait m.hd w s'.th)))

/-! ### WADDR -/

/-- A lane of a WADDR that has not met its condition: its place, comparand, and the read of a cohort member that is on its way. -/
abbrev WaddrLane := Nat × Place × DWord × Option Peek

/-- The bytes that a lane of WADDR has read: at its own bank, or what a cohort member has replied (R20, R118). -/
def waddrRead (s : State) (w : Nat) (x : WaddrLane) : Option (List Byte) :=
  match x.2.1, x.2.2.2 with
  | .scratch c g off, none => if isAway s.wg c g then none else (getWg s c g).map fun h => h.bytes off w
  | .scratch _ _ _, some p => p.got.map Prod.fst
  | .window _, _ => some []
  | .mem _ _, _ => some []

/-- One lane's look (R118): none when its condition holds; a cohort member is asked again after each reply. -/
def waddrLook (w : Nat) (geu : Bool) (s : State) (x : WaddrLane) : Option WaddrLane × State :=
  let met := (waddrRead s w x).any fun b => if geu then decide (x.2.2.1.toNat ≤ ofBytes b) else ofBytes b == x.2.2.1.toNat
  if met then (none, s)
  else
    match x.2.1 with
    | .scratch c g off =>
      if isAway s.wg c g && !(x.2.2.2.any fun p => p.got.isNone) then
        let r := cohortAsk s s.th.ident.core c g off (.read w)
        (some (x.1, x.2.1, x.2.2.1, some ⟨r.1, none⟩), r.2)
      else (some x, s)
    | .window _ => (some x, s)
    | .mem _ _ => (some x, s)

/-- The lanes of a WADDR that have not met their condition (R118). -/
def waddrLeft (w : Nat) (geu : Bool) (s : State) : List WaddrLane → List WaddrLane × State
  | [] => ([], s)
  | x :: r =>
    let a := waddrLook w geu s x
    let b := waddrLeft w geu a.2 r
    (a.1.toList ++ b.1, b.2)

/-- What a lane of WADDR asks: windows 0x0 and 0x2 only (R118). -/
def waddrAsk (m : Mem) (s : State) (x : LogLane) : LaneReq :=
  { va := x.addr, width := m.width.bytes, stack := m.a == .k 126, marked := x.addrMark, windowOk := true, regsOk := false,
    memOk := false, badTarget := false, purpose := ⟨.load, s.th.agent.privileged, none, false⟩ }

/-- `WADDR` (R118): the lanes that the first read already satisfies are done; the word waits for the others. -/
def execWaddr (m : Mem) (s : State) : Out :=
  memWord (.waddr m) (Instr.waddr m).uses m.hd .load s (fun s act => (lanesOf act).map (memLane m m.width.words s))
    (waddrAsk m) (fun _ _ => false) (fun act ps s =>
      let w := m.width.bytes
      let r := waddrLeft w m.sx s (ps.map fun p => (p.1.lane, p.2, BitVec.ofNat 64 (p.1.data.toNat % 2 ^ (8 * w)), none))
      let s := r.2
      if r.1.isEmpty then
        let s := if m.order = .acq && !ps.isEmpty then acquire s m.scope else s
        .next (s.setTh (advance s.th))
      else
        let lw := logOf (.waddr m) m.hd s.th act 0 (ps.map Prod.fst)
        .next (s.setTh (advance (openKept m.hd (.waddr w m.sx (m.order == .acq) m.scope r.1) lw s.th))))

/-! ### Atomics -/

/-- The operands of a lane of group 9 (R55): `n` words of B, and of D, which ATOMCAS compares and RED lacks. -/
def atomLane (x : Atom) (cas hasD : Bool) (s : State) (l : Nat) : LogLane :=
  let n := x.width.words
  let fp := !cas && (x.op == 11 || x.op == 12 || x.op == 13)
  let b : DWord :=
    if x.op = 14 && !cas then BitVec.ofNat 64 (opndPacked bf16 s l x.b)
    else if fp then (if n = 2 then BitVec.ofNat 64 (opndF64 s l x.b) else BitVec.ofNat 64 (opndF32 s l x.b))
    else if n = 2 then opnd64 s l x.b else (opnd32 s l x.b).setWidth 64
  { lane := l, addr := opnd64 s l x.a + BitVec.ofInt 64 (x.disp.toInt * x.width.bytes), a := opnd64 s l x.a, b := b,
    data := if hasD then opnd128 s l n x.d else 0, addrMark := s.th.marked l 2 x.a,
    dataMark := s.th.marked l n x.b || (cas && s.th.marked l n x.d) }

/-- What a lane of group 9 asks (R123, R125). -/
def atomAsk (x : Atom) (op : Nat) (s : State) (l : LogLane) : LaneReq :=
  { va := l.addr, width := x.width.bytes, stack := x.a == .k 126, marked := l.addrMark, windowOk := true, regsOk := false,
    memOk := true, badTarget := false, purpose := ⟨.atomic, s.th.agent.privileged, none, !hostAtomic op⟩ }

/-- One atomic of an ATOM packet: its place in the line, b, the comparand of ATOMCAS, and whether an operand is marked. -/
structure AtomOp where
  off : Nat
  b : Nat
  cmp : Nat
  mark : Bool
  deriving DecidableEq, Repr

/-- The operands of atomics in an ATOM packet (R277; log entry 11): b of each, and its comparand for ATOMCAS, in the payload; the places, 4 bits
each in units of 8 bytes, in CAP, or a byte each in the payload where they are units of 4 bytes; the marks in the lane set. -/
def putAtomOps (p : Packet) (ops : List AtomOp) : Packet :=
  let ixs := ops.zip (List.range ops.length)
  { p with
    data := ops.flatMap fun x => (if p.width = 8 then [] else [BitVec.ofNat 8 x.off]) ++ toBytes p.width x.b ++ toBytes p.width x.cmp
    cap := if p.width = 8 then BitVec.ofNat 128 (ixs.map fun x => x.1.off / 8 * 16 ^ x.2).sum else 0
    lanes := ixs.foldl (fun m x => if x.1.mark then m ||| laneBit x.2 else m) 0 }

/-- The atomics that an ATOM packet carries in its payload. -/
def atomOps (p : Packet) : List AtomOp :=
  let k := if p.width = 8 then 0 else 1
  let n := k + 2 * p.width
  (List.range (p.data.length / n)).map fun i =>
    let b := p.data.drop (n * i)
    ⟨if k = 0 then 8 * (p.cap.toNat / 16 ^ i % 16) else ofBytes (b.take 1), ofBytes ((b.drop k).take p.width),
      ofBytes ((b.drop (k + p.width)).take p.width), p.lanes.getLsbD i⟩

/-- One lane's atomic (R124, R125): at the bank, at the home or at the host; what goes to another package is gathered by line. -/
def atomStep (x : Atom) (op : Nat) (take : Nat → Bool) (a : LoadAcc) (p : LogLane × Place) : LoadAcc :=
  let w := x.width.bytes
  let new (old : List Byte) : List Byte :=
    toBytes w (atomNew op w (ofBytes old) (p.1.b.toNat % 2 ^ (8 * w)) (p.1.data.toNat % 2 ^ (8 * w)))
  let got (s : State) (old : List Byte) (mark : Bool) : LoadAcc :=
    { a with s := s, mark := a.mark || mark || p.1.dataMark,
             ws := if take p.1.lane then a.ws ++ wordWrites p.1.lane x.d (loadWords w false old) mark else a.ws }
  match p.2 with
  | .window _ => a
  | .scratch c g off =>
    if isAway a.s.wg c g then
      let r := cohortAsk a.s a.s.th.ident.core c g off
        (.atomic op w (p.1.b.toNat % 2 ^ (8 * w)) (p.1.data.toNat % 2 ^ (8 * w)) p.1.dataMark)
      { a with s := r.2, tags := a.tags ++ [(cohortLine + r.1, r.1)], mark := a.mark || p.1.dataMark,
               aw := a.aw ++ [⟨r.1, p.1.lane, if take p.1.lane then x.d else .c 0, 0, w, false⟩] }
    else
      match getWg a.s c g with
      | none => a
      | some h =>
        let old := h.bytes off w
        got (putWg a.s (h.put off (new old) p.1.dataMark)) old (anyMark h.scratchMark off w)
  | .mem pa key =>
    let d := a.s.th.ident.die
    if homedHere a.s pa || isHost pa then
      let s := drainDie a.s d
      let r := recordRead (noteAsker s pa a.s.th.ident.core) pa key w s.pkg d
      let s := ownViews (homeWrite r.2 pa key (new r.1.1) p.1.dataMark s.pkg d) pa key (new r.1.1) p.1.dataMark
      { got (countOnce (pa / 128 :: a.lines) pa (if a.lines.contains (pa / 128) then a.s else r.2) s) r.1.1 r.1.2 with
        lines := pa / 128 :: a.lines }
    else
      let all := ((lookupBy (pa / 128, key) a.atoms).getD []) ++ [(p.1, pa)]
      { a with s := rdcDrop (l1Drop a.s pa) d pa, atoms := putBy (pa / 128, key) all a.atoms }

/-- The atomics of a word on one line of another package leave in one ATOM packet (R122, R277). -/
def sendAtoms (x : Atom) (op : Nat) (take : Nat → Bool) (a : LoadAcc) (e : (Nat × Nat) × List (LogLane × Nat)) : LoadAcc :=
  let w := x.width.bytes
  let base := 128 * e.1.1
  let ops := e.2.map fun y => (⟨y.2 - base, y.1.b.toNat % 2 ^ (8 * w), y.1.data.toNat % 2 ^ (8 * w), y.1.dataMark⟩ : AtomOp)
  let (t, s) := newTag a.s
  let s := sendPacket s (putAtomOps { packetBlank with
    typ := 3, tc := 0, dst := ((homeOf s base).getD (0, 0)).1, addr := BitVec.ofNat 64 base, width := w, op := op, group := e.1.2,
    tag := t } ops)
  { a with s := s, tags := a.tags ++ [(base, t)],
           aw := a.aw ++ (e.2.zip (List.range e.2.length)).map fun y =>
             ⟨t, y.1.1.lane, if take y.1.1.lane then x.d else .c 0, 16 * y.2, w, false⟩ }

/-- Perform the atomics of a word in increasing lane order (R125). -/
def atomAll (i : Instr) (x : Atom) (op : Nat) (result : Bool) (act : LaneMask) (ps : List (LogLane × Place)) (s : State) : State :=
  let lw := logOf i x.hd s.th act 0 (ps.map Prod.fst)
  let s := if acquires x.order && act != 0 then acquire s x.scope else s
  let uniform := match x.d with
    | .k _ => true
    | .v _ => false
    | .s _ => false
    | .c _ => false
  let take (l : Nat) : Bool := result && (!uniform || l == lowLane act)
  let r := ps.foldl (atomStep x op take) ⟨s, [], [], [], false, [], []⟩
  let r := r.atoms.foldl (sendAtoms x op take) r
  let tags := r.tags.map Prod.snd
  let s := blockAtomic (block r.s x.order x.scope tags) result x.order tags
  let th := { s.th with fabric := s.th.fabric ++ tags }
  let th := if r.mark then th.raiseErr 4 else th
  s.setTh (advance (deliverWith x.hd (if result then r.ws else []) r.aw lw th))

/-- An atomic with a release part waits as a store does (R117, R251). -/
def atomWaits (x : Atom) (s : State) (ps : List (LogLane × Place)) : Bool :=
  releases x.order && releaseWaits s.th x.scope && !ps.isEmpty

/-- `ATOM` (R123, R124). -/
def execAtom (x : Atom) (s : State) : Out :=
  memWord (.atom x) (Instr.atom x).uses x.hd .atomic s (fun s act => (lanesOf act).map (atomLane x false true s))
    (atomAsk x x.op.toNat) (atomWaits x) (fun act ps s => .next (atomAll (.atom x) x x.op.toNat true act ps s))

/-- `ATOMCAS` (R123, R124). -/
def execAtomcas (x : Atom) (s : State) : Out :=
  memWord (.atomcas x) (Instr.atomcas x).uses x.hd .atomic s (fun s act => (lanesOf act).map (atomLane x true true s))
    (atomAsk x 15) (atomWaits x) (fun act ps s => .next (atomAll (.atomcas x) x 15 true act ps s))

/-- `RED`: an atomic without a result (R123). -/
def execRed (x : Atom) (s : State) : Out :=
  memWord (.red x) (Instr.red x).uses x.hd .atomic s (fun s act => (lanesOf act).map (atomLane x false false s))
    (atomAsk x x.op.toNat) (atomWaits x) (fun act ps s => .next (atomAll (.red x) x x.op.toNat false act ps s))

end Sys2Proof.Machine
end

