-- ==== Sys2Proof/Machine/Control.lean ====
section
/-!
DEFINITION. Group 7, control flow (R105-R110, R433), the reserved-encoding trap (R64-R67), and the steps that complete what a
sub-group waits for (R61, R118).
-/

namespace Sys2Proof.Machine

/-- The byte offset of a class I label (R53, R105). -/
def labelTarget (pc : DWord) (imm : BitVec 27) : DWord := pc + BitVec.ofInt 64 (imm.toInt * 8)

/-- `NOP` (R105). -/
def execNop (hd : Hdr) (s : State) : Out :=
  issue (.nop hd) [] [] hd s fun _ s => .next (s.setTh (advance s.th))

/-- `BRA` (R106). -/
def execBra (hd : Hdr) (imm : BitVec 27) (s : State) : Out :=
  issue (.bra hd imm) [] [] hd s fun act s =>
    let pc := s.th.grp.pc
    .next (s.setTh (branchTo s.th fun l => if act.getLsbD l then labelTarget pc imm else pc + 8))

/-- The target pair of a lane, as a lane's operands (R106, R128). -/
def targetLane (a : Operand) (addr : Nat → DWord) (s : State) (l : Nat) : LogLane :=
  { lane := l, addr := addr l, a := opnd64 s l a, b := 0, data := 0, addrMark := s.th.marked l 2 a, dataMark := false }

/-- The first fault of the branch targets (R106, R126): DATA before ALIGN. -/
def targetFault (ls : List LogLane) : Option (Nat × Refused × DWord) :=
  match ls.find? fun x => x.addrMark with
  | some x => some (x.lane, (.data, 0), x.a)
  | none => (ls.find? fun x => x.a.toNat % 8 != 0).map fun x => (x.lane, (.align, 0), x.a)

/-- `BRX` (R106). -/
def execBrx (hd : Hdr) (a : Operand) (s : State) : Out :=
  issue (.brx hd a) (Instr.brx hd a).uses [] hd s fun act s' =>
    let ls := match s.th.grp.replay with
      | some w => w.lanes
      | none => (lanesOf act).map (targetLane a (fun _ => 0) s')
    match targetFault ls with
    | some f => faultWord s s' .load f (logOf (.brx hd a) hd s'.th act (laneBit f.1) ls)
    | none =>
      let pc := s'.th.grp.pc
      .next (s'.setTh (branchTo s'.th fun l =>
        match ls.find? fun x => x.lane == l with
        | some x => x.a
        | none => pc + 8))

/-! ### Calls -/

/-- The stack pointer (R24). -/
def stackPtr (th : Thread) : DWord := th.rdK 127 ++ th.rdK 126

/-- Move the stack pointer (R107). -/
def setStackPtr (th : Thread) (x : DWord) : Thread := (th.wrK 126 (x.setWidth 32) false).wrK 127 (x.extractLsb' 32 32) false

/-- The stack pointer, as a word that reads and moves it names it (R61, R107). -/
def stackUses : List (Role × Operand) := [(.usrc 2, .k 126), (.udst 2, .k 126)]

/-- What a slot of CALL, CALLX or RET asks: an aligned 8-byte stack access (R24, R107). -/
def slotAsk (kind : Access) (target : Bool) (s : State) (x : LogLane) : LaneReq :=
  { va := x.addr, width := 8, stack := true, marked := target && x.addrMark, windowOk := true, regsOk := true, memOk := true,
    badTarget := target && x.a.toNat % 8 != 0, purpose := ⟨kind, s.th.agent.privileged, none, false⟩ }

/-- The call of the active lanes: every slot is written, sp moves once, and the lanes branch (R107). -/
def callAll (target : LogLane → DWord → DWord) (act : LaneMask) (ps : List (LogLane × Place)) (s : State) : State :=
  let pc := s.th.grp.pc
  let ps' := ps.map fun x => ({ x.1 with data := (pc + 8).setWidth 128 }, x.2)
  let r := storeLanes 8 ps' s
  let th := { r.2.th with fabric := r.2.th.fabric ++ r.1 }
  let th := if act = 0 then th else setStackPtr th (stackPtr th - 256)
  r.2.setTh (branchTo th fun l =>
    match ps.find? fun x => x.1.lane == l with
    | some x => target x.1 pc
    | none => pc + 8)

/-- `CALL` (R107). -/
def execCall (hd : Hdr) (imm : BitVec 27) (s : State) : Out :=
  memWord (.call hd imm) stackUses hd .store s
    (fun s act => (lanesOf act).map fun l => ⟨l, stackPtr s.th - 256 + BitVec.ofNat 64 (8 * l), 0, 0, 0, false, false⟩)
    (slotAsk .store false) (fun _ _ => false)
    (fun act ps s => .next (callAll (fun _ pc => labelTarget pc imm) act ps s))

/-- `CALLX` (R107). -/
def execCallx (hd : Hdr) (a : Operand) (s : State) : Out :=
  memWord (.callx hd a) ((Instr.callx hd a).uses ++ stackUses) hd .store s
    (fun s act => (lanesOf act).map (targetLane a (fun l => stackPtr s.th - 256 + BitVec.ofNat 64 (8 * l)) s))
    (slotAsk .store true) (fun _ _ => false)
    (fun act ps s => .next (callAll (fun x _ => x.a) act ps s))

/-- The bytes of a place as a lane of a word that must see them at once reads them; none while another package must answer first. -/
def peek (s : State) (lane n : Nat) : Place → Option (List Byte × Bool)
  | .scratch c g off => (getWg s c g).map fun h => (h.bytes off n, anyMark h.scratchMark off n)
  | .window off => some (windowLoad s.th off n)
  | .mem pa key => (serveLoad s lane .rlx .tr .dflt pa key n).1

/-- A request for this line is on its way to another package. -/
def lineAsked (s : State) (pa : Nat) : Bool :=
  s.fabric.flows.any fun f => f.2.unretired.any fun e =>
    e.pkt.typ == 0 && e.pkt.addr == BitVec.ofNat 64 (pa / 128 * 128)

/-- Ask for the lines of other packages that a word needs before it can go on (R277). -/
def askLines (s : State) (n : Nat) (ps : List Place) : State :=
  ps.foldl (fun s p => match p with
    | .mem pa key => if (peek s 32 n p).isNone && !lineAsked s pa then (requestLine s pa key).2 else s
    | .scratch _ _ _ => s
    | .window _ => s) s

/-- What the slot of a lane of RET holds; none while another package or a cohort member must answer, or a register of the window is empty
(R12, R21). The read of a cohort member is kept
with the lane: its tag plus 1 in B, and what it has replied in D, with bit 64 set and its mark in bit 65. -/
def slotValue (s : State) (x : LogLane × Place) : Option (List Byte × Bool) :=
  match x.2 with
  | .scratch c g _ =>
    if isAway s.wg c g then (if x.1.data.getLsbD 64 then some (toBytes 8 (x.1.data.toNat % 2 ^ 64), x.1.data.getLsbD 65) else none)
    else peek s x.1.lane 8 x.2
  | .window off => if windowWaits s.th off 8 then none else peek s x.1.lane 8 x.2
  | .mem _ _ => peek s x.1.lane 8 x.2

/-- Ask the cohort members that hold slots of a RET (R20, R270). -/
def askSlots : List (LogLane × Place) → State → List LogLane × State
  | [], s => ([], s)
  | (x, p) :: r, s =>
    let a : LogLane × State := match p with
      | .scratch c g off =>
        if isAway s.wg c g && x.b == 0 then
          let q := cohortAsk s s.th.ident.core c g off (.read 8)
          ({ x with b := BitVec.ofNat 64 (q.1 + 1) }, q.2)
        else (x, s)
      | .window _ => (x, s)
      | .mem _ _ => (x, s)
    let b := askSlots r a.2
    (a.1 :: b.1, b.2)

/-- The lanes with the return addresses that their slots hold, and their marks (R107). -/
def returnLanes (s : State) (ps : List (LogLane × Place)) : List LogLane :=
  ps.map fun x =>
    let r := (slotValue s x).getD ([], false)
    { x.1 with a := BitVec.ofNat 64 (ofBytes r.1), addrMark := r.2 }

/-- RET waits for its slots: the lines of other packages and the slots of cohort members are asked for. -/
def returnWait (hd : Hdr) (act : LaneMask) (ps : List (LogLane × Place)) (s : State) : State :=
  let q := askSlots ps (askLines s 8 (ps.map Prod.snd))
  if q.1 = ps.map Prod.fst then q.2
  else q.2.setTh { q.2.th with grp := { q.2.th.grp with replay := some (logOf (.ret hd) hd q.2.th act 0 q.1) } }

/-- The return of the active lanes: the slots are loaded, sp moves once, and the lanes go to their addresses (R107). -/
def returnAll (act : LaneMask) (got : List LogLane) (ps : List (LogLane × Place)) (s : State) : State :=
  let s := ps.foldl (fun s x => match x.2 with
    | .mem pa key => (serveLoad s x.1.lane .rlx .tr .dflt pa key 8).2
    | .scratch _ _ _ => s
    | .window _ => s) s
  let pc := s.th.grp.pc
  let th := if act = 0 then s.th else setStackPtr s.th (stackPtr s.th + 256)
  s.setTh (branchTo th fun l =>
    match got.find? fun x => x.lane == l with
    | some x => x.a
    | none => pc + 8)

/-- What each lane of a RET meets: the fault of its slot, or that of the return address in it (R107, R126). -/
def returnFaults (got : List LogLane) (rs : List (LogLane × Except Refused Place × DWord)) :
    List (LogLane × Except Refused Place × DWord) :=
  rs.map fun r => match r.2.1, got.find? fun x => x.lane == r.1.lane with
    | .ok p, some x => (r.1, if x.addrMark then .error (.data, 0) else if x.a.toNat % 8 ≠ 0 then .error (.align, 0) else .ok p, r.2.2)
    | .ok p, none => (r.1, .ok p, r.2.2)
    | .error e, _ => (r.1, .error e, r.2.2)

/-- The slots of a RET. -/
def returnSlots (s : State) (act : LaneMask) : List LogLane :=
  (lanesOf act).map fun l => ⟨l, stackPtr s.th + BitVec.ofNat 64 (8 * l), 0, 0, 0, false, false⟩

/-- `RET`: every slot is read and its target checked before sp moves (R107), and the first cause of R126 over slots and targets is
reported. A slot in the memory of another package is waited for. -/
def execRet (hd : Hdr) (s : State) : Out :=
  let s := s.setTh (closeWindows s.th s.th.grp.mask)
  let act := takesPart s.th hd
  if heldBack s.th (if s.th.grp.replay = none then stackUses else []) hd.la.toNat act || fenced s.th (.ret hd) then .next s
  else
    let ls := match s.th.grp.replay with
      | some w => w.lanes
      | none => returnSlots s act
    let r := resolveAll (ls.map fun x => (x, slotAsk .load false s x)) s
    let ps := placesOf r.1
    if ps.any fun p => p.2.inDirectory then .fault .originDirectory
    else if ps.any fun x => (slotValue r.2 x).isNone then .next (returnWait hd act ps s)
    else
      let got := returnLanes r.2 ps
      let rs := returnFaults got r.1
      match worstOf rs with
      | some f => faultWord s r.2 .load f (logOf (.ret hd) hd s.th act (faultedLanes rs) (ls.map fun x => { x with b := 0, data := 0 }))
      | none => .next (returnAll act got ps (r.2.setTh (countWindows r.2.th r.2.th.grp.mask (issueDests hd stackUses [] act))))

/-! ### Reconvergence -/

/-- `RCB` (R108): lanes that wait at another address of the slot are released first. Without a lane that takes part it has no
effect (R50). -/
def execRcb (hd : Hdr) (slot : BitVec 3) (imm : BitVec 27) (s : State) : Out :=
  issue (.rcb hd slot imm) [] [] hd s fun act s =>
    let j := slot.toNat
    let target := labelTarget s.th.grp.pc imm
    let old := tget ⟨0, 0⟩ s.th.slots j
    let moved := old.expect != 0 && old.target != target
    let th := advance s.th
    if act = 0 then .next (s.setTh th) else
    let th := if moved then gather th (Sub.atRcw j) (old.target + 8) none true else th
    let expect := (if moved then 0 else old.expect) ||| act
    .next (s.setTh { th with slots := tset ⟨0, 0⟩ th.slots j ⟨target, expect⟩ })

/-- `RCW` (R108). -/
def execRcw (hd : Hdr) (slot : BitVec 3) (s : State) : Out :=
  issue (.rcw hd slot) [] [] hd s fun act s =>
    let j := slot.toNat
    let r := tget ⟨0, 0⟩ s.th.slots j
    if r.expect = 0 || s.th.grp.pc != r.target then .next (s.setTh (advance s.th))
    else
      let arrive := act &&& r.expect
      let run := s.th.grp.mask &&& ~~~arrive
      let th := unexpect s.th j (s.th.grp.mask &&& ~~~act)
      let next := (advance th).grp
      let th :=
        if arrive = 0 then advance th
        else if run = 0 then { th with grp := { th.grp with st := .rcw j } }
        else
          let low := laneBit (lowLane th.grp.mask)
          let waiting := { th.grp with mask := arrive, st := .rcw j, bcast := th.grp.bcast && arrive &&& low != 0 }
          let going := { next with mask := run, bcast := th.grp.bcast && run &&& low != 0 }
          { th with grp := going, rest := th.rest ++ [waiting] }
      .next (s.setTh (slotCheck th j))

/-! ### Ends -/

/-- The memory and atomic words of a thread have completed (R109). -/
def memoryDone (th : Thread) : Bool := !loadsOut th && th.fabric.isEmpty

/-- `EXIT` (R109). -/
def execExit (hd : Hdr) (s : State) : Out :=
  issue (.exit hd) [] [] hd s fun act s =>
    let th := endLanes (advance s.th) act
    let due : List Instr := if th.live = 0 then match th.agent with
        | .troupe c w t => [.troupeEnd c w t]
        | .matrix _ _ => []
        | .copy _ _ => []
        | .control _ => []
        | .firmware _ => []
      else []
    let th := if th.live = 0 && !th.agent.isTroupe then { th with status := .ended } else th
    .next { s with th := th, inputs := s.inputs ++ due }

/-- `YIELD`: the sub-group is withheld until every other ready sub-group and troupe has issued (R109). -/
def execYield (hd : Hdr) (s : State) : Out :=
  issue (.yield hd) [] [] hd s fun act s =>
    let th := advance s.th
    .next (s.setTh (if act = 0 then th else { th with grp := { th.grp with yielded := some ([], 0) } }))

/-! ### Traps and handlers -/

/-- System software has attached a debug agent, which only the life-cycle state DEBUG lets it do (R110, R415). -/
def State.debugOn (s : State) : Bool := s.debug && s.trust.lc == 2

/-- `BRK` (R110): the debug agent takes the sub-group; without one the agent ends. -/
def execBrk (hd : Hdr) (code : BitVec 6) (s : State) : Out :=
  issue (.brk hd code) [] [] hd s fun act s =>
    if act = 0 then .next (s.setTh (advance s.th))
    else if s.debugOn then .next (s.setTh { s.th with grp := { s.th.grp with st := .brk (lowLane act) ((encode (.brk hd code)).getD 0) } })
    else
      let s := retireNow s s.th.grp.mask
      .next (endAgent (s.setTh (setTrapRegs s.th .brk (lowLane act) false (fullTrapRegs ((encode (.brk hd code)).getD 0) 0))) .brk)

/-- `TRAP` (R110). -/
def execTrap (hd : Hdr) (code : BitVec 6) (s : State) : Out :=
  issue (.trap hd code) [] [] hd s fun act s =>
    if act = 0 then .next (s.setTh (advance s.th)) else trapWord s (.trap hd code) .trap act 0 []

/-- A TRET of either kind (R110, R433): the lanes wait for the rest of the handler set, and the last to arrive ends the
handler state. Outside a handler, and against a waiting TRET of the other kind, it is reserved. -/
def leaveHandler (i : Instr) (hd : Hdr) (skip : Bool) (s : State) : Out :=
  issue i [] [] hd s fun _ s =>
    match s.th.handler with
    | none => trapWord s i .reserved 0 2 []
    | some h =>
      if outsideHandler s.th || (h.kind != none && h.kind != some skip) then trapWord s i .reserved 0 2 []
      else
        .next (s.setTh (tidy (handlerCheck
          { s.th with handler := some { h with kind := some skip }, grp := { s.th.grp with st := .tret skip } })))

/-- `TRET` (R433). -/
def execTret (hd : Hdr) (s : State) : Out := leaveHandler (.tret hd) hd false s

/-- `TRET.skip` (R433). -/
def execTretSkip (hd : Hdr) (s : State) : Out := leaveHandler (.tretSkip hd) hd true s

/-- The lane that a reserved word reports (R65): the lowest that its guard lets take part, else the lowest. -/
def badLane (th : Thread) (w : BadWord) : Nat :=
  let r := Raw.unpack w.word
  let x := if w.slot then w.word.extractLsb' 0 31 else w.word.extractLsb' 31 31
  let guards (l : Nat) : Bool :=
    if w.word.getLsbD 63 then
      match (x.extractLsb' 22 2).toNat with
      | 0 => true
      | 1 => th.rdP l 0
      | 2 => th.rdP l 1
      | _ => !th.rdP l 0
    else th.rdP l r.guard.toNat != r.neg
  let m := maskOf fun l => th.grp.mask.getLsbD l && guards l
  if m = 0 then lowLane th.grp.mask else lowLane m

/-- `RESERVED_ENCODING_TRAP` (R64-R67). It waits behind a word whose window has closed (R61) and behind one that another package
has still to check (R127). -/
def execReservedEncodingTrap (w : BadWord) (s : State) : Out :=
  if heldBack s.th [] 0 0 || unchecked s.th then .next s else
  let regs := if w.word.getLsbD 63 then pairTrapRegs w.word w.slot (reasonCode w.reason)
    else fullTrapRegs w.word (reasonCode w.reason)
  .next (takeTrap s .reserved (badLane s.th w) w.slot regs [])

/-! ### The agent that a step names -/

/-- The agent of a sub-group reference; 32 and 33 in place of a troupe name the matrix and the copy sequencer, 34 and 35 the control
core of a cluster and the firmware core of a die. -/
def refAgent (r : SubRef) : Agent :=
  if r.troupe = 32 then .matrix r.ctx r.wg else if r.troupe = 33 then .copy r.ctx r.wg
  else if r.troupe = 34 then .control r.wg else if r.troupe = 35 then .firmware r.wg else .troupe r.ctx r.wg r.troupe

/-- The reference that names a lane of an agent. -/
def refOf (a : Agent) (lane : Nat) : SubRef :=
  match a with
  | .troupe c w t => ⟨c, w, t, lane⟩
  | .matrix c w => ⟨c, w, 32, lane⟩
  | .copy c w => ⟨c, w, 33, lane⟩
  | .control c => ⟨0, c, 34, lane⟩
  | .firmware d => ⟨0, d, 35, lane⟩

/-- The context and the workgroup of an agent. -/
def Agent.place : Agent → Option (Nat × Nat)
  | .troupe c w _ => some (c, w)
  | .matrix c w => some (c, w)
  | .copy c w => some (c, w)
  | .control _ => none
  | .firmware _ => none

/-- Make a workgroup the current one. -/
def focusWg (s : State) (k : Option (Nat × Nat)) : State :=
  let same := match k with
    | some (c, w) => s.wg.placed && s.wg.ctx == c && s.wg.wgl == w
    | none => !s.wg.placed
  if same then s
  else
    let parked := if s.wg.placed then s.wgs ++ [s.wg] else s.wgs
    match k with
    | none => { s with wg := Workgroup.none, wgs := parked }
    | some (c, w) =>
      match parked.find? fun g => g.ctx == c && g.wgl == w with
      | some g => { s with wg := g, wgs := parked.filter fun g => !(g.ctx == c && g.wgl == w) }
      | none => { s with wg := Workgroup.none, wgs := parked }

/-- Make a context the current one. -/
def focusCx (s : State) (k : Option Nat) : State :=
  let same := match k with
    | some c => s.cx.live && s.cx.ctx == c
    | none => !s.cx.live
  if same then s
  else
    let parked := if s.cx.live then s.cxs ++ [s.cx] else s.cxs
    match k with
    | none => { s with cx := Context.none, cxs := parked }
    | some c =>
      match parked.find? fun x => x.ctx == c with
      | some x => { s with cx := x, cxs := parked.filter fun x => !(x.ctx == c) }
      | none => { s with cx := Context.none, cxs := parked }

/-- Make an agent the one that issues; none when the package has no such agent. -/
def focus (s : State) (a : Agent) : Option State :=
  let place (s : State) : State := focusCx (focusWg s a.place) (a.place.map Prod.fst)
  if s.th.agent = a then some s
  else
    match s.threads.find? fun t => t.agent == a with
    | none => none
    | some t => some (place { s with th := t, threads := s.threads.map fun u => if u.agent == a then s.th else u })

/-- Do something as another agent, and give the turn back. -/
def asAgent (s : State) (a : Agent) (f : State → Out) : Out :=
  match focus s a with
  | none => .next s
  | some t =>
    match f t with
    | .next u => .next ((focus u s.th.agent).getD u)
    | .fault e => .fault e
    | .refused e => .refused e

/-- The first pending word of a lane for which `f` holds, with its index. -/
def findPend (th : Thread) (lane : Nat) (f : Pend → Bool) : Option (Nat × Pend) :=
  (th.pend.zip (List.range th.pend.length)).findSome? fun x =>
    if x.1.lanes.getLsbD lane && f x.1 then some (x.2, x.1) else none

/-- Remove a pending word: its wait has completed (R61). -/
def donePend (th : Thread) (i : Nat) : Thread := { th with pend := removeAt th.pend i }

/-- The sub-group of a lane becomes the current one. -/
def bringFront (th : Thread) (m : LaneMask) : Thread :=
  match (th.grp :: th.rest).find? fun g => g.mask &&& m != 0 with
  | none => th
  | some g => { th with grp := g, rest := (th.grp :: th.rest).filter fun h => h.mask &&& m == 0 }

/-- The address that the lowest faulted lane of a logged word reaches. -/
def LogWord.faultVa (w : LogWord) : DWord :=
  ((w.lanes.find? fun x => x.lane == lowLane w.faulted).map LogLane.addr).getD 0

/-- A logged word of group 9. -/
def LogWord.isAtomic (w : LogWord) : Bool := (Raw.unpack w.word).op.toNat / 64 == 9

/-- What is performed again of a word that another package has refused in some lanes (R127, R128): of an atomic only those lanes, since
it has been performed in the others (log entry 36). -/
def LogWord.refused (w : LogWord) : LogWord :=
  if w.isAtomic then { w with took := w.faulted, lanes := w.lanes.filter fun x => w.faulted.getLsbD x.lane } else w

/-- A word that another package has refused faults with PROT (R126, R128, R414): it and every word behind its last issued word are
performed after the handler. A sub-group outside the handler set waits until the handler state ends (R433). -/
def takeRefusal (s : State) (i : Nat) (p : Pend) (w : LogWord) : Out :=
  let th := bringFront s.th p.lanes
  if outsideHandler th then .next s
  else
    let lw := { w.refused with next := nextPc th.grp, left := p.left }
    let ws := match p.owed with
      | .result ws _ _ => if w.isAtomic then ws else []
      | .wait _ => []
    let th := Thread.writes { donePend th i with grp := { th.grp with pc := p.pc, replay := none } } ws
    faultWord s (s.setTh th) .load (lowLane w.faulted, (.prot, Config.trustSubcode % 16), w.faultVa) lw

/-- The result of a word is written once it has arrived and its window has closed (R61). -/
def writeDue (s : State) (i : Nat) (p : Pend) : Out :=
  match p.owed with
  | .wait _ => .next s
  | .result ws _ _ => .next ((s.setTh { s.th with pend := retirePend s.th.pend i p.lanes ws }).writes ws)

/-- `WADDR_RELEASE` (R118): another read of the words still waited for. -/
def execWaddrRelease (r : SubRef) (s : State) : Out :=
  asAgent s (refAgent r) fun s =>
    match findPend s.th r.lane Pend.isWaddr with
    | none => .next s
    | some (i, p) =>
      match p.owed with
      | .wait (.waddr w geu acq scope left) =>
        let q := waddrLeft w geu s left
        let s := q.2
        if q.1.isEmpty then
          let s := s.setTh (donePend s.th i)
          .next (if acq then acquire s scope else s)
        else .next (s.setTh { s.th with pend := setAt s.th.pend i { p with owed := .wait (.waddr w geu acq scope q.1) } })
      | _ => .next s

/-- The sub-group is stopped at a BRK. -/
def Sub.atBrk (g : Sub) : Option (Nat × DWord) :=
  match g.st with
  | .brk l w => some (l, w)
  | .run => none
  | .rcw _ => none
  | .tret _ => none
  | .page _ _ => none

/-- `DEBUG_AGENT_RESUME` (R110): the sub-group goes on after its BRK, or its troupe ends, with the trap registers of the BRK. R110 names
no report for that end: the launch reports BRK, as it does without an agent. DEDUCED (log entry 22). -/
def execDebugAgentResume (r : SubRef) (resume : Bool) (s : State) : Out :=
  asAgent s (refAgent r) fun s =>
    let at_ (g : Sub) : Bool := g.atBrk.isSome && g.mask.getLsbD r.lane
    match s.debugOn, ((s.th.grp :: s.th.rest).filter fun g => g.mask.getLsbD r.lane).head?.bind Sub.atBrk with
    | true, some (lane, word) =>
      if resume then
        let go (g : Sub) : Sub := if at_ g then { g with st := .run, pc := g.pc + 8 } else g
        .next (s.setTh { s.th with grp := go s.th.grp, rest := s.th.rest.map go })
      else .next (endAgent (s.setTh (setTrapRegs (bringFront s.th (laneBit r.lane)) .brk lane false (fullTrapRegs word 0))) .brk)
    | _, _ => .next s

end Sys2Proof.Machine
end

