-- ==== Sys2Proof/Machine/Front.lean ====
section
/-!
DEFINITION. Memory as the front end of the command queues and the other engines of the package reach it that work for no troupe
(R323, R331, R337): the walk, reads and writes.
-/

namespace Sys2Proof.Machine

/-- Translate for a queue command or a completion write (R323, R325, R331): a walk that no TLB keeps. -/
def frontWalk (s : State) (asid va : Nat) (k : Access) : Except Refused (Nat × Nat) × State :=
  if 2 ^ 57 ≤ va ∨ isWindow va then (.error (.prot, 9), s)
  else
    match walk s 500 asid va ⟨k, false, none, false⟩ with
    | (.error r, s') => (.error r, { s' with tlbs := s.tlbs })
    | (.ok t, s') => (reach s' (t.pa + (va - t.va)) t.key, { s' with tlbs := s.tlbs })

/-- Read bytes of one line for the front end, which works on die 0; none while another package must answer, which is asked. -/
def frontRead (s : State) (pa key n : Nat) : Option (List Byte × Bool) × State :=
  match dieReadAt s 0 pa key n with
  | (some r, s) => (some r, s)
  | (none, s) => (none, if lineAsked s pa then s else (requestLineFrom s 0 pa key).2)

/-- Read ranges of virtual addresses in an address space; none while lines of other packages are missing. What has no translation, which
only a launch reads, is free (log entry 2). -/
def frontGather (asid : Nat) : List (Nat × Nat) → State → Option (List Byte) × State
  | [], s => (some [], s)
  | (va, n) :: r, s =>
    let got : Option (List Byte) × State :=
      match frontWalk s asid va .load with
      | (.error _, s) => let f := freeBytes s n; (some f.1, f.2)
      | (.ok (pa, key), s) => let g := frontRead s pa key n; (g.1.map Prod.fst, g.2)
    match got.1, frontGather asid r got.2 with
    | some b, (some l, s) => (some (b ++ l), s)
    | _, (_, s) => (none, s)

/-- Write bytes for the front end as a release at scope `pd` (R249, R277): the tag of a fabric write is answered. -/
def frontWrite (s : State) (pa key : Nat) (data : List Byte) : Option Nat × State :=
  if homedHere s pa || isHost pa then (none, homeWrite (drainDie s 0) pa key data false s.pkg 0)
  else
    let (t, s) := newTag (rdcDrop s 0 pa)
    (some t, sendFrom s 0 { packetBlank with
      typ := 2, tc := 0, dst := ((homeOf s pa).getD (0, 0)).1, addr := BitVec.ofNat 64 pa, width := data.length, group := key,
      tag := t, data := data })

/-- A write that no agent and no command waits for, but a PGGEN of its address space (R353). -/
def frontPost (s : State) (asid pa key : Nat) (data : List Byte) : State :=
  match frontWrite s pa key data with
  | (none, s) => s
  | (some t, s) => { s with host := { s.host with front := s.host.front ++ [(t, asid)] } }

/-- One access of the host is performed at its home (R262), or goes to another package under a tag. A read of host memory is not the
package's. -/
def hostStart (o : HostOp) (s : State) : Option Nat × State :=
  match o.data with
  | some b => frontWrite s o.pa o.key b
  | none =>
    if isHost o.pa then (none, s)
    else if homedHere s o.pa then
      (none, { s with host := { s.host with answers := s.host.answers ++ [.data (memBytes s o.key o.pa o.width)] } })
    else
      let (t, s) := newTag s
      (some t, sendFrom s 0 { packetBlank with
        typ := 0, tc := 0, dst := ((homeOf s o.pa).getD (0, 0)).1, addr := BitVec.ofNat 64 (o.pa / 128 * 128), width := 128,
        group := o.key, rvalid := true, tag := t })

/-- The host's accesses are performed in order, each behind the one before it (R262). -/
def hostPump : List HostOp → State → State
  | [], s => { s with host := { s.host with ops := [], tag := none } }
  | o :: r, s =>
    match hostStart o s with
    | (some t, s) => { s with host := { s.host with ops := o :: r, tag := some t } }
    | (none, s) => hostPump r { s with host := { s.host with done := s.host.done + 1 } }

/-- The host issues an access (R262). -/
def hostIssue (s : State) (o : HostOp) : State :=
  if s.host.ops.isEmpty then hostPump [o] s else { s with host := { s.host with ops := s.host.ops ++ [o] } }

/-- The host's access under a tag has been performed at another package; `line` is what a read's line holds. -/
def hostOver (s : State) (t : Nat) (line : List Byte) : State :=
  match s.host.tag, s.host.ops with
  | some n, o :: r =>
    if n = t then
      let got := (line.drop (o.pa % 128)).take o.width
      let s := { s with host := { s.host with done := s.host.done + 1 } }
      hostPump r (if o.data.isNone then { s with host := { s.host with answers := s.host.answers ++ [.data got] } } else s)
    else s
  | _, _ => s

/-- A die acquires at scope `pd` (R255, R323): what it still holds is applied, and lines homed outside the package go. Where a workgroup
resumes on another die, no lane then reads anything older than what it has written, read or acquired before (R113, R130, R256). -/
def freshDie (s : State) (d : Nat) : State :=
  let s := drainDie (s.setFab (noFill s.fabric d none)) d
  let v := s.die d
  s.setDie d { v with rdc := v.rdc.filter fun c => homedHere s c.addr }

/-- Every die acquires at scope `pd` (R323). -/
def acquireAll (s : State) : State := (List.range 4).foldl freshDie s

/-- Append a record to the fault log (R404): resource, kind, die, unit and index. A full ring drops it. -/
def logFault (s : State) (res kind die unit index : Nat) : State :=
  let r := s.ras
  if 4096 ≤ (r.tail - r.head).toNat then { s with ras := { r with ovf := true } }
  else
    let x := s.podTime % 2 ^ 64 + res * 2 ^ 64 + kind * 2 ^ 68 + die % 4 * 2 ^ 70 + unit % 256 * 2 ^ 72 + index % 2 ^ 32 * 2 ^ 80
      + (if r.ovf then 2 ^ 127 else 0)
    let s := homeWrite s (r.base.toNat + 16 * (r.tail.toNat % 4096)) 0 (toBytes 16 x) false s.pkg (die % 4)
    { s with ras := { s.ras with tail := r.tail + 1, ovf := false } }

end Sys2Proof.Machine
end

