-- ==== Sys2Proof/Machine/Alu.lean ====
section
/-!
DEFINITION. The shape of a word of groups 0 to 6 (R73, R75): each active lane computes a result from its operands, raises
its flags, and writes a register or a predicate.
-/

namespace Sys2Proof.Machine

/-- Whether an operand of the word is marked as a data error in a lane (R75). -/
def marksIn (th : Thread) (uses : List (Role × Operand)) (l : Nat) : Bool :=
  uses.any fun u => th.marked l (roleReads u.1) u.2

/-- The predicates that a word reads as operands, beside its guard (R77, R79, R94, R96). -/
def predSrcs : Instr → List Nat
  | .iaddc _ cin _ => [cin.toNat]
  | .isubb _ cin _ => [cin.toNat]
  | .isel _ ps _ => [ps.toNat]
  | .pset _ _ pa _ pb _ _ => [pa.toNat, pb.toNat]
  | .pmovGet _ _ => [0, 1, 2, 3, 4, 5, 6]
  | .lvote _ _ _ _ ps _ => [ps.toNat]
  | .lfind _ _ _ _ ps _ => [ps.toNat]
  | _ => []

/-- Whether a word reads a marked register or predicate in a lane (R75). -/
def wordMark (th : Thread) (i : Instr) (l : Nat) : Bool := marksIn th i.uses l || (predSrcs i).any (th.markedP l)

/-- The flags of every active lane together (R73). -/
def laneFlags (act : LaneMask) (f : Nat → FFlags) : FFlags :=
  (lanesOf act).foldl (fun a l => a.or (f l)) FFlags.none

/-- DATAF when an active lane reads a marked operand (R16, R75). -/
def noteMarks (th : Thread) (uses : List (Role × Operand)) (act : LaneMask) : Thread :=
  if (lanesOf act).any (marksIn th uses) then th.raiseErr 4 else th

/-- DATAF when an active lane of a word reads a marked register or predicate (R16, R75). -/
def noteWord (th : Thread) (i : Instr) (act : LaneMask) : Thread :=
  if (lanesOf act).any (wordMark th i) then th.raiseErr 4 else th

/-- The results of a word with the flags that it raises when it completes (R73): a word without a lane that takes part has
neither. -/
def withFlags (fl : FFlags) (ws : List Wr) : List Wr := if ws.isEmpty then [] else .fl (BitVec.ofNat 32 fl.bits) :: ws

/-- The results of a word whose active lanes each write `f` of `n` words to D, with its flags. -/
def laneResults (i : Instr) (act : LaneMask) (n : Nat) (d : Operand) (f : State → Nat → LaneRes) (s : State) : List Wr :=
  withFlags (laneFlags act fun l => (f s l).flags) (laneWrites act n d (fun l => (f s l).val) (wordMark s.th i))

/-- The results of a word whose active lanes each write predicate `pd`, with its flags. -/
def predResults (i : Instr) (act : LaneMask) (pd : BitVec 3) (f : State → Nat → Bool × FFlags) (s : State) : List Wr :=
  withFlags (laneFlags act fun l => (f s l).2) ((lanesOf act).map fun l => Wr.p l pd.toNat (f s l).1 (wordMark s.th i l))

/-- A word whose active lanes each write a result of `n` words to D. -/
def laneOp (i : Instr) (hd : Hdr) (n : Nat) (d : Operand) (f : State → Nat → LaneRes) (s : State) : Out :=
  issue i i.uses [] hd s fun act s =>
    .next (s.setTh (advance ((noteWord s.th i act).writes (laneResults i act n d f s))))

/-- As `laneOp` for a long-latency word: the result waits for the lookahead window (R60, R61). -/
def laneOpLong (i : Instr) (hd : Hdr) (n : Nat) (d : Operand) (f : State → Nat → LaneRes) (s : State) : Out :=
  issue i i.uses [] hd s fun act s =>
    .next (s.setTh (advance (deliver hd (laneResults i act n d f s) (noteWord s.th i act))))

/-- A word whose active lanes each write predicate `pd`. -/
def predOp (i : Instr) (hd : Hdr) (pd : BitVec 3) (f : State → Nat → Bool × FFlags) (s : State) : Out :=
  issue i i.uses [pd] hd s fun act s =>
    .next (s.setTh (advance ((noteWord s.th i act).writes (predResults i act pd f s))))

/-- As `predOp` for a long-latency word. -/
def predOpLong (i : Instr) (hd : Hdr) (pd : BitVec 3) (f : State → Nat → Bool × FFlags) (s : State) : Out :=
  issue i i.uses [pd] hd s fun act s =>
    .next (s.setTh (advance (deliver hd (predResults i act pd f s) (noteWord s.th i act))))

/-- One 32-bit source. -/
def op1 (s : State) (x : A1) (l : Nat) (f : Word → LaneRes) : LaneRes := f (opnd32 s l x.a)
/-- Two 32-bit sources. -/
def op2 (s : State) (x : A2) (l : Nat) (f : Word → Word → LaneRes) : LaneRes := f (opnd32 s l x.a) (opnd32 s l x.b)
/-- Three 32-bit sources. -/
def op3 (s : State) (x : A3) (l : Nat) (f : Word → Word → Word → LaneRes) : LaneRes :=
  f (opnd32 s l x.a) (opnd32 s l x.b) (opnd32 s l x.c)

/-- An exact 32-bit integer result: wrapped, or under `.sat` saturated to the signed range with SAT (R27, R77). -/
def narrow32 (sat : Bool) (v : Int) : LaneRes :=
  if sat && decide (v < -2147483648) then ⟨0x80000000, { FFlags.none with sat := true }⟩
  else if sat && decide (2147483647 < v) then ⟨0x7fffffff, { FFlags.none with sat := true }⟩
  else .word (BitVec.ofInt 32 v)

/-- An exact 64-bit integer result, wrapped or saturated (R27, R77). -/
def narrow64 (sat : Bool) (v : Int) : LaneRes :=
  if sat && decide (v < -9223372036854775808) then ⟨0x8000000000000000, { FFlags.none with sat := true }⟩
  else if sat && decide (9223372036854775807 < v) then ⟨0x7fffffffffffffff, { FFlags.none with sat := true }⟩
  else .dword (BitVec.ofInt 64 v)

/-- Byte i of a word (R26). -/
def byteOf (x : Word) (i : Nat) : Nat := x.toNat / 256 ^ i % 256

/-- Byte i of a word as a signed number. -/
def sbyteOf (x : Word) (i : Nat) : Int := (BitVec.ofNat 8 (byteOf x i)).toInt

/-- A compare code of R52 on two integers of 32 bits. -/
def icmpOf (cc : BitVec 4) (a b : Word) : Bool :=
  match cc.toNat with
  | 0 => a == b
  | 1 => a != b
  | 2 => decide (a.toInt < b.toInt)
  | 3 => decide (a.toInt ≤ b.toInt)
  | 4 => decide (b.toInt < a.toInt)
  | 5 => decide (b.toInt ≤ a.toInt)
  | 6 => decide (a.toNat < b.toNat)
  | 7 => decide (a.toNat ≤ b.toNat)
  | 8 => decide (b.toNat < a.toNat)
  | 9 => decide (b.toNat ≤ a.toNat)
  | _ => false

/-- The bits [top−1:pos] of a field of R79: start and length, the length 0 for an empty field. -/
def fieldOf (b : Word) : Nat × Nat :=
  let pos := b.toNat % 256
  let len := min (b.toNat / 256 % 256) 32
  if 32 ≤ pos then (pos, 0) else (pos, min (pos + len) 32 - pos)

/-- A shift amount at or above 32 gives zero (R79). -/
def shlOf (a : Word) (n : Nat) : Word := if 32 ≤ n then 0 else a <<< n
/-- Logical right shift (R79). -/
def shrOf (a : Word) (n : Nat) : Word := if 32 ≤ n then 0 else a >>> n
/-- Arithmetic right shift by at most 31 (R79). -/
def sarOf (a : Word) (n : Nat) : Word := a.sshiftRight (min n 31)

end Sys2Proof.Machine
end

