-- ==== Sys2Proof/Machine/FloatOps.lean ====
section
/-!
DEFINITION. Groups 3 and 4: floating-point arithmetic, compares, classes and special functions (R81-R85).
-/

namespace Sys2Proof.Machine

/-- The source modifier on one element (R51, R81): 1 negates, 2 takes the absolute value, 3 negates that. -/
def srcMod (f : FFmt) (sm : BitVec 2) (x : Nat) : Nat :=
  let top := 2 ^ (f.eb + f.fb)
  let mag := x % top
  if sm = 0 then x else if sm = 1 then (if x / top % 2 = 1 then mag else mag + top) else if sm = 2 then mag else mag + top

/-- Unpack operand A after its modifier and under SUBN (R81, R33). -/
def srcA (f : FFmt) (s : State) (sm : BitVec 2) (x : Nat) : FVal := unpack f s.th.subn (srcMod f sm x)

/-- Unpack operand B or C under SUBN. -/
def srcB (f : FFmt) (s : State) (x : Nat) : FVal := unpack f s.th.subn x

/-- Apply an operation to both 16-bit elements and join the results and flags (R28, R81). -/
def packed2 (g : (Nat → Nat) → FRes) : LaneRes :=
  let r0 := g fun x => x % 65536
  let r1 := g fun x => x / 65536
  ⟨BitVec.ofNat 64 (r0.bits + 65536 * r1.bits), r0.flags.or r1.flags⟩

/-- `FADD` (R82). -/
def execFadd (x : A2) (rnd : BitVec 3) (sat : Bool) (sm : BitVec 2) (s : State) : Out :=
  laneOp (.fadd x rnd sat sm) x.hd 1 x.d (fun s l =>
    .fp (addVal fp32 rnd sat s.th.subn (srcA fp32 s sm (opndF32 s l x.a)) (srcB fp32 s (opndF32 s l x.b)))) s

/-- `FSUB` (R82). -/
def execFsub (x : A2) (rnd : BitVec 3) (sat : Bool) (sm : BitVec 2) (s : State) : Out :=
  laneOp (.fsub x rnd sat sm) x.hd 1 x.d (fun s l =>
    .fp (addVal fp32 rnd sat s.th.subn (srcA fp32 s sm (opndF32 s l x.a)) (srcB fp32 s (opndF32 s l x.b)).negate)) s

/-- `FMUL` (R82). -/
def execFmul (x : A2) (rnd : BitVec 3) (sat : Bool) (sm : BitVec 2) (s : State) : Out :=
  laneOp (.fmul x rnd sat sm) x.hd 1 x.d (fun s l =>
    .fp (mulVal fp32 rnd sat s.th.subn (srcA fp32 s sm (opndF32 s l x.a)) (srcB fp32 s (opndF32 s l x.b)))) s

/-- `FFMA`: A × B + C, rounded once (R82, R31). -/
def execFfma (x : A3) (rnd : BitVec 3) (sat : Bool) (sm : BitVec 2) (s : State) : Out :=
  laneOp (.ffma x rnd sat sm) x.hd 1 x.d (fun s l =>
    .fp (fmaVal fp32 rnd sat s.th.subn (srcA fp32 s sm (opndF32 s l x.a)) (srcB fp32 s (opndF32 s l x.b))
      (srcB fp32 s (opndF32 s l x.c)))) s

/-- `FMIN` (R82, R29). -/
def execFmin (x : A2) (sm : BitVec 2) (s : State) : Out :=
  laneOp (.fmin x sm) x.hd 1 x.d (fun s l =>
    .fp (minMax fp32 s.th.subn false (srcMod fp32 sm (opndF32 s l x.a)) (opndF32 s l x.b))) s

/-- `FMAX` (R82, R29). -/
def execFmax (x : A2) (sm : BitVec 2) (s : State) : Out :=
  laneOp (.fmax x sm) x.hd 1 x.d (fun s l =>
    .fp (minMax fp32 s.th.subn true (srcMod fp32 sm (opndF32 s l x.a)) (opndF32 s l x.b))) s

/-- `FCMP` (R84). -/
def execFcmp (x : ACmp) (sm : BitVec 2) (s : State) : Out :=
  predOp (.fcmp x sm) x.hd x.pd (fun s l =>
    fcmpVal x.cc (srcA fp32 s sm (opndF32 s l x.a)) (srcB fp32 s (opndF32 s l x.b))) s

/-- `FCLASS`: the one-hot class of A (R84); a subnormal operand is reported as subnormal whatever SUBN (R81). -/
def execFclass (x : A1) (sm : BitVec 2) (s : State) : Out :=
  laneOp (.fclass x sm) x.hd 1 x.d (fun s l =>
    .word (BitVec.ofNat 32 (2 ^ fclassOf fp32 (srcMod fp32 sm (opndF32 s l x.a))))) s

/-- `FRCP` (R82, R83). -/
def execFrcp (x : A1) (rnd : BitVec 3) (sat : Bool) (sm : BitVec 2) (s : State) : Out :=
  laneOpLong (.frcp x rnd sat sm) x.hd 1 x.d (fun s l =>
    .fp (rcpVal fp32 rnd sat s.th.subn (srcA fp32 s sm (opndF32 s l x.a)))) s

/-- `FRSQ` (R82, R83). -/
def execFrsq (x : A1) (sm : BitVec 2) (s : State) : Out :=
  laneOpLong (.frsq x sm) x.hd 1 x.d (fun s l => .fp (rsqVal fp32 s.th.subn (srcA fp32 s sm (opndF32 s l x.a)))) s

/-- `FSQRT` (R82, R83). -/
def execFsqrt (x : A1) (rnd : BitVec 3) (sm : BitVec 2) (s : State) : Out :=
  laneOpLong (.fsqrt x rnd sm) x.hd 1 x.d (fun s l =>
    .fp (sqrtVal fp32 rnd s.th.subn (srcA fp32 s sm (opndF32 s l x.a)))) s

/-- `FEX2` (R82, R83). -/
def execFex2 (x : A1) (sat : Bool) (sm : BitVec 2) (s : State) : Out :=
  laneOpLong (.fex2 x sat sm) x.hd 1 x.d (fun s l =>
    .fp (ex2Val fp32 sat s.th.subn (srcA fp32 s sm (opndF32 s l x.a)))) s

/-- `FLG2` (R82, R83). -/
def execFlg2 (x : A1) (sm : BitVec 2) (s : State) : Out :=
  laneOpLong (.flg2 x sm) x.hd 1 x.d (fun s l => .fp (lg2Val fp32 s.th.subn (srcA fp32 s sm (opndF32 s l x.a)))) s

/-- `FSIN` (R82, R83). -/
def execFsin (x : A1) (sm : BitVec 2) (s : State) : Out :=
  laneOpLong (.fsin x sm) x.hd 1 x.d (fun s l =>
    .fp (trigVal fp32 s.th.subn false (srcA fp32 s sm (opndF32 s l x.a)))) s

/-- `FCOS` (R82, R83). -/
def execFcos (x : A1) (sm : BitVec 2) (s : State) : Out :=
  laneOpLong (.fcos x sm) x.hd 1 x.d (fun s l =>
    .fp (trigVal fp32 s.th.subn true (srcA fp32 s sm (opndF32 s l x.a)))) s

/-- `DADD` (R85). -/
def execDadd (x : A2) (rnd : BitVec 3) (sat : Bool) (sm : BitVec 2) (s : State) : Out :=
  laneOpLong (.dadd x rnd sat sm) x.hd 2 x.d (fun s l =>
    .fp (addVal fp64 rnd sat s.th.subn (srcA fp64 s sm (opndF64 s l x.a)) (srcB fp64 s (opndF64 s l x.b)))) s

/-- `DSUB` (R85). -/
def execDsub (x : A2) (rnd : BitVec 3) (sat : Bool) (sm : BitVec 2) (s : State) : Out :=
  laneOpLong (.dsub x rnd sat sm) x.hd 2 x.d (fun s l =>
    .fp (addVal fp64 rnd sat s.th.subn (srcA fp64 s sm (opndF64 s l x.a)) (srcB fp64 s (opndF64 s l x.b)).negate)) s

/-- `DMUL` (R85). -/
def execDmul (x : A2) (rnd : BitVec 3) (sat : Bool) (sm : BitVec 2) (s : State) : Out :=
  laneOpLong (.dmul x rnd sat sm) x.hd 2 x.d (fun s l =>
    .fp (mulVal fp64 rnd sat s.th.subn (srcA fp64 s sm (opndF64 s l x.a)) (srcB fp64 s (opndF64 s l x.b)))) s

/-- `DFMA` (R85). -/
def execDfma (x : A3) (rnd : BitVec 3) (sat : Bool) (sm : BitVec 2) (s : State) : Out :=
  laneOpLong (.dfma x rnd sat sm) x.hd 2 x.d (fun s l =>
    .fp (fmaVal fp64 rnd sat s.th.subn (srcA fp64 s sm (opndF64 s l x.a)) (srcB fp64 s (opndF64 s l x.b))
      (srcB fp64 s (opndF64 s l x.c)))) s

/-- `DMIN` (R85). -/
def execDmin (x : A2) (sm : BitVec 2) (s : State) : Out :=
  laneOpLong (.dmin x sm) x.hd 2 x.d (fun s l =>
    .fp (minMax fp64 s.th.subn false (srcMod fp64 sm (opndF64 s l x.a)) (opndF64 s l x.b))) s

/-- `DMAX` (R85). -/
def execDmax (x : A2) (sm : BitVec 2) (s : State) : Out :=
  laneOpLong (.dmax x sm) x.hd 2 x.d (fun s l =>
    .fp (minMax fp64 s.th.subn true (srcMod fp64 sm (opndF64 s l x.a)) (opndF64 s l x.b))) s

/-- `DCMP` (R84). -/
def execDcmp (x : ACmp) (sm : BitVec 2) (s : State) : Out :=
  predOpLong (.dcmp x sm) x.hd x.pd (fun s l =>
    fcmpVal x.cc (srcA fp64 s sm (opndF64 s l x.a)) (srcB fp64 s (opndF64 s l x.b))) s

/-- `DRCP` (R85). -/
def execDrcp (x : A1) (rnd : BitVec 3) (sat : Bool) (sm : BitVec 2) (s : State) : Out :=
  laneOpLong (.drcp x rnd sat sm) x.hd 2 x.d (fun s l =>
    .fp (rcpVal fp64 rnd sat s.th.subn (srcA fp64 s sm (opndF64 s l x.a)))) s

/-- A packed sum (R85). -/
def packedAdd (f : FFmt) (x : A2) (rnd : BitVec 3) (sat : Bool) (sm : BitVec 2) (s : State) (l : Nat) : LaneRes :=
  packed2 fun e => addVal f rnd sat s.th.subn (srcA f s sm (e (opndPacked f s l x.a))) (srcB f s (e (opndPacked f s l x.b)))
/-- A packed product (R85). -/
def packedMul (f : FFmt) (x : A2) (rnd : BitVec 3) (sat : Bool) (sm : BitVec 2) (s : State) (l : Nat) : LaneRes :=
  packed2 fun e => mulVal f rnd sat s.th.subn (srcA f s sm (e (opndPacked f s l x.a))) (srcB f s (e (opndPacked f s l x.b)))
/-- A packed multiply-add (R85). -/
def packedFma (f : FFmt) (x : A3) (rnd : BitVec 3) (sat : Bool) (sm : BitVec 2) (s : State) (l : Nat) : LaneRes :=
  packed2 fun e => fmaVal f rnd sat s.th.subn (srcA f s sm (e (opndPacked f s l x.a))) (srcB f s (e (opndPacked f s l x.b)))
    (srcB f s (e (opndPacked f s l x.c)))
/-- A packed maximum (R85, R29). -/
def packedMax (f : FFmt) (x : A2) (sm : BitVec 2) (s : State) (l : Nat) : LaneRes :=
  packed2 fun e => minMax f s.th.subn true (srcMod f sm (e (opndPacked f s l x.a))) (e (opndPacked f s l x.b))

/-- `ADD2H` (R85). -/
def execAdd2h (x : A2) (rnd : BitVec 3) (sat : Bool) (sm : BitVec 2) (s : State) : Out :=
  laneOp (.add2h x rnd sat sm) x.hd 1 x.d (packedAdd fp16 x rnd sat sm) s
/-- `MUL2H` (R85). -/
def execMul2h (x : A2) (rnd : BitVec 3) (sat : Bool) (sm : BitVec 2) (s : State) : Out :=
  laneOp (.mul2h x rnd sat sm) x.hd 1 x.d (packedMul fp16 x rnd sat sm) s
/-- `FMA2H` (R85). -/
def execFma2h (x : A3) (rnd : BitVec 3) (sat : Bool) (sm : BitVec 2) (s : State) : Out :=
  laneOp (.fma2h x rnd sat sm) x.hd 1 x.d (packedFma fp16 x rnd sat sm) s
/-- `MAX2H` (R85). -/
def execMax2h (x : A2) (sm : BitVec 2) (s : State) : Out := laneOp (.max2h x sm) x.hd 1 x.d (packedMax fp16 x sm) s
/-- `ADD2B` (R85). -/
def execAdd2b (x : A2) (rnd : BitVec 3) (sat : Bool) (sm : BitVec 2) (s : State) : Out :=
  laneOp (.add2b x rnd sat sm) x.hd 1 x.d (packedAdd bf16 x rnd sat sm) s
/-- `MUL2B` (R85). -/
def execMul2b (x : A2) (rnd : BitVec 3) (sat : Bool) (sm : BitVec 2) (s : State) : Out :=
  laneOp (.mul2b x rnd sat sm) x.hd 1 x.d (packedMul bf16 x rnd sat sm) s
/-- `FMA2B` (R85). -/
def execFma2b (x : A3) (rnd : BitVec 3) (sat : Bool) (sm : BitVec 2) (s : State) : Out :=
  laneOp (.fma2b x rnd sat sm) x.hd 1 x.d (packedFma bf16 x rnd sat sm) s
/-- `MAX2B` (R85). -/
def execMax2b (x : A2) (sm : BitVec 2) (s : State) : Out := laneOp (.max2b x sm) x.hd 1 x.d (packedMax bf16 x sm) s

end Sys2Proof.Machine
end

