-- ==== Sys2Proof/Machine/Convert.lean ====
section
/-!
DEFINITION. Group 5, conversions and moves (R86-R91), and the BX block formats (R34-R37).
-/

namespace Sys2Proof.Machine

/-- The floating-point format of a code of R86. -/
def fpFormat (c : Nat) : Option FFmt :=
  match c with
  | 0 => some fp64
  | 1 => some fp32
  | 2 => some fp16
  | 3 => some bf16
  | _ => none

/-- The width of an integer format of R86 and whether it is signed. -/
def intFormat (c : Nat) : Nat × Bool :=
  match c with
  | 4 => (8, true)
  | 5 => (16, true)
  | 6 => (32, true)
  | 7 => (64, true)
  | 8 => (8, false)
  | 9 => (16, false)
  | 10 => (32, false)
  | _ => (64, false)

/-- The least and greatest value of an integer format (R26). -/
def intRange (w : Nat) (signed : Bool) : Int × Int :=
  if signed then (-(2 ^ (w - 1)), 2 ^ (w - 1) - 1) else (0, 2 ^ w - 1)

/-- An integer of a format from its pattern. -/
def intOf (w : Nat) (signed : Bool) (x : Nat) : Int :=
  let v := x % 2 ^ w
  if signed && decide (2 ^ (w - 1) ≤ v) then (v : Int) - 2 ^ w else v

/-- The register form of an integer result (R87): sign- or zero-extended to 32 bits, or the pair. -/
def intForm (w : Nat) (v : Int) : Nat :=
  if w = 64 then (v % 2 ^ 64).toNat else (v % 2 ^ 32).toNat

/-- Convert a source pattern between two formats of R86 (R38, R87). SUBN governs a conversion whose result is floating point (R33);
a subnormal source of an integer result is read exactly. -/
def convert (dst src : Nat) (mode : BitVec 3) (sat subn : Bool) (x : Nat) : FRes :=
  match fpFormat dst, fpFormat src with
  | some fd, some fs => toFormat fd mode sat subn (unpack fs subn x)
  | none, some fs =>
    let (w, sg) := intFormat dst
    let (lo, hi) := intRange w sg
    let (v, fl) := toInteger mode lo hi (unpackExact fs x)
    ⟨intForm w v, fl⟩
  | some fd, none =>
    let (w, sg) := intFormat src
    roundSigned fd mode sat subn (intOf w sg x) 0 false
  | none, none =>
    let (ws, ss) := intFormat src
    let (wd, sd) := intFormat dst
    let v := intOf ws ss x
    let (lo, hi) := intRange wd sd
    if sat && decide (v < lo) then ⟨intForm wd lo, { FFlags.none with sat := true }⟩
    else if sat && decide (hi < v) then ⟨intForm wd hi, { FFlags.none with sat := true }⟩
    else ⟨intForm wd (intOf wd sd (v % 2 ^ wd).toNat), FFlags.none⟩

/-- A source operand of a conversion, by its format code (R49, R73, R86). -/
def cvtSource (s : State) (l : Nat) (a : Operand) (src : Nat) (sm : BitVec 2) : Nat :=
  match src with
  | 0 => srcMod fp64 sm (opndF64 s l a)
  | 1 => srcMod fp32 sm (opndF32 s l a)
  | 2 => srcMod fp16 sm (opndF16 fp16 s l a)
  | 3 => srcMod bf16 sm (opndF16 bf16 s l a)
  | 7 => (opnd64 s l a).toNat
  | 11 => (opnd64 s l a).toNat
  | _ => (opnd32 s l a).toNat

/-- `CVT` (R86, R87). -/
def execCvt (x : A1) (dst src : BitVec 4) (rnd : BitVec 3) (sat : Bool) (sm : BitVec 2) (s : State) : Out :=
  laneOp (.cvt x dst src rnd sat sm) x.hd (fmtWords dst) x.d (fun s l =>
    .fp (convert dst.toNat src.toNat rnd sat s.th.subn (cvtSource s l x.a src.toNat sm))) s

/-- `FRND` (R88). -/
def execFrnd (x : A1) (fmt : BitVec 4) (rnd : BitVec 3) (sm : BitVec 2) (s : State) : Out :=
  laneOp (.frnd x fmt rnd sm) x.hd (fmtWords fmt) x.d (fun s l =>
    match fpFormat fmt.toNat with
    | some f => .fp (roundIntegral f rnd s.th.subn (cvtSource s l x.a fmt.toNat sm))
    | none => .word 0) s

/-- `MOV` (R89). -/
def execMov (x : A1) (b64 : Bool) (s : State) : Out :=
  laneOp (.mov x b64) x.hd (if b64 then 2 else 1) x.d (fun s l =>
    if b64 then .dword (opnd64 s l x.a) else .word (opnd32 s l x.a)) s

/-- The lane that B names (R89, R95): B mod 32 of the lowest participating lane. -/
def pickLane (s : State) (act : LaneMask) (b : Operand) : Nat := (opnd32 s (lowLane act) b).toNat % 32

/-- The picked lane's source registers can be read: they are full (R12), and no result that a word outside its window depends on is
still to be written to them (R22, R61, R74). -/
def pickedFull (th : Thread) (src n : Nat) (a : Operand) : Bool :=
  !(th.emptyIn (laneBit src) n a) && !(th.pend.any fun p => p.left == 0 && p.owed.touches [(.src n, a)] (laneBit src))

/-- `MOVK`: a uniform register receives register A of one lane, which need not take part (R89). -/
def execMovk (hd : Hdr) (d a b : Operand) (s : State) : Out :=
  issue (.movk hd d a b) [(.udst 1, d), (.src 1, b)] [] hd s fun act s' =>
    let src := pickLane s' act b
    if act = 0 then .next (s'.setTh (advance s'.th))
    else if !pickedFull s.th src 1 a then .next s
    else
      let mark := s'.th.marked src 1 a || marksIn s'.th [(.src 1, b)] (lowLane act)
      let ws := regWrites 0 1 ((opnd32 s' src a).setWidth 64) mark d
      let th := if mark then s'.th.raiseErr 4 else s'.th
      .next (s'.setTh (advance (th.writes ws)))

/-! ### BX blocks -/

/-- The elements of a block: the FP32 value of each participating lane after SM and SUBN (R90). -/
def bxElems (s : State) (act : LaneMask) (a : Operand) (sm : BitVec 2) : List (Nat × FVal) :=
  (lanesOf act).map fun l => (l, srcA fp32 s sm (opndF32 s l a))

/-- ⌊log2 x⌋ + 127 of a finite nonzero value. -/
def bxExponent (v : FVal) : Int :=
  match v with
  | .fin _ m e => e + (bitLen m : Int) - 1 + 127
  | .nan _ => 0
  | .inf _ => 0

/-- The exponents that CVTBX chooses (R90): E0 and E1. -/
def bxChoose (bx4 : Bool) (mode : BitVec 3) (vs : List FVal) : Nat × Nat :=
  let big := if bx4 then 3 else 63
  let gap := if bx4 then 2 else 6
  let anyNan := vs.any FVal.isNan
  let anyInf := vs.any fun v => match v with
    | .inf _ => true
    | .nan _ => false
    | .fin _ _ _ => false
  let finite := vs.filter fun v => match v with
    | .fin _ m _ => m != 0
    | .nan _ => false
    | .inf _ => false
  let exceeds (e : Nat) : Bool := finite.any fun v => match v with
    | .fin n m x => decide (big < (roundMag bx4 mode n m x e).1)
    | .nan _ => false
    | .inf _ => false
  let e : Nat :=
    if anyInf then 0xfe
    else match (finite.map bxExponent).max? with
      | none => 0
      | some x =>
        let e0 := x.toNat
        if exceeds e0 then e0 + 1 else e0
  let e0 := min e 0xfe
  (e0, if anyNan then 0xff else e0 - gap)

/-- One element encoded under the chosen exponents (R36, R90): its bits and flags; a signalling NaN sets IV (R29). -/
def bxEncode (bx4 : Bool) (mode : BitVec 3) (e0 e1 : Nat) (v : FVal) : FRes :=
  let mb := if bx4 then 2 else 6
  let big := 2 ^ mb - 1
  match v with
  | .nan b => ⟨2 ^ mb, if b then FFlags.invalid else FFlags.none⟩
  | .inf n => ⟨(if n then 2 ^ (mb + 1) else 0) + big, { FFlags.none with ov := true }⟩
  | .fin n m e =>
    let sel := e1 != 0xff && decide (e1 < e0) && m != 0 && decide ((roundMag bx4 mode n m e e1).1 ≤ big)
    let (r, inexact) := roundMag bx4 mode n m e (if sel then e1 else e0)
    ⟨(if n then 2 ^ (mb + 1) else 0) + (if sel then 2 ^ mb else 0) + min r big,
      { FFlags.none with ov := decide (big < r), nx := inexact }⟩

/-- `CVTBX`: the participating lanes build one block; C receives the exponents (R90). -/
def execCvtbx (hd : Hdr) (d a c : Operand) (rnd : BitVec 3) (bx4 : Bool) (sm : BitVec 2) (s : State) : Out :=
  let i := Instr.cvtbx hd d a c rnd bx4 sm
  issue i i.uses [] hd s fun act s =>
    let elems := bxElems s act a sm
    let (e0, e1) := bxChoose bx4 rnd (elems.map Prod.snd)
    let res (l : Nat) : FRes := bxEncode bx4 rnd e0 e1 (srcA fp32 s sm (opndF32 s l a))
    let mark := (lanesOf act).any (marksIn s.th i.uses)
    let ws := laneWrites act 1 d (fun l => BitVec.ofNat 64 (res l).bits) (fun _ => mark)
    let cw := if act = 0 then [] else regWrites 0 1 (BitVec.ofNat 64 (e0 + 256 * e1)) mark c
    let th := (noteMarks s.th i.uses act).raiseFlags (laneFlags act fun l => (res l).flags)
    .next (s.setTh (advance (th.writes (ws ++ cw))))

/-- `UNPKBX`: the FP32 value of one BX element (R91, R34, R37). -/
def execUnpkbx (hd : Hdr) (d a c : Operand) (bx4 : Bool) (s : State) : Out :=
  laneOp (.unpkbx hd d a c bx4) hd 1 d (fun s l =>
    let x := (opnd32 s l a).toNat % (if bx4 then 16 else 256)
    let e := (opnd32 s l c).toNat
    .fp (toFormat fp32 0 false s.th.subn (bxValue bx4 (e % 256) (e / 256 % 256) x))) s

end Sys2Proof.Machine
end

