-- ==== Sys2Proof/Machine/Sync.lean ====
section
/-!
DEFINITION. Completion objects and synchronisation inside a workgroup: chunk maps (R144-R147), timeline counters (R148-R150),
numbered barriers (R163-R166), FORK and RDV (R168, R169), SEQEND (R151).
-/

namespace Sys2Proof.Machine

/-! ### The shape of a wait -/

/-- A wait word with its operand values as read at issue (R429). -/
def waitLog (i : Instr) (hd : Hdr) (act : LaneMask) (s : State) : LogWord :=
  let l := lowLane act
  let rd (k : Nat) : DWord := match i.uses[k]? with
    | none => 0
    | some u => if roleReads u.1 = 1 then (opnd32 s l u.2).setWidth 64 else opnd64 s l u.2
  logOf i hd s.th act 0 [⟨l, 0, rd 0, rd 1, 0, false, false⟩]

/-- A word that waits, per sub-group, until a condition fixed by its operands holds (R61); a marked operand sets DATAF (R16, R75).
`done` performs the completion where the condition holds. -/
def waitWord (i : Instr) (hd : Hdr) (w : State → LaneMask → Wait) (done : State → Wait → Option State) (s : State) : Out :=
  issue i i.uses [] hd s fun act s =>
    if act = 0 then .next (s.setTh (advance s.th))
    else
      let s := s.setTh (noteWord s.th i act)
      match done s (w s act) with
      | some s => .next (s.setTh (advance s.th))
      | none => .next (s.setTh (advance (openKept hd (w s act) (waitLog i hd act s) s.th)))

/-- Another look at a wait: where its condition holds, the word is done (R61). -/
def releaseWait (r : SubRef) (f : Wait → Bool) (done : State → Wait → Option State) (s : State) : Out :=
  asAgent s (refAgent r) fun s =>
    match findPend s.th r.lane (Pend.waitsFor f) with
    | none => .next s
    | some (i, p) =>
      match p.owed with
      | .result _ _ _ => .next s
      | .wait w =>
        match done s w with
        | none => .next s
        | some s => .next (s.setTh (donePend s.th i))

/-! ### Chunk maps -/

/-- A chunk-map slot of a workgroup. -/
def Workgroup.cm (g : Workgroup) (n : Nat) : ChunkSlot := tget ChunkSlot.unbound g.cms n

/-- Bit i of the map of a slot (R144). -/
def Workgroup.mapBit (g : Workgroup) (c : ChunkSlot) (i : Nat) : Bool :=
  (tget 0 g.scratch (64 * c.mapoff.toNat + i / 8)).getLsbD (i % 8)

/-- The condition MET of R147 for chunks `f` to `f + c - 1`, clipped at chunk 511. -/
def Workgroup.cmMet (g : Workgroup) (n f c : Nat) (phase : Bool) : Bool :=
  let x := g.cm n
  x.expect == 0 || x.phase != phase || (List.range (min c (512 - f))).all fun i => g.mapBit x (f + i)

/-- The value of `CMTEST` (R147): MET, PHASE, ARRIVED and BOUND. -/
def Workgroup.cmWord (g : Workgroup) (n f c : Nat) (phase : Bool) : Word :=
  let x := g.cm n
  BitVec.ofNat 32 ((if g.cmMet n f c phase then 1 else 0) + (if x.phase then 2 else 0) + 4 * x.arrived.toNat
    + (if x.expect = 0 then 0 else 2 ^ 14))

/-- The workgroup as a word inside an open window reads its chunk-map slots (R61): a slot that CMINIT has bound since reads as it was
before. -/
def cmView (s : State) (n : Nat) : Workgroup :=
  match s.th.before fun w => (match w with | .cm m x => if m = n then some x else none | _ => none) with
  | some x => { s.wg with cms := tset ChunkSlot.unbound s.wg.cms n x }
  | none => s.wg

/-- A wait for a chunk map completes: an acquire, except of an unbound slot (R147). -/
def cmDone (s : State) : Wait → Option State
  | .cm n f c phase scope =>
    let g := cmView s n
    if g.cmMet n f c phase then some (if (g.cm n).expect = 0 then s else acquire s scope) else none
  | _ => none

/-- The fault that CMINIT meets (R146): ALIGN before WINDOW. -/
def cminitFault (g : Workgroup) (map b : Nat) : Option Refused :=
  if map % 64 ≠ 0 ∨ b % 512 ≠ 0 then some (.align, 0)
  else if g.scratchSize < map + 64 ∨ g.scratchSize ≤ b % 2 ^ 20 then some (.window, 0)
  else none

/-- The two uniform operands of a word as one lane's operands, or those that the operand log records (R128). -/
def uniLane (s : State) (act : LaneMask) (a b : Operand) : LogLane :=
  match s.th.grp.replay.bind fun w => w.lanes.head? with
  | some x => x
  | none =>
    let l := lowLane act
    { lane := l, addr := 0, a := (opnd32 s l a).setWidth 64, b := (opnd32 s l b).setWidth 64, data := 0, addrMark := false,
      dataMark := s.th.marked l 1 a || s.th.marked l 1 b }

/-- A word reads operands of which some are marked: DATAF (R16, R75). -/
def noteLane (th : Thread) (x : LogLane) : Thread := if x.dataMark then th.raiseErr 4 else th

/-- `CMINIT` (R146). -/
def execCminit (hd : Hdr) (slot : BitVec 4) (a b : Operand) (s : State) : Out :=
  issue (.cminit hd slot a b) (Instr.cminit hd slot a b).uses [] hd s fun act s' =>
    if act = 0 then .next (s'.setTh (advance s'.th))
    else
      let x := uniLane s' act a b
      let map := x.a.toNat
      let bind := x.b.toNat
      match cminitFault s'.wg map bind with
      | some e => faultWord s s' .store (x.lane, e, x.a) (logOf (.cminit hd slot a b) hd s'.th act (laneBit x.lane) [x])
      | none =>
        let g := s'.wg.put map (List.replicate 64 0) false
        let new : ChunkSlot := ⟨BitVec.ofNat 14 (map / 64), BitVec.ofNat 11 (bind % 2 ^ 20 / 512), BitVec.ofNat 12 (bind / 2 ^ 20), 0, false⟩
        let s := writeSlots hd [.cm slot.toNat (s'.wg.cm slot.toNat)] [.cm slot.toNat new] [] { s' with wg := g }
        .next (s.setTh (advance (noteLane s.th x)))

/-- The range operand of CMTEST and CMWAIT: first chunk and count (R147). -/
def cmRange (x : Word) : Nat × Nat := (x.toNat % 512, x.toNat / 512 % 1024)

/-- `CMTEST` (R147). -/
def execCmtest (hd : Hdr) (d : Operand) (slot : BitVec 4) (a b : Operand) (scope : Scope) (s : State) : Out :=
  let i := Instr.cmtest hd d slot a b scope
  issue i i.uses [] hd s fun act s =>
    let l := lowLane act
    let r := cmRange (opnd32 s l a)
    let p := (opnd32 s l b).getLsbD 0
    let g := cmView s slot.toNat
    let x := g.cmWord slot.toNat r.1 r.2 p
    let ws := laneWrites act 1 d (fun _ => x.setWidth 64) (fun _ => s.th.marked l 1 a || s.th.marked l 1 b)
    let s := if act != 0 && (g.cm slot.toNat).expect != 0 && g.cmMet slot.toNat r.1 r.2 p then acquire s scope else s
    .next (s.setTh (advance (deliver hd ws (noteWord s.th i act))))

/-- `CMWAIT` (R147). -/
def execCmwait (hd : Hdr) (slot : BitVec 4) (a b : Operand) (scope : Scope) (s : State) : Out :=
  waitWord (.cmwait hd slot a b scope) hd (fun s act =>
    let l := lowLane act
    let r := cmRange (opnd32 s l a)
    .cm slot.toNat r.1 r.2 ((opnd32 s l b).getLsbD 0) scope) cmDone s

/-- The wait is for a chunk map. -/
def Wait.isCm : Wait → Bool
  | .cm _ _ _ _ _ => true
  | _ => false

/-- `CMWAIT_RELEASE` (R147). -/
def execCmwaitRelease (r : SubRef) (s : State) : Out := releaseWait r Wait.isCm cmDone s

/-! ### Timeline counters -/

/-- A counter at launch start (R148). -/
def Timeline.fresh : Timeline := ⟨0, 0, 0, []⟩

/-- A timeline counter of a workgroup. -/
def Workgroup.tl (g : Workgroup) (n : Nat) : Timeline := tget Timeline.fresh g.tls n

/-- Change a timeline counter. -/
def Workgroup.setTl (g : Workgroup) (n : Nat) (t : Timeline) : Workgroup := { g with tls := tset Timeline.fresh g.tls n t }

/-- 64 tickets are outstanding above VALUE (R148). -/
def Timeline.full (t : Timeline) : Bool := decide (64 ≤ (t.issued - t.value).toNat)

/-- An operation is accepted on a counter (R148): its ticket, and the workgroup. -/
def Workgroup.ticket (g : Workgroup) (n : Nat) : Nat × Workgroup :=
  let t := g.tl n
  ((t.issued + 1).toNat, g.setTl n { t with issued := t.issued + 1 })

/-- VALUE passes over the tickets that have completed (R148). -/
def advanceValue : Nat → Nat → List Nat → Nat × List Nat
  | 0, v, done => (v, done)
  | n + 1, v, done => if done.contains (v + 1) then advanceValue n (v + 1) (done.erase (v + 1)) else (v, done)

/-- A ticket completes (R148). -/
def Timeline.complete (t : Timeline) (ticket : Nat) : Timeline :=
  let r := advanceValue (t.done.length + 1) t.value.toNat (ticket :: t.done)
  { t with value := BitVec.ofNat 64 r.1, done := r.2 }

/-- The status of a counter records an operation (R150): the code and ticket of the first failure, and the SAT, DATA and
STALE bits. -/
def Timeline.record (t : Timeline) (ticket code : Nat) (sat data stale : Bool) : Timeline :=
  let first : Word :=
    if code ≠ 0 ∧ !t.status.getLsbD 4 then BitVec.ofNat 32 (code + 16 + ticket % 2 ^ 24 * 256) else 0
  { t with status := t.status ||| first ||| (if sat then 32 else 0) ||| (if data then 64 else 0) ||| (if stale then 128 else 0) }

/-- A wait for a counter completes: an acquire of the operations up to the target (R149). -/
def tlDone (s : State) : Wait → Option State
  | .tl n target scope => if target.toNat ≤ (s.wg.tl n).value.toNat then some (acquire s scope) else none
  | _ => none

/-- `TLWAIT` (R149). -/
def execTlwait (hd : Hdr) (tl : BitVec 3) (a : Operand) (scope : Scope) (s : State) : Out :=
  waitWord (.tlwait hd tl a scope) hd (fun s act => .tl tl.toNat (opnd64 s (lowLane act) a) scope) tlDone s

/-- The wait is for a timeline counter. -/
def Wait.isTl : Wait → Bool
  | .tl _ _ _ => true
  | _ => false

/-- `TLWAIT_RELEASE` (R149). -/
def execTlwaitRelease (r : SubRef) (s : State) : Out := releaseWait r Wait.isTl tlDone s

/-- `TLREAD` (R149). -/
def execTlread (hd : Hdr) (d : Operand) (tl : BitVec 3) (sel : BitVec 2) (clr : Bool) (s : State) : Out :=
  issue (.tlread hd d tl sel clr) (Instr.tlread hd d tl sel clr).uses [] hd s fun act s =>
    let t := s.wg.tl tl.toNat
    let x : DWord := if sel = 0 then t.value else if sel = 1 then t.issued else t.status.setWidth 64
    let ws := laneWrites act (if sel = 2 then 1 else 2) d (fun _ => x) (fun _ => false)
    let s := if clr && act != 0 then { s with wg := s.wg.setTl tl.toNat { t with status := 0 } } else s
    .next (s.setTh (advance (deliver hd ws s.th)))

/-! ### Barriers -/

/-- A barrier at launch start (R163). -/
def Bar.fresh : Bar := ⟨0, 0, 0, 0, 0⟩

/-- A barrier of a workgroup. -/
def Workgroup.bar (g : Workgroup) (n : Nat) : Bar := tget Bar.fresh g.bars n

/-- Change a barrier. -/
def Workgroup.setBar (g : Workgroup) (n : Nat) (b : Bar) : Workgroup := { g with bars := tset Bar.fresh g.bars n b }

/-- An arrival (R163); `st` is ORed into STATUS first (R162). -/
def Bar.arrive (b : Bar) (st : Word) : Bar :=
  if b.expect = 0 then b
  else
    let status := b.status ||| st
    if b.arrived + 1 = b.expect then { b with last := status, status := 0, arrived := 0, phase := b.phase + 1 }
    else { b with status := status, arrived := b.arrived + 1 }

/-- `BARINIT` (R165). -/
def execBarinit (hd : Hdr) (bar : BitVec 4) (a : Operand) (s : State) : Out :=
  issue (.barinit hd bar a) (Instr.barinit hd bar a).uses [] hd s fun act s =>
    if act = 0 then .next (s.setTh (advance s.th))
    else
      let x := opnd32 s (lowLane act) a
      let s := { s with wg := s.wg.setBar bar.toNat { Bar.fresh with expect := x.setWidth 12 } }
      .next (s.setTh (advance (noteWord s.th (.barinit hd bar a) act)))

/-- The operands of a word with an optional destination: field zero discards the result (R164, R197). -/
def usesOr (i : Instr) (d : Operand) : List (Role × Operand) :=
  if d.isZero then i.uses.filter (fun u => !u.1.optional) else i.uses

/-- The matrix sequencer's BARRIVE is queued behind its operations (R162). -/
def queueArrive (g : Workgroup) (bar : BitVec 4) : Workgroup :=
  { g with mq := g.mq ++ [⟨.arrive bar, 0, 0, none, .queued, 0, [], [], 0, true⟩] }

/-- `BARRIVE` (R162, R163, R166). DESIGN CHOICE (log entry 51): where the arrival is one of the matrix sequencer and queued, D gets the PHASE
at issue, as R166 does not say which moment is before an arrival that is still to come. -/
def execBarrive (hd : Hdr) (d : Operand) (bar : BitVec 4) (s : State) : Out :=
  issue (.barrive hd d bar) (usesOr (.barrive hd d bar) d) [] hd s fun act s =>
    if act = 0 then .next (s.setTh (advance s.th))
    else
      let b := s.wg.bar bar.toNat
      let ws := if d.isZero then [] else laneWrites act 1 d (fun _ => b.phase.setWidth 64) (fun _ => false)
      let core := s.th.ident.core
      let s := match s.th.agent with
        | .matrix _ _ => { s with wg := queueArrive s.wg bar, inputs := s.inputs ++ [Instr.arrayOpStart core] }
        | .troupe _ _ _ => { s with wg := s.wg.setBar bar.toNat (b.arrive 0) }
        | .copy _ _ => { s with wg := s.wg.setBar bar.toNat (b.arrive 0) }
        | .control _ => s
        | .firmware _ => s
      .next (s.setTh (advance (s.th.writes ws)))

/-- What a completed wait for the sequencers acquires (R166, R169): at workgroup scope, and wider once a matrix operation
can have arrived. -/
def acquireMatrix (s : State) : State := acquire s (if s.wg.ownedArray then .pd else .wg)

/-- A wait at a barrier completes (R166). -/
def barDone (s : State) : Wait → Option State
  | .bar n phase =>
    let b := s.wg.bar n
    if b.expect = 0 || b.phase != phase then some (acquireMatrix s) else none
  | _ => none

/-- `BARWAIT` (R166). -/
def execBarwait (hd : Hdr) (bar : BitVec 4) (a : Operand) (s : State) : Out :=
  waitWord (.barwait hd bar a) hd (fun s act => .bar bar.toNat (opnd32 s (lowLane act) a)) barDone s

/-- The wait is at a barrier. -/
def Wait.isBar : Wait → Bool
  | .bar _ _ => true
  | _ => false

/-- `BARWAIT_RELEASE` (R166). -/
def execBarwaitRelease (r : SubRef) (s : State) : Out := releaseWait r Wait.isBar barDone s

/-- What BARSTAT reads (R166). -/
def Bar.item (b : Bar) (sel : BitVec 2) : Word :=
  match sel.toNat with
  | 0 => b.last
  | 1 => b.status
  | 2 => b.phase
  | _ => BitVec.ofNat 32 (b.expect.toNat + b.arrived.toNat * 2 ^ 16)

/-- `BARSTAT` (R166). -/
def execBarstat (hd : Hdr) (d : Operand) (bar : BitVec 4) (sel : BitVec 2) (s : State) : Out :=
  issue (.barstat hd d bar sel) (Instr.barstat hd d bar sel).uses [] hd s fun act s =>
    let x := (s.wg.bar bar.toNat).item sel
    .next (s.setTh (advance (s.th.writes (laneWrites act 1 d (fun _ => x.setWidth 64) fun _ => false))))

/-! ### FORK, RDV and SEQEND -/

/-- A thread of the package, the current one included. -/
def State.thread (s : State) (a : Agent) : Option Thread :=
  if s.th.agent = a then some s.th else s.threads.find? fun t => t.agent == a

/-- Change a thread. -/
def State.setThread (s : State) (a : Agent) (f : Thread → Thread) : State :=
  if s.th.agent = a then { s with th := f s.th }
  else { s with threads := s.threads.map fun t => if t.agent == a then f t else t }

/-- The agent has ended with a fault. -/
def Thread.failed (t : Thread) : Bool :=
  match t.status with
  | .faulted _ => true
  | .running => false
  | .idle => false
  | .halted => false
  | .stopped => false
  | .ended => false

/-- A sequencer is idle (R151, R169). -/
def seqIdle (s : State) (a : Agent) : Bool :=
  match s.thread a with
  | none => true
  | some t => t.status == .idle

/-- A sequencer starts at an address with a troupe's uniform registers and, for the copy sequencer, its valid count (R168). -/
def startSeq (by_ : Thread) (copy : Bool) (pc : DWord) (t : Thread) : Thread :=
  { t with status := .running, k := by_.k, kMark := by_.kMark, p := [], vcnt := if copy then by_.vcnt else t.vcnt,
           grp := ⟨1, pc, true, .run, none, none, false⟩, rest := [], live := 1, pend := [], slots := [] }

/-- The FORK that may take effect now: the one that has waited longest among those whose troupe still runs (R168). -/
def forkHead (s : State) : Option (Nat × Nat) :=
  (s.wg.forkq.filter fun f => (s.thread (.troupe s.wg.ctx s.wg.wgl f.1)).any fun t => t.status == .running).head?

/-- The sequencers that a FORK names are idle, and it starts them (R168). -/
def forkDone (s : State) : Wait → Option State
  | .fork a b =>
    let m := Agent.matrix s.wg.ctx s.wg.wgl
    let c := Agent.copy s.wg.ctx s.wg.wgl
    if (a != 0 && !seqIdle s m) || (b != 0 && !seqIdle s c) then none
    else
      let by_ := s.th
      let s := if a = 0 then s else s.setThread m (startSeq by_ false a)
      some (if b = 0 then s else s.setThread c (startSeq by_ true b))
  | _ => none

/-- What FORK reads (R61, R168): its two addresses, and every uniform register, which the sequencers copy. -/
def forkUses (i : Instr) : List (Role × Operand) := i.uses ++ [(.usrc 128, .k 0)]

/-- `FORK` (R168). -/
def execFork (hd : Hdr) (a b : Operand) (s : State) : Out :=
  issue (.fork hd a b) (forkUses (.fork hd a b)) [] hd s fun act s' =>
    if act = 0 then .next (s'.setTh (advance s'.th))
    else
      let l := lowLane act
      let x : LogLane := match s'.th.grp.replay.bind fun w => w.lanes.head? with
        | some x => x
        | none => { lane := l, addr := 0, a := opnd64 s' l a, b := opnd64 s' l b, data := 0, addrMark := false,
                    dataMark := s'.th.marked l 2 a || s'.th.marked l 2 b }
      let s' := s'.setTh (noteLane s'.th x)
      if x.a.toNat % 8 ≠ 0 ∨ x.b.toNat % 8 ≠ 0 then
        faultWord s s' .load (l, (.align, 0), if x.a.toNat % 8 ≠ 0 then x.a else x.b)
          (logOf (.fork hd a b) hd s'.th act (laneBit l) [x])
      else
        let w := Wait.fork x.a x.b
        match if (forkHead s').isNone then forkDone s' w else none with
        | some s => .next (s.setTh (advance s.th))
        | none =>
          let s := { s' with wg := { s'.wg with forkq := s'.wg.forkq ++ [(s'.th.agent.troupeNo, lowLane s'.th.grp.mask)] } }
          .next (s.setTh (advance (openWait hd w s.th)))

/-- The wait is a FORK's. -/
def Wait.isFork : Wait → Bool
  | .fork _ _ => true
  | _ => false

/-- `FORK` gets its sequencers (R168): the FORK words of the troupes take effect one at a time, in issue order. -/
def execForkStart (r : SubRef) (s : State) : Out :=
  releaseWait r Wait.isFork (fun s w =>
    if forkHead s = some (r.troupe, r.lane) then
      (forkDone s w).map fun s => { s with wg := { s.wg with forkq := s.wg.forkq.erase (r.troupe, r.lane) } }
    else none) s

/-- Both sequencers are idle (R169). -/
def rdvDone (s : State) : Wait → Option State
  | .rdv =>
    if seqIdle s (.matrix s.wg.ctx s.wg.wgl) && seqIdle s (.copy s.wg.ctx s.wg.wgl) then some (acquireMatrix s) else none
  | _ => none

/-- `RDV` (R169). -/
def execRdv (hd : Hdr) (s : State) : Out := waitWord (.rdv hd) hd (fun _ _ => .rdv) rdvDone s

/-- The wait is an RDV. -/
def Wait.isRdv : Wait → Bool
  | .rdv => true
  | _ => false

/-- `RDV_RELEASE` (R169). -/
def execRdvRelease (r : SubRef) (s : State) : Out := releaseWait r Wait.isRdv rdvDone s

/-- A delivery comes from an RWR of an agent. -/
def Sender.is (a : Agent) : Sender → Bool
  | .word b _ _ _ => a == b
  | .packet _ => false

/-- A copy command of a sequencer that has not completed (R151). -/
def copyBusy (s : State) (a : Agent) : Bool := s.cores.any fun c => c.2.copyq.any fun x => x.issuer == a

/-- Every operation that the sequencer has issued has completed (R151): a delivery of an RWR holds its ticket too. -/
def seqDone (s : State) : Bool :=
  match s.th.agent with
  | .matrix _ _ => s.wg.mq.isEmpty
  | .copy _ _ => !copyBusy s s.th.agent && !(s.sends.any fun d => d.sender.is s.th.agent)
  | .troupe _ _ _ => true
  | .control _ => true
  | .firmware _ => true

/-- The sequencer becomes idle (R151). -/
def goIdle (th : Thread) : Thread := { th with status := .idle, grp := { th.grp with mask := 0 }, live := 0, pend := [] }

/-- `SEQEND` (R151). -/
def execSeqend (hd : Hdr) (s : State) : Out :=
  issue (.seqend hd) [] [] hd s fun act s =>
    if act = 0 then .next (s.setTh (advance s.th))
    else
      let core := s.th.ident.core
      let s := { s with inputs := s.inputs ++ [.arrayOwnershipChange core] }
      if seqDone s then .next (s.setTh (goIdle s.th)) else .next (s.setTh (advance (openWait { hd with la := 0 } .seqend s.th)))

/-- The wait is a SEQEND's. -/
def Wait.isSeqend : Wait → Bool
  | .seqend => true
  | _ => false

/-- `SEQUENCER_IDLE` (R151). -/
def execSequencerIdle (ctx wg : Nat) (copy : Bool) (s : State) : Out :=
  asAgent s (if copy then .copy ctx wg else .matrix ctx wg) fun s =>
    if s.th.pend.any (Pend.waitsFor Wait.isSeqend) && seqDone s then
      .next { s with th := goIdle s.th, inputs := s.inputs ++ [.arrayOwnershipChange s.th.ident.core] }
    else .next s

end Sys2Proof.Machine
end

