-- ==== Sys2Proof/Machine/Tensor.lean ====
section
/-!
DEFINITION. Tensor records and tiles (R134-R137), the places that an engine reaches (R139, R140, R354), and the queue pool
(R132, R237, R238).
-/

namespace Sys2Proof.Machine

/-! ### Contexts -/

/-- Change a context. -/
def putCx (s : State) (x : Context) : State :=
  if s.cx.live && s.cx.ctx == x.ctx then { s with cx := x }
  else { s with cxs := s.cxs.map fun y => if y.ctx == x.ctx then x else y }

/-- A handle of a context; an unset one is an invalid record of zeros. -/
def Context.handle (x : Context) (h : Nat) : TRecord := tget 0 x.handles h

/-! ### Records -/

/-- BASE of a record (R135). -/
def recBase (r : TRecord) : Nat := bitsN r.toNat 56 0
/-- RANK of a record (R135). -/
def recRank (r : TRecord) : Nat := bitsN r.toNat 59 57
/-- FMT of a record (R135). -/
def recFmt (r : TRecord) : Nat := bitsN r.toNat 63 60
/-- DIMd of a record (R135). -/
def recDim (r : TRecord) (d : Nat) : Nat := bitsN r.toNat (95 + 32 * d) (64 + 32 * d)
/-- STRd of a record for d from 1 (R135). -/
def recStr (r : TRecord) (d : Nat) : Nat := bitsN r.toNat (223 + 40 * d) (184 + 40 * d)
/-- TILEd of a record (R135). -/
def recTile (r : TRecord) (d : Nat) : Nat := bitsN r.toNat (392 + 9 * d) (384 + 9 * d)
/-- SCALE of a record (R135). -/
def recScale (r : TRecord) : Nat := bitsN r.toNat 485 429
/-- KEY of a record (R135). -/
def recKey (r : TRecord) : Nat := bitsN r.toNat 496 486
/-- VALID of a record (R135). -/
def recValid (r : TRecord) : Bool := bitsN r.toNat 511 511 == 1

/-- The bits of an element of a format: codes of R86, 12 for BX8 and 13 for BX4 (R135). -/
def elemBits (fmt : Nat) : Nat :=
  match fmt with
  | 0 => 64
  | 1 => 32
  | 2 => 16
  | 3 => 16
  | 4 => 8
  | 5 => 16
  | 6 => 32
  | 7 => 64
  | 8 => 8
  | 9 => 16
  | 10 => 32
  | 11 => 64
  | 12 => 8
  | _ => 4

/-- The format is BX8 or BX4. -/
def isBx (fmt : Nat) : Bool := fmt == 12 || fmt == 13

/-- A scratchpad tensor: its BASE lies in window 0x0 (R135). -/
def recScratch (r : TRecord) : Bool := isWindow (recBase r) && bitsN (recBase r) 51 48 == 0

/-- The product of the tile extents below dimension n. -/
def tileBelow (r : TRecord) (n : Nat) : Nat := ((List.range n).map (recTile r)).prod

/-- The product of the extents below dimension n. -/
def dimBelow (r : TRecord) (n : Nat) : Nat := ((List.range n).map (recDim r)).prod

/-- The status of THSET: the first check of R136 that fails, or 0. -/
def recStatus (s : State) (asid : Nat) (r : TRecord) : Nat :=
  let bits := elemBits (recFmt r)
  let elem := (bits + 7) / 8
  let strides := (List.range (recRank r)).filter (fun d => decide (1 ≤ d))
  let unit := if isBx (recFmt r) then 4 * bits else elem
  if recRank r = 0 ∨ 5 < recRank r then 1
  else if 13 < recFmt r then 2
  else if (List.range 5).any fun d =>
      recDim r d == 0 || recTile r d == 0 || decide (256 < recTile r d)
        || (decide (recRank r ≤ d) && (recDim r d != 1 || recTile r d != 1)) then 3
  else if 8 * 262144 < tileBelow r 5 * bits then 4
  else if recBase r % elem ≠ 0 ∨ (strides.any fun d => recStr r d % unit != 0) then 5
  else if isBx (recFmt r) && (recDim r 0 % 32 != 0 || recTile r 0 % 32 != 0 || recScale r % 2 != 0) then 6
  else if recScratch r then 0
  else if !keyGranted s asid (recKey r) then 7
  else if bitsN r.toNat 510 497 ≠ 0 then 8
  else 0

/-! ### Tiles -/

/-- One element of a tile, or one block of a BX tile (R137): its row, whether it lies inside the tensor, and the bytes that
hold it in the tensor and on the packed side, as pairs of address or offset and length. -/
structure TileUnit where
  row : Nat
  inside : Bool
  mem : List (Nat × Nat)
  pack : List (Nat × Nat)
  deriving DecidableEq, Repr

/-- The tiles of a record along dimension d (R137). -/
def gridDim (r : TRecord) (d : Nat) : Nat := ceilDiv (recDim r d) (recTile r d)

/-- The number of tiles of a record (R137). -/
def gridSize (r : TRecord) : Nat := ((List.range 5).map (gridDim r)).prod

/-- The coordinate of tile `t` along dimension d, dimension 0 fastest (R137). -/
def gridCoord (r : TRecord) (t d : Nat) : Nat := t / ((List.range d).map (gridDim r)).prod % gridDim r d

/-- The address of the element at a position of the tensor (R135). -/
def elemAddr (r : TRecord) (pos : List Nat) : Nat :=
  recBase r + (pos.headD 0) * elemBits (recFmt r) / 8
    + ((List.range 4).map fun d => (pos[d + 1]?).getD 0 * recStr r (d + 1)).sum

/-- The block number of a position of a BX tensor (R35). -/
def blockNo (r : TRecord) (pos : List Nat) : Nat :=
  ((List.range 5).map fun d => (pos[d]?).getD 0 * dimBelow r d).sum / 32

/-- The elements that a unit holds. -/
def unitElems (fmt : Nat) : Nat := if isBx fmt then 32 else 1

/-- The bytes of the packed side (R137). -/
def packedBytes (r : TRecord) (sfmt : Nat) : Nat :=
  tileBelow r 5 * elemBits sfmt / 8 + (if isBx sfmt then tileBelow r 5 / 16 else 0)

/-- The unit at element `e` of a tile whose position in the tensor `pos` gives by dimension and coordinate in the tile. -/
def tileUnit (r : TRecord) (sfmt : Nat) (pos : Nat → Nat → Option Nat) (e : Nat) : TileUnit :=
  let coord (d : Nat) : Nat := e / tileBelow r d % recTile r d
  let ps := (List.range 5).map fun d => pos d (coord d)
  let at_ := ps.map fun p => p.getD 0
  let n := unitElems (recFmt r)
  let bx := isBx (recFmt r)
  { row := coord 1
    inside := (ps.zip (List.range 5)).all fun x => match x.1 with
      | some p => decide (p < recDim r x.2)
      | none => false
    mem := (elemAddr r at_, n * elemBits (recFmt r) / 8) :: (if bx then [(recScale r + 2 * blockNo r at_, 2)] else [])
    pack := (e * elemBits sfmt / 8, n * elemBits sfmt / 8)
      :: (if bx then [(tileBelow r 5 * elemBits sfmt / 8 + 2 * (e / 32), 2)] else []) }

/-- The units of tile `t` (R137). -/
def tileUnits (r : TRecord) (sfmt t : Nat) : List TileUnit :=
  let n := unitElems (recFmt r)
  (List.range (tileBelow r 5 / n)).map fun j =>
    tileUnit r sfmt (fun d c => some (gridCoord r t d * recTile r d + c)) (j * n)

/-! ### The places that an engine reaches -/

/-- The engine work of a workgroup: the core that does it, its context and the workgroup. -/
structure EngCtx where
  core : Nat
  cx : Context
  wg : Workgroup
  deriving DecidableEq, Repr

/-- The die of a core (R14). -/
def coreDie (c : Nat) : Nat := c / 48

/-- The engine context of an issuer. -/
def engCtx (s : State) (core : Nat) (a : Agent) : Option EngCtx :=
  match a.place with
  | none => none
  | some (c, w) =>
    match getCx s c, getWg s c w with
    | some x, some g => some ⟨core, x, g⟩
    | _, _ => none

/-- The place of `n` bytes at an address that an engine reaches for its issuer (R20, R139, R354). -/
def engPlace (s : State) (e : EngCtx) (va n : Nat) (kind : Access) (key : Option Nat) : Except Refused Place × State :=
  if isWindow va then
    let off := va % 2 ^ 20
    if e.wg.scratchSize < off + n ∨ bitsN va 47 23 ≠ 0 ∨ (bitsN va 51 48 = 0 ∧ bitsN va 22 20 ≠ 0)
        ∨ (bitsN va 51 48 = 2 ∧ e.cx.stages ≤ bitsN va 22 20) then (.error (.window, 0), s)
    else
      match bitsN va 51 48 with
      | 0 => (.ok (.scratch e.wg.ctx e.wg.wgl off), touchScratch s e.wg.ctx e.wg.wgl off n)
      | 2 =>
        let w := e.wg.cohort * e.cx.stages + bitsN va 22 20
        (.ok (.scratch e.wg.ctx w off), touchScratch s e.wg.ctx w off n)
      | _ => (.error (.prot, 9), s)
  else
    match translate s (200 + e.core / 8) e.cx.asid va ⟨kind, false, key, false⟩ with
    | (.error r, s) => (.error r, s)
    | (.ok (pa, k), s) => (.ok (.mem pa k), s)

/-- Cut a range of bytes at the lines of memory. -/
def linePieces (va n : Nat) : List (Nat × Nat) :=
  (linesOf va n).map fun l =>
    let lo := max va (128 * l)
    (lo, min (va + n) (128 * l + 128) - lo)

/-- Resolve ranges of an engine's bytes in order; the first refusal ends it. -/
def engPlaces (e : EngCtx) (kind : Access) (key : Option Nat) :
    List (Nat × Nat) → State → Except (Nat × Refused) (List (Place × Nat)) × State
  | [], s => (.ok [], s)
  | (va, n) :: r, s =>
    match engPlace s e va n kind key with
    | (.error x, s) => (.error (va, x), s)
    | (.ok p, s) =>
      match engPlaces e kind key r s with
      | (.error x, s) => (.error x, s)
      | (.ok ps, s) => (.ok ((p, n) :: ps), s)

/-- What an engine reads at a place (R255): the bytes and their mark; none while another package must answer. -/
def engRead (s : State) (core : Nat) (p : Place) (n : Nat) : Option (List Byte × Bool) × State :=
  match p with
  | .scratch c g off => ((getWg s c g).map fun h => (h.bytes off n, anyMark h.scratchMark off n), s)
  | .window _ => (none, s)
  | .mem pa key => coreReadAt s core pa key n

/-- Read places one after another, with the mark of each byte; the lines of other packages that are missing are asked for, and then the
answer is none. -/
def engReadsAll (core : Nat) : List (Place × Nat) → State → Option (List Byte × List Bool) × State
  | [], s => (some ([], []), s)
  | (p, n) :: r, s =>
    match engRead s core p n, p with
    | (some (b, m), s), _ =>
      match engReadsAll core r s with
      | (none, s) => (none, s)
      | (some (b', m'), s) => (some (b ++ b', List.replicate n m ++ m'), s)
    | (none, s), .mem pa key =>
      let s := if lineAsked s pa then s else (requestLineFrom s (coreDie core) pa key).2
      (none, (engReadsAll core r s).2)
    | (none, s), _ => (some (List.replicate n 0, List.replicate n false), s)

/-- Read places one after another, with one mark for them all. -/
def engReads (core : Nat) (ps : List (Place × Nat)) (s : State) : Option (List Byte × Bool) × State :=
  let r := engReadsAll core ps s
  (r.1.map fun v => (v.1, v.2.any id), r.2)

/-- An engine writes bytes at a place in this package or at the host; a place in another package is sent a COPY packet
(R277), whose tag is answered. `op` is 0 for a plain write and 1 + OP for a combine of `CPYR` at the place of record. -/
def engWrite (s : State) (core op : Nat) (p : Place) (data : List Byte) (mark : Bool) : Option Nat × State :=
  match p with
  | .scratch c g off => match getWg s c g with
    | none => (none, s)
    | some h => (none, putWg s (h.put off data mark))
  | .window _ => (none, s)
  | .mem pa key =>
    let d := coreDie core
    if homedHere s pa || isHost pa then (none, drainDie (homeWrite (noteAsker (drainDie s d) pa core) pa key data mark s.pkg d) d)
    else
      let (t, s) := newTag (rdcDrop s d pa)
      (some t, sendFrom s d { packetBlank with
        typ := 7, tc := 2, dst := ((homeOf s pa).getD (0, 0)).1, addr := BitVec.ofNat 64 pa, width := data.length, group := key,
        op := op, lanes := if mark then 1 else 0, tag := t, data := data })

/-- Bytes for a place, with their mark. -/
abbrev Run := Place × List Byte × Bool

/-- Where a place lies: the storage, and the offset in it. -/
def Place.spot : Place → (Nat × Nat × Nat) × Nat
  | .scratch c g off => ((0, c, g), off)
  | .mem pa key => ((1, key, 0), pa)
  | .window off => ((2, 0, 0), off)

/-- One place lies before another. -/
def Place.before (p q : Place) : Bool :=
  let a := p.spot
  let b := q.spot
  if a.1 = b.1 then decide (a.2 ≤ b.2)
  else if a.1.1 ≠ b.1.1 then decide (a.1.1 < b.1.1)
  else if a.1.2.1 ≠ b.1.2.1 then decide (a.1.2.1 < b.1.2.1) else decide (a.1.2.2 < b.1.2.2)

/-- Insert a run by its place. -/
def insertRun (x : Run) : List Run → List Run
  | [] => [x]
  | y :: r => if x.1.before y.1 then x :: y :: r else y :: insertRun x r

/-- No run of a sorted list meets the next. -/
def runsApart : List Run → Bool
  | [] => true
  | [_] => true
  | a :: b :: r => (a.1.spot.1 != b.1.spot.1 || decide (a.1.spot.2 + a.2.1.length ≤ b.1.spot.2)) && runsApart (b :: r)

/-- Join runs of a sorted list that follow on in one line of 128 bytes and have one mark. -/
def joinRuns : List Run → List Run
  | [] => []
  | a :: r =>
    match joinRuns r with
    | [] => [a]
    | b :: t =>
      let x := a.1.spot
      let y := b.1.spot
      if x.1 = y.1 && x.2 + a.2.1.length == y.2 && x.2 / 128 == y.2 / 128 && a.2.2 == b.2.2 then (a.1, a.2.1 ++ b.2.1, a.2.2) :: t
      else a :: b :: t

/-- What an engine writes, in units of 16 bytes and more (R120, R249): runs that follow on are written as one, so that clean data that cover
a unit clear its mark (R398). Runs that meet are written one after another. -/
def mergeRuns (l : List Run) : List Run :=
  let q := l.foldr insertRun []
  if runsApart q then joinRuns q else l

/-- Bytes with a mark each, cut at the places that they go to. -/
def cutRuns : List (Place × Nat) → List Byte → List Bool → List Run
  | [], _, _ => []
  | (p, n) :: r, b, marks => (p, b.take n, (marks.take n).any id) :: cutRuns r (b.drop n) (marks.drop n)

/-! ### Handles -/

/-- The address of THSET and THGET (R134): 64 bytes, aligned, in memory or window 0x0. -/
def handleLane (a : Operand) (s : State) (l : Nat) : LogLane :=
  { lane := l, addr := opnd64 s l a, a := opnd64 s l a, b := 0, data := 0, addrMark := false, dataMark := s.th.marked l 2 a }

/-- What THSET and THGET ask (R134, R175). DEDUCED (log entry 23): the record is reached by an access like any other, so STACK, PAGE and PROT
are faults of these words too, which R134 does not list. -/
def handleAsk (a : Operand) (kind : Access) (s : State) (x : LogLane) : LaneReq :=
  { va := x.addr, width := 64, stack := a == .k 126, marked := false, windowOk := bitsN x.addr.toNat 51 48 == 0, regsOk := false,
    memOk := true, badTarget := false, purpose := ⟨kind, s.th.agent.privileged, none, false⟩ }

/-- A record that THSET has read goes into its handle, valid where its checks pass, and D gets the status (R134, R136). DEDUCED (log entry
48): every issuer of the context sees the new record at once, where R134 promises it only after an acquire at package scope. -/
def setHandle (d : Operand) (h : BitVec 8) (act : LaneMask) (x : LogLane) (p : Place) (b : List Byte) (mark : Bool) (s : State) : State :=
  let s := match p with
    | .mem pa key => (serveLoad s x.lane .rlx .tr .dflt pa key 64).2
    | .scratch _ _ _ => s
    | .window _ => s
  let r : TRecord := BitVec.ofNat 512 (ofBytes b % 2 ^ 511)
  let st := recStatus s (curAsid s) r
  let r := if st = 0 then r ||| BitVec.ofNat 512 (2 ^ 511) else r
  let s := { s with cx := { s.cx with handles := tset 0 s.cx.handles h.toNat r } }
  let th := if mark || x.dataMark then s.th.raiseErr 4 else s.th
  let ws := laneWrites act 1 d (fun _ => BitVec.ofNat 64 st) fun _ => mark || x.dataMark
  s.setTh (advance (th.writes ws))

/-- `THSET` (R134, R136). A record in the memory of another package is waited for. -/
def execThset (hd : Hdr) (d : Operand) (h : BitVec 8) (a : Operand) (s : State) : Out :=
  memWord (.thset hd d h a) (Instr.thset hd d h a).uses hd .load s (fun s act => ((lanesOf act).take 1).map (handleLane a s))
    (handleAsk a .load) (fun _ _ => false) (fun act ps s =>
      match ps with
      | [] => .next (s.setTh (advance s.th))
      | (x, p) :: _ =>
        match peek s x.lane 64 p with
        | none => .next (askLines s 64 [p])
        | some b => .next (setHandle d h act x p b.1 b.2 s))

/-- The record of a handle goes to its place, as a 64-byte store of order `rlx` (R134). -/
def storeHandle (h : BitVec 8) (ps : List (LogLane × Place)) (s : State) : State :=
  let data := toBytes 64 (s.cx.handle h.toNat).toNat
  let r := ps.foldl (fun (acc : State × List Nat) x => match x.2 with
    | .scratch c g off => match getWg acc.1 c g with
      | some w => (putWg acc.1 (w.put off data false), acc.2)
      | none => acc
    | .window _ => acc
    | .mem pa key => match serveStore acc.1 pa key data false with
      | (some t, s) => (s, acc.2 ++ [t])
      | (none, s) => (s, acc.2)) (s, [])
  let th := { r.1.th with fabric := r.1.th.fabric ++ r.2 }
  let th := if ps.any fun p => p.1.dataMark then th.raiseErr 4 else th
  r.1.setTh (advance th)

/-- `THGET` (R134). -/
def execThget (hd : Hdr) (h : BitVec 8) (a : Operand) (s : State) : Out :=
  memWord (.thget hd h a) (Instr.thget hd h a).uses hd .store s (fun s act => ((lanesOf act).take 1).map (handleLane a s))
    (handleAsk a .store) (fun _ _ => false) (fun _ ps s => .next (storeHandle h ps s))

/-- The entries of the shared part that queues hold beyond their minima (R238). -/
def sharedUsed (qs : List PoolQueue) : Nat := (qs.map fun q => q.count - q.min).sum

/-- An item of `e` entries may enter queue q (R238). -/
def poolRoom (c : CoreSt) (q e : Nat) : Bool :=
  match c.pool[q]? with
  | none => false
  | some x =>
    let more := (x.count + e - x.min) - (x.count - x.min)
    let free := 2048 - (c.pool.map fun y => y.min).sum - sharedUsed c.pool
    decide (x.count + e ≤ x.cap) && decide (more ≤ free)

/-- Queue q takes entries (R238, R241). -/
def poolTake (c : CoreSt) (q e : Nat) : CoreSt :=
  match c.pool[q]? with
  | none => c
  | some x => { c with pool := c.pool.set q { x with count := x.count + e, peak := max x.peak (x.count + e) } }

/-- Queue q releases entries (R237). -/
def poolFree (c : CoreSt) (q e : Nat) : CoreSt :=
  match c.pool[q]? with
  | none => c
  | some x => { c with pool := c.pool.set q { x with count := x.count - e } }

/-- The word that issues, as a producer. -/
def meProducer (s : State) : Producer := .word s.th.agent (lowLane s.th.grp.mask) s.th.grp.pc

/-- A producer that stalls still wants its entries: a sub-group with its lane is still at its word, or its delivery still waits. -/
def producerAlive (s : State) : Producer → Bool
  | .word a lane pc => (s.thread a).any fun t =>
    t.status == .running && (t.grp :: t.rest).any fun g => g.mask.getLsbD lane && g.pc == pc
  | .delivery id => s.sends.any fun d => d.id == id && (d.phase == .ring || d.phase == .slice)

/-- A place among those that stall is that of a producer: a sub-group that has merged since has the places of its parts (R238). -/
def sameProducer (s : State) : Producer → Producer → Bool
  | .word a lane pc, .word b _ pc' => a == b && pc == pc' && s.th.grp.mask.getLsbD lane
  | .delivery i, .delivery j => i == j
  | .word _ _ _, .delivery _ => false
  | .delivery _, .word _ _ _ => false

/-- A producer may take its entries (R238): of those that have stalled and still want entries, the first goes first. -/
def poolTurn (s : State) (n q : Nat) (who : Producer) : Bool :=
  match (s.core n).stalled.find? fun x => x.1 == q && producerAlive s x.2 with
  | none => true
  | some x => sameProducer s x.2 who

/-- A producer takes entries of a core (R238): in its turn, when there is room. -/
def poolEnter (s : State) (n q e : Nat) (who : Producer) : Option State :=
  let c := s.core n
  if poolTurn s n q who && poolRoom c q e then
    some (s.setCore n (poolTake { c with stalled := c.stalled.filter fun x => !(x.1 == q && sameProducer s x.2 who) } q e))
  else none

/-- A producer that finds no entries takes its place among those that stall (R238). -/
def poolWait (s : State) (n q : Nat) (who : Producer) : State :=
  let c := s.core n
  if c.stalled.any fun x => x.1 == q && sameProducer s x.2 who then s else s.setCore n { c with stalled := c.stalled ++ [(q, who)] }

/-- An item of a workgroup that was queued when it was pre-empted still waits for its entries of a queue (R361). -/
def owesItems (s : State) (g : Workgroup) (q : Nat) : Bool :=
  match q with
  | 0 => !g.saved.isEmpty || (s.colls.any fun x => !x.paid && x.issuer.inWg g.ctx g.wgl)
      || s.sends.any fun d => d.phase == .saved && (match d.sender with
        | .word a _ _ _ => a.inWg g.ctx g.wgl
        | .packet _ => false)
  | 1 => g.mq.any fun x => !x.paid
  | _ => false

/-- The issuing word asks for entries (R132, R238): it takes them, or joins those that stall. An item of its workgroup that is being
restored goes first (R361). -/
def poolAsk (s : State) (q e : Nat) : Option State :=
  if owesItems s s.wg q then none else poolEnter s s.th.ident.core q e (meProducer s)

/-- The issuing word stalls before acceptance and keeps its place (R132, R238). -/
def poolStall (s : State) (q : Nat) : State := poolWait s s.th.ident.core q (meProducer s)

/-- The producer is a word of a workgroup. -/
def Producer.inWg (c w : Nat) : Producer → Bool
  | .word a _ _ => a.inWg c w
  | .delivery _ => false

/-- `POOL_ENTRY_GRANT` (R238): entries have been released; a producer that has ended or moved on keeps no place, and the
first that waits takes its entries when its word issues or its delivery is looked at again. -/
def execPoolEntryGrant (core queue : Nat) (s : State) : Out :=
  let c := s.core core
  .next (s.setCore core { c with stalled := c.stalled.filter fun x => x.1 != queue || producerAlive s x.2 })

end Sys2Proof.Machine
end

