-- ==== Sys2Proof/Machine/Copy.lean ====
section
/-!
DEFINITION. Group 10: copy commands (R131-R145), their start, chunk arrivals and completion, landing tokens (R194) and the
context error queue (R216).
-/

namespace Sys2Proof.Machine

/-! ### Issue -/

/-- The valid count of the issuing agent (R137). -/
def issueCount (th : Thread) : Nat := th.vcnt.toNat

/-- Whose capability slots a descriptor names: the troupe's own, or troupe 0's for the copy sequencer (R140). -/
def slotThread (s : State) : Option Thread :=
  match s.th.agent with
  | .troupe _ _ _ => some s.th
  | .copy c w => s.thread (.troupe c w 0)
  | .matrix _ _ => none
  | .control _ => none
  | .firmware _ => none

/-- A capability slot of the issuing agent (R61, R140): inside the window of the word that writes it, a troupe reads its own slot as it
was. -/
def capSlot (s : State) (n : Nat) : BitVec 128 :=
  ((slotThread s).map fun t => if t.agent = s.th.agent then t.cap n else tget 0 t.caps n).getD 0

/-- The place of a command that is accepted in the order of acceptance (R354). -/
def handSeq (s : State) : Nat × State := (s.trans.handed, { s with trans := { s.trans with handed := s.trans.handed + 1 } })

/-- A copy command that has its entries takes its ticket and joins the copy queue (R131, R148). -/
def joinCopy (s : State) (tl : Nat) (mk : Nat → Nat → CopyCmd) : State :=
  let n := s.th.ident.core
  let c := s.core n
  let r := s.wg.ticket tl
  let h := handSeq { s with wg := r.2 }
  let s := h.2.setCore n { c with copyq := c.copyq ++ [{ mk c.nextCopy r.1 with seq := h.1 }], nextCopy := c.nextCopy + 1 }
  { s with inputs := s.inputs ++ [Instr.walkAheadTranslate n, Instr.copyStart n] }.setTh (advance s.th)

/-- Accept a copy command (R131, R132, R148, R237): it stalls while its counter has 64 tickets outstanding or the pool has no
room; else it takes its entries and its ticket and joins the copy queue. -/
def acceptCopy (s0 s : State) (tl entries : Nat) (mk : Nat → Nat → CopyCmd) : Out :=
  if (s.wg.tl tl).full then .next s0
  else
    match poolAsk s 0 entries with
    | none => .next (poolStall s0 0)
    | some s => .next (joinCopy s tl mk)

/-- A tile command with its descriptor and record as read at issue (R131, R140). -/
def tileCmd (s : State) (kind : CopyKind) (out : Bool) (tl entries : Nat) (h : BitVec 8) (desc : BitVec 128) (id ticket : Nat) :
    CopyCmd :=
  { id := id, issuer := s.th.agent, tl := tl, ticket := ticket, kind := kind, out := out, handle := s.cx.handle h.toNat,
    desc := desc, token := capSlot s (bitsN desc.toNat 59 56), vcount := issueCount s.th, entries := entries, phase := .queued,
    code := 0, sat := false, data := false, stale := false, byToken := false, chunks := [], notify := none, remote := [], reads := [], seq := 0 }

/-- The issue of a tile command (R131, R140, R141). -/
def issueTile (i : Instr) (hd : Hdr) (kind : CopyKind) (out : Bool) (tl : BitVec 3) (h : BitVec 8) (a : Operand) (s : State) : Out :=
  issue i i.uses [] hd s fun act s' =>
    if act = 0 then .next (s'.setTh (advance s'.th))
    else
      let s' := s'.setTh (if s'.th.marked (lowLane act) 4 a then s'.th.raiseErr 4 else s'.th)
      acceptCopy s s' tl.toNat 2 (tileCmd s' kind out tl.toNat 2 h (opnd128 s' (lowLane act) 4 a))

/-- `CPYT` (R141). -/
def execCpyt (x : Tile) (s : State) : Out := issueTile (.cpyt x) x.hd (.tile x.sfmt) x.dir x.tl x.h x.a s

/-- `CPYR` (R141). -/
def execCpyr (hd : Hdr) (tl : BitVec 3) (h : BitVec 8) (a : Operand) (dir : Bool) (op : BitVec 3) (s : State) : Out :=
  issueTile (.cpyr hd tl h a dir op) hd (.reduce op) dir tl h a s

/-- `CPYN` (R141). -/
def execCpyn (x : Tile) (s : State) : Out := issueTile (.cpyn x) x.hd (.notify x.sfmt) x.dir x.tl x.h x.a s

/-- `CPYG` (R141). -/
def execCpyg (x : Tile) (s : State) : Out := issueTile (.cpyg x) x.hd (.gather x.sfmt 0) x.dir x.tl x.h x.a s

/-- The bytes of a lane of `CPY` (R138). -/
def cpyBytes (width : BitVec 2) : Nat :=
  match width.toNat with
  | 0 => 4
  | 1 => 8
  | _ => 16

/-- The fault of an address of `CPY` at issue (R139): ALIGN, WINDOW, then STACK. -/
def cpyFault (s : State) (w : Nat) (base : Operand) (va : DWord) : Option Refused :=
  if va.toNat % w ≠ 0 then some (.align, 0)
  else
    let win := isWindow va.toNat && (match windowPlace s va.toNat w with
      | .ok p => p.isRegs
      | .error _ => true)
    if win then some (.window, 0)
    else if base == .k 126 && !(decide (s.th.stklo.toNat ≤ va.toNat) && decide (va.toNat + w ≤ s.th.stkhi.toNat)) then some (.stack, 0)
    else none

/-- The outcome of a lane's check as `worstOf` reads it. -/
def checked (x : LogLane) (va : DWord) (e : Option Refused) : LogLane × Except Refused Place × DWord :=
  (x, (match e with
    | some r => .error r
    | none => .ok (.window 0)), va)

/-- `CPY` (R139). -/
def execCpy (hd : Hdr) (tl : BitVec 3) (d a : Operand) (width : BitVec 2) (s : State) : Out :=
  issue (.cpy hd tl d a width) (Instr.cpy hd tl d a width).uses [] hd s fun act s' =>
    if !throttleAllows s then .next (throttleRefuse s)
    else if act = 0 then .next (s'.setTh (advance s'.th))
    else
      let w := cpyBytes width
      let ls := match s'.th.grp.replay with
        | some x => x.lanes
        | none => (lanesOf act).map fun l =>
          { lane := l, addr := opnd64 s' l d, a := opnd64 s' l a, b := 0, data := 0, addrMark := false,
            dataMark := s'.th.marked l 2 d || s'.th.marked l 2 a }
      let checks := ls.flatMap fun x => [checked x x.addr (cpyFault s' w d x.addr), checked x x.a (cpyFault s' w a x.a)]
      match worstOf checks with
      | some f => faultWord s s' .store f (logOf (.cpy hd tl d a width) hd s'.th act (faultedLanes checks) ls)
      | none =>
        let s' := s'.setTh (if ls.any fun x => x.dataMark then s'.th.raiseErr 4 else s'.th)
        let n := 1 + ceilDiv ls.length 4
        acceptCopy s s' tl.toNat n fun id ticket =>
          { tileCmd s' (.cpy w (ls.map fun x => (x.addr, x.a))) true tl.toNat n 0 0 id ticket with token := 0 }

/-! ### What a command covers -/

/-- The format of the scratchpad side (R138). -/
def sideFmt (x : CopyCmd) : Nat :=
  let f := recFmt x.handle
  match x.kind with
  | .cpy _ _ => f
  | .tile g => if g = 15 then f else g.toNat
  | .notify g => if g = 15 then f else g.toNat
  | .reduce _ => f
  | .gather g _ => if g = 15 then f else g.toNat

/-- Word j of the descriptor (R140). -/
def CopyCmd.word (x : CopyCmd) (j : Nat) : Nat := bitsN x.desc.toNat (32 * j + 31) (32 * j)

/-- The descriptor's side word selects a landing buffer (R140). -/
def CopyCmd.land (x : CopyCmd) : Bool := bitsN (x.word 1) 28 28 == 1

/-- The byte offset of the packed side (R140). -/
def CopyCmd.off (x : CopyCmd) : Nat := bitsN (x.word 1) 19 0

/-- The command is a `CPYN`. -/
def CopyCmd.isNotify (x : CopyCmd) : Bool :=
  match x.kind with
  | .notify _ => true
  | .cpy _ _ => false
  | .tile _ => false
  | .reduce _ => false
  | .gather _ _ => false

/-- The command is a `CPYG`. -/
def CopyCmd.isGather (x : CopyCmd) : Bool :=
  match x.kind with
  | .gather _ _ => true
  | .cpy _ _ => false
  | .tile _ => false
  | .notify _ => false
  | .reduce _ => false

/-- The operation of a `CPYR`. -/
def CopyCmd.op (x : CopyCmd) : Option Nat :=
  match x.kind with
  | .reduce op => some op.toNat
  | .cpy _ _ => none
  | .tile _ => none
  | .notify _ => none
  | .gather _ _ => none

/-- The command names a chunk map (R140). -/
def CopyCmd.mapped (x : CopyCmd) : Bool := !x.isNotify && x.word 2 != 2 ^ 32 - 1

/-- The rows that move: the valid count clipped at the tile's rows (R137). -/
def CopyCmd.rows (x : CopyCmd) : Nat := min x.vcount (recTile x.handle 1)

/-- The workgroup of the packed side when it is no landing buffer: the own one, or the cohort member of a stage (R140). -/
def CopyCmd.sideWgl (x : CopyCmd) (e : EngCtx) : Nat :=
  if bitsN (x.word 1) 23 23 = 1 then e.wg.cohort * e.cx.stages + bitsN (x.word 1) 22 20 else e.wg.wgl

/-- The record format that an operation of `CPYR` accepts (R141). -/
def reduceAccepts (op fmt : Nat) : Bool := if op < 3 then fmt == 1 || fmt == 2 || fmt == 3 else fmt == 6

/-- The FORMAT check (R133, R140, R141). -/
def copyFormatBad (x : CopyCmd) : Bool :=
  let f := recFmt x.handle
  bitsN (x.word 1) 31 29 != 0 || (!x.isNotify && x.word 3 != 0)
    || (isBx f && sideFmt x != f)
    || (match x.op with
      | some op => !reduceAccepts op f
      | none => false)
    || (x.isGather && recRank x.handle != 2)

/-- The BOUNDS check at the issuing core (R133, R140). -/
def copyBoundsBad (e : EngCtx) (x : CopyCmd) : Bool :=
  let size := e.wg.scratchSize
  (!x.isGather && decide (gridSize x.handle ≤ x.word 0))
    || (bitsN (x.word 1) 23 23 == 1 && !x.land && decide (e.cx.stages ≤ bitsN (x.word 1) 22 20))
    || (!x.land && decide (size < x.off + packedBytes x.handle (sideFmt x)))
    || (x.isGather && decide (size < x.word 0 + 4 * x.rows))
    || (x.isNotify && (!x.land || x.out) && decide (size < x.word 2 + 4))

/-- The ALIGN check (R133, R140). -/
def copyAlignBad (x : CopyCmd) : Bool :=
  let f := sideFmt x
  x.off % (if isBx f then 32 else max 1 (elemBits f / 8)) != 0 || (x.isGather && x.word 0 % 4 != 0)
    || (x.isNotify && x.word 2 % 4 != 0) || (x.mapped && x.word 2 % 64 != 0)

/-- The checks before any byte moves at the issuing core, in order (R133): the first code, or 0. -/
def copyBefore (e : EngCtx) (x : CopyCmd) : Nat :=
  match x.kind with
  | .cpy _ _ => 0
  | _ =>
    if !recValid x.handle then 1
    else if copyFormatBad x then 9
    else if copyBoundsBad e x then 2
    else if copyAlignBad x then 7
    else if x.mapped && x.out then 8
    else 0

/-! ### Landing tokens -/

/-- The MAC of a capability under its target context's key (R179). -/
def macOk (key : BitVec 256) (cap : BitVec 128) : Bool := Config.kmac256 key (cap.extractLsb' 0 100) == cap.extractLsb' 100 28

/-- The checks of R194 at the destination, in order: the context, workgroup, offset and size of the buffer, or a code. A workgroup that
has ended has no buffer left that is valid. -/
def landingCheck (s : State) (token : BitVec 128) (fromPkg : Nat) : Except Nat (Nat × Nat × Nat × Nat) :=
  let t := token.toNat
  let c := bitsN t 27 21
  let w := bitsN t 20 13
  match getCx s c with
  | none => .error 6
  | some x =>
    if token = 0 || !macOk x.key token then .error 6
    else if bitsN t 98 98 = 0 ∨ bitsN t 96 96 = 0 then .error 4
    else if bitsN t 97 97 = 0 ∧ fromPkg ≠ s.pkg then .error 4
    else
      match getWg s c w with
      | none => .error 6
      | some g =>
        let l := tget ⟨0, 0, 0, false⟩ g.lands (bitsN t 51 48)
        if g.ended || !l.valid || l.gen.toNat != bitsN t 95 80 then .error 6
        else .ok (c, w, 128 * l.off.toNat, 4096 * (l.size.toNat + 1))

/-- The slot of a workgroup that binds the map at an offset (R145). -/
def findMap (g : Workgroup) (m : Nat) : Option ChunkSlot :=
  ((List.range 16).map g.cm).find? fun c => c.expect != 0 && 64 * c.mapoff.toNat == m

/-- The chunks of a map that bytes cover, or none where they lie outside its tile (R145). -/
def mapChunks (g : Workgroup) (m off n : Nat) : Option (List Nat) :=
  match findMap g m with
  | none => none
  | some c =>
    let base := 512 * c.base.toNat
    let last := (off + n - 1 - base) / 512
    if n = 0 then some []
    else if off < base ∨ 511 < last then none
    else some ((List.range (last - (off - base) / 512 + 1)).map (· + (off - base) / 512))

/-- One arrival at a chunk of the map at an offset (R145). -/
def Workgroup.arriveChunk (g : Workgroup) (m i : Nat) : Workgroup :=
  match (List.range 16).find? fun n => (g.cm n).expect != 0 && 64 * (g.cm n).mapoff.toNat == m with
  | .none => g
  | .some n =>
    let c := g.cm n
    let byte := tget 0 g.scratch (m + i / 8) ||| BitVec.ofNat 8 (2 ^ (i % 8))
    let g := { g with scratch := tset 0 g.scratch (m + i / 8) byte }
    if c.arrived + 1 = c.expect then
      let g := { g with scratch := putRaw g.scratch m (List.replicate 64 0) }
      { g with cms := tset ChunkSlot.unbound g.cms n { c with arrived := 0, phase := !c.phase } }
    else { g with cms := tset ChunkSlot.unbound g.cms n { c with arrived := c.arrived + 1 } }

/-! ### Moving bytes -/

/-- One element of a reduction, the old destination value on the left (R141): the new pattern and whether it saturated. -/
def reduceElem (op fmt : Nat) (old new : Nat) : Nat × Bool :=
  let f := (fpFormat fmt).getD fp32
  let sg (x : Nat) : Int := (BitVec.ofNat 32 x).toInt
  match op with
  | 0 => ((addVal f 0 false true (unpack f true old) (unpack f true new)).bits, false)
  | 1 => ((minMax f true true old new).bits, false)
  | 2 => ((minMax f true false old new).bits, false)
  | 3 => ((old + new) % 2 ^ 32, false)
  | 4 =>
    let v := sg old + sg new
    if v < -2147483648 then (2 ^ 31, true)
    else if 2147483647 < v then (2 ^ 31 - 1, true)
    else ((BitVec.ofInt 32 v).toNat, false)
  | 5 => (if sg old ≤ sg new then new else old, false)
  | 6 => (if sg old ≤ sg new then old else new, false)
  | _ => (new, false)

/-- Convert one unit from a format to another; equal formats keep their bits (R38, R141). -/
def convertUnit (dst src : Nat) (b : List Byte) : List Byte :=
  if dst = src then b
  else
    let n := elemBits dst / 8
    toBytes n ((convert dst src 0 false true (ofBytes b)).bits % 256 ^ n)

/-- A transfer: what an engine writes where, after it has read it. -/
structure Move where
  place : Place
  bytes : List Byte
  mark : Bool
  deriving DecidableEq, Repr

/-- What a command will touch: the ranges of tensor bytes of its units, as read and written (R141, R354). -/
def cmdUnits (s : State) (x : CopyCmd) (e : EngCtx) : List TileUnit :=
  let r := x.handle
  let all : List TileUnit :=
    match x.kind with
    | .gather _ _ =>
      let idx (i : Nat) : Option Nat :=
        let v := (BitVec.ofNat 32 (ofBytes (e.wg.bytes (x.word 0 + 4 * i) 4))).toInt
        if v < 0 ∨ (recDim r 1 : Int) ≤ v then none else some v.toNat
      (List.range (tileBelow r 5 / unitElems (recFmt r))).map fun j =>
        tileUnit r (sideFmt x) (fun d c => if d = 1 then (if c < x.rows then idx c else none) else if d = 0 then some c else some 0)
          (j * unitElems (recFmt r))
    | _ => tileUnits r (sideFmt x) (x.word 0)
  let _ := s
  all.filter fun u => decide (u.row < x.rows)

/-- A row index of a `CPYG` lies outside dimension 1 (R141). -/
def gatherOut (x : CopyCmd) (e : EngCtx) : Bool :=
  x.isGather && (List.range x.rows).any fun i =>
    let v := (BitVec.ofNat 32 (ofBytes (e.wg.bytes (x.word 0 + 4 * i) 4))).toInt
    decide (v < 0) || decide ((recDim x.handle 1 : Int) ≤ v)

/-- The bytes of memory that a command touches, with the access that it makes (R139, R354). -/
def cmdTouches (s : State) (x : CopyCmd) (e : EngCtx) : List (Access × Nat × Nat) :=
  match x.kind with
  | .cpy w ls => ls.flatMap fun l => [(.copyRead, l.2.toNat, w), (.copyWrite, l.1.toNat, w)]
  | _ =>
    ((cmdUnits s x e).filter fun u => u.inside).flatMap fun u =>
      u.mem.flatMap fun m => (linePieces m.1 m.2).flatMap fun p =>
        if x.out then (if x.op.isSome then [(.copyRead, p.1, p.2), (.copyWrite, p.1, p.2)] else [(.copyWrite, p.1, p.2)])
        else [(.copyRead, p.1, p.2)]

/-- The KEY that a command's record names; `CPY` names none (R346). -/
def cmdKey (x : CopyCmd) : Option Nat :=
  match x.kind with
  | .cpy _ _ => none
  | _ => some (recKey x.handle)

/-- Translate everything that a command touches (R354): the first refusal, with its address. -/
def walkTouches (e : EngCtx) (key : Option Nat) : List (Access × Nat × Nat) → State → Option (Nat × Refused) × State
  | [], s => (none, s)
  | (k, va, n) :: r, s =>
    match engPlace s e va n k key with
    | (.error x, s) => (some (va, x), s)
    | (.ok _, s) => walkTouches e key r s

/-- Change a command of a core. -/
def putCmd (s : State) (core : Nat) (x : CopyCmd) : State :=
  let c := s.core core
  s.setCore core { c with copyq := c.copyq.map fun y => if y.id == x.id then x else y }

/-- A PAGE fault of a command writes its record and holds the command and every later one of its issuer (R354, R355). -/
def holdCmd (s : State) (core : Nat) (x : CopyCmd) (e : EngCtx) (va : Nat) (r : Refused) : State :=
  match writeFault s va e.cx.asid r 2 e.wg.ctx e.wg.wgl core .copyRead with
  | none => s
  | some (id, s) => if r.1 = .page then putCmd s core { x with phase := .page id } else s

/-- A record for a PROT fault of a command (R355). -/
def noteProt (s : State) (core : Nat) (e : EngCtx) (va : Nat) (r : Refused) : State :=
  match writeFault s va e.cx.asid r 2 e.wg.ctx e.wg.wgl core .copyRead with
  | none => s
  | some (_, s) => s

/-- The code with which a refused access ends a command (R133). -/
def refusedCode (r : Refused) : Nat :=
  match r.1 with
  | .window => 2
  | .page => 3
  | _ => 4

/-- Resolve the bytes of a unit in the tensor. The walk has found them translated. -/
def unitPlaces (s : State) (e : EngCtx) (x : CopyCmd) (kind : Access) (ms : List (Nat × Nat)) : List (Place × Nat) :=
  match engPlaces e kind (cmdKey x) (ms.flatMap fun m => linePieces m.1 m.2) s with
  | (.ok ps, _) => ps
  | (.error _, _) => []

/-- The packed bytes of a unit at an offset of a scratchpad. -/
def packRead (g : Workgroup) (base : Nat) (u : TileUnit) : List Byte × Bool :=
  (u.pack.flatMap fun p => g.bytes (base + p.1) p.2, u.pack.any fun p => anyMark g.scratchMark (base + p.1) p.2)

/-- The packed bytes of a unit as runs of a scratchpad. -/
def packRuns (c w base : Nat) (u : TileUnit) (b : List Byte) (mark : Bool) : List Run :=
  cutRuns (u.pack.map fun p => (.scratch c w (base + p.1), p.2)) b (b.map fun _ => mark)

/-- Put runs into the scratchpads of this package. -/
def putRuns (l : List Run) (s : State) : State :=
  (mergeRuns l).foldl (fun s r => match r.1 with
    | .scratch c w off => match getWg s c w with
      | none => s
      | some g => putWg s (g.put off r.2.1 r.2.2)
    | .window _ => s
    | .mem _ _ => s) s

/-- The source of every unit of an inward command, converted (R137, R141); none while lines of other packages are missing. -/
def readUnits (core : Nat) (e : EngCtx) (x : CopyCmd) : List TileUnit → State →
    Option (List (TileUnit × List Byte × Bool)) × State
  | [], s => (some [], s)
  | u :: r, s =>
    let zeros := List.replicate (u.mem.map fun m => m.2).sum (0 : Byte)
    let got := if u.inside then engReads core (unitPlaces s e x .copyRead u.mem) s else (some (zeros, false), s)
    match readUnits core e x r got.2, got.1 with
    | (some l, s), some (b, m) => (some ((u, convertUnit (sideFmt x) (recFmt x.handle) b, m) :: l), s)
    | (_, s), _ => (none, s)

/-- A copy command of a workgroup writes bytes at a place (R140, R270): over the Carousel, to a cohort member's scratchpad. -/
def copyWrite (s : State) (core : Nat) (g : Workgroup) (op : Nat) (p : Place) (b : List Byte) (mark : Bool) : Option Nat × State :=
  let here := engWrite s core op p b mark
  match p with
  | .scratch c w off => if isAway g c w then (let r := cohortAsk s core c w off (.write b mark); (some r.1, r.2)) else here
  | .window _ => here
  | .mem _ _ => here

/-- Write runs; the tags of what goes to other packages or to a cohort member. -/
def writeRuns (core : Nat) (g : Workgroup) (l : List Run) (s : State) : List Nat × State :=
  (mergeRuns l).foldl (fun a r =>
    let w := copyWrite a.2 core g 0 r.1 r.2.1 r.2.2
    (a.1 ++ w.1.toList, w.2)) ([], s)

/-- What the moves of a command have done: tags of remote writes, SAT and DATA. -/
structure Moved where
  s : State
  tags : List Nat
  sat : Bool
  data : Bool
  deriving DecidableEq, Repr

/-- A combine of `CPYR` at a place of record or a bank of this package (R141); another package combines at its home, and its answer
tells SAT and DATA (R150). -/
def combineAt (core op fmt : Nat) (p : Place) (new : List Byte) (mark : Bool) (a : Moved) : Moved :=
  let here (old : List Byte × Bool) (s : State) : Moved :=
    let r := reduceElem op fmt (ofBytes old.1) (ofBytes new)
    let w := engWrite s core 0 p (toBytes new.length r.1) (mark || old.2)
    { a with s := w.2, tags := a.tags ++ w.1.toList, sat := a.sat || r.2, data := a.data || mark || old.2 }
  let s := a.s
  match p with
  | .scratch c g off => match getWg s c g with
    | none => a
    | some h => here (h.bytes off new.length, anyMark h.scratchMark off new.length) s
  | .window _ => a
  | .mem pa key =>
    if homedHere s pa || isHost pa then
      let s := drainDie s (coreDie core)
      let r := recordRead (noteAsker s pa core) pa key new.length s.pkg (coreDie core)
      here r.1 r.2
    else
      let w := engWrite s core (1 + op + 8 * fmt) p new mark
      { a with s := w.2, tags := a.tags ++ w.1.toList, data := a.data || mark }

/-- An inward combine of `CPYR` writes its units one after another (R141). -/
def combineIn (fmt op : Nat) (c w base : Nat) (a : Moved) (u : TileUnit × List Byte × Bool) : Moved :=
  match getWg a.s c w with
  | none => a
  | some g =>
    let old := packRead g base u.1
    let r := reduceElem op fmt (ofBytes old.1) (ofBytes u.2.1)
    { a with s := putRuns (packRuns c w base u.1 (toBytes u.2.1.length r.1) (u.2.2 || old.2)) a.s
             sat := a.sat || r.2, data := a.data || u.2.2 || old.2 }

/-- An inward command writes its units to a scratchpad of this package (R141). -/
def moveIn (x : CopyCmd) (c w base : Nat) (us : List (TileUnit × List Byte × Bool)) (a : Moved) : Moved :=
  match x.op with
  | none => { a with s := putRuns (us.flatMap fun u => packRuns c w base u.1 u.2.1 u.2.2) a.s, data := a.data || us.any fun u => u.2.2 }
  | some op => us.foldl (combineIn (recFmt x.handle) op c w base) a

/-- An outward command writes its units to the tensor (R141). -/
def moveOut (core : Nat) (e : EngCtx) (x : CopyCmd) (g : Workgroup) (base : Nat) (us : List TileUnit) (a : Moved) : Moved :=
  let src := (us.filter fun u => u.inside).map fun u =>
    let v := packRead g base u
    (unitPlaces a.s e x .copyWrite u.mem, convertUnit (recFmt x.handle) (sideFmt x) v.1, v.2)
  match x.op with
  | none =>
    let r := writeRuns core e.wg (src.flatMap fun u => cutRuns u.1 u.2.1 (u.2.1.map fun _ => u.2.2)) a.s
    { a with s := r.2, tags := a.tags ++ r.1, data := a.data || src.any fun u => u.2.2 }
  | some op => src.foldl (fun a u => match u.1 with
      | [] => a
      | p :: _ => combineAt core op (recFmt x.handle) p.1 u.2.1 u.2.2 a) a

/-- The scratchpads of cohort members as a command has read them (R140, R270). -/
def withReads (s : State) (x : CopyCmd) : State :=
  x.reads.foldl (fun s r => match r.1, r.2.2.got with
    | .scratch c w off, some b =>
      match getWg s c w with
      | none => s
      | some g => putWg s ((unitsOf off r.2.1).foldl (fun (g : Workgroup) u =>
          { g with scratchMark := tset false g.scratchMark u (b.2.testBit (u - off / 16)) }) { g with scratch := putRaw g.scratch off b.1 })
    | _, _ => s) s

/-- A per-lane `CPY` in increasing lane order, every source read before it is written (R139). -/
def moveLanes (core : Nat) (e : EngCtx) (x : CopyCmd) (w : Nat) (ls : List (DWord × DWord)) (s : State) : Option Moved × State :=
  let srcs := ls.map fun l => (unitPlaces s e x .copyRead [(l.2.toNat, w)])
  match engReads core srcs.flatten s with
  | (none, s) => (none, s)
  | (some _, s) =>
    let vals := srcs.map fun ps => ((engReads core ps (withReads s x)).1).getD ([], false)
    let runs := (ls.zip vals).flatMap fun l =>
      cutRuns (unitPlaces s e x .copyWrite [(l.1.1.toNat, w)]) l.2.1 (l.2.1.map fun _ => l.2.2)
    let r := writeRuns core e.wg runs s
    (some { s := r.2, tags := r.1, sat := false, data := vals.any fun v => v.2 }, r.2)

/-- Consecutive packed bytes as payloads of up to 512 bytes (R277). -/
def payloads : List (Nat × List Byte × Bool) → List (Nat × List Byte × Bool)
  | [] => []
  | (o, b, m) :: r =>
    match payloads r with
    | (o', b', m') :: r' =>
      if o + b.length = o' ∧ b.length + b'.length ≤ 512 ∧ m = m' then (o, b ++ b', m) :: r' else (o, b, m) :: (o', b', m') :: r'
    | [] => [(o, b, m)]

/-- The packed ranges of units with their bytes. -/
def packRanges (us : List (TileUnit × List Byte × Bool)) : List (Nat × List Byte × Bool) :=
  us.flatMap fun u => (u.1.pack.foldl (fun (a : List (Nat × List Byte × Bool) × List Byte) p =>
    (a.1 ++ [(p.1, a.2.take p.2, u.2.2)], a.2.drop p.2)) ([], u.2.1)).1

/-- A COPY packet toward a landing buffer of another package (R142, R194): it carries the token, the packed size, and the chunk map (1)
or the notify word (2) of the command, so that the destination makes every check before it writes a byte (R133). `last` closes the
command (log entry 12). -/
def landingPacket (x : CopyCmd) (o : Nat) (b : List Byte) (mark last : Bool) (s : State) : Nat × State :=
  let extra : Nat × Nat := if x.isNotify then (2, x.word 2) else if x.mapped then (1, x.word 2) else (0, 0)
  let (t, s) := newTag s
  (t, sendPacket s { packetBlank with
    typ := 7, tc := 2, dst := bitsN x.token.toNat 39 28, addr := BitVec.ofNat 64 (x.off + o), cap := x.token,
    width := packedBytes x.handle (sideFmt x), regOff := x.off,
    op := (match x.op with
      | some op => 1 + op + 8 * recFmt x.handle
      | none => 0),
    code := extra.1, group := extra.2, rel := last, lanes := BitVec.ofNat 32 (x.word 3), severity := if mark then 1 else 0, tag := t,
    data := b })

/-- An inward command toward a landing buffer of another package (R142, R194): its packets, each of which is answered with a code. -/
def sendLanding (x : CopyCmd) (us : List (TileUnit × List Byte × Bool)) (s : State) : List Nat × State :=
  let body := (payloads (packRanges us)).foldl (fun (a : List Nat × State) p =>
    let r := landingPacket x p.1 p.2.1 p.2.2 false a.2
    (a.1 ++ [r.1], r.2)) ([], s)
  let last := landingPacket x 0 [] false true body.2
  (body.1 ++ [last.1], last.2)

/-- Consecutive bytes as ranges of up to 512 bytes. -/
def mergeRanges : List (Nat × Nat) → List (Nat × Nat)
  | [] => []
  | (o, n) :: r =>
    match mergeRanges r with
    | (o', n') :: r' => if o + n = o' ∧ n + n' ≤ 512 then (o, n + n') :: r' else (o, n) :: (o', n') :: r'
    | [] => [(o, n)]

/-- An inward command toward a cohort member's scratchpad (R140, R270): its writes, or the combines of `CPYR`, each of which is replied. -/
def sendCohort (core : Nat) (x : CopyCmd) (c w base : Nat) (us : List (TileUnit × List Byte × Bool)) (s : State) : List Nat × State :=
  (payloads (packRanges us)).foldl (fun (a : List Nat × State) p =>
    let op : CohortOp := match x.op with
      | none => .write p.2.1 p.2.2
      | some op => .combine op (recFmt x.handle) p.2.1 p.2.2
    let r := cohortAsk a.2 core c w (base + p.1) op
    (a.1 ++ [r.1], r.2)) ([], s)

/-- What a command reads of cohort members' scratchpads (R139, R140). -/
def cohortReads (s : State) (e : EngCtx) (x : CopyCmd) (c w base : Nat) : List (Place × Nat) :=
  match x.kind with
  | .cpy n ls => (ls.flatMap fun l => unitPlaces s e x .copyRead [(l.2.toNat, n)]).filter fun p => match p.1 with
    | .scratch c w _ => isAway e.wg c w
    | .window _ => false
    | .mem _ _ => false
  | _ =>
    if x.out && !x.land && isAway e.wg c w then
      (mergeRanges (((cmdUnits s x e).filter fun u => u.inside).flatMap fun u => u.pack)).map fun p => (.scratch c w (base + p.1), p.2)
    else []

/-- A command asks for what it has not asked for yet of cohort members' scratchpads. -/
def askReads (core : Nat) (x : CopyCmd) (need : List (Place × Nat)) (s : State) : CopyCmd × State :=
  need.foldl (fun (a : CopyCmd × State) p =>
    match p.1 with
    | .scratch c w off =>
      if a.1.reads.any fun r => r.1 == p.1 && r.2.1 == p.2 then a
      else
        let r := cohortAsk a.2 core c w off (.read p.2)
        ({ a.1 with reads := a.1.reads ++ [(p.1, p.2, ⟨r.1, none⟩)] }, r.2)
    | .window _ => a
    | .mem _ _ => a) (x, s)

/-! ### Completion -/

/-- Add an entry to a context's error queue, which lies in its save area (R216, R358): a full queue drops it and marks the next. -/
def pushError (s : State) (x : Context) (code kind tl troupe wgl ticket : Nat) : State :=
  if 256 ≤ x.errq.length then putCx s { x with errOvf := true }
  else
    let e := BitVec.ofNat 64
      (code + kind * 16 + tl * 128 + troupe * 1024 + wgl * 2 ^ 15 + (if x.errOvf then 2 ^ 31 else 0) + ticket % 2 ^ 32 * 2 ^ 32)
    saveError (putCx s { x with errq := x.errq ++ [e], errCount := x.errCount + 1, errOvf := false }) x.ctx x.errCount e

/-- Who reports for an issuer: troupe 0 stands for the copy sequencer (R143). -/
def reporter : Agent → Agent
  | .troupe c w t => .troupe c w t
  | .copy c w => .troupe c w 0
  | .matrix c w => .matrix c w
  | .control n => .control n
  | .firmware n => .firmware n

/-- A ticket completes with a code (R133, R143, R148, R150, R188): the counter's status and VALUE, the bits of `s_err` and the
error queue. `err` is the bit of `s_err` for a failure. -/
def finishTicket (s : State) (a : Agent) (tl ticket code kind : Nat) (err : Word) (sat data stale : Bool) : State :=
  match a.place with
  | none => s
  | some (c, w) =>
    let s := match getWg s c w with
      | none => s
      | some g => putWg s (g.setTl tl (((g.tl tl).record ticket code sat data stale).complete ticket))
    let s := if code = 0 then s else s.setThread (reporter a) fun t => t.raiseErr (err ||| (if stale then 8 else 0))
    if code = 0 then s
    else
      match getCx s c with
      | none => s
      | some x => pushError s x code kind tl a.troupeNo w ticket

/-- Start done: the command keeps its code and what is still to come, and its queue entries are free (R132, R237). -/
def startedCmd (s : State) (core : Nat) (x : CopyCmd) : State :=
  let s := putCmd (s.setCore core (poolFree (s.core core) 0 x.entries)) core { x with phase := .started, reads := [] }
  let s := s.setCore core { s.core core with lastIssuer := some x.issuer }
  let more : List Instr := if x.remote.isEmpty then (x.chunks.map fun _ => .chunkArrival core x.id) ++ [.copyComplete core x.id] else []
  { s with inputs := s.inputs ++ more ++ [.poolEntryGrant core 0, .walkAheadTranslate core, .copyStart core] }

/-- The side that the command writes when it lies in a scratchpad of this package: context, workgroup and offset, or a code
(R140, R194). DEDUCED (log entry 48): with LAND and COH both set, the landing token names the side and the stage is not checked. -/
def packedTarget (s : State) (e : EngCtx) (x : CopyCmd) : Except Nat (Nat × Nat × Nat) :=
  if x.land then
    match landingCheck s x.token s.pkg with
    | .error c => .error c
    | .ok (c, w, base, size) =>
      if size < x.off + packedBytes x.handle (sideFmt x) then .error 2
      else if x.isNotify && !x.out && (getWg s c w).any (fun g => decide (g.scratchSize < x.word 2 + 4)) then .error 2
      else .ok (c, w, base + x.off)
  else .ok (e.wg.ctx, x.sideWgl e, x.off)

/-- The landing buffer of a command lies in another package. -/
def CopyCmd.away (x : CopyCmd) (s : State) : Bool := x.land && bitsN x.token.toNat 39 28 != s.pkg && x.token != 0

/-- The checks that a command passes before any byte moves, short of those that another package makes, in the order of R133: the
workgroup and the place of its packed side with the chunks that it covers, or the code of the first that fails. -/
def cmdTarget (s : State) (e : EngCtx) (x : CopyCmd) : Except Nat (Nat × Nat × Nat × List Nat) :=
  match x.kind with
  | .cpy _ _ => .ok (0, 0, 0, [])
  | _ =>
    let code := copyBefore e x
    if code ≠ 0 then .error code
    else if x.away s then (if x.out then .error 4 else .ok (0, 0, 0, []))
    else
      match packedTarget s e x with
      | .error c => .error c
      | .ok (c, w, base) =>
        let g := (getWg s c w).getD Workgroup.none
        match if x.mapped then mapChunks g (x.word 2) base (packedBytes x.handle (sideFmt x)) else some [] with
        | none => .error 8
        | some l => .ok (c, w, base, l)

/-- A command fails a check before any byte moves (R133, R194). -/
def failCmd (s : State) (core : Nat) (x : CopyCmd) (code : Nat) : State :=
  startedCmd s core { x with code := code, stale := code == 6, byToken := code == 6 || (code == 4 && x.land) }

/-- The landing buffer of a command lies in a package outside the pod trust table: it completes with PROT (R414). -/
def CopyCmd.untrusted (x : CopyCmd) (s : State) : Bool := x.away s && !trusted s (bitsN x.token.toNat 39 28)

/-- A command ends with a code that arises during its work (R133): the checks of a landing buffer in another package come first, and
a packet without bytes asks for them. -/
def refuseCmdWith (s : State) (core : Nat) (x : CopyCmd) (code : Nat) : State :=
  if x.untrusted s then startedCmd s core { x with code := 4 }
  else if x.away s then
    let r := landingPacket x 0 [] false false s
    startedCmd r.2 core { x with code := code, remote := [r.1] }
  else startedCmd s core { x with code := code }

/-- Start a tile command whose packed side lies in this package, its checks passed and its tensor translated (R141, R142, R145). -/
def startTile (core : Nat) (e : EngCtx) (x : CopyCmd) (c w base : Nat) (ch : List Nat) (s : State) : Option State × State :=
  let s := touchScratch s c w base (packedBytes x.handle (sideFmt x))
  let g := (getWg (withReads s x) c w).getD Workgroup.none
  let gout := if gatherOut x e then 2 else 0
  let us := cmdUnits s x e
  if x.out then
    let a := moveOut core e x g base us ⟨s, [], false, false⟩
    (some (startedCmd a.s core { x with
      code := if a.data then 5 else gout, sat := a.sat, data := a.data, remote := a.tags,
      notify := if x.isNotify then some (e.wg.ctx, e.wg.wgl, x.word 2, BitVec.ofNat 32 (x.word 3)) else none }), a.s)
  else
    match readUnits core e x us s with
    | (none, s) => (none, s)
    | (some l, s) =>
      let away := !x.land && isAway e.wg c w
      let a := if away then
          (let r := sendCohort core x c w base l s; { s := r.2, tags := r.1, sat := false, data := l.any fun u => u.2.2 : Moved })
        else moveIn x c w base l ⟨s, [], false, false⟩
      (some (startedCmd a.s core { x with
        code := if a.data then 5 else gout, sat := a.sat, data := a.data, chunks := ch.map fun i => (c, w, x.word 2, i), remote := a.tags,
        notify := if x.isNotify then some (c, w, x.word 2, BitVec.ofNat 32 (x.word 3)) else none }), a.s)

/-- Start a command whose landing buffer lies in another package (R194). -/
def startAway (core : Nat) (e : EngCtx) (x : CopyCmd) (s : State) : Option State × State :=
  match readUnits core e x (cmdUnits s x e) s with
  | (none, s) => (none, s)
  | (some l, s) =>
    let r := sendLanding x l s
    let mark := l.any fun u => u.2.2
    (some (startedCmd r.2 core { x with
      code := if mark then 5 else if gatherOut x e then 2 else 0, data := mark, remote := r.1 }), s)

/-- A collective of the same issuer that was accepted earlier waits for a page before its start (R354). -/
def heldByColl (s : State) (a : Agent) (n : Nat) : Bool :=
  s.colls.any fun y => y.issuer == a && decide (y.seq < n) && y.group.isEmpty && (match y.phase with
    | .page _ => true
    | _ => false)

/-- Start a command (R133, R141, R194, R354): a state with it started, or none while it waits for a page or for lines of
other packages. -/
def startCmd (core : Nat) (x : CopyCmd) (s : State) : Option State × State :=
  match engCtx s core x.issuer with
  | none => (some (startedCmd s core { x with code := 1 }), s)
  | some e =>
    if heldByColl s x.issuer x.seq then (none, s) else
    match cmdTarget s e x with
    | .error code => (some (failCmd s core x code), s)
    | .ok (c, w, base, ch) =>
      if x.untrusted s then (some (startedCmd s core { x with code := 4 }), s) else
      match walkTouches e (cmdKey x) (cmdTouches s x e) s with
      | (some (va, r), s) =>
        if r.1 = .page then (none, holdCmd s core x e va r)
        else
          let s := if r.1 = .prot then noteProt s core e va r else s
          (some (refuseCmdWith s core x (refusedCode r)), s)
      | (none, s) =>
        let r := askReads core x (cohortReads s e x c w base) s
        let x := r.1
        let s := putCmd r.2 core x
        if x.reads.any fun r => r.2.2.got.isNone then (none, s) else
        match x.kind with
        | .cpy w ls =>
          match moveLanes core e x w ls s with
          | (none, s) => (none, s)
          | (some a, _) =>
            (some (startedCmd a.s core { x with code := if a.data then 5 else 0, data := a.data, remote := a.tags }), s)
        | _ => if x.away s then startAway core e x s else startTile core e x c w base ch s

/-- System software has declined a page of a command (R133, R354): the checks before any byte moves come first. -/
def declineCmd (s : State) (core : Nat) (x : CopyCmd) : State :=
  match engCtx s core x.issuer with
  | none => startedCmd s core { x with code := 3 }
  | some e =>
    match cmdTarget s e x with
    | .error code => failCmd s core x code
    | .ok _ => refuseCmdWith s core x 3

/-- The place of an issuer in the rotating order of R235. DESIGN CHOICE (log entry 51): by context, workgroup and troupe, the copy sequencer
after the troupes of its workgroup. -/
def issuerKey : Agent → Nat
  | .troupe c w t => (c * 256 + w) * 64 + t
  | .copy c w => (c * 256 + w) * 64 + 32
  | .matrix c w => (c * 256 + w) * 64 + 33
  | .control n => 2 ^ 30 + n
  | .firmware n => 2 ^ 31 + n

/-- The first waiting command of every issuer (R142): none of an issuer whose first command is held. -/
def firstCmds (q : List CopyCmd) : List CopyCmd :=
  let w := q.filter fun x => x.phase != .started
  w.filter fun x => x.phase == .queued && (w.find? fun y => y.issuer == x.issuer).map (fun y => y.id) == some x.id

/-- Insert a command by its issuer's place. -/
def insertCmd (x : CopyCmd) : List CopyCmd → List CopyCmd
  | [] => [x]
  | y :: r => if issuerKey x.issuer ≤ issuerKey y.issuer then x :: y :: r else y :: insertCmd x r

/-- The commands that may start, in rotating issuer order after the last (R235). -/
def rotateCmds (last : Option Agent) (q : List CopyCmd) : List CopyCmd :=
  let l := (firstCmds q).foldr insertCmd []
  match last with
  | none => l
  | some a => (l.filter fun x => decide (issuerKey a < issuerKey x.issuer)) ++ l.filter fun x => decide (issuerKey x.issuer ≤ issuerKey a)

/-- Start the first command of a list that can start. -/
def startFirst (core : Nat) : List CopyCmd → State → State
  | [], s => s
  | x :: r, s =>
    match startCmd core x s with
    | (some t, _) => t
    | (none, s) => startFirst core r s

/-- `COPY_START` (R235). -/
def execCopyStart (core : Nat) (s : State) : Out :=
  let c := s.core core
  .next (rebackAll (startFirst core (rotateCmds c.lastIssuer c.copyq) s))

/-- The map of a delivery in flight is bound no more: the command completes with CMAP (R146). -/
def CopyCmd.lostMap (x : CopyCmd) : CopyCmd :=
  { x with chunks := [], code := if x.code = 0 ∨ x.code = 5 ∨ (x.code = 2 ∧ x.isGather) then 8 else x.code }

/-- `CHUNK_ARRIVAL` (R145, R146): the next chunk of a started command whose bytes have been written. -/
def execChunkArrival (core : Nat) (i : Nat) (s : State) : Out :=
  match (s.core core).copyq.find? fun x => x.id == i && x.phase == .started && x.remote.isEmpty with
  | none => .next s
  | some x =>
    match x.chunks with
    | [] => .next s
    | (c, w, m, n) :: r =>
      let s := putCmd s core { x with chunks := r }
      match getWg s c w with
      | none => .next s
      | some g =>
        if (findMap g m).isNone then .next (putCmd s core x.lostMap) else .next (putWg s (g.arriveChunk m n))

/-- The notify word of a command lies in a cohort member's scratchpad (R140). -/
def CopyCmd.notifyAway (x : CopyCmd) (s : State) : Option (Nat × Nat × Nat × Word) :=
  match x.notify, x.issuer.place with
  | some (c, w, off, v), some (c', w') =>
    if x.land || ((getWg s c' w').any fun g => !isAway g c w) then none else some (c, w, off, v)
  | _, _ => none

/-- The notify word is written (R142). -/
def writeNotify (s : State) : Option (Nat × Nat × Nat × Word) → State
  | none => s
  | some (c, w, off, v) => match getWg s c w with
    | none => s
    | some g => putWg s (g.put off (toBytes 4 v.toNat) false)

/-- `COPY_COMPLETE` (R142, R143): once its chunks have arrived and its remote writes are acknowledged. -/
def execCopyComplete (core : Nat) (i : Nat) (s : State) : Out :=
  match (s.core core).copyq.find? fun x => x.id == i && x.phase == .started with
  | none => .next s
  | some x =>
    if !x.chunks.isEmpty || !x.remote.isEmpty then .next s
    else
      let good := x.code = 0 || x.code = 5 || x.code = 2 && x.isGather
      match if good then x.notifyAway s else none with
      | some (c, w, off, v) =>
        let r := cohortAsk s core c w off (.write (toBytes 4 v.toNat) false)
        .next (putCmd r.2 core { x with notify := none, remote := [r.1] })
      | none =>
      let s := if good then writeNotify s x.notify else s
      let s := finishTicket s x.issuer x.tl x.ticket x.code (if x.byToken then 3 else 0) 2 x.sat x.data x.stale
      let c := s.core core
      .next (s.setCore core { c with copyq := c.copyq.filter fun y => y.id != i })

end Sys2Proof.Machine
end

