-- ==== Sys2Proof/Machine/Matrix.lean ====
section
/-!
DEFINITION. Group 11: the matrix sequencer and the array (R39-R41, R152-R162), ownership of the array (R234), and the assist
for subnormal tile stores (R44-R46, R218).
-/

namespace Sys2Proof.Machine

/-! ### Issue -/

/-- A matrix operation that has its entries joins the queue of the array (R131, R155), and the walk-ahead engine is handed it (R354). -/
def joinMat (t : State) (op : MatOp) : State :=
  let n := t.th.ident.core
  let due : List Instr := [.walkAheadTranslate n, .arrayOwnershipChange n, .arrayOpStart n]
  let r := handSeq t
  { r.2 with wg := { t.wg with mq := t.wg.mq ++ [{ op with seq := r.1 }] }, th := advance t.th, inputs := t.inputs ++ due }

/-- Accept a matrix operation (R131, R132, R237): it stalls while the pool has no room. -/
def issueMat (i : Instr) (hd : Hdr) (entries : Nat) (mk : State → LaneMask → MatOp) (s : State) : Out :=
  issue i i.uses [] hd s fun act s' =>
    if act = 0 then .next (s'.setTh (advance s'.th))
    else
      match poolAsk s' 1 entries with
      | none => .next (poolStall s 1)
      | some t => .next (joinMat t (mk s' act))

/-- An operation that names a handle (R131, R153). -/
def matOp (kind : MatKind) (x : MOp) (s : State) (act : LaneMask) : MatOp :=
  { kind := kind, handle := s.cx.handle x.h.toNat, index := opnd32 s (lowLane act) x.a, bar := if x.arr then some x.bar else none,
    phase := .queued, pc := s.th.grp.pc, remote := [], left := [], seq := 0, paid := true }

/-- An operation without a handle (R153). -/
def plainOp (kind : MatKind) (bar : BitVec 4) (arr : Bool) (s : State) : MatOp :=
  { kind := kind, handle := 0, index := 0, bar := if arr then some bar else none, phase := .queued, pc := s.th.grp.pc,
    remote := [], left := [], seq := 0, paid := true }

/-- `MLDW` (R156). -/
def execMldw (x : MOp) (s : State) : Out := issueMat (.mldw x) x.hd 2 (matOp (.ldw false) x) s

/-- `MLDT` (R156). -/
def execMldt (x : MOp) (s : State) : Out := issueMat (.mldt x) x.hd 2 (matOp (.ldw true) x) s

/-- `MLDT.acc` (R156). -/
def execMldtAcc (x : MOp) (tile : BitVec 3) (s : State) : Out := issueMat (.mldtAcc x tile) x.hd 2 (matOp (.ldacc tile) x) s

/-- `MSWAP` (R157). -/
def execMswap (hd : Hdr) (bar : BitVec 4) (arr : Bool) (s : State) : Out :=
  issueMat (.mswap hd bar arr) hd 1 (fun s _ => plainOp .swap bar arr s) s

/-- `MSTRM` (R158). -/
def execMstrm (x : MOp) (tile : BitVec 3) (clr : Bool) (s : State) : Out :=
  issueMat (.mstrm x tile clr) x.hd 2 (matOp (.strm tile clr) x) s

/-- `MACLR` (R159). -/
def execMaclr (hd : Hdr) (mask : BitVec 8) (bar : BitVec 4) (arr : Bool) (s : State) : Out :=
  issueMat (.maclr hd mask bar arr) hd 1 (fun s _ => plainOp (.clr mask) bar arr s) s

/-- `MACLD` (R159). -/
def execMacld (x : MOp) (tile : BitVec 3) (s : State) : Out := issueMat (.macld x tile) x.hd 2 (matOp (.macld tile) x) s

/-- `MACST` (R159). -/
def execMacst (x : MOp) (tile : BitVec 3) (s : State) : Out := issueMat (.macst x tile) x.hd 2 (matOp (.macst tile) x) s

/-- `MVCNT` (R155). -/
def execMvcnt (hd : Hdr) (a : Operand) (s : State) : Out :=
  issueMat (.mvcnt hd a) hd 1 (fun s act => plainOp (.vcnt (min (opnd32 s (lowLane act) a).toNat 64)) 0 false s) s

/-- `MMODE` (R155). -/
def execMmode (hd : Hdr) (fmt : BitVec 3) (s : State) : Out :=
  issueMat (.mmode hd fmt) hd 1 (fun s _ => plainOp (.mode fmt) 0 false s) s

/-- `MLOOP` (R160). -/
def execMloop (hd : Hdr) (d : Operand) (off : BitVec 18) (s : State) : Out :=
  issue (.mloop hd d off) [] [] hd s fun act s =>
    match d with
    | .k n =>
      let x := s.th.rdK n.toNat - 1
      if act = 0 then .next (s.setTh (advance s.th))
      else
        let th := s.th.wrK n.toNat x (s.th.markK n.toNat)
        if x = 0 then .next (s.setTh (advance th))
        else
          let pc := s.th.grp.pc + BitVec.ofInt 64 (off.toInt * 8)
          .next (s.setTh { th with issues := th.issues + 1, grp := { th.grp with pc := pc, replay := none, fixed := false } })
    | .v _ => .next (s.setTh (advance s.th))
    | .s _ => .next (s.setTh (advance s.th))
    | .c _ => .next (s.setTh (advance s.th))

/-! ### Elements -/

/-- The FP32 pattern of an element of a float format, exactly (R37, R38, R159). -/
def f32Of (fmt x : Nat) : Word := BitVec.ofNat 32 (convert 1 fmt 0 false true x).bits

/-- The elements of a unit as the array takes them: FP32 patterns, or sign-extended integers (R39, R137, R152). -/
def unitVals (fmt : Nat) (b : List Byte) : List Word :=
  if isBx fmt then
    let bx4 := fmt == 13
    let n := if bx4 then 16 else 32
    let e0 := ((b[n]?).getD 0).toNat
    let e1 := ((b[n + 1]?).getD 0).toNat
    (List.range 32).map fun i =>
      let x := if bx4 then ((b[i / 2]?).getD 0).toNat / 16 ^ (i % 2) % 16 else ((b[i]?).getD 0).toNat
      BitVec.ofNat 32 (toFormat fp32 0 false true (bxValue bx4 e0 e1 x)).bits
  else
    match fmt with
    | 4 => [(BitVec.ofNat 8 (ofBytes b)).signExtend 32]
    | 5 => [(BitVec.ofNat 16 (ofBytes b)).signExtend 32]
    | 6 => [BitVec.ofNat 32 (ofBytes b)]
    | 1 => [BitVec.ofNat 32 (ofBytes b)]
    | _ => [f32Of fmt (ofBytes b)]

/-- The format of the operands under a mode (R153, R156). -/
def modeFmt (m : BitVec 3) : Nat :=
  match m.toNat with
  | 0 => 3
  | 1 => 2
  | 2 => 12
  | 3 => 13
  | _ => 4

/-- The bytes and marks of every element of a tile, in element order; positions outside the tensor read as zero (R137). None
while lines of other packages are missing. -/
def readTile (core : Nat) (e : EngCtx) (key : Option Nat) (fmt : Nat) :
    List TileUnit → State → Option (List (Word × Bool)) × State
  | [], s => (some [], s)
  | u :: r, s =>
    let zeros := List.replicate (u.mem.map fun m => m.2).sum (0 : Byte)
    let ps := match engPlaces e .copyRead key (u.mem.flatMap fun m => linePieces m.1 m.2) s with
      | (.ok ps, _) => ps
      | (.error _, _) => []
    let got := if u.inside then engReads core ps s else (some (zeros, false), s)
    match readTile core e key fmt r got.2, got.1 with
    | (some l, s), some (b, m) => (some ((unitVals fmt b).map (fun v => (v, m)) ++ l), s)
    | (_, s), _ => (none, s)

/-! ### Arithmetic of the array -/

/-- The exact sum of the products of one group, rounded to FP32 with rn (R40, R41). -/
def groupSum (ps : List (FVal × FVal)) : Nat :=
  let bad := ps.any fun p => match p with
    | (.nan _, _) => true
    | (_, .nan _) => true
    | (.inf _, .fin _ m _) => m == 0
    | (.fin _ m _, .inf _) => m == 0
    | (.inf _, .inf _) => false
    | (.fin _ _ _, .fin _ _ _) => false
  let infs := ps.filterMap fun p => match p with
    | (.inf a, .inf b) => some (a != b)
    | (.inf a, .fin b _ _) => some (a != b)
    | (.fin a _ _, .inf b) => some (a != b)
    | _ => none
  if bad then fp32.cnan
  else if infs.contains true && infs.contains false then fp32.cnan
  else
    match infs with
    | n :: _ => fp32.inf n
    | [] =>
      let sum := ps.foldl (fun (a : Int × Int) p => match p with
        | (.fin n m x, .fin k q y) => dyAdd a.1 a.2 (sInt (n != k) (m * q)) (x + y)
        | _ => a) (0, 0)
      let negs := ps.all fun p => p.1.sign != p.2.sign
      (roundSigned fp32 0 false true sum.1 sum.2 negs).bits

/-- Add one row of 64 products to an accumulator in a float mode: eight groups in order (R40). DEDUCED (log entry 48): an accumulator that
was loaded bit for bit with a NaN that is not canonical becomes the canonical NaN at its first group, as R29 carries no payload. -/
def accumFloat (acc : Word) (xs ws : List Word) : Word :=
  (List.range 8).foldl (fun a g =>
    let ps := ((xs.drop (8 * g)).take 8).zip ((ws.drop (8 * g)).take 8)
    let sum := groupSum (ps.map fun p => (unpackExact fp32 p.1.toNat, unpackExact fp32 p.2.toNat))
    BitVec.ofNat 32 (addVal fp32 0 false true (unpackExact fp32 a.toNat) (unpackExact fp32 sum)).bits) acc

/-- Clamp to INT32 and whether it clamped (R40). -/
def sat32 (v : Int) : Word × Bool :=
  if v < -2147483648 then (0x80000000, true) else if 2147483647 < v then (0x7fffffff, true) else (BitVec.ofInt 32 v, false)

/-- Add one row of 64 products to an accumulator under `i8`: eight groups in order, each clamped (R40). -/
def accumInt (acc : Word) (xs ws : List Word) : Word × Bool :=
  (List.range 8).foldl (fun a g =>
    let ps := ((xs.drop (8 * g)).take 8).zip ((ws.drop (8 * g)).take 8)
    let r := sat32 (a.1.toInt + (ps.map fun p => p.1.toInt * p.2.toInt).sum)
    (r.1, a.2 || r.2)) (acc, false)

/-- The key of an accumulator element. -/
def accKey (t i j : Nat) : Nat := 4096 * t + 64 * i + j

/-- What an element that failed holds (R162). -/
def failedElem (mode : BitVec 3) : Word := if mode = 4 then 0x80000000 else 0x7fc00000

/-- Write one accumulator element, with good parity (R397). -/
def Matrix.setAcc (m : Matrix) (k : Nat) (x : Word) (mark : Bool) : Matrix :=
  { m with acc := tset 0 m.acc k x, accMark := tset false m.accMark k mark, badAcc := m.badAcc.filter (· != k) }

/-- An operation reads the first `v` rows of an accumulator tile: the elements whose parity is wrong fail, and are marked (R162,
R397). -/
def Matrix.check (m : Matrix) (t v : Nat) : Matrix :=
  match m.badAcc.filter fun k => k / 4096 == t && decide (k / 64 % 64 < v) with
  | [] => m
  | l =>
    let m := l.foldl (fun m k => m.setAcc k (failedElem m.mode) true) m
    { m with pending := m.pending ||| 4 }

/-- One element of a stream (R158, R162). -/
def strmElem (m : Matrix) (t : Nat) (row : List (Word × Bool)) (i j : Nat) : Matrix :=
  let key := accKey t i j
  let ws := (List.range 64).map fun k => tget 0 m.active.w (64 * k + j)
  let bad := tget false m.accMark key || row.any (fun x => x.2) || (List.range 64).any fun k => tget false m.active.mark (64 * k + j)
  let old := tget 0 m.acc key
  if bad then m.setAcc key (failedElem m.mode) true
  else if m.mode = 4 then
    let r := accumInt old (row.map Prod.fst) ws
    let m := m.setAcc key r.1 false
    if r.2 then { m with sat := m.sat ||| BitVec.ofNat 8 (2 ^ t) } else m
  else m.setAcc key (accumFloat old (row.map Prod.fst) ws) false

/-- Row i of a tile's elements. -/
def tileRow (r : TRecord) (l : List (Word × Bool)) (i : Nat) : List (Word × Bool) := (l.drop (i * recTile r 0)).take (recTile r 0)

/-- The faulty columns of a core's array: those whose spare has not taken effect, and those without a spare (R401). -/
def badColumns (s : State) (core : Nat) : List Nat :=
  ((s.ras.cols.filter fun x => x.1 == core && !x.2.2).map fun x => x.2.1) ++ (s.ras.deadCols.filter fun x => x.1 == core).map Prod.snd

/-- The elements that a failed cell's column, or a faulty one, affects in a stream of `v` rows are marked (R162, R397, R401). -/
def failColumns (bad : List Nat) (m : Matrix) (t v : Nat) : Matrix :=
  if (bad ++ m.badCells).isEmpty then m
  else
    let m' := (bad ++ m.badCells).foldl (fun m j => (List.range v).foldl (fun m i => m.setAcc (accKey t i j) (failedElem m.mode) true) m) m
    { m' with badCells := [], pending := m'.pending ||| 2 }

/-- The stream (R158): CLR clears every row, and rows below the valid count accumulate. -/
def strm (bad : List Nat) (m : Matrix) (t : Nat) (clr : Bool) (r : TRecord) (l : List (Word × Bool)) : Matrix :=
  let m := if clr then (List.range 4096).foldl (fun m e => m.setAcc (4096 * t + e) 0 false) m else m
  let v := min m.vcount (recTile r 1)
  let m := m.check t v
  let m := (List.range v).foldl (fun m i => (List.range 64).foldl (fun m j => strmElem m t (tileRow r l i) i j) m) m
  let m := failColumns bad m t v
  if (l.take (64 * v)).any fun x => x.2 then { m with pending := m.pending ||| 1 } else m

/-- A plane of the elements of a tile (R156): transposed, element [k][j] comes from row j and column k. -/
def loadPlane (tag : BitVec 3) (transposed : Bool) (l : List (Word × Bool)) : Plane :=
  (List.range 4096).foldl (fun p e =>
    let src := if transposed then 64 * (e % 64) + e / 64 else e
    let x := (l[src]?).getD (0, false)
    { p with w := tset 0 p.w e x.1, mark := tset false p.mark e x.2 }) ⟨tag, [], []⟩

/-- An accumulator load of the elements of a tile (R156, R159); it clears the saturation flag. -/
def loadAcc (m : Matrix) (t : Nat) (transposed : Bool) (l : List (Word × Bool)) : Matrix :=
  let m := (List.range 4096).foldl (fun m e =>
    let src := if transposed then 64 * (e % 64) + e / 64 else e
    let x := (l[src]?).getD (0, false)
    m.setAcc (4096 * t + e) (if x.2 then failedElem m.mode else x.1) x.2) m
  { m with sat := m.sat &&& ~~~(BitVec.ofNat 8 (2 ^ t)) }

/-- Operands of the operation were read marked (R162, R167). -/
def noteOperand (m : Matrix) (l : List (Word × Bool)) : Matrix :=
  if l.any fun x => x.2 then { m with pending := m.pending ||| 1 } else m

/-- `MACLR` (R159). -/
def clearTiles (m : Matrix) (mask : BitVec 8) : Matrix :=
  let m := (List.range 8).foldl (fun m t =>
    if mask.getLsbD t then (List.range 4096).foldl (fun m e => m.setAcc (4096 * t + e) 0 false) m else m) m
  { m with sat := m.sat &&& ~~~mask }

/-! ### Checks -/

/-- The tile is 64 × 64 with TILE2 to TILE4 equal to 1 (R156). -/
def squareTile (r : TRecord) : Bool :=
  recTile r 0 == 64 && recTile r 1 == 64 && recTile r 2 == 1 && recTile r 3 == 1 && recTile r 4 == 1

/-- The operation names a handle. -/
def MatKind.named : MatKind → Bool
  | .ldw _ => true
  | .ldacc _ => true
  | .strm _ _ => true
  | .macld _ => true
  | .macst _ => true
  | .swap => false
  | .clr _ => false
  | .vcnt _ => false
  | .mode _ => false
  | .arrive _ => false

/-- The checks of a record snapshot at the start of an operation, except translation (R154, R156, R158, R159). DESIGN CHOICE (log entry
51): R158 says nothing of TILE2 to TILE4 of a streamed record: any are accepted, and the first 64 × TILE1 elements of the tile stream. -/
def matOpOk (m : Matrix) (x : MatOp) : Bool :=
  let r := x.handle
  let f := recFmt r
  let common := recValid r && decide (x.index.toNat < gridSize r)
  match x.kind with
  | .ldw _ => common && squareTile r && f == modeFmt m.mode
  | .ldacc _ => common && squareTile r && (f == 1 || f == 6)
  | .strm _ _ => common && recTile r 0 == 64 && decide (recTile r 1 ≤ 64) && f == modeFmt m.mode && m.active.tag == m.mode
  | .macld _ => common && squareTile r && (f == 1 || f == 2 || f == 3 || f == 4 || f == 5 || f == 6)
  | .macst _ => common && squareTile r && (if m.mode = 4 then f == 4 || f == 5 || f == 6 else f == 1 || f == 2 || f == 3)
  | .swap => true
  | .clr _ => true
  | .vcnt _ => true
  | .mode _ => true
  | .arrive _ => true

/-- The bytes of memory that an operation touches in the first `v` rows of its tile (R354). -/
def matTouches (v : Nat) (x : MatOp) : List (Access × Nat × Nat) :=
  if !x.kind.named then []
  else
    let st := match x.kind with
      | .macst _ => true
      | _ => false
    ((tileUnits x.handle (recFmt x.handle) x.index.toNat).filter fun u => u.inside && (!st || decide (u.row < v))).flatMap fun u =>
      u.mem.flatMap fun m => (linePieces m.1 m.2).map fun p => (if st then Access.copyWrite else .copyRead, p.1, p.2)

/-- What an operation reads and what it writes (R152, R161): bits 7:0 the accumulator tiles, 8 the shadow plane, 9 the active plane,
10 the valid count, 11 MODE. A tile store counts as one that writes its tile, since an assist keeps the tile for itself (R46). -/
def MatKind.resources : MatKind → BitVec 12 × BitVec 12
  | .ldw _ => (0x800, 0x100)
  | .ldacc t => (0x800, BitVec.ofNat 12 (2 ^ t.toNat))
  | .swap => (0, 0x300)
  | .strm t _ => (0xe00, BitVec.ofNat 12 (2 ^ t.toNat))
  | .clr m => (0, m.setWidth 12)
  | .macld t => (0x800, BitVec.ofNat 12 (2 ^ t.toNat))
  | .macst t => (0xc00, BitVec.ofNat 12 (2 ^ t.toNat))
  | .vcnt _ => (0, 0x400)
  | .mode _ => (0, 0xfff)
  | .arrive _ => (0, 0)

/-- The resources that an operation still needs (R46, R162): a tile store in the assist only its tile, and none once it only waits
for acknowledgements. -/
def MatOp.holds (y : MatOp) : BitVec 12 × BitVec 12 :=
  match y.phase with
  | .queued => y.kind.resources
  | .started => y.kind.resources
  | .page _ => y.kind.resources
  | .assist => (0, y.kind.resources.2)
  | .assistWait => (0, y.kind.resources.2)
  | .acking => (0, 0)

/-- The operation stores a tile. -/
def MatKind.stores : MatKind → Bool
  | .macst _ => true
  | .ldw _ => false
  | .ldacc _ => false
  | .swap => false
  | .strm _ _ => false
  | .clr _ => false
  | .macld _ => false
  | .vcnt _ => false
  | .mode _ => false
  | .arrive _ => false

/-- The operation is a barrier arrival of the sequencer. -/
def MatKind.arrives : MatKind → Bool
  | .arrive _ => true
  | .macst _ => false
  | .ldw _ => false
  | .ldacc _ => false
  | .swap => false
  | .strm _ _ => false
  | .clr _ => false
  | .macld _ => false
  | .vcnt _ => false
  | .mode _ => false

/-- Bytes as a store (none: memory; else a workgroup's scratchpad), a first place and a length. -/
abbrev Span := Option (Nat × Nat) × Nat × Nat

/-- The bytes of a place. -/
def Place.span : Place → Nat → List Span
  | .scratch c w off, n => [(some (c, w), off, n)]
  | .window _, _ => []
  | .mem pa _, n => [(none, pa, n)]

/-- Join spans that follow each other. -/
def joinSpans (l : List Span) : List Span :=
  l.foldr (fun x acc => match acc with
    | [] => [x]
    | y :: r => if x.1 = y.1 ∧ x.2.1 + x.2.2 = y.2.1 then (x.1, x.2.1, x.2.2 + y.2.2) :: r else x :: y :: r) []

/-- Two lists of spans share a byte. -/
def spansMeet (a b : List Span) : Bool :=
  a.any fun x => b.any fun y => x.1 == y.1 && decide (x.2.1 < y.2.1 + y.2.2) && decide (y.2.1 < x.2.1 + x.2.2)

/-- The bytes that an operation reads or writes; none while a piece of them has no translation. -/
def opSpans (e : EngCtx) (s : State) (x : MatOp) : Option (List Span) :=
  match (engPlaces e (if x.kind.stores then .copyWrite else .copyRead) (some (recKey x.handle))
      ((matTouches 64 x).map fun t => t.2) s).1 with
  | .ok ps => some (joinSpans (ps.flatMap fun p => p.1.span p.2))
  | .error _ => none

/-- The bytes of two operations meet, and one of them stores them (R161). Bytes that have no translation may be any bytes: the later
operation waits until the earlier one has started. -/
def bytesMeet (e : EngCtx) (s : State) (x y : MatOp) : Bool :=
  (x.kind.stores && (y.kind.named && y.phase != .acking) || x.kind.named && y.kind.stores)
    && (match opSpans e s x, opSpans e s y with
      | some a, some b => spansMeet a b
      | _, _ => true)

/-- The accumulator tiles that two operations both name. -/
def tilesMeet (x y : MatOp) : Bool :=
  let t (k : MatKind) : BitVec 12 := (k.resources.1 ||| k.resources.2) &&& 0xff
  t x.kind &&& t y.kind != 0

/-- An operation must wait for an earlier one that is not finished (R46, R155, R161, R162, R354): a barrier arrival waits for every one,
every operation for one that waits for a page, for one that it shares a resource with, and for one whose bytes it shares. DEDUCED (log
entry 48): an operation that arrives waits as a whole for the acknowledgements of an earlier store of its tile (R309). -/
def mustWait (e : EngCtx) (s : State) (x y : MatOp) : Bool :=
  let r := x.kind.resources
  let h := y.holds
  let paged := match y.phase with
    | .page _ => true
    | _ => false
  x.kind.arrives || x.kind.resources.2 == 0xfff || paged || r.2 &&& (h.1 ||| h.2) != 0 || r.1 &&& h.2 != 0
    || x.bar.isSome && y.phase == .acking && tilesMeet x y || bytesMeet e s x y

/-- The first operation of the queue that has not started and that no earlier one holds. -/
def nextOp (e : EngCtx) (s : State) : List MatOp → List MatOp → Option (List MatOp × MatOp × List MatOp)
  | _, [] => none
  | before, x :: r =>
    if x.phase = .queued && x.paid && !before.any (mustWait e s x) then some (before, x, r) else nextOp e s (before ++ [x]) r

/-! ### Failure -/

/-- A workgroup ends because an engine word of it failed (R154, R205): its agents end, the launch reports the fault, and the
workgroup is to be taken down. -/
def failWorkgroup (s : State) (c w : Nat) (why : Cause) (pc : DWord) : State :=
  let s := endWorkgroupAgents s c w why
  let end1 (t : Thread) : Thread :=
    if t.agent.inWg c w then { t with status := .faulted why, live := 0, rest := [], grp := { t.grp with mask := 0 }, pend := [] } else t
  let s := s.setTh (end1 s.th)
  let s := match getCx s c with
    | none => s
    | some x => putCx s (recordFault x 0x0a w 0 pc)
  { s with inputs := s.inputs ++ [.workgroupEnd c w] }

/-- Change the operations of a workgroup. -/
def setOps (s : State) (g : Workgroup) (f : List MatOp → List MatOp) : State := putWg s { g with mq := f g.mq }

/-- Replace an operation by its place in the queue. -/
def putOp (g : Workgroup) (before : List MatOp) (x : MatOp) (after : List MatOp) : Workgroup := { g with mq := before ++ x :: after }

/-! ### Start -/

/-- The operation has not started. -/
def MatOp.waits (x : MatOp) : Bool :=
  match x.phase with
  | .queued => true
  | .page _ => true
  | .started => false
  | .assist => false
  | .assistWait => false
  | .acking => false

/-- The entries of the pool that a matrix operation holds (R237); a barrier arrival holds none. -/
def MatOp.entries (x : MatOp) : Nat :=
  match x.kind with
  | .arrive _ => 0
  | k => if k.named then 2 else 1

/-- The operation fails (R154): those accepted earlier complete, and it is discarded with the later ones, which release their
entries (R237); the workgroup ends. -/
def failOp (s : State) (g : Workgroup) (before : List MatOp) (x : MatOp) (after : List MatOp) : State :=
  let out := (x :: after).filter MatOp.waits
  let s := putWg s { g with mq := before ++ after.filter fun y => !y.waits }
  let s := match g.core with
    | none => s
    | some core =>
      let s := s.setCore core (poolFree (s.core core) 1 ((out.filter MatOp.paid).map MatOp.entries).sum)
      { s with inputs := s.inputs ++ [.poolEntryGrant core 1] }
  failWorkgroup s g.ctx g.wgl .prot x.pc

/-- System software hears of an operation that has failed (R154, R355): the record names the operation by the address of its word
(log entry 49). -/
def reportOp (s : State) (e : EngCtx) (x : MatOp) : State :=
  match writeFault s x.pc.toNat e.cx.asid (.prot, Config.matrixSubcode % 16) 1 e.wg.ctx e.wg.wgl e.core .copyRead with
  | none => s
  | some (_, s) => s

/-- The owner's next operation starts (R154, R234, R354). -/
def startOp (core : Nat) (g : Workgroup) (s : State) : State :=
  match engCtx s core (.matrix g.ctx g.wgl) with
  | none => s
  | some e =>
    match nextOp e s [] g.mq with
    | none => s
    | some (before, x, after) =>
      if !matOpOk g.matrix x then failOp (reportOp s e x) g before x after
      else
        match walkTouches e (some (recKey x.handle)) (matTouches 64 x) s with
        | (some (va, r), s) =>
          match writeFault s va e.cx.asid r 1 g.ctx g.wgl core .copyRead with
          | none => if r.1 = .page then s else failOp s g before x after
          | some (id, s) => if r.1 = .page then putWg s (putOp g before { x with phase := .page id } after) else failOp s g before x after
        | (none, s) =>
          let s := s.setCore core (poolFree (s.core core) 1 x.entries)
          let s := putWg s (putOp g before { x with phase := .started } after)
          { s with inputs := s.inputs ++ [.poolEntryGrant core 1, .arrayOpComplete core] }

/-- Barrier arrivals at the head of a queue need no array (R162). -/
def headArrives (g : Workgroup) : Workgroup :=
  match g.mq with
  | ⟨.arrive bar, _, _, _, .queued, _, _, _, _, _⟩ :: r =>
    { (g.setBar bar.toNat ((g.bar bar.toNat).arrive g.matrix.pending)) with
      mq := r, matrix := { g.matrix with pending := 0 } }
  | _ => g

/-- The workgroups on a core. -/
def wgsOn (s : State) (core : Nat) : List Workgroup :=
  ((if s.wg.placed then [s.wg] else []) ++ s.wgs).filter fun g => g.core == some core

/-- `ARRAY_OP_START` (R154): arrivals that wait for nothing, and the next operation of the array's owner. -/
def execArrayOpStart (core : Nat) (s : State) : Out :=
  let s := (wgsOn s core).foldl (fun s g => putWg s (headArrives g)) s
  match (s.core core).owner with
  | none => .next s
  | some (c, w) =>
    match getWg s c w with
    | none => .next s
    | some g => .next (startOp core g s)

/-! ### Completion -/

/-- The value of a stored element, whether narrowing saturated, and whether the assist must write it (R44, R159). -/
def storeElem (mode : BitVec 3) (fmt : Nat) (x : Word) : Nat × Bool × Bool :=
  if mode = 4 then
    match fmt with
    | 6 => (x.toNat, false, false)
    | _ =>
      let r := convert fmt 6 0 true true x.toNat
      (r.bits, r.flags.sat, false)
  else
    let r := (convert fmt 1 0 false true x.toNat).bits
    let f := (fpFormat fmt).getD fp32
    let tiny := r / 2 ^ f.fb % 2 ^ f.eb == 0 && x.toNat % 2 ^ 31 != 0
    (r, false, tiny)

/-- What a tile store has done so far: the state, what it is to write, tags, whether something saturated, and the elements left for the assist. -/
structure Stored where
  s : State
  runs : List Run
  tags : List Nat
  sat : Bool
  left : List (Nat × Nat × Word × Place)
  deriving DecidableEq, Repr

/-- Store one element (R44, R159, R162). An element marked as a data error keeps its mark, and no assist touches it. -/
def storeOne (e : EngCtx) (m : Matrix) (t : Nat) (x : MatOp) (a : Stored) (u : TileUnit × Nat) : Stored :=
  let fmt := recFmt x.handle
  let i := u.2 / 64
  let j := u.2 % 64
  let key := accKey t i j
  let acc := tget 0 m.acc key
  let v := storeElem m.mode fmt acc
  let ps := match engPlaces e .copyWrite (some (recKey x.handle)) u.1.mem a.s with
    | (.ok ps, _) => ps
    | (.error _, _) => []
  match ps with
  | [] => a
  | (p, n) :: _ =>
    let mark := tget false m.accMark key
    if v.2.2 && !mark then { a with left := a.left ++ [(i, j, acc, p)] }
    else
      { a with runs := (p, toBytes n v.1, mark) :: a.runs, sat := a.sat || v.2.1 }

/-- Store an accumulator tile (R159). -/
def storeTile (core : Nat) (e : EngCtx) (m : Matrix) (t : Nat) (x : MatOp) (s : State) : Stored :=
  let us := tileUnits x.handle (recFmt x.handle) x.index.toNat
  let a := ((us.zip (List.range us.length)).filter fun u => u.1.inside && decide (u.1.row < m.vcount)).foldl (storeOne e m t x)
    ⟨s, [], [], false, []⟩
  (mergeRuns a.runs.reverse).foldl (fun a r =>
    let w := engWrite a.s core 0 r.1 r.2.1 r.2.2
    { a with s := w.2, tags := a.tags ++ w.1.toList }) a

/-- The workgroup's matrix state changed. -/
def setMatrix (s : State) (c w : Nat) (m : Matrix) : State :=
  match getWg s c w with
  | none => s
  | some g => putWg s { g with matrix := m }

/-- Put an operation of a workgroup back in its place. -/
def setOp (s : State) (c w : Nat) (before : List MatOp) (x : Option MatOp) (after : List MatOp) : State :=
  match getWg s c w with
  | none => s
  | some g => putWg s { g with mq := before ++ x.toList ++ after }

/-- A finished operation arrives at its barrier with the pending status and leaves the queue (R162). DESIGN CHOICE (log entry 51): an
arrival that an uninitialised barrier discards clears the pending status too. -/
def finishOp (core c w : Nat) (before : List MatOp) (x : MatOp) (after : List MatOp) (s : State) : State :=
  let s := match getWg s c w with
    | none => s
    | some g =>
      let bar := match x.kind with
        | .arrive b => some b
        | _ => x.bar
      match bar with
      | none => s
      | some b => putWg s { (g.setBar b.toNat ((g.bar b.toNat).arrive g.matrix.pending)) with matrix := { g.matrix with pending := 0 } }
  let s := setOp s c w before none after
  let due : List Instr := if (s.thread (.matrix c w)).any fun t => t.failed then [.workgroupEnd c w] else []
  { s with inputs := s.inputs ++ [.arrayOpStart core, .arrayOwnershipChange core] ++ due }

/-- The tile that an operation reads: none while lines of other packages are missing. -/
def opTile (core : Nat) (e : EngCtx) (x : MatOp) (s : State) : Option (List (Word × Bool)) × State :=
  readTile core e (some (recKey x.handle)) (recFmt x.handle) (tileUnits x.handle (recFmt x.handle) x.index.toNat) s

/-- A request takes its place among those of its cluster (R45): by arrival, and in one cycle by core number. -/
def joinAssists (r : Assist) : List Assist → List Assist
  | [] => [r]
  | a :: l => if !a.taken && a.since == r.since && decide (r.core < a.core) then r :: a :: l else a :: joinAssists r l

/-- Ask the control core of the cluster for the subnormal elements of a tile store (R44, R45). -/
def askAssist (core : Nat) (g : Workgroup) (before : List MatOp) (x : MatOp) (after : List MatOp) (s : State) : State :=
  let cl := core / 8
  let s := setOp s g.ctx g.wgl before (some { x with phase := .assist, left := [] }) after
  let req : Assist := ⟨core, g.ctx, g.wgl, recFmt x.handle, x.left, false, s.clock⟩
  { s with assists := tset [] s.assists cl (joinAssists req (tget [] s.assists cl)), inputs := s.inputs ++ [.coreEventWake cl .assist] }

/-- A tile store (R44, R159): what is not subnormal is written, and the rest goes to the control core of the cluster, one request of a
core at a time (R45). -/
def performStore (core : Nat) (e : EngCtx) (g : Workgroup) (t : Nat) (before : List MatOp) (x : MatOp) (after : List MatOp)
    (s : State) : State :=
  let m := g.matrix.check t g.matrix.vcount
  let r := storeTile core e m t x s
  let m := if r.sat || m.sat.getLsbD t then { m with pending := m.pending ||| 8 } else m
  let s := setMatrix r.s g.ctx g.wgl m
  let x := { x with remote := r.tags, left := r.left }
  if !r.left.isEmpty then
    if (tget [] s.assists (core / 8)).any fun a => a.core == core then setOp s g.ctx g.wgl before (some { x with phase := .assistWait }) after
    else askAssist core g before x after s
  else if r.tags.isEmpty then finishOp core g.ctx g.wgl before x after s
  else setOp s g.ctx g.wgl before (some { x with phase := .acking }) after

/-- Perform a started operation (R155-R159). -/
def performOp (core : Nat) (e : EngCtx) (g : Workgroup) (before : List MatOp) (x : MatOp) (after : List MatOp) (s : State) : State :=
  let m := g.matrix
  let done (m : Matrix) (s : State) : State := finishOp core g.ctx g.wgl before x after (setMatrix s g.ctx g.wgl m)
  match x.kind with
  | .swap => done { m with active := m.shadow, shadow := m.active } s
  | .clr mask => done (clearTiles m mask) s
  | .vcnt n => done { m with vcount := n } s
  | .mode f => done { m with mode := f } s
  | .arrive _ => done m s
  | .macst t => performStore core e g t.toNat before x after s
  | .ldw tr =>
    match opTile core e x s with
    | (none, s) => s
    | (some l, s) => done { noteOperand m l with shadow := loadPlane m.mode tr l } s
  | .ldacc t =>
    match opTile core e x s with
    | (none, s) => s
    | (some l, s) => done (loadAcc (noteOperand m l) t.toNat true l) s
  | .macld t =>
    match opTile core e x s with
    | (none, s) => s
    | (some l, s) => done (loadAcc (noteOperand m l) t.toNat false l) s
  | .strm t clr =>
    match opTile core e x s with
    | (none, s) => s
    | (some l, s) => done (strm (badColumns s core) m t.toNat clr x.handle l) s

/-- The first operation of a queue for which `f` holds, between those before and after it. -/
def findOp (f : MatOp → Bool) : List MatOp → List MatOp → Option (List MatOp × MatOp × List MatOp)
  | _, [] => none
  | before, x :: r => if f x then some (before, x, r) else findOp f (before ++ [x]) r

/-- The operation of the queue that can go on: first one whose writes are all acknowledged, then one that has started. -/
def goingOp (q : List MatOp) : Option (List MatOp × MatOp × List MatOp) :=
  (findOp (fun x => x.phase == .acking && x.remote.isEmpty) [] q).orElse fun _ => findOp (fun x => x.phase == .started) [] q

/-- `ARRAY_OP_COMPLETE` (R154, R162). -/
def execArrayOpComplete (core : Nat) (s : State) : Out :=
  match (s.core core).owner with
  | none => .next s
  | some (c, w) =>
    match getWg s c w, engCtx s core (.matrix c w) with
    | some g, some e =>
      match goingOp g.mq with
      | none => .next s
      | some (before, x, after) =>
        if x.phase = .acking then .next (finishOp core c w before x after s) else .next (performOp core e g before x after s)
    | _, _ => .next s

/-! ### Ownership -/

/-- The owner must give up the array when another workgroup waits (R234). -/
def ownerFree (s : State) (core : Nat) : Bool :=
  match (s.core core).owner with
  | none => true
  | some (c, w) =>
    match getWg s c w with
    | none => true
    | some g => g.ended || g.core != some core || (seqIdle s (.matrix c w) && g.mq.isEmpty)

/-- The workgroups of a core that have array operations queued, in rotating order after the last owner (R234). DESIGN CHOICE (log entry
51): across contexts the order is that of the context and then of the workgroup. -/
def arrayWaiters (s : State) (core : Nat) : List Workgroup :=
  let key (c w : Nat) : Nat := 256 * c + w
  let last := match (s.core core).lastOwner with
    | none => 0
    | some (c, w) => key c w + 1
  let l := (wgsOn s core).filter fun g => !g.mq.isEmpty && (s.core core).owner != some (g.ctx, g.wgl)
  let upper := l.filter fun g => decide (last ≤ key g.ctx g.wgl)
  let least (l : List Workgroup) : List Workgroup :=
    l.filter fun g => l.all fun h => decide (key g.ctx g.wgl ≤ key h.ctx h.wgl)
  least upper ++ least l

/-- The core writes the state of the outgoing owner to its save area, unless it has ended or its pre-emption has written it (R234). -/
def saveOwner (s : State) (core : Nat) : State :=
  match (s.core core).owner with
  | none => s
  | some (c, w) => match getWg s c w with
    | none => s
    | some g => if g.core = some core then saveMatrix s g else s

/-- `ARRAY_OWNERSHIP_CHANGE` (R234). A workgroup that has never owned an array starts from the state of R152; for every other one the core
loads what its save area holds. -/
def execArrayOwnershipChange (core : Nat) (s : State) : Out :=
  if !ownerFree s core then .next s
  else
    match arrayWaiters s core with
    | [] => .next s
    | g :: _ =>
      let s := saveOwner s core
      let g' := if g.ownedArray then { g with matrix := loadMatrix s g } else { g with ownedArray := true, matrix := Matrix.fresh }
      let s := s.setCore core { s.core core with owner := some (g.ctx, g.wgl), lastOwner := some (g.ctx, g.wgl) }
      .next { putWg s g' with inputs := s.inputs ++ [.arrayOpStart core, .arrayOpComplete core] }

/-! ### The assist -/

/-- The control core has no use for `ASSIST` here: a fault to the firmware with cause PROT (R67, R218, R355). -/
def assistFault (i : Instr) (hd : Hdr) (s0 s : State) : Out :=
  let lane := lowLane s.th.grp.mask
  protWord s0 s lane (logOf i hd s.th s.th.grp.mask (laneBit lane) [])

/-- The cluster of a control core. DESIGN CHOICE (log entry 51): a firmware core, which may execute ASSIST (R63) and belongs to no cluster,
serves cluster 0. -/
def Agent.cluster : Agent → Nat
  | .control c => c
  | .troupe _ _ _ => 0
  | .matrix _ _ => 0
  | .copy _ _ => 0
  | .firmware _ => 0

/-- The request that the control core has taken. -/
def takenAssist (s : State) : Option Assist := (tget [] s.assists s.th.agent.cluster).head?.bind fun a => if a.taken then some a else none

/-- `ASSIST.next` (R218). -/
def execAssistNext (hd : Hdr) (d : Operand) (s : State) : Out :=
  issue (.assistNext hd d) (Instr.assistNext hd d).uses [] hd s fun act s =>
    if act = 0 then .next (s.setTh (advance s.th))
    else
      let cl := s.th.agent.cluster
      match tget [] s.assists cl with
      | [] => .next (s.setTh (advance (s.th.writes (laneWrites act 2 d (fun _ => 0xffffffff) fun _ => false))))
      | a :: r =>
        let x : DWord := BitVec.ofNat 64 (a.core + a.elems.length * 256 + a.fmt * 2 ^ 21)
        let s := { s with assists := tset [] s.assists cl ({ a with taken := true } :: r) }
        .next (s.setTh (advance (s.th.writes (laneWrites act 2 d (fun _ => x) fun _ => false))))

/-- `ASSIST.get` (R218). -/
def execAssistGet (hd : Hdr) (d a : Operand) (s0 : State) : Out :=
  issue (.assistGet hd d a) (Instr.assistGet hd d a).uses [] hd s0 fun act s =>
    if act = 0 then .next (s.setTh (advance s.th))
    else
      let n := (opnd32 s (lowLane act) a).toNat
      match (takenAssist s).bind fun r => r.elems[n]? with
      | none => assistFault (.assistGet hd d a) hd s0 s
      | some (i, j, x, _) =>
        let v : DWord := BitVec.ofNat 64 (x.toNat + (i + 64 * j) * 2 ^ 32)
        .next (s.setTh (advance (s.th.writes (laneWrites act 2 d (fun _ => v) fun _ => false))))

/-- Add the tag of a remote write to the operation that is being assisted. -/
def tagAssisted (s : State) (a : Assist) (t : Option Nat) : State :=
  match getWg s a.ctx a.wg with
  | none => s
  | some g => putWg s { g with mq := g.mq.map fun x => if x.phase = .assist then { x with remote := x.remote ++ t.toList } else x }

/-- `ASSIST.put` (R218). -/
def execAssistPut (hd : Hdr) (a b : Operand) (s0 : State) : Out :=
  issue (.assistPut hd a b) (Instr.assistPut hd a b).uses [] hd s0 fun act s =>
    if act = 0 then .next (s.setTh (advance s.th))
    else
      let n := (opnd32 s (lowLane act) a).toNat
      match takenAssist s with
      | none => assistFault (.assistPut hd a b) hd s0 s
      | some r =>
        match r.elems[n]? with
        | none => assistFault (.assistPut hd a b) hd s0 s
        | some (_, _, _, p) =>
          let k := elemBits r.fmt / 8
          let w := engWrite s r.core 0 p (toBytes k (opnd32 s (lowLane act) b).toNat) false
          let s := tagAssisted w.2 r w.1
          .next (s.setTh (advance s.th))

/-- The next tile store of a workgroup that waits for the assist asks for it (R45). -/
def nextAssist (core : Nat) (g : Workgroup) (s : State) : State :=
  match g.mq.span fun x => x.phase != .assistWait with
  | (before, x :: after) => askAssist core g before x after s
  | (_, []) => s

/-- The assisted store goes on to its arrival (R44, R218), and the core's next request may leave (R45). -/
def endAssist (s : State) (cl : Nat) (a : Assist) (r : List Assist) : State :=
  let s := { s with assists := tset [] s.assists cl r }
  let s := match getWg s a.ctx a.wg with
    | none => s
    | some g =>
      let g := { g with mq := g.mq.map fun (x : MatOp) => if x.phase = MatPhase.assist then { x with phase := .acking } else x }
      nextAssist a.core g (putWg s g)
  { s with inputs := s.inputs ++ [Instr.arrayOpComplete a.core] }

/-- `ASSIST.done` (R218). -/
def execAssistDone (hd : Hdr) (s0 : State) : Out :=
  issue (.assistDone hd) [] [] hd s0 fun act s =>
    if act = 0 then .next (s.setTh (advance s.th))
    else
      let cl := s.th.agent.cluster
      match tget [] s.assists cl with
      | a :: r =>
        if a.taken then
          let s := endAssist s cl a r
          .next (s.setTh (advance s.th))
        else assistFault (.assistDone hd) hd s0 s
      | [] => assistFault (.assistDone hd) hd s0 s

end Sys2Proof.Machine
end

