-- ==== Sys2Proof/Machine/Work.lean ====
section
/-!
DEFINITION. Group 12, work distribution: the Turnstile (R170, R333-R335), the work lists (R171-R173, R337) and the Curtain's
count (R339).
-/

namespace Sys2Proof.Machine

/-! ### The Turnstile -/

/-- A dispenser that the launch does not configure (R170, R333). -/
def Dispenser.none : Dispenser := ⟨false, false, [], 0⟩

/-- Draw from the slices of a dispenser for die e (R335): the coordinate and its die, and the slices. -/
def drawFrom (x : Dispenser) (e : Nat) : List Nat → Option (Nat × Nat × Dispenser)
  | [] => .none
  | i :: r =>
    let j := (e + i) % 4
    if i ≠ 0 ∧ x.nosteal then .none
    else
      match lookupBy j x.slices with
      | some (n :: rest) => some (n, j, { x with slices := putBy j rest x.slices })
      | _ => drawFrom x e r

/-- `TFETCH` (R170, R335). -/
def execTfetch (hd : Hdr) (d : Operand) (disp : BitVec 2) (s : State) : Out :=
  issue (.tfetch hd d disp) (Instr.tfetch hd d disp).uses [] hd s fun act s =>
    if act = 0 then .next (s.setTh (advance s.th))
    else
      let e := s.th.ident.die
      let x := tget Dispenser.none s.cx.disps disp.toNat
      let r := if s.cx.dynamic || !x.configured then .none else drawFrom x e [0, 1, 2, 3]
      let v : DWord := match r with
        | .none => BitVec.ofNat 64 (0xffffffff + (2 + e * 256) * 2 ^ 32)
        | some (n, j, _) => BitVec.ofNat 64 (n + ((if j = e then 0 else 1) + j * 256) * 2 ^ 32)
      let s := match r with
        | .none => s
        | some (_, _, y) => { s with cx := { s.cx with disps := tset Dispenser.none s.cx.disps disp.toNat y } }
      .next (s.setTh (advance (s.th.writes (laneWrites act 2 d (fun _ => v) fun _ => false))))

/-! ### Work lists and the Curtain -/

/-- The count O of a context changes; at 0 the Curtain has a report to make (R339). -/
def setOpen (s : State) (x : Context) (o : Nat) : State :=
  let s := putCx s { x with open_ := o, quiet := x.quiet && o == 0 }
  if o = 0 ∧ x.dynamic then { s with inputs := s.inputs ++ [.curtainQuiescent x.ctx] } else s

/-- A work list of a context at its home. -/
def Context.list (x : Context) (n : Nat) : WorkList := tget ⟨0, []⟩ x.lists n

/-- Change a work list. -/
def Context.setList (x : Context) (n : Nat) (l : WorkList) : Context := { x with lists := tset ⟨0, []⟩ x.lists n l }

/-- The records of a list that wait in the work-list caches of the package (R237). -/
def cachedFor (s : State) (c n : Nat) : Nat :=
  (s.cores.map fun k => (k.2.wcache.flatMap id).countP fun r => r.1 == c && r.2.1 == n).sum

/-- The places that a list has left (R337): a record on its way to the home has its place. -/
def listRoom (s : State) (x : Context) (n : Nat) : Nat := 2 ^ x.lcaplog - ((x.list n).recs.length + cachedFor s x.ctx n)

/-- The address of place i of the ring of a list (R337). -/
def ringVa (x : Context) (n i : Nat) : Nat := x.wlbase.toNat + 32 * (n * 2 ^ x.lcaplog + i % 2 ^ x.lcaplog)

/-- A record reaches the home of its list (R172, R337): its bytes take the next place of the ring. -/
def homePush (s : State) (c n r : Nat) : State :=
  match getCx s c with
  | none => s
  | some x =>
    let l := x.list n
    let s := putCx s (x.setList n { l with recs := l.recs ++ [r] })
    match frontWalk s x.asid (ringVa x n (l.taken + l.recs.length)) .store with
    | (.error _, _) => s
    | (.ok (pa, key), s) => if inDirectory pa then s else frontPost s x.asid pa key (toBytes 32 r)

/-- The record at the oldest place of a list as the ring holds it; `r` is the record as it was pushed, which counts where the ring has
no translation or lies in another package (log entry 45). -/
def ringRecord (s : State) (x : Context) (n r : Nat) : Nat :=
  match frontWalk s x.asid (ringVa x n (x.list n).taken) .load with
  | (.error _, _) => r
  | (.ok (pa, key), s) => if !inDirectory pa && (homedHere s pa || isHost pa) then memNat s key pa 32 else r

/-- A work-list cache writes its records to the homes of their lists and frees its entries (R237). -/
def drainWork (s : State) (core : Nat) : State :=
  let c := s.core core
  if c.wcache.isEmpty then s
  else
    let s := s.setCore core { poolFree c 3 c.wcache.length with wcache := [] }
    let s := (c.wcache.flatMap id).foldl (fun s r => homePush s r.1 r.2.1 r.2.2) s
    { s with inputs := s.inputs ++ [.poolEntryGrant core 3] }

/-- The eight registers of an octet in a lane, as 256 bits (R171). -/
def octetOf (s : State) (l : Nat) (d : Operand) : Nat :=
  match d with
  | .v n => ((List.range 8).map fun i => (s.th.rdV l (n.toNat + i)).toNat * 2 ^ (32 * i)).sum
  | .k _ => 0
  | .s _ => 0
  | .c _ => 0

/-- A lane of `WPUSH` as the operand log keeps it: the list in `addr`, the record in `data`, `a` and `b` (R128). -/
def pushLane (d a : Operand) (s : State) (l : Nat) : LogLane :=
  let r := octetOf s l d
  { lane := l, addr := BitVec.ofNat 64 ((opnd32 s l a).toNat % 1024), a := BitVec.ofNat 64 (r / 2 ^ 128),
    b := BitVec.ofNat 64 (r / 2 ^ 192), data := BitVec.ofNat 128 r, addrMark := false,
    dataMark := s.th.marked l 8 d || s.th.marked l 1 a }

/-- The record of a lane of `WPUSH`. -/
def pushRecord (x : LogLane) : Nat := x.data.toNat + x.a.toNat * 2 ^ 128 + x.b.toNat * 2 ^ 192

/-- A list number that the context does not have raises PROT in its lane; in dense mode every one does (R337). -/
def listBad (x : Context) (n : Nat) : Bool := !x.dynamic || decide (x.nlist ≤ n)

/-- The lanes whose lists have room, in lane order, and those that wait (R337). -/
def splitPush (room : Nat → Nat) : List LogLane → List LogLane × List LogLane
  | [] => ([], [])
  | y :: r =>
    let n := y.addr.toNat
    if room n = 0 then
      let q := splitPush room r
      (q.1, y :: q.2)
    else
      let q := splitPush (fun m => if m = n then room n - 1 else room m) r
      (y :: q.1, q.2)

/-- The records of lanes enter the work-list cache, two to an entry (R237): the lanes of the first entry that the pool has no room for
and those behind it stall (R132, R238). DESIGN CHOICE (log entry 51): a record without a second of its own word has an entry of its own,
which no later word fills up. -/
def cachePush (s : State) : Nat → List LogLane → State × List LogLane
  | 0, ls => (s, ls)
  | f + 1, ls =>
    if ls.isEmpty then (s, [])
    else
      match poolAsk s 3 1 with
      | none => (poolStall s 3, ls)
      | some t =>
        let n := t.th.ident.core
        let e := (ls.take 2).map fun y => (t.cx.ctx, y.addr.toNat, pushRecord y)
        cachePush (t.setCore n { t.core n with wcache := (t.core n).wcache ++ [e] }) f (ls.drop 2)

/-- The lanes of WPUSH whose lists and whose cache have room push their records, and the Curtain counts them; the others wait, and the
word performs them again (R172, R337, R339). -/
def pushRecords (i : Instr) (hd : Hdr) (ls : List LogLane) (s0 s : State) : State :=
  let r := splitPush (listRoom s s.cx) ls
  let q := cachePush s 32 r.1
  let left := ls.filter fun y => (r.2 ++ q.2).any fun z => z.lane == y.lane
  let s := setOpen q.1 q.1.cx (q.1.cx.open_ + (ls.length - left.length))
  let s := s.setTh (if ls.any fun x => x.dataMark then s.th.raiseErr 4 else s.th)
  if left.isEmpty then s.setTh (advance s.th)
  else
    let m := maskOf fun l => left.any fun y => y.lane == l
    s.setTh { s0.th with err := s.th.err, grp := { s0.th.grp with replay := some (logOf i hd s0.th m 0 left) } }

/-- The lanes of WPUSH: read now, or those that still wait (R128, R172). -/
def pushLanes (d a : Operand) (act : LaneMask) (s : State) : List LogLane :=
  match s.th.grp.replay with
  | some w => w.lanes
  | none => (lanesOf act).map (pushLane d a s)

/-- A list that the context does not have raises PROT in its lane (R337). -/
def badList (s0 s : State) (w : LogWord) (lane : Nat) : Out := protWord s0 s lane w

/-- `WPUSH` (R172, R337, R339). -/
def execWpush (hd : Hdr) (d a : Operand) (s : State) : Out :=
  issue (.wpush hd d a) (Instr.wpush hd d a).uses [] hd s fun act s' =>
    let ls := pushLanes d a act s'
    match ls.find? fun x => listBad s'.cx x.addr.toNat with
    | some x =>
      let bad := maskOf fun l => ls.any fun y => y.lane == l && listBad s'.cx y.addr.toNat
      badList s s' (logOf (.wpush hd d a) hd s'.th act bad ls) x.lane
    | none => if releaseWaits s.th .pk && !ls.isEmpty then .next s else .next (pushRecords (.wpush hd d a) hd ls s s')

/-- Take the oldest record of a list (R172). -/
def popOne (s : State) (n : Nat) : Option Nat × State :=
  let l := s.cx.list n
  match l.recs with
  | [] => (none, s)
  | r :: rs => (some (ringRecord s s.cx n r), { s with cx := s.cx.setList n ⟨l.taken + 1, rs⟩ })

/-- Take the oldest record of each lane's list in lane order (R172): per lane the record, and the state. -/
def popAll : List (Nat × Nat) → State → List (Nat × Option Nat) × State
  | [], s => ([], s)
  | (l, n) :: r, s =>
    let a := popOne s n
    let b := popAll r a.2
    ((l, a.1) :: b.1, b.2)

/-- The writes of a popped record to an octet. -/
def octetWrites (l : Nat) (d : Operand) (r : Nat) (mark : Bool) : List Wr :=
  match d with
  | .v n => (List.range 8).map fun i => Wr.v l (n.toNat + i) (BitVec.ofNat 32 (r / 2 ^ (32 * i))) mark
  | .k _ => []
  | .s _ => []
  | .c _ => []

/-- The lanes of WPOP take the oldest records of their lists, each with its predicate, and acquire where one was taken (R172, R337). The
core's own cache writes its records to their homes first. -/
def popRecords (d : Operand) (p : BitVec 3) (mark : Nat → Bool) (ls : List (Nat × Nat)) (s : State) : State :=
  let r := popAll ls (drainWork s s.th.ident.core)
  let took := r.1.any fun x => x.2.isSome
  let ws := r.1.flatMap fun x => Wr.p x.1 p.toNat x.2.isSome (mark x.1) :: (match x.2 with
    | some y => octetWrites x.1 d y (mark x.1)
    | none => [])
  let s := r.2
  let s := if took then acquire s .pk else s
  let due := if s.cx.parents.isEmpty then [] else (ls.map fun x => Instr.parentPush s.cx.ctx x.2)
  { s with inputs := s.inputs ++ due }.setTh (advance (s.th.writes ws))

/-- The lanes of WPOP with their lists: read now, or those of the operand log (R128). -/
def popLanes (a : Operand) (act : LaneMask) (s : State) : List (Nat × Nat) :=
  match s.th.grp.replay with
  | some w => w.lanes.map fun x => (x.lane, x.addr.toNat)
  | none => (lanesOf act).map fun l => (l, (opnd32 s l a).toNat % 1024)

/-- `WPOP` (R172, R337). -/
def execWpop (hd : Hdr) (d a : Operand) (p : BitVec 3) (s : State) : Out :=
  issue (.wpop hd d a p) (Instr.wpop hd d a p).uses [p] hd s fun act s' =>
    let ls := popLanes a act s'
    let s' := s'.setTh (noteWord s'.th (.wpop hd d a p) act)
    match ls.find? fun x => listBad s'.cx x.2 with
    | some x =>
      let bad := maskOf fun l => ls.any fun y => y.1 == l && listBad s'.cx y.2
      let log : List LogLane := ls.map fun y => ⟨y.1, BitVec.ofNat 64 y.2, 0, 0, 0, false, false⟩
      badList s s' (logOf (.wpop hd d a p) hd s'.th act bad log) x.1
    | none => .next (popRecords d p (fun l => s'.th.marked l 1 a) ls s')

/-- `PARENT_PUSH` (R173): the oldest parent that waits for a list with room is placed. -/
def execParentPush (ctx list : Nat) (s : State) : Out :=
  match getCx s ctx with
  | none => .next s
  | some x =>
    match x.parents.find? fun y => y.1 == list with
    | none => .next s
    | some y => if listRoom s x list = 0 then .next s
      else .next (homePush (putCx s { x with parents := x.parents.erase y }) ctx list y.2)

/-- A parent record is pushed (R173, R339): the Curtain counts it, and a full list lets it wait. -/
def pushParent (s : State) (c list r : Nat) : State :=
  match getCx s c with
  | none => s
  | some x =>
    let n := list % 1024 % x.nlist
    let x := { x with open_ := x.open_ + 1, quiet := false }
    if listRoom s x n = 0 then putCx s { x with parents := x.parents ++ [(n, r)] } else homePush (putCx s x) c n r

/-- A lane's record is retired (R339). -/
def retire (s : State) (c n : Nat) : State :=
  match getCx s c with
  | none => s
  | some x => setOpen s x (x.open_ - n)

/-- The step of a `WDONE` on the bytes of a join object (R173): the new bytes, and the parent's list and record where COUNT
reaches 0. -/
def joinStep (b : List Byte) : List Byte × Option (Nat × Nat) :=
  let count := ofBytes (b.take 4)
  let list := ofBytes ((b.drop 4).take 2)
  if count = 0 then (b, none)
  else (toBytes 4 (count - 1) ++ b.drop 4, if count = 1 then some (list, ofBytes ((b.drop 32).take 32)) else none)

/-- One lane's step at its join object: at a bank, at the home in this package, at the host, or sent to another package as an
ATOM of 64 bytes with operation 16. -/
def joinLane (s : State) (x : LogLane × Place) : State :=
  let c := s.cx.ctx
  let after (s : State) (p : Option (Nat × Nat)) : State :=
    retire (match p with
      | some q => pushParent s c q.1 q.2
      | none => s) c 1
  match x.2 with
  | .window _ => s
  | .scratch a g off =>
    match getWg s a g with
    | none => s
    | some h =>
      let r := joinStep (h.bytes off 64)
      after (putWg s (h.put off r.1 false)) r.2
  | .mem pa key =>
    let d := s.th.ident.die
    if homedHere s pa || isHost pa then
      let s := drainDie s d
      let old := recordRead (noteAsker s pa s.th.ident.core) pa key 64 s.pkg d
      let r := joinStep old.1.1
      after (ownViews (homeWrite old.2 pa key r.1 old.1.2 s.pkg d) pa key r.1 old.1.2) r.2
    else
      let (t, s) := newTag (rdcDrop (l1Drop s pa) d pa)
      let s := sendPacket s { packetBlank with
        typ := 3, tc := 0, dst := ((homeOf s pa).getD (0, 0)).1, addr := BitVec.ofNat 64 pa, width := 64, op := 16, group := key,
        tag := t }
      let s := { s with cx := { s.cx with joins := s.cx.joins ++ [t] } }
      s.setTh { s.th with fabric := s.th.fabric ++ [t] }

/-- The operands of a lane of `WDONE`. -/
def doneLane (a : Operand) (s : State) (l : Nat) : LogLane :=
  { lane := l, addr := opnd64 s l a, a := opnd64 s l a, b := 0, data := 0, addrMark := false, dataMark := s.th.marked l 2 a }

/-- What a lane of WDONE asks; an address of 0 reaches nothing. DEDUCED (log entry 23): the join object is reached by an atomic access like any
other, so WINDOW, PAGE and PROT are faults of the word too, although R173 lists ALIGN alone. -/
def doneAsk (s : State) (x : LogLane) : LaneReq :=
  { va := if x.addr = 0 then 0x01f1000000000000 else x.addr, width := if x.addr = 0 then 4 else 64, stack := false,
    marked := false, windowOk := true, regsOk := x.addr == 0, memOk := true, badTarget := false,
    purpose := ⟨.atomic, s.th.agent.privileged, none, true⟩ }

/-- The lanes of WDONE retire their records, each with the step at its join object where it names one (R173, R339). -/
def doneAll (ps : List (LogLane × Place)) (s : State) : State :=
  let none_ := ps.filter fun x => x.1.addr == 0
  let s := (ps.filter fun x => x.1.addr != 0).foldl joinLane s
  let s := if none_.isEmpty then s else retire s s.cx.ctx none_.length
  let th := if ps.any fun p => p.1.dataMark then s.th.raiseErr 4 else s.th
  s.setTh (advance th)

/-- `WDONE` (R173, R339): a join address of 0 only retires the record. -/
def execWdone (hd : Hdr) (a : Operand) (s : State) : Out :=
  memWord (.wdone hd a) (Instr.wdone hd a).uses hd .atomic s (fun s act => (lanesOf act).map (doneLane a s)) doneAsk
    (fun s ps => releaseWaits s.th .pk && !ps.isEmpty) (fun _ ps s => .next (doneAll ps s))

end Sys2Proof.Machine
end

