-- ==== Sys2Proof/Machine/Phaser.lean ====
section
/-!
DEFINITION. Group 14: phasers (R195-R206), their roots and releases on the Tether (R284-R300), and CWAIT (R174, R339-R341).
-/

namespace Sys2Proof.Machine

/-! ### Names, nodes and roots -/

/-- The phaser that a name means; none where the name breaks R195. -/
def phName (x : Word) : Option PhName :=
  if x.getLsbD 31 then (if x.toNat % 2 ^ 31 < 256 then some (.pod (x.toNat % 256)) else none)
  else if x.toNat < 4096 then some (.pkg x.toNat) else none

/-- The name is a pod-wide phaser's. -/
def isPod : PhName → Bool
  | .pod _ => true
  | .pkg _ => false

/-- State with the Tether changed. -/
def State.setTether (s : State) (t : Tether) : State := { s with tether := t }

/-- A phaser at the package node. -/
def phNode (s : State) (n : PhName) : Option PhNode := lookupBy n s.tether.nodes

/-- Change a phaser at the package node. -/
def setNode (s : State) (n : PhName) (x : PhNode) : State := s.setTether { s.tether with nodes := putBy n x s.tether.nodes }

/-- The root of a phaser. -/
def phRoot (s : State) (n : PhName) : Option PhRoot := lookupBy n s.tether.roots

/-- Change the root of a phaser. -/
def setRoot (s : State) (n : PhName) (x : PhRoot) : State := s.setTether { s.tether with roots := putBy n x s.tether.roots }

/-- A child that contributes nothing. -/
def Kid.zero : Kid := ⟨0, 0, 0, 0, 0⟩

/-- No winner. -/
def Cand.zero : Cand := ⟨0, 0, 0, 0⟩

/-- A new root (R289). -/
def PhRoot.fresh (anyOf : Bool) (rootIx : Nat) : PhRoot :=
  ⟨anyOf, rootIx, rootIx, 0, [], [], none, none, none, [], [], false, Cand.zero, [], true, []⟩

/-- A new phaser at the package node (R289). -/
def PhNode.fresh (d : PhDesc) : PhNode :=
  ⟨d.anyOf, d.ctx, d.maxmem, d.rootIx, 0, Kid.zero, [], 0, 0, false, false, false, Cand.zero, []⟩

/-- Phase `a` is done when `c` phases have completed (R195). -/
def phaseDone (c a : Word) : Bool := decide (0 < (c - a).toInt)

/-- The package reaches the root of a phaser: over the port in use, for a pod-wide one (R287). -/
def rootReached (s : State) (n : PhName) : Bool :=
  match n with
  | .pkg _ => true
  | .pod _ => if s.tether.active then s.tether.up1 else s.tether.up0

/-! ### The root -/

/-- The smaller candidate in a tie (R293): by value, then by package, die and workgroup. -/
def lesserCand (a b : Cand) : Cand :=
  let key (x : Cand) : Nat := x.value.toNat * 2 ^ 32 + (x.pkg * 4 + x.die) * 256 + x.wgl
  if key a ≤ key b then a else b

/-- Merge a candidate into those of one node cycle. -/
def mergeCand (a b : Option Cand) : Option Cand :=
  match a, b with
  | none, b => b
  | a, none => a
  | some a, some b => some (lesserCand a b)

/-- Phase `a` is not later than phase `b`. -/
def phaseLe (a b : Word) : Bool := !phaseDone a b

/-- Phase C + 1 becomes phase C (R292). -/
def Kid.shift (k : Kid) : Kid := ⟨k.n1, k.e1, 0, k.later, k.later⟩

/-- The counts for the open phases `b` and `b + 1`, from those for `a` and `a + 1`: after two phases nothing but the members is left. -/
def Kid.toward (k : Kid) (a b : Word) : Kid :=
  if phaseLe b a then k else if b = a + 1 then k.shift else k.shift.shift

/-- A signal for a phase, with the open phases `c` and `c + 1` (R286). -/
def Kid.signal (k : Kid) (c ph : Word) : Kid :=
  if ph = c then { k with n0 := k.n0 + 1 } else if ph = c + 1 then { k with n1 := k.n1 + 1 } else k

/-- A member is expected from phase `j` on (R291). -/
def Kid.join (k : Kid) (c j : Word) : Kid :=
  { k with e0 := if phaseLe j c then k.e0 + 1 else k.e0, e1 := if phaseLe j (c + 1) then k.e1 + 1 else k.e1, later := k.later + 1 }

/-- A member is expected no more from phase `j` on (R199, R291). -/
def Kid.leave (k : Kid) (c j : Word) : Kid :=
  { k with e0 := if phaseLe j c then k.e0 - 1 else k.e0, e1 := if phaseLe j (c + 1) then k.e1 - 1 else k.e1, later := k.later - 1 }

/-- What an arrival adds to its child's signals in step 1 of R292, at C: totals replace the child's (R286), and a drop is the member's
signal for C where it has not given it (R199). -/
def Kid.arrive (k : Kid) (c : Word) : PhArrival → Kid
  | .signal ph _ => k.signal c ph
  | .totals _ _ a m _ _ => { k with n0 := (m.toward a c).n0, n1 := (m.toward a c).n1 }
  | .drop sig => if phaseLe sig c then k.signal c c else k
  | .join _ => k
  | .register _ _ => k
  | .time _ _ => k

/-- The child that an arrival comes from; the own package's have its number. -/
def PhArrival.child (me : Nat) : PhArrival → Nat
  | .totals c _ _ _ _ _ => c
  | .join c => c
  | .register _ _ => me
  | .signal _ _ => me
  | .drop _ => me
  | .time _ _ => me

/-- The candidate of an arrival for a phase. -/
def PhArrival.candFor (ph : Word) : PhArrival → Option Cand
  | .signal p c => if p = ph then c else none
  | .totals _ _ p _ c0 c1 => if p = ph then c0 else if p + 1 = ph then c1 else none
  | .join _ => none
  | .register _ _ => none
  | .drop _ => none
  | .time _ _ => none

/-- An arrival of the own package. -/
def PhArrival.mine (me : Nat) : PhArrival → Bool
  | .totals _ _ _ _ _ _ => false
  | .join c => c == me
  | .register _ _ => true
  | .signal _ _ => true
  | .drop _ => true
  | .time _ _ => true

/-- The candidate that the package node forwards for a phase (R293): the first that reached it, and of those of one node cycle the
smallest. -/
def firstCand (ph : Word) (l : List (Nat × PhArrival)) : Option Cand :=
  (l.foldl (fun m (a : Nat × PhArrival) =>
    match m, a.2.candFor ph with
    | none, c => c.map fun c => (a.1, c)
    | some m, none => some m
    | some m, some c => some (if m.1 < a.1 then m else if a.1 < m.1 then (a.1, c) else (m.1, lesserCand m.2 c))) none).map Prod.snd

/-- The candidate for a phase among the arrivals of one node cycle (R293): the package node's and those of the other children. -/
def cycleCand (me : Nat) (ph : Word) (l : List (Nat × PhArrival)) : Option Cand :=
  (l.filter fun a => !a.2.mine me).foldl (fun m a => mergeCand m (a.2.candFor ph)) (firstCand ph (l.filter fun a => a.2.mine me))

/-- The root with a child's counts changed. -/
def PhRoot.setKid (r : PhRoot) (i : Nat) (f : Kid → Kid) : PhRoot := { r with kids := tset Kid.zero r.kids i (f (tget Kid.zero r.kids i)) }

/-- A child's totals have come by a leaf node (R288). -/
def PhRoot.cameBy (r : PhRoot) (child leaf : Nat) : PhRoot := { r with paths := tset 0 r.paths child (leaf + 1) }

/-- The leaf node by which an arrival came, where it brings totals. -/
def PhArrival.path : PhArrival → Option Nat
  | .totals _ l _ _ _ _ => some l
  | .join _ => none
  | .register _ _ => none
  | .signal _ _ => none
  | .drop _ => none
  | .time _ _ => none

/-- One arrival in step 1 of R292, at C. -/
def PhRoot.addOne (me : Nat) (c : Word) (q : PhRoot) (a : Nat × PhArrival) : PhRoot :=
  let q := q.setKid (a.2.child me) fun k => k.arrive c a.2
  match a.2.path with
  | some l => q.cameBy (a.2.child me) l
  | none => q

/-- Step 1 of R292: the signals, drops and candidates of one cycle are added. -/
def PhRoot.add (r : PhRoot) (me : Nat) (l : List (Nat × PhArrival)) : PhRoot :=
  let q := l.foldl (PhRoot.addOne me r.c) r
  if !r.anyOf then q
  else { q with cand0 := r.cand0.or (cycleCand me r.c l), cand1 := r.cand1.or (cycleCand me (r.c + 1) l) }

/-- Signals received and expected for the current phase (R291). -/
def PhRoot.counts (r : PhRoot) : Nat × Nat := ((r.kids.map fun k => k.2.n0).sum, (r.kids.map fun k => k.2.e0).sum)

/-- The current phase meets its condition (R292, R294); a standby root that rebuilds completes none (R288). -/
def PhRoot.ready (r : PhRoot) : Bool :=
  let n := r.counts
  r.lost.isEmpty && (r.cand0.isSome || (n.1 == n.2 && decide (0 < n.2)))

/-- The root with C at a phase that is not earlier, as the phases between are completed or are found to be. -/
def PhRoot.toward (r : PhRoot) (c : Word) : PhRoot :=
  if phaseLe c r.c then r
  else
    { r with
      c := c, kids := r.kids.map fun k => (k.1, k.2.toward r.c c),
      cand0 := if c = r.c + 1 then r.cand1 else none, cand1 := none, time := none }

/-- Step 2 of R292: the current phase completes at a pod time, with its release (R298). -/
def PhRoot.complete (r : PhRoot) (pod : Bool) (now : Nat) (skewed : Bool) : PhRelease × PhRoot :=
  let win := r.cand0.getD Cand.zero
  let rel : PhRelease :=
    match r.time with
    | none => ⟨r.c, now, 0, false, false, r.cand0.isSome, win, skewed⟩
    | some (a, w) =>
      let late := decide (a.toNat < now)
      ⟨r.c, if late then now else a.toNat, if pod then w else 0, late, true, r.cand0.isSome, win, skewed⟩
  (rel, { r.toward (r.c + 1) with found := rel.found, win := win })

/-- Register a member at the root (R198, R291): its first phase. -/
def registerAt (r : PhRoot) (child : Nat) (signals : Bool) : Word × PhRoot :=
  let j := if 0 < r.counts.1 ∨ r.cand0.isSome then r.c + 1 else r.c
  (j, if signals then r.setKid child fun k => k.join r.c j else r)

/-- The registrations of step 3 of R292 (R198, R286, R291): one receives its first phase, which goes back to a member of this package, and
a child's totals say what it expects. -/
def PhRoot.members (me : Nat) (r : PhRoot) : PhArrival → PhRoot
  | .join i => (registerAt r i true).2
  | .register m signals =>
    let q := registerAt r me signals
    { q.2 with answers := q.2.answers ++ [(m, q.1)] }
  | .totals i _ a m _ _ => r.setKid i fun k => { k with e0 := (m.toward a r.c).e0, e1 := (m.toward a r.c).e1, later := m.later }
  | .drop _ => r
  | .signal _ _ => r
  | .time _ _ => r

/-- The drops of step 3 of R292 (R199), where C was `c` in step 1: the member leaves the phases after C, or after the one that it has
signalled. -/
def PhRoot.drops (r : PhRoot) (me : Nat) (c : Word) : PhArrival → PhRoot
  | .drop sig => r.setKid me fun k => k.leave r.c (if phaseLe sig (c + 1) then c + 1 else sig)
  | .join _ => r
  | .register _ _ => r
  | .totals _ _ _ _ _ _ => r
  | .signal _ _ => r
  | .time _ _ => r

/-- Step 4 of R292: the last PHTIME of the cycle applies (R204). -/
def PhRoot.applyTime (r : PhRoot) (l : List (Nat × PhArrival)) : PhRoot :=
  l.foldl (fun r a => match a.2 with
    | .time t w => { r with time := some (t, w) }
    | .signal _ _ => r
    | .totals _ _ _ _ _ _ => r
    | .join _ => r
    | .register _ _ => r
    | .drop _ => r) r

/-- The node cycle of a root with the arrivals of the cycle (R292), and the release of the phase that completed. -/
def PhRoot.cycle (r : PhRoot) (me : Nat) (pod : Bool) (now : Nat) (skewed : Bool) (l : List (Nat × PhArrival)) : List PhRelease × PhRoot :=
  let a := r.add me l
  let q := if a.ready then (let q := a.complete pod now skewed; ([q.1], q.2)) else ([], a)
  let m := l.foldl (fun m x => m.members me x.2) q.2
  (q.1, (l.foldl (fun m x => m.drops me r.c x.2) m).applyTime l)

/-- The package's subtree is degraded (R300): its skew bound, its lock, or a node above. -/
def degraded (s : State) (n : PhName) : Bool := isPod n && (!s.tether.locked || decide (1000 < s.tether.skb) || s.tether.above)

/-- The release reaches the package node (R298, R300): when it will be released, and SKEW. -/
def receiveRelease (s : State) (n : PhName) (r : PhRelease) : State :=
  match phNode s n with
  | none => s
  | some x =>
    if phaseDone x.seen r.phase then s
    else
      let deg := isPod n && (r.skewed || degraded s n)
      let off := if r.window = 0 then 0 else s.tether.pos % r.window
      let at_ := if deg then s.podTime else max (r.base + off * 1000) s.podTime
      let seen := r.phase + 1
      let x := { x with
        seen := seen, own := x.own.toward x.seen seen, fwd := x.fwd.filter fun f => phaseLe seen f.1,
        pending := x.pending ++ [(r, at_, deg && r.timed)] }
      let s := setNode s n x
      if at_ ≤ s.podTime then { s with inputs := s.inputs ++ [.packageRelease n] } else s

/-- Deliver the releases of a root, or keep them while the package does not reach it (R287). -/
def deliverReleases (s : State) (n : PhName) (l : List PhRelease) : State :=
  if rootReached s n then l.foldl (fun s r => receiveRelease s n r) s
  else
    match phRoot s n with
    | none => s
    | some r => setRoot s n { r with unsent := r.unsent ++ l }

/-- Keep at the package node, where it has seen every completed phase, its totals as the root has them and the candidates of these
arrivals that it has forwarded (R288, R293). -/
def keepOwn (s : State) (n : PhName) (l : List (Nat × PhArrival)) : State :=
  match phNode s n, phRoot s n with
  | some x, some r =>
    if x.seen ≠ r.c then s
    else
      let new := ([r.c, r.c + 1].filter fun ph => !(x.fwd.any fun f => f.1 == ph)).filterMap fun ph => (firstCand ph l).map fun c => (ph, c)
      setNode s n { x with own := tget Kid.zero r.kids s.pkg, fwd := x.fwd ++ new }
  | _, _ => s

/-- The totals of this package, as it sends them up again (R286): the root has them, or loses them with a leaf node (R288). -/
def sendOwn (s : State) (n : PhName) (r : PhRoot) : PhRoot :=
  match phNode s n with
  | none => r
  | some x =>
    (r.setKid s.pkg fun k => { k with n0 := (x.own.toward x.seen r.c).n0, n1 := (x.own.toward x.seen r.c).n1 }).cameBy s.pkg
      (Config.leafOf s.tether.active)

/-- The package node learns C with the answer to a registration (R198). -/
def learnPhase (s : State) (n : PhName) (c : Word) : State :=
  match phNode s n with
  | none => s
  | some x => if x.seen = c then s else setNode s n { x with seen := c, released := if phaseDone c x.seen then c else x.released }

/-- The registration of a member or of the package (R198, R340). -/
def PhArrival.registers : PhArrival → Bool
  | .register _ _ => true
  | .join _ => true
  | .totals _ _ _ _ _ _ => false
  | .signal _ _ => false
  | .drop _ => false
  | .time _ _ => false

/-- The root's answers reach the PHREGs that wait for them (R198). -/
def answerJoins (s : State) (n : PhName) : State :=
  match phRoot s n with
  | none => s
  | some r =>
    let f (j : Joining) : Joining :=
      if j.name = n then { j with first := j.first.or (lookupBy j.member r.answers) } else j
    let s := setRoot s n { r with answers := [] }
    s.setTether { s.tether with joining := s.tether.joining.map f }

/-- A pod-wide phaser that exists in no package ends (R289): this one has destroyed it and no other has members, so that the next
registration is the first again (log entry 29). -/
def endRoot (s : State) (n : PhName) : State :=
  match phNode s n, phRoot s n with
  | none, some r =>
    if isPod n && r.inbox.isEmpty && r.lost.isEmpty && r.kids.all fun k => k.2.e0 + k.2.e1 + k.2.later == 0 then
      s.setTether { s.tether with roots := dropBy n s.tether.roots }
    else s
  | _, _ => s

/-- The nanoseconds of the root's node cycles that have passed (R292): 5 in 12 cycles. -/
def nodeCycle (s : State) : Nat := 5 * s.clock / 12

/-- `ROOT_NODE_CYCLE` (R292): what has arrived in the cycle is taken together. A standby root that rebuilds takes nothing (R288). -/
def execRootNodeCycle (name : PhName) (s : State) : Out :=
  match phRoot s name with
  | none => .next s
  | some r =>
    if !r.lost.isEmpty then .next s
    else
      let reached := rootReached s name
      let take := r.inbox.filter fun a => reached || !a.2.mine s.pkg
      let own := take.filter fun a => a.2.mine s.pkg
      let r := if own.isEmpty then r else sendOwn s name r
      let q := { r with inbox := r.inbox.filter fun a => !(reached || !a.2.mine s.pkg), unsent := if reached then [] else r.unsent }.cycle
        s.pkg (isPod name) s.podTime (degraded s name) take
      let s := deliverReleases (setRoot s name q.2) name ((if reached then r.unsent else []) ++ q.1)
      let s := if own.any fun a => a.2.registers then learnPhase s name q.2.c else s
      .next (endRoot (answerJoins (if reached then keepOwn s name own else s) name) name)

/-- A root has something to do in its next node cycle (R287, R288, R292). -/
def PhRoot.due (s : State) (n : PhName) (r : PhRoot) : Bool :=
  r.lost.isEmpty && (r.ready || (rootReached s n && !r.unsent.isEmpty) || r.inbox.any fun a => rootReached s n || !a.2.mine s.pkg)

/-- The roots whose node cycle ends as a nanosecond passes (R292). -/
def rootsDue (s : State) : List Instr :=
  if nodeCycle s = 5 * (s.clock - 1) / 12 then []
  else (s.tether.roots.filter fun r => r.2.due s r.1).map fun r => .rootNodeCycle r.1

/-- A message reaches the root in this node cycle. -/
def toRoot (s : State) (n : PhName) (a : PhArrival) : State :=
  match phRoot s n with
  | none => s
  | some r => setRoot s n { r with inbox := r.inbox ++ [(nodeCycle s, a)] }

/-- The counts of a message. -/
def kidOf (k : TetherCounts) : Kid := ⟨k.n0, k.e0, k.n1, k.e1, k.later⟩

/-- A report reaches a standby root (R288): C is the largest reported, with the record that came with it, and the child's totals and
candidates are for the open phases of that C. A package that only waits reports too, although the root does not await it. -/
def PhRoot.report (r : PhRoot) (child leaf : Nat) (c : Word) (found : Bool) (win : Cand) (k : Kid) (cand0 cand1 : Option Cand) : PhRoot :=
  let later := !r.heard || !phaseLe c r.c
  let r := if r.heard then { r.toward c with time := r.time } else { r with c := c }
  let cand (ph : Word) : Option Cand := if ph = c then cand0 else if ph = c + 1 then cand1 else none
  { (r.setKid child fun _ => k.toward c r.c).cameBy child leaf with
    found := if later then found else r.found, win := if later then win else r.win,
    cand0 := r.cand0.or (cand r.c), cand1 := r.cand1.or (cand (r.c + 1)), lost := r.lost.erase child, heard := true }

/-- A standby root that has every report goes on as the old root (R288): this package receives the release of the latest phase where it
has not seen it. -/
def rebuilt (s : State) (n : PhName) : State :=
  match phRoot s n with
  | none => s
  | some r =>
    if !r.lost.isEmpty then s
    else
      let behind := match phNode s n with
        | none => false
        | some x => !phaseLe r.c x.seen
      let rel : List PhRelease := if behind then [⟨r.c - 1, s.podTime, 0, false, false, r.found, r.win, degraded s n⟩] else []
      setRoot s n { r with unsent := r.unsent ++ rel }

/-- `TETHER_COUNT_MESSAGE` (R286, R289, R293): a message of another child of a pod-wide phaser's root. The first registration makes the
root; one of another KIND or ROOT leaves its package's members out. -/
def execTetherCountMessage (node child : Nat) (m : TetherMsg) (s : State) : Out :=
  if child = s.pkg ∨ !isPod m.name then .next s
  else
    match m.what, phRoot s m.name with
    | .join any ix, none =>
      .next (if node = ix then toRoot (setRoot s m.name (PhRoot.fresh any ix)) m.name (.join child) else s)
    | .join any ix, some r =>
      .next (if r.spine = node ∧ r.anyOf = any ∧ r.rootIx = ix then toRoot s m.name (.join child) else s)
    | .totals k, some r =>
      .next (if r.spine = node then toRoot s m.name (.totals child m.leaf m.phase (kidOf k) k.cand0 k.cand1) else s)
    | .report found win k, some r =>
      .next (if r.spine = node then rebuilt (setRoot s m.name (r.report child m.leaf m.phase found win (kidOf k) k.cand0 k.cand1)) m.name else s)
    | .totals _, none => .next s
    | .report _ _ _, none => .next s

/-- `RELEASE_RECEIPT` (R298): a release from a root; one that the node has seen changes nothing. -/
def execReleaseReceipt (m : Release) (s : State) : Out :=
  match phNode s m.name with
  | none => .next s
  | some x =>
    if phaseDone x.seen m.phase then .next s
    else
      let s := match phRoot s m.name with
        | none => s
        | some r => if phaseDone r.c m.phase then s
          else setRoot s m.name { r.toward (m.phase + 1) with found := m.found, win := m.win }
      .next (receiveRelease s m.name
        ⟨m.phase, m.base.toNat, m.window, m.late, m.window != 0 || m.late || decide (s.podTime < m.base.toNat), m.found, m.win, m.skewed⟩)

/-- A phase is released to waiters here (R298): its release has reached the node and does not wait for its time. -/
def PhNode.open_ (x : PhNode) (a : Word) : Bool := phaseDone x.seen a && !(x.pending.any fun p => p.1.phase == a)

/-- One phase is released: the record is of the latest. -/
def PhNode.release (x : PhNode) (p : PhRelease × Nat × Bool) : PhNode :=
  if phaseDone x.released p.1.phase then x
  else { x with released := p.1.phase + 1, late := p.1.late, skew := p.2.2, found := p.1.found, win := p.1.win }

/-- `PACKAGE_RELEASE` (R298): every release whose time has come frees its waiters. -/
def execPackageRelease (name : PhName) (s : State) : Out :=
  match phNode s name with
  | none => .next s
  | some x =>
    let now := x.pending.filter fun p => decide (p.2.1 ≤ s.podTime)
    .next (setNode s name (now.foldl PhNode.release { x with pending := x.pending.filter fun p => !decide (p.2.1 ≤ s.podTime) }))

/-! ### Words -/

/-- The operands of a phaser word as one lane's: A and B of the counts of words given, or those of the operand log (R128). -/
def phLane (s : State) (act : LaneMask) (na : Nat) (a : Operand) (nb : Nat) (b : Operand) : LogLane :=
  match s.th.grp.replay.bind fun w => w.lanes.head? with
  | some x => x
  | none =>
    let l := lowLane act
    let rd (n : Nat) (o : Operand) : DWord := if n = 0 then 0 else if n = 1 then (opnd32 s l o).setWidth 64 else opnd64 s l o
    { lane := l, addr := 0, a := rd na a, b := rd nb b, data := 0, addrMark := false,
      dataMark := s.th.marked l na a || s.th.marked l nb b }

/-- A refused phaser word raises PROT (R205). -/
def phRefuse (s0 s : State) (i : Instr) (hd : Hdr) (act : LaneMask) (x : LogLane) : Out :=
  protWord s0 s x.lane (logOf i hd s.th act (laneBit x.lane) [x])

/-- A handle of the issuing workgroup. -/
def handleOf (s : State) (h : Nat) : Option PhHandle := lookupBy h s.wg.phs

/-- A handle as a word of the issuing agent reads it (R61). -/
def handleAt (s : State) (h : Nat) : Option PhHandle :=
  (s.th.before fun w => (match w with | .ph m x => if m = h then some x else none | _ => none)).getD (handleOf s h)

/-- The member that a handle is. -/
def memberOf (s : State) (h : Nat) : Nat × Nat × Nat := (s.wg.ctx, s.wg.wgl, h)

/-- A member has an earlier signal held (R295). -/
def heldBefore (s : State) (m : Nat × Nat × Nat) : Bool := s.tether.held.any fun x => x.member == m

/-- Send what a member signals, or hold it in the die node (R200, R295). -/
def sendOrHold (s : State) (m : Nat × Nat × Nat) (n : PhName) (a : PhArrival) (bound : Option (Nat × DWord)) (tags : List Nat) : State :=
  let ready := match bound with
    | none => true
    | some (tl, target) => decide (target.toNat ≤ (s.wg.tl tl).value.toNat)
  if ready && tags.isEmpty && !heldBefore s m then toRoot s n a
  else s.setTether { s.tether with held := s.tether.held ++ [⟨s.th.ident.die, m, n, a, bound, tags⟩] }

/-- The die node of the issuer holds 64 signals (R290). -/
def holdFull (s : State) : Bool :=
  decide (64 ≤ (s.tether.held.filter fun x => x.die == s.th.ident.die && x.bound.isSome).length)

/-- A signalling word signals by a handle (R200): the member's phase with its candidate, held or not, and the member's next phase. None
while it is one phase ahead of what its package node has seen, or, with a binding, while the die node has no entry for it (R290). -/
def signalBy (s : State) (x : Option PhHandle) : Wait → Option (State × List Wr)
  | .signal h d act cand bound tags drops =>
    match x with
    | none => some (s, [])
    | some ph =>
      match phNode s ph.name with
      | none => some (s, [])
      | some node =>
        if ph.sigph = node.seen + 2 || (bound.isSome && holdFull s) then none
        else
          let t := sendOrHold s (memberOf s h) ph.name (.signal ph.sigph cand) bound (tags.filter s.th.fabric.contains)
          let t := if (handleOf t h).isNone then t
            else { t with wg := { t.wg with phs := putBy h { ph with sigph := ph.sigph + 1 } t.wg.phs } }
          some (t, keepOthers drops (laneWrites act 1 d (fun _ => ph.sigph.setWidth 64) fun _ => false))
  | _ => none

/-- A signalling word that waits looks again. -/
def signalDone (s : State) (w : Wait) : Option (State × List Wr) :=
  match w with
  | .signal h _ _ _ _ _ _ => signalBy s (handleOf s h) w
  | _ => none

/-- A signalling word (R200): PHSIG, PHSIGB and PHANY with or without a binding. One that cannot signal yet waits (R61, R429). -/
def signalWord (i : Instr) (hd : Hdr) (h : Nat) (d : Operand) (any : Bool) (scope : Scope) (bind : Option Nat)
    (na : Nat) (a : Operand) (nb : Nat) (b : Operand) (s : State) : Out :=
  issue i (usesOr i d) [] hd s fun act s' =>
    if act = 0 then .next (s'.setTh (advance s'.th))
    else
      let x := phLane s' act na a nb b
      match handleAt s' h with
      | none => phRefuse s s' i hd act x
      | some ph =>
        match phNode s' ph.name with
        | none => phRefuse s s' i hd act x
        | some node =>
          if ph.mode = .wait ∨ (any ∧ ph.mode ≠ .any) then phRefuse s s' i hd act x
          else
            let cand : Option Cand := if any then some ⟨x.a.setWidth 32, s'.pkg, s'.th.ident.die, s'.wg.wgl⟩ else none
            let d' := if d.isZero then .c 0 else d
            let w := Wait.signal h d' act cand (bind.map fun tl => (tl, x.b)) (releaseTags s'.th scope) []
            if ph.sigph != node.seen + 2 && bind.isSome && holdFull s' then .next s
            else match signalBy s' (some ph) w with
            | some (t, ws) => .next (t.setTh (advance (noteLane (deliver hd ws t.th) x)))
            | none => .next (s'.setTh (advance (openKept hd w (logOf i hd s'.th act 0 [x]) (noteLane s'.th x))))

/-- `PHSIG` (R200). -/
def execPhsig (x : Ph) (d : Operand) (scope : Scope) (s : State) : Out :=
  signalWord (.phsig x d scope) x.hd x.x.toNat d false scope none 0 d 0 d s

/-- `PHSIGB` (R200). -/
def execPhsigb (x : Ph) (d : Operand) (tl : BitVec 3) (b : Operand) (s : State) : Out :=
  signalWord (.phsigb x d tl b) x.hd x.x.toNat d false .pd (some tl.toNat) 0 d 2 b s

/-- `PHANY` (R200). -/
def execPhany (x : Ph) (d a : Operand) (s : State) : Out :=
  signalWord (.phany x d a) x.hd x.x.toNat d true .tr none 1 a 0 d s

/-- `PHANY.bind` (R200). -/
def execPhanyBind (x : Ph) (d a : Operand) (tl : BitVec 3) (b : Operand) (s : State) : Out :=
  signalWord (.phanyBind x d a tl b) x.hd x.x.toNat d true .pd (some tl.toNat) 1 a 2 b s

/-- A held signal may leave (R295): its counter has reached the target and its fabric writes are acknowledged. -/
def heldReady (s : State) (x : Held) : Bool :=
  x.tags.isEmpty && match x.bound with
    | none => true
    | some (tl, target) =>
      match getWg s x.member.1 x.member.2.1 with
      | none => true
      | some g => decide (target.toNat ≤ (g.tl tl).value.toNat)

/-- `BOUND_SIGNAL_RELEASE` (R295): signal i of a die node leaves when it may and no earlier one of its member is held. -/
def execBoundSignalRelease (die i : Nat) (s : State) : Out :=
  match (s.tether.held.filter fun x => x.die == die)[i]? with
  | none => .next s
  | some x =>
    if !heldReady s x || (s.tether.held.find? fun y => y.member == x.member) != some x then .next s
    else .next (toRoot (s.setTether { s.tether with held := s.tether.held.erase x }) x.name x.what)

/-- The first registration makes the root, with this package's KIND and ROOT (R289). -/
def withRoot (s : State) (n : PhName) (x : PhNode) : State :=
  if (phRoot s n).isSome then s else setRoot s n (PhRoot.fresh x.anyOf x.rootIx)

/-- A member's registration goes to the root, which answers at the end of its node cycle (R198, R285, R292); the member counts against
MAXMEM. -/
def askRoot (s : State) (n : PhName) (x : PhNode) (m : Nat × Nat × Nat) (mode : PhMode) : State :=
  let s := toRoot (withRoot (setNode s n { x with members := x.members + 1 }) n x) n (.register m (mode != .wait))
  s.setTether { s.tether with joining := s.tether.joining ++ [⟨s.th.agent, m, n, mode, none⟩] }

/-- The registration of a member that is under way. -/
def joiningOf (s : State) (m : Nat × Nat × Nat) : Option Joining := s.tether.joining.find? fun j => j.member == m

/-- A registration is over. -/
def endJoining (s : State) (m : Nat × Nat × Nat) : State :=
  s.setTether { s.tether with joining := s.tether.joining.filter fun j => !(j.member == m) }

/-- The phaser of this package has another KIND or ROOT than its root (R198, R289). -/
def kindMismatch (s : State) (n : PhName) (x : PhNode) : Bool :=
  isPod n && (phRoot s n).any fun r => r.anyOf != x.anyOf || r.rootIx != x.rootIx

/-- The status of a registration (R198), checked in the order of the table. -/
def phregStatus (s : State) (h : Nat) (name : Word) (mode : PhMode) : Nat :=
  match phName name with
  | none => 1
  | some n =>
    match phNode s n with
    | none => 2
    | some x =>
      if x.ctx ≠ s.wg.ctx then 2
      else if (mode == .any) != x.anyOf && mode != .wait || kindMismatch s n x then 3
      else if x.maxmem ≤ x.members then 4
      else if (handleAt s h).isSome then 5
      else 0

/-- The mode of a code (R197). -/
def phMode (m : BitVec 2) : PhMode :=
  match m.toNat with
  | 0 => .sig
  | 1 => .wait
  | 2 => .sigwait
  | _ => .any

/-- A PHREG completes with its answer (R198): the handle is bound, with the first phase as SIGPH. -/
def bindHandle (hd : Hdr) (h : Nat) (d : Operand) (act : LaneMask) (n : PhName) (mode : PhMode) (first : Word) (s : State) : State :=
  let ws := laneWrites act 2 d (fun _ => first ++ 0#32) fun _ => false
  let t := writeSlots hd [.ph h (handleOf s h)] [.ph h (some ⟨n, mode, first, first⟩)] ws (endJoining s (memberOf s h))
  t.setTh (advance t.th)

/-- `PHREG` (R198): it sends its registration, and completes when the root has answered. The first phase that a refused registration
returns is stated nowhere: a free value. -/
def execPhreg (x : Ph) (d a : Operand) (mode : BitVec 2) (s : State) : Out :=
  issue (.phreg x d a mode) (Instr.phreg x d a mode).uses [] x.hd s fun act s' =>
    if act = 0 then .next (s'.setTh (advance s'.th))
    else
      let s' := s'.setTh (noteWord s'.th (.phreg x d a mode) act)
      let name := opnd32 s' (lowLane act) a
      let n := (phName name).getD (.pkg 0)
      let m := phMode mode
      let h := x.x.toNat
      match joiningOf s' (memberOf s' h) with
      | some j =>
        if j.agent = s'.th.agent ∧ j.name = n ∧ j.mode = m then
          match j.first with
          | some first => .next (bindHandle x.hd h d act n m first s')
          | none => .next s
        else .next s
      | none =>
        let st := phregStatus s' h name m
        if st ≠ 0 then
          let j := Config.freeWord s'.free
          let ws := laneWrites act 2 d (fun _ => j ++ BitVec.ofNat 32 st) fun _ => false
          .next ({ s' with free := s'.free + 1 }.setTh (advance (deliver x.hd ws s'.th)))
        else
          match phNode s' n with
          | none => .next s
          | some node => .next (askRoot s n node (memberOf s' h) m)

/-- A member leaves its phaser (R199, R331). -/
def dropMember (s : State) (die : Nat) (m : Nat × Nat × Nat) (ph : PhHandle) (tags : List Nat) : State :=
  let s := match phNode s ph.name with
    | none => s
    | some x => setNode s ph.name { x with members := x.members - 1 }
  if ph.mode = .wait then s
  else if tags.isEmpty && !heldBefore s m then toRoot s ph.name (.drop ph.sigph)
  else s.setTether { s.tether with held := s.tether.held ++ [⟨die, m, ph.name, .drop ph.sigph, none, tags⟩] }

/-- `PHDROP` (R199). -/
def execPhdrop (x : Ph) (s : State) : Out :=
  issue (.phdrop x) [] [] x.hd s fun act s' =>
    if act = 0 then .next (s'.setTh (advance s'.th))
    else
      match handleAt s' x.x.toNat with
      | none => phRefuse s s' (.phdrop x) x.hd act ⟨lowLane act, 0, 0, 0, 0, false, false⟩
      | some ph =>
        let h := x.x.toNat
        let t := writeSlots x.hd [.ph h (handleOf s' h)] [.ph h none] [] (dropMember s' s'.th.ident.die (memberOf s' h) ph s'.th.fabric)
        .next (t.setTh (advance t.th))

/-- The record that PHWIN writes (R202). -/
def winRecord (x : PhNode) (phase : Word) : DWord :=
  let old := phase != x.released - 1
  let hi := x.win.pkg % 4096 + x.win.die % 4 * 2 ^ 12 + x.win.wgl % 256 * 2 ^ 14 + (if old then 2 ^ 30 else 0)
    + (if x.found then 2 ^ 31 else 0)
  let hi := if x.found then hi else (if old then 2 ^ 30 else 0)
  BitVec.ofNat 64 ((if x.found then x.win.value.toNat else 0) + hi * 2 ^ 32)

/-- A wait for a phase completes (R202): an acquire, and for PHWIN the record. -/
def phDone (s : State) : Wait → Option (State × List Wr)
  | .ph h phase scope =>
    match (handleOf s h).bind fun p => phNode s p.name with
    | none => some (s, [])
    | some x => if x.open_ phase then some (acquire s scope, []) else none
  | .phwin h phase scope d act drops =>
    match (handleOf s h).bind fun p => phNode s p.name with
    | none => some (s, [])
    | some x =>
      if x.open_ phase then some (acquire s scope, keepOthers drops (laneWrites act 2 d (fun _ => winRecord x phase) fun _ => false))
      else none
  | _ => none

/-- The shape of PHWAIT and PHWIN (R202). -/
def phWaitWord (i : Instr) (hd : Hdr) (h : Nat) (a : Operand) (ok : PhHandle → PhNode → Bool) (w : LaneMask → Word → Wait)
    (s : State) : Out :=
  issue i i.uses [] hd s fun act s' =>
    if act = 0 then .next (s'.setTh (advance s'.th))
    else
      let x := phLane s' act 1 a 0 a
      let fine := match handleAt s' h with
        | none => false
        | some p => match phNode s' p.name with
          | none => false
          | some n => ok p n
      if !fine then phRefuse s s' i hd act x
      else
        let wait := w act (x.a.setWidth 32)
        match phDone s' wait with
        | some (t, ws) => .next (t.setTh (advance (noteLane (deliver hd ws t.th) x)))
        | none => .next (s'.setTh (advance (openKept hd wait (logOf i hd s'.th act 0 [x]) (noteLane s'.th x))))

/-- `PHWAIT` (R202). -/
def execPhwait (x : Ph) (a : Operand) (scope : Scope) (s : State) : Out :=
  phWaitWord (.phwait x a scope) x.hd x.x.toNat a (fun p _ => p.mode != .sig) (fun _ ph => .ph x.x.toNat ph scope) s

/-- `PHWIN` (R202): on an any-of phaser, in mode `wait` or `any`. -/
def execPhwin (x : Ph) (d a : Operand) (scope : Scope) (s : State) : Out :=
  phWaitWord (.phwin x d a scope) x.hd x.x.toNat a (fun p n => n.anyOf && (p.mode == .wait || p.mode == .any))
    (fun act ph => .phwin x.x.toNat ph scope d act []) s

/-- The wait is for a phase. -/
def Wait.isPh : Wait → Bool
  | .ph _ _ _ => true
  | .phwin _ _ _ _ _ _ => true
  | _ => false

/-- A wait has completed; a result waits until its window has closed (R61). -/
def waitOver (s : State) (i : Nat) (p : Pend) (ws : List Wr) : State :=
  if p.left = 0 ∨ ws.isEmpty then (s.setTh { s.th with pend := retirePend s.th.pend i p.lanes ws }).writes ws
  else s.setTh { s.th with pend := setAt s.th.pend i { p with owed := .result ws [] [] } }

/-- `PHWAIT_RELEASE` (R202): the wait completes; a result waits until its window has closed (R61). -/
def execPhwaitRelease (r : SubRef) (s : State) : Out :=
  asAgent s (refAgent r) fun s =>
    match findPend s.th r.lane (Pend.waitsFor Wait.isPh) with
    | none => .next s
    | some (i, p) =>
      match p.owed with
      | .result _ _ _ => .next s
      | .wait w =>
        match phDone s w with
        | none => .next s
        | some (s, ws) => .next (waitOver s i p ws)

/-- An access to another package under a tag is not over. -/
def tagOut (s : State) (t : Nat) : Bool :=
  ((s.th :: s.threads).any fun th => th.fabric.contains t || th.pend.any fun p => match p.owed with
    | .wait _ => false
    | .result _ aw _ => aw.any fun a => a.tag == t)
    || ((allWgs s).any fun g => g.mq.any fun x => x.remote.contains t) || (s.colls.any fun x => x.remote.contains t)
    || (s.host.front.any fun e => e.1 == t) || s.queues.any fun q => match q.2.cmd with
      | some (_, .sent n) => n == t
      | _ => false

/-- Something that a PGGEN waits for is not over (R353). -/
def Older.left (s : State) (o : Older) : Bool :=
  o.tags.any (tagOut s)
    || (o.cmds.any fun c => (s.core c.1).copyq.any fun x => x.id == c.2)
    || (o.assists.any fun w => (getWg s w.1 w.2).any fun g => g.mq.any fun x => x.phase == .assist || x.phase == .assistWait)
    || (o.colls.any fun c => s.colls.any fun x => (x.ctx, x.num, x.me) == c && x.phase == .running) || decide (s.host.done < o.hosts)

/-- A PGGEN completes (R353): its completion acquires at package scope. -/
def genDone (s : State) : Wait → Option (State × List Wr)
  | .gen x d act mark o =>
    if o.left s then none else some (acquire s .pk, laneWrites act 1 d (fun _ => x.setWidth 64) fun _ => mark)
  | _ => none

/-- The word that completes without another step's name: FENCE, a signalling word, or PGGEN (R117, R200, R217). -/
def Wait.isPlain : Wait → Bool
  | .gen _ _ _ _ _ => true
  | .fence _ _ => true
  | .signal _ _ _ _ _ _ _ => true
  | _ => false

/-- What completes a FENCE, a signalling word or a PGGEN, with the results that it writes; none while it waits. -/
def plainDone (s : State) (w : Wait) : Option (State × List Wr) :=
  match fenceDone s w, genDone s w with
  | some u, _ => some (u, [])
  | none, some r => some r
  | none, none => signalDone s w

/-- `LONG_LATENCY_RESULT` (R61): a result whose window has closed is written; a word that another package has refused faults (R414); a
FENCE, a signalling word or a PGGEN completes (R117, R200, R217). -/
def execLongLatencyResult (r : SubRef) (s : State) : Out :=
  asAgent s (refAgent r) fun s =>
    match findPend s.th r.lane fun p => p.due || p.refused || p.waitsFor Wait.isPlain with
    | none => .next s
    | some (i, p) =>
      match p.owed, p.check with
      | .result _ _ _, some w => takeRefusal s i p w
      | .result _ _ _, none => writeDue s i p
      | .wait w, _ =>
        match plainDone s w with
        | none => .next s
        | some (u, ws) => .next (waitOver u i p ws)

/-- The code of a mode (R197, R203). -/
def PhMode.code : PhMode → Nat
  | .sig => 0
  | .wait => 1
  | .sigwait => 2
  | .any => 3

/-- The status word of PHTEST (R203). -/
def phStatus (s : State) (h : Nat) (phase : Word) : Word :=
  match handleAt s h with
  | none => 0
  | some p =>
    match phNode s p.name with
    | none => 0
    | some x =>
      let bit (b : Bool) (n : Nat) : Nat := if b then 2 ^ n else 0
      let pending := match phRoot s p.name with
        | none => 0
        | some r => min (r.counts.2 - r.counts.1) (2 ^ 24 - 1)
      let timed := (phRoot s p.name).any fun r => r.time.isSome
      BitVec.ofNat 32 (bit (x.open_ phase) 0 + bit x.late 1 + bit x.skew 2 + bit x.found 3 + bit true 4 + bit timed 5
        + p.mode.code * 64 + pending * 256)

/-- `PHTEST` (R203). -/
def execPhtest (x : Ph) (d a : Operand) (s : State) : Out :=
  issue (.phtest x d a) (Instr.phtest x d a).uses [] x.hd s fun act s =>
    let v := phStatus s x.x.toNat (opnd32 s (lowLane act) a)
    let ws := laneWrites act 1 d (fun _ => v.setWidth 64) fun _ => s.th.marked (lowLane act) 1 a
    .next (s.setTh (advance (deliver x.hd ws (noteWord s.th (.phtest x d a) act))))

/-- `PHTIME` (R204). -/
def execPhtime (x : Ph) (a b : Operand) (s : State) : Out :=
  issue (.phtime x a b) (Instr.phtime x a b).uses [] x.hd s fun act s' =>
    if act = 0 then .next (s'.setTh (advance s'.th))
    else
      let l := phLane s' act 2 a 1 b
      match handleAt s' x.x.toNat with
      | none => phRefuse s s' (.phtime x a b) x.hd act l
      | some p =>
        let t := toRoot s' p.name (.time l.a (l.b.toNat % 65536))
        .next (t.setTh (advance (noteLane t.th l)))

/-! ### PHSEL and PHDESC -/

/-- The phaser that PHSEL selects (R289). -/
def selName (x : Word) : PhName := if x.getLsbD 12 then .pod (x.toNat % 256) else .pkg (x.toNat % 4096)

/-- PHDESC refuses a write (R289). -/
def refuseDesc (s : State) : State := s.setTether { s.tether with refused := true }

/-- KIND, CTX, MAXMEM and ROOT of a write of PHDESC (R289). -/
def PhDesc.of (v : Nat) : PhDesc :=
  let m := bitsN v 22 9
  ⟨bitsN v 1 1 == 1, bitsN v 8 2, if m = 0 ∨ 12288 < m then 12288 else m, bitsN v 28 23⟩

/-- Create a phaser, or change CTX, MAXMEM and ROOT of one (R289), whose KIND stays; a pod-wide one goes on where its root is. -/
def createPhaser (s : State) (n : PhName) (d : PhDesc) : State :=
  match phNode s n with
  | some x =>
    if x.anyOf = d.anyOf then setNode s n { x with ctx := d.ctx, maxmem := d.maxmem, rootIx := d.rootIx } else refuseDesc s
  | none =>
    let x := PhNode.fresh d
    let x := match phRoot s n with
      | none => x
      | some r => { x with own := tget Kid.zero r.kids s.pkg, seen := r.c, released := r.c }
    let s := setNode s n x
    if isPod n then s else setRoot s n (PhRoot.fresh d.anyOf 0)

/-- A clear of REFUSED by a write of 1 (R4, R289). -/
def clearRefused (s : State) (v : Word) : State :=
  if v.getLsbD 31 then s.setTether { s.tether with refused := false } else s

/-- `PHDESC_CREATE`: a write of PHDESC with VALID set (R289). -/
def execPhdescCreate (value : Word) (s : State) : Out :=
  let s := clearRefused s value
  .next (createPhaser s (selName s.tether.phsel) (PhDesc.of value.toNat))

/-- Destroy a phaser (R289); PHDESC keeps these fields. The root of a pod-wide phaser goes on while other packages have members. -/
def destroyPhaser (s : State) (n : PhName) (d : PhDesc) : State :=
  let t := s.tether
  endRoot (s.setTether { t with
    nodes := dropBy n t.nodes, roots := if isPod n then t.roots else dropBy n t.roots, descs := putBy n d t.descs }) n

/-- A launch's phaser is destroyed with it (R331). -/
def destroyPhreq (s : State) (n : PhName) : State :=
  match phNode s n with
  | none => s
  | some x => destroyPhaser s n ⟨x.anyOf, x.ctx, x.maxmem, x.rootIx⟩

/-- `PHDESC_DESTROY`: a write of PHDESC with VALID clear (R289), refused while a handle is bound or with another KIND than PHDESC holds;
where no phaser is, CTX, MAXMEM and ROOT are stored. -/
def execPhdescDestroy (value : Word) (s : State) : Out :=
  let s := clearRefused s value
  let n := selName s.tether.phsel
  match phNode s n with
  | none =>
    .next (if value.getLsbD 1 != ((lookupBy n s.tether.descs).getD PhDesc.reset).anyOf then refuseDesc s
      else s.setTether { s.tether with descs := putBy n (PhDesc.of value.toNat) s.tether.descs })
  | some x =>
    if x.members = 0 ∧ value.getLsbD 1 = x.anyOf then .next (destroyPhaser s n (PhDesc.of value.toNat)) else .next (refuseDesc s)

/-! ### Ports, roots and time -/

/-- Every pod-wide phaser's root takes the package's totals again and what has waited for the link (R287). -/
def resendAll (s : State) : State :=
  let pods := (s.tether.roots.filter fun r => isPod r.1 && r.2.lost.isEmpty).map Prod.fst
  if !(if s.tether.active then s.tether.up1 else s.tether.up0) then s
  else pods.foldl (fun s n => match phRoot s n with
    | none => s
    | some r => setRoot s n (sendOwn s n r)) s

/-- The package node takes a port into use (R287, R297). -/
def usePort (s : State) (p : Bool) : State :=
  if s.tether.active = p then s
  else resendAll (s.setTether { s.tether with active := p, failovers := min (s.tether.failovers + 1) 255 })

/-- UP0 or UP1 of TETHSTAT (R297). -/
def Tether.setUp (t : Tether) (port up : Bool) : Tether := if port then { t with up1 := up } else { t with up0 := up }

/-- A port loses its link; with AUTOFAIL the node leaves the one in use (R287, R297). -/
def portLost (s : State) (port : Bool) : State :=
  let u := logFault (s.setTether (s.tether.setUp port false)) 7 1 0 (if port then 1 else 0) 0
  if s.tether.autofail && port == s.tether.active then usePort u (!s.tether.active) else u

/-- `TETHER_PORT_FAILOVER`: the port in use has lost its link (R287, R297). -/
def execTetherPortFailover (s : State) : Out := .next (portLost s s.tether.active)

/-- `TETHCFG_ACTIVE_WRITE` (R297). -/
def execTethcfgActiveWrite (port : Bool) (s : State) : Out := .next (usePort s port)

/-- `TETHER_PORT_LINK_UP`: the link of a port is regained, or the one of a port that is not in use is lost (R287, R297). -/
def execTetherPortLinkUp (link : TetherLink) (s : State) : Out :=
  .next (if link.up then resendAll (s.setTether (s.tether.setUp link.port true)) else portLost s link.port)

/-- `LEAF_ROOT_FAILOVER` (R288): the phaser's messages go to the standby root, which awaits the reports of the packages with members and
of this one. The last PHTIME stays with the phase. -/
def execLeafRootFailover (loss : RootLoss) (s : State) : Out :=
  if !isPod loss.name then .next s
  else
    match phRoot s loss.name with
    | none => .next s
    | some r =>
      let joined := (r.kids.filter fun k => k.1 != s.pkg && decide (0 < k.2.e0 + k.2.e1 + k.2.later)).map Prod.fst
      let lost := joined ++ if (phNode s loss.name).isSome then [s.pkg] else []
      .next (setRoot s loss.name { r with
        spine := loss.standby, kids := if lost.isEmpty then r.kids else [], cand0 := none, cand1 := none, unsent := [], lost := lost, heard := false })

/-- `ROOTLOST` (R288): the package node counts the change and reports to the standby root: C as it has seen it with the record of that
phase, its totals, and its candidates that are not answered. -/
def execRootlost (name : PhName) (s : State) : Out :=
  match phNode s name with
  | none => .next s
  | some x =>
    if !isPod name then .next s
    else
      let s := s.setTether { s.tether with rootfails := min (s.tether.rootfails + 1) 15 }
      match phRoot s name with
      | none => .next s
      | some r =>
        let last := (x.pending.find? fun p => p.1.phase + 1 == x.seen).map fun p => (p.1.found, p.1.win)
        let rec_ := last.getD (x.found, x.win)
        .next (rebuilt (setRoot s name (r.report s.pkg (Config.leafOf s.tether.active) x.seen rec_.1 rec_.2 x.own (lookupBy x.seen x.fwd) (lookupBy (x.seen + 1) x.fwd))) name)

/-- `TETHER_CHILD_LOSS` (R288): a spine node discards the totals that came by a lost leaf node; the members stay expected, so that no phase
completes before their totals come again by the other path. -/
def execTetherChildLoss (node child : Nat) (s : State) : Out :=
  let t := s.tether
  let roots := t.roots.map fun r =>
    if isPod r.1 && r.2.spine == node then
      (r.1, (r.2.paths.filter fun p => p.2 == child + 1).foldl (fun q p => q.setKid p.1 fun k => { k with n0 := 0, n1 := 0 }) r.2)
    else r
  .next (s.setTether { t with roots := roots })

/-- `TIME_SYNC_EXCHANGE` (R296, R300): at the first lock the count steps forward or holds still; later it slews. -/
def execTimeSyncExchange (parent : DWord) (skew : Skew) (s : State) : Out :=
  let t := { s.tether with skb := skew.bound.toNat, above := skew.above }
  let p := parent.toNat
  if t.locked then .next (s.setTether { t with slew := (p : Int) - s.podTime })
  else if s.podTime ≤ p then .next { s.setTether { t with locked := true } with podTime := p }
  else .next (s.setTether { t with locked := true, ahead := s.podTime - p })

/-! ### CWAIT -/

/-- The troupes of a workgroup that have waited at the Curtain or ended; with all of them the start credit is spent (R339). -/
def creditTroupe (s : State) (c w t : Nat) : State :=
  match getWg s c w, getCx s c with
  | some g, some x =>
    let m := g.credited ||| laneBit t
    let all := (List.range g.troupes).all fun i => m.getLsbD i
    let s := putWg s { g with credited := m, credit := g.credit || all }
    if all && !g.credit then setOpen s x (x.open_ - 1) else s
  | _, _ => s

/-- A CWAIT completes (R174, R339, R340). -/
def cwaitDone (s : State) : Wait → Option State
  | .cwait scope =>
    if scope = .pd then
      match phNode s (.pod s.cx.pcurt) with
      | none => none
      | some x => if x.open_ 0 then some (acquire s scope) else none
    else if !s.cx.dynamic || (s.cx.quiet && s.cx.open_ == 0) then some (acquire s scope) else none
  | _ => none

/-- `CWAIT` (R174, R339, R340). -/
def execCwait (hd : Hdr) (scope : Scope) (s : State) : Out :=
  issue (.cwait hd scope) [] [] hd s fun act s' =>
    if act = 0 then .next (s'.setTh (advance s'.th))
    else if scope = .pd ∧ !s'.cx.cen then phRefuse s s' (.cwait hd scope) hd act ⟨lowLane act, 0, 0, 0, 0, false, false⟩
    else
      let t := creditTroupe s' s'.wg.ctx s'.wg.wgl s'.th.agent.troupeNo
      match cwaitDone t (.cwait scope) with
      | some t => .next (t.setTh (advance t.th))
      | none => .next (t.setTh (advance (openWait hd (.cwait scope) t.th)))

/-- The wait is a CWAIT's. -/
def Wait.isCwait : Wait → Bool
  | .cwait _ => true
  | _ => false

/-- `CWAIT_RELEASE` (R174). -/
def execCwaitRelease (r : SubRef) (s : State) : Out := releaseWait r Wait.isCwait cwaitDone s

/-- The package's registration with a phaser is on its way to the root (R340). -/
def joinsYet (s : State) (n : PhName) : Bool := (phRoot s n).any fun r => r.inbox.any fun a => a.2 == .join s.pkg

/-- `CURTAIN_QUIESCENT` (R339, R340): with O = 0 the report is made, and once the package signals phase 0 of PCURT, behind its
registration. -/
def execCurtainQuiescent (ctx : Nat) (s : State) : Out :=
  match getCx s ctx with
  | none => .next s
  | some x =>
    if x.open_ ≠ 0 ∨ !x.dynamic then .next s
    else
      let signals := x.cen && !x.podQuiet && !joinsYet s (.pod x.pcurt)
      let s := putCx s { x with quiet := true, podQuiet := x.podQuiet || signals }
      .next (if signals then toRoot s (.pod x.pcurt) (.signal 0 none) else s)

end Sys2Proof.Machine
end

