-- ==== Sys2Proof/Machine/Coll.lean ====
section
/-!
DEFINITION. Collectives described as layout pairs (R208, R209, R366-R378): the derivation of the exchange, the order of the ring,
re-stitching and completion.
-/

namespace Sys2Proof.Machine

/-! ### The mesh descriptor -/

/-- The extent of mesh axis a (R366). -/
def meshExt (m a : Nat) : Nat := bitsN m (12 * a + 11) (12 * a)

/-- The layout code of a tensor dimension in SSPEC (128) or DSPEC (143) (R366). -/
def meshCode (m at_ d : Nat) : Nat := bitsN m (at_ + 3 * d + 2) (at_ + 3 * d)

/-- PART names axis a (R366). -/
def meshPart (m a : Nat) : Bool := bitsN m (158 + a) (158 + a) == 1

/-- The number of members (R366). -/
def meshCount (m : Nat) : Nat := ((List.range 4).map (meshExt m)).prod

/-- The descriptor breaks the table of R366. -/
def meshBad (m : Nat) : Bool :=
  ((List.range 4).any fun a => meshExt m a == 0 || (decide (bitsN m 49 48 < a) && meshExt m a != 1))
    || bitsN m 63 53 != 0 || bitsN m 127 121 != 0 || bitsN m 511 162 != 0 || bitsN m 120 64 % 4 != 0
    || decide (4096 < meshCount m)
    || (List.range 5).any fun d => [128, 143].any fun at_ => decide (4 ≤ meshCode m at_ d) && meshCode m at_ d != 7

/-- The coordinate of member i on axis a, axis 0 fastest (R366). -/
def meshCoord (m i a : Nat) : Nat := i / ((List.range a).map (meshExt m)).prod % meshExt m a

/-- The tensor dimensions that a layout maps to axis a (R368). -/
def dimsOn (m at_ a : Nat) : List Nat := (List.range 5).filter fun d => meshCode m at_ d == a

/-- The exchange of R368, or none for a layout pair that matches no row. -/
def deriveExchange (m : Nat) : Option Exchange :=
  let src (a : Nat) : List Nat := dimsOn m 128 a
  let dst (a : Nat) : List Nat := dimsOn m 143 a
  let parts := (List.range 4).filter (meshPart m)
  match (List.range 4).filter fun a => src a != dst a || meshPart m a with
  | [] => some .localCopy
  | [a] =>
    match parts, src a, dst a with
    | [_], [], [d] => some (.reduceScatter a d)
    | [_], [], [] => some (.allReduce a)
    | [], [d], [] => some (.allGather a d)
    | [], [d], [e] => some (.allToAll a d e)
    | _, _, _ => none
  | [a, b] =>
    if parts.isEmpty && meshExt m a == meshExt m b then
      match src a, dst a, src b, dst b with
      | [d], [], [], [e] => if d = e then some (.permute a b) else none
      | [], [d], [e], [] => if d = e then some (.permute b a) else none
      | _, _, _, _ => none
    else none
  | _ => none

/-- The extent of the axis that a layout shards dimension d over; 1 where it is not sharded (R367). -/
def shardExt (m at_ d : Nat) : Nat := if meshCode m at_ d < 4 then meshExt m (meshCode m at_ d) else 1

/-- The records and OP break R367. -/
def collFormatBad (m : Nat) (src dst : TRecord) (op : Nat) : Bool :=
  recFmt src != recFmt dst
    || ((List.range 5).any fun d => recDim src d * shardExt m 128 d != recDim dst d * shardExt m 143 d)
    || (if bitsN m 161 158 = 0 then op != 7 else decide (6 < op) || !reduceAccepts op (recFmt src))

/-- The members of the group of member i, by position (R368). -/
def ringGroup (m i : Nat) (x : Exchange) : List Nat :=
  let same (axes : List Nat) (j : Nat) : Bool :=
    (List.range 4).all fun a => axes.contains a || meshCoord m i a == meshCoord m j a
  let all (axes : List Nat) : List Nat := (List.range (meshCount m)).filter (same axes)
  match x with
  | .reduceScatter a _ => all [a]
  | .allReduce a => all [a]
  | .allGather a _ => all [a]
  | .allToAll a _ _ => all [a]
  | .permute a b =>
    (List.range (meshExt m a * meshExt m b)).filterMap fun p =>
      (all [a, b]).find? fun j => meshCoord m j a == p % meshExt m a && meshCoord m j b == p / meshExt m a
  | .localCopy => [i]

/-! ### Shards -/

/-- The number of units of a record: elements, or blocks of a BX format. -/
def shardUnits (r : TRecord) : Nat := dimBelow r 5 / unitElems (recFmt r)

/-- The coordinates of a unit of a record. -/
def unitCoord (r : TRecord) (u : Nat) : List Nat :=
  (List.range 5).map fun d => u * unitElems (recFmt r) / dimBelow r d % recDim r d

/-- The bytes of a unit, without its scale. -/
def unitSize (r : TRecord) : Nat := unitElems (recFmt r) * elemBits (recFmt r) / 8

/-- The 256-byte block of the destination that a unit lies in; 64 blocks are a chunk (R372). -/
def unitBlock (r : TRecord) (u : Nat) : Nat := u * unitSize r / 256

/-- The ranges of memory of the unit at given coordinates (R135). -/
def unitMem (r : TRecord) (pos : List Nat) : List (Nat × Nat) :=
  (elemAddr r pos, unitSize r) :: (if isBx (recFmt r) then [(recScale r + 2 * blockNo r pos, 2)] else [])

/-- Change one coordinate. -/
def moveCoord (pos : List Nat) (d : Nat) (f : Nat → Nat) : List Nat := pos.set d (f ((pos[d]?).getD 0))

/-- The segment of a unit of the destination at position t (R369); for a copy, the position that it comes from. The segments
of an all-reduce cut the destination's units into n even runs. -/
def Coll.segOf (x : Coll) (t u : Nat) : Nat :=
  let pos := unitCoord x.dst u
  let n := x.group.length
  match x.exch with
  | .reduceScatter _ _ => t
  | .allReduce _ => ((u + 1) * n - 1) / shardUnits x.dst
  | .allGather _ d => (pos[d]?).getD 0 / recDim x.src d
  | .allToAll _ d _ => (pos[d]?).getD 0 / recDim x.src d
  | .permute _ _ =>
    let k := ((List.range (n + 1)).find? fun k => k * k == n).getD 1
    t / k + k * (t % k)
  | .localCopy => t

/-- The source coordinates, at position i, of a unit of the destination at position t. -/
def Coll.sourcePos (x : Coll) (i t u : Nat) : List Nat :=
  let pos := unitCoord x.dst u
  match x.exch with
  | .reduceScatter _ d => moveCoord pos d (· + t * recDim x.dst d)
  | .allReduce _ => pos
  | .allGather _ d => moveCoord pos d (· - i * recDim x.src d)
  | .allToAll _ d e => moveCoord (moveCoord pos d (· - i * recDim x.src d)) e (· + t * recDim x.dst e)
  | .permute _ _ => pos
  | .localCopy => pos

/-- The units of one block of a segment at position t. -/
def Coll.unitsOf (x : Coll) (t seg blk : Nat) : List Nat :=
  (List.range (shardUnits x.dst)).filter fun u => unitBlock x.dst u == blk && x.segOf t u == seg

/-- The segments and blocks that the destination at position t holds. -/
def Coll.pieces (x : Coll) (t : Nat) : List (Nat × Nat) :=
  ((List.range (shardUnits x.dst)).map fun u => (x.segOf t u, unitBlock x.dst u)).eraseDups

/-- The pieces that this member still owes its destination (R373): the segment of a laggard is not written from chunk Q on. -/
def Coll.missing (x : Coll) : List (Nat × Nat) :=
  (x.pieces x.pos).filter fun p => !x.got.contains p && (decide (p.2 / 64 < x.q) || x.ring.contains p.1)

/-- The completed chunks of this member, in increasing index (R372). -/
def Coll.count (x : Coll) : Nat :=
  let k := ((x.pieces x.pos).map fun p => p.2 / 64 + 1).foldl max 0
  (List.range k).foldl (fun n c => if n = c && !(x.missing.any fun p => p.2 / 64 == c) then n + 1 else n) 0

/-- The exchange combines. -/
def Exchange.reduces : Exchange → Bool
  | .reduceScatter _ _ => true
  | .allReduce _ => true
  | .allGather _ _ => false
  | .allToAll _ _ _ => false
  | .permute _ _ => false
  | .localCopy => false

/-- What is copied goes round the ring. -/
def Exchange.ringCopy : Exchange → Bool
  | .allReduce _ => true
  | .allGather _ _ => true
  | .reduceScatter _ _ => false
  | .allToAll _ _ _ => false
  | .permute _ _ => false
  | .localCopy => false

/-! ### The members of this package -/

/-- The workgroup of the issuer. -/
def Coll.wgl (x : Coll) : Nat := (x.issuer.place.map Prod.snd).getD 0

/-- The collective has not ended at its member. -/
def Coll.busy (x : Coll) : Bool := x.phase != .done

/-- The collective has been accepted and has not started (R237). -/
def Coll.waits (x : Coll) : Bool :=
  match x.phase with
  | .accepted => true
  | .page _ => x.group.isEmpty
  | .running => false
  | .failed => false
  | .done => false

/-- The workgroup of a collective is resident and issues (R243, R359): only then it starts. -/
def Coll.mayStart (s : State) (x : Coll) : Bool :=
  x.phase == .accepted && x.paid && (x.issuer.place.any fun p => (getWg s p.1 p.2).any fun g => g.core.isSome && !g.stopping)

/-- A running member's collective. -/
def runningAt (s : State) (c n m : Nat) : Option Coll :=
  s.colls.find? fun x => x.ctx == c && x.num == n && x.phase == .running && x.me == m

/-- Change a member's collective. -/
def putColl (s : State) (x : Coll) : State :=
  { s with colls := s.colls.map fun y => if y.ctx == x.ctx && y.num == x.num && y.issuer.place == x.issuer.place then x else y }

/-- The member at a position. -/
def Coll.member (x : Coll) (p : Nat) : Nat := (x.group[p]?).getD 0

/-- The next position of a ring after p, in rising order and around. -/
def ringNext (ring : List Nat) (p : Nat) : Nat :=
  match ring.find? fun q => decide (p < q) with
  | some q => q
  | none => ring.headD p

/-- The slice tree's group of a position (R370). -/
def Coll.node (x : Coll) (p : Nat) : Nat := p / 2 ^ x.local_

/-- The groups with a survivor, in order. -/
def Coll.nodes (x : Coll) : List Nat := (x.ring.map x.node).eraseDups

/-- The surviving positions of a group. -/
def Coll.inNode (x : Coll) (k : Nat) : List Nat := x.ring.filter fun p => x.node p == k

/-- The member that stands for a group: its lowest surviving one. -/
def Coll.nodeMember (x : Coll) (k : Nat) : Nat := x.member ((x.inNode k).headD 0)

/-- Every survivor of a group runs its collective in this package (R370). -/
def nodeReady (s : State) (x : Coll) (k : Nat) : Bool :=
  (x.inNode k).all fun p => (runningAt s x.ctx x.num (x.member p)).isSome

/-! ### Accesses -/

/-- A member's own part fails with a code (R375): one that has not started releases its entries (R237). -/
def failColl (s : State) (x : Coll) (code : Nat) : State :=
  let s := putColl s { x with phase := .failed, code := code }
  if x.group.isEmpty && x.paid then
    let s := s.setCore x.core (poolFree (s.core x.core) 0 3)
    { s with inputs := s.inputs ++ [Instr.poolEntryGrant x.core 0] }
  else s

/-- A member's own access is refused (R375): a PAGE fault waits for its answer, another ends its part; a collective that has not started
then releases its entries (R237). -/
def collRefused (s : State) (x : Coll) (e : EngCtx) (va : Nat) (kind : Access) (r : Refused) : State :=
  match writeFault s va e.cx.asid r 3 e.wg.ctx e.wg.wgl x.core kind with
  | none => s
  | some (id, s) =>
    if r.1 = .page then putColl s { x with phase := .page id }
    else failColl s x (refusedCode r)

/-- The places of a member's bytes; none where they are refused. -/
def collPlaces (s : State) (x : Coll) (kind : Access) (key : Option Nat) (ms : List (Nat × Nat)) :
    Option (List (Place × Nat)) × State :=
  match engCtx s x.core x.issuer with
  | none => (none, s)
  | some e =>
    match engPlaces e kind key (ms.flatMap fun m => linePieces m.1 m.2) s with
    | (.ok ps, s) => (some ps, s)
    | (.error (va, r), s) => (none, collRefused s x e va kind r)

/-- A member's own contribution to a piece at position t, with the mark of each byte (R376, R397); none while it cannot be read. -/
def ownPiece (s : State) (x : Coll) (t seg blk : Nat) : Option (List Byte × List Bool) × State :=
  let ms := (x.unitsOf t seg blk).flatMap fun u => unitMem x.src (x.sourcePos x.pos t u)
  match collPlaces s x .copyRead (some (recKey x.src)) ms with
  | (none, s) => (none, s)
  | (some ps, s) => engReadsAll x.core ps s

/-- The other survivors of the ring group. Whose completion a ticket waits for (R208), all of the mesh or those of the own ring group, is a
DESIGN CHOICE (log entry 51): those of the ring group. -/
def Coll.others (x : Coll) : List Nat := (x.ring.filter (· != x.pos)).map x.member

/-- A member may write a block: every other survivor has started (R376), and the chunks below its own are complete (R372). -/
def Coll.mayWrite (x : Coll) (blk : Nat) : Bool := x.others.all x.begun.contains && decide (blk / 64 ≤ x.count)

/-- Write a piece to a member's destination; none while it may not be written. -/
def writePiece (s : State) (x : Coll) (seg blk : Nat) (b : List Byte) (marks : List Bool) : Option State × State :=
  if !x.mayWrite blk then (none, s)
  else
  let ms := (x.unitsOf x.pos seg blk).flatMap fun u => unitMem x.dst (unitCoord x.dst u)
  match collPlaces s x .copyWrite (some (recKey x.dst)) ms with
  | (none, s) => (none, s)
  | (some ps, s) =>
    let g := ((engCtx s x.core x.issuer).map EngCtx.wg).getD Workgroup.none
    let r := writeRuns x.core g (cutRuns ps b marks) s
    let x := { x with got := if x.got.contains (seg, blk) then x.got else (seg, blk) :: x.got, remote := x.remote ++ r.1,
                      data := x.data || marks.any id }
    (some (putColl r.2 x), s)

/-- Element-wise combination of two pieces, the left operand first (R369, R141): the bytes and SAT. -/
def combinePieces (op fmt : Nat) (l r : List Byte) : List Byte × Bool :=
  let n := elemBits fmt / 8
  let es := (List.range (l.length / n)).map fun i =>
    reduceElem op fmt (ofBytes ((l.drop (n * i)).take n)) (ofBytes ((r.drop (n * i)).take n))
  (es.flatMap fun e => toBytes n e.1, es.any fun e => e.2)

/-- The marks of combined elements of n bytes: one that either operand's element has (R397). -/
def combineMarks (n : Nat) (l r : List Bool) : List Bool :=
  (List.range l.length).map fun i => ((l.drop (i / n * n)).take n).any id || ((r.drop (i / n * n)).take n).any id

/-- A value of the slice tree: bytes with their marks, and SAT; none for a position that has left the ring. -/
abbrev TreeVal := Option (List Byte × List Bool × Bool)

/-- Combine two values of the tree, the lower position on the left (R370). -/
def treePair (op fmt : Nat) : TreeVal → TreeVal → TreeVal
  | none, b => b
  | some a, none => some a
  | some a, some b =>
    let r := combinePieces op fmt a.1 b.1
    some (r.1, combineMarks (elemBits fmt / 8) a.2.1 b.2.1, a.2.2 || b.2.2 || r.2)

/-- One level of the tree. -/
def treeLevel (op fmt : Nat) : List TreeVal → List TreeVal
  | a :: b :: r => treePair op fmt a b :: treeLevel op fmt r
  | l => l

/-- L levels of the tree. -/
def treeLevels (op fmt : Nat) : Nat → List TreeVal → TreeVal
  | 0, l => l.headD none
  | n + 1, l => treeLevels op fmt n (treeLevel op fmt l)

/-- The contributions of the positions of a group. -/
def nodeValues (x : Coll) (t seg blk : Nat) : List Nat → State → Option (List TreeVal) × State
  | [], s => (some [], s)
  | p :: r, s =>
    if !x.ring.contains p then
      match nodeValues x t seg blk r s with
      | (none, s) => (none, s)
      | (some l, s) => (some (none :: l), s)
    else
      match runningAt s x.ctx x.num (x.member p) with
      | none => (none, s)
      | some y =>
        match ownPiece s y t seg blk with
        | (none, s) => (none, s)
        | (some v, s) =>
          match nodeValues x t seg blk r s with
          | (none, s) => (none, s)
          | (some l, s) => (some (some (v.1, v.2, false) :: l), s)

/-- The value that a group contributes to a segment (R369, R370). -/
def nodePiece (s : State) (x : Coll) (k seg blk : Nat) : Option (List Byte × List Bool × Bool) × State :=
  match nodeValues x seg seg blk ((List.range (2 ^ x.local_)).map fun i => k * 2 ^ x.local_ + i) s with
  | (none, s) => (none, s)
  | (some l, s) => (treeLevels x.op (recFmt x.src) x.local_ l, s)

/-! ### Messages -/

/-- A message of a member. -/
def Coll.msg (x : Coll) (from_ to_ seg blk : Nat) (part : Bool) (b : List Byte) (marks : List Bool) : CollMsg :=
  ⟨x.ctx, x.num, from_, to_, seg, blk, part, x.epoch, b, marks, none, x.gen⟩

/-- Marks as the bits of a number. -/
def markBits (l : List Bool) : Nat := l.foldr (fun b n => 2 * n + (if b then 1 else 0)) 0

/-- Put a message on its way (R277): to a member of this package, or to another as a COLLECT packet, but not toward an untrusted one (R414;
log entry 12). -/
def emitColl (s : State) (x : Coll) (m : CollMsg) : State :=
  let dst := ((x.members[m.to_]?).getD (s.pkg, 0)).1
  if dst = s.pkg then { s with collq := s.collq ++ [m] }
  else if !trusted s dst then s
  else
    let (t, s) := newTag s
    sendPacket s { packetBlank with
      typ := 8, tc := 2, dst := dst, addr := BitVec.ofNat 64 m.blk, width := m.seg, regs := m.from_, regOff := m.to_, op := m.epoch,
      code := m.ctx, group := m.num, rel := m.part, severity := markBits m.marks, tag := t, data := m.bytes, ackTo := m.gen
      congested := match m.news with
        | none => 0
        | some .begun => 1
        | some .written => 2
        | some .done => 3 }

/-- Once a ring group's members in this package have ended, no member of this use starts that must hear of a re-stitch (R373, R377). -/
def settleLags (s : State) (x : Coll) : State :=
  let ended (m : Nat) : Bool := s.colls.any fun y =>
    y.ctx == x.ctx && y.num == x.num && y.gen == x.gen && y.phase == .done && x.members[m]? == some (s.pkg, y.wgl)
  if x.group.all fun m => (x.members[m]?).map Prod.fst != some s.pkg || ended m then
    { s with collLagged := s.collLagged.filter fun l => !(l.1 == x.ctx && l.2.1 == x.num && x.group.contains l.2.2.1) }
  else s

/-- A member that is DONE tells every member of the mesh in another package (R377). -/
def tellDone (s : State) (x : Coll) : State :=
  ((List.range x.members.length).filter fun m => (x.members[m]?).map Prod.fst != some s.pkg).foldl
    (fun s m => emitColl s x { x.msg x.me m 0 0 false [] [] with news := some .done }) s

/-- The collective ends at a member with a code (R375). -/
def collDone (s : State) (x : Coll) (code : Nat) : State :=
  let s := tellDone (settleLags (putColl s { x with phase := .done, code := code }) x) x
  let s := { s with collq := s.collq.filter fun m =>
    !(m.ctx == x.ctx && m.num == x.num && m.to_ == x.me && m.gen == x.gen && m.news != some .done && decide (m.epoch ≤ x.epoch)) }
  finishTicket s x.issuer x.tl x.ticket code 2 2 x.sat x.data false

/-- Send a message, toward an untrusted package only the end of the collective at its member, with PROT (R414). -/
def sendColl (s : State) (x : Coll) (m : CollMsg) : State :=
  let dst := ((x.members[m.to_]?).getD (s.pkg, 0)).1
  if trusted s dst then emitColl s x m
  else
    match runningAt s x.ctx x.num x.me with
    | none => s
    | some y => collDone s y 4

/-- The first messages of a segment whose chain this group starts, or of what this member copies, from chunk q on. -/
def startMsgs (x : Coll) : List CollMsg :=
  let from_ (p : Nat × Nat) : Bool := decide (x.q ≤ p.2 / 64)
  if x.exch.reduces then
    let k := x.node x.pos
    if x.nodeMember k ≠ x.me then []
    else
      (x.ring.filter fun j => ringNext x.nodes (x.node j) == k).flatMap fun j =>
        ((x.pieces j).filter fun p => p.1 == j && from_ p).map fun p => x.msg x.me x.me j p.2 true [] []
  else if x.exch.ringCopy then
    ((x.pieces x.pos).filter fun p => p.1 == x.pos && from_ p).map fun p => x.msg x.me x.me x.pos p.2 false [] []
  else
    x.ring.flatMap fun t =>
      ((x.pieces t).filter fun p => p.1 == x.pos && from_ p).map fun p => x.msg x.me (x.member t) x.pos p.2 false [] []

/-- The chain of a segment has reached its end: the owner writes it, and an all-reduce sends it round (R369). -/
def finalPiece (s : State) (x : Coll) (m : CollMsg) (b : List Byte) (marks : List Bool) (sat : Bool) : Option State × State :=
  match runningAt s x.ctx x.num (x.member m.seg) with
  | none => (none, s)
  | some y =>
    match writePiece s { y with sat := y.sat || sat } m.seg m.blk b marks with
    | (none, s) => (none, s)
    | (some t, s) =>
      let next := ringNext x.ring m.seg
      (some (if x.exch.ringCopy && next != m.seg then sendColl t x (x.msg x.me (x.member next) m.seg m.blk false b marks) else t), s)

/-- A partial result arrives at a group, or starts in it (R369, R370). -/
def partMsg (s : State) (x : Coll) (m : CollMsg) : Option State × State :=
  let k := x.node x.pos
  if !nodeReady s x k then (none, s)
  else
    match nodePiece s x k m.seg m.blk with
    | (none, s) => (none, s)
    | (some own, s) =>
      let first := m.bytes.isEmpty
      let r := if first then (own.1, own.2.2) else
        let c := combinePieces x.op (recFmt x.src) m.bytes own.1
        (c.1, c.2 || own.2.2)
      let marks := if first then own.2.1 else combineMarks (elemBits (recFmt x.src) / 8) m.marks own.2.1
      if x.node m.seg = k then finalPiece s x m r.1 marks r.2
      else (some (sendColl s x (x.msg x.me (x.nodeMember (ringNext x.nodes k)) m.seg m.blk true r.1 marks)), s)

/-- A copied piece arrives at its member and goes on round the ring (R369). -/
def copyMsg (s : State) (x : Coll) (m : CollMsg) : Option State × State :=
  match writePiece s x m.seg m.blk m.bytes m.marks with
  | (none, s) => (none, s)
  | (some t, s) =>
    let next := ringNext x.ring x.pos
    (some (if x.exch.ringCopy && next != m.seg then sendColl t x (x.msg x.me (x.member next) m.seg m.blk false m.bytes m.marks) else t), s)

/-- What a member copies leaves its source. -/
def leaveMsg (s : State) (x : Coll) (m : CollMsg) : Option State × State :=
  let t := ((List.range x.group.length).find? fun p => x.member p == m.to_).getD 0
  match ownPiece s x t m.seg m.blk with
  | (none, s) => (none, s)
  | (some v, s) => (some (sendColl s x { m with bytes := v.1, marks := v.2 }), s)

/-- Take one message at a member that runs (R369, R373): one of an earlier ring is dropped, one of a later ring waits. -/
def takeAt (s : State) (x : Coll) (m : CollMsg) : Option State × State :=
  if m.epoch < x.epoch then (some s, s)
  else if x.epoch < m.epoch then (none, s)
  else if m.news.isSome then (some (putColl s { x with fins := x.fins ++ [m.from_] }), s)
  else if m.part then partMsg s x m
  else if m.bytes.isEmpty then leaveMsg s x m
  else copyMsg s x m

/-- A member has taken a message of its ring: its wait for the next one begins (R373). -/
def heardFrom (s : State) (x : Coll) : State :=
  { s with colls := s.colls.map fun y =>
      if y.ctx = x.ctx ∧ y.num = x.num ∧ y.me = x.me ∧ y.gen = x.gen then { y with since := s.podTime } else y }

/-- Take one message: one of an earlier use of its number is dropped, one of the next use or of a member that does not run waits (R377). -/
def takeMsg (s : State) (m : CollMsg) : Option State × State :=
  let who := if m.bytes.isEmpty && m.news.isNone then m.from_ else m.to_
  match s.colls.find? fun x => x.ctx == m.ctx && x.num == m.num && x.me == who && !x.group.isEmpty with
  | none => (none, s)
  | some x =>
    if m.gen = x.gen + 1 then (none, s)
    else if m.gen ≠ x.gen then (some s, s)
    else if m.news = some .begun then (some (putColl s { x with begun := x.begun ++ [m.from_] }), s)
    else if m.news = some .done then (some (putColl s { x with dones := x.dones ++ [m.from_] }), s)
    else if x.phase ≠ .running then (none, s)
    else
      match takeAt s x m with
      | (some t, u) => (some (if m.news.isSome || m.from_ == x.me || m.epoch != x.epoch then t else heardFrom t x), u)
      | (none, u) => (none, u)

/-- Take every message of a collective once; those that must wait stay. -/
def takeMsgs : List CollMsg → State → State
  | [], s => s
  | m :: r, s =>
    match takeMsg s m with
    | (some t, _) => takeMsgs r t
    | (none, t) => takeMsgs r { t with collq := t.collq ++ [m] }

/-! ### Start -/

/-- A member of a re-stitch around it: STALE, or LINK when it reached no member (R375). -/
def laggardCode (s : State) (x : Coll) : Nat :=
  if x.code ≠ 0 then x.code
  else
    let others := ((x.group.filter fun m => m != x.me).map fun m => ((x.members[m]?).getD (s.pkg, 0)).1)
    if !others.isEmpty && others.all fun p => p != s.pkg && (s.fabric.routes [p]).isEmpty then 10 else 6

/-- The member table of a mesh (R366). -/
def memberTable (bytes : List Byte) : List (Nat × Nat × Nat) :=
  (List.range (bytes.length / 4)).map fun i =>
    let e := ofBytes ((bytes.drop (4 * i)).take 4)
    (bitsN e 11 0, bitsN e 19 12, bitsN e 31 20)

/-- Bytes that a member reads at start: the mesh descriptor or the member table. -/
def collRead (s : State) (x : Coll) (va n : Nat) : Option (List Byte) × State :=
  match collPlaces s x .copyRead none [(va, n)] with
  | (none, s) => (none, s)
  | (some ps, s) =>
    match engReads x.core ps s with
    | (none, s) => (none, s)
    | (some v, s) => (some v.1, s)

/-- The groups of the slice tree do not each lie in one package (R370). -/
def localBad (x : Coll) : Bool :=
  (List.range x.group.length).any fun p =>
    let at_ (q : Nat) : Option Nat := (x.members[x.member q]?).map Prod.fst
    at_ p != at_ (x.node p * 2 ^ x.local_)

/-- The bytes of a record's shard that a collective touches. -/
def shardTouches (k : Access) (r : TRecord) : List (Access × Nat × Nat) :=
  (List.range (shardUnits r)).flatMap fun u => (unitMem r (unitCoord r u)).flatMap fun m =>
    (linePieces m.1 m.2).map fun p => (k, p.1, p.2)

/-- Translate what a collective's records cover, the source first (R354): the first refusal, with its address and access. -/
def collWalk (s : State) (x : Coll) : Option (Nat × Access × Refused) × State :=
  match engCtx s x.core x.issuer with
  | none => (none, s)
  | some e =>
    match walkTouches e (some (recKey x.src)) (shardTouches .copyRead x.src) s with
    | (some f, s) => (some (f.1, .copyRead, f.2), s)
    | (none, s) =>
      match walkTouches e (some (recKey x.dst)) (shardTouches .copyWrite x.dst) s with
      | (some f, s) => (some (f.1, .copyWrite, f.2), s)
      | (none, s) => (none, s)

/-- Start with the descriptor and the table read (R366-R370): a refused one completes with FORMAT. -/
def beginColl (s : State) (x : Coll) (m : Nat) (tab : List (Nat × Nat × Nat)) : State :=
  let me := (List.range tab.length).find? fun i => tab[i]? == some (s.pkg, x.wgl, 0)
  match me, deriveExchange m with
  | some me, some ex =>
    let group := ringGroup m me ex
    let x := { x with
      exch := ex, local_ := if ex.reduces then bitsN m 51 50 else 0, members := tab.map (fun t => (t.1, t.2.1)), me := me, group := group,
      pos := ((List.range group.length).find? fun p => group[p]? == some me).getD 0, ring := List.range group.length }
    if (tab.any fun t => t.2.2 != 0) || collFormatBad m x.src x.dst x.op || localBad { x with local_ := bitsN m 51 50 } then collDone s x 9
    else
      let gone := s.collLagged.filter fun l => l.1 == x.ctx && l.2.1 == x.num && x.group.contains l.2.2.1
      let qs := (gone.map fun l => l.2.2.2).foldl max 0
      let x := { x with
        ring := x.ring.filter (fun p => !gone.any fun l => l.2.2.1 == x.member p), epoch := gone.length, q := qs,
        order := !gone.isEmpty, restitched := !gone.isEmpty }
      if gone.any fun l => l.2.2.1 == x.me then
        collDone s { x with order := false } (laggardCode s x)
      else
        let t := putColl s { x with phase := .running }
        let t := t.setCore x.core (poolFree (t.core x.core) 0 3)
        let t := { t with collq := t.collq ++ startMsgs x, inputs := t.inputs ++ [Instr.poolEntryGrant x.core 0] }
        x.others.foldl (fun s m => sendColl s x { x.msg x.me m 0 0 false [] [] with news := some .begun }) t
  | some me, none => collDone s { x with me := me, members := tab.map fun t => (t.1, t.2.1) } 9
  | none, _ => collDone s x 9

/-- The collective of this member is done. -/
def Coll.doneIn (x : Coll) (s : State) : Bool :=
  s.colls.any fun y => y.ctx == x.ctx && y.num == x.num && y.issuer.place == x.issuer.place && y.phase == .done

/-- Start an accepted collective once everything that it touches is translated (R354); unchanged while its descriptor cannot be read. -/
def startColl (s : State) (x : Coll) : State :=
  let free (s : State) : State := s.setCore x.core (poolFree (s.core x.core) 0 3)
  if !recValid x.src || !recValid x.dst then free (collDone s x 1)
  else if x.zero ≠ 0 then free (collDone s x 9)
  else
    match collRead s x x.meshAddr.toNat 64 with
    | (none, s) => s
    | (some d, s) =>
      let m := ofBytes d
      if meshBad m then free (collDone s x 9)
      else
        match collRead s x (bitsN m 120 64) (4 * meshCount m) with
        | (none, s) => s
        | (some t, s) =>
          let r := beginColl s x m (memberTable t)
          if x.doneIn r then free r
          else
            match collWalk s x, engCtx s x.core x.issuer with
            | (some (va, k, r), s), some e => collRefused s x e va k r
            | (_, s), _ => beginColl s x m (memberTable t)

/-- A member whose destination is written and acknowledged tells the other survivors (R208). -/
def tellFin (s : State) (x : Coll) : State :=
  x.others.foldl (fun s m => sendColl s x { x.msg x.me m 0 0 false [] [] with news := some .written }) (putColl s { x with told := true })

/-- The members of a collective in this package. -/
def collsOf (s : State) (c n : Nat) : List Coll := s.colls.filter fun x => x.ctx == c && x.num == n

/-- One cycle of a collective in this package (R208, R369, R375): accepted members start, messages are taken, a member whose
destination is written and acknowledged tells the other survivors, and one that all of them have told, or that has failed and is alone,
completes. -/
def collCycle (ctx num : Nat) (s : State) : State :=
  let s := ((collsOf s ctx num).filter (Coll.mayStart s)).foldl startColl s
  let mine (m : CollMsg) : Bool := m.ctx == ctx && m.num == num
  let q := s.collq.filter mine
  let s := takeMsgs q { s with collq := s.collq.filter fun m => !mine m }
  let s := ((collsOf s ctx num).filter fun x => x.phase == .running && !x.told && x.missing.isEmpty && x.remote.isEmpty).foldl tellFin s
  let s := ((collsOf s ctx num).filter fun x => x.phase == .running && x.told && x.others.all x.fins.contains).foldl
    (fun s x => collDone s x (if x.data then 5 else 0)) s
  ((collsOf s ctx num).filter fun x => x.phase == .failed && x.group.length ≤ 1).foldl
    (fun s x => collDone s { x with restitched := true, q := x.count } x.code) s

/-- `COLLECTIVE_COMPLETE` (R208, R369, R375): a cycle, and another one while something changes. -/
def execCollectiveComplete (ctx num : Nat) (s : State) : Out :=
  let t := rebackAll (collCycle ctx num s)
  .next (if t.collq == s.collq && t.colls == s.colls then t else { t with inputs := t.inputs ++ [.collectiveComplete ctx num] })

/-- One member of a group meets a re-stitch around a laggard (R373, R375). -/
def restitch (s : State) (x : Coll) (laggard q : Nat) : State :=
  let q := max x.q q
  if x.me = laggard then
    collDone s { x with q := q, restitched := true, order := false } (laggardCode s x)
  else
    putColl s { x with ring := x.ring.filter (fun p => x.member p != laggard), epoch := x.epoch + 1, q := q, order := true,
                       restitched := true, told := false, fins := [], got := x.got.filter (fun p => decide (p.2 / 64 < q)), since := s.podTime }

/-- The members in this package that are in a ring with a member (R373). -/
def ringWith (s : State) (ctx num m : Nat) : List Coll :=
  (collsOf s ctx num).filter fun x => (x.phase == .running || x.phase == .failed || (match x.phase with
    | .page _ => !x.group.isEmpty
    | _ => false)) && (x.ring.any fun p => x.member p == m)

/-- The member follows another one in its ring, or stands for the group of the slice tree that follows the other one's (R370, R373). -/
def Coll.follows (x : Coll) (m : Nat) : Bool :=
  x.ring.any fun p => x.member p == m &&
    (ringNext x.ring p == x.pos || x.nodeMember (ringNext x.nodes (x.node p)) == x.me)

/-- T has passed for a member since its COLL, while another one has not issued its own, or since it last heard of the member before it
(R373); T is in µs. -/
def Coll.overdue (x : Coll) (m now : Nat) : Bool :=
  x.me != m && (if x.begun.contains m then x.follows m && decide (x.since + 1000 * x.timeout ≤ now)
    else decide (x.issued + 1000 * x.timeout ≤ now))

/-- A member lags as far as this package can tell (R373): T has passed for one of its survivors, or there are survivors in other
packages, whose waits it does not see. -/
def lags (s : State) (ctx num m : Nat) : Bool :=
  (ringWith s ctx num m).isEmpty || (ringWith s ctx num m).any fun x =>
    x.overdue m s.podTime || x.others.any fun o => o != m && (x.members[o]?).map Prod.fst != some s.pkg

/-- A member lags (R373): `counts` are the completed chunks of the survivors in other packages. Q is the smallest
count of a survivor, and never below the old one; the survivors start their chunks from Q on under the new ring. -/
def lagTimeout (ctx num laggard : Nat) (counts : List Nat) (s : State) : State :=
  let mine := ringWith s ctx num laggard
  let all := counts ++ (mine.filter fun x => x.me != laggard).map Coll.count
  let q := all.foldl min (all.headD 0)
  let s := mine.foldl (fun s x => restitch s x laggard q) s
  let s := { s with collLagged := s.collLagged ++ [(ctx, num, laggard, q)] }
  let s := ((collsOf s ctx num).filter fun x => x.phase == .done && x.group.contains laggard).foldl settleLags s
  let again := (collsOf s ctx num).filter fun x => x.phase == .running && x.group.contains laggard
  { s with collq := s.collq ++ again.flatMap startMsgs, inputs := s.inputs ++ [.collectiveComplete ctx num] }

/-- `COLLECTIVE_LAG_TIMEOUT` (R373). -/
def execCollectiveLagTimeout (ctx num laggard : Nat) (counts : List Nat) (s : State) : Out :=
  .next (if lags s ctx num laggard then lagTimeout ctx num laggard counts s else s)

/-- The news that a COLLECT packet carries (log entry 12). -/
def newsOf (n : Nat) : Option CollNews :=
  match n with
  | 0 => none
  | 1 => some .begun
  | 2 => some .written
  | _ => some .done

/-- A COLLECT packet in stream order (R369). -/
def takeCollect (p : Packet) (s : State) : State :=
  { s with
    collq := s.collq ++ [⟨p.code, p.group, p.regs, p.regOff, p.width, p.addr.toNat, p.rel, p.op, p.data,
      (List.range p.data.length).map p.severity.testBit, newsOf p.congested, p.ackTo⟩],
    inputs := s.inputs ++ [.collectiveComplete p.code p.group] }

/-! ### COLL and COLLST -/

/-- The descriptor quad of COLL as read at issue, or as the operand log records it (R128, R208). -/
def collLane (s : State) (act : LaneMask) (a : Operand) : LogLane :=
  match s.th.grp.replay.bind fun w => w.lanes.head? with
  | some x => x
  | none =>
    let l := lowLane act
    let q := opnd128 s l 4 a
    { lane := l, addr := q.extractLsb' 32 64, a := 0, b := 0, data := q, addrMark := false, dataMark := s.th.marked l 4 a }

/-- The collectives that run in the package, by context and number (R377). -/
def activeColls (s : State) : List (Nat × Nat) := ((s.colls.filter Coll.busy).map fun x => (x.ctx, x.num)).eraseDups

/-- A collective number is free again at its member when the collective is DONE at every member of the mesh (R377). -/
def Coll.numberFree (s : State) (x : Coll) : Bool :=
  x.phase == .done && (List.range x.members.length).all fun m => m == x.me ||
    (match x.members[m]? with
    | none => true
    | some (p, w) =>
      if p = s.pkg then s.colls.any fun y => y.ctx == x.ctx && y.num == x.num && y.gen == x.gen && y.wgl == w && y.phase == .done
      else x.dones.contains m)

/-- How often a member has used a number before (R377). -/
def numberGen (s : State) (c n w : Nat) : BitVec 16 :=
  match s.colls.find? fun y => y.ctx == c && y.num == n && y.wgl == w with
  | none => 0
  | some y => y.gen + 1

/-- The collective that a COLL word starts (R208). -/
def newColl (s : State) (x : LogLane) (h : BitVec 8) (tl ticket : Nat) : Coll :=
  let w := bitsN x.data.toNat 31 0
  { ctx := s.wg.ctx, num := bitsN w 31 16, issuer := s.th.agent, tl := tl, ticket := ticket, core := s.th.ident.core,
    src := s.cx.handle h.toNat, dst := s.cx.handle (bitsN w 7 0), op := bitsN w 10 8, zero := bitsN w 15 11, meshAddr := x.addr,
    seq := s.trans.handed, timeout := (if bitsN x.data.toNat 127 96 = 0 then s.collcfg.toNat % 65536 else bitsN x.data.toNat 127 96), phase := .accepted,
    exch := .localCopy, local_ := 0, members := [], me := 0, pos := 0, group := [], ring := [], epoch := 0, q := 0, got := [],
    remote := [], told := false, fins := [], code := 0, data := false, sat := false, order := false, restitched := false, paid := true
    gen := numberGen s s.wg.ctx (bitsN w 31 16) s.wg.wgl, begun := [], dones := [], issued := s.podTime, since := s.podTime }

/-- A collective that has its entries takes its ticket and joins those of its member (R131, R208). -/
def joinColl (s : State) (x : LogLane) (h : BitVec 8) (tl : Nat) : State :=
  let r := s.wg.ticket tl
  let c := newColl s x h tl r.1
  let others := s.colls.filter fun y => !(y.ctx == c.ctx && y.num == c.num && y.wgl == c.wgl)
  let due := [Instr.walkAheadTranslate s.th.ident.core, Instr.collectiveComplete c.ctx c.num]
  { (handSeq s).2 with wg := r.2, colls := others ++ [c], inputs := s.inputs ++ due }.setTh (advance s.th)

/-- Accept a COLL (R131, R208, R377): it stalls while its counter or the pool is full or MAXACT collectives run; a number that is
in use at its member completes with FORMAT at once. -/
def acceptColl (s0 s : State) (x : LogLane) (h : BitVec 8) (tl : Nat) : Out :=
  let num := bitsN x.data.toNat 31 16
  let act := activeColls s
  if (s.wg.tl tl).full then .next s0
  else if s.colls.any fun y => y.ctx == s.wg.ctx && y.num == num && y.wgl == s.wg.wgl && !y.numberFree s then
    let r := s.wg.ticket tl
    let s := finishTicket { s with wg := r.2 } s.th.agent tl r.1 9 2 2 false false false
    .next (s.setTh (advance s.th))
  else if !act.contains (s.wg.ctx, num) && decide (bitsN s.collcfg.toNat 22 16 ≤ act.length) then .next s0
  else
    match poolAsk s 0 3 with
    | none => .next (poolStall s0 0)
    | some s => .next (joinColl s x h tl)

/-- `COLL` (R208). -/
def execColl (hd : Hdr) (tl : BitVec 3) (h : BitVec 8) (a : Operand) (s : State) : Out :=
  issue (.coll hd tl h a) (Instr.coll hd tl h a).uses [] hd s fun act s' =>
    if act = 0 then .next (s'.setTh (advance s'.th))
    else
      let x := collLane s' act a
      if x.addr.toNat % 64 ≠ 0 then
        faultWord s s' .copyRead (x.lane, (.align, 0), x.addr) (logOf (.coll hd tl h a) hd s'.th act (laneBit x.lane) [x])
      else acceptColl s (s'.setTh (noteLane s'.th x)) x h tl.toNat

/-- The pair that COLLST writes (R209, R375). -/
def Coll.word (x : Coll) : DWord :=
  let done := x.phase == .done
  let err := done && x.code != 0
  BitVec.ofNat 64 ((if done then 1 else 0) + (if x.order then 2 else 0) + (if x.restitched then 4 else 0) + (if err then 8 else 0)
    + (if err then x.code * 16 else 0) + (if x.restitched then x.q % 2 ^ 32 * 2 ^ 32 else 0))

/-- `COLLST` (R209). -/
def execCollst (hd : Hdr) (d a : Operand) (s : State) : Out :=
  issue (.collst hd d a) (Instr.collst hd d a).uses [] hd s fun act s =>
    let val (l : Nat) : DWord :=
      let n := (opnd32 s l a).toNat
      match s.colls.find? fun x => x.ctx == s.wg.ctx && x.num == n && x.wgl == s.wg.wgl with
      | none => 0
      | some x => x.word
    let ws := laneWrites act 2 d val (fun l => s.th.marked l 1 a)
    .next (s.setTh (advance (deliver hd ws (noteWord s.th (.collst hd d a) act))))

/-! ### The walk-ahead engine -/

/-- The command has not started. -/
def CopyCmd.waits (x : CopyCmd) : Bool :=
  match x.phase with
  | .started => false
  | .queued => true
  | .page _ => true

/-- What a walk-ahead engine has been handed: a copy command of a core, a matrix operation of a workgroup, or a collective (R354). -/
inductive Ahead where
  | cmd (core : Nat) (x : CopyCmd)
  | op (ctx wg : Nat) (x : MatOp)
  | coll (x : Coll)
  deriving DecidableEq, Repr

/-- The place of a command in the order of acceptance. -/
def Ahead.seq : Ahead → Nat
  | .cmd _ x => x.seq
  | .op _ _ x => x.seq
  | .coll x => x.seq

/-- The commands of a cluster that have not started, in acceptance order (R354). -/
def aheadOf (s : State) (cl : Nat) : List Ahead :=
  let cores := (List.range 8).map (8 * cl + ·)
  let cmds := cores.flatMap fun n => ((s.core n).copyq.filter CopyCmd.waits).map (Ahead.cmd n)
  let ops := cores.flatMap fun n => (wgsOn s n).flatMap fun g => (g.mq.filter fun x => x.waits && x.paid && x.kind.named).map (Ahead.op g.ctx g.wgl)
  let colls := (s.colls.filter fun x => x.waits && x.paid && x.core / 8 == cl).map Ahead.coll
  sortBy (fun a b => decide (a.seq < b.seq)) (cmds ++ ops ++ colls)

/-- Translate ahead for a copy command: a PAGE fault writes its record and holds the command (R354). -/
def walkCmd (core : Nat) (s : State) (x : CopyCmd) : State :=
  match engCtx s core x.issuer with
  | none => s
  | some e =>
    match cmdTarget s e x with
    | .error _ => s
    | .ok _ =>
      match walkTouches e (cmdKey x) (cmdTouches s x e) s with
      | (none, s) => s
      | (some (va, r), s) => if r.1 = .page then holdCmd s core x e va r else s

/-- Translate ahead for a matrix operation whose tile its record gives. -/
def walkOp (s : State) (c w : Nat) (x : MatOp) : State :=
  match getWg s c w with
  | none => s
  | some g =>
    match engCtx s (g.core.getD 0) (.matrix c w) with
    | none => s
    | some e =>
      if !recValid x.handle || decide (gridSize x.handle ≤ x.index.toNat) then s
      else
        match walkTouches e (some (recKey x.handle)) (matTouches 64 x) s with
        | (none, s) => s
        | (some (va, r), s) =>
          if r.1 ≠ .page then s
          else
            match writeFault s va e.cx.asid r 1 c w e.core .copyRead with
            | none => s
            | some (id, s) => putWg s { g with mq := g.mq.map fun y => if y = x then { y with phase := .page id } else y }

/-- Translate ahead for a collective. -/
def walkColl (s : State) (x : Coll) : State :=
  if !recValid x.src || !recValid x.dst then s
  else
    match collWalk s x with
    | (none, s) => s
    | (some (va, k, r), s) => if r.1 = .page then (match engCtx s x.core x.issuer with
        | none => s
        | some e => collRefused s x e va k r) else s

/-- A command is not held, and none of its issuer that was accepted before it is (R354). -/
def Ahead.free (l : List Ahead) (a : Ahead) : Bool :=
  let who : Ahead → Agent
    | .cmd _ x => x.issuer
    | .op c w _ => .matrix c w
    | .coll x => x.issuer
  let held : Ahead → Bool
    | .cmd _ x => x.phase != .queued
    | .op _ _ x => x.phase != .queued
    | .coll x => x.phase != .accepted
  !l.any fun b => held b && who b == who a && decide (b.seq ≤ a.seq)

/-- Translate ahead for one command. -/
def walkAhead (cl : Nat) (s : State) (a : Ahead) : State :=
  let l := aheadOf s cl
  if !l.contains a || !a.free l then s
  else
    match a with
    | .cmd core x => walkCmd core s x
    | .op c w x => walkOp s c w x
    | .coll x => walkColl s x

/-- `WALK_AHEAD_TRANSLATE` (R354): the engine of a core's cluster takes up to 32 commands in acceptance order, none behind a held one of
its issuer. -/
def execWalkAheadTranslate (core : Nat) (s : State) : Out :=
  .next (((aheadOf s (core / 8)).take 32).foldl (walkAhead (core / 8)) s)

end Sys2Proof.Machine
end

