-- ==== Sys2Proof/Machine/Remote.lean ====
section
/-!
DEFINITION. Group 13, remote register writes (R177-R193), with the paths that their deliveries take: the Carousel (R269-R276) and
the L2 slices (R265).
-/

namespace Sys2Proof.Machine

/-! ### Capabilities -/

/-- A capability's bits [99:0] and its MAC (R177, R179). -/
def makeCap (key : BitVec 256) (bits : Nat) : BitVec 128 :=
  let b := BitVec.ofNat 100 bits
  Config.kmac256 key b ++ b

/-- The fields of a capability as bits [99:0] (R177). -/
def capBits (addr range lmask gen : Nat) (wr xp land : Bool) : Nat :=
  addr % 2 ^ 40 + range % 256 * 2 ^ 40 + lmask % 2 ^ 32 * 2 ^ 48 + gen % 65536 * 2 ^ 80 + (if wr then 2 ^ 96 else 0)
    + (if xp then 2 ^ 97 else 0) + (if land then 2 ^ 98 else 0)

/-- ADDR's upper part: package, context and workgroup (R178). -/
def capPlace (s : State) : Nat := s.pkg % 4096 * 2 ^ 28 + s.wg.ctx % 128 * 2 ^ 21 + s.wg.wgl % 256 * 2 ^ 13

/-- The writes of a 128-bit result to a uniform quad. -/
def quadWrites (d : Operand) (x : BitVec 128) (mark : Bool) : List Wr :=
  match d with
  | .k r => (List.range 4).map fun i => .k (r.toNat + i) (x.extractLsb' (32 * i) 32) mark
  | .v _ => []
  | .s _ => []
  | .c _ => []

/-- `RCAPMK.reg` (R182). The named registers are not read. -/
def execRcapmkReg (hd : Hdr) (d : Operand) (reg : BitVec 8) (n : BitVec 3) (a : Operand) (wr xp : Bool) (s : State) : Out :=
  issue (.rcapmkReg hd d reg n a wr xp) [(.udst 4, d), (.src 1, a)] [] hd s fun act s =>
    if act = 0 then .next (s.setTh (advance s.th))
    else
      let l := lowLane act
      let bits := capBits (capPlace s + s.th.agent.troupeNo % 32 * 256 + reg.toNat) n.toNat (opnd32 s l a).toNat s.th.regGen.toNat wr xp false
      let mark := s.th.marked l 1 a
      let th := if mark then s.th.raiseErr 4 else s.th
      .next (s.setTh (advance (deliver hd (quadWrites d (makeCap s.cx.key bits) mark) th)))

/-- The fault that RCAPMK.land meets (R182): ALIGN before WINDOW. -/
def landFault (g : Workgroup) (off size : Nat) : Option Refused :=
  if off % 128 ≠ 0 then some (.align, 0)
  else if size = 0 ∨ 256 < size ∨ g.scratchSize < off + 4096 * size then some (.window, 0)
  else none

/-- A landing entry of a workgroup (R193). -/
def Workgroup.land (g : Workgroup) (e : Nat) : Landing := tget ⟨0, 0, 0, false⟩ g.lands e

/-- Change a landing entry. -/
def Workgroup.setLand (g : Workgroup) (e : Nat) (x : Landing) : Workgroup :=
  { g with lands := tset ⟨0, 0, 0, false⟩ g.lands e x }

/-- `RCAPMK.land` (R182). -/
def execRcapmkLand (hd : Hdr) (d : Operand) (e : BitVec 4) (a b : Operand) (wr xp : Bool) (s : State) : Out :=
  issue (.rcapmkLand hd d e a b wr xp) (Instr.rcapmkLand hd d e a b wr xp).uses [] hd s fun act s' =>
    if act = 0 then .next (s'.setTh (advance s'.th))
    else
      let x := uniLane s' act a b
      let off := x.a.toNat % 2 ^ 32
      let size := x.b.toNat % 2 ^ 32
      match landFault s'.wg off size with
      | some f =>
        faultWord s s' .store (x.lane, f, x.a) (logOf (.rcapmkLand hd d e a b wr xp) hd s'.th act (laneBit x.lane) [x])
      | none =>
        let old := s'.wg.land e.toNat
        let g := s'.wg.setLand e.toNat ⟨BitVec.ofNat 13 (off / 128), BitVec.ofNat 8 (size - 1), old.gen, true⟩
        let bits := capBits (capPlace s' + off / 128) (size - 1) e.toNat old.gen.toNat wr xp true
        .next ({ s' with wg := g }.setTh
          (advance (noteLane (deliver hd (quadWrites d (makeCap s'.cx.key bits) x.dataMark) s'.th) x)))

/-- A capability slot as a word of the issuing troupe reads it (R61, R183). -/
def capOf (s : State) (n : Nat) : BitVec 128 := s.th.cap n

/-- `RCAPLD` (R183, R61). -/
def execRcapld (hd : Hdr) (slot : BitVec 4) (a : Operand) (s : State) : Out :=
  issue (.rcapld hd slot a) (Instr.rcapld hd slot a).uses [] hd s fun act s =>
    if act = 0 then .next (s.setTh (advance s.th))
    else
      let l := lowLane act
      let th := if s.th.marked l 4 a then s.th.raiseErr 4 else s.th
      let u := writeSlots hd [.cap slot.toNat (tget 0 th.caps slot.toNat)] [.cap slot.toNat (opnd128 s l 4 a)] [] (s.setTh th)
      .next (u.setTh (advance u.th))

/-- `RCAPREV.reg` (R184). -/
def execRcaprevReg (hd : Hdr) (s : State) : Out :=
  issue (.rcaprevReg hd) [] [] hd s fun act s =>
    let th := if act = 0 then s.th else { s.th with regGen := s.th.regGen + 1 }
    .next (s.setTh (advance th))

/-- `RCAPREV.land` (R184). -/
def execRcaprevLand (hd : Hdr) (e : BitVec 4) (s : State) : Out :=
  issue (.rcaprevLand hd e) [] [] hd s fun act s =>
    let x := s.wg.land e.toNat
    let s := if act = 0 then s else { s with wg := s.wg.setLand e.toNat { x with gen := x.gen + 1, valid := false } }
    .next (s.setTh (advance s.th))

/-! ### Full bits -/

/-- An outstanding result that has not arrived will write a register of the range (R11, R191). -/
def rangeAwaited (th : Thread) (act : LaneMask) (n : Nat) (d : Operand) : Bool := th.pend.any fun p => p.owed.awaits act n d

/-- The results that have arrived for a range are written now, and their words owe them no longer (R11). -/
def writeRange (s : State) (act : LaneMask) (n : Nat) (d : Operand) : State :=
  let mine (w : Wr) : Bool := w.touches act n d
  let ws := s.th.pend.flatMap fun p => match p.owed with
    | .wait _ => []
    | .result ws _ _ => ws.filter mine
  let cut (p : Pend) : Pend := { p with owed := match p.owed with
    | .wait w => .wait w
    | .result ws aw dr => .result (ws.filter fun w => !mine w) aw dr }
  (s.setTh { s.th with pend := s.th.pend.map cut }).writes ws

/-- Mark the registers of a range empty in the lanes of a mask (R11, R191). -/
def emptyRange (th : Thread) (act : LaneMask) (n : Nat) : Operand → Thread
  | .v r => (lanesOf act).foldl (fun t l => (List.range n).foldl (fun t i =>
      { t with vEmpty := tset false t.vEmpty (regKey l (r.toNat + i)) true }) t) th
  | .k _ => th
  | .s _ => th
  | .c _ => th

/-- `RARM` (R191, R11): after the outstanding writes to the registers. -/
def execRarm (hd : Hdr) (d : Operand) (k : BitVec 3) (s : State) : Out :=
  issue (.rarm hd d k) [] [] hd s fun act s' =>
    let n := k.toNat + 1
    if rangeAwaited s'.th act n d then .next s
    else
      let s := writeRange s' act n d
      .next (s.setTh (advance (emptyRange s.th act n d)))

/-- The full bits of a range in one lane (R192). -/
def fullBits (th : Thread) (l n : Nat) : Operand → Nat
  | .v r => (List.range n).foldl (fun x i => if th.isEmpty l (r.toNat + i) then x else x + 2 ^ i) 0
  | .k _ => 2 ^ n - 1
  | .s _ => 2 ^ n - 1
  | .c _ => 2 ^ n - 1

/-- `RPOLL` (R192): it waits on nothing. -/
def execRpoll (hd : Hdr) (d a : Operand) (k : BitVec 3) (p : BitVec 3) (s : State) : Out :=
  issue (.rpoll hd d a k p) [(.lanesDst 1, d)] [p] hd s fun act s =>
    let n := k.toNat + 1
    let ws := laneWrites act 1 d (fun l => BitVec.ofNat 64 (fullBits s.th l n a)) fun _ => false
    let ps := (lanesOf act).map fun l => Wr.p l p.toNat (fullBits s.th l n a == 2 ^ n - 1) false
    .next (s.setTh (advance (deliver hd (ws ++ ps) s.th)))

/-! ### RWR at the sender -/

/-- The words of a delivery in flits or entries of `n` words, with a header (R186, R237, R269). -/
def Delivery.units (d : Delivery) (n : Nat) : Nat := 1 + ceilDiv d.vals.length n

/-- The target of a capability: context, workgroup and troupe (R178). -/
def capTarget (cap : BitVec 128) : Nat × Nat × Nat := (bitsN cap.toNat 27 21, bitsN cap.toNat 20 13, bitsN cap.toNat 12 8)

/-- The check of R185 that fails first, or 0. -/
def rwrCheck (s : State) (cap : BitVec 128) (off k : Nat) (act : LaneMask) : Nat :=
  let c := cap.toNat
  if cap = 0 ∨ bitsN c 98 98 = 1 ∨ bitsN c 96 96 = 0 then 4
  else if bitsN c 97 97 = 0 ∧ bitsN c 39 28 ≠ s.pkg then 4
  else if bitsN c 42 40 + 1 < off + k then 2
  else if (lanesOf act).any fun l => !c.testBit (48 + l) then 2
  else if bitsN c 39 28 ≠ s.pkg ∧ !trusted s (bitsN c 39 28) then 4
  else 0

/-- A failed operation is reported without its ticket completing (R188): counter status, SENDF and error queue. -/
def noteFailure (s : State) (a : Agent) (tl ticket code kind : Nat) (err : Word) : State :=
  match a.place with
  | none => s
  | some (c, w) =>
    let s := match getWg s c w with
      | none => s
      | some g => putWg s (g.setTl tl ((g.tl tl).record ticket code false false (code == 6)))
    let s := s.setThread (reporter a) fun t => t.raiseErr err
    match getCx s c with
    | none => s
    | some x => pushError s x code kind tl a.troupeNo w ticket

/-- A ticket completes (R148). -/
def completeTicket (s : State) (a : Agent) (tl ticket : Nat) : State :=
  match a.place with
  | none => s
  | some (c, w) => match getWg s c w with
    | none => s
    | some g => putWg s (g.setTl tl ((g.tl tl).complete ticket))

/-- Groups of lanes of one delivery each (R186). -/
def laneGroups (n : Nat) : Nat → List Nat → List (List Nat)
  | 0, _ => []
  | f + 1, ls => if ls.isEmpty then [] else ls.take n :: laneGroups n f (ls.drop n)

/-- Word i of a source of RWR in a lane, with its mark. -/
def sendWord (s : State) (a : Operand) (l i : Nat) : Word × Bool :=
  match a with
  | .v r => (s.th.rdV l (r.toNat + i), s.th.markV l (r.toNat + i))
  | .k r => (s.th.rdK (r.toNat + i), s.th.markK (r.toNat + i))
  | .s x => (opnd32 s l (.s x), false)
  | .c x => (opnd32 s l (.c x), false)

/-- The lanes and words of the deliveries of a word (R186). -/
def rwrParts (s : State) (act : LaneMask) (a : Operand) (k : Nat) : List (LaneMask × List (Word × Bool)) :=
  let uniform : Bool := match a with
    | .v _ => false
    | .k _ => true
    | .s _ => true
    | .c _ => true
  if uniform then [(act, (List.range k).map (sendWord s a (lowLane act)))]
  else
    (laneGroups (128 / k) 32 (lanesOf act)).map fun ls =>
      (ls.foldl (fun m l => m ||| laneBit l) 0, ls.flatMap fun l => (List.range k).map (sendWord s a l))

/-- The core on which a workgroup is resident (R178). -/
def coreOf (s : State) (c w : Nat) : Option Nat :=
  match lookupBy (c, w) s.forward with
  | some (n + 2) => some n
  | _ => none

/-- Change a delivery. -/
def putSend (s : State) (d : Delivery) : State := { s with sends := s.sends.map fun e => if e.id == d.id then d else e }

/-- A delivery has left its core (R237): its entries of queue 0 are free. -/
def leftCore (s : State) (d : Delivery) : State :=
  match d.sender with
  | .word _ core _ _ =>
    { s.setCore core (poolFree (s.core core) 0 (d.units 16)) with inputs := s.inputs ++ [.poolEntryGrant core 0] }
  | .packet _ => s

/-- The next state of a delivery that is in `sends`, with what follows. -/
def sendPhase (s : State) (d : Delivery) (ph : DeliveryPhase) (next : List Instr) : State :=
  { putSend s { d with phase := ph } with inputs := s.inputs ++ next }

/-- The REGWR packet of a delivery (R186, R277). -/
def regwrPacket (s : State) (d : Delivery) : Packet :=
  { packetBlank with
    typ := 5, tc := 0, dst := bitsN d.cap.toNat 39 28, addr := BitVec.ofNat 64 (d.cap.toNat % 2 ^ 40), cap := d.cap, width := d.k,
    regOff := d.off, lanes := d.lanes, rel := d.rel, scope := d.scope, severity := if d.vals.any fun v => v.2 then 1 else 0, tag := d.id,
    data := d.vals.flatMap fun v => toBytes 4 v.1.toNat, src := s.pkg }

/-- A delivery that has its entries starts on its path from a core (R186, R265, R270): to another package, on the Carousel to a resident
target of the cluster, or through a slice. -/
def launchSend (s : State) (d : Delivery) (core : Nat) : State :=
  let t := capTarget d.cap
  let slice := leftCore (sendPhase s d .slice [.sliceForward d.id]) d
  if bitsN d.cap.toNat 39 28 ≠ s.pkg then leftCore (sendPhase (sendPacket s (regwrPacket s d)) d .fabric []) d
  else
    match coreOf s t.1 t.2.1 with
    | some n =>
      if n / 8 = core / 8 then
        enterRing (sendPhase s { d with byRing := true } .ring []) (core / 8) (core % 8) (n % 8) (d.units 8)
          (ringWay (s.ring (core / 8)).rdir (core % 8) (n % 8)) (.delivery d.id)
      else slice
    | none => slice

/-- The deliveries of a word take their entries and leave, one after another, until one finds no room (R238); whether all have left. -/
def launchAll : List Delivery → State → Bool × State
  | [], s => (true, s)
  | d :: r, s =>
    match poolAsk s 0 (d.units 16) with
    | none => (false, poolStall s 0)
    | some s' =>
      let d' := { d with sender := match d.sender with
        | .word a _ tl ticket => .word a s.th.ident.core tl ticket
        | .packet p => .packet p }
      launchAll r (launchSend (putSend s' d') d' s.th.ident.core)

/-- The deliveries of an RWR word that have not left it, with a ticket. -/
def ownSends (s : State) (tl ticket : Nat) : List Delivery :=
  s.sends.filter fun d => d.phase == .source && (match d.sender with
    | .word a _ n k => a == s.th.agent && n == tl && k == ticket
    | .packet _ => false)

/-- The new deliveries of a word stand at it. -/
def newSends (tl ticket : Nat) (cap : BitVec 128) (off n : Nat) (rel : Bool) (scope : Scope) (parts : List (LaneMask × List (Word × Bool)))
    (s : State) : State :=
  parts.foldl (fun s p =>
    let (id, s) := newTag s
    { s with sends := s.sends ++ [⟨id, .word s.th.agent s.th.ident.core tl ticket, cap, off, n, p.1, p.2, rel, scope, false, .source⟩] }) s

/-- The word goes on when all its deliveries have left; else it stays, and keeps its ticket in the log of its sub-group. `s0` is the state
before it issued. -/
def sendWords (i : Instr) (hd : Hdr) (act : LaneMask) (tl ticket : Nat) (s0 s : State) : State :=
  let r := launchAll (ownSends s tl ticket) s
  if r.1 then r.2.setTh (advance r.2.th)
  else
    let x : LogLane := ⟨lowLane act, BitVec.ofNat 64 ticket, 0, 0, 0, false, false⟩
    r.2.setTh { s0.th with err := r.2.th.err, grp := { s0.th.grp with replay := some (logOf i hd s0.th act 0 [x]) } }

/-- `RWR` (R185-R189): it stalls while its counter or queue 0 is full, and with REL while its release waits. A word of which some
deliveries have left goes on with the others. -/
def execRwr (hd : Hdr) (a : Operand) (slot : BitVec 4) (tl : BitVec 3) (scope : Scope) (rel : Bool) (off k : BitVec 3) (s : State) : Out :=
  let i := Instr.rwr hd a slot tl scope rel off k
  issue i i.uses [] hd s fun act s' =>
    if act = 0 then .next (s'.setTh (advance s'.th))
    else
      match s.th.grp.replay with
      | some w => .next (sendWords i hd act tl.toNat (((w.lanes.head?).map fun x => x.addr.toNat).getD 0) s s')
      | none =>
        if (s'.wg.tl tl.toNat).full || (rel && releaseWaits s'.th scope) then .next s
        else
          let n := k.toNat + 1
          let cap := capOf s' slot.toNat
          let parts := rwrParts s' act a n
          let marked := parts.any fun p => p.2.any fun v => v.2
          let th := if marked then s'.th.raiseErr 4 else s'.th
          let code := rwrCheck s' cap off.toNat n act
          let r := s'.wg.ticket tl.toNat
          let t := { s' with wg := r.2 }.setTh th
          if code ≠ 0 then
            let s := completeTicket (noteFailure t th.agent tl.toNat r.1 code 1 1) th.agent tl.toNat r.1
            .next (s.setTh (advance s.th))
          else if (poolAsk s' 0 (1 + ceilDiv (((parts.head?).map fun p => p.2.length).getD 0) 16)).isNone then .next (poolStall s 0)
          else .next (sendWords i hd act tl.toNat r.1 s (newSends tl.toNat r.1 cap off.toNat n rel scope parts t))

/-! ### At the target -/

/-- An acquire in the name of another agent (R189): its own caches are what it discards. -/
def acquireFor (s : State) (a : Agent) (scope : Scope) : State :=
  match focus s a with
  | none => s
  | some t =>
    let u := acquire t scope
    (focus u s.th.agent).getD u

/-- Word i for the j-th lane of a delivery: a delivery of K words gives every lane the same ones (R186). -/
def deliveredWord (vals : List (Word × Bool)) (k j i : Nat) : Word × Bool :=
  (if vals.length = k then vals[i]? else vals[j * k + i]?).getD (0, false)

/-- Deliver words to the registers that a capability names (R187): the code, and the target's registers. The reader's acquire of
R189 is taken at the delivery (log entry 13). -/
def deliverWords (s : State) (cap : BitVec 128) (off k : Nat) (lanes : LaneMask) (vals : List (Word × Bool)) (rel : Bool)
    (scope : Scope) : Nat × State :=
  let (c, w, t) := capTarget cap
  let a := Agent.troupe c w t
  let base := bitsN cap.toNat 7 0 + off
  let ls := lanesOf lanes
  match getCx s c, getWg s c w, s.thread a with
  | some x, some g, some th =>
    if g.ended || th.status != .running || !macOk x.key cap || th.regGen.toNat != bitsN cap.toNat 95 80 then (6, s)
    else if ls.any fun l => (List.range k).any fun i => !th.isEmpty l (base + i) then (11, s)
    else
      let ws := (ls.zip (List.range ls.length)).flatMap fun l => (List.range k).map fun i =>
        let v := deliveredWord vals k l.2 i
        (l.1, base + i, v)
      let s := touchPages s c w (operandPages g t k (.v (BitVec.ofNat 8 base)))
      let s := reback (s.setThread a fun th => th.writes (ws.map fun y => .v y.1 y.2.1 y.2.2.1 y.2.2.2)) c w
      (0, if rel then acquireFor s a scope else s)
  | _, _, _ => (6, s)

/-- Two deliveries come from one sender: one agent, or the stream of one package. -/
def Sender.same : Sender → Sender → Bool
  | .word a _ _ _, .word b _ _ _ => a == b
  | .packet p, .packet q => p.src == q.src
  | .word _ _ _ _, .packet _ => false
  | .packet _, .word _ _ _ _ => false

/-- The delivery is not on its way: it has been performed, or its word has yet to send it. -/
def Delivery.over (d : Delivery) : Bool :=
  match d.phase with
  | .answered _ => true
  | .source => true
  | .saved => false
  | .ring => false
  | .slice => false
  | .inbound _ => false
  | .fabric => false

/-- An earlier delivery of the same sender to the same target is still on its way (R189). -/
def sendBefore (s : State) (d : Delivery) : Bool :=
  s.sends.any fun e => decide (e.id < d.id) && e.sender.same d.sender && capTarget e.cap == capTarget d.cap
    && bitsN e.cap.toNat 39 28 == bitsN d.cap.toNat 39 28 && !e.over

/-- Deliveries that wait for one that has just been applied, or for room: their steps are due. -/
def sendsDue (s : State) : List Instr :=
  s.sends.filterMap fun e => match e.phase with
    | .inbound _ => some (.rwrDeliveryApply e.id)
    | .slice => some (.sliceForward e.id)
    | .source => none
    | .saved => none
    | .ring => none
    | .fabric => none
    | .answered _ => none

/-- A delivery is performed and its answer is on its way (R187, R188): by the Carousel, from a core, where it came by it (R270, R271). -/
def performSend (s : State) (d : Delivery) (at_ : Option Nat) : State :=
  let r := deliverWords s d.cap d.off d.k d.lanes d.vals d.rel d.scope
  let s := sendPhase r.2 d (.answered r.1) []
  let s := match at_, d.sender with
    | some n, .word _ core _ _ =>
      if d.byRing then enterRing s (n / 8) (n % 8) (core % 8) 1 (shorterWay (n % 8) (core % 8)).1 (.answer d.id)
      else { s with inputs := s.inputs ++ [Instr.rwrAnswer d.id] }
    | _, _ => { s with inputs := s.inputs ++ [Instr.rwrAnswer d.id] }
  { s with inputs := s.inputs ++ sendsDue s }

/-- A delivery takes its entries of queue 2 at a core (R237, R240), or waits in its path with its place among those that stall (R238). -/
def takeInbound (s : State) (core : Nat) (d : Delivery) : Bool × State :=
  match poolEnter s core 2 (d.units 16) (.delivery d.id) with
  | some s => (true, sendPhase s d (.inbound core) (.rwrDeliveryApply d.id :: sendsDue s))
  | none => (false, poolWait s core 2 (.delivery d.id))

/-- `RWR_DELIVERY_APPLY` (R187, R237): a delivery in queue 2 is applied and its entries are free. -/
def execRwrDeliveryApply (i : Nat) (s : State) : Out :=
  match s.sends.find? fun d => d.id == i with
  | none => .next s
  | some d =>
    match d.phase with
    | .inbound core =>
      if sendBefore s d then .next s
      else
        let s := s.setCore core (poolFree (s.core core) 2 (d.units 16))
        let s := performSend s d (some core)
        .next { s with inputs := s.inputs ++ [.poolEntryGrant core 2] ++ ringWake s (core / 8) }
    | _ => .next s

/-- The slice holds a delivery while the entry of its target is MOVING (R359). -/
def sliceHolds (s : State) (d : Delivery) : Bool :=
  let t := capTarget d.cap
  lookupBy (t.1, t.2.1) s.forward == some 1 && (getWg s t.1 t.2.1).any fun g => !g.ended

/-- `SLICE_FORWARD` (R265, R187): to the core that holds the target, or performed at the slice where the target is swapped out; the slice
holds it while the target's entry is MOVING (R359). -/
def execSliceForward (i : Nat) (s : State) : Out :=
  match s.sends.find? fun d => d.id == i with
  | none => .next s
  | some d =>
    if d.phase ≠ .slice || sendBefore s d || sliceHolds s d then .next s
    else
      let t := capTarget d.cap
      match coreOf s t.1 t.2.1 with
      | some n => .next (takeInbound s n d).2
      | none => .next (performSend s d none)

end Sys2Proof.Machine
end

