-- ==== Sys2Proof/Machine/Launch.lean ====
section
/-!
DEFINITION. Command queues (R321-R323), launches (R324-R327), the first placement of workgroups (R328-R330), the slices of the
dispensers (R333-R334), and how a troupe, a workgroup and a launch end (R331, R332).
-/

namespace Sys2Proof.Machine

/-! ### Queues -/

/-- A command queue. -/
def State.queue (s : State) (q : Nat) : Queue := tget Queue.fresh s.queues q

/-- Change a command queue. -/
def State.setQueue (s : State) (q : Nat) (x : Queue) : State := { s with queues := tset Queue.fresh s.queues q x }

/-- PRIO of a queue (R321). -/
def Queue.prio (x : Queue) : Nat := bitsN x.cfg.toNat 6 5

/-- The device may fetch the command at HEAD (R322). -/
def Queue.fetchable (x : Queue) : Bool := x.cfg.getLsbD 7 && !x.halted && x.head != x.tail && x.cmd.isNone

/-- The address of the command at HEAD (R321). -/
def Queue.slot (x : Queue) : Nat := bitsN x.base.toNat 56 8 * 256 + 256 * (x.head.toNat % 2 ^ bitsN x.cfg.toNat 4 0)

/-- The command at HEAD, 2,048 bits. -/
def headCmd (s : State) (x : Queue) : Nat := memNat s 0 x.slot 256

/-- TYPE of a command (R322). -/
def cmdType (c : Nat) : Nat := bitsN c 3 0

/-- The step that fetches the command at HEAD, if it may be fetched now (R322). -/
def nextFetch (s : State) (q : Nat) : State :=
  let x := s.queue q
  if !x.fetchable then s
  else
    let i : Instr := match cmdType (headCmd s x) with
      | 0 => .cmdNop q
      | 1 => .cmdLaunch q
      | 2 => .cmdWait q
      | 3 => .cmdSignal q
      | _ => .cmdBadType q
    { s with inputs := s.inputs ++ [i] }

/-- The command has started: HEAD moves past it and the next one is fetched (R322). -/
def startedQ (s : State) (q : Nat) : State :=
  let x := s.queue q
  nextFetch (s.setQueue q { x with head := x.head + 1, cmd := none }) q

/-- The queue stops at the command at HEAD (R321-R323, R325). -/
def haltQueue (s : State) (q err : Nat) : State :=
  s.setQueue q { s.queue q with halted := true, err := err, cmd := none, bad := true }

/-- Fetch the command at HEAD when it may be fetched and has this TYPE. -/
def takeCmd (s : State) (q typ : Nat) : Option (Nat × State) :=
  let x := s.queue q
  let c := headCmd s x
  if x.fetchable && cmdType c == typ then some (c, s.setQueue q { x with cmd := some (c, .fetched) }) else none

/-- Move the command of a queue to a phase. -/
def setPhase (s : State) (q : Nat) (p : CmdPhase) : State :=
  let x := s.queue q
  s.setQueue q { x with cmd := x.cmd.map fun c => (c.1, p) }

/-- `CMD_NOP` (R322). -/
def execCmdNop (q : Nat) (s : State) : Out :=
  match takeCmd s q 0 with
  | none => .next s
  | some (_, s) => .next (startedQ s q)

/-- `CMD_BAD_TYPE` (R322). -/
def execCmdBadType (q : Nat) (s : State) : Out :=
  let x := s.queue q
  if x.fetchable && decide (4 ≤ cmdType (headCmd s x)) then .next (haltQueue s q 1) else .next s

/-- Check 8 of R325 on an address space: granted to the queue, below ASTLEN, and valid. -/
def spaceOk (s : State) (q asid : Nat) : Bool :=
  (s.queue q).grants.contains asid && decide (asid < s.trans.astlen.toNat) && bitsN (spaceEntry s asid) 96 96 == 1

/-- A WAIT or SIGNAL that R323 accepts: other bits zero, an aligned address, a usable address space. -/
def waitFieldsOk (s : State) (q c : Nat) : Bool :=
  bitsN c 63 4 == 0 && bitsN c 191 185 == 0 && c / 2 ^ 208 == 0 && bitsN c 184 128 % 8 == 0 && spaceOk s q (bitsN c 207 192)

/-- The access of a queue command is refused (R323): a PAGE record is written and awaited, a PROT halts the queue. -/
def refuseCmd (s : State) (q err asid va : Nat) (r : Refused) (k : Access) : State :=
  match writeFault s va asid r 5 0 0 0 k with
  | none => s
  | some (id, s) => if r.1 = .page then setPhase s q (.page id) else haltQueue s q err

/-- `CMD_WAIT`: a WAIT is fetched (R323). -/
def execCmdWait (q : Nat) (s : State) : Out :=
  match takeCmd s q 2 with
  | none => .next s
  | some (c, s) =>
    if waitFieldsOk s q c then .next { s with inputs := s.inputs ++ [Instr.waitConditionMet q] } else .next (haltQueue s q 1)

/-- `WAIT_CONDITION_MET` (R323): the word is read as an acquire at pod scope, and the WAIT starts once it is large enough. A
line of another package is asked for again while it is not. -/
def execWaitConditionMet (q : Nat) (s : State) : Out :=
  match (s.queue q).cmd with
  | some (c, .declined) => if cmdType c = 2 then .next (haltQueue s q 1) else .next s
  | some (c, .fetched) =>
    let asid := bitsN c 207 192
    let va := bitsN c 184 128
    if cmdType c ≠ 2 then .next s
    else
      match frontWalk s asid va .load with
      | (.error r, s) => .next (refuseCmd s q 1 asid va r .load)
      | (.ok (pa, key), s) =>
        if inDirectory pa then .fault .originDirectory
        else
          let s := if homedHere s pa then drainDie s 0 else s
          match frontRead s pa key 8 with
          | (none, s) => .next s
          | (some (b, _), s) =>
            if bitsN c 127 64 ≤ ofBytes b then .next (startedQ (acquireAll s) q) else .next (rdcDrop s 0 pa)
  | _ => .next s

/-- The contexts that have not ended. -/
def liveCxs (s : State) : List Context := (s.cx :: s.cxs).filter fun x => x.live

/-- A launch of the queue has not ended (R323, R326). -/
def launchesOut (s : State) (q : Nat) : Bool := (liveCxs s).any fun x => x.queue == q

/-- A SIGNAL writes its value when every earlier launch of its queue has ended (R323). -/
def trySignal (s : State) (q c : Nat) : Out :=
  let asid := bitsN c 207 192
  let va := bitsN c 184 128
  if launchesOut s q then .next s
  else
    match frontWalk s asid va .store with
    | (.error r, s) => .next (refuseCmd s q 1 asid va r .store)
    | (.ok (pa, key), s) =>
      if inDirectory pa then .fault .originDirectory
      else
        match frontWrite s pa key (toBytes 8 (bitsN c 127 64)) with
        | (none, s) => .next (startedQ s q)
        | (some t, s) => .next (setPhase s q (.sent t))

/-- `CMD_SIGNAL` (R323): a SIGNAL is fetched, or tries again. -/
def execCmdSignal (q : Nat) (s : State) : Out :=
  match (s.queue q).cmd with
  | none =>
    match takeCmd s q 3 with
    | none => .next s
    | some (c, s) => if waitFieldsOk s q c then trySignal s q c else .next (haltQueue s q 1)
  | some (c, .fetched) => if cmdType c = 3 then trySignal s q c else .next s
  | some (c, .declined) => if cmdType c = 3 then .next (haltQueue s q 1) else .next s
  | some _ => .next s

/-- `CMD_LAUNCH` (R322): a LAUNCH is fetched. -/
def execCmdLaunch (q : Nat) (s : State) : Out :=
  match takeCmd s q 1 with
  | none => .next s
  | some (_, s) => .next { s with inputs := s.inputs ++ [.launchStart q] }

/-! ### The checks of a launch -/

/-- The ranges of bits that R324 lists as zero. -/
def zeroRanges : List (Nat × Nat) :=
  [(30, 28), (63, 60), (127, 120), (191, 185), (447, 441), (511, 505), (575, 569), (895, 889), (927, 921), (991, 985),
   (1087, 1081), (1167, 1161), (2047, 1296)]
    ++ (List.range 4).map (fun d => (639 + 64 * d, 618 + 64 * d))
    ++ (List.range 4).map fun i => (1199 + 32 * i, 1189 + 32 * i)

/-- S of a launch (R324). -/
def lStages (c : Nat) : Nat := 2 ^ bitsN c 6 5
/-- Troupes per workgroup (R324). -/
def lTroupes (c : Nat) : Nat := bitsN c 11 7 + 1
/-- `.regs` (R324). -/
def lRegs (c : Nat) : Nat := bitsN c 19 12 + 1
/-- UREGS (R324). -/
def lUregs (c : Nat) : Nat := bitsN c 27 20
/-- SCRATCH (R324). -/
def lScratch (c : Nat) : Nat := bitsN c 51 32
/-- L1PG (R324). -/
def lL1 (c : Nat) : Nat := bitsN c 59 52
/-- STACK (R324). -/
def lStack (c : Nat) : Nat := bitsN c 95 64
/-- CTX (R324). -/
def lCtx (c : Nat) : Nat := bitsN c 102 96
/-- ASID (R324). -/
def lAsid (c : Nat) : Nat := bitsN c 119 104
/-- CODE (R324). -/
def lCode (c : Nat) : Nat := bitsN c 184 128
/-- CORES (R324). -/
def lCores (c : Nat) : BitVec 192 := BitVec.ofNat 192 (bitsN c 383 192)
/-- UREGP (R324). -/
def lUregp (c : Nat) : Nat := bitsN c 440 384
/-- TTAB (R324). -/
def lTtab (c : Nat) : Nat := bitsN c 504 448
/-- STKBASE (R324). -/
def lStkbase (c : Nat) : Nat := bitsN c 568 512
/-- DISPd (R324, R333). -/
def lDisp (c d : Nat) : Nat := bitsN c (639 + 64 * d) (576 + 64 * d)
/-- WLBASE (R324). -/
def lWlbase (c : Nat) : Nat := bitsN c 888 832
/-- NLIST (R324). -/
def lNlist (c : Nat) : Nat := bitsN c 906 896
/-- SEEDP (R324). -/
def lSeedp (c : Nat) : Nat := bitsN c 984 928
/-- SEEDN (R324). -/
def lSeedn (c : Nat) : Nat := bitsN c 1023 992
/-- DONEADDR (R324). -/
def lDone (c : Nat) : Nat := bitsN c 1080 1024
/-- NH (R324). -/
def lNh (c : Nat) : Nat := bitsN c 1160 1152
/-- PHREQi (R324). -/
def lPhreq (c i : Nat) : Nat := bitsN c (1199 + 32 * i) (1168 + 32 * i)
/-- MODE: dynamic (R324). -/
def lDynamic (c : Nat) : Bool := bitsN c 4 4 == 1

/-- The selected cores of a cluster, in increasing number (R327). -/
def clusterCores (m : BitVec 192) (cl : Nat) : List Nat := ((List.range 8).map (· + 8 * cl)).filter fun k => m.getLsbD k

/-- The frames that one workgroup needs (R18, R19). -/
def framesOf (troupes regs scratch l1pg : Nat) : Nat := troupes * (ceilDiv regs 32 + 1) + 1 + ceilDiv scratch 4096 + l1pg

/-- The first check of R325 from 1 to 8 that a launch fails, or 0. -/
def launchFails (s : State) (q c : Nat) : Nat :=
  let cores := lCores c
  if zeroRanges.any fun r => bitsN c r.1 r.2 != 0 then 1
  else if 128 < lUregs c ∨ lL1 c < 8 ∨ 224 < lL1 c ∨ lStack c % 8 ≠ 0 then 2
  else if cores = 0 || (List.range 192).any (fun k => cores.getLsbD k && (s.core k).disabled)
      || (List.range 24).any (fun cl => (clusterCores cores cl).length % lStages c != 0) then 3
  else if 224 < framesOf (lTroupes c) (lRegs c) (lScratch c) (lL1 c) then 4
  else if lCode c % 8 ≠ 0 ∨ lUregp c % 4 ≠ 0 ∨ lTtab c % 64 ≠ 0 ∨ lStkbase c % 8 ≠ 0 ∨ lWlbase c % 64 ≠ 0 ∨ lSeedp c % 32 ≠ 0 then 5
  else if 256 < lNh c ∨ (List.range 4).any fun d => bitsN (lDisp c d) 31 0 != 0 && decide (lNh c ≤ bitsN (lDisp c d) 39 32) then 6
  else if (if lDynamic c then lNlist c == 0 || decide (1024 < lNlist c)
      else lNlist c != 0 || lSeedn c != 0 || bitsN c 920 920 != 0) then 7
  else if !spaceOk s q (lAsid c) || decide (s.trans.savecnt.toNat ≤ lCtx c) then 8
  else 0

/-! ### The completion record -/

/-- The 64 bytes of a completion record (R332). -/
def doneRecord (doneval : DWord) (status reason : Nat) (f : FaultInfo) (left undrawn : Nat) : List Byte :=
  toBytes 64 (doneval.toNat + (status + reason * 16 + f.wg % 256 * 2 ^ 12 + f.troupe % 32 * 2 ^ 20) * 2 ^ 64
    + f.pc.toNat * 2 ^ 128 + left % 2 ^ 32 * 2 ^ 192 + undrawn % 2 ^ 32 * 2 ^ 224)

/-- Write a completion record at a translated address, DONEVAL last as a release (R331). -/
def putRecord (s : State) (asid pa key : Nat) (r : List Byte) : State :=
  frontPost (frontPost s asid (pa + 8) key (r.drop 8)) asid pa key (r.take 8)

/-- The launch is refused (R325): its record holds STATUS 1 and the check, and the queue moves on. -/
def refuseLaunch (s : State) (q c check : Nat) : Out :=
  match frontWalk s (lAsid c) (lDone c) .store with
  | (.error r, s) => .next (refuseCmd s q 2 (lAsid c) (lDone c) r .store)
  | (.ok (pa, key), s) =>
    if inDirectory pa then .fault .originDirectory
    else .next (startedQ (putRecord s (lAsid c) pa key (doneRecord (BitVec.ofNat 64 (bitsN c 1151 1088)) 1 check ⟨0, 0, 0, 0⟩ 0 0)) q)

/-! ### What a launch sets up -/

/-- A permutation of a list that a number picks. -/
def permute {α : Type} : Nat → Nat → List α → List α
  | 0, _, l => l
  | n + 1, k, l =>
    match l[k % (max 1 l.length)]? with
    | none => []
    | some x => x :: permute n (k / max 1 l.length) (removeAt l (k % max 1 l.length))

/-- Cut a list into groups of n. -/
def groupsOf {α : Type} (n : Nat) : Nat → List α → List (List α)
  | 0, _ => []
  | k + 1, l => if l.isEmpty then [] else l.take n :: groupsOf n k (l.drop n)

/-- The workgroups of a launch with their core, cohort and stage (R223, R327). The stage of a core within its group is free (log
entry 2). -/
def formCohorts (free : Nat) (m : BitVec 192) (S : Nat) : List (Nat × Nat × Nat × Nat) :=
  let groups := (List.range 24).flatMap fun cl => groupsOf S 8 (clusterCores m cl)
  (groups.zip (List.range groups.length)).flatMap fun g =>
    let l := permute g.1.length (Config.freeNat (free + g.2)) g.1
    (l.zip (List.range l.length)).map fun x => (g.2 * S + x.2, x.1, g.2, x.2)

/-- Slice(n) of a dispenser (R334). -/
def sliceOf (s : State) (asid : Nat) (home : Bool) (r : TRecord) (n : Nat) : Nat :=
  if !home then n % 4
  else
    let a := elemAddr r ((List.range 5).map fun d => gridCoord r n d * recTile r d)
    match frontWalk s asid a .load with
    | (.error _, _) => n % 4
    | (.ok (pa, _), _) =>
      match homeOf s pa with
      | some (p, d) => if p = s.pkg then d else (bitsN a 13 12) ^^^ (bitsN a 22 21)
      | none => (bitsN a 13 12) ^^^ (bitsN a 22 21)

/-- A dispenser at launch start (R333, R334): an invalid handle leaves every coordinate undrawn. -/
def dispenserOf (s : State) (asid f : Nat) (r : TRecord) : Dispenser :=
  let count := bitsN f 31 0
  if count = 0 then Dispenser.none
  else if !recValid r then ⟨true, bitsN f 41 41 == 1, [], count⟩
  else
    let where_ := (List.range count).map fun n => (n, sliceOf s asid (bitsN f 40 40 == 1) r n)
    ⟨true, bitsN f 41 41 == 1, (List.range 4).map (fun d => (d, (where_.filter fun x => x.2 == d).map Prod.fst)), 0⟩

/-- The record of a handle as TTAB gives it, checked under R136 (R328). -/
def loadRecord (s : State) (asid : Nat) (b : List Byte) : TRecord :=
  let r : TRecord := BitVec.ofNat 512 (ofBytes b % 2 ^ 511)
  if recStatus s asid r = 0 then r ||| BitVec.ofNat 512 (2 ^ 511) else r

/-- The place of the 64 KiB unit of an address when it is mapped with X = 1 (R410). A local window is never translated (R343). -/
def codeUnit (s : State) (asid va : Nat) : Option (Nat × Nat) :=
  if 2 ^ 57 ≤ va ∨ isWindow va then none
  else
  match (walkFrom s [] va 4 (bitsN (spaceEntry s asid) 56 0)).1 with
  | .error _ => none
  | .ok (_, e, level) =>
    let t := leafEntry asid 0 va level e
    if t.x then some (t.pa + (va - t.va), t.key) else none

/-- The units of the code region from an address on, at most `n` (R410). -/
def codeUnits (s : State) (asid : Nat) : Nat → Nat → List (Nat × Nat)
  | 0, _ => []
  | n + 1, va =>
    match codeUnit s asid va with
    | none => []
    | some u => u :: codeUnits s asid n (va + 65536)

/-- The unit's home is another package. -/
def farUnit (s : State) (u : Nat × Nat) : Bool := !homedHere s u.1 && !isHost u.1

/-- The lines of the code region whose homes are other packages, those of the trust table (R410, R414). -/
def farCode (s : State) (units : List (Nat × Nat)) : List (Nat × Nat) :=
  (units.filter fun u => farUnit s u && (match reach s u.1 u.2 with
    | .ok _ => true
    | .error _ => false)).flatMap fun u => (List.range 512).map fun i => (u.1 + 128 * i, u.2)

/-- Read the lines of other packages' code that the front end has not read yet, and ask for those that are still missing (R410). -/
def gatherCode : List (Nat × Nat) → List (Nat × List Byte) → State → List (Nat × List Byte) × State
  | [], k, s => (k, s)
  | (pa, key) :: r, k, s =>
    if (lookupBy pa k).isSome then gatherCode r k s
    else
      match frontRead s pa key 128 with
      | (some b, s) => gatherCode r ((pa, b.1) :: k) s
      | (none, s) => gatherCode r k s

/-- The bytes of a unit of the code region; `far` are the lines of other packages as they were read. -/
def unitBytes (s : State) (far : List (Nat × List Byte)) (u : Nat × Nat) : List Byte :=
  if farUnit s u then (List.range 512).flatMap fun i => (lookupBy (u.1 + 128 * i) far).getD [] else memBytes s u.2 u.1 65536

/-- The measurement of a launch (R410). Code at a home outside the trust table, which the device may not read, makes it a free value (log
entry 2). -/
def measure (s : State) (c : Nat) (ttab uregs seeds : List Byte) (units : List (Nat × Nat)) (far : List (Nat × List Byte)) : BitVec 256 :=
  let grant := memBytes s 0 (bitsN (spaceEntry s (lAsid c)) 184 128) 256
  let code := units.flatMap (unitBytes s far)
  if code.length = 65536 * units.length then
    Config.shake256 (toBytes 256 c ++ ttab ++ uregs ++ seeds ++ grant ++ toBytes 16 (bitsN c 1295 1168) ++ code)
  else (Config.freeWord s.free).setWidth 256

/-- The firmware creates the phasers of a launch (check 9 of R325): the phasers that are new, and whether one was refused. -/
def createPhreqs (c : Nat) : List Nat → State → List PhName × Bool × State
  | [], s => ([], false, s)
  | i :: r, s =>
    let f := lPhreq c i
    if bitsN f 20 20 = 0 then createPhreqs c r s
    else
      let sel := BitVec.ofNat 32 (bitsN f 12 0)
      let n := selName sel
      let any := bitsN f 13 13 == 1
      let s := s.setTether { s.tether with phsel := sel }
      let old := phNode s n
      let t := createPhaser s n ⟨any, lCtx c, 12288, bitsN f 19 14⟩
      if old.any fun x => x.anyOf != any then ([], true, t)
      else
        let q := createPhreqs c r t
        (if old.isSome then q.1 else n :: q.1, q.2)

/-- The package joins pod-wide phaser PCURT as a `sig` member (R340). -/
def joinCurtain (s : State) (pcurt : Nat) : State :=
  match phNode s (.pod pcurt) with
  | none => s
  | some x =>
    if x.anyOf || kindMismatch s (.pod pcurt) x then s
    else toRoot (withRoot s (.pod pcurt) x) (.pod pcurt) (.join s.pkg)

/-- Seed record i goes to list i mod NLIST of a context that has just started (R338). -/
def pushSeeds (s : State) (x : Context) (seeds : List Nat) : State :=
  if x.dynamic then (seeds.zip (List.range seeds.length)).foldl (fun s r => homePush s x.ctx (r.2 % x.nlist) r.1) s else s

/-- The context of a launch (R324, R327, R339, R410). -/
def newContext (s : State) (q c : Nat) (ttab : List Byte) (phreqs : List PhName) (units : List (Nat × Nat))
    (mctx : BitVec 256) : Context :=
  let asid := lAsid c
  let lo := lCode c / 65536 * 65536
  let handles := (List.range (lNh c)).foldl (fun m i => tset 0 m i (loadRecord s asid ((ttab.drop (64 * i)).take 64))) []
  let place := formCohorts s.free (lCores c) (lStages c)
  { Context.none with
    ctx := lCtx c, live := true, asid := asid, queue := q, dynamic := lDynamic c, stages := lStages c, troupes := lTroupes c,
    regs := lRegs c, uregs := lUregs c, scratch := lScratch c, l1pg := lL1 c, stack := lStack c,
    nopre := bitsN c 103 103 == 1 && (s.queue q).prio == 3, prio := (s.queue q).prio, code := BitVec.ofNat 64 (lCode c),
    cores := lCores c, uregp := BitVec.ofNat 64 (lUregp c), ttab := BitVec.ofNat 64 (lTtab c),
    stkbase := BitVec.ofNat 64 (lStkbase c), nlist := lNlist c, lcaplog := bitsN c 911 907,
    wlbase := BitVec.ofNat 64 (lWlbase c), pcurt := bitsN c 919 912, cen := bitsN c 920 920 == 1,
    doneaddr := BitVec.ofNat 64 (lDone c), doneval := BitVec.ofNat 64 (bitsN c 1151 1088), wcount := place.length,
    key := Config.random s.free, handles := handles,
    disps := (List.range 4).foldl (fun m d =>
      tset Dispenser.none m d (dispenserOf s asid (lDisp c d) (tget 0 handles (bitsN (lDisp c d) 39 32)))) [],
    open_ := if lDynamic c then lSeedn c + place.length else 0, phreqs := phreqs, order := s.launches, codeLo := lo,
    codeHi := lo + 65536 * units.length, codeUnits := units.map fun u => u.1 / 65536, mctx := mctx, toPlace := place }

/-- The lines of other packages' code that the measurement of the launch has read so far. -/
def measuredFar (s : State) (q : Nat) : List (Nat × List Byte) :=
  match (s.queue q).cmd with
  | some (_, .measuring far) => far
  | _ => []

/-- The launch starts (R326-R328, R338-R340, R410): its context lives, and its workgroups are to be placed. -/
def startLaunch (s : State) (q c : Nat) (phreqs : List PhName) : Out :=
  let asid := lAsid c
  match frontGather asid (linePieces (lTtab c) (64 * lNh c)) s with
  | (none, s) => .next s
  | (some ttab, s) =>
    match frontGather asid (linePieces (lUregp c) (4 * lUregs c)) s with
    | (none, s) => .next s
    | (some uregs, s) =>
      match frontGather asid (linePieces (lSeedp c) (32 * lSeedn c)) s with
      | (none, s) => .next s
      | (some seeds, s) =>
        let units := codeUnits s asid 4096 (lCode c / 65536 * 65536)
        let far := farCode s units
        let got := gatherCode far (measuredFar s q) s
        if got.1.length < far.length then .next (setPhase got.2 q (.measuring got.1))
        else
        let s := got.2
        let x := newContext s q c ttab phreqs units (measure s c ttab uregs seeds units got.1)
        let s := { s with cxs := s.cxs ++ [x], free := s.free + 192, launches := s.launches + 1 }
        let s := pushSeeds s x (((groupsOf 32 (lSeedn c) seeds)).map ofBytes)
        let s := if x.cen then joinCurtain s x.pcurt else s
        let s := setPhase s q .placing
        .next { s with inputs := s.inputs ++ x.toPlace.map fun p => Instr.workgroupPlace x.ctx p.1 }

/-- A launch whose waits are over (R325): DONEADDR, checks 1 to 8, the translation of DONEADDR, and check 9. -/
def checkLaunch (s : State) (q c : Nat) : Out :=
  if lDone c % 64 ≠ 0 then .next (haltQueue s q 2)
  else
    let n := launchFails s q c
    if n ≠ 0 then refuseLaunch s q c n
    else
      match frontWalk s (lAsid c) (lDone c) .store with
      | (.error r, s) => .next (refuseCmd s q 2 (lAsid c) (lDone c) r .store)
      | (.ok (pa, _), s) =>
        if inDirectory pa then .fault .originDirectory
        else
          let p := createPhreqs c [0, 1, 2, 3] s
          if p.2.1 then refuseLaunch (p.1.foldl destroyPhreq p.2.2) q c 9
          else
            match startLaunch p.2.2 q c p.1 with
            | .next t =>
              if (t.queue q).cmd = some (c, .placing) then .next t
              else .next ({ s with fabric := t.fabric }.setQueue q { s.queue q with cmd := (t.queue q).cmd })
            | .fault e => .fault e
            | .refused e => .refused e

/-- A launch at the head of its queue: the waits of R325, and then the checks. -/
def tryLaunch (s : State) (q c : Nat) : Out :=
  if cmdType c ≠ 1 then .next s
  else if bitsN c 31 31 = 1 ∧ launchesOut s q then .next s
  else if (liveCxs s).any fun x => x.ctx == lCtx c then .next s
  else checkLaunch s q c

/-- `LAUNCH_START` (R325, R326, R410). -/
def execLaunchStart (q : Nat) (s : State) : Out :=
  match (s.queue q).cmd with
  | some (c, .declined) => if cmdType c = 1 then .next (haltQueue s q 2) else .next s
  | some (c, .fetched) => tryLaunch s q c
  | some (c, .measuring _) => tryLaunch s q c
  | _ => .next s

/-! ### Placement -/

/-- The troupe slots that n troupes take on scheduler j (R225). -/
def slotsOn (n j : Nat) : Nat := ceilDiv (n - j) 4

/-- A workgroup of these sizes has room on a core (R19, R225, R329): frames, slots and one of the four context slots. -/
def roomOn (s : State) (core troupes frames : Nat) : Bool :=
  let l := wgsOn s core
  let on := l.filter fun g => !g.ended
  decide (frames + (l.map fun g => framesOf g.troupes g.nregs g.scratchSize g.l1pg).sum ≤ 224)
    && decide ((l.map fun g => g.ctx).eraseDups.length < 4)
    && (List.range 4).all fun j => decide (slotsOn troupes j + (on.map fun g => slotsOn g.troupes j).sum ≤ 16)

/-- The frames of one workgroup of a context. -/
def Context.frameNeed (x : Context) : Nat := framesOf x.troupes x.regs x.scratch x.l1pg

/-- A core has room for a workgroup of a context. -/
def hasRoom (s : State) (x : Context) (core : Nat) : Bool :=
  !(s.core core).disabled && roomOn s core x.troupes x.frameNeed

/-- The slots of scheduler j of a core that those troupes of its workgroups occupy that `f` picks (R225); of one workgroup only those
below troupe t. -/
def takenSlots (s : State) (core j c w t : Nat) (f : Thread → Bool) : List Nat :=
  ((s.th :: s.threads).filter f).filterMap fun th => match th.agent with
    | .troupe c' w' t' =>
      if t' % 4 = j && ((getWg s c' w').any fun g => !g.ended && g.core == some core) && !(c' == c && w' == w && decide (t ≤ t')) then some th.slot
      else none
    | .matrix _ _ => none
    | .copy _ _ => none
    | .control _ => none
    | .firmware _ => none

/-- The troupes of a workgroup take the lowest free slots of their schedulers (R225, R226; log entry 1), each with a wait count and a
score of 0 (R227, R230). -/
def seatWg (s : State) (c w n core : Nat) : State :=
  (List.range n).foldl (fun s t =>
    let taken := takenSlots s core (t % 4) c w t fun _ => true
    let all := (List.range 4).flatMap fun j => (takenSlots s core j c w t fun th => th.status == .running).map (· + 16 * j)
    let slot := (((List.range 16).filter fun i => !taken.contains i).head?).getD 0
    let a := Agent.troupe c w t
    let f (th : Thread) : Thread := if th.agent == a then { th with slot := slot, waited := 0 } else th
    let c := s.core core
    { s with th := f s.th, threads := s.threads.map f }.setCore core { c with throttle := c.throttle.seat (16 * (t % 4) + slot) all }) s

/-- A workgroup has been placed on a core: unpinned frames are reclaimed where it needs them (R19, R358), and its troupes take slots. -/
def occupy (s : State) (c w n core : Nat) : State :=
  let own := ((wgsOn s core).map fun g => framesOf g.troupes g.nregs g.scratchSize g.l1pg).sum
  seatWg (reclaimTo (224 - own) (unpinnedOn s core) s) c w n core

/-- Whether the first of two contexts is pre-empted before the second (R329): the lower PRIO, then the later launch. -/
def yieldsFirst (x y : Context) : Bool := decide (x.prio < y.prio) || (x.prio == y.prio && decide (y.order < x.order))

/-- The cohort that gives room on a core to a context of a priority (R329): none is left while one is being stopped. -/
def victimOn (s : State) (prio core : Nat) : Option (Nat × Nat) :=
  let l := (wgsOn s core).filterMap fun g => (getCx s g.ctx).map fun x => (x, g.cohort)
  let can := l.filter fun v => decide (v.1.prio < prio) && !v.1.nopre
  if can.any fun v => v.1.preempting.contains v.2 then none
  else (can.find? fun v => can.all fun u => u.1.ctx == v.1.ctx || yieldsFirst v.1 u.1).map fun v => (v.1.ctx, v.2)

/-- The identity registers of troupe t of a workgroup on a core (R14, R223). -/
def identOf (s : State) (t wg stage cohort core : Nat) : Ident := ⟨t, wg, stage, cohort, core, core / 8, core / 48, s.pkg⟩

/-- Uniform registers from bytes (R328). -/
def uregTable (b : List Byte) (n : Nat) : TMap Word :=
  (List.range n).foldl (fun m i => tset 0 m i (BitVec.ofNat 32 (ofBytes ((b.drop (4 * i)).take 4)))) []

/-- Troupe t of workgroup w before its first word (R328). -/
def newTroupe (x : Context) (w t : Nat) (id : Ident) (uregs : List Byte) : Thread :=
  let base := x.stkbase + BitVec.ofNat 64 ((32 * w + t) * x.stack)
  let hi := base + BitVec.ofNat 64 x.stack
  let th := { Thread.fresh (.troupe x.ctx w t) .running 0xffffffff with
    nregs := x.regs, k := uregTable uregs x.uregs, ident := id, stklo := base, stkhi := hi }
  let th := { th with grp := { th.grp with pc := x.code } }
  if x.stack = 0 then th else (th.wrK 126 (hi.setWidth 32) false).wrK 127 (hi.extractLsb' 32 32) false

/-- A sequencer before its first FORK (R152, R328). -/
def newSeq (a : Agent) (id : Ident) : Thread := { Thread.fresh a .idle 0 with ident := id }

/-- A workgroup before its first word (R328). -/
def newWorkgroup (x : Context) (w core cohort stage now : Nat) : Workgroup :=
  { Workgroup.none with
    ctx := x.ctx, wgl := w, stage := stage, cohort := cohort, core := some core, placed := true, troupes := x.troupes,
    nregs := x.regs, scratchSize := x.scratch, l1pg := x.l1pg, frames := some core, pinBase := now }

/-- A launch whose first workgroup has been placed, or that never has one, has started (R322). -/
def launchBegun (s : State) (x : Context) : State :=
  match (s.queue x.queue).cmd with
  | some (c, .placing) => if lCtx c = x.ctx then startedQ s x.queue else s
  | _ => s

/-- Workgroups that are never placed give up their start credits, so that O can reach 0 and LEFT counts records alone (R332, R339,
R342). DEDUCED; log entry 48. -/
def dropCredits (s : State) (x : Context) (n : Nat) : State := if x.dynamic then setOpen s x (x.open_ - n) else putCx s x

/-- One member of a cohort is placed on its core (R328), with the uniform registers of its troupes in `b`. -/
def placeMember (x : Context) (b : List Byte) (s : State) (p : Nat × Nat × Nat × Nat) : State :=
  match p with
  | (wg, core, cohort, stage) =>
    let id (t : Nat) : Ident := identOf s t wg stage cohort core
    let ths := (List.range x.troupes).map fun t => newTroupe x wg t (id t) b
    let seqs := [newSeq (.matrix x.ctx wg) (id 0), newSeq (.copy x.ctx wg) (id 0)]
    let s := { s with
      threads := s.threads ++ ths ++ seqs, wgs := s.wgs ++ [newWorkgroup x wg core cohort stage s.clock],
      forward := putBy (x.ctx, wg) (core + 2) s.forward }
    occupy s x.ctx wg x.troupes core

/-- The cohorts that have to give way so that a context has room on some cores (R329). -/
def victimsOn (s : State) (x : Context) (cores : List Nat) : List Instr :=
  ((cores.filter fun k => !hasRoom s x k).filterMap fun k => (victimOn s x.prio k).map fun v => Instr.preemptCohort v.1 v.2).eraseDups

/-- `WORKGROUP_PLACE` (R224, R328-R330, R342): the members of a cohort are placed together where all their cores have room; else
cohorts of lower priority give way; a core that has been disabled never takes one, and the launch ends by system software. -/
def execWorkgroupPlace (ctx wg : Nat) (s : State) : Out :=
  match getCx s ctx with
  | none => .next s
  | some x =>
    match x.toPlace.find? fun p => p.1 == wg with
    | none => .next s
    | some (_, _, cohort, _) =>
      let mine := x.toPlace.filter fun p => p.2.2.1 == cohort
      let left := x.toPlace.filter fun p => p.2.2.1 != cohort
      let cores := mine.map fun p => p.2.1
      if (cores.any fun k => (s.core k).disabled) || x.ending then
        let s := launchBegun (dropCredits s { x with toPlace := left, endedBySystem := true } mine.length) x
        .next { s with inputs := s.inputs ++ [.launchEnd ctx] }
      else if cores.any fun k => !hasRoom s x k then .next { s with inputs := s.inputs ++ victimsOn s x cores }
      else
        match frontGather x.asid (linePieces x.uregp.toNat (4 * x.uregs)) s with
        | (none, s) => .next s
        | (some b, s) => .next (launchBegun (mine.foldl (placeMember x b) (putCx s { x with toPlace := left })) x)

/-! ### Ends -/

/-- Everything that waits for room looks again (R329, R330). -/
def roomAgain (s : State) : State :=
  { s with inputs := s.inputs ++ (liveCxs s).flatMap fun x => x.toPlace.map fun p => Instr.workgroupPlace x.ctx p.1 }

/-- A troupe that has ended is counted (R180, R331, R339): its REGGEN goes up, and the start credit of its workgroup hears of it. -/
def countEnd (s : State) (c w t : Nat) : State :=
  match getWg s c w with
  | none => s
  | some g =>
    if g.gone.getLsbD t then s
    else
      let s := putWg s { g with gone := g.gone ||| laneBit t }
      creditTroupe (s.setThread (.troupe c w t) fun th => { th with regGen := th.regGen + 1 }) c w t

/-- `TROUPE_END` (R109): the last lane has ended and every memory word of the troupe has completed, or a fault has ended it. -/
def execTroupeEnd (c w t : Nat) (s : State) : Out :=
  match s.thread (.troupe c w t) with
  | none => .next s
  | some th =>
    if th.failed then .next { countEnd s c w t with inputs := s.inputs ++ [.workgroupEnd c w] }
    else if th.live = 0 && th.status == .running && memoryDone th then
      let s := countEnd (s.setThread (.troupe c w t) fun th => { th with status := .ended, pend := [] }) c w t
      .next { s with inputs := s.inputs ++ [.workgroupEnd c w] }
    else .next s

/-- A sequencer of a workgroup does nothing any more (R331). -/
def seqQuiet (s : State) (a : Agent) : Bool :=
  match s.thread a with
  | none => true
  | some t => t.status != .running

/-- The troupes of a workgroup that have ended, those that a fault of the workgroup has ended included. -/
def countFailed (s : State) (g : Workgroup) : State :=
  (List.range g.troupes).foldl (fun s t =>
    if (s.thread (.troupe g.ctx g.wgl t)).any fun th => th.failed then countEnd s g.ctx g.wgl t else s) s

/-- The conditions of R331 for the end of a workgroup. The writes of its troupes are acknowledged, so that the release of the
completion record can cover them. -/
def wgDone (s : State) (g : Workgroup) : Bool :=
  (List.range g.troupes).all (fun t => g.gone.getLsbD t)
    && seqQuiet s (.matrix g.ctx g.wgl) && seqQuiet s (.copy g.ctx g.wgl)
    && (List.range 8).all (fun n => (g.tl n).issued == (g.tl n).value)
    && !(s.tether.held.any fun h => h.member.1 == g.ctx && h.member.2.1 == g.wgl)
    && !((s.th :: s.threads).any fun t => t.agent.inWg g.ctx g.wgl && !t.fabric.isEmpty) && g.mq.isEmpty
    && !(s.colls.any fun x => x.issuer.inWg g.ctx g.wgl && !x.remote.isEmpty)

/-- The troupe slots that a workgroup occupies on its core (R225). -/
def wgSlots (s : State) (g : Workgroup) : List Nat :=
  ((s.th :: s.threads).filter fun t => t.agent.inWg g.ctx g.wgl).filterMap Thread.slotNo

/-- A registration of an ended workgroup (R198, R331): one that the root has not seen is not made, and one that it has made is dropped. -/
def dropJoining (s : State) (die : Nat) (j : Joining) : State :=
  let s := endJoining s j.member
  match j.first with
  | some f => dropMember s die j.member ⟨j.name, j.mode, f, f⟩ []
  | none =>
    let s := match phNode s j.name with
      | none => s
      | some x => setNode s j.name { x with members := x.members - 1 }
    match phRoot s j.name with
    | none => s
    | some r => setRoot s j.name { r with inbox := r.inbox.filter fun a => !(a.2 == .register j.member (j.mode != .wait)) }

/-- Every handle that is still bound is dropped (R331). -/
def dropHandles (s : State) (g : Workgroup) : State :=
  let die := coreDie (g.core.getD 0)
  let s := (s.tether.joining.filter fun j => j.member.1 == g.ctx && j.member.2.1 == g.wgl).foldl (fun s j => dropJoining s die j) s
  g.phs.foldl (fun s h => dropMember s die (g.ctx, g.wgl, h.1) h.2 []) s

/-- Ended members of a cohort give their pages back when the last one has ended (R224). -/
def freeCohort (s : State) (c cohort : Nat) : State :=
  let mine (g : Workgroup) : Bool := g.ctx == c && g.cohort == cohort
  let waits := (getCx s c).any fun x => x.toPlace.any fun p => p.2.2.1 == cohort
  if waits || (allWgs s).any fun g => mine g && !g.ended then s
  else (allWgs s).foldl (fun s g => if mine g then putWg s { g with core := none, frames := none } else s) s

/-- `WORKGROUP_END` (R331). -/
def execWorkgroupEnd (c w : Nat) (s : State) : Out :=
  match getWg s c w with
  | none => .next s
  | some g =>
    let s := countFailed s g
    match getWg s c w with
    | none => .next s
    | some g =>
      if g.ended || !wgDone s g then .next s
      else
        let s := dropHandles s g
        let s := putWg s { g with ended := true, phs := [], forkq := [], l1 := [], l1Due := [], l1Own := [] }
        let s := match g.core with
          | none => s
          | some core =>
            let k := s.core core
            let s := s.setCore core { k with owner := if k.owner = some (c, w) then none else k.owner }
            { s with inputs := s.inputs ++ [.arrayOwnershipChange core] }
        let s := roomAgain (freeCohort s c g.cohort)
        .next { s with inputs := s.inputs ++ [.launchEnd c] }

/-- Records pushed and not retired at launch end (R332, R339). -/
def Context.leftOver (x : Context) : Nat := if x.dynamic then x.open_ else 0

/-- Coordinates never drawn (R332). -/
def Context.undrawn (x : Context) : Nat := (x.disps.map fun d => (d.2.slices.map fun l => l.2.length).sum + d.2.undrawn).sum

/-- STATUS, REASON and the rest of the completion record of a context that has ended (R332). -/
def Context.record (x : Context) : List Byte :=
  let f := x.fault.getD ⟨0, 0, 0, 0⟩
  let status := if x.fault.isSome then 2 else if x.endedBySystem then 3 else if x.leftOver ≠ 0 then 4 else 0
  doneRecord x.doneval status (if status = 2 then f.cause else 0) f x.leftOver x.undrawn

/-- The context, its workgroups and its agents are gone; the turn goes to another agent if it was one of them. -/
def forgetContext (s : State) (c : Nat) : State :=
  let mine (a : Agent) : Bool := a.place.any fun p => p.1 == c
  let s := if mine s.th.agent then
      match s.threads.find? fun t => !mine t.agent with
      | some t => (focus s t.agent).getD s
      | none => s
    else s
  let s := focusCx (focusWg s s.th.agent.place) (s.th.agent.place.map Prod.fst)
  { s with threads := s.threads.filter fun t => !mine t.agent, wgs := s.wgs.filter fun g => g.ctx != c,
           cxs := s.cxs.filter fun x => x.ctx != c, forward := s.forward.filter fun f => f.1.1 != c,
           colls := s.colls.filter fun x => x.ctx != c, collLagged := s.collLagged.filter fun x => x.1 != c, collq := s.collq.filter fun m => m.ctx != c }

/-- Everything that waits for the end of a launch looks again (R323, R326, R329). -/
def afterLaunch (s : State) : State :=
  roomAgain { s with inputs := s.inputs ++ s.queues.flatMap fun q => [Instr.launchStart q.1, Instr.cmdSignal q.1] }

/-- The queue of a launch stops because its completion record cannot be written (R325). -/
def haltDone (s : State) (q : Nat) : State := s.setQueue q { s.queue q with halted := true, err := 2 }

/-- `LAUNCH_END` (R331, R332). The launch has ended, so its code region is no longer guarded (R410). -/
def execLaunchEnd (c : Nat) (s : State) : Out :=
  match getCx s c with
  | none => .next s
  | some x =>
    if !x.toPlace.isEmpty || ((allWgs s).any fun g => g.ctx == c && !g.ended) || x.doneWait.isSome then .next s
    else
      let s := launchBegun s x
      let x := { x with phreqs := [], key := 0, codeLo := 0, codeHi := 0, codeUnits := [] }
      let s := putCx (((getCx s c).getD x).phreqs.foldl destroyPhreq s) x
      let va := x.doneaddr.toNat
      if x.declined then .next (afterLaunch (haltDone (forgetContext s c) x.queue))
      else
        match frontWalk s x.asid va .store with
        | (.ok (pa, key), s) =>
          if inDirectory pa then .fault .originDirectory
          else .next (afterLaunch (putRecord (forgetContext s c) x.asid pa key x.record))
        | (.error r, s) =>
          match writeFault s va x.asid r 5 c 0 0 .store with
          | none => .next s
          | some (id, s) =>
            if r.1 = .page then .next (putCx s { x with doneWait := some id })
            else .next (afterLaunch (haltDone (forgetContext s c) x.queue))

end Sys2Proof.Machine
end

