-- ==== Sys2Proof/Machine/Context.lean ====
section
/-!
DEFINITION. Contexts that share the package: pre-emption and resume (R359-R361), the end of a context (R362), the answers to fault
records (R356), and the homes of pages (R357, R363-R365).
-/

namespace Sys2Proof.Machine

/-! ### Waits that pre-emption cancels -/

/-- Lanes of a sub-group go back to a word, splitting off from those that do not (R129). -/
def sendBack (m : LaneMask) (pc : DWord) (g : Sub) : List Sub :=
  if g.mask &&& m = 0 then [g]
  else if g.mask &&& ~~~m = 0 then [{ g with pc := pc }]
  else
    let low := laneBit (lowLane g.mask)
    [{ g with mask := g.mask &&& ~~~m, bcast := g.bcast && low &&& m == 0 },
     { g with mask := g.mask &&& m, pc := pc, bcast := g.bcast && low &&& m != 0 }]

/-- A wait of which no window word has issued is issued again after resume (R129, R176, R429). -/
def Pend.cancelled (p : Pend) : Bool := !p.issued && p.waitsFor fun _ => true

/-- Cancel the waits of an agent whose words are issued again (R359). -/
def cancelWaits (th : Thread) : Thread :=
  let go := th.pend.filter Pend.cancelled
  let subs := go.foldl (fun l p => l.flatMap (sendBack p.lanes p.pc)) (th.grp :: th.rest)
  match subs with
  | [] => th
  | g :: r => { th with grp := g, rest := r, pend := th.pend.filter fun p => !p.cancelled }

/-- Change every agent of a workgroup. -/
def mapAgents (s : State) (c w : Nat) (f : Thread → Thread) : State := mapWhere s (Agent.inWg c w) f

/-- The members of a cohort that are placed in the package. -/
def cohortOf (s : State) (c cohort : Nat) : List Workgroup := (allWgs s).filter fun g => g.ctx == c && g.cohort == cohort

/-! ### Queued items -/

/-- The entries that the matrix operations of a workgroup hold that have not started. -/
def waitingEntries (g : Workgroup) : Nat := ((g.mq.filter fun x => x.waits && x.paid).map MatOp.entries).sum

/-- The collectives of a workgroup that have not started; each holds 3 entries (R237). -/
def waitingColls (s : State) (g : Workgroup) : List Coll :=
  s.colls.filter fun x => x.issuer.inWg g.ctx g.wgl && x.waits

/-- The delivery is one of the workgroup. -/
def Delivery.inWg (d : Delivery) (g : Workgroup) : Bool :=
  match d.sender with
  | .word a _ _ _ => a.inWg g.ctx g.wgl
  | .packet _ => false

/-- The deliveries of a workgroup in its save area (R243). -/
def savedSends (s : State) (g : Workgroup) : List Delivery := s.sends.filter fun d => d.inWg g && d.phase == .saved

/-- The deliveries of a workgroup that wait in the source buffer of its core's Carousel stop: they hold entries of queue 0 (R237). -/
def unsent (s : State) (g : Workgroup) : List Delivery :=
  s.sends.filter fun d => d.inWg g && d.phase == .ring && s.carousels.any fun r => r.2.packets.any fun p =>
    p.buf == .source && (match p.load with
      | .delivery id => id == d.id
      | .answer _ => false
      | .request _ => false
      | .reply _ _ _ _ => false)

/-- Deliveries go back from the source buffer of a Carousel to the save area (R243). -/
def saveSends (l : List Delivery) (s : State) (core : Nat) : State :=
  let mine (id : Nat) : Bool := l.any fun d => d.id == id
  let r := s.ring (core / 8)
  let s := s.setRing (core / 8) { r with packets := r.packets.filter fun p => match p.load with
    | .delivery id => !mine id
    | .answer _ => true
    | .request _ => true
    | .reply _ _ _ _ => true }
  { s with sends := s.sends.map fun d => if mine d.id then { d with phase := .saved, byRing := false } else d }

/-- The entries of queue 0 that a workgroup's items hold while they wait at its core (R237). -/
def copyEntries (s : State) (g : Workgroup) (cmds : List CopyCmd) : Nat :=
  (cmds.map fun x => x.entries).sum + 3 * ((waitingColls s g).filter Coll.paid).length + ((unsent s g).map fun d => d.units 16).sum

/-- A workgroup leaves its core's queues (R243, R359): commands that have not started go with it, producers that stall withdraw
their words, and the array has no owner. -/
def leaveQueues (s : State) (g : Workgroup) (core : Nat) : State × List CopyCmd :=
  let c := s.core core
  let mine (x : CopyCmd) : Bool := x.issuer.inWg g.ctx g.wgl && x.waits
  let out := c.copyq.filter mine
  let c := poolFree (poolFree c 0 (copyEntries s g out)) 1 (waitingEntries g)
  let c := { c with
    copyq := c.copyq.filter fun x => !mine x, stalled := c.stalled.filter fun x => !x.2.inWg g.ctx g.wgl,
    owner := if c.owner = some (g.ctx, g.wgl) then none else c.owner,
    throttle := c.throttle.leave (wgSlots s g) }
  let s := drainWork (saveSends (unsent s g) (s.setCore core c) core) core
  let steps := [.poolEntryGrant core 0, .poolEntryGrant core 1, .arrayOwnershipChange core] ++ ringWake s (core / 8)
  ({ s with inputs := s.inputs ++ steps }, out.map fun x => { x with reads := [] })

/-- An operation of the workgroup is on the array or in the assist (R359). -/
def onArray (g : Workgroup) : Bool := g.mq.any fun x => x.phase == .started || x.phase == .assist || x.phase == .assistWait

/-! ### Pre-emption -/

/-- The entries of the items that leave with a workgroup (R243). -/
def leavingEntries (s : State) (g : Workgroup) (cmds : List CopyCmd) : Nat :=
  (cmds.map fun x => x.entries).sum + 3 * (waitingColls s g).length + ((unsent s g ++ savedSends s g).map fun d => d.units 16).sum
    + ((g.mq.filter MatOp.waits).map MatOp.entries).sum

/-- What pre-emption writes to the save area of a workgroup (R359): the matrix state where it owns the array, its queued items, and its
open windows. -/
def saveOut (s : State) (g : Workgroup) (core entries : Nat) : State :=
  let s := if (s.core core).owner = some (g.ctx, g.wgl) then saveMatrix s g else s
  saveWindows (saveItems s g entries) g

/-- One member of a cohort is swapped out (R359): its pinned pages are unpinned. -/
def swapOut (n : Nat) (s : State) (g : Workgroup) : State :=
  match g.core with
  | none => s
  | some core =>
    let s := mapAgents s g.ctx g.wgl cancelWaits
    let mine := (s.core core).copyq.filter fun x => x.issuer.inWg g.ctx g.wgl && x.waits
    let r := leaveQueues (saveOut s g core (leavingEntries s g (mine ++ g.saved))) g core
    let g := setPages g (pagesIn g .pinned) .unpinned
    let g := { g with
      core := none, stopping := false, saved := r.2 ++ g.saved, forkq := [], l1 := [], l1Due := [], l1Own := [], outOrder := n,
      mq := g.mq.map fun x => { x with paid := !x.waits } }
    let colls := r.1.colls.map fun x => if x.issuer.inWg g.ctx g.wgl && x.waits then { x with paid := false } else x
    { putWg r.1 g with forward := putBy (g.ctx, g.wgl) 0 r.1.forward, colls := colls }

/-- The delivery is bound for a workgroup. -/
def Delivery.toWg (d : Delivery) (s : State) (g : Workgroup) : Bool :=
  bitsN d.cap.toNat 39 28 == s.pkg && (capTarget d.cap).1 == g.ctx && (capTarget d.cap).2.1 == g.wgl

/-- The forwarding entries of workgroups go to MOVING (R359): from then on the slices hold what is bound for them. -/
def setMoving (s : State) (l : List Workgroup) : State :=
  { s with forward := l.foldl (fun f g => putBy (g.ctx, g.wgl) 1 f) s.forward }

/-- A core still has to apply a delivery of its inbound queue to a workgroup (R359). -/
def inboundFor (s : State) (g : Workgroup) : Bool :=
  s.sends.any fun d => d.toWg s g && !sendBefore s d && (match d.phase with
    | .inbound _ => true
    | _ => false)

/-- `PREEMPT_COHORT` (R359): issue stops in every member; once nothing of it is on an array, its forwarding entries go to MOVING, and once
its cores have applied what has reached their queues, the cohort is swapped out and the slices go on with what they hold. -/
def execPreemptCohort (ctx cohort : Nat) (s : State) : Out :=
  match getCx s ctx with
  | none => .next s
  | some x =>
    let l := (cohortOf s ctx cohort).filter fun g => g.core.isSome
    if l.isEmpty || x.ending || l.all fun g => g.ended then
      .next (putCx { s with inputs := s.inputs ++ sendsDue s } { x with preempting := x.preempting.filter (· != cohort) })
    else
      let s := l.foldl (fun s g => putWg s { g with stopping := true }) s
      let x := { x with preempting := if x.preempting.contains cohort then x.preempting else x.preempting ++ [cohort] }
      let s := putCx s x
      if l.any onArray then .next s
      else if l.any fun g => lookupBy (g.ctx, g.wgl) s.forward != some 1 then .next (setMoving s l)
      else if l.any (inboundFor s) then .next s
      else
        let n := ((allWgs s).map fun g => g.outOrder).foldl max 0 + 1
        let s := (cohortOf s ctx cohort).foldl (swapOut n) s
        let s := { s with inputs := s.inputs ++ sendsDue s }
        .next (roomAgain (putCx s { x with preempting := x.preempting.filter (· != cohort) }))

/-! ### Answers to fault records -/

/-- Whether a sub-group awaits the answer to a record. -/
def Sub.awaits (id : Nat) (g : Sub) : Bool :=
  match g.st with
  | .page n _ => n == id
  | .run => false
  | .rcw _ => false
  | .tret _ => false
  | .brk _ _ => false

/-- The lane that a PAGE fault of a sub-group is reported for (R126). -/
def Sub.pageLane (g : Sub) : Nat :=
  match g.st with
  | .page _ l => l
  | .run => 0
  | .rcw _ => 0
  | .tret _ => 0
  | .brk _ _ => 0

/-- The agents of which a sub-group awaits the answer to a record. -/
def pageAgents (s : State) (id : Nat) : List Agent :=
  ((s.th :: s.threads).filter fun t => (t.grp :: t.rest).any (Sub.awaits id)).map fun t => t.agent

/-- The sub-group walks again, and replays its logged word (R128, R356). -/
def retrySubs (id : Nat) (t : Thread) : Thread :=
  let f (g : Sub) : Sub := if g.awaits id then { g with st := .run } else g
  { t with grp := f t.grp, rest := t.rest.map f }

/-- The agent ends with PAGE at the word of the sub-group that awaited the answer (R126, R356). -/
def declineAgent (id : Nat) (s : State) (a : Agent) : State :=
  match focus s a with
  | none => s
  | some t =>
    match (t.th.grp :: t.th.rest).find? (Sub.awaits id) with
    | none => s
    | some g =>
      let r : TrapRegs := match g.replay with
        | some w => fullTrapRegs w.word 0
        | none => ⟨0, 0, 0, 0, 0⟩
      let th := { setTrapRegs t.th .page g.pageLane false r with trappc := g.pc }
      let u := endAgent (t.setTh th) .page
      (focus u s.th.agent).getD u

/-- Whether a copy command awaits the answer. -/
def CopyCmd.awaits (id : Nat) (x : CopyCmd) : Bool := x.phase == .page id

/-- The copy commands of a core hear the answer (R354, R356). -/
def answerCopies (id : Nat) (decline : Bool) (s : State) (core : Nat) : State :=
  match (s.core core).copyq.find? (CopyCmd.awaits id) with
  | none => s
  | some x =>
    if decline then declineCmd s core x
    else
      let s := putCmd s core { x with phase := .queued }
      { s with inputs := s.inputs ++ [.walkAheadTranslate core, .copyStart core] }

/-- The operations of a matrix queue up to the one that awaits the answer. -/
def splitOps (id : Nat) : List MatOp → Option (List MatOp × MatOp × List MatOp)
  | [] => none
  | x :: r =>
    if x.phase = .page id then some ([], x, r)
    else (splitOps id r).map fun p => (x :: p.1, p.2)

/-- The matrix operation of a workgroup hears the answer (R154, R356). -/
def answerOps (id : Nat) (decline : Bool) (s : State) (g : Workgroup) : State :=
  match splitOps id g.mq with
  | none => s
  | some (before, x, after) =>
    if decline then
      match engCtx s (g.core.getD 0) (.matrix g.ctx g.wgl) with
      | none => s
      | some e => failOp (reportOp s e x) g before x after
    else
      let s := putWg s { g with mq := before ++ { x with phase := .queued } :: after }
      match g.core with
      | none => s
      | some core => { s with inputs := s.inputs ++ [.arrayOpStart core] }

/-- The collectives hear the answer (R356, R375). -/
def answerColls (id : Nat) (decline : Bool) (s : State) : State :=
  let mine := s.colls.filter fun x => x.phase == .page id
  let s := mine.foldl (fun s x =>
    if decline then failColl s x 3 else putColl s { x with phase := if x.group.isEmpty then .accepted else .running }) s
  { s with inputs := s.inputs ++ mine.map fun x => .collectiveComplete x.ctx x.num }

/-- The steps that a command queue may be due for. -/
def queueSteps (q : Nat) : List Instr := [.launchStart q, .waitConditionMet q, .cmdSignal q]

/-- The queues hear the answer (R323, R325). -/
def answerQueues (id : Nat) (decline : Bool) (s : State) : State :=
  s.queues.foldl (fun s e => match e.2.cmd with
    | some (_, .page n) =>
      if n = id then
        let s := setPhase s e.1 (if decline then .declined else .fetched)
        { s with inputs := s.inputs ++ queueSteps e.1 }
      else s
    | _ => s) s

/-- The launches whose completion record awaits the answer hear it (R325, R331). -/
def answerDone (id : Nat) (decline : Bool) (s : State) : State :=
  (liveCxs s).foldl (fun s x =>
    if x.doneWait = some id then
      let s := putCx s { x with doneWait := none, declined := decline }
      { s with inputs := s.inputs ++ [.launchEnd x.ctx] }
    else s) s

/-- An answer takes effect (R356). -/
def applyAnswer (s : State) (id : Nat) (decline : Bool) : State :=
  let s := { s with trans := { s.trans with waits := s.trans.waits.filter fun w => w.id != id } }
  let s := if decline then (pageAgents s id).foldl (declineAgent id) s
    else { s with th := retrySubs id s.th, threads := s.threads.map (retrySubs id) }
  let s := (s.cores.map Prod.fst).foldl (answerCopies id decline) s
  let s := (allWgs s).foldl (answerOps id decline) s
  answerDone id decline (answerQueues id decline (answerColls id decline s))

/-- A workgroup still has items to restore (R361). -/
def owesAny (s : State) (g : Workgroup) : Bool := owesItems s g 0 || owesItems s g 1

/-- What waits is a word or command of a workgroup that is swapped out or being restored (R356). -/
def waitsSwapped (s : State) (w : FaultWait) : Bool :=
  decide (w.agent ≤ 3) && (getWg s w.ctx w.wgl).any fun g => !g.ended && (g.core.isNone || owesAny s g)

/-- System software answers a record (R356): across a pre-emption the answer takes effect after resume, and an ID that names no
waiting record is ignored. -/
def answer (s : State) (id : Nat) (decline : Bool) : State :=
  match s.trans.waits.find? fun w => w.id == id && w.answer.isNone with
  | none => s
  | some w =>
    if waitsSwapped s w then
      { s with trans := { s.trans with waits := s.trans.waits.map fun v => if v.id = id then { v with answer := some decline } else v } }
    else applyAnswer s id decline

/-- `PFQDONE_RETRY` (R356). -/
def execPfqdoneRetry (id : Word) (s : State) : Out := .next (answer s id.toNat false)

/-- `PFQDONE_DECLINE` (R356). -/
def execPfqdoneDecline (id : Word) (s : State) : Out := .next (answer s id.toNat true)

/-- Everything that may wait for room in the fault ring tries again (R355). -/
def ringRoom (s : State) : State :=
  let qs := s.queues.flatMap fun q => queueSteps q.1
  let cs := s.cores.flatMap fun c => [Instr.walkAheadTranslate c.1, .copyStart c.1, .arrayOpStart c.1]
  { s with inputs := s.inputs ++ qs ++ cs ++ (liveCxs s).map (fun x => .launchEnd x.ctx)
             ++ s.colls.map fun x => .collectiveComplete x.ctx x.num }

/-- `PFQHEAD_WRITE` (R355, R357). -/
def execPfqheadWrite (head : Word) (s : State) : Out := .next (ringRoom { s with trans := { s.trans with pfqhead := head } })

/-! ### Resume -/

/-- A placement of higher priority waits for room on a core (R329): the room that pre-emption makes there is its. DESIGN CHOICE (log entry
51). -/
def roomAwaited (s : State) (x : Context) (core : Nat) : Bool :=
  (liveCxs s).any fun y => decide (x.prio < y.prio) && y.toPlace.any fun p => p.2.1 == core

/-- A core can take back a member of a pre-empted cohort (R327, R329, R361). -/
def canResume (s : State) (x : Context) (core : Nat) : Bool :=
  x.cores.getLsbD core && !((wgsOn s core).any fun h => h.ctx == x.ctx) && hasRoom s x core && !roomAwaited s x core

/-- The saved commands of a member join the queue of a core again, in their order, as far as there is room (R238, R361). -/
def restoreCmds (core c w : Nat) : List CopyCmd → State → State
  | [], s => s
  | x :: r, s =>
    if poolRoom (s.core core) 0 x.entries then
      let k := poolTake (s.core core) 0 x.entries
      let s := s.setCore core { k with copyq := k.copyq ++ [{ x with id := k.nextCopy }], nextCopy := k.nextCopy + 1 }
      restoreCmds core c w r (match getWg s c w with
        | none => s
        | some g => putWg s { g with saved := r })
    else s

/-- The collectives of a member that have not started take their entries again (R361). -/
def restoreColls (core : Nat) : List Coll → State → State
  | [], s => s
  | x :: r, s =>
    if poolRoom (s.core core) 0 3 then restoreColls core r (putColl (s.setCore core (poolTake (s.core core) 0 3)) { x with paid := true })
    else s

/-- The saved deliveries of a member leave from its new core (R186, R243, R361). -/
def restoreSends (core : Nat) : List Delivery → State → State
  | [], s => s
  | d :: r, s =>
    if poolRoom (s.core core) 0 (d.units 16) then
      let d' := { d with sender := match d.sender with
        | .word a _ tl ticket => .word a core tl ticket
        | .packet p => .packet p }
      restoreSends core r (launchSend (putSend (s.setCore core (poolTake (s.core core) 0 (d.units 16))) d') d' core)
    else s

/-- The matrix operations of a member that have not started take their entries again, in their order (R361). -/
def restoreOps : List MatOp → CoreSt → List MatOp × CoreSt
  | [], k => ([], k)
  | x :: r, k =>
    if x.paid then let q := restoreOps r k; (x :: q.1, q.2)
    else if poolRoom k 1 x.entries then let q := restoreOps r (poolTake k 1 x.entries); ({ x with paid := true } :: q.1, q.2)
    else (x :: r, k)

/-- What a member still has to restore takes its entries as far as there is room (R361): what was accepted first comes first. -/
def restoreItems (core c w : Nat) (s : State) : State :=
  match getWg s c w with
  | none => s
  | some g =>
    let q := restoreOps g.mq (s.core core)
    let s := restoreCmds core c w g.saved (putWg (s.setCore core q.2) { g with mq := q.1 })
    match getWg s c w with
    | none => s
    | some g =>
      if !g.saved.isEmpty then s
      else
        let s := restoreColls core ((waitingColls s g).filter fun x => !x.paid) s
        if (waitingColls s g).any fun x => !x.paid then s else restoreSends core (savedSends s g) s

/-- Answers that waited for a workgroup's resume take effect (R356). -/
def lateAnswers (s : State) (g : Workgroup) : State :=
  (s.trans.waits.filter fun w => w.ctx == g.ctx && w.wgl == g.wgl).foldl (fun s w => match w.answer with
    | some d => applyAnswer s w.id d
    | none => s) s

/-- The sends of a workgroup that are due again (R186). -/
def resumeSteps (core : Nat) : List Instr :=
  [.walkAheadTranslate core, .copyStart core, .arrayOwnershipChange core, .arrayOpStart core, .arrayOpComplete core]

/-- A member restores what it can, and goes on with what it has restored; once it has restored everything, the answers that came while
it was swapped out take effect (R356, R361). -/
def restore (s : State) (g : Workgroup) (core : Nat) : State :=
  let s := restoreItems core g.ctx g.wgl s
  let s := { s with inputs := s.inputs ++ resumeSteps core ++ (waitingColls s g).map fun x => .collectiveComplete x.ctx x.num }
  match getWg s g.ctx g.wgl with
  | none => s
  | some g => if owesAny s g then s else lateAnswers s g

/-- Every resident workgroup that has still items to restore tries again (R361). -/
def restoreAll (s : State) : State :=
  ((allWgs s).filter fun g => g.core.isSome && !g.stopping && owesAny s g).foldl (fun s g => restore s g (g.core.getD 0)) s

/-- One member of a cohort is placed again (R361): its pages are pinned as they are touched, from the backing unless it is back
on its own core. -/
def swapIn (s : State) (p : Workgroup × Nat) : State :=
  let g := p.1
  let core := p.2
  let s := freshDie s (core / 48)
  let place (t : Thread) : Thread := { t with ident := { t.ident with core := core, cluster := core / 8, die := core / 48, pkg := s.pkg } }
  let s := mapAgents s g.ctx g.wgl place
  let s := if g.frames = some core then s else evictPages s g (pagesIn g .unpinned)
  let s := (((getWg s g.ctx g.wgl).map fun h => pagesIn h .evicted).getD []).foldl (readPage g.ctx g.wgl) s
  let g := (getWg s g.ctx g.wgl).getD g
  let s := occupy (putWg s { g with core := some core, frames := some core }) g.ctx g.wgl g.troupes core
  let colls := s.colls.map fun x => if x.issuer.inWg g.ctx g.wgl then { x with core := core } else x
  let s := mapAgents s g.ctx g.wgl fun t => { t with resumed := true }
  restore { s with forward := putBy (g.ctx, g.wgl) (core + 2) s.forward, colls := colls } g core

/-- `RESUME_COHORT` (R361): on distinct cores of one cluster, one for each member in the order of its stages. -/
def execResumeCohort (ctx cohort : Nat) (cores : List Nat) (s : State) : Out :=
  match getCx s ctx with
  | none => .next s
  | some x =>
    let l := cohortOf s ctx cohort
    let pairs := l.zip cores
    let ok := l.length == cores.length && cores.eraseDups == cores && cores.all (fun k => k / 8 == cores.headD 0 / 8)
      && l.all (fun g => g.core.isNone) && l.any (fun g => !g.ended) && !x.ending && cores.all (canResume s x)
    if !ok then .next s
    else
      let s := pairs.foldl swapIn s
      .next { s with inputs := s.inputs ++ sendsDue s }

/-- The cohorts that are swapped out, with what R329 orders them by: PRIO and the pre-emptions before theirs. -/
def outCohorts (s : State) : List (Context × Nat × Nat) :=
  ((allWgs s).filter fun g => g.core.isNone && !g.ended).filterMap fun g =>
    (getCx s g.ctx).bind fun x => if x.ending then none else some (x, g.cohort, g.outOrder)

/-- The choices of cores of one cluster for a cohort; which of them it gets is free (log entry 2). -/
def coresFor (s : State) (x : Context) (cohort cl : Nat) : Option (List Nat) :=
  let l := cohortOf s x.ctx cohort
  let can := ((List.range 8).map (· + 8 * cl)).filter fun k => canResume s x k
  if can.length < l.length then none else some ((permute can.length (Config.freeNat s.free) can).take l.length)

/-- The cohort that resumes next (R329): of those that have room, the highest PRIO, and then the earliest pre-emption. -/
def resumeNext (s : State) : Option Instr :=
  let l := (outCohorts s).filterMap fun o =>
    let sets := (List.range 24).filterMap (coresFor s o.1 o.2.1)
    (sets[Config.freeNat (s.free + 1) % max 1 sets.length]?).map fun k => (o, k)
  (l.find? fun a => l.all fun b =>
    decide (b.1.1.prio < a.1.1.prio) || (b.1.1.prio == a.1.1.prio && decide (a.1.2.2 ≤ b.1.2.2))).map fun a =>
      .resumeCohort a.1.1.ctx a.1.2.1 a.2

/-- `PAGE_REFILL` (R19, R361): a page that has been touched is pinned. -/
def execPageRefill (ctx wg page : Nat) (s : State) : Out :=
  match getWg s ctx wg with
  | none => .next s
  | some g =>
    if decide (page < backedPages g) then .next (touchPages s ctx wg [page]) else .next s

/-! ### The end of a context -/

/-- `CTXCTL_PREEMPT` (R357, R359): every resident cohort of a context that R329 would allow to be pre-empted. -/
def execCtxctlPreempt (ctx : Nat) (s : State) : Out :=
  match getCx s ctx with
  | none => .next s
  | some x =>
    if x.nopre then .next s
    else
      let ks := (((allWgs s).filter fun g => g.ctx == ctx && g.core.isSome && !g.ended).map fun g => g.cohort).eraseDups
      .next { s with inputs := s.inputs ++ ks.map fun k => .preemptCohort ctx k }

/-- Something of a context that runs to its end before the completion record (R362): operations on an array, started copies, and
writes that are not acknowledged. -/
def contextBusy (s : State) (ctx : Nat) : Bool :=
  ((allWgs s).any fun g => g.ctx == ctx && (onArray g || g.mq.any fun x => x.phase == .acking))
    || (s.colls.any fun x => x.ctx == ctx && !x.remote.isEmpty)
    || (s.cores.any fun c => c.2.copyq.any fun x => x.issuer.place.any (fun p => p.1 == ctx) && !x.waits)
    || (s.th :: s.threads).any fun t => t.agent.place.any (fun p => p.1 == ctx) && !t.fabric.isEmpty

/-- One workgroup of a context that is being ended (R362): its agents end, what has not started is discarded without a ticket,
and its handles are dropped. -/
def endMember (s : State) (g : Workgroup) : State :=
  let stop (t : Thread) : Thread :=
    if t.failed then t else { t with status := .ended, live := 0, rest := [], grp := { t.grp with mask := 0 }, pend := [] }
  let s := (List.range g.troupes).foldl (fun s t => countEnd s g.ctx g.wgl t) (mapAgents s g.ctx g.wgl stop)
  let g := (getWg s g.ctx g.wgl).getD g
  let s := match g.core with
    | none => s
    | some core => (leaveQueues s g core).1
  let s := { s with colls := s.colls.filter (fun x => !(x.issuer.inWg g.ctx g.wgl && x.waits)), sends := s.sends.filter fun d => match d.sender with
    | .word a _ _ _ => !(a.inWg g.ctx g.wgl && (d.phase == DeliveryPhase.saved || d.phase == DeliveryPhase.source))
    | .packet _ => true }
  let s := s.setTether { s.tether with held := s.tether.held.filter fun h => !(h.member.1 == g.ctx && h.member.2.1 == g.wgl) }
  let s := if g.ended then s else dropHandles s g
  putWg s { g with ended := true, core := none, frames := none, stopping := false, saved := [], mq := [], forkq := [], phs := [], l1 := [], l1Due := [], l1Own := [] }

/-- `CTXCTL_END` (R362): issue stops at once; the rest follows when nothing of the context is on its way. -/
def execCtxctlEnd (ctx : Nat) (s : State) : Out :=
  match getCx s ctx with
  | none => .next s
  | some x =>
    let mine (g : Workgroup) : Bool := g.ctx == ctx
    let s := if x.ending then s
      else
        let s := ((allWgs s).filter mine).foldl (fun s g => if g.ended then s else putWg s { g with stopping := true }) s
        let s := launchBegun s x
        let colls := s.colls.map fun y =>
          if y.ctx = ctx && y.phase == .running then { y with phase := .failed, code := 10 } else y
        dropCredits { s with colls := colls } { x with ending := true, endedBySystem := true, toPlace := [], preempting := [] } x.toPlace.length
    if contextBusy s ctx then .next s
    else
      let s := ((allWgs s).filter mine).foldl endMember s
      .next { roomAgain s with inputs := (roomAgain s).inputs ++ [.launchEnd ctx] }

/-! ### Homes -/

/-- Pod time in a die's units: nanoseconds (R14). -/
def msNs : Nat := 1000000

/-- Count up in a 16-bit counter that saturates (R365). -/
def bump16 (n : Nat) : Nat := min (n + 1) 65535

/-- The home of a unit as a requester number: 4 × package + die (R363). -/
def unitHome (s : State) (u : Nat) : Nat :=
  match tget 0 s.trans.homes u with
  | 0 => 4 * (u * 65536 / 2 ^ 39 % 4096) + u * 65536 / 2 ^ 37 % 4
  | h + 1 => h

/-- The requester that asked most in the epoch: ties go to the lower package and die (R364). -/
def topRequester (l : List (Nat × Nat)) : Option (Nat × Nat) :=
  l.find? fun a => l.all fun b => decide (b.2 < a.2) || (b.2 == a.2 && decide (a.1 ≤ b.1))

/-- The core whose requests of a unit in this epoch led a die of this package, plus 1 (R365); ties go to the lower core. 0: none, or
another package's. -/
def coreFor (s : State) (u who : Nat) : Nat :=
  let l := (tget [] s.trans.askers u).filter fun e => who / 4 == s.pkg && e.1 / 48 == who % 4
  match l.find? fun a => l.all fun b => decide (b.2 < a.2) || (b.2 == a.2 && decide (a.1 ≤ b.1)) with
  | none => 0
  | some a => a.1 + 1

/-- A candidate that the epoch's counts call for (R364). -/
def migCandidate (s : State) (u : Nat) : Option Nat :=
  let l := tget [] s.trans.counts u
  let m := s.trans.migcfg.toNat
  let home := unitHome s u
  match topRequester l with
  | none => none
  | some (who, n) =>
    let own := (lookupBy home l).getD 0
    if who ≠ home ∧ bitsN m 0 0 = 1 ∧ (who / 4 = s.pkg ∨ bitsN m 1 1 = 1) ∧ bitsN m 21 10 ≤ n ∧ 2 * own ≤ n then some who else none

/-- A frame of the candidate's pool (R364). The pool of another package is not this package's: whether it has a frame is free. -/
def takeFrame (s : State) (who : Nat) : Option (Nat × State) :=
  if who / 4 = s.pkg then
    match tget [] s.trans.frames (who % 4) with
    | [] => none
    | f :: r => some (f + 1, { s with trans := { s.trans with frames := tset [] s.trans.frames (who % 4) r } })
  else if Config.freeNat s.free % 2 = 0 then none
  else some (0, { s with free := s.free + 1 })

/-- `MIGRATION_EPOCH_END` (R364, R365): the home considers a move and counts afresh. A save area never moves (R358). -/
def execMigrationEpochEnd (u : Nat) (s : State) : Out :=
  let cand := migCandidate s u
  let mine := unitHome s u / 4 == s.pkg
  let by_ := (cand.map (coreFor s u)).getD 0
  let s := { s with trans := { s.trans with counts := tset [] s.trans.counts u [], askers := tset [] s.trans.askers u [] } }
  match cand with
  | none => .next s
  | some who =>
    if !mine || inSaveAreas s u || tget false s.trans.pinned u || s.trans.moving.any (fun m => m.1 == u) then .next s
    else if s.podTime < tget 0 s.trans.hold u then
      match by_ with
      | 0 => .next s
      | c + 1 => .next (s.setCore c { s.core c with migHeld := bump16 (s.core c).migHeld })
    else
      match takeFrame s who with
      | none => .next { s with trans := { s.trans with noframe := bump16 s.trans.noframe } }
      | some (f, s) => .next { s with trans := { s.trans with moving := s.trans.moving ++ [((u, who, f, by_) : Nat × Nat × Nat × Nat)] }, inputs := s.inputs ++ [.pageHomeMove u] }

/-- The old home gives its frame back (none: another package's), unless it is the origin frame, and the unit has its new one (R364). A move
to the origin die takes a frame of its pool like any other. -/
def swapFrames (t : Trans) (old : Option Nat) (u new : Nat) : Trans :=
  let f := tget 0 t.unitFrame u
  let frames := match old with
    | some o => if f = 0 then t.frames else tset [] t.frames (o % 4) (tget [] t.frames (o % 4) ++ [f - 1])
    | none => t.frames
  { t with frames := frames, unitFrame := tset 0 t.unitFrame u new }

/-- The fourth move of a unit within 1 ms begins a thrash hold, which its home counts (R365). -/
def thrashHold (s : State) (u : Nat) (times : List (Nat × Nat)) (who home : Nat) : State :=
  let now := s.podTime
  let hold := bitsN s.trans.migcfg.toNat 35 22 * msNs
  match times with
  | [_, _, third] =>
    if now ≤ third.1 + msNs then
      let s := { s with trans := { s.trans with hold := tset 0 s.trans.hold u (now + hold),
                                                pins := if home / 4 = s.pkg then bump16 s.trans.pins else s.trans.pins } }
      ((who :: times.map Prod.snd).eraseDups.filter (· != 0)).foldl (fun s c =>
        s.setCore (c - 1) { s.core (c - 1) with migPinned := bump16 (s.core (c - 1)).migPinned }) s
    else s
  | _ => s

/-- The bytes of a unit that comes from another package, and their marks (R249, R364): what it holds there is what its last home knows,
so they are free (log entry 35). -/
def bringUnit (s : State) (u : Nat) : State :=
  let bytes := ((List.range 65536).map fun i => (65536 * u + i, (Config.freeWord (s.free + i)).setWidth 8)).filter fun e => e.2 != (0 : Byte)
  let marks := ((List.range 4096).map fun i => (4096 * u + i, Config.freeNat (s.free + 65536 + i) % 2 == 1)).filter fun e => e.2
  { s with mem := tsplice s.mem (65536 * u) (65536 * u + 65536) bytes, memMark := tsplice s.memMark (4096 * u) (4096 * u + 4096) marks,
           free := s.free + 69632 }

/-- A unit moves to a new home, which its package's move counter counts (R364, R365). RDC copies at the new home are
discarded, and those of every die when the unit comes from another package, since no update has reached them (R256, R258). -/
def moveUnit (u who frame by_ : Nat) (s : State) : State :=
  let old := unitHome s u
  let origin := 4 * (u * 65536 / 2 ^ 39 % 4096) + u * 65536 / 2 ^ 37 % 4
  let times := tget [] s.trans.moveTimes u
  let t := swapFrames s.trans (if old / 4 = s.pkg then some old else none) u frame
  let t := { t with homes := tset 0 t.homes u (if who = origin then 0 else who + 1),
                    moving := t.moving.filter (fun m => m.1 != u),
                    moves := if old / 4 = s.pkg then bump16 t.moves else t.moves,
                    moveTimes := tset [] t.moveTimes u (((s.podTime, by_) :: times).take 3) }
  let s := { s with trans := t }
  let s := if who / 4 = s.pkg && old / 4 != s.pkg then bringUnit s u else s
  let ds := if who / 4 ≠ s.pkg then [] else if old / 4 ≠ s.pkg then List.range 4 else [who % 4]
  let s := ds.foldl (fun s d =>
    let v := s.die d
    s.setDie d { v with rdc := v.rdc.filter fun c => c.addr / 65536 != u }) s
  thrashHold s u times by_ who

/-- The home that another package gives a unit which it holds (R364): which one is free (log entry 35). -/
def moveFrom (u : Nat) (s : State) : State :=
  let who := Config.freeNat s.free % 16384
  let s := { s with free := s.free + 1 }
  if who = unitHome s u then s
  else
    match takeFrame s who with
    | none => s
    | some (f, s) => moveUnit u who f 0 s

/-- `PAGE_HOME_MOVE` (R364): every die of the package applies the writes on the unit, and it has its new home, in one step, so that the
old home has no request to hold meanwhile. A unit that another package holds moves as that package decides. -/
def execPageHomeMove (u : Nat) (s : State) : Out :=
  match s.trans.moving.find? fun m => m.1 == u with
  | none => if unitHome s u / 4 = s.pkg then .next s else .next (moveFrom u s)
  | some (_, who, frame, by_) => .next (moveUnit u who frame by_ ((List.range 4).foldl drainDie s))

/-- `THRASH_HOLD_END` (R365). -/
def execThrashHoldEnd (u : Nat) (s : State) : Out :=
  if tget 0 s.trans.hold u ≤ s.podTime then .next { s with trans := { s.trans with hold := tset 0 s.trans.hold u 0 } } else .next s

/-- `MIGFREE_PUSH` (R357): a pool holds at most 256 frames. -/
def execMigfreePush (die : Nat) (frame : DWord) (s : State) : Out :=
  let l := tget [] s.trans.frames die
  if l.length < 256 then .next { s with trans := { s.trans with frames := tset [] s.trans.frames die (l ++ [frame.toNat]) } } else .next s

/-- `MIGPIN_PIN` (R357). -/
def execMigpinPin (u : Nat) (s : State) : Out := .next { s with trans := { s.trans with pinned := tset false s.trans.pinned u true } }

/-- `MIGPIN_UNPIN` (R357). -/
def execMigpinUnpin (u : Nat) (s : State) : Out := .next { s with trans := { s.trans with pinned := tset false s.trans.pinned u false } }

end Sys2Proof.Machine
end

