-- ==== Sys2Proof/Machine/Packets.lean ====
section
/-!
DEFINITION. The receiving side of the end-to-end layer: stream order (R389), answers (R390), acknowledgements (R391), replay and
closing (R392, R395), and what each kind of packet does (R277).
-/

namespace Sys2Proof.Machine

/-! ### Who waits for a write or an answer -/

/-- Everything that engines and queues may go on with when a line or an acknowledgement has come. -/
def engineSteps (s : State) : List Instr :=
  (s.cores.flatMap fun c => [Instr.copyStart c.1, .arrayOpStart c.1, .arrayOpComplete c.1])
    ++ (s.colls.map fun x => Instr.collectiveComplete x.ctx x.num) ++ (s.queues.flatMap fun q => queueSteps q.1)
    ++ (liveCxs s).flatMap fun x => x.toPlace.map fun p => Instr.workgroupPlace x.ctx p.1

/-- The troupes whose lanes have all ended and that wait for their memory words (R109). -/
def endSteps (s : State) : List Instr :=
  (s.th :: s.threads).filterMap fun t => match t.agent with
    | .troupe c w n => if t.live = 0 && t.status == .running then some (.troupeEnd c w n) else none
    | .matrix _ _ => none
    | .copy _ _ => none
    | .control _ => none
    | .firmware _ => none

/-- An agent's access at another package has completed (R117, R257). -/
def Thread.untag (t : Nat) (th : Thread) : Thread := { th with fabric := th.fabric.erase t, blocked := th.blocked.erase t }

/-- The acquire of an agent takes effect when the last access that it waits for has completed (R251, R257). -/
def lateAcquires (s : State) : State :=
  let due := (s.th :: s.threads).filter fun t => t.blocked.isEmpty && t.acq.isSome
  due.foldl (fun s t => match t.acq with
    | none => s
    | some scope => (acquireFor s t.agent scope).setThread t.agent fun th => { th with acq := none }) s

/-- Every agent's access under a tag has completed. -/
def untagThreads (s : State) (t : Nat) : State :=
  let s := lateAcquires { s with th := s.th.untag t, threads := s.threads.map (Thread.untag t) }
  { s with inputs := s.inputs ++ endSteps s }

/-- The code of a command after an answer (R133): the checks of a landing buffer come before everything else; a row index outside
its dimension comes after everything else. -/
def CopyCmd.codeAfter (x : CopyCmd) (code : Nat) (data : Bool) : Nat :=
  if x.land && (code == 2 || code == 4 || code == 6 || code == 8) then code
  else if code ≠ 0 && (x.code = 0 || (x.code = 2 && x.isGather)) then code
  else if data && (x.code = 0 || (x.code = 2 && x.isGather)) then 5
  else x.code

/-- An answer refuses a landing buffer: the delivery is discarded as a whole (R133, R194). -/
def CopyCmd.landRefused (x : CopyCmd) (code : Nat) : Bool := x.land && (code == 2 || code == 4 || code == 6 || code == 8)

/-- The copy commands' writes under a tag are acknowledged (R142); `code` is 0, or the code with which the write ended, and the answer
of a combine tells SAT and DATA (R150), which a discarded delivery does not have (R194). -/
def untagCopies (t code : Nat) (sat data : Bool) (s : State) (core : Nat) : State :=
  match (s.core core).copyq.find? fun x => x.remote.contains t with
  | none => s
  | some x =>
    let s := putCmd s core { x with
      remote := x.remote.erase t, code := x.codeAfter code data, stale := x.stale || (x.land && code == 6),
      byToken := x.byToken || (x.land && (code == 4 || code == 6)),
      sat := !x.landRefused code && !x.landRefused x.code && (x.sat || sat),
      data := !x.landRefused code && !x.landRefused x.code && (x.data || data) }
    { s with inputs := s.inputs ++ (if (x.remote.erase t).isEmpty then x.chunks.map fun _ => .chunkArrival core x.id else [])
               ++ [.copyComplete core x.id] }

/-- The matrix stores' writes under a tag are acknowledged (R159); one that closed with LINK sets LINK in the pending status (R162,
R167). -/
def untagOps (t code : Nat) (s : State) (g : Workgroup) : State :=
  if g.mq.any fun x => x.remote.contains t then
    let m := if code = 10 then { g.matrix with pending := g.matrix.pending ||| 32 } else g.matrix
    let s := putWg s { g with mq := g.mq.map fun x => { x with remote := x.remote.erase t }, matrix := m }
    match g.core with
    | none => s
    | some core => { s with inputs := s.inputs ++ [.arrayOpComplete core] }
  else s

/-- The collectives' writes under a tag are acknowledged (R375). -/
def untagColls (t code : Nat) (s : State) : State :=
  let hit := s.colls.filter fun x => x.remote.contains t
  let f (x : Coll) : Coll :=
    if x.remote.contains t then
      let keep := decide (code = 0) || x.phase == .done
      { x with remote := x.remote.erase t, phase := if keep then x.phase else .failed, code := if keep then x.code else code }
    else x
  { s with colls := s.colls.map f, inputs := s.inputs ++ hit.map fun x => .collectiveComplete x.ctx x.num }

/-- A SIGNAL's write under a tag has been performed (R323). -/
def untagQueues (t code : Nat) (s : State) : State :=
  s.queues.foldl (fun s q => match q.2.cmd with
    | some (_, .sent n) => if n = t then (if code = 0 then startedQ s q.1 else haltQueue s q.1 1) else s
    | _ => s) s

/-- An access at another package is over: no agent, no held signal and no access of the host waits for it any more (R117, R262,
R295). -/
def accessOver (s : State) (t : Nat) : State :=
  let s := hostOver (untagThreads s t) t []
  let s := { s with host := { s.host with front := s.host.front.filter fun e => e.1 != t } }
  s.setTether { s.tether with held := s.tether.held.map fun h => { h with tags := h.tags.erase t } }

/-- A write to another package has been acknowledged or answered, or has ended with a code (R117, R142, R295, R323). -/
def writtenWith (s : State) (t code : Nat) (sat data : Bool) : State :=
  let s := (s.cores.map Prod.fst).foldl (untagCopies t code sat data) s
  let s := (allWgs s).foldl (untagOps t code) s
  let s := (allWgs s).foldl (fun s g => if g.l1Own.isEmpty then s else putWg s (l1Performed t (code == 0) g)) s
  accessOver (untagQueues t code (untagColls t code s)) t

/-- A write to another package is over. -/
def written (s : State) (t code : Nat) : State := writtenWith s t code false false

/-! ### Results of loads and atomics -/

/-- The bytes of a waiting lane lie in a marked 16-byte unit of an answer (R397). -/
def Await.marked (a : Await) (marks : Nat) : Bool := (unitsOf a.off a.width).any marks.testBit

/-- The words that an answer brings to one waiting lane; `marks` are its marked 16-byte units. -/
def Await.words (a : Await) (data : List Byte) (marks : Nat) : List Wr :=
  wordWrites a.lane a.d (loadWords a.width a.sx ((data.drop a.off).take a.width)) (a.marked marks)

/-- The word awaits an answer under a tag. -/
def Pend.asks (t : Nat) (p : Pend) : Bool :=
  match p.owed with
  | .wait _ => false
  | .result _ aw _ => aw.any fun a => a.tag == t

/-- An answer reaches a word that awaits it (R61, R277): a destination that a word of the window has written since keeps that value.
With the last answer the checks of the word are behind it, unless one has refused it in some lane (R414). -/
def Pend.arrive (t : Nat) (data : List Byte) (marks : Nat) (refused : Bool) (p : Pend) : Pend :=
  match p.owed with
  | .wait _ => p
  | .result ws aw dr =>
    let mine := aw.filter fun a => a.tag == t
    let left := aw.filter fun a => a.tag != t
    let new := if refused then [] else keepOthers dr (mine.flatMap fun a => a.words data marks)
    let check := p.check.map fun w =>
      if refused then { w with faulted := mine.foldl (fun m a => m ||| laneBit a.lane) w.faulted } else w
    { p with owed := .result (ws ++ new) left dr,
             check := if left.isEmpty && (check.all fun w => w.faulted == 0) then none else check }

/-- An answer reaches the words of an agent that await it; a marked value sets DATAF (R16, R75). -/
def Thread.arrive (t : Nat) (data : List Byte) (marks : Nat) (refused : Bool) (th : Thread) : Thread :=
  let hit := th.pend.any fun p => match p.owed with
    | .wait _ => false
    | .result _ aw _ => aw.any fun a => a.tag == t && a.marked marks
  let th := { th with pend := (th.pend.map fun p => if p.asks t then p.arrive t data marks refused else p).filter fun p => !p.gone }
  if hit then th.raiseErr 4 else th

/-- A load or atomic has its value (R277, R395); `marks` are the marked 16-byte units of the answer. -/
def arrived (s : State) (t : Nat) (data : List Byte) (marks : Nat) : State :=
  let f := Thread.arrive t data marks false
  let s := hostOver s t data
  accessOver { s with th := f s.th, threads := s.threads.map f } t

/-- Every word that awaits a tag is refused in the lanes that asked for it (R414). -/
def protAnswer (s : State) (t : Nat) : State :=
  let f := Thread.arrive t [] 0 true
  accessOver { s with th := f s.th, threads := s.threads.map f } t

/-! ### Lines for engines -/

/-- Whether the bytes that a waiting copy command reads lie in a line. -/
def readsLine (s : State) (e : EngCtx) (x : CopyCmd) (pa : Nat) : Bool :=
  ((cmdTouches s x e).filter fun t => t.1 == .copyRead).any fun t =>
    match (engPlace s e t.2.1 t.2.2 .copyRead (cmdKey x)).1 with
    | .ok (.mem a _) => a / 128 == pa / 128
    | _ => false

/-- The commands of a core that wait for a line end with a code (R133, R395, R414). -/
def failReaders (pa code : Nat) (s : State) (core : Nat) : State :=
  (firstCmds (s.core core).copyq).foldl (fun s x => match engCtx s core x.issuer with
    | none => s
    | some e => if readsLine s e x pa then startedCmd s core { x with code := code } else s) s

/-- Whether the bytes that a collective reads lie in a line: its descriptor, its member table or its source (R366, R376). -/
def collReadsLine (s : State) (x : Coll) (pa : Nat) : Bool :=
  match engCtx s x.core x.issuer with
  | none => false
  | some e =>
    let hit (key : Option Nat) (va n : Nat) : Bool := match (engPlace s e va n .copyRead key).1 with
      | .ok (.mem a _) => a / 128 == pa / 128
      | _ => false
    let mesh := x.meshAddr.toNat
    let table := match collRead s x mesh 64 with
      | (some d, _) => if x.group.isEmpty then linePieces (bitsN (ofBytes d) 120 64) (4 * meshCount (ofBytes d)) else []
      | (none, _) => []
    (x.group.isEmpty && (hit none mesh 64 || table.any fun t => hit none t.1 t.2))
      || (!x.group.isEmpty && (shardTouches .copyRead x.src).any fun t => hit (some (recKey x.src)) t.2.1 t.2.2)

/-- A line that will not come: the copy commands and the collectives of the die that wait for it end with a code (R375, R395), and an operation on an array takes
zeros marked as data errors, as a load does (R395). -/
def lineLost (s : State) (die pa key code : Nat) : State :=
  let mine := (s.cores.map Prod.fst).filter fun c => coreDie c == die
  let s := mine.foldl (failReaders pa code) s
  let colls := s.colls.filter fun x => coreDie x.core == die && (x.phase == .accepted || x.phase == .running) && collReadsLine s x pa
  let s := colls.foldl (fun s x => { failColl s x code with inputs := (failColl s x code).inputs ++ [.collectiveComplete x.ctx x.num] }) s
  let v := s.die die
  let s := s.setDie die { v with rdc := ⟨pa / 128 * 128, key, 0, 255, .dflt, 0⟩ :: v.rdc }
  let s := mine.foldl (fun s c => match execArrayOpComplete c s with
    | .next t => t
    | .fault _ => s
    | .refused _ => s) s
  rdcDrop s die pa

/-! ### Unretired packets -/

/-- The stream and the packet that wait for an answer under a tag (R390). -/
def findSent (s : State) (p : Nat) (typ : BitVec 4) (t : Nat) : Option ((Nat × Nat × Nat) × Packet) :=
  s.fabric.flows.findSome? fun f => if f.1.1 = p then
    (f.2.unretired.find? fun e => e.pkt.typ == typ && e.pkt.tag == t).map fun e => (f.1, e.pkt) else none

/-- The SEQ through which every ATOM and REGWR of a stream has been answered (R391). -/
def Flow.retirePoint (x : Flow) : BitVec 16 :=
  match x.unanswered with
  | q :: _ => q - 1
  | [] => x.next - 1

/-- What waits for the source retry buffer or a link retry buffer goes on, and what waits for a plane (R386, R391, R392). -/
def pumpOn (s : State) : State :=
  let s := pumpAll s
  { s.setFab { s.fabric with acksDue := [] } with
    inputs := s.inputs ++ s.fabric.acksDue.map fun k => .ackSend k.1 ⟨BitVec.ofNat 2 k.2.1, k.2.2⟩ }

/-- A packet is retired by its answer (R390). -/
def retirePacket (s : State) (key : Nat × Nat × Nat) (p : Packet) : State :=
  let x := s.fabric.flow key
  let y := { x with unretired := x.unretired.filter (fun e => e.pkt.seq != p.seq), unanswered := x.unanswered.filter (· != p.seq) }
  let y := if packetAnswered p then { y with retire := some y.retirePoint, retireDue := true } else y
  pumpAll (s.setFab (s.fabric.setFlow key y))

/-! ### What packets do -/

/-- Answer a packet in class 1 (R277, R388). -/
def respond (s : State) (p a : Packet) : State :=
  sendFrom s (bitsN p.addr.toNat 38 37) { a with tc := 1, dst := p.src, tag := p.tag }

/-- Perform an ATOM or REGWR once and keep its answer (R390). -/
def respondCached (s : State) (p a : Packet) : State :=
  let key := (p.src, p.tc.toNat, 0)
  let x := s.fabric.inflow key
  let kept := { a with tc := 1, dst := p.src, tag := p.tag, seq := p.seq }
  respond (s.setFab (s.fabric.setInflow key { x with cache := tset packetBlank x.cache (p.seq.toNat % 1024) kept })) p a

/-- A package outside the pod trust table is answered with PROT where it awaits an answer, and nothing is performed (R414). -/
def discard (s : State) (p : Packet) : State :=
  match p.typ.toNat with
  | 0 => respond s p { packetBlank with typ := 1, code := 4 }
  | 3 => respondCached s p { packetBlank with typ := 4, code := 4 }
  | 5 => respondCached s p { packetBlank with typ := 6, code := 4 }
  | _ => s

/-- A request reaches a package that is no longer the home, and goes on to the home in a stream of this package (R363, R278; log
entry 35). -/
def passOn (s : State) (p : Packet) : State :=
  match homeOf s p.addr.toNat with
  | none => s
  | some (h, _) =>
    if !trusted s h then discard s p
    else
      let (t, s) := newTag s
      let s := s.setFab { s.fabric with relayed := s.fabric.relayed ++ [(t, p)] }
      sendFrom s (bitsN p.addr.toNat 38 37) { p with dst := h, tag := t, newEpoch := false }

/-- The request of another package that went on under a tag. -/
def relayedAs (s : State) (t : Nat) : Option Packet := lookupBy t s.fabric.relayed

/-- A request that went on has been answered or acknowledged, or is lost. -/
def endRelay (s : State) (t : Nat) : State := s.setFab { s.fabric with relayed := dropBy t s.fabric.relayed }

/-- The die of this package that is home to an address. -/
def homeDie (s : State) (pa : Nat) : Nat := ((homeOf s pa).getD (0, 0)).2

/-- A write of another package is performed at its home. -/
def remoteWrite (s : State) (p : Packet) (data : List Byte) (mark : Bool) : State :=
  let pa := p.addr.toNat
  homeWriteBy s pa p.group data mark p.src p.srcDie.toNat (homeDie s pa)

/-- What a WRITE packet does (R122, R277): all its bytes, or those that CAP names, with the marks of its units (log entry 11). -/
def packetWrite (p : Packet) : MemWrite :=
  let pa := p.addr.toNat
  if p.cap = 0 then .one pa p.data (p.lanes != 0)
  else
    let u0 := pa / 128 * 8
    { runs := (p.data.zip (List.range p.data.length)).filterMap fun e => if p.cap.getLsbD e.2 then some (pa + e.2, [e.1]) else none
      marks := ((List.range 8).filter fun u => p.lanes.getLsbD u).map (· + u0)
      clears := ((List.range 8).filter fun u => p.lanes.getLsbD (8 + u)).map (· + u0) }

/-- `LDREQ` (R389, R390): the bytes with the marks of their units. -/
def performLdreq (s : State) (p : Packet) : State :=
  let pa := p.addr.toNat
  if !homedHere s pa then passOn s p
  else
    let r := recordRead s pa p.group p.width p.src p.srcDie.toNat
    let us := unitsOf pa p.width
    let marks := (us.zip (List.range us.length)).foldl (fun m u => if tget false s.memMark u.1 then m ||| laneBit u.2 else m) 0
    respond r.2 p { packetBlank with typ := 1, data := r.1.1, lanes := marks }

/-- One atomic of an ATOM packet that carries several (R122, R125): the place in its line, b, the comparand of ATOMCAS, and whether an
operand is marked. The answer so far, 16 bytes for each atomic, and its marks go on. -/
def atomOne (p : Packet) (a : State × List Byte × Nat) (x : AtomOp) : State × List Byte × Nat :=
  let w := p.width
  let pa := p.addr.toNat + x.off
  let old := memBytes a.1 p.group pa w
  let mark := anyMark a.1.memMark pa w
  let new := atomNew p.op w (ofBytes old) (x.b % 2 ^ (8 * w)) (x.cmp % 2 ^ (8 * w))
  (remoteWrite a.1 { p with addr := BitVec.ofNat 64 pa } (toBytes w new) x.mark, a.2.1 ++ (old ++ List.replicate (16 - w) 0),
    if mark then a.2.2 + 2 ^ (a.2.1.length / 16) else a.2.2)

/-- `ATOM` (R125, R390), which code of a live context refuses (R410; log entry 32): operation 16 is the step of a `WDONE`; the atomics of a word on one line come in one packet (R122). -/
def performAtom (s : State) (p : Packet) : State :=
  let pa := p.addr.toNat
  if !homedHere s pa then passOn s p
  else if codeHeld s pa then respondCached s p { packetBlank with typ := 4, code := 4 }
  else
    let r := recordRead s pa p.group p.width p.src p.srcDie.toNat
    let old := r.1.1
    if p.op = 16 then
      let j := joinStep old
      let s := remoteWrite r.2 p j.1 r.1.2
      respondCached s p { packetBlank with typ := 4, data := match j.2 with
        | none => []
        | some (l, x) => toBytes 4 (l + 1) ++ toBytes 32 x }
    else if !p.data.isEmpty then
      let a := (atomOps p).foldl (atomOne p) (s, [], 0)
      respondCached (countOnce [pa / 128] pa r.2 a.1) p { packetBlank with typ := 4, data := a.2.1, lanes := BitVec.ofNat 32 a.2.2 }
    else
      let new := atomNew p.op p.width (ofBytes old) (bitsN p.cap.toNat 63 0 % 2 ^ (8 * p.width)) (bitsN p.cap.toNat 127 64 % 2 ^ (8 * p.width))
      let s := remoteWrite r.2 p (toBytes p.width new) (p.lanes != 0)
      respondCached s p { packetBlank with typ := 4, data := old, lanes := if r.1.2 then 1 else 0 }

/-- `REGWR` (R186, R187, R240): the delivery of another package goes through the slice of its target. -/
def performRegwr (s : State) (p : Packet) : State :=
  let vals := (groupsOf 4 (p.data.length / 4) p.data).map fun b => (BitVec.ofNat 32 (ofBytes b), p.severity != 0)
  let (id, s) := newTag s
  { s with sends := s.sends ++ [⟨id, .packet p, p.cap, p.regOff, p.width, p.lanes, vals, p.rel, p.scope, false, .slice⟩],
           inputs := s.inputs ++ [.sliceForward id] }

/-- `RWR_ANSWER` (R188): the answer reaches the sender, and the last one of a word completes its ticket; another package is answered with a
REGANS. -/
def execRwrAnswer (i : Nat) (s : State) : Out :=
  match s.sends.find? fun d => d.id == i with
  | none => .next s
  | some d =>
    match d.phase, d.sender with
    | .answered code, .word a _ tl ticket =>
      let s := { s with sends := s.sends.filter fun e => e.id != i }
      let s := if code = 0 then s else noteFailure s a tl ticket code 1 1
      .next (if s.sends.any fun e => (match e.sender with
          | .word b _ n k => b == a && n == tl && k == ticket
          | .packet _ => false) then s
        else completeTicket s a tl ticket)
    | .answered code, .packet p =>
      .next (respondCached { s with sends := s.sends.filter fun e => e.id != i } p { packetBlank with typ := 6, code := code })
    | _, _ => .next s

/-- Combine or replace bytes as a COPY packet's operation says, and SAT: 0, or 1 + OP + 8 × format (R141). -/
def copyBytes (op : Nat) (old new : List Byte) : List Byte × Bool :=
  if op = 0 then (new, false) else combinePieces ((op - 1) % 8) ((op - 1) / 8) old new

/-- The checks of a packet for a landing buffer (R133, R194): the workgroup, its number and the place of the buffer, or a code. -/
def landingPlace (s : State) (p : Packet) : Except Nat (Workgroup × Nat) :=
  match landingCheck s p.cap p.src with
  | .error c => .error c
  | .ok (c, w, base, size) =>
    match getWg s c w with
    | none => .error 6
    | some g =>
      if size < p.regOff + p.width ∨ size < p.addr.toNat + p.data.length then .error 2
      else if p.code = 2 ∧ g.scratchSize < p.group + 4 then .error 2
      else if p.code = 1 && (mapChunks g p.group (base + p.regOff) p.width).isNone then .error 8
      else .ok (g, base)

/-- What the last packet of a landing does (R142, R145): 1 the chunk map at `p.group`, 2 the notify word there. -/
def landingEnd (p : Packet) (base : Nat) (g : Workgroup) : Workgroup :=
  if p.code = 1 then
    match mapChunks g p.group (base + p.regOff) p.width with
    | none => g
    | some l => l.foldl (fun g i => g.arriveChunk p.group i) g
  else if p.code = 2 then g.put p.group (toBytes 4 p.lanes.toNat) false
  else g

/-- Bytes for a landing buffer (R194): the answer, whose lane set holds SAT in bit 0 and DATA in bit 1 (R150). -/
def performLanding (s : State) (p : Packet) : Packet × State :=
  match landingPlace s p with
  | .error c => ({ packetBlank with typ := 6, code := c }, s)
  | .ok (g, base) =>
    let at_ := base + p.addr.toNat
    let b := copyBytes p.op (g.bytes at_ p.data.length) p.data
    let mark := p.severity != 0 || (p.op != 0 && anyMark g.scratchMark at_ p.data.length)
    let g := if p.data.isEmpty then g else (g.touch s.clock (scratchPages g at_ p.data.length)).put at_ b.1 mark
    let g := if p.rel then landingEnd p base g else g
    ({ packetBlank with typ := 6, lanes := (if b.2 then 1 else 0) + (if mark && !p.data.isEmpty then 2 else 0) }, reback (putWg s g) g.ctx g.wgl)

/-- `COPY` (R142): tile bytes at their home, or for a landing buffer, which answers with a code; a combine at a home is answered too, for
SAT and DATA (R150; log entry 12). -/
def performCopy (s : State) (p : Packet) : State :=
  if p.cap ≠ 0 then
    let r := performLanding s p
    respond r.2 { p with addr := 0 } r.1
  else
    let pa := p.addr.toNat
    if !homedHere s pa then passOn s p
    else if codeHeld s pa then if p.op = 0 then s else respond s p { packetBlank with typ := 6, code := 4 }
    else if p.op = 0 then remoteWrite s p p.data (p.lanes != 0)
    else
      let old := recordRead s pa p.group p.data.length p.src p.srcDie.toNat
      let b := copyBytes p.op old.1.1 p.data
      let mark := p.lanes != 0 || old.1.2
      respond (remoteWrite old.2 p b.1 mark) p { packetBlank with typ := 6, lanes := (if b.2 then 1 else 0) + (if mark then 2 else 0) }

/-- `MCAST` (R283): a copy for a landing buffer; its answer tells the source what became of the branch. -/
def performMcast (s : State) (p : Packet) : State :=
  let r := performLanding s p
  respond r.2 { p with addr := 0 } r.1

/-- A WAIT command that reads a line for which `f` holds ends with ERR 1 (R323). -/
def failWaits (s : State) (f : Nat → Bool) : State :=
  s.queues.foldl (fun s q => match q.2.cmd with
    | some (c, .fetched) =>
      if cmdType c = 2 then
        match (frontWalk s (bitsN c 207 192) (bitsN c 184 128) .load).1 with
        | .ok (pa, _) => if f pa then haltQueue s q.1 1 else s
        | .error _ => s
      else s
    | _ => s) s

/-- The answer to a request that was to fill the L1 of a workgroup (R115, R428); it does not where something has written or acquired
since. -/
def fillL1 (t : Nat) (line : CacheLine) (fill : Bool) (s : State) (g : Workgroup) : State :=
  match g.l1Due.find? fun f => f.tag == t, g.core with
  | some f, some core =>
    let g := { g with l1Due := g.l1Due.filter fun f => f.tag != t }
    if fill then
      let r := l1Fresh g { line with key := f.key, hint := f.hint, toucher := f.toucher }
      throttleEvict (putWg s r.1) core r.2
    else putWg s g
  | _, _ => s

/-- `LDRSP` (R277, R390): the first answer fills the RDC of the die that asked, and reaches the words that await it. -/
def performLdrsp (s : State) (p : Packet) : State :=
  match findSent s p.src 0 p.tag with
  | none => s
  | some (key, q) =>
    let s := retirePacket s key q
    if let some r := relayedAs s p.tag then
      respond (endRelay s p.tag) r { packetBlank with typ := 1, data := p.data, lanes := p.lanes, code := p.code }
    else if p.code ≠ 0 then
      let s := lineLost s q.srcDie.toNat q.addr.toNat q.group p.code
      let s := failWaits (protAnswer s p.tag) fun pa => q.srcDie == 0 && pa / 128 == q.addr.toNat / 128
      { s with inputs := s.inputs ++ engineSteps s }
    else
      let d := q.srcDie.toNat
      let line : CacheLine := ⟨q.addr.toNat, q.group, ofBytes p.data, p.lanes.toNat % 256, .dflt, 0⟩
      let fill := !q.rvalid && q.width == 128
      let s := if fill then rdcInsert s d line else s
      let s := (allWgs s).foldl (fillL1 p.tag line fill) s
      let s := arrived s p.tag p.data p.lanes.toNat
      { s with inputs := s.inputs ++ engineSteps s }

/-- The join of a `WDONE` at another package has been performed (R173, R339). -/
def joinAnswered (s : State) (t : Nat) (data : List Byte) : State :=
  match (liveCxs s).find? fun x => x.joins.contains t with
  | none => s
  | some x =>
    let s := putCx s { x with joins := x.joins.erase t }
    let s := if data.isEmpty then s else pushParent s x.ctx (ofBytes (data.take 4) - 1) (ofBytes ((data.drop 4).take 32))
    retire s x.ctx 1

/-- `ATOMRSP` (R390). -/
def performAtomrsp (s : State) (p : Packet) : State :=
  match findSent s p.src 3 p.tag with
  | none => s
  | some (key, q) =>
    let s := retirePacket s key q
    let s := match relayedAs s p.tag with
      | some r => respondCached (endRelay s p.tag) r { packetBlank with typ := 4, data := p.data, lanes := p.lanes, code := p.code }
      | none =>
        let s := if q.op = 16 then joinAnswered s p.tag p.data else s
        if p.code = 0 then arrived s p.tag p.data p.lanes.toNat else protAnswer s p.tag
    { s with inputs := s.inputs ++ [.ackSend p.src ⟨1, 0⟩] }

/-- A delivery has its answer (R188). -/
def sendAnswered (s : State) (t code : Nat) : State :=
  match s.sends.find? fun d => d.id == t && d.phase == .fabric with
  | none => s
  | some d => { putSend s { d with phase := .answered code } with inputs := (putSend s d).inputs ++ [.rwrAnswer t] }

/-- `REGANS` (R188, R390): the answer to a delivery, or to bytes for a landing buffer. -/
def performRegans (s : State) (p : Packet) : State :=
  match findSent s p.src 5 p.tag with
  | some (key, q) =>
    let s := sendAnswered (retirePacket s key q) p.tag p.code
    { s with inputs := s.inputs ++ [.ackSend p.src ⟨1, 0⟩] }
  | none =>
    match relayedAs s p.tag with
    | some r => respond (endRelay s p.tag) r { packetBlank with typ := 6, code := p.code, lanes := p.lanes }
    | none => writtenWith s p.tag p.code (p.lanes.getLsbD 0) (p.lanes.getLsbD 1)

/-- A packet in stream order does what its type says (R277, R389). Code of a live context is not written (R410; log entry 32). -/
def perform (s : State) (p : Packet) : State :=
  match p.typ.toNat with
  | 0 => performLdreq s p
  | 1 => performLdrsp s p
  | 2 =>
    if !homedHere s p.addr.toNat then passOn s p
    else if codeHeld s p.addr.toNat then s
    else homePerform s p.group (packetWrite p) p.src p.srcDie.toNat (homeDie s p.addr.toNat)
  | 3 => performAtom s p
  | 4 => performAtomrsp s p
  | 5 => performRegwr s p
  | 6 => performRegans s p
  | 7 => performCopy s p
  | 8 => takeCollect p s
  | 9 => performMcast s p
  | _ => s

/-! ### Stream order -/

/-- The incoming stream of a packet (R278, R393). -/
def inKey (p : Packet) : Nat × Nat × Nat := (p.src, p.tc.toNat, if p.tc = 3 then p.group else 0)

/-- Perform the next packet of a stream and advance E (R389, R414). -/
def takeNext (s : State) (p : Packet) : State :=
  let key := inKey p
  let x := s.fabric.inflow key
  let s := s.setFab (s.fabric.setInflow key { x with expect := x.expect + 1, held := x.held.filter fun h => h.seq != p.seq })
  if trusted s p.src then perform s p else discard s p

/-- Perform the held packets that follow in order (R389). -/
def takeHeld (key : Nat × Nat × Nat) : Nat → State → State
  | 0, s => s
  | n + 1, s =>
    let x := s.fabric.inflow key
    match x.held.find? fun h => h.seq == x.expect with
    | none => s
    | some p => takeHeld key n (takeNext s p)

/-- The bytes that the reorder store holds (R389). -/
def reorderUsed (f : Fabric) : Nat := ((f.inflows.map fun x => (x.2.held.map fun p => 64 + p.data.length).sum)).sum

/-- A stream starts again (R392): its held packets and its response cache go. A replay of the packet that began it is a duplicate like
any other (log entry 37). -/
def newEpochIn (s : State) (p : Packet) : State :=
  let key := inKey p
  if p.newEpoch && (s.fabric.inflow key).epoch != some p.tag then
    s.setFab (s.fabric.setInflow key { Inflow.fresh with epoch := some p.tag })
  else s

/-- Count up in an 8-bit counter that saturates. -/
def bump8 (n : Nat) : Nat := min (n + 1) 255

/-- Whether the link layer delivers what arrives on a plane (R383, R386): its port is UP, and a flit that failed has been replayed. -/
def Fabric.hears (f : Fabric) (p : Packet) : Bool :=
  (f.port p.plane).st == .up && (!(f.port p.plane).asked || p.resent)

/-- The replay that a port has asked for has come (R386). -/
def heard (s : State) (p : Packet) : State :=
  let port := s.fabric.port p.plane
  if port.asked then s.setFab (s.fabric.setPort p.plane { port with asked := false }) else s

/-- A packet arrives (R389): it is sorted by its SEQ against E, and acknowledged unless it is outside. -/
def receive (p : Packet) (s : State) : State :=
  if !s.fabric.hears p then s
  else
  let s := newEpochIn (heard s p) p
  let key := inKey p
  let x := s.fabric.inflow key
  let d := (p.seq - x.expect).toNat
  let ack (s : State) : State := { s with inputs := s.inputs ++ [Instr.ackSend key.1 ⟨p.tc, key.2.2⟩] }
  if d = 0 then ack (takeHeld key x.held.length (takeNext s p))
  else if d < 4096 then
    if x.held.any (fun h => h.seq == p.seq) || decide (4 * 1024 * 1024 < reorderUsed s.fabric + 64 + p.data.length) then s
    else s.setFab (s.fabric.setInflow key { x with held := x.held ++ [p] })
  else if 32768 ≤ d then
    let c := tget packetBlank x.cache (p.seq.toNat % 1024)
    if packetAnswered p && c.typ != 0 && c.seq == p.seq then ack (sendFrom s 0 c) else ack s
  else s.setFab { s.fabric with outside := bump8 s.fabric.outside }

/-- A packet of a type that the step does not take changes nothing. -/
def ofType (t : Nat) (p : Packet) (s : State) : Out :=
  if p.typ.toNat = t then .next (receive p s) else .next s

/-- `PACKET_LDREQ` (R389). -/
def execPacketLdreq (p : Packet) (s : State) : Out := ofType 0 p s
/-- `PACKET_LDRSP` (R390). -/
def execPacketLdrsp (p : Packet) (s : State) : Out := ofType 1 p s
/-- `PACKET_WRITE` (R389). -/
def execPacketWrite (p : Packet) (s : State) : Out := ofType 2 p s
/-- `PACKET_ATOM` (R390). -/
def execPacketAtom (p : Packet) (s : State) : Out := ofType 3 p s
/-- `PACKET_ATOMRSP` (R390). -/
def execPacketAtomrsp (p : Packet) (s : State) : Out := ofType 4 p s
/-- `PACKET_REGWR` (R187). -/
def execPacketRegwr (p : Packet) (s : State) : Out := ofType 5 p s
/-- `PACKET_REGANS` (R188). -/
def execPacketRegans (p : Packet) (s : State) : Out := ofType 6 p s
/-- `PACKET_COPY` (R142). -/
def execPacketCopy (p : Packet) (s : State) : Out := ofType 7 p s
/-- `PACKET_COLLECT` (R369). -/
def execPacketCollect (p : Packet) (s : State) : Out := ofType 8 p s
/-- `PACKET_MCAST` (R283). -/
def execPacketMcast (p : Packet) (s : State) : Out := ofType 9 p s

/-- `PACKET_RESERVED` (R277): discarded without an acknowledgement and counted as a link error. -/
def execPacketReserved (h : BitVec 512) (s : State) : Out :=
  let port := s.fabric.port (h.extractLsb' 52 5).toNat
  if headerReserved h && port.st == .up && !port.asked then .next (s.setFab { s.fabric with linkErrors := s.fabric.linkErrors + 1 }) else .next s

/-! ### Acknowledgements -/

/-- Whether a SEQ advances a point by fewer than half the numbers (R391). -/
def advances (new old : BitVec 16) : Bool := new != old && decide ((new - old).toNat < 32768)

/-- A packet is retired by an ACK that covers it (R390): not those that an answer retires. -/
def ackRetires (upto : BitVec 16) (p : Packet) : Bool :=
  decide ((upto - p.seq).toNat < 32768) && !(p.typ == 0 || packetAnswered p)

/-- An acknowledgement completes the packet's access: a write, or bytes that are neither for a landing buffer nor combined, which are
answered. -/
def ackCompletes (p : Packet) : Bool := p.typ == 2 || (p.typ == 7 && p.cap == 0 && p.op == 0)

/-- Every destination of a multicast has acknowledged it (R393). -/
def groupAcked (dsts : List Nat) (acks : TMap (BitVec 16)) (p : Packet) : Bool :=
  dsts.all fun d => decide ((tget 0xffff acks d - p.seq).toNat < 32768)

/-- The stream after an ACK that advances its point, or, of a multicast group, the point of one destination (R391, R393), and the packets
that it retires. -/
def Flow.afterAck (x : Flow) (dsts : List Nat) (p : Packet) : Flow × List Packet :=
  let acks := if p.tc = 3 then tset 0xffff x.acks p.src p.ackTo else x.acks
  let gone (q : Packet) : Bool := if p.tc = 3 then groupAcked dsts acks q else ackRetires p.ackTo q
  let left := x.unretired.filter fun e => !gone e.pkt
  let acked := if p.tc = 3 then (match left with
    | e :: _ => e.pkt.seq - 1
    | [] => x.next - 1) else p.ackTo
  ({ x with acked := acked, unretired := left, acks := acks }, (x.unretired.map fun e => e.pkt).filter gone)

/-- ACKTO of an ACK (R391). -/
def applyAck (p : Packet) (s : State) : State :=
  let key := if p.tc = 3 then (0, 3, p.group) else (p.src, p.tc.toNat, 0)
  let x := s.fabric.flow key
  if !advances p.ackTo (if p.tc = 3 then tget 0xffff x.acks p.src else x.acked) then s
  else
    let y := x.afterAck (tget [] s.fabric.groups p.group) p
    let s := s.setFab (s.fabric.setFlow key y.1)
    pumpAll ((y.2.filter ackCompletes).foldl (fun s q => written (endRelay s q.tag) q.tag 0) s)

/-- RETIRE of an ACK (R390, R391): cached answers up to it are freed. -/
def applyRetire (p : Packet) (s : State) : State :=
  let key := (p.src, 0, 0)
  let x := s.fabric.inflow key
  if !p.rvalid || (x.anyRetired && !advances p.retire x.retired) then s
  else
    let live := x.cache.filter fun c => !decide ((p.retire - c.2.seq).toNat < 32768)
    s.setFab (s.fabric.setInflow key { x with cache := live, retired := p.retire, anyRetired := true })

/-- `PACKET_ACK` (R391). -/
def execPacketAck (p : Packet) (s : State) : Out :=
  if p.typ = 10 && s.fabric.hears p then .next (applyRetire p (applyAck p (heard s p))) else .next s

/-- The ACK packet of a stream (R391): E - 1, the group of a multicast, and the RETIRE point of the own class-0 stream toward its source. -/
def ackPacket (s : State) (src : Nat) (tc : BitVec 2) (group : Nat) : Packet :=
  let y := s.fabric.flow (src, 0, 0)
  { packetBlank with
    typ := 10, tc := tc, src := s.pkg, dst := src, ackTo := (s.fabric.inflow (src, tc.toNat, group)).expect - 1, group := group,
    retire := y.retire.getD 0, rvalid := y.retire.isSome }

/-- `ACK_SEND` (R391): the ACK of a stream leaves on a free choice among the planes of the route set, and with it the RETIRE point. Without
a plane it waits until there is one. -/
def execAckSend (src : Nat) (x : StreamClass) (s : State) : Out :=
  let key := (src, x.tc.toNat, x.group)
  match pickPlane s [src] none 1 with
  | none =>
    .next (s.setFab { s.fabric with acksDue := if s.fabric.acksDue.contains key then s.fabric.acksDue else s.fabric.acksDue ++ [key] })
  | some (n, s) =>
    let y := s.fabric.flow (src, 0, 0)
    let f := s.fabric.emit n (ackPacket s src x.tc x.group)
    .next (s.setFab (if y.retireDue then f.setFlow (src, 0, 0) { y with retireDue := false } else f))

/-! ### Rates -/

/-- The rate toward a package (R280). -/
def Fabric.rate (f : Fabric) (dst : Nat) : Nat := tget 64 f.rates dst

/-- `PACKET_DOWNDRAFT` (R280, R281). -/
def execPacketDowndraft (p : Packet) (s : State) : Out :=
  let f := s.fabric
  if p.typ ≠ 11 || !f.hears p then .next s
  else if f.rateCfg.getLsbD 14 then .next (heard s p)
  else
    let s := heard s p
    let f := s.fabric
    let r := max (f.rate p.congested * (8 - p.severity) / 8) (max 1 (bitsN f.rateCfg.toNat 5 0))
    .next (s.setFab { f with rates := tset 64 f.rates p.congested r, noticed := tset false f.noticed p.congested true })

/-- `RATE_RECOVERY` (R280): the end of an interval of RSTEP µs for one destination. -/
def execRateRecovery (dst : Nat) (s : State) : Out :=
  let f := s.fabric
  if tget false f.noticed dst then .next (s.setFab { f with noticed := tset false f.noticed dst false })
  else .next (s.setFab { f with rates := tset 64 f.rates dst (min (f.rate dst + 1) 64) })

/-! ### Replay and closing -/

/-- A packet is to be sent again (R392), if it has been sent on a plane for which `f` holds: a multicast to each of `dsts` that has not
acknowledged it (R393). -/
def unsend (f : Packet → Nat → Bool) (dsts : List Nat) (acks : TMap (BitVec 16)) (e : Sent) : Sent :=
  match e.port with
  | none => e
  | some n =>
    if f e.pkt n then { e with port := none, to_ := if e.pkt.tc = 3 then dsts.filter fun d => !groupAcked [d] acks e.pkt else [] } else e

/-- Send packets again (R392): they count in REPLAYS. -/
def replay (s : State) (f : Packet → Nat → Bool) : State :=
  let hit (e : Sent) : Bool := e.port.any (f e.pkt)
  let n := (s.fabric.flows.map fun x => (x.2.unretired.filter hit).length).sum
  let again (x : (Nat × Nat × Nat) × Flow) : (Nat × Nat × Nat) × Flow :=
    (x.1, { x.2 with unretired := x.2.unretired.map (unsend f (tget [] s.fabric.groups x.1.2.2) x.2.acks) })
  pumpAll (s.setFab { s.fabric with flows := s.fabric.flows.map again, replays := min (s.fabric.replays + n) 65535 })

/-- Send again what the link layer of a port has not delivered (R392). -/
def replayLost (s : State) (n : Nat) : State :=
  let x := s.fabric.port n
  replay s fun p m => (m == n || p.tc == 3) && x.flits.any fun f => sameCopy f.pkt p

/-- `LINK_LOSS_REPLAY` (R392): packets that the link layer has not delivered when their port left UP. -/
def execLinkLossReplay (port plane : Nat) (s : State) : Out :=
  if (s.fabric.port port).st == .up || port != plane then .next s else .next (replayLost s port)

/-- The packet that a timeout names (R392): `dst` is the group of a multicast. -/
def timedOut (dst : Nat) (tc : BitVec 2) (seq : BitVec 16) (plane : Nat) (p : Packet) (n : Nat) : Bool :=
  p.dst == dst && p.tc == tc && p.seq == seq && n == plane

/-- `E2E_TIMEOUT_REPLAY` (R392): the plane of the last copy leaves the route set toward the destination, or toward each of a multicast that
has not acknowledged it (R393). -/
def execE2eTimeoutReplay (dst : Nat) (tc : BitVec 2) (seq : BitVec 16) (plane : Nat) (s : State) : Out :=
  let hit := timedOut dst tc seq plane
  let f := s.fabric
  match f.flows.findSome? fun x => (x.2.unretired.find? fun e => e.port.any (hit e.pkt)).map fun e => (x.2, e.pkt) with
  | none => .next s
  | some (x, p) =>
    let late := if tc = 3 then (f.targets p).filter fun d => !groupAcked [d] x.acks p else [dst]
    let new := (late.map fun d => (d, plane)).filter fun e => !f.excluded.contains e
    .next (replay (s.setFab { f with excluded := f.excluded ++ new }) hit)

/-- `PLANE_EXCLUSION_EXPIRE` (R392). -/
def execPlaneExclusionExpire (dst plane : Nat) (s : State) : Out :=
  .next (pumpOn (s.setFab { s.fabric with excluded := s.fabric.excluded.filter (· != (dst, plane)) }))

/-- A member that runs cannot reach another (R373, R375). If it reaches none it is the laggard and completes with LINK; else the other one
lags at once, and the counts of survivors in other packages come with COLLECTIVE_LAG_TIMEOUT. -/
def memberLost (m : Nat) (s : State) (x : Coll) : State :=
  if x.phase ≠ .running || !x.others.contains m then s
  else if laggardCode s x = 10 then collDone s { x with restitched := true, q := max x.q x.count } 10
  else if x.others.all fun o => o == m || (x.members[o]?).map Prod.fst == some s.pkg then
    lagTimeout x.ctx x.num m [] s
  else s

/-- An unretired packet of a stream that is closed completes with LINK (R392, R395). A request of another package is lost: its source
closes its own stream. -/
def linkFailed (s : State) (p : Packet) : State :=
  if [0, 2, 3, 7].contains p.typ && (relayedAs s p.tag).isSome then endRelay s p.tag
  else
  match p.typ.toNat with
  | 0 =>
    let s := lineLost s p.srcDie.toNat p.addr.toNat p.group 10
    let s := untagQueues p.tag 10 (arrived s p.tag (List.replicate 128 0) (2 ^ 32 - 1))
    { s with inputs := s.inputs ++ engineSteps s }
  | 3 =>
    let s := if p.op = 16 then joinAnswered s p.tag [] else s
    arrived s p.tag (List.replicate 512 0) (2 ^ 32 - 1)
  | 5 => sendAnswered s p.tag 10
  | 8 => (s.colls.filter fun x => x.ctx == p.code && x.num == p.group && x.me == p.regs && x.gen == p.ackTo).foldl (memberLost p.regOff) s
  | 2 => written s p.tag 10
  | 7 => written s p.tag 10
  | 9 => written s p.tag 10
  | _ => s

/-- A WAIT that reads through a closed stream ends with LINK (R323). -/
def waitFailed (s : State) (dst : Nat) : State := failWaits s fun pa => (homeOf s pa).any fun h => h.1 == dst

/-- `STREAM_CLOSE` (R392): the packets of the stream complete with LINK, and it starts again from SEQ 0. -/
def execStreamClose (dst : Nat) (tc : BitVec 2) (s : State) : Out :=
  let mine (k : Nat × Nat × Nat) : Bool :=
    k.2.1 == tc.toNat && (if tc = 3 then (tget [] s.fabric.groups k.2.2).contains dst else k.1 == dst)
  let flows := s.fabric.flows.filter fun x => mine x.1
  let lost := flows.flatMap fun x => x.2.unretired.map fun e => e.pkt
  if flows.isEmpty || (lost.isEmpty && !(s.fabric.planes dst 1).isEmpty) then .next s
  else
    let f := { s.fabric with
      flows := s.fabric.flows.map fun x => if mine x.1 then (x.1, { Flow.fresh with newEpoch := true }) else x
      closed := min (s.fabric.closed + flows.length) 255 }
    let s := s.setFab f
    let s := if tc = 0 && lost.any fun p => p.typ == 0 then waitFailed s dst else s
    .next (lost.foldl linkFailed s)

end Sys2Proof.Machine
end

