-- ==== Sys2Proof/Machine/Carousel.lean ====
section
/-!
DEFINITION. What moves the packets of a Carousel and what they do at their target (R270-R275, R430).
-/

namespace Sys2Proof.Machine

/-! ### Cohort accesses at the bank -/

/-- What a cohort access does to one 16-byte row of the scratchpad that it names (R20, R125, R141, R430): the bytes of the row that its reply
brings, their mark, SAT, and the workgroup. An atomic or a combine touches one row. -/
def cohortRow (g : Workgroup) (off u : Nat) : CohortOp → List Byte × Bool × Bool × Workgroup
  | .read n =>
    let lo := max off (16 * u)
    (g.bytes lo (min (off + n) (16 * u + 16) - lo), tget false g.scratchMark u, false, g)
  | .write data mark =>
    let lo := max off (16 * u)
    ([], false, false, g.put lo ((data.drop (lo - off)).take (16 * u + 16 - lo)) mark)
  | .atomic op w b expected mark =>
    let old := g.bytes off w
    (old, anyMark g.scratchMark off w, false, g.put off (toBytes w (atomNew op w (ofBytes old) b expected)) mark)
  | .combine op fmt data mark =>
    let r := combinePieces op fmt (g.bytes off data.length) data
    let m := mark || anyMark g.scratchMark off data.length
    ([], m, r.2, g.put off r.1 m)

/-- The flits of a reply (R269): a header, and 32 bytes to a flit. -/
def replyFlits (n : Nat) : Nat := 1 + ceilDiv n 32

/-- A cohort request has had all its rows, and its reply returns the shorter way (R270, R271): the rows' bytes in order, and their marks. -/
def replyCohort (s : State) (cluster : Nat) (p : CarPacket) (r : CohortReq) : State :=
  let l := sortBy (fun a b => decide (a.1 < b.1)) p.got
  let bytes := l.flatMap fun x => x.2.1
  let marks := (l.zip (List.range l.length)).foldl (fun m x => if x.1.2.2 then m ||| 2 ^ x.2 else m) 0
  enterRing s cluster p.dst p.src (replyFlits bytes.length) (shorterWay p.dst p.src).1 (.reply r.tag bytes marks p.sat)

/-! ### Replies -/

/-- A reply brings the bytes and marks of the read that it answers (R20). -/
def Peek.fill (t : Nat) (data : List Byte) (marks : Nat) (p : Peek) : Peek := if p.tag = t then { p with got := some (data, marks) } else p

/-- A reply reaches a WADDR that waits (R118). -/
def Pend.fill (t : Nat) (data : List Byte) (marks : Nat) (p : Pend) : Pend :=
  match p.owed with
  | .wait (.waddr w geu acq scope left) =>
    { p with owed := .wait (.waddr w geu acq scope (left.map fun x => (x.1, x.2.1, x.2.2.1, x.2.2.2.map (Peek.fill t data marks)))) }
  | _ => p

/-- The word is a RET (R62). -/
def isRet (w : DWord) : Bool := (Raw.unpack w).op == 452

/-- A reply reaches a slot that a RET waits for (R107): what it holds stands in D, with bit 64 set and its mark in bit 65. -/
def Sub.fill (t : Nat) (data : List Byte) (marks : Nat) (g : Sub) : Sub :=
  match g.replay with
  | none => g
  | some w =>
    let f (x : LogLane) : LogLane :=
      if x.b = BitVec.ofNat 64 (t + 1) then
        { x with data := BitVec.ofNat 128 (ofBytes data + 2 ^ 64 + if marks = 0 then 0 else 2 ^ 65) }
      else x
    if isRet w.word then { g with replay := some { w with lanes := w.lanes.map f } } else g

/-- A reply reaches the words of an agent that wait for what it brings. -/
def Thread.fill (t : Nat) (data : List Byte) (marks : Nat) (th : Thread) : Thread :=
  { th with pend := th.pend.map (Pend.fill t data marks), grp := th.grp.fill t data marks, rest := th.rest.map (Sub.fill t data marks) }

/-- A reply reaches the copy command of a core that reads under its tag (R139, R140). -/
def fillCopies (t : Nat) (data : List Byte) (marks : Nat) (s : State) (core : Nat) : State :=
  let mine (x : CopyCmd) : Bool := x.reads.any fun r => r.2.2.tag == t
  match (s.core core).copyq.find? mine with
  | none => s
  | some x =>
    let s := putCmd s core { x with reads := x.reads.map fun r => (r.1, r.2.1, r.2.2.fill t data marks) }
    { s with inputs := s.inputs ++ [.copyStart core] }

/-- A reply reaches what asked (R270): a word's or a copy command's read, a load or an atomic, or a write that waits for its end. -/
def cohortReply (s : State) (t : Nat) (data : List Byte) (marks : Nat) (sat : Bool) : State :=
  let s := { s with th := s.th.fill t data marks, threads := s.threads.map (Thread.fill t data marks) }
  let s := (s.cores.map Prod.fst).foldl (fillCopies t data marks) s
  writtenWith (arrived s t data marks) t 0 sat (marks != 0)

/-! ### Hops and ejection -/

/-- The last flit of a packet leaves its source: a delivery has left its core (R237). -/
def leftSource (s : State) (p q : CarPacket) : State :=
  match p.load with
  | .delivery id =>
    if (p.buf = .source ∨ p.atSource ≠ 0) ∧ q.buf ≠ .source ∧ q.atSource = 0 then
      match s.sends.find? fun d => d.id == id with
      | none => s
      | some d => leftCore s d
    else s
  | .answer _ => s
  | .request _ => s
  | .reply _ _ _ _ => s

/-- `CAROUSEL_HOP` (R269-R273): a packet hops to the next stop of its direction, or waits. -/
def execCarouselHop (cluster i : Nat) (s : State) : Out :=
  match (s.ring cluster).packets.find? fun p => p.id == i with
  | none => .next s
  | some p =>
    match carHop (s.ring cluster) p with
    | none => .next s
    | some (q, r) =>
      let s := leftSource (s.setRing cluster r) p q
      .next { s with inputs := s.inputs ++ ringWake s cluster }

/-- A packet at its target is the next of its pair (R275), and has arrived as far as its buffer there can hold it. -/
def Carousel.due (r : Carousel) (p : CarPacket) : Bool :=
  let full := p.whole || !r.roomy p.clockwise p.head
  match p.buf with
  | .source => r.mayLeave p
  | .pool => full && p.seq == tget 0 r.nextDo p.pair
  | .escape => full && p.seq == tget 0 r.nextDo p.pair

/-- The packets that a stop may perform next, in the order in which they entered. -/
def Carousel.dueAt (r : Carousel) (stop : Nat) : List CarPacket := r.packets.filter fun p => p.cur == stop && p.dst == stop && r.due p

/-- A packet has been performed: its flits leave their buffers, and the next of its pair is due (R272, R275). -/
def ejected (s : State) (cluster : Nat) (p : CarPacket) : State :=
  let r := s.ring cluster
  let r := (p.head :: p.trail).foldl (fun r x => r.use p.clockwise x (· - x.flits)) r
  let next := if p.buf = .source then r.nextDo else tset 0 r.nextDo p.pair (tget 0 r.nextDo p.pair + 1)
  let s := leftSource (s.setRing cluster { r with packets := r.packets.filter (fun q => q.id != p.id), nextDo := next }) p { p with buf := .pool, here := p.len, trail := [] }
  { s with inputs := s.inputs ++ ringWake s cluster }

/-- What a packet carries is performed, or it waits and holds its buffer (R240, R274): a delivery for its entries, a cohort request, which the
banks perform row by row, for the last of them (R430). A delivery whose target is no longer resident here goes on through a slice (R265). -/
def performLoad (s : State) (cluster : Nat) (p : CarPacket) : Bool × State :=
  match p.load with
  | .answer id => (true, { s with inputs := s.inputs ++ [.rwrAnswer id] })
  | .reply t data marks sat => (true, cohortReply s t data marks sat)
  | .request r => if p.rows.isEmpty then (true, replyCohort s cluster p r) else (false, s)
  | .delivery id => match s.sends.find? fun d => d.id == id with
    | none => (true, s)
    | some d =>
      let t := capTarget d.cap
      if coreOf s t.1 t.2.1 = some (8 * cluster + p.dst) then takeInbound s (8 * cluster + p.dst) d
      else (true, sendPhase s { d with byRing := false } .slice [.sliceForward d.id])

/-- The first packet that can be performed is. -/
def ejectFirst (cluster : Nat) : List CarPacket → State → State
  | [], s => s
  | p :: r, s =>
    let q := performLoad s cluster p
    if q.1 then ejected q.2 cluster p else ejectFirst cluster r q.2

/-- `CAROUSEL_EJECT` (R274, R275). -/
def execCarouselEject (cluster stop : Nat) (s : State) : Out := .next (ejectFirst cluster ((s.ring cluster).dueAt stop) s)

/-! ### Banks -/

/-- A bank performs a row of a request that waits at the Carousel stop (R430). A scratchpad that is no more reads as zeros. -/
def performRow (s : State) (cluster u : Nat) (p : CarPacket) (r : CohortReq) : State :=
  let q : List Byte × Bool × Bool × State := match getWg s r.ctx r.wgl with
    | none => ((match r.op with
      | .read n => List.replicate (min (r.off + n) (16 * u + 16) - max r.off (16 * u)) 0
      | .atomic _ w _ _ _ => List.replicate w 0
      | .write _ _ => []
      | .combine _ _ _ _ => []), false, false, s)
    | some g =>
      let x := cohortRow (g.touch s.clock (scratchPages g r.off r.op.width)) r.off u r.op
      (x.1, x.2.1, x.2.2.1, reback (putWg s x.2.2.2) r.ctx r.wgl)
  let s := q.2.2.2
  let ring := s.ring cluster
  s.setRing cluster { ring with packets := ring.packets.map fun y =>
    if y.id = p.id then { y with rows := y.rows.erase u, got := y.got ++ [(u, q.1, q.2.1)], sat := y.sat || q.2.2.1 } else y }

/-- The row of a bank that a packet waits for. -/
def CarPacket.rowAt (p : CarPacket) (bank : Nat) : Option Nat := p.rows.find? fun u => u % 32 == bank

/-- `BANK_GRANT` (R430): a bank of a core grants a row to the request that waits for it at the Carousel stop, and performs it. The rows of
lanes and of the block-transfer engine are granted in the step of their access. -/
def execBankGrant (core bank : Nat) (s : State) : Out :=
  match ((s.ring (core / 8)).dueAt (core % 8)).find? fun p => (p.rowAt bank).isSome with
  | none => .next s
  | some p =>
    match p.load, p.rowAt bank with
    | .request r, some u =>
      let s := performRow s (core / 8) u p r
      .next { s with inputs := s.inputs ++ [.carouselEject (core / 8) (core % 8)] }
    | _, _ => .next s

end Sys2Proof.Machine
end

