-- ==== Sys2Proof/Machine/Ras.lean ====
section
/-!
DEFINITION. Faults, repairs and the fault log (R397-R404), the lease of the Ringmaster (R406, R407), boot, keys and life cycle
(R405, R408-R415), and power (R416-R421).
-/

namespace Sys2Proof.Machine

/-! ### The fault log -/

/-- The code of a resource (R399, R404). -/
def Resource.code : Resource → Nat
  | .hbmRow => 0
  | .fabricLane => 1
  | .bank => 2
  | .matrixCell => 3

/-- The KIND of an event of a resource: a row and a lane are corrected, a bank and a cell are not (R399, R404). -/
def eventKind : Resource → Nat
  | .hbmRow => 0
  | .fabricLane => 0
  | .bank => 1
  | .matrixCell => 1

/-- COUNT, WINDOW and EN of a resource (R400). -/
def rasLimit (s : State) (r : Resource) : Nat × Nat × Bool :=
  let x := ((s.ras.lims[Resource.code r]?).getD 0).toNat
  (bitsN x 3 0, bitsN x 31 8, bitsN x 32 32 == 1)

/-- The instances that the device tracks (R399): at most 1,024 rows of a stack, the one that erred least recently goes. -/
def trackRows (l : List ((Nat × Nat × Nat × Nat) × List Nat)) (key : Nat × Nat × Nat × Nat) : List ((Nat × Nat × Nat × Nat) × List Nat) :=
  let same (x : (Nat × Nat × Nat × Nat) × List Nat) : Bool := x.1.1 == 0 && key.1 == 0 && x.1.2.1 == key.2.1 && x.1.2.2.1 == key.2.2.1
  if (l.filter same).length < 1024 then l
  else
    match (l.reverse.find? same) with
    | none => l
    | some x => l.filter fun y => y.1 != x.1

/-- Count an event of an instance at a time in seconds (R399); whether the instance is lasting now. -/
def countEvent (s : State) (r : Resource) (die unit index time : Nat) : Bool × State :=
  let key : Nat × Nat × Nat × Nat := (Resource.code r, die, unit, index)
  let lim := rasLimit s r
  let times := (time :: (lookupBy key s.ras.events).getD []).take lim.1
  let rest := trackRows (dropBy key s.ras.events) key
  let lasting := match times[lim.1 - 1]? with
    | some t => decide (time ≤ t + lim.2.1)
    | none => false
  (lasting && lim.2.2, { s with ras := { s.ras with events := (key, times) :: rest } })

/-! ### Repairs -/

/-- The die of a core. -/
def dieOfCore (core : Nat) : Nat := core / 48

/-- A core is disabled at the next reset (R401). -/
def disableLater (s : State) (core : Nat) : State :=
  { s with ras := { s.ras with disabled := if s.ras.disabled.contains core then s.ras.disabled else s.ras.disabled ++ [core] } }

/-- Spare a row of a stack (R401): four for each bank. -/
def spareRow (s : State) (die stack row : Nat) : State :=
  let n := (s.ras.rows.filter fun x => x.1 == die && x.2.1 == stack && Config.rowBank x.2.2 == Config.rowBank row).length
  if s.ras.rows.contains (die, stack, row) then s
  else if n < 4 then logFault { s with ras := { s.ras with rows := s.ras.rows ++ [(die, stack, row)] } } 0 2 die stack row
  else logFault s 0 3 die stack row

/-- Spare the column of a cell (R401): two for each array; with none left the core is disabled at the next reset, and until then
the column's elements are marked. -/
def spareColumn (s : State) (core cell : Nat) : State :=
  let col := cell % 64
  let mine := s.ras.cols.filter fun x => x.1 == core
  if mine.any fun x => x.2.1 == col then s
  else if mine.length < 2 then
    let s := logFault { s with ras := { s.ras with cols := s.ras.cols ++ [(core, col, false)] } } 3 2 (dieOfCore core) core cell
    { s with inputs := s.inputs ++ [.matrixColumnSpare core] }
  else
    let s := { s with ras := { s.ras with deadCols := (core, col) :: s.ras.deadCols.filter (· != (core, col)) } }
    logFault (disableLater s core) 3 3 (dieOfCore core) core cell

/-- Retire a lane of a port (R401); it takes effect at the port's next training. -/
def retireLane (s : State) (die port lane : Nat) : State :=
  let x := s.fabric.port port
  let s := s.setFab (s.fabric.setPort port { x with retiredLanes := x.retiredLanes ||| BitVec.ofNat 4 (2 ^ lane) })
  logFault s 1 2 die port lane

/-- The repair of a lasting resource (R399, R401). -/
def repair (s : State) (r : Resource) (die unit index : Nat) : State :=
  match r with
  | .hbmRow => spareRow s die unit index
  | .fabricLane => retireLane s die unit index
  | .bank => logFault (disableLater s unit) 2 2 die unit index
  | .matrixCell => spareColumn s unit index

/-- An event of R399 is logged, counted and, when the resource is lasting, repaired. -/
def rasEvent (s : State) (r : Resource) (die unit index time : Nat) : State :=
  let s := logFault s (Resource.code r) (eventKind r) die unit index
  let c := countEvent s r die unit index time
  if c.1 then repair c.2 r die unit index else c.2

/-- `CORRECTED_ERROR` (R399): no value changes. -/
def execCorrectedError (res : Resource) (die unit index time : Nat) (s : State) : Out := .next (rasEvent s res die unit index time)

/-- `MATRIX_COLUMN_SPARE` (R401): at the first cycle with no operation on the array. -/
def execMatrixColumnSpare (core : Nat) (s : State) : Out :=
  if (wgsOn s core).any fun g => g.mq.any fun x => x.phase == .started then .next s
  else .next { s with ras := { s.ras with cols := s.ras.cols.map fun x => if x.1 = core then (x.1, x.2.1, true) else x } }

/-- `COREDIS` (R402): the contexts on the core are pre-empted, and it takes no more work; the repair's record (R404)
names the core with RES 2 and INDEX 0 (DESIGN CHOICE, log entry 51). -/
def execCoredis (core : Nat) (s : State) : Out :=
  if 191 < core then .next s
  else
    let ks := ((wgsOn s core).filter fun g => !g.ended).map fun g => (g.ctx, g.cohort)
    let s := if (s.core core).disabled then s else logFault s 2 2 (dieOfCore core) core 0
    let s := disableLater (s.setCore core { s.core core with disabled := true }) core
    .next { roomAgain s with inputs := (roomAgain s).inputs ++ ks.eraseDups.map fun k => .preemptCohort k.1 k.2 }

/-! ### Uncorrectable errors -/

/-- An error of a bank of the core that holds a workgroup is counted (R399). -/
def bankError (s : State) (g : Workgroup) (bank time : Nat) : State :=
  match g.core with
  | none => s
  | some core => rasEvent s .bank (dieOfCore core) core bank time

/-- An error of a bank that the spec does not name for what it strikes: which one it is counted for is free (R18; log entry 39). -/
def freeBankError (s : State) (core time : Nat) : State :=
  rasEvent { s with free := s.free + 1 } .bank (dieOfCore core) core (Config.freeNat s.free % 32) time

/-- The same of the core that holds a workgroup. -/
def someBankError (s : State) (g : Workgroup) (time : Nat) : State :=
  match g.core with
  | none => s
  | some core => freeBankError s core time

/-- The words of a delivery that share the 16-byte unit of one of them are marked (R397). -/
def Delivery.strike (w : Nat) (d : Delivery) : Delivery :=
  { d with vals := (d.vals.zip (List.range d.vals.length)).map fun v => if v.2 / 4 = w / 4 then (v.1.1, true) else v.1 }

/-- The 16-byte unit of an address is marked in a cached line (R397). -/
def CacheLine.strike (pa : Nat) (c : CacheLine) : CacheLine :=
  if c.addr = pa / 128 * 128 then { c with marks := c.marks ||| 2 ^ (pa % 128 / 16) } else c

/-- A control core or a firmware core stops where it stands (R403). -/
def stopCore (s : State) (a : Agent) : State :=
  s.setThread a fun t => { t with status := .faulted .data, live := 0, rest := [], grp := { t.grp with mask := 0 }, pend := [] }

/-- `UNCORRECTABLE_ERROR` (R397): the unit or the element is marked as a data error; a control core or a firmware core stops. The
unit of a per-lane register holds that register of four lanes, and one of a uniform register four of them (R18). A unit of L2 or RDC is
logged with UNIT and INDEX 0 (R404; log entry 51). DESIGN CHOICE (log entry 51): the error report that wakes a firmware core (R219) is that
of a control core of its die; neither a trap of R67 nor an event of R399 is one. -/
def execUncorrectableError (what : Struck) (time : Nat) (s : State) : Out :=
  match what with
  | .memory pa => .next { s with memMark := tset false s.memMark (pa / 16) true }
  | .scratch c w off =>
    match getWg s c w with
    | none => .next s
    | some g =>
      let s := putWg s { g with scratchMark := tset false g.scratchMark (off / 16) true }
      .next (bankError s g (off / 16 % 32) time)
  | .register c w t lane reg =>
    match getWg s c w with
    | none => .next s
    | some g =>
      let s := s.setThread (.troupe c w t) fun th =>
        { th with vMark := tset false th.vMark (markKeyV (lane % 32) (reg % 256)) true }
      .next (bankError s g (8 * (reg % 4) + lane % 32 / 4) time)
  | .uniform c w t reg =>
    match getWg s c w with
    | none => .next s
    | some g =>
      let s := s.setThread (.troupe c w t) fun th =>
        { th with kMark := tset false th.kMark (markKeyK (reg % 128)) true }
      .next (someBankError s g time)
  | .l1Line c w pa =>
    match getWg s c w with
    | none => .next s
    | some g =>
      let g := { g with l1 := g.l1.map (CacheLine.strike pa) }
      .next (someBankError (putWg s g) g time)
  | .predicate c w t lane =>
    match getWg s c w with
    | none => .next s
    | some g =>
      let ls := laneBit (lane % 32 / 4 * 4) * 15
      let s := s.setThread (.troupe c w t) fun th =>
        { th with pMark := (List.range 7).foldl (fun m n => tset 0 m n (tget 0 m n ||| ls)) th.pMark }
      .next (someBankError s g time)
  | .statePage c w =>
    match getWg s c w with
    | none => .next s
    | some g => .next (someBankError s g time)
  | .delivery i w =>
    match s.sends.find? fun d => d.id == i with
    | none => .next s
    | some d =>
      let s := { s with sends := s.sends.map fun d => if d.id = i then d.strike w else d }
      .next (match d.sender with
        | .word _ core _ _ => freeBankError s core time
        | .packet _ => s)
  | .command core i =>
    let c := s.core core
    .next (freeBankError (s.setCore core { c with copyq := c.copyq.map fun x =>
      if x.id = i then { x with data := true, code := if x.code = 0 then 5 else x.code } else x }) core time)
  | .l2Unit pa => .next (logFault { s with memMark := tset false s.memMark (pa / 16) true } 4 1 (homeDie s pa) 0 0)
  | .rdcLine d pa => .next (logFault (s.setDie d { s.die d with rdc := (s.die d).rdc.map (CacheLine.strike pa) }) 4 1 d 0 0)
  | .cell core col =>
    let s := match (s.core core).owner.bind fun o => getWg s o.1 o.2 with
      | none => s
      | some g =>
        if onArray g then putWg s { g with matrix := { g.matrix with badCells := g.matrix.badCells ++ [col % 64] } } else s
    .next (rasEvent s .matrixCell (dieOfCore core) core col time)
  | .acc c w tile row col =>
    match getWg s c w with
    | none => .next s
    | some g =>
      let k := accKey (tile % 8) (row % 64) (col % 64)
      .next (putWg s { g with matrix := { g.matrix with badAcc := if g.matrix.badAcc.contains k then g.matrix.badAcc else g.matrix.badAcc ++ [k] } })
  | .control cl =>
    let s := stopCore s (.control cl)
    .next { s with inputs := s.inputs ++ [Instr.coreEventWake (24 + cl / 6) .error, Instr.controlCoreRestart cl] }
  | .firmware d =>
    let s := stopCore s (.firmware d)
    .next { s with inputs := s.inputs ++ [Instr.firmwareCoreRestart d] }

/-! ### Restarts -/

/-- An entry point of an image: where a core starts is not stated (log entry 2). -/
def imageEntry (n : Nat) : DWord := BitVec.ofNat 64 (Config.freeNat n % 2 ^ 54 * 8)

/-- A core at the start of its image. -/
def startCore (n : Nat) (t : Thread) : Thread :=
  let u := { Thread.fresh t.agent .running 1 with ident := t.ident, asid := t.asid }
  { u with grp := { u.grp with pc := imageEntry n } }

/-- The canonical NaN of a destination format of the assist (R44, R46). -/
def fmtNan (fmt : Nat) : Nat :=
  match fmt with
  | 1 => fp32.cnan
  | 2 => fp16.cnan
  | _ => bf16.cnan

/-- A failed control core's recorded elements take the canonical NaN, and the status word reports it (R46). -/
def failAssist (s : State) (cl : Nat) : State :=
  match tget [] s.assists cl with
  | [] => s
  | a :: r =>
    if !a.taken then s
    else
      let k := elemBits a.fmt / 8
      let s := a.elems.foldl (fun s e =>
        let w := engWrite s a.core 0 e.2.2.2 (toBytes k (fmtNan a.fmt)) false
        tagAssisted w.2 a w.1) s
      let s := match getWg s a.ctx a.wg with
        | none => s
        | some g => putWg s { g with matrix := { g.matrix with pending := g.matrix.pending ||| 16 } }
      endAssist s cl a r

/-- `CONTROL_CORE_RESTART` (R403). -/
def execControlCoreRestart (cl : Nat) (s : State) : Out :=
  match s.thread (.control cl) with
  | none => .next s
  | some t =>
    if !t.failed then .next s
    else
      let s := logFault (failAssist s cl) 5 1 (cl / 6) cl 0
      .next { s.setThread (.control cl) (startCore s.free) with free := s.free + 1 }

/-- `FIRMWARE_CORE_RESTART` (R403): the core joins as a follower. -/
def execFirmwareCoreRestart (die : Nat) (s : State) : Out :=
  match s.thread (.firmware die) with
  | none => .next s
  | some t =>
    if !t.failed then .next s
    else
      let s := logFault s 6 1 die die 0
      let l := tget Lease.fresh s.trust.leases die
      let s := { s with trust := { s.trust with leases := tset Lease.fresh s.trust.leases die { l with self := false } } }
      .next { s.setThread (.firmware die) (startCore s.free) with free := s.free + 1 }

/-! ### The lease of the Ringmaster -/

/-- 10 ms, 50 ms and 5 ms in cycles of the arithmetic clock (R220, R406). -/
def leaseCycles : Nat := 120000000
def guardCycles : Nat := 12000000

/-- The part of a die's firmware core in the election. -/
def State.lease (s : State) (d : Nat) : Lease := tget Lease.fresh s.trust.leases d

/-- Change it. -/
def State.setLease (s : State) (d : Nat) (l : Lease) : State :=
  { s with trust := { s.trust with leases := tset Lease.fresh s.trust.leases d l } }

/-- The core holds the role now (R406). -/
def Lease.acts (l : Lease) (now : Nat) : Bool := l.self && decide (now < l.ends)

/-- A lease is in force in the core's view (R407). -/
def Lease.inForce (l : Lease) (now : Nat) : Bool := l.any && decide (now < l.ends)

/-- The core's lease has lapsed by the guard (R406). -/
def Lease.lapsed (l : Lease) (now : Nat) : Bool := !l.any || decide (l.ends + guardCycles ≤ now)

/-- A follower receives a renewal (R406): its lease runs 50 ms from now. -/
def hearRenewal (leader term : Nat) (s : State) (d : Nat) : State :=
  let f := s.lease d
  if d = leader ∨ term < f.term then s
  else s.setLease d { f with term := term, leader := leader, ends := s.clock + leaseCycles, any := true, self := false }

/-- `LEASE_RENEWAL` (R406): the leader sends a renewal, which the dies of `heard` receive. -/
def execLeaseRenewal (r : Renewal) (s : State) : Out :=
  let l := s.lease r.die
  if l.acts s.clock then .next (r.heard.foldl (hearRenewal r.die l.term) (s.setLease r.die { l with sent := s.clock, acks := [] })) else .next s

/-- Two cores have proposed themselves for one term (R406, a tie). -/
def tied (s : State) (die term : Nat) : Bool := (List.range 4).any fun d => d != die && (s.lease d).voted == some (term, d)

/-- `TERM_PROPOSAL` (R406): the core votes for itself in the next term. A retry without a tie is in the same term. -/
def execTermProposal (die : Nat) (s : State) : Out :=
  let l := s.lease die
  if !l.lapsed s.clock || (l.term == 0 && die != 0) then .next s
  else if l.voted = some (l.term, die) && !tied s die l.term then .next s
  else .next (s.setLease die { l with term := l.term + 1, voted := some (l.term + 1, die), votes := [die], self := false })

/-- `VOTE_REQUEST` (R406): a vote is granted only by a core whose lease has lapsed by the guard, and only for a higher term than
every one it has seen. -/
def execVoteRequest (die proposer : Nat) (term : Word) (s : State) : Out :=
  let l := s.lease die
  if l.lapsed s.clock && decide (l.term < term.toNat) && die != proposer then
    .next (s.setLease die { l with term := term.toNat, voted := some (term.toNat, proposer), self := false })
  else .next s

/-- `VOTE_RECEIPT` (R406): with three votes, its own included, the proposer is leader. -/
def execVoteReceipt (die source : Nat) (term : Word) (s : State) : Out :=
  let l := s.lease die
  if l.term ≠ term.toNat ∨ l.voted ≠ some (term.toNat, die) ∨ (s.lease source).voted ≠ some (term.toNat, die) then .next s
  else
    let votes := if l.votes.contains source then l.votes else l.votes ++ [source]
    if 3 ≤ votes.length && !l.self then
      .next (s.setLease die { l with votes := votes, self := true, leader := die, any := true, sent := s.clock, acks := [],
                                     ends := s.clock + leaseCycles })
    else .next (s.setLease die { l with votes := votes })

/-- `RENEWAL_ACK` (R406): a follower has received the last renewal, and with two such followers the leader's lease runs on. -/
def execRenewalAck (die source : Nat) (term : Word) (s : State) : Out :=
  let l := s.lease die
  if l.term ≠ term.toNat ∨ !l.acts s.clock ∨ source = die then .next s
  else
    let acks := if l.acks.contains source then l.acks else l.acks ++ [source]
    .next (s.setLease die { l with acks := acks, ends := if 2 ≤ acks.length then max l.ends (l.sent + leaseCycles) else l.ends })

/-- `LEASE_EXPIRY` (R406): the holder stops acting. -/
def execLeaseExpiry (die : Nat) (s : State) : Out :=
  let l := s.lease die
  if s.clock < l.ends then .next s else .next (s.setLease die { l with self := false })

/-- RMSTAT (R407). -/
def rmstat (s : State) (die : Nat) : Nat :=
  let l := s.lease die
  let bit (b : Bool) (n : Nat) : Nat := if b then 2 ^ n else 0
  l.term % 2 ^ 32 + l.leader % 4 * 2 ^ 32 + bit (l.acts s.clock) 34 + bit (!l.inForce s.clock) 35 + bit l.stale 36

/-! ### Keys -/

/-- Draw from the random-number generator (R179, R412). -/
def drawKey (s : State) : BitVec 256 × State := (Config.random s.free, { s with free := s.free + 1 })

/-- Draw a key pair for memory (R351, R412). -/
def drawPair (s : State) : BitVec 512 × State :=
  (Config.random s.free ++ Config.random (s.free + 1), { s with free := s.free + 2 })

/-- `KEY_ALLOCATE` (R412): keys 1 to 2,047. -/
def execKeyAllocate (_asid key : Nat) (s : State) : Out :=
  if key = 0 ∨ 2047 < key then .next s
  else
    let (k, s) := drawPair s
    .next { s with keys := tset 0 s.keys key k }

/-- A line of an erased key holds its ciphertext (R412). -/
def sealLine (s : State) (line : Nat) : State :=
  { s with mem := putRaw s.mem (128 * line) ((List.range 128).map fun i => ((cipherLine s line)[i]?).getD 0),
           lineKey := tset 0 s.lineKey line 2048 }

/-- `KEY_ERASE` (R412): first the RDC lines of the index go. -/
def execKeyErase (key : Nat) (s : State) : Out :=
  if key = 0 ∨ 2047 < key then .next s
  else
    let s := (List.range 4).foldl (fun s d => s.setDie d { s.die d with rdc := (s.die d).rdc.filter fun c => c.key != key }) s
    let s := ((s.lineKey.filter fun x => x.2 == key).map Prod.fst).foldl sealLine s
    .next { s with keys := tset 0 s.keys key 0 }

/-! ### Boot and life cycle -/

/-- What survives a reset or a change of state (R401, R405, R409, R415): the number, the flash, the fuses, the repair store, and
what is the host's. -/
def wipe (s : State) : State :=
  let r := State.reset
  let cores := (List.range 192).foldl (fun m c =>
    if s.ras.disabled.contains c then tset CoreSt.fresh m c { CoreSt.fresh with disabled := true } else m) r.cores
  let ports := (List.range 24).foldl (fun m n => tset Port.fresh m n { Port.fresh with retiredLanes := (s.fabric.port n).retiredLanes })
    r.fabric.ports
  { r with
    pkg := s.pkg, free := s.free, mem := s.mem.filter fun x => isHost x.1, memMark := s.memMark.filter fun x => isHost (16 * x.1),
    cores := cores, fabric := { r.fabric with ports := ports },
    ras := { r.ras with events := s.ras.events, rows := s.ras.rows, cols := s.ras.cols.map fun x => (x.1, x.2.1, true),
                        disabled := s.ras.disabled },
    trust := { r.trust with flash := s.trust.flash, staged := s.trust.staged, lc := s.trust.lc, idKey := s.trust.idKey,
                            idNext := s.trust.idNext, boots := s.trust.boots } }

/-- The package is wiped under a new key 0 (R350, R412, R415). -/
def wipeKeyed (s : State) : State :=
  let (k, s) := drawPair (wipe s)
  { s with keys := tset 0 s.keys 0 k }

/-- The keys that the firmware generates at a boot (R408, R409): the identity key at the first boot in PROVISIONED, and an attestation key
with the identity key's signature over it. -/
def bootKeys (s : State) : State :=
  let t := s.trust
  if t.lc ≠ 1 ∧ t.lc ≠ 2 then s
  else
    let (ik, s) := if t.lc = 1 && t.idKey.isNone then let r := drawKey s; (some r.1, r.2) else (t.idKey, s)
    if ik.isNone ∨ 2 ^ 20 ≤ t.idNext then { s with trust := { s.trust with idKey := ik } }
    else
      let (ak, s) := drawKey s
      { s with trust := { s.trust with idKey := ik, idNext := t.idNext + 1, attKey := some ak, attNext := 0 } }

/-- Every control core and firmware core starts on the image (R403, R405). -/
def startCores (s : State) : State :=
  let l := (s.th :: s.threads).map Thread.agent
  let start (s : State) (t : Thread) : Thread := startCore s.free { t with ident := { t.ident with pkg := s.pkg } }
  l.foldl (fun s a => { s.setThread a (start s) with free := s.free + 1 }) s

/-- The boot ROM runs an image that verifies, in TEST a manufacturing one (R405, R415). -/
def imageRuns (s : State) (image : List Byte) : Bool := Config.rootVerifies image && (s.trust.lc != 0 || Config.manufacturing image)

/-- The boot ROM of die 0 on a wiped package with an image (R405): it starts the cores on an image that verifies, and waits for
one otherwise. In SCRAPPED nothing runs. -/
def bootWith (s : State) (image : List Byte) : State :=
  let s := { s with trust := { s.trust with table := tset false s.trust.table s.pkg true } }
  if s.trust.lc = 4 then s
  else if imageRuns s image then
    let s := { s with trust := { s.trust with waiting := false, digest := Config.shake256 image, boots := s.trust.boots + 1, staged := [] } }
    startCores (bootKeys s)
  else { s with trust := { s.trust with waiting := true } }

/-- The image that the next boot runs: a staged one, else the flash, else what the step says the flash holds (R405, R425). -/
def bootImage (s : State) (image : List Byte) : List Byte :=
  if s.trust.staged ≠ [] then s.trust.staged else if s.trust.flash ≠ [] then s.trust.flash else image

/-- `RESET_BOOT` (R405): `image` is what the flash holds where the model has not seen it written. -/
def execResetBoot (image : List Byte) (s : State) : Out := .next (bootWith (wipeKeyed s) (bootImage s image))

/-- The transitions of the life cycle (R415). -/
def lifeMoves : List (Nat × Nat) := [(0, 1), (2, 1), (1, 2), (1, 3), (2, 3), (0, 4), (1, 4), (2, 4), (3, 4), (4, 4)]

/-- A written transition command (R415), and whether it was carried out: one into or out of DEBUG names the package. -/
def lifeCommand (s : State) (cmd : List Byte) : Bool × State :=
  let n := Config.transitionTarget cmd
  let named := (n != 2 && s.trust.lc != 2) || Config.transitionNames cmd s.pkg
  if Config.rootVerifies cmd && named && lifeMoves.contains (s.trust.lc, n) then
    let t := { s.trust with lc := n, idKey := if n = 3 then none else s.trust.idKey }
    let s := wipeKeyed { s with trust := t }
    let s := if n = 4 then { s with ras := Ras.reset, cores := [], fabric := { s.fabric with ports := [] } } else s
    (true, bootWith s (bootImage s []))
  else (false, logFault s 6 1 0 0 0)

/-- `LCCMD` (R415). -/
def execLccmd (cmd : List Byte) (s : State) : Out := .next (lifeCommand s cmd).2

/-! ### Power -/

/-- I_idle of R416, in A. -/
def idleAmps : Nat := 375

/-- The allowed fraction in 64ths (R416, R421). -/
def powerF (p : Power) : Nat := min 64 (max 1 (64 * (p.ceiling - idleAmps) / 1400))

/-- C_max of R416 under PCAP, and the limit of R420. -/
def powerMax (p : Power) : Nat :=
  let c := max idleAmps (1775 * bitsN p.cfg.toNat 23 12 / 2400)
  if p.hot then min c 1500 else c

/-- One microsecond of the power controller (R416, R420, R421): a rise while shaped work waits below the limit, else a fall toward IEST, and a
fall to 1,500 A in HOT. A microsecond counts in SHAPED by F at its start (DESIGN CHOICE, log entry 51). -/
def powerTick (iest : Nat) (waiting : Bool) (p : Power) : Power :=
  let slew := bitsN p.cfg.toNat 8 0
  let c := if waiting && decide (p.ceiling < powerMax p) then min (powerMax p) (p.ceiling + slew)
    else if iest < p.ceiling then (if p.cfg.getLsbD 9 then max iest (p.ceiling - slew) else iest)
    else p.ceiling
  { p with ceiling := if p.hot && decide (1500 < p.ceiling) then min c (max 1500 (p.ceiling - slew)) else c
           shaped := if powerF p < 64 then min (p.shaped + 1) 4095 else p.shaped }

/-- Some microseconds of it. -/
def powerRun (iest : Nat) (waiting : Bool) : Nat → Power → Power
  | 0, p => p
  | n + 1, p => powerRun iest waiting n (powerTick iest waiting p)

/-- A write of PWRCFG (R421). -/
def writePwrcfg (s : State) (v : Nat) : State :=
  let slew := max 20 (min 400 (bitsN v 8 0))
  let cap := max 600 (min 2400 (bitsN v 23 12))
  { s with power := { s.power with cfg := BitVec.ofNat 32 (slew + bitsN v 9 9 * 2 ^ 9 + cap * 2 ^ 12 + bitsN v 24 24 * 2 ^ 24) } }

/-- PWRSTAT (R421). -/
def pwrstat (s : State) : Nat :=
  powerF s.power + s.power.iest % 4096 * 2 ^ 7 + s.power.shaped % 4096 * 2 ^ 19 + (if s.power.hot then 2 ^ 31 else 0)

/-- `POWER_CEILING_UPDATE` (R416, R420): `us` microseconds with an estimated current; `waiting` says that shaped work waits. -/
def execPowerCeilingUpdate (us iest : Nat) (waiting : Bool) (s : State) : Out :=
  .next { s with power := { powerRun iest waiting us s.power with iest := min iest 4095 } }

/-- `THERMAL_LIMIT_ENTER` (R420). -/
def execThermalLimitEnter (die celsius : Nat) (s : State) : Out :=
  if 105 < celsius && !s.power.hot then .next (logFault { s with power := { s.power with hot := true } } 8 0 die 0 celsius) else .next s

/-- `THERMAL_LIMIT_LIFT` (R420). -/
def execThermalLimitLift (die celsius : Nat) (s : State) : Out :=
  if celsius < 100 && s.power.hot then .next (logFault { s with power := { s.power with hot := false } } 8 1 die 0 celsius) else .next s

end Sys2Proof.Machine
end

