-- ==== Sys2Proof/Machine/HostPort.lean ====
section
/-!
DEFINITION. The host port: the functions and their TDI state (R422), accesses through BAR2 (R262, R423), and the commands of the
management mailbox (R411, R424, R425).
-/

namespace Sys2Proof.Machine

/-! ### Functions -/

/-- The mailbox of a function: 0 to 15 are the virtual functions, 16 is the physical one. -/
def State.mailbox (s : State) (fn : Nat) : Mailbox := tget Mailbox.fresh s.mailboxes fn

/-- Change the mailbox of a function. -/
def State.setMailbox (s : State) (fn : Nat) (m : Mailbox) : State := { s with mailboxes := tset Mailbox.fresh s.mailboxes fn m }

/-- `TDI_STATE_CHANGE` (R422): a virtual function is one TDI. -/
def execTdiStateChange (fn : Nat) (x : TdiState) (s : State) : Out :=
  if fn < 16 then .next (s.setMailbox fn { s.mailbox fn with run := x.run, ide := x.ide }) else .next s

/-- The BARs of a function are served (R422): a TDI outside RUN is not, nor is host traffic to one in RUN without IDE. -/
def barOpen (s : State) (fn : Nat) : Bool := fn == 16 || (decide (fn < 16) && (s.mailbox fn).run && (s.mailbox fn).ide)

/-- Host traffic to a TDI in RUN without IDE is refused with completer abort (R422). -/
def barAborts (s : State) (fn : Nat) : Bool := decide (fn < 16) && (s.mailbox fn).run && !(s.mailbox fn).ide

/-- The host has a completion. -/
def hostAnswer (s : State) (a : HostAnswer) : State := { s with host := { s.host with answers := s.host.answers ++ [a] } }

/-- BAR0 of a function shows a queue (R422, R423): a virtual function has four; the physical function and the firmware (none) have all. -/
def queueShown (s : State) (x : QueueAccess) : Bool :=
  match x.fn with
  | none => true
  | some f => barOpen s f && decide (x.q < 64) && (f == 16 || x.q / 4 == f)

/-! ### BAR2 -/

/-- The place of a host access, or a fault record that nobody answers, and the completion unsupported request (R423). -/
def hostTranslate (s : State) (fn va : Nat) (kind : Access) : Option (Nat × Nat) × State :=
  let asid := (s.mailbox fn).asid
  match frontWalk s asid va kind with
  | (.ok p, s) => (some p, s)
  | (.error r, s) => (none, hostAnswer ((writeRecord s va asid r 4 0 0 0 kind false).elim s Prod.snd) .unsupported)

/-- One piece of a host access (R262, R423): a write takes its bytes from `data`, a read has none. -/
def hostPiece (fn : Nat) (kind : Access) (data : Nat → Nat → Option (List Byte)) (s : State) (p : Nat × Nat) : State :=
  match hostTranslate s fn p.1 kind with
  | (none, s) => s
  | (some (pa, key), s) => hostIssue s ⟨(s.mailbox fn).asid, pa, key, data p.1 p.2, p.2⟩

/-- A host access to the origin directory: `some` when a piece of it would reach there (R344). -/
def hostInDirectory (s : State) (fn : Nat) (kind : Access) (ps : List (Nat × Nat)) : Bool :=
  ps.any fun p => match (hostTranslate s fn p.1 kind).1 with
    | some (pa, _) => inDirectory pa
    | none => false

/-- An access to a function whose BARs are not served (R422): completer abort, or outside RUN all ones for a read and nothing for a
write. -/
def closedBar (s : State) (fn : Nat) (kind : Access) (width : Nat) : State :=
  if barAborts s fn then hostAnswer s .abort
  else if accessWrites kind then s
  else hostAnswer s (.data (List.replicate width 0xff))

/-- `HOST_BAR2_ACCESS` (R422, R423). -/
def execHostBar2Access (fn : Nat) (kind : Access) (addr : DWord) (data : List Byte) (width : Nat) (s : State) : Out :=
  if !barOpen s fn then .next (closedBar s fn kind width)
  else if accessWrites kind then
    let ps := linePieces addr.toNat data.length
    if hostInDirectory s fn .store ps then .fault .originDirectory else .next (ps.foldl (hostPiece fn .store fun va n => some ((data.drop (va - addr.toNat)).take n)) s)
  else
    let ps := linePieces addr.toNat width
    if hostInDirectory s fn .load ps then .fault .originDirectory else .next (ps.foldl (hostPiece fn .load fun _ _ => none) s)

/-! ### The mailbox -/

/-- `n` bytes of the command buffer, as a number. -/
def Mailbox.arg (m : Mailbox) (lo n : Nat) : Nat := ofBytes ((List.range n).map fun i => tget 0 m.buf (lo + i))

/-- The command code: bytes 0 to 3, with bytes 4 to 7 zero (R425). -/
def Mailbox.code (m : Mailbox) : Nat := m.arg 0 8

/-- The LEN of each command (R425): LCCMD carries at least one byte. -/
def lenOk (code len : Nat) : Bool :=
  match code with
  | 1 => len == 48
  | 2 => len == 8
  | 3 => len == 12
  | 4 => len == 8
  | 5 => len == 12
  | 6 => decide (8 < len) && decide (len ≤ 4032)
  | 7 => len == 25
  | 8 => len == 16
  | _ => false

/-- A command finishes with a status and an answer (R424, R425). -/
def finishMb (s : State) (fn status : Nat) (answer : List Byte) : State :=
  let m := s.mailbox fn
  let buf := (answer.zip (List.range answer.length)).foldl (fun b x => tset 0 b x.2 x.1) m.buf
  s.setMailbox fn { m with busy := false, done := true, status := status, rlen := answer.length, buf := buf }

/-- A firmware core runs (R415, R424). -/
def firmwareOn (s : State) : Bool :=
  (s.th :: s.threads).any fun t => t.status == .running && match t.agent with
    | .firmware _ => true
    | .troupe _ _ _ => false
    | .matrix _ _ => false
    | .copy _ _ => false
    | .control _ => false

/-- Somebody answers a command (R424, R425): the firmware, or the boot ROM while it waits for an image. -/
def mbServed (s : State) : Bool := s.trust.waiting || firmwareOn s

/-- A command has been written and MBGO started it; nobody is there yet to answer (R424). -/
def startMb (s : State) (fn : Nat) : State := s.setMailbox fn { s.mailbox fn with busy := true, done := false }

/-- A command of the mailbox runs when the function's BAR0 is served and the buffer holds it; the firmware core that waits for messages
hears of it (R219, R424, R425). One that nobody has answered runs when somebody can. -/
def runMb (s : State) (fn code : Nat) (f : State → Mailbox → State) : Out :=
  let m := s.mailbox fn
  if !barOpen s fn || m.code != code || !lenOk code m.len then .next s
  else if !mbServed s then .next (startMb s fn)
  else
    let s := { s with inputs := s.inputs ++ [Instr.coreEventWake 24 .mailbox] }
    if s.trust.waiting && code != 7 then .next (finishMb s fn 3 []) else .next (f s m)

/-- Exactly n bytes. -/
def fitBytes (n : Nat) (l : List Byte) : List Byte := (List.range n).map fun i => (l[i]?).getD 0

/-- The cores that are disabled, and the lanes that are retired (R411). -/
def disabledCores (s : State) : Nat := ((List.range 192).filter fun c => (s.core c).disabled).length

/-- The lanes that are retired (R411). -/
def retiredLanes (s : State) : Nat :=
  ((List.range 24).map fun n => ((List.range 4).filter fun i => (s.fabric.port n).retiredLanes.getLsbD i).length).sum

/-- The 104 signed bytes of a quote (R411, R425). -/
def quoteBytes (s : State) (m : Mailbox) (x : Context) : List Byte :=
  ((List.range 32).map fun i => tget 0 m.buf (16 + i)) ++ toBytes 32 x.mctx.toNat ++ toBytes 4 s.trust.lc
    ++ toBytes 32 s.trust.digest.toNat ++ toBytes 2 (disabledCores s) ++ toBytes 2 (retiredLanes s)

/-- `MB_QUOTE` (R409, R411, R425). -/
def execMbQuote (fn : Nat) (s : State) : Out :=
  runMb s fn 1 fun s m =>
    let c := m.arg 8 4
    if 127 < c then finishMb s fn 2 []
    else
      match getCx s c with
      | none => finishMb s fn 6 []
      | some x =>
        if fn ≠ 16 ∧ x.queue / 4 ≠ fn then finishMb s fn 3 []
        else if s.trust.lc ≠ 1 ∧ s.trust.lc ≠ 2 then finishMb s fn 3 []
        else
          match s.trust.attKey with
          | none => finishMb s fn 4 []
          | some k =>
            if 2 ^ 16 ≤ s.trust.attNext then finishMb s fn 4 []
            else
              let b := quoteBytes s m x
              let t := { s with trust := { s.trust with attNext := s.trust.attNext + 1 } }
              finishMb t fn 0 (b ++ fitBytes 2692 (Config.xmssSign k s.trust.attNext b))

/-- `MB_GETCERT` (R408, R425): the signature is the one of the boot. -/
def execMbGetcert (fn : Nat) (s : State) : Out :=
  runMb s fn 2 fun s _ =>
    if s.trust.lc ≠ 1 ∧ s.trust.lc ≠ 2 then finishMb s fn 3 []
    else
      match s.trust.attKey, s.trust.idKey with
      | some ak, some ik =>
        let b := fitBytes 68 (Config.xmssPublic ak) ++ fitBytes 68 (Config.xmssPublic ik) ++ toBytes 32 s.trust.digest.toNat
          ++ toBytes 4 s.trust.lc ++ toBytes 8 s.trust.boots
        finishMb s fn 0 (b ++ fitBytes 2820 (Config.xmssSign ik (s.trust.idNext - 1) b))
      | _, _ => finishMb s fn 4 []

/-- `MB_PWRWR` (R421, R425). -/
def execMbPwrwr (fn : Nat) (s : State) : Out :=
  runMb s fn 3 fun s m => if fn ≠ 16 then finishMb s fn 3 [] else finishMb (writePwrcfg s (m.arg 8 4)) fn 0 []

/-- `MB_PWRRD` (R421, R425). -/
def execMbPwrrd (fn : Nat) (s : State) : Out :=
  runMb s fn 4 fun s _ => finishMb s fn 0 (toBytes 4 s.power.cfg.toNat ++ toBytes 4 (pwrstat s))

/-- `MB_LOGRD` (R404, R425). -/
def execMbLogrd (fn : Nat) (s : State) : Out :=
  runMb s fn 5 fun s m =>
    let n := m.arg 8 4
    if fn ≠ 16 then finishMb s fn 3 []
    else if n = 0 ∨ 251 < n then finishMb s fn 2 []
    else
      let r := s.ras
      let k := min n (r.tail - r.head).toNat
      let recs := (List.range k).flatMap fun i => memBytes s 0 (r.base.toNat + 16 * ((r.head.toNat + i) % 4096)) 16
      finishMb { s with ras := { r with head := r.head + BitVec.ofNat 32 k } } fn 0 (toBytes 4 k ++ recs)

/-- `MB_LCCMD` (R415, R425). -/
def execMbLccmd (fn : Nat) (s : State) : Out :=
  runMb s fn 6 fun s m =>
    if fn ≠ 16 then finishMb s fn 3 []
    else
      let r := lifeCommand s ((List.range (m.len - 8)).map fun i => tget 0 m.buf (8 + i))
      finishMb r.2 fn (if r.1 then 0 else 5) []

/-- What the PCIe reads of an image answer (R425): the bytes of host memory from an address on; `seen` is what the host keeps there, and the
package's own writes stand where it says nothing. -/
def hostImage (s : State) (seen : List Byte) (addr n : Nat) : List Byte :=
  (List.range n).map fun i => (seen[i]?).getD (rawByte s (2 ^ 51 + addr + i))

/-- `MB_IMAGE` (R405, R415, R425): `seen` is what host memory holds from the host address on. -/
def execMbImage (fn : Nat) (seen : List Byte) (s : State) : Out :=
  runMb s fn 7 fun s m =>
    if fn ≠ 16 then finishMb s fn 3 []
    else if 2 ^ 51 < m.arg 8 8 + m.arg 16 8 then finishMb s fn 2 []
    else
      let image := hostImage s seen (m.arg 8 8) (m.arg 16 8)
      if !Config.rootVerifies image then finishMb s fn 5 []
      else if !imageRuns s image then finishMb s fn 3 []
      else
      let store := m.arg 24 1 % 2 == 1
      let t := { s with trust := { s.trust with flash := if store then image else s.trust.flash } }
      if s.trust.waiting then finishMb (bootWith t image) fn 0 []
      else finishMb { t with trust := { t.trust with staged := image } } fn 0 []

/-- `MB_HOSTASID` (R423, R425). -/
def execMbHostasid (fn : Nat) (s : State) : Out :=
  runMb s fn 8 fun s m =>
    let f := m.arg 8 4
    let a := m.arg 12 4
    if fn ≠ 16 then finishMb s fn 3 []
    else if 16 < f ∨ 65535 < a then finishMb s fn 2 []
    else finishMb (s.setMailbox f { s.mailbox f with asid := a }) fn 0 []

/-- `MB_BADCMD` (R425): an unknown code, or a LEN that is wrong. While the boot ROM waits, every command but IMAGE is refused. -/
def execMbBadcmd (fn : Nat) (s : State) : Out :=
  let m := s.mailbox fn
  if !barOpen s fn || lenOk m.code m.len then .next s
  else if !mbServed s then .next (startMb s fn)
  else .next (finishMb s fn (if s.trust.waiting && m.code != 7 then 3 else 1) [])

/-- What the host reads of a mailbox register, or of four bytes of the buffer, at an offset in BAR0 (R425). -/
def mailboxRead (m : Mailbox) (off : Nat) : Nat :=
  if off = 4 then (if m.done then 1 else 0) + m.status * 2 ^ 8
  else if off = 8 then m.len
  else if off = 12 then m.rlen
  else if 64 ≤ off ∧ off < 4096 then m.arg (off - 64) 4
  else 0

/-- A host write of a mailbox register (R425): MBLEN, or four bytes of the command buffer; the rest is read-only or starts a
command, which is a step of its own. `off` is the offset in BAR0. -/
def mailboxWrite (s : State) (fn off value : Nat) : State :=
  let m := s.mailbox fn
  if !barOpen s fn then s
  else if off = 8 then s.setMailbox fn { m with len := value % 4096 }
  else if 64 ≤ off ∧ off < 4096 then
    s.setMailbox fn { m with buf := (List.range 4).foldl (fun b i => tset 0 b (off - 64 + i) (BitVec.ofNat 8 (value / 256 ^ i))) m.buf }
  else s

end Sys2Proof.Machine
end

