-- ==== Sys2Proof/Machine/Integer.lean ====
section
/-!
DEFINITION. Group 0, integer arithmetic (R76, R77).
-/

namespace Sys2Proof.Machine

/-- `IADD` (R77). -/
def execIadd (x : A2) (sat : Bool) (s : State) : Out :=
  laneOp (.iadd x sat) x.hd 1 x.d (fun s l => op2 s x l fun a b => narrow32 sat (a.toInt + b.toInt)) s

/-- `ISUB` (R77). -/
def execIsub (x : A2) (sat : Bool) (s : State) : Out :=
  laneOp (.isub x sat) x.hd 1 x.d (fun s l => op2 s x l fun a b => narrow32 sat (a.toInt - b.toInt)) s

/-- `IMUL`: the low 32 bits of the product (R77). -/
def execImul (x : A2) (s : State) : Out :=
  laneOp (.imul x) x.hd 1 x.d (fun s l => op2 s x l fun a b => .word (a * b)) s

/-- `IMULHI`: bits [63:32] of the signed or unsigned product (R77). -/
def execImulhi (x : A2) (u : Bool) (s : State) : Out :=
  laneOp (.imulhi x u) x.hd 1 x.d (fun s l => op2 s x l fun a b =>
    .word (if u then BitVec.ofNat 32 (a.toNat * b.toNat / 2 ^ 32) else BitVec.ofInt 32 (a.toInt * b.toInt / 2 ^ 32))) s

/-- `IMAD`: A × B + C with one wrap or one saturation of the exact value (R77). -/
def execImad (x : A3) (sat : Bool) (s : State) : Out :=
  laneOp (.imad x sat) x.hd 1 x.d (fun s l => op3 s x l fun a b c => narrow32 sat (a.toInt * b.toInt + c.toInt)) s

/-- `IMADW`: D pair := sx64(A) × sx64(B) + C pair (R77). -/
def execImadw (x : A3) (s : State) : Out :=
  laneOp (.imadw x) x.hd 2 x.d (fun s l =>
    .dword ((opnd32 s l x.a).signExtend 64 * (opnd32 s l x.b).signExtend 64 + opnd64 s l x.c)) s

/-- `IADDC`: the sum with a carry in (CIN 7: none), and the carry out in COUT (R77). -/
def execIaddc (x : A2) (cin cout : BitVec 3) (s : State) : Out :=
  let sum (s : State) (l : Nat) : Nat :=
    (opnd32 s l x.a).toNat + (opnd32 s l x.b).toNat + (if cin != 7 && s.th.rdP l cin.toNat then 1 else 0)
  issue (.iaddc x cin cout) (x.uses 1) [cout] x.hd s fun act s =>
    let i := Instr.iaddc x cin cout
    let ws := laneWrites act 1 x.d (fun l => BitVec.ofNat 64 (sum s l % 2 ^ 32)) (wordMark s.th i)
    let ps := (lanesOf act).map fun l => Wr.p l cout.toNat (decide (2 ^ 32 ≤ sum s l)) (wordMark s.th i l)
    .next (s.setTh (advance ((noteWord s.th i act).writes (ws ++ ps))))

/-- `ISUBB`: the difference with a borrow in, and the borrow out (R77). -/
def execIsubb (x : A2) (cin cout : BitVec 3) (s : State) : Out :=
  let rhs (s : State) (l : Nat) : Nat := (opnd32 s l x.b).toNat + (if cin != 7 && s.th.rdP l cin.toNat then 1 else 0)
  issue (.isubb x cin cout) (x.uses 1) [cout] x.hd s fun act s =>
    let i := Instr.isubb x cin cout
    let ws := laneWrites act 1 x.d
      (fun l => (BitVec.ofInt 32 ((opnd32 s l x.a).toNat - (rhs s l : Int))).setWidth 64) (wordMark s.th i)
    let ps := (lanesOf act).map fun l => Wr.p l cout.toNat (decide ((opnd32 s l x.a).toNat < rhs s l)) (wordMark s.th i l)
    .next (s.setTh (advance ((noteWord s.th i act).writes (ws ++ ps))))

/-- `IMIN` (R77). -/
def execImin (x : A2) (u : Bool) (s : State) : Out :=
  laneOp (.imin x u) x.hd 1 x.d (fun s l => op2 s x l fun a b =>
    .word (if (if u then decide (a.toNat ≤ b.toNat) else decide (a.toInt ≤ b.toInt)) then a else b)) s

/-- `IMAX` (R77). -/
def execImax (x : A2) (u : Bool) (s : State) : Out :=
  laneOp (.imax x u) x.hd 1 x.d (fun s l => op2 s x l fun a b =>
    .word (if (if u then decide (a.toNat ≤ b.toNat) else decide (a.toInt ≤ b.toInt)) then b else a)) s

/-- `IABS` (R77). -/
def execIabs (x : A1) (sat : Bool) (s : State) : Out :=
  laneOp (.iabs x sat) x.hd 1 x.d (fun s l => op1 s x l fun a => narrow32 sat (a.toInt.natAbs : Int)) s

/-- `INEG` (R77). -/
def execIneg (x : A1) (sat : Bool) (s : State) : Out :=
  laneOp (.ineg x sat) x.hd 1 x.d (fun s l => op1 s x l fun a => narrow32 sat (-a.toInt)) s

/-- `ISAD`: C plus the sum of absolute differences of unsigned bytes (R77). -/
def execIsad (x : A3) (s : State) : Out :=
  laneOp (.isad x) x.hd 1 x.d (fun s l => op3 s x l fun a b c =>
    .word (c + BitVec.ofNat 32 (((List.range 4).map fun i => ((byteOf a i : Int) - (byteOf b i : Int)).natAbs).sum))) s

/-- `IDOT4`: C plus the dot product of signed bytes, one wrap or one saturation (R77). -/
def execIdot4 (x : A3) (sat : Bool) (s : State) : Out :=
  laneOp (.idot4 x sat) x.hd 1 x.d (fun s l => op3 s x l fun a b c =>
    narrow32 sat (c.toInt + ((List.range 4).map fun i => sbyteOf a i * sbyteOf b i).sum)) s

/-- `LEA`: D pair := A pair + (B extended) << SH (R77). -/
def execLea (x : A2) (sh : BitVec 5) (u : Bool) (s : State) : Out :=
  laneOp (.lea x sh u) x.hd 2 x.d (fun s l =>
    let b := opnd32 s l x.b
    .dword (opnd64 s l x.a + (if u then b.setWidth 64 else b.signExtend 64) <<< sh.toNat)) s

/-- `IADD64` (R77). -/
def execIadd64 (x : A2) (sat : Bool) (s : State) : Out :=
  laneOp (.iadd64 x sat) x.hd 2 x.d (fun s l => narrow64 sat ((opnd64 s l x.a).toInt + (opnd64 s l x.b).toInt)) s

/-- `ISUB64` (R77). -/
def execIsub64 (x : A2) (sat : Bool) (s : State) : Out :=
  laneOp (.isub64 x sat) x.hd 2 x.d (fun s l => narrow64 sat ((opnd64 s l x.a).toInt - (opnd64 s l x.b).toInt)) s

/-- `ICMP` (R77, R52). -/
def execIcmp (x : ACmp) (s : State) : Out :=
  predOp (.icmp x) x.hd x.pd (fun s l => (icmpOf x.cc (opnd32 s l x.a) (opnd32 s l x.b), FFlags.none)) s

/-- `ISEL`: A where PS XOR NS is true, else B (R77). -/
def execIsel (x : A2) (ps : BitVec 3) (ns : Bool) (s : State) : Out :=
  laneOp (.isel x ps ns) x.hd 1 x.d (fun s l => op2 s x l fun a b =>
    .word (if s.th.rdP l ps.toNat != ns then a else b)) s

end Sys2Proof.Machine
end

