-- ==== Sys2Proof/Machine/Logic.lean ====
section
/-!
DEFINITION. Group 1, logic, shifts, bit fields and predicates (R78, R79), and group 2, the immediate forms (R80).
-/

namespace Sys2Proof.Machine

/-- `AND` (R79). -/
def execAnd (x : A2) (s : State) : Out := laneOp (.and x) x.hd 1 x.d (fun s l => op2 s x l fun a b => .word (a &&& b)) s
/-- `OR` (R79). -/
def execOr (x : A2) (s : State) : Out := laneOp (.or x) x.hd 1 x.d (fun s l => op2 s x l fun a b => .word (a ||| b)) s
/-- `XOR` (R79). -/
def execXor (x : A2) (s : State) : Out := laneOp (.xor x) x.hd 1 x.d (fun s l => op2 s x l fun a b => .word (a ^^^ b)) s
/-- `ANDN` (R79). -/
def execAndn (x : A2) (s : State) : Out :=
  laneOp (.andn x) x.hd 1 x.d (fun s l => op2 s x l fun a b => .word (a &&& ~~~b)) s
/-- `NOT` (R79). -/
def execNot (x : A1) (s : State) : Out := laneOp (.not x) x.hd 1 x.d (fun s l => op1 s x l fun a => .word (~~~a)) s

/-- The word whose bit i is `f i`. -/
def wordOfBits (f : Nat → Bool) : Word := maskOf f

/-- `BOOL3`: D[i] := TT[A[i] + 2 B[i] + 4 C[i]] (R79). -/
def execBool3 (hd : Hdr) (d a b c : Operand) (tt : BitVec 8) (s : State) : Out :=
  laneOp (.bool3 hd d a b c tt) hd 1 d (fun s l =>
    let (x, y, z) := (opnd32 s l a, opnd32 s l b, opnd32 s l c)
    .word (wordOfBits fun i => tt.getLsbD ((x.getLsbD i).toNat + 2 * (y.getLsbD i).toNat + 4 * (z.getLsbD i).toNat))) s

/-- `SHL` (R79). -/
def execShl (x : A2) (s : State) : Out := laneOp (.shl x) x.hd 1 x.d (fun s l => op2 s x l fun a b => .word (shlOf a b.toNat)) s
/-- `SHR` (R79). -/
def execShr (x : A2) (s : State) : Out := laneOp (.shr x) x.hd 1 x.d (fun s l => op2 s x l fun a b => .word (shrOf a b.toNat)) s
/-- `SAR` (R79). -/
def execSar (x : A2) (s : State) : Out := laneOp (.sar x) x.hd 1 x.d (fun s l => op2 s x l fun a b => .word (sarOf a b.toNat)) s
/-- `ROTL` (R79). -/
def execRotl (x : A2) (s : State) : Out :=
  laneOp (.rotl x) x.hd 1 x.d (fun s l => op2 s x l fun a b => .word (a.rotateLeft (b.toNat % 32))) s

/-- `FUNNEL`: ((B × 2^32 + A) >> (C mod 32))[31:0] (R79). -/
def execFunnel (x : A3) (s : State) : Out :=
  laneOp (.funnel x) x.hd 1 x.d (fun s l => op3 s x l fun a b c => .word (((b ++ a) >>> (c.toNat % 32)).setWidth 32)) s

/-- `BFX` (R79). -/
def execBfx (x : A2) (sx : Bool) (s : State) : Out :=
  laneOp (.bfx x sx) x.hd 1 x.d (fun s l => op2 s x l fun a b =>
    let (pos, len) := fieldOf b
    let v := a.toNat / 2 ^ pos % 2 ^ len
    .word (if len = 0 then 0
      else if sx && decide (2 ^ (len - 1) ≤ v) then BitVec.ofInt 32 ((v : Int) - 2 ^ len) else BitVec.ofNat 32 v)) s

/-- `BFI` (R79). -/
def execBfi (x : A3) (s : State) : Out :=
  laneOp (.bfi x) x.hd 1 x.d (fun s l => op3 s x l fun a b c =>
    let (pos, len) := fieldOf b
    .word (if len = 0 then c else BitVec.ofNat 32 (setBitsN c.toNat (pos + len - 1) pos a.toNat))) s

/-- The number of 1 bits of a word. -/
def popcount (a : Word) : Nat := ((List.range 32).filter fun i => a.getLsbD i).length

/-- The number of leading 0 bits of a word. -/
def leadingZeros (a : Word) : Nat := 32 - bitLen a.toNat

/-- The number of trailing 0 bits of a word; 32 for 0. -/
def trailingZeros (a : Word) : Nat := (((List.range 32).filter fun i => a.getLsbD i).head?).getD 32

/-- `POPC` (R79). -/
def execPopc (x : A1) (s : State) : Out :=
  laneOp (.popc x) x.hd 1 x.d (fun s l => op1 s x l fun a => .word (BitVec.ofNat 32 (popcount a))) s
/-- `CLZ` (R79). -/
def execClz (x : A1) (s : State) : Out :=
  laneOp (.clz x) x.hd 1 x.d (fun s l => op1 s x l fun a => .word (BitVec.ofNat 32 (leadingZeros a))) s
/-- `CTZ` (R79). -/
def execCtz (x : A1) (s : State) : Out :=
  laneOp (.ctz x) x.hd 1 x.d (fun s l => op1 s x l fun a => .word (BitVec.ofNat 32 (trailingZeros a))) s
/-- `BREV`: D[i] := A[31 - i] (R79). -/
def execBrev (x : A1) (s : State) : Out :=
  laneOp (.brev x) x.hd 1 x.d (fun s l => op1 s x l fun a => .word (wordOfBits fun i => a.getLsbD (31 - i))) s

/-- `BYTEPERM` (R79). -/
def execByteperm (x : A3) (s : State) : Out :=
  laneOp (.byteperm x) x.hd 1 x.d (fun s l => op3 s x l fun a b c =>
    let byte (i : Nat) : Nat :=
      let n := c.toNat / 16 ^ i % 16
      if 8 ≤ n then 0 else if n < 4 then byteOf a n else byteOf b (n - 4)
    .word (BitVec.ofNat 32 (byte 0 + 256 * byte 1 + 65536 * byte 2 + 16777216 * byte 3))) s

/-- `PSET`: PD := (PA XOR NA) op (PB XOR NB) (R79). -/
def execPset (hd : Hdr) (pd pa : BitVec 3) (na : Bool) (pb : BitVec 3) (nb : Bool) (op : BitVec 2) (s : State) : Out :=
  predOp (.pset hd pd pa na pb nb op) hd pd (fun s l =>
    let a := s.th.rdP l pa.toNat != na
    let b := s.th.rdP l pb.toNat != nb
    (match op.toNat with
      | 0 => a && b
      | 1 => a || b
      | 2 => a != b
      | _ => a && !b, FFlags.none)) s

/-- `PMOV.get`: D[6:0] := p6…p0 (R79). -/
def execPmovGet (hd : Hdr) (d : Operand) (s : State) : Out :=
  laneOp (.pmovGet hd d) hd 1 d (fun s l => .word (wordOfBits fun i => decide (i < 7) && s.th.rdP l i)) s

/-- `PMOV.set`: p0–p6 := A[6:0] (R79). -/
def execPmovSet (hd : Hdr) (a : Operand) (ha : Bool) (s : State) : Out :=
  issue (.pmovSet hd a ha) [(.src 1, a)] [0, 1, 2, 3, 4, 5, 6] hd s fun act s =>
    let ws := (lanesOf act).flatMap fun l => (List.range 7).map fun n => Wr.p l n ((opnd32 s l a).getLsbD n) (s.th.marked l 1 a)
    .next (s.setTh (advance ((noteMarks s.th [(.src 1, a)] act).writes ws)))

/-- `MOVI` (R80). -/
def execMovi (hd : Hdr) (d : Operand) (imm : BitVec 27) (s : State) : Out :=
  laneOp (.movi hd d imm) hd 1 d (fun _ _ => .word (imm.signExtend 32)) s
/-- `MOVHI`: (imm[15:0] << 16) OR D[15:0] (R80). -/
def execMovhi (hd : Hdr) (d : Operand) (imm : BitVec 27) (s : State) : Out :=
  laneOp (.movhi hd d imm) hd 1 d (fun s l => .word (imm.extractLsb' 0 16 ++ (opnd32 s l d).extractLsb' 0 16)) s
/-- `IADDI` (R80). -/
def execIaddi (x : Imm) (s : State) : Out :=
  laneOp (.iaddi x) x.hd 1 x.d (fun s l => .word (opnd32 s l x.a + x.imm.signExtend 32)) s
/-- `IMULI` (R80). -/
def execImuli (x : Imm) (s : State) : Out :=
  laneOp (.imuli x) x.hd 1 x.d (fun s l => .word (opnd32 s l x.a * x.imm.signExtend 32)) s
/-- `ANDI` (R80). -/
def execAndi (x : Imm) (s : State) : Out :=
  laneOp (.andi x) x.hd 1 x.d (fun s l => .word (opnd32 s l x.a &&& x.imm.signExtend 32)) s
/-- `ORI` (R80). -/
def execOri (x : Imm) (s : State) : Out :=
  laneOp (.ori x) x.hd 1 x.d (fun s l => .word (opnd32 s l x.a ||| x.imm.signExtend 32)) s
/-- `XORI` (R80). -/
def execXori (x : Imm) (s : State) : Out :=
  laneOp (.xori x) x.hd 1 x.d (fun s l => .word (opnd32 s l x.a ^^^ x.imm.signExtend 32)) s
/-- `SHLI` (R80). -/
def execShli (x : Imm) (s : State) : Out :=
  laneOp (.shli x) x.hd 1 x.d (fun s l => .word (shlOf (opnd32 s l x.a) x.imm.toNat)) s
/-- `SHRI` (R80). -/
def execShri (x : Imm) (s : State) : Out :=
  laneOp (.shri x) x.hd 1 x.d (fun s l => .word (shrOf (opnd32 s l x.a) x.imm.toNat)) s
/-- `SARI` (R80). -/
def execSari (x : Imm) (s : State) : Out :=
  laneOp (.sari x) x.hd 1 x.d (fun s l => .word (sarOf (opnd32 s l x.a) x.imm.toNat)) s
/-- `ICMPI`: A compared with the sign-extended 20-bit immediate (R80, R53). -/
def execIcmpi (hd : Hdr) (a : Operand) (cc : BitVec 4) (pd : BitVec 3) (imm : BitVec 20) (s : State) : Out :=
  predOp (.icmpi hd a cc pd imm) hd pd (fun s l => (icmpOf cc (opnd32 s l a) (imm.signExtend 32), FFlags.none)) s
/-- `LEAI`: A pair + the immediate sign-extended to 64 bits (R80). -/
def execLeai (x : Imm) (s : State) : Out :=
  laneOp (.leai x) x.hd 2 x.d (fun s l => .dword (opnd64 s l x.a + x.imm.signExtend 64)) s

end Sys2Proof.Machine
end

