-- ==== Sys2Proof/Machine/Ports.lean ====
section
/-!
DEFINITION. The ports of the package (R382-R387, R396): training, width changes, and the link layer's retry.
-/

namespace Sys2Proof.Machine

/-- The widest number of lanes that PWIDTH allows (R384, R396). -/
def widest (w : BitVec 2) : Nat := if w = 1 then 2 else if w = 2 then 1 else 4

/-- The width that some usable lanes give (R384). -/
def widthOf (w : BitVec 2) (n : Nat) : Nat :=
  let m := min (widest w) n
  if 4 ≤ m then 4 else if 2 ≤ m then 2 else m

/-- The active lanes: the lowest usable ones of the width (R384). -/
def activeOf (w : BitVec 2) (usable : BitVec 4) : BitVec 4 :=
  let l := (List.range 4).filter fun i => usable.getLsbD i
  BitVec.ofNat 4 ((l.take (widthOf w l.length)).map fun i => 2 ^ i).sum

/-- The configuration digest of a port with these active lanes (R383): logical lane i is the i-th active one. -/
def digestOf (s : State) (port : Nat) (active : BitVec 4) : Nat :=
  let l := (List.range 4).filter fun i => active.getLsbD i
  let map := ((l.zip (List.range 4)).map fun x => x.1 * 4 ^ x.2).sum
  active.toNat + map * 16 + port * 2 ^ 14 + s.pkg * 2 ^ 19

/-- What waits for a plane when a port enters UP: packets, and acknowledgements. -/
def portUp (s : State) : State :=
  let s := pumpOn s
  { s with inputs := s.inputs ++ s.fabric.inflows.map fun x => .ackSend x.1.1 ⟨BitVec.ofNat 2 x.1.2.1, x.1.2.2⟩ }

/-- A port has left UP (R382, R392). -/
def portDown (s : State) (n : Nat) : State := { s with inputs := s.inputs ++ [.linkLossReplay n n] }

/-- Count up in the 12-bit counter of PORTERR that saturates (R396). -/
def bump12 (n : Nat) : Nat := min (n + 1) 4095

/-- A port is FAILED (R387, R392): it discards its link retry buffer, whose packets the end-to-end layer sends again. -/
def portFailed (s : State) (n : Nat) (x : Port) : State :=
  let s := replayLost (s.setFab (s.fabric.setPort n { x with st := .failed })) n
  s.setFab (s.fabric.setPort n { s.fabric.port n with flits := [] })

/-- A port trains: an enabled port does not stay OFF (R382). -/
def Port.training (x : Port) : Bool := x.st == .train || (x.st == .off && x.en)

/-- `TRAINING_ATTEMPT_END` (R383, R384, R401): `locked` are the lanes that locked; a digest that did not arrive intact is a mismatch.
The flits in the link retry buffer are replayed after training, and FAILED discards them (R387). -/
def execTrainingAttemptEnd (n : Nat) (digest : Word) (locked : BitVec 4) (verified : Bool) (s : State) : Out :=
  let x := s.fabric.port n
  if !x.training then .next s
  else if x.retiredLanes = 0xf then .next (portFailed s n x)
  else
    let lanes := locked &&& x.lmask &&& ~~~x.retiredLanes
    let active := activeOf x.pwidth lanes
    let own := digestOf s n active
    let d := digest.toNat
    if verified && active != 0 && d % 2 ^ 14 == own % 2 ^ 14 && bitsN d 18 14 == bitsN own 18 14 && digest.getLsbD 31 then
      .next (portUp (s.setFab (s.fabric.setPort n
        { x with st := .up, active := active, tries := 0, mismatch := false, lanes := lanes, planned := false, fails := 0, asked := false
                 lreplay := if x.flits.isEmpty then x.lreplay else bump12 x.lreplay })))
    else
      let tries := x.tries + 1
      let y := { x with st := .train, tries := tries, mismatch := true, active := 0 }
      if 5 ≤ tries then .next (portFailed s n { y with tries := 5 })
      else .next (s.setFab (s.fabric.setPort n { y with retrain := bump8 y.retrain }))

/-- `PORTCTL_EN` (R382). -/
def execPortctlEn (n : Nat) (en : Bool) (s : State) : Out :=
  let x := s.fabric.port n
  if en then
    .next (s.setFab (s.fabric.setPort n (if x.st = .off then { x with en := true, st := .train } else { x with en := true })))
  else
    .next (portDown (s.setFab (s.fabric.setPort n { x with en := false, st := .off, active := 0 })) n)

/-- `PORTCTL_RESET` (R382, R396). -/
def execPortctlReset (n : Nat) (s : State) : Out :=
  let x := s.fabric.port n
  if x.st = .failed then .next (s.setFab (s.fabric.setPort n { x with st := .train, tries := 0 })) else .next s

/-- `PORTCTL_PWIDTH` (R385, R396). -/
def execPortctlPwidth (n : Nat) (w : BitVec 2) (s : State) : Out :=
  let x := s.fabric.port n
  let w := if w = 3 then 0 else w
  .next (s.setFab (s.fabric.setPort n { x with pwidth := w, planned := x.planned || (x.st == .up && w != x.pwidth) }))

/-- The width that a planned change brings (R385, R421): that of PWIDTH when it was written, or one that the firmware, if LPM lets it, gives
a port, narrower only while the port is idle and never wider than PWIDTH allows. -/
def plannedWidth (lpm : Bool) (x : Port) : Option (BitVec 2) → Option (BitVec 2)
  | none => if x.planned then some x.pwidth else none
  | some w =>
    let w := if widest x.pwidth < widest w then x.pwidth else w
    if lpm && (x.flits.isEmpty || decide (((List.range 4).filter x.active.getLsbD).length < widest w)) then some w else none

/-- A port leaves UP for TRAIN (R382). -/
def retrainPort (s : State) (n : Nat) (x : Port) : State :=
  portDown (s.setFab (s.fabric.setPort n { x with st := .train, active := 0 })) n

/-- `PLANNED_WIDTH_CHANGE` (R385): both ends take the new width at a packet boundary, among the lanes that training found usable. -/
def execPlannedWidthChange (c : WidthChange) (s : State) : Out :=
  let n := c.port
  let x := s.fabric.port n
  match plannedWidth (s.power.cfg.getLsbD 24) x c.lpm with
  | none => .next s
  | some w =>
    let y := { x with planned := x.planned && c.lpm.isSome, active := activeOf w x.lanes }
    if x.st ≠ .up then .next s
    else if y.active = 0 then .next (retrainPort s n y)
    else .next (s.setFab (s.fabric.setPort n y))

/-- The retrain of a port involves some lanes (R399): an event of each. -/
def laneEvents (n time : Nat) (lanes : BitVec 4) (s : State) : State :=
  ((List.range 4).filter lanes.getLsbD).foldl (fun s i => rasEvent s .fabricLane (n / 6) n i time) s

/-- `LANE_LOCK_LOSS` (R385): a forced change; without a usable lane the port trains again and its plane leaves the route set. The packet in
transmission is replayed; that there is one while the link retry buffer holds a flit is a DESIGN CHOICE (log entry 51). -/
def execLaneLockLoss (n : Nat) (lane : Moment) (s : State) : Out :=
  let x := s.fabric.port n
  if x.st ≠ .up || !x.active.getLsbD lane.ix then .next s
  else
    let left := x.lanes &&& x.lmask &&& ~~~x.retiredLanes &&& ~~~BitVec.ofNat 4 (2 ^ lane.ix)
    let y := { x with
      lanes := left, active := activeOf x.pwidth left, forced := bump8 x.forced, retrain := bump8 x.retrain
      lreplay := if x.flits.isEmpty then x.lreplay else bump12 x.lreplay }
    let t := if y.active = 0 then retrainPort s n y else s.setFab (s.fabric.setPort n y)
    .next (laneEvents n lane.time (BitVec.ofNat 4 (2 ^ lane.ix)) t)

/-- `LINK_FLIT_FAIL` (R386): a replay is asked for, and later flits are discarded until it arrives. -/
def execLinkFlitFail (n : Nat) (s : State) : Out := .next (s.setFab (s.fabric.setPort n { s.fabric.port n with asked := true }))

/-- `LINK_REPLAY` (R386, R387): the sender resends from a flit; after eight failures in a row of one flit the port retrains. -/
def execLinkReplay (n : Nat) (flit : Moment) (s : State) : Out :=
  let x := s.fabric.port n
  if x.flits.length ≤ flit.ix then .next s
  else
    let fails := if flit.ix = 0 then x.fails + 1 else 1
    let y := { x with lreplay := bump12 x.lreplay, flits := x.flits.drop flit.ix, fails := fails }
    if 8 ≤ fails && x.st == .up then
      .next (laneEvents n flit.time x.active (retrainPort s n { y with fails := 0, retrain := bump8 y.retrain }))
    else .next (s.setFab (s.fabric.setPort n y))

/-- `LINK_FLIT_ACK` (R386). -/
def execLinkFlitAck (n : Nat) (s : State) : Out :=
  let x := s.fabric.port n
  .next (pumpOn (s.setFab (s.fabric.setPort n { x with flits := x.flits.drop 1, fails := 0 })))

end Sys2Proof.Machine
end

