-- ==== Sys2Proof/Machine/ScanTree.lean ====
section
/-!
DEFINITION. Group 6, the scan tree (R42, R43, R92-R96), and the paired words (R57-R59, R98).
-/

namespace Sys2Proof.Machine

/-- One step of a scan or reduction on two present operands (R93): value and flags. -/
def scanStep (op : Nat) (subn : Bool) (a b : DWord) : LaneRes :=
  let x := a.setWidth 32
  let y := b.setWidth 32
  match op with
  | 0 => .word (x + y)
  | 1 => .dword (a + b)
  | 2 => .fp (addVal fp32 0 false subn (unpack fp32 subn x.toNat) (unpack fp32 subn y.toNat))
  | 3 => .fp (addVal fp64 0 false subn (unpack fp64 subn a.toNat) (unpack fp64 subn b.toNat))
  | 4 => .word (if x.toInt ≤ y.toInt then x else y)
  | 5 => .word (if x.toInt ≤ y.toInt then y else x)
  | 6 => .word (if x.toNat ≤ y.toNat then x else y)
  | 7 => .word (if x.toNat ≤ y.toNat then y else x)
  | 8 => .fp (minMax fp32 subn false x.toNat y.toNat)
  | 9 => .fp (minMax fp32 subn true x.toNat y.toNat)
  | 10 => .word (x &&& y)
  | 11 => .word (x ||| y)
  | 12 => .word (x ^^^ y)
  | _ => narrow32 true (x.toInt + y.toInt)

/-- The identity of an operation (R93). -/
def scanIdentity (op : Nat) : DWord :=
  match op with
  | 2 => 0x80000000
  | 3 => 0x8000000000000000
  | 4 => 0x7fffffff
  | 5 => 0x80000000
  | 6 => 0xffffffff
  | 8 => 0x7f800000
  | 9 => 0xff800000
  | 10 => 0xffffffff
  | _ => 0

/-- A tree step where either position may be absent (R92). -/
def scanOp (op : Nat) (subn : Bool) (a b : Option DWord) : Option DWord × FFlags :=
  match a, b with
  | some x, some y => let r := scanStep op subn x y; (some r.val, r.flags)
  | some x, none => (some x, FFlags.none)
  | none, some y => (some y, FFlags.none)
  | none, none => (none, FFlags.none)

/-- One level of the Kogge–Stone scan at distance d (R42). The steps at the positions of lanes that take part raise flags (R73). -/
def scanLevel (op : Nat) (subn : Bool) (act : LaneMask) (d : Nat) (st : List (Option DWord) × FFlags) : List (Option DWord) × FFlags :=
  let x := st.1
  let rs := (List.range 32).map fun l =>
    if l < d then ((x[l]?).getD none, FFlags.none)
    else
      let r := scanOp op subn ((x[l - d]?).getD none) ((x[l]?).getD none)
      (r.1, if act.getLsbD l then r.2 else FFlags.none)
  (rs.map Prod.fst, rs.foldl (fun f r => f.or r.2) st.2)

/-- The inclusive scan of 32 positions (R42), with the flags of reading the operands. -/
def scanTree (op : Nat) (subn : Bool) (act : LaneMask) (x : List (Option DWord) × FFlags) : List (Option DWord) × FFlags :=
  [1, 2, 4, 8, 16].foldl (fun st d => scanLevel op subn act d st) x

/-- One pairwise level of the reduction to n positions (R43). -/
def redLevel (op : Nat) (subn : Bool) (n : Nat) (st : List (Option DWord) × FFlags) : List (Option DWord) × FFlags :=
  let y := st.1
  let rs := (List.range n).map fun j => scanOp op subn ((y[2 * j]?).getD none) ((y[2 * j + 1]?).getD none)
  (rs.map Prod.fst, rs.foldl (fun f r => f.or r.2) st.2)

/-- The pairwise reduction of 32 positions (R43), with the flags of reading the operands. -/
def redTree (op : Nat) (subn : Bool) (x : List (Option DWord) × FFlags) : List (Option DWord) × FFlags :=
  [16, 8, 4, 2, 1].foldl (fun st n => redLevel op subn n st) x

/-- A floating-point operand as the tree reads it: a NaN is canonical and sets IV where it is signalling (R29), and a subnormal
follows SUBN (R33). -/
def scanRead (f : FFmt) (subn : Bool) (x : Nat) : LaneRes := .fp (toFormat f 0 false subn (unpack f subn x))

/-- The operand of a lane position (R93). -/
def scanOperand (s : State) (op : Nat) (a : Operand) (l : Nat) : LaneRes :=
  match op with
  | 1 => .dword (opnd64 s l a)
  | 3 => scanRead fp64 s.th.subn (opndF64 s l a)
  | 2 => scanRead fp32 s.th.subn (opndF32 s l a)
  | 8 => scanRead fp32 s.th.subn (opndF32 s l a)
  | 9 => scanRead fp32 s.th.subn (opndF32 s l a)
  | _ => .word (opnd32 s l a)

/-- The operand of each lane position, absent where the lane takes no part (R92), and the flags of reading them. -/
def scanInput (s : State) (act : LaneMask) (op : Nat) (a : Operand) : List (Option DWord) × FFlags :=
  ((List.range 32).map fun l => if act.getLsbD l then some (scanOperand s op a l).val else none,
    laneFlags act fun l => (scanOperand s op a l).flags)

/-- A group-6 word that writes a register: `f` gives each lane's value, `fl` the flags of the tree; every result depends on every
operand, marked ones too (R75, R92). -/
def treeOp (i : Instr) (hd : Hdr) (n : Nat) (d : Operand)
    (f : State → LaneMask → Nat → DWord) (fl : State → LaneMask → FFlags) (s : State) : Out :=
  issue i i.uses [] hd s fun act s =>
    let mark := (lanesOf act).any (wordMark s.th i)
    let ws := withFlags (fl s act) (laneWrites act n d (f s act) fun _ => mark)
    .next (s.setTh (advance (deliver hd ws (noteWord s.th i act))))

/-- `LSCAN` (R93): inclusive, or exclusive from the same tree. -/
def execLscan (x : A1) (op : BitVec 4) (excl : Bool) (s : State) : Out :=
  let tree (s : State) (act : LaneMask) := scanTree op.toNat s.th.subn act (scanInput s act op.toNat x.a)
  treeOp (.lscan x op excl) x.hd (scanWords op) x.d (fun s act l =>
    let r := (tree s act).1
    if excl then (if l = 0 then none else (r[l - 1]?).getD none).getD (scanIdentity op.toNat)
    else ((r[l]?).getD none).getD 0) (fun s act => (tree s act).2) s

/-- `LRED`: every participating lane receives y[0] (R93). -/
def execLred (x : A1) (op : BitVec 4) (s : State) : Out :=
  let tree (s : State) (act : LaneMask) := redTree op.toNat s.th.subn (scanInput s act op.toNat x.a)
  treeOp (.lred x op) x.hd (scanWords op) x.d (fun s act _ => (((tree s act).1[0]?).getD none).getD 0)
    (fun s act => (tree s act).2) s

/-- The lanes of a mask whose q = PS XOR NS is true (R94). -/
def voteMask (s : State) (act : LaneMask) (ns : Bool) (ps : BitVec 3) : LaneMask :=
  maskOf fun l => act.getLsbD l && (s.th.rdP l ps.toNat != ns)

/-- `LVOTE` (R94). -/
def execLvote (hd : Hdr) (d : Operand) (mode : BitVec 2) (ns : Bool) (ps pd : BitVec 3) (s : State) : Out :=
  let i := Instr.lvote hd d mode ns ps pd
  if mode = 3 then
    treeOp i hd 1 d (fun s act _ => (voteMask s act ns ps).setWidth 64) (fun _ _ => FFlags.none) s
  else
    issue i [] [pd] hd s fun act s =>
      let q := voteMask s act ns ps
      let r := if mode = 0 then q == act else if mode = 1 then q != 0 else q == act || q == 0
      let mark := (lanesOf act).any (wordMark s.th i)
      .next (s.setTh (advance (deliver hd ((lanesOf act).map fun l => Wr.p l pd.toNat r mark) (noteWord s.th i act))))

/-- `LBCAST`: every participating lane receives register A of one lane, which may be absent (R95). -/
def execLbcast (hd : Hdr) (d a b : Operand) (ha b64 : Bool) (s : State) : Out :=
  let n := if b64 then 2 else 1
  issue (.lbcast hd d a b ha b64) [(.dst n, d), (.src 1, b)] [] hd s fun act s' =>
    let src := pickLane s' act b
    if act ≠ 0 ∧ !pickedFull s.th src n a then .next s
    else
      let mark := s'.th.marked src n a || marksIn s'.th [(.src 1, b)] (lowLane act)
      let x := if b64 then opnd64 s' src a else (opnd32 s' src a).setWidth 64
      let th := if mark && act != 0 then s'.th.raiseErr 4 else s'.th
      .next (s'.setTh (advance (deliver hd (laneWrites act n d (fun _ => x) (fun _ => mark)) th)))

/-- `LFIND`: the lowest or highest present lane with a true predicate (R96). -/
def execLfind (hd : Hdr) (d : Operand) (hi ns : Bool) (ps pd : BitVec 3) (s : State) : Out :=
  let i := Instr.lfind hd d hi ns ps pd
  issue i [(.dst 1, d)] [pd] hd s fun act s =>
    let q := lanesOf (voteMask s act ns ps)
    let f := ((if hi then q.getLast? else q.head?)).getD 32
    let mark := (lanesOf act).any (wordMark s.th i)
    let ws := laneWrites act 1 d (fun _ => BitVec.ofNat 64 f) (fun _ => mark)
    let ps := (lanesOf act).map fun l => Wr.p l pd.toNat (decide (l = f)) mark
    .next (s.setTh (advance (deliver hd (ws ++ ps) (noteWord s.th i act))))

/-! ### Paired words -/

/-- The lanes of the sub-group in which a slot's guard holds (R57). -/
def slotLanes (th : Thread) (g : BitVec 2) : LaneMask :=
  maskOf fun l => th.grp.mask.getLsbD l &&
    (if g = 0 then true else if g = 1 then th.rdP l 0 else if g = 2 then th.rdP l 1 else !th.rdP l 0)

/-- The register operands of a slot: it reads D as its first source where its effect does (R58). DEDUCED (log entry 48): a slot
whose effect does not use the old D does not wait on an empty D, although R59 counts D in its read set for the bank rule. -/
def slotUses (x : Slot) : List (Role × Operand) :=
  let rd : List (Role × Operand) := match x.op with
    | .iadd | .isub | .iaddi | .imul | .imin | .imax | .and | .or | .xor | .andn | .shli | .shri | .sari | .fadd | .fsub
    | .fmul | .fmin | .fmax => [(.src 1, .v x.d)]
    | .mov | .movi | .frcp | .cvt | .nop | .isel => []
  (if x.op = .nop then [] else [(.dst 1, .v x.d)]) ++ rd ++ (if x.op.readsS then [(.src 1, .v x.s)] else [])

/-- The result of a slot in a lane (R58, R98), with rn and no modifier. -/
def slotResult (s : State) (x : Slot) (l : Nat) : LaneRes :=
  let d := s.th.rdV l x.d.toNat
  let y := s.th.rdV l x.s.toNat
  let imm := x.imm.signExtend 32
  let subn := s.th.subn
  let fd := unpack fp32 subn d.toNat
  let fs := unpack fp32 subn y.toNat
  match x.op with
  | .mov => .word y
  | .movi => .word imm
  | .iadd => .word (d + y)
  | .isub => .word (d - y)
  | .iaddi => .word (d + imm)
  | .imul => .word (d * y)
  | .imin => .word (if d.toInt ≤ y.toInt then d else y)
  | .imax => .word (if d.toInt ≤ y.toInt then y else d)
  | .and => .word (d &&& y)
  | .or => .word (d ||| y)
  | .xor => .word (d ^^^ y)
  | .andn => .word (d &&& ~~~y)
  | .shli => .word (shlOf d x.imm.toNat)
  | .shri => .word (shrOf d x.imm.toNat)
  | .sari => .word (sarOf d x.imm.toNat)
  | .fadd => .fp (addVal fp32 0 false subn fd fs)
  | .fsub => .fp (addVal fp32 0 false subn fd fs.negate)
  | .fmul => .fp (mulVal fp32 0 false subn fd fs)
  | .fmin => .fp (minMax fp32 subn false d.toNat y.toNat)
  | .fmax => .fp (minMax fp32 subn true d.toNat y.toNat)
  | .frcp => .fp (rcpVal fp32 0 false subn fs)
  | .cvt =>
    if x.imm = 0 then .fp (convert 1 6 0 false subn y.toNat)
    else if x.imm = 1 then .fp (convert 6 1 0 false subn y.toNat)
    else if x.imm = 2 then .fp (convert 1 10 0 false subn y.toNat)
    else .fp (convert 10 1 0 false subn y.toNat)
  | .nop => .word 0
  | .isel => .word (if s.th.rdP l 0 then y else imm)

/-- Whether a slot reads a marked register, or a marked `p0`, in a lane (R58, R75). -/
def slotMark (th : Thread) (x : Slot) (l : Nat) : Bool := marksIn th (slotUses x) l || (x.op == .isel && th.markedP l 0)

/-- DATAF when an active lane of a slot reads a marked operand (R16, R75). -/
def noteSlot (th : Thread) (x : Slot) (act : LaneMask) : Thread :=
  if (lanesOf act).any (slotMark th x) then th.raiseErr 4 else th

/-- The writes of a slot in its active lanes. -/
def slotWrites (s : State) (x : Slot) (act : LaneMask) : List Wr :=
  if x.op = .nop then []
  else laneWrites act 1 (.v x.d) (fun l => (slotResult s x l).val) (slotMark s.th x)

/-- A paired word (R57): both slots read before either writes; it counts as one instruction. -/
def execPairedWord (s0 s1 : Slot) (s : State) : Out :=
  let a0 := slotLanes s.th s0.guard
  let a1 := slotLanes s.th s1.guard
  if heldBack s.th (slotUses s0) 0 a0 || heldBack s.th (slotUses s1) 0 a1 then .next s
  else
    let ws := slotWrites s s0 a0 ++ slotWrites s s1 a1
    let fl (x : Slot) (a : LaneMask) : FFlags :=
      if x.op = .nop then FFlags.none else laneFlags a fun l => (slotResult s x l).flags
    let th := countWindows s.th s.th.grp.mask (destsOf (slotUses s0) a0 ++ destsOf (slotUses s1) a1)
    let th := noteSlot (noteSlot th s0 a0) s1 a1
    .next (s.setTh (advance ((th.raiseFlags ((fl s0 a0).or (fl s1 a1))).writes ws)))

end Sys2Proof.Machine
end

