-- ==== Sys2Proof/Machine/System.lean ====
section
/-!
DEFINITION. Group 15: special registers, system registers, ESTAT, PGGEN and HALT (R210-R222), with the read and the write of every
system register (R4, R211) and the device steps that are such writes; the timer and the events of a core (R219, R220), the throttle's
epoch (R231), the routing of a die (R267, R268), and what is left at the homes (R249, R258, R346, R430).
-/

namespace Sys2Proof.Machine

/-! ### Fields -/

/-- A counter field after a write (R4): any 1 in it clears it. -/
def clearCount (v hi lo x : Nat) : Nat := if bitsN v hi lo = 0 then x else 0

/-- A number held within bounds. -/
def clamp (lo hi x : Nat) : Nat := max lo (min hi x)

/-- The state of a step that goes on; a write of a register never stops. -/
def nextOf (s : State) : Out → State
  | .next t => t
  | .fault _ => s
  | .refused _ => s

/-! ### Registers of a core -/

/-- THRCFG as a write stores it (R232). -/
def thrcfgValue (v : Nat) : Word :=
  BitVec.ofNat 32 (bitsN v 15 0 + max 2 (bitsN v 21 16) * 2 ^ 16 + max 1 (bitsN v 27 22) * 2 ^ 22 + bitsN v 30 28 * 2 ^ 28
    + bitsN v 31 31 * 2 ^ 31)

/-- A write of POOLCFGq (R239): the entries that free up are offered to those that stall. -/
def writePoolcfg (s : State) (core q v : Nat) : State :=
  let c := s.core core
  match c.pool[q]? with
  | none => s
  | some p =>
    let p := if bitsN v 31 31 = 1 then { p with refused := false } else p
    let mn := bitsN v 11 0
    let cap := min (bitsN v 27 16) 2048
    let sum := (c.pool.map fun x => x.min).sum - p.min + mn
    if 2048 < sum ∨ cap < mn ∨ cap < 16 ∨ (q = 2 ∧ mn < 16) then s.setCore core { c with pool := c.pool.set q { p with refused := true } }
    else
      let s := s.setCore core { c with pool := c.pool.set q { p with min := mn, cap := cap } }
      { s with inputs := s.inputs ++ (List.range 4).map fun i => Instr.poolEntryGrant core i }

/-- A write of POOLCNTq (R241). -/
def writePoolcnt (s : State) (core q v : Nat) : State :=
  let c := s.core core
  match c.pool[q]? with
  | none => s
  | some p => if bitsN v 31 31 = 1 then s.setCore core { c with pool := c.pool.set q { p with peak := p.count } } else s

/-- Read a register of core c of a cluster by its offset (R232, R233, R239, R241, R365). -/
def readCoreReg (s : State) (core off : Nat) : Nat :=
  let c := s.core core
  let pool (q : Nat) : PoolQueue := (c.pool[q]?).getD ⟨0, 0, false, 0, 0⟩
  if off = 0x200 then c.throttle.cfg.toNat
  else if off = 0x201 then c.throttle.m + c.throttle.sum * 2 ^ 7 + c.throttle.grants * 2 ^ 21
  else if off < 0x214 then
    let p := pool (off - 0x210)
    p.min + p.cap * 2 ^ 16 + (if p.refused then 2 ^ 31 else 0)
  else if off < 0x21c then (pool (off - 0x218)).count + (pool (off - 0x218)).peak * 2 ^ 12
  else c.migPinned + c.migHeld * 2 ^ 16

/-- Write a register of core c of a cluster by its offset. -/
def writeCoreReg (s : State) (core off v : Nat) : State :=
  let c := s.core core
  if off = 0x200 then s.setCore core { c with throttle := { c.throttle with cfg := thrcfgValue v } }
  else if off = 0x201 then s
  else if off < 0x214 then writePoolcfg s core (off - 0x210) v
  else if off < 0x21c then writePoolcnt s core (off - 0x218) v
  else s.setCore core { c with migPinned := clearCount v 15 0 c.migPinned, migHeld := clearCount v 31 16 c.migHeld }

/-- A cluster is in use by a launch (R276). -/
def clusterUsed (s : State) (cl : Nat) : Bool := (allWgs s).any fun g => g.core.any fun c => c / 8 == cl

/-- A write of CARCFG (R276). -/
def writeCarcfg (s : State) (cl v : Nat) : State :=
  let r := s.ring cl
  let r := if bitsN v 31 31 = 1 then { r with refused := false } else r
  if clusterUsed s cl then s.setRing cl { r with refused := true }
  else s.setRing cl { r with rdir := if bitsN v 1 0 = 3 then 0 else BitVec.ofNat 2 v }

/-- CARSTATn (R276). -/
def readCarstat (s : State) (cl n : Nat) : Nat :=
  let x := (s.ring cl).stop n
  (16 - x.usedCw) + (16 - x.usedCcw) * 2 ^ 5 + x.escuse * 2 ^ 10 + x.dlcross * 2 ^ 21

/-- A write of CARSTATn (R276). -/
def writeCarstat (s : State) (cl n v : Nat) : State :=
  let x := (s.ring cl).stop n
  s.setRing cl ((s.ring cl).setStop n { x with escuse := clearCount v 20 10 x.escuse, dlcross := clearCount v 31 21 x.dlcross })

/-! ### The timer -/

/-- The number of a core with a timer: 0 to 23 the cluster control cores, 24 to 27 the firmware cores. -/
def coreNo : Agent → Nat
  | .control c => c
  | .firmware d => 24 + d
  | .troupe _ _ _ => 0
  | .matrix _ _ => 0
  | .copy _ _ => 0

/-- The core of a number. -/
def coreAgent (n : Nat) : Agent := if n < 24 then .control n else .firmware (n - 24)

/-- The timer of a core. -/
def State.timer (s : State) (n : Nat) : CoreTimer := tget ⟨0, false⟩ s.timers n

/-- Change the timer of a core. -/
def State.setTimer (s : State) (n : Nat) (x : CoreTimer) : State := { s with timers := tset ⟨0, false⟩ s.timers n x }

/-- The timer's time has come (R220). -/
def CoreTimer.due (x : CoreTimer) (now : Nat) : Bool := x.tcmp.getLsbD 63 && decide (x.tcmp.toNat % 2 ^ 63 ≤ now)

/-- A core in HALT goes on at its next word (R219). -/
def wakeCore (s : State) (n : Nat) : State :=
  s.setThread (coreAgent n) fun t => if t.status = .halted then { t with status := .running } else t

/-- A write of TCMP (R220): a pending event is cleared, and the new value compared. -/
def writeTcmp (s : State) (n : Nat) (v : DWord) : State :=
  let x : CoreTimer := ⟨v, false⟩
  if x.due s.clock then wakeCore (s.setTimer n { x with timer := true }) n else s.setTimer n x

/-- `TCMP_WRITE` (R220). -/
def execTcmpWrite (core : Nat) (value : DWord) (s : State) : Out := .next (writeTcmp s core value)

/-- `TCMP_TIMER_EVENT` (R220). -/
def execTcmpTimerEvent (core : Nat) (s : State) : Out :=
  let x := s.timer core
  if x.due s.clock && !x.timer then .next (wakeCore (s.setTimer core { x with timer := true }) core) else .next s

/-- `CORE_EVENT_WAKE` (R219): an event of a core arrives. The timer's arrives when TCMP is reached (R220). -/
def execCoreEventWake (core : Nat) (e : CoreEvent) (s : State) : Out :=
  if e = .timer ∧ !(s.timer core).timer then .next s else .next (wakeCore s core)

/-! ### Registers of a die and of the package -/

/-- NOCCFG as a write stores it (R268). -/
def noccfgValue (v : Nat) : Word :=
  let enter := max 17 (bitsN v 7 0)
  BitVec.ofNat 32 (enter + min (bitsN v 15 8) (enter - 1) * 2 ^ 8 + max 1 (bitsN v 19 16) * 2 ^ 16 + bitsN v 21 20 * 2 ^ 20)

/-- The routing of a die. -/
def State.noc (s : State) (d : Nat) : Noc := tget Noc.fresh s.nocs d

/-- Change the routing of a die. -/
def State.setNoc (s : State) (d : Nat) (x : Noc) : State := { s with nocs := tset Noc.fresh s.nocs d x }

/-- `QTAIL_WRITE` (R321, R322), by the firmware core (none) or through BAR0 of a function, which may not show the queue (R422, R423). -/
def execQtailWrite (q : QueueAccess) (tail : Word) (s : State) : Out :=
  if queueShown s q then .next (nextFetch (s.setQueue q.q { s.queue q.q with tail := tail }) q.q) else .next s

/-- `QSTAT_SKIP` (R321): the bad command is skipped, and the queue goes on. -/
def execQstatSkip (q : QueueAccess) (s : State) : Out :=
  let x := s.queue q.q
  if !x.halted || !queueShown s q then .next s
  else .next (nextFetch (s.setQueue q.q { x with halted := false, err := 0, head := if x.bad then x.head + 1 else x.head, bad := false }) q.q)

/-- `QCFG_EN_WRITE` (R321, R322). -/
def execQcfgEnWrite (q : QueueAccess) (en : Bool) (s : State) : Out :=
  let x := s.queue q.q
  if !queueShown s q then .next s
  else .next (nextFetch (s.setQueue q.q { x with cfg := BitVec.ofNat 32 (setBitsN x.cfg.toNat 7 7 (if en then 1 else 0)) }) q.q)

/-- A write of QCFG (R321). -/
def writeQcfg (s : State) (q v : Nat) : State :=
  let log := bitsN v 4 0
  let log := if log < 4 ∨ 16 < log then 4 else log
  let x := s.queue q
  nextFetch (s.setQueue q { x with cfg := BitVec.ofNat 32 (log + bitsN v 7 5 * 2 ^ 5) }) q

/-- Read register i of a queue (R321). -/
def readQueueReg (s : State) (q i : Nat) : Nat :=
  let x := s.queue q
  match i with
  | 0 => x.base.toNat
  | 1 => x.cfg.toNat
  | 2 => x.tail.toNat
  | 3 => x.head.toNat
  | 4 => (if x.halted then 1 else 0) + x.err * 2
  | _ => 0

/-- Write register i of a queue (R321). -/
def writeQueueReg (s : State) (q i v : Nat) : State :=
  match i with
  | 0 => s.setQueue q { s.queue q with base := BitVec.ofNat 64 (bitsN v 56 8 * 256) }
  | 1 => writeQcfg s q v
  | 2 => nextOf s (execQtailWrite ⟨none, q⟩ (BitVec.ofNat 32 v) s)
  | 3 => s
  | 4 => if bitsN v 0 0 = 1 then nextOf s (execQstatSkip ⟨none, q⟩ s) else s
  | _ => s

/-- A context lives in the package (R357). -/
def anyContext (s : State) : Bool := !(liveCxs s).isEmpty

/-- Read a register of R357 by its number from 0x13000. -/
def readTransReg (s : State) (i : Nat) : Nat :=
  let t := s.trans
  match i with
  | 0 => t.astbase.toNat
  | 1 => t.astlen.toNat
  | 2 => t.savebase.toNat
  | 3 => t.savecnt.toNat
  | 4 => t.pfqbase.toNat
  | 5 => t.pfqhead.toNat
  | 6 => t.pfqtail.toNat
  | 8 => t.migcfg.toNat
  | 9 => t.moves + t.pins * 2 ^ 16 + t.noframe * 2 ^ 32
  | 16 => (tget [] t.frames 0).length
  | 17 => (tget [] t.frames 1).length
  | 18 => (tget [] t.frames 2).length
  | 19 => (tget [] t.frames 3).length
  | _ => 0

/-- MIGCFG as a write stores it (R365). -/
def migcfgValue (v : Nat) : DWord :=
  BitVec.ofNat 64 (bitsN v 1 0 + max 1 (bitsN v 9 2) * 2 ^ 2 + bitsN v 21 10 * 2 ^ 10 + clamp 1 10000 (bitsN v 35 22) * 2 ^ 22)

/-- Write a register of R357 by its number from 0x13000. The four registers of the address spaces and save areas keep their
values while a context lives; a base loses the bits below its alignment. -/
def writeTransReg (s : State) (i v : Nat) : State :=
  let t := s.trans
  let put (t : Trans) : State := { s with trans := t }
  let idle (t : Trans) : State := if anyContext s then s else put t
  match i with
  | 0 => idle { t with astbase := BitVec.ofNat 64 (v / 64 * 64) }
  | 1 => idle { t with astlen := BitVec.ofNat 32 (min v 65536) }
  | 2 => idle { t with savebase := BitVec.ofNat 64 (v / 2 ^ 29 * 2 ^ 29) }
  | 3 => idle { t with savecnt := BitVec.ofNat 32 (min v 128) }
  | 4 => put { t with pfqbase := BitVec.ofNat 64 (v / 32768 * 32768) }
  | 5 => nextOf s (execPfqheadWrite (BitVec.ofNat 32 v) s)
  | 7 => answer s (bitsN v 31 0) (bitsN v 32 32 == 1)
  | 8 => put { t with migcfg := migcfgValue v }
  | 9 => put { t with moves := clearCount v 15 0 t.moves, pins := clearCount v 31 16 t.pins, noframe := clearCount v 47 32 t.noframe }
  | 16 => nextOf s (execMigfreePush 0 (BitVec.ofNat 64 v) s)
  | 17 => nextOf s (execMigfreePush 1 (BitVec.ofNat 64 v) s)
  | 18 => nextOf s (execMigfreePush 2 (BitVec.ofNat 64 v) s)
  | 19 => nextOf s (execMigfreePush 3 (BitVec.ofNat 64 v) s)
  | 20 => nextOf s (if bitsN v 0 0 = 1 then execMigpinPin (bitsN v 56 16) s else execMigpinUnpin (bitsN v 56 16) s)
  | 24 => nextOf s (if bitsN v 7 7 = 0 then execCtxctlPreempt (bitsN v 6 0) s else execCtxctlEnd (bitsN v 6 0) s)
  | _ => s

/-- RASLIMn as a write stores it (R400). -/
def raslimValue (v : Nat) : DWord :=
  BitVec.ofNat 64 (clamp 1 8 (bitsN v 3 0) + max 1 (bitsN v 31 8) * 2 ^ 8 + bitsN v 32 32 * 2 ^ 32)

/-- The word of the pod trust table that register n holds (R414): the own package's bit reads as 1. -/
def trustWord (s : State) (n : Nat) : Nat :=
  ((List.range 32).map fun i => if trusted s (32 * n + i) then 2 ^ i else 0).sum

/-- Write register n of the pod trust table (R414). -/
def writeTrust (s : State) (n v : Nat) : State :=
  let put (m : TMap Bool) (i : Nat) : TMap Bool := if 32 * n + i = s.pkg then m else tset false m (32 * n + i) (v.testBit i)
  { s with trust := { s.trust with table := (List.range 32).foldl put s.trust.table } }

/-- Read a register of the range 0x14000 to 0x1417f for the firmware core of a die (R400-R404, R407, R414, R415). -/
def readRasReg (s : State) (die i : Nat) : Nat :=
  if i < 4 then ((s.ras.lims[i]?).getD 0).toNat
  else if i = 0x10 then s.ras.base.toNat
  else if i = 0x11 then s.ras.head.toNat
  else if i = 0x12 then s.ras.tail.toNat
  else if i = 0x20 then s.trust.lc
  else if i = 0x30 then rmstat s die
  else if 0x100 ≤ i then trustWord s (i - 0x100)
  else 0

/-- Write a register of the range 0x14000 to 0x1417f. -/
def writeRasReg (s : State) (die i v : Nat) : State :=
  let r := s.ras
  if i < 4 then { s with ras := { r with lims := r.lims.set i (raslimValue v) } }
  else if i = 0x10 then { s with ras := { r with base := BitVec.ofNat 64 (v / 4096 * 4096) } }
  else if i = 0x11 then { s with ras := { r with head := BitVec.ofNat 32 v } }
  else if i = 0x18 then nextOf s (execCoredis v s)
  else if i = 0x21 then (lifeCommand s (toBytes 8 v)).2
  else if i = 0x30 then (if bitsN v 36 36 = 1 then s.setLease die { s.lease die with stale := false } else s)
  else if 0x100 ≤ i then writeTrust s (i - 0x100) v
  else s

/-- FABRATE as a write stores it (R281). -/
def fabrateValue (v : Nat) : Word :=
  BitVec.ofNat 32 (max 1 (bitsN v 5 0) + max 1 (bitsN v 13 6) * 2 ^ 6 + bitsN v 14 14 * 2 ^ 14)

/-- A write of FABRATE (R281): IGNORE keeps every rate at 64. -/
def writeFabrate (s : State) (v : Nat) : State :=
  let f := { s.fabric with rateCfg := fabrateValue v }
  s.setFab (if bitsN v 14 14 = 1 then { f with rates := [], noticed := [] } else f)

/-- TETHCFG (R297). -/
def tethcfg (t : Tether) : Nat := (if t.active then 1 else 0) + (if t.autofail then 2 else 0) + t.pos * 4

/-- A write of TETHCFG (R297). -/
def writeTethcfg (s : State) (v : Nat) : State :=
  let s := s.setTether { s.tether with autofail := bitsN v 1 1 == 1, pos := bitsN v 13 2 }
  usePort s (bitsN v 0 0 == 1)

/-- TETHSTAT (R297). -/
def tethstat (t : Tether) : Nat :=
  let bit (b : Bool) (n : Nat) : Nat := if b then 2 ^ n else 0
  bit (t.locked && decide (t.skb ≤ 50)) 0 + bit t.up0 1 + bit t.up1 2 + bit t.active 3 + min t.skb 4095 * 2 ^ 4
    + t.failovers * 2 ^ 16 + t.rootfails * 2 ^ 24

/-- A write of TETHSTAT (R297). -/
def writeTethstat (s : State) (v : Nat) : State :=
  let t := s.tether
  s.setTether { t with failovers := clearCount v 23 16 t.failovers, rootfails := clearCount v 27 24 t.rootfails }

/-- PHDESC of the phaser that PHSEL selects (R289). -/
def phdesc (s : State) : Nat :=
  let bit (b : Bool) (n : Nat) : Nat := if b then 2 ^ n else 0
  match phNode s (selName s.tether.phsel) with
  | none =>
    let d := (lookupBy (selName s.tether.phsel) s.tether.descs).getD PhDesc.reset
    bit d.anyOf 1 + d.ctx * 4 + d.maxmem * 2 ^ 9 + d.rootIx * 2 ^ 23 + bit s.tether.refused 31
  | some x => 1 + bit x.anyOf 1 + x.ctx * 4 + x.maxmem * 2 ^ 9 + x.rootIx * 2 ^ 23 + bit (decide (0 < x.members)) 30 + bit s.tether.refused 31

/-- A write of PHDESC (R289). -/
def writePhdesc (s : State) (v : Nat) : State :=
  let w := BitVec.ofNat 32 v
  nextOf s (if bitsN v 0 0 = 1 then execPhdescCreate w s else execPhdescDestroy w s)

/-- COLLCFG as a write stores it (R378). -/
def collcfgValue (v : Nat) : Word := BitVec.ofNat 32 (max 1 (bitsN v 15 0) + clamp 1 64 (bitsN v 22 16) * 2 ^ 16)

/-- E2ECFG as a write stores it (R396). -/
def e2ecfgValue (v : Nat) : Word :=
  let life := max 1 (bitsN v 15 10)
  BitVec.ofNat 32 (max 1 (bitsN v 9 0) + life * 2 ^ 10 + max life (bitsN v 27 16) * 2 ^ 16)

/-- ROUTESET (R396). -/
def routeset (f : Fabric) : Nat := ((List.range 24).map fun n => if (f.port n).st = .up then 2 ^ n else 0).sum

/-- The code of a port's state (R396): an enabled port does not stay OFF (R382). -/
def portCode (x : Port) : Nat :=
  match x.st with
  | .off => if x.en then 1 else 0
  | .train => 1
  | .up => 2
  | .failed => 3

/-- Read register i of port n (R396). -/
def readPort (s : State) (n i : Nat) : Nat :=
  let x := s.fabric.port n
  let bit (b : Bool) (n : Nat) : Nat := if b then 2 ^ n else 0
  match i with
  | 0 => bit x.en 0 + x.pwidth.toNat * 2 + x.lmask.toNat * 2 ^ 4
  | 1 => portCode x + x.active.toNat * 2 ^ 2 + x.tries * 2 ^ 6 + bit x.mismatch 9
  | 2 => x.lreplay + x.retrain * 2 ^ 12 + x.forced * 2 ^ 20
  | _ => 0

/-- A write of PORTCTL n (R382, R385, R396). -/
def writePortctl (s : State) (n v : Nat) : State :=
  let x := s.fabric.port n
  let s := s.setFab (s.fabric.setPort n { x with lmask := BitVec.ofNat 4 (v / 16) })
  let s := nextOf s (execPortctlPwidth n (BitVec.ofNat 2 (v / 2)) s)
  let s := if x.en != (bitsN v 0 0 == 1) then nextOf s (execPortctlEn n (bitsN v 0 0 == 1) s) else s
  if bitsN v 3 3 = 1 then nextOf s (execPortctlReset n s) else s

/-- Write register i of port n (R396). -/
def writePort (s : State) (n i v : Nat) : State :=
  let x := s.fabric.port n
  match i with
  | 0 => writePortctl s n v
  | 2 => s.setFab (s.fabric.setPort n { x with
      lreplay := clearCount v 11 0 x.lreplay, retrain := clearCount v 19 12 x.retrain, forced := clearCount v 27 20 x.forced })
  | _ => s

/-- Read a register of the range 0x18000 to 0x1845f (R281, R289, R297, R378, R396). -/
def readPodReg (s : State) (i : Nat) : Nat :=
  if i = 0 then s.fabric.rateCfg.toNat
  else if i = 0x100 then tethcfg s.tether
  else if i = 0x101 then tethstat s.tether
  else if i = 0x110 then s.tether.phsel.toNat
  else if i = 0x111 then phdesc s
  else if i = 0x200 then s.collcfg.toNat
  else if i = 0x300 then s.fabric.e2ecfg.toNat
  else if i = 0x301 then s.fabric.replays + s.fabric.closed * 2 ^ 16 + s.fabric.outside * 2 ^ 24
  else if i = 0x302 then routeset s.fabric
  else if 0x400 ≤ i then readPort s ((i - 0x400) / 4) (i % 4)
  else 0

/-- Write a register of the range 0x18000 to 0x1845f. -/
def writePodReg (s : State) (i v : Nat) : State :=
  let f := s.fabric
  if i = 0 then writeFabrate s v
  else if i = 0x100 then writeTethcfg s v
  else if i = 0x101 then writeTethstat s v
  else if i = 0x110 then s.setTether { s.tether with phsel := BitVec.ofNat 32 (v % 2 ^ 13) }
  else if i = 0x111 then writePhdesc s v
  else if i = 0x200 then { s with collcfg := collcfgValue v }
  else if i = 0x300 then s.setFab { f with e2ecfg := e2ecfgValue v }
  else if i = 0x301 then s.setFab { f with
    replays := clearCount v 15 0 f.replays, closed := clearCount v 23 16 f.closed, outside := clearCount v 31 24 f.outside }
  else if 0x400 ≤ i then writePort s ((i - 0x400) / 4) (i % 4) v
  else s

/-! ### Every system register -/

/-- Read system register n for the core of a number (R211, R212): a register without a read access reads as zero (R4). -/
def sysRead (s : State) (core n : Nat) : DWord :=
  BitVec.ofNat 64 (
    if n < 0x8000 then readCoreReg s (8 * core + n / 0x1000) (n % 0x1000)
    else if n = 0x8000 then (s.ring core).rdir.toNat + (if (s.ring core).refused then 2 ^ 31 else 0)
    else if n < 0x9000 then readCarstat s core (n % 8)
    else if n = 0x9000 then (s.timer core).tcmp.toNat
    else if n = 0x10000 then (s.noc (core - 24)).cfg.toNat
    else if n = 0x10001 then
      let x := s.noc (core - 24)
      (if x.twoPhase then 1 else 0) + x.imb * 2 + x.switches * 2 ^ 9
    else if n < 0x12200 then readQueueReg s ((n - 0x12000) / 8) (n % 8)
    else if n < 0x14000 then readTransReg s (n - 0x13000)
    else if n < 0x15000 then readRasReg s (core - 24) (n - 0x14000)
    else if n = 0x15000 then s.power.cfg.toNat
    else if n = 0x15001 then pwrstat s
    else readPodReg s (n - 0x18000))

/-- Write system register n for the core of a number (R4, R211, R213). -/
def sysWrite (s : State) (core n : Nat) (value : DWord) : State :=
  let v := value.toNat
  if n < 0x8000 then writeCoreReg s (8 * core + n / 0x1000) (n % 0x1000) v
  else if n = 0x8000 then writeCarcfg s core v
  else if n < 0x9000 then writeCarstat s core (n % 8) v
  else if n = 0x9000 then writeTcmp s core value
  else if n = 0x10000 then s.setNoc (core - 24) { s.noc (core - 24) with cfg := noccfgValue v }
  else if n = 0x10001 then
    s.setNoc (core - 24) { s.noc (core - 24) with switches := clearCount v 31 9 (s.noc (core - 24)).switches }
  else if n < 0x12000 then s
  else if n < 0x12200 then writeQueueReg s ((n - 0x12000) / 8) (n % 8) v
  else if n < 0x14000 then writeTransReg s (n - 0x13000) v
  else if n < 0x15000 then writeRasReg s (core - 24) (n - 0x14000) v
  else if n = 0x15000 then writePwrcfg s v
  else if n = 0x15001 then { s with power := { s.power with shaped := clearCount v 30 19 s.power.shaped } }
  else writePodReg s (n - 0x18000) v

/-- The registers that only the Ringmaster reaches (R281, R378, R396), and those that only it writes (R414). -/
def leaderReg (n : Nat) (write : Bool) : Bool :=
  n == 0x18000 || n == 0x18200 || decide (0x18300 ≤ n) || (write && decide (0x14100 ≤ n) && decide (n ≤ 0x1417f))

/-- A Ringmaster command reaches its target through the die `via` (R407): a term below the highest that the register or that die has seen is
refused. -/
def leaderWrite (s : State) (die via term n : Nat) (value : DWord) : State :=
  if term < max (tget 0 s.trust.regTerms n) (s.lease via).term then s.setLease die { s.lease die with stale := true }
  else
    let s := sysWrite s (24 + die) n value
    { s with trust := { s.trust with regTerms := tset 0 s.trust.regTerms n term } }

/-- `RINGMASTER_COMMAND` (R407). -/
def execRingmasterCommand (die : CommandPath) (term : Word) (reg : BitVec 17) (value : DWord) (s : State) : Out :=
  if leaderReg reg.toNat true && sysReach .firmware reg then .next (leaderWrite s die.die die.via term.toNat reg.toNat value) else .next s

/-- `REGISTER_WRITE` (R4): a register of the Ringmaster is written only by the core that holds the role (R407, R414). `unit` is a core's number as TCMP has it. The numbers from 0x1f000 on stand for the words of a function's
BAR0 from offset 0, and unit 28 + n for function n at its queue registers (log entry 14). -/
def execRegisterWrite (n : BitVec 17) (unit : Nat) (value : DWord) (s : State) : Out :=
  if 0x1f000 ≤ n.toNat then .next (mailboxWrite s unit (4 * (n.toNat - 0x1f000)) (value.toNat % 2 ^ 32))
  else if 28 ≤ unit ∧ 0x12000 ≤ n.toNat ∧ n.toNat < 0x12200 then
    let q := (n.toNat - 0x12000) / 8
    .next (if queueShown s ⟨some (unit - 28), q⟩ then writeQueueReg s q (n.toNat % 8) value.toNat else s)
  else if sysReach (if unit < 24 then .control else .firmware) n && decide (unit < 28) then
    let d := unit - 24
    if !leaderReg n.toNat true then .next (sysWrite s unit n.toNat value)
    else if (s.lease d).acts s.clock then .next (leaderWrite s d d (s.lease d).term n.toNat value)
    else .next s
  else .next s

/-- What the host reads at an offset of a function's BAR0 (R321, R422, R423, R425): the mailbox from 0 on and register i of queue q at
0x1_0000 + 64 q + 8 i; all ones outside RUN, and nothing where the read is refused with completer abort. -/
def bar0Read (s : State) (fn off : Nat) : Option Nat :=
  if barAborts s fn then none
  else if !barOpen s fn then some (2 ^ 32 - 1)
  else if off < 4096 then some (mailboxRead (s.mailbox fn) off)
  else
    let q := (off - 0x10000) / 64
    some (if decide (0x10000 ≤ off) && queueShown s ⟨some fn, q⟩ then readQueueReg s q ((off - 0x10000) % 64 / 8) else 0)

/-! ### SREAD, SWRITE, SETHDL -/

/-- `SREAD` (R212). -/
def execSread (hd : Hdr) (d a : Operand) (s : State) : Out :=
  issue (.sread hd d a) (Instr.sread hd d a).uses [] hd s fun act s =>
    let n := match a with
      | .s n => n.toNat
      | .v _ => 24
      | .k _ => 24
      | .c _ => 24
    let ws := laneWrites act a.specialWords d (fun l => special s l n) fun _ => false
    .next (s.setTh (advance (deliver hd ws s.th)))

/-- How a firmware core stands to a register that only the Ringmaster reaches (R407): it waits while no lease is in force in its
view, reaches it while it holds the role, and does not reach it while another core does. -/
def leaderView (s : State) (n : Nat) (write : Bool) : Option Bool :=
  if !leaderReg n write then some true
  else
    let l := s.lease (coreNo s.th.agent - 24)
    if l.acts s.clock then some true else if l.inForce s.clock then some false else none

/-- `SREAD.sys` (R212). -/
def execSreadSys (hd : Hdr) (d : Operand) (n : BitVec 17) (s : State) : Out :=
  issue (.sreadSys hd d n) (Instr.sreadSys hd d n).uses [] hd s fun act s' =>
    match leaderView s' n.toNat false with
    | none => if act = 0 then .next (s'.setTh (advance s'.th)) else .next s
    | some false => trapWord s' (.sreadSys hd d n) .reserved act 2 []
    | some true =>
      let ws := laneWrites act (sysWords n) d (fun _ => sysRead s' (coreNo s'.th.agent) n.toNat) fun _ => false
      .next (s'.setTh (advance (deliver hd ws s'.th)))

/-- Write a special register (R14, R213). -/
def writeSpecial (th : Thread) (n : Nat) (v : DWord) : Thread :=
  match n with
  | 11 => { th with stklo := v }
  | 12 => { th with stkhi := v }
  | 13 => { th with vcnt := if v.toNat % 2 ^ 32 ≤ 64 then v.setWidth 32 else 64 }
  | 14 => { th with fpmode := writeFpmode th.fpmode (v.setWidth 32) }
  | 15 => { th with err := writeErr th.err (v.setWidth 32) }
  | _ => th

/-- The value of B at the width of the target (R213). -/
def wideOpnd (s : State) (l words : Nat) (b : Operand) : DWord := if words = 2 then opnd64 s l b else (opnd32 s l b).setWidth 64

/-- A marked operand sets DATAF (R16). -/
def noteMark (th : Thread) (mark : Bool) : Thread := if mark then th.raiseErr 4 else th

/-- `SWRITE` (R213): the lowest participating lane supplies a per-lane B. -/
def execSwrite (hd : Hdr) (a b : Operand) (s : State) : Out :=
  issue (.swrite hd a b) (Instr.swrite hd a b).uses [] hd s fun act s =>
    if act = 0 then .next (s.setTh (advance s.th))
    else
      let n := match a with
        | .s n => n.toNat
        | .v _ => 24
        | .k _ => 24
        | .c _ => 24
      let l := lowLane act
      let v := wideOpnd s l a.specialWords b
      .next (s.setTh (advance (noteMark (writeSpecial s.th n v) (s.th.marked l a.specialWords b))))

/-- `SWRITE.sys` (R213). -/
def execSwriteSys (hd : Hdr) (n : BitVec 17) (b : Operand) (s : State) : Out :=
  issue (.swriteSys hd n b) (Instr.swriteSys hd n b).uses [] hd s fun act s' =>
    if act = 0 then .next (s'.setTh (advance s'.th))
    else
      let v := wideOpnd s' (lowLane act) (sysWords n) b
      let t := s'.setTh (advance (noteMark s'.th (s'.th.marked (lowLane act) (sysWords n) b)))
      let core := coreNo s'.th.agent
      match leaderView s' n.toNat true with
      | none => .next s
      | some false => trapWord s' (.swriteSys hd n b) .reserved act 2 []
      | some true =>
        if leaderReg n.toNat true then .next (leaderWrite t (core - 24) (core - 24) (s'.lease (core - 24)).term n.toNat v)
        else .next (sysWrite t core n.toNat v)

/-- `SETHDL` (R214). -/
def execSethdl (hd : Hdr) (a : Operand) (s : State) : Out :=
  issue (.sethdl hd a) (Instr.sethdl hd a).uses [] hd s fun act s' =>
    if act = 0 then .next (s'.setTh (advance s'.th))
    else
      let l := lowLane act
      let v := opnd64 s' l a
      let m := s'.th.marked l 2 a
      if v.toNat % 8 ≠ 0 then
        if outsideHandler s.th || storesOut s.th then .next s
        else
          let w := logOf (.sethdl hd a) hd s'.th act (laneBit l) [⟨l, 0, v, 0, 0, false, m⟩]
          .next (logged (takeTrap s' .align l false (fullTrapRegs w.word 0) [w]))
      else .next (s'.setTh (advance (noteMark { s'.th with hdl := v } m)))

/-! ### ESTAT, PGGEN, HALT -/

/-- The operand log as `ESTAT` reads it (R128, R215): a word that has faulted and that a replay still has to perform is in it too. -/
def logWords (th : Thread) : List LogWord :=
  if th.log.isEmpty then ((th.grp :: th.rest).filterMap fun g => g.replay).filter fun w => w.faulted != 0 else th.log

/-- The operands of a logged word for a lane (R128): every lane that took part in a uniform access has those of its one access. -/
def logLane (w : LogWord) (l : Nat) : LogLane :=
  let one := if w.took.getLsbD l then w.lanes.head? else none
  ((w.lanes.find? fun x => x.lane == l).or one).getD ⟨l, 0, 0, 0, 0, false, false⟩

/-- An item of a logged word for a lane (R215). -/
def logItem (w : LogWord) (l item : Nat) : DWord :=
  let x := logLane w l
  match item with
  | 0 => x.addr
  | 1 => x.a
  | 2 => x.b
  | 3 => x.data.setWidth 64
  | 4 => x.data.extractLsb' 64 64
  | 5 => w.word
  | _ => BitVec.ofNat 64 ((if w.took.getLsbD l then 1 else 0) + (if w.faulted.getLsbD l then 2 else 0))

/-- What a selector of `ESTAT.log` reads for a lane (R215). -/
def logRead (th : Thread) (sel l : Nat) : DWord :=
  let ws := logWords th
  if sel / 16 % 8 = 7 then BitVec.ofNat 64 ws.length
  else
    match ws[sel % 16]? with
    | none => 0
    | some w => logItem w l (sel / 16 % 8)

/-- `ESTAT.log` (R215). -/
def execEstatLog (hd : Hdr) (d a : Operand) (s : State) : Out :=
  issue (.estatLog hd d a) (Instr.estatLog hd d a).uses [] hd s fun act s =>
    let sel := (opnd32 s (lowLane act) a).toNat
    let m := s.th.marked (lowLane act) 1 a
    let th := s.th.writes (laneWrites act 2 d (fun l => logRead s.th sel l) fun _ => m)
    .next (s.setTh (advance (if act = 0 then th else noteMark th m)))

/-- `ESTAT.eq` (R216): one entry is removed for the word. A core without a context has no queue, and reads 0. -/
def execEstatEq (hd : Hdr) (d : Operand) (s : State) : Out :=
  issue (.estatEq hd d) (Instr.estatEq hd d).uses [] hd s fun act s =>
    if act = 0 then .next (s.setTh (advance s.th))
    else
      let x : DWord := (s.cx.errq.head?).getD 0
      let s := { s with cx := { s.cx with errq := s.cx.errq.drop 1 } }
      .next (s.setTh (advance (s.th.writes (laneWrites act 2 d (fun _ => x) fun _ => false))))

/-- Every agent drops the translations of an address space whose generation a bump makes current again, and every walker its pointer
entries (R347, R353). -/
def dropRecurred (s : State) (asid gen : Nat) : State :=
  { s with
    tlbs := (s.tlbs.map Prod.fst).foldl (fun m ix =>
      tset [] m ix ((tget [] m ix).filter fun t => !(t.asid == asid && t.gen == gen))) s.tlbs
    walkers := (s.walkers.map Prod.fst).foldl (fun m w =>
      tset [] m w ((tget [] m w).filter fun e => !(e.asid == asid && e.gen == gen))) s.walkers }

/-- The address space of an agent (R324, log entry 9). -/
def asidOf (s : State) (t : Thread) : Nat :=
  match t.agent.place with
  | none => t.asid
  | some (c, _) => ((getCx s c).map Context.asid).getD 0

/-- The context runs in an address space. -/
def ctxIn (s : State) (asid c : Nat) : Bool := (getCx s c).any fun x => x.asid == asid

/-- An operation on an array still has to use its translations of an address space: the generation changes once it has. -/
def opsIn (s : State) (asid : Nat) : Bool :=
  (allWgs s).any fun g => ctxIn s asid g.ctx && g.mq.any fun x => x.phase == .started

/-- The number of elements up to the last one for which `f` holds. -/
def lastOf {α : Type} (f : α → Bool) (l : List α) : Nat := l.length - (l.reverse.takeWhile fun x => !f x).length

/-- The tags of signals to other packages under translations of an address space (R323). -/
def signalTags (s : State) (asid : Nat) : List Nat :=
  s.queues.filterMap fun q => match q.2.cmd with
    | some (c, .sent t) => if bitsN c 207 192 = asid then some t else none
    | _ => none

/-- What uses translations of an address space now (R353). -/
def usersOf (s : State) (asid : Nat) : Older :=
  let ts := (s.th :: s.threads).filter fun t => asidOf s t == asid
  let mine := (allWgs s).filter fun g => ctxIn s asid g.ctx
  { tags := ts.flatMap (fun t => t.fabric ++ t.pend.flatMap fun p => match p.owed with
        | .wait _ => []
        | .result _ aw _ => aw.map Await.tag) ++ (mine.flatMap fun g => g.mq.flatMap fun x => x.remote)
      ++ ((s.colls.filter fun x => ctxIn s asid x.ctx).flatMap fun x => x.remote)
      ++ ((s.host.front.filter fun e => e.2 == asid).map Prod.fst) ++ signalTags s asid
    cmds := s.cores.flatMap fun c => (c.2.copyq.filter fun x => !x.waits && x.issuer.place.any fun p => ctxIn s asid p.1).map fun x => (c.1, x.id)
    assists := (mine.filter fun g => g.mq.any fun x => x.phase == .assist || x.phase == .assistWait).map fun g => (g.ctx, g.wgl)
    colls := (s.colls.filter fun x => x.phase == .running && ctxIn s asid x.ctx).map fun x => (x.ctx, x.num, x.me)
    hosts := s.host.done + lastOf (fun o => o.asid == asid) s.host.ops }

/-- `PGGEN` (R217, R353): an older translation is no longer used by any agent from then on, and the word completes once everything
that used one has been performed. For a number beyond the address-space table no entry exists, and the value written to D is free (log
entry 2). -/
def execPggen (hd : Hdr) (d a : Operand) (s : State) : Out :=
  issue (.pggen hd d a) (Instr.pggen hd d a).uses [] hd s fun act s' =>
    if act = 0 then .next (s'.setTh (advance s'.th))
    else
      let l := lowLane act
      let n := (opnd32 s' l a).toNat
      let m := s'.th.marked l 1 a
      let put (s : State) (x : Word) : State :=
        s.setTh (advance (noteMark (s.th.writes (laneWrites act 1 d (fun _ => x.setWidth 64) fun _ => m)) m))
      if s'.trans.astlen.toNat ≤ n then .next (put { s' with free := s'.free + 1 } (Config.freeWord s'.free))
      else if opsIn s' n then .next s
      else
        let g : Word := BitVec.ofNat 32 (spaceGen s' n) + 1
        let die := s'.th.ident.die
        let o := usersOf s' n
        let t := homeWrite (dropRecurred (drainDie s' die) n g.toNat) (s'.trans.astbase.toNat + 64 * n + 8) 0 (toBytes 4 g.toNat) false s'.pkg die
        if o.left t then .next (t.setTh (advance (openWait { hd with la := 0 } (.gen g d act m o) (noteMark t.th m))))
        else .next (put (acquire t .pk) g)

/-- `HALT` (R219): a timer event that is pending ends it at once (R220). -/
def execHalt (hd : Hdr) (s : State) : Out :=
  issue (.halt hd) [] [] hd s fun act s =>
    let th := advance s.th
    if act = 0 || (s.timer (coreNo s.th.agent)).timer then .next (s.setTh th) else .next (s.setTh { th with status := .halted })

/-- `HALT.stop` (R219). -/
def execHaltStop (hd : Hdr) (s : State) : Out :=
  issue (.haltStop hd) [] [] hd s fun act s =>
    let th := advance s.th
    if act = 0 then .next (s.setTh th) else .next (s.setTh { th with status := .stopped })

/-! ### The throttle's epoch -/

/-- The slots of the troupes that are resident on a core, in increasing order (R225, R230). -/
def residentSlots (s : State) (core : Nat) : List Nat :=
  sortBy (fun a b => decide (a < b)) ((wgsOn s core).flatMap fun g =>
    ((List.range g.troupes).filter fun t => !g.gone.getLsbD t).filterMap fun t =>
      (s.thread (.troupe g.ctx g.wgl t)).bind Thread.slotNo)

/-- The m troupes of highest score; ties go to the lower slot (R230). -/
def highest (score : Nat → Nat) : Nat → List Nat → List Nat
  | 0, _ => []
  | n + 1, l =>
    match l.find? fun a => l.all fun b => decide (score b ≤ score a) with
    | none => []
    | some a => a :: highest score n (l.erase a)

/-- Admit starved troupes in place of the lowest-ranked members, in slot order (R231): the set, and how many. DESIGN CHOICE (log entry 51): a
troupe that this epoch has admitted is not displaced, and no more are admitted than the set has members. -/
def admitted (allowed starved : List Nat) : List Nat × Nat :=
  let k := min starved.length allowed.length
  (allowed.take (allowed.length - k) ++ starved.take k, k)

/-- `THROTTLE_EPOCH_END` (R230, R231). -/
def execThrottleEpochEnd (core : Nat) (s : State) : Out :=
  let c := s.core core
  let x := c.throttle
  let cfg := x.cfg.toNat
  let here := residentSlots s core
  let score (t : Nat) : Nat := (lookupBy t x.scores).getD 0
  let sum := (here.map score).sum
  let m := if bitsN cfg 31 31 = 1 ∧ bitsN cfg 15 0 < sum then max (x.m / 2) (bitsN cfg 21 16) else min (x.m + bitsN cfg 27 22) 64
  let after (t : Nat) : Nat := score t / 2 ^ bitsN cfg 30 28
  let refused (t : Nat) : Nat := match lookupBy t x.refusals with
    | some (n, true) => n + 1
    | some (_, false) => 0
    | none => 0
  let allowed := highest after m here
  let starved := here.filter fun t => decide (8 ≤ refused t) && !allowed.contains t
  let a := admitted allowed starved
  .next (s.setCore core { c with throttle := { x with
    m := m, sum := sum, grants := a.2, scores := here.map fun t => (t, after t), refusals := here.map fun t => (t, refused t, false),
    barred := here.filter fun t => !a.1.contains t } })

/-! ### The routing of a die -/

/-- The largest count of the outputs of a stage, times 16, and the mean (R267): their number and their sum. -/
def stageLoad (l : List Nat) : Nat × Nat := (16 * l.length * l.foldl max 0, l.sum)

/-- The imbalance of a stage times 16 lies above a threshold (R267). -/
def loadAbove (n : Nat) (l : List Nat) : Bool := decide (n * (stageLoad l).2 < (stageLoad l).1)

/-- The imbalance of a stage times 16 lies below a threshold (R267); a stage that has sent nothing has none. -/
def loadBelow (n : Nat) (l : List Nat) : Bool := l.sum == 0 || decide ((stageLoad l).1 < n * (stageLoad l).2)

/-- IMB at a window end (R268). -/
def windowImb (counts : List (List Nat)) : Nat :=
  min 255 ((counts.map fun l => if l.sum = 0 then 0 else (stageLoad l).1 / (stageLoad l).2).foldl max 0)

/-- The intermediate router of a request to a line (R267): in two-phase mode, by the line address and the seed of the die. -/
def Noc.via (x : Noc) (line : Nat) : Option Nat := if x.twoPhase then some (Config.routeHash line x.seed % 16) else none

/-- `NOC_WINDOW_END` (R267, R268): `counts` are the flits that the router outputs of each stage have sent in the window. -/
def execNocWindowEnd (die : Nat) (counts : List (List Nat)) (s : State) : Out :=
  let x := s.noc die
  let cfg := x.cfg.toNat
  let below := if x.twoPhase && counts.all (loadBelow (bitsN cfg 15 8)) then x.below + 1 else 0
  let want := if bitsN cfg 21 21 = 1 then false
    else if bitsN cfg 20 20 = 1 then true
    else if x.twoPhase then decide (below < bitsN cfg 19 16)
    else counts.any (loadAbove (bitsN cfg 7 0))
  let y := { x with imb := windowImb counts, below := below, pending := if want = x.twoPhase then none else some want }
  let s := s.setNoc die y
  if want = x.twoPhase then .next s else .next { s with inputs := s.inputs ++ [.routingModeSwitch die] }

/-- `ROUTING_MODE_SWITCH` (R267): a new seed is drawn. -/
def execRoutingModeSwitch (die : Nat) (s : State) : Out :=
  let x := s.noc die
  match x.pending with
  | none => .next s
  | some m =>
    let (k, s) := drawKey s
    .next (s.setNoc die { x with twoPhase := m, pending := none, below := 0, switches := min (x.switches + 1) (2 ^ 23 - 1), seed := k.toNat })

/-! ### Homes and walks -/

/-- The first update that a die may apply (R258): its clock covers the stamp, and no earlier one comes from the same home. -/
def dueUpdate (clock : List Nat) : List DieUpdate → List DieUpdate → Option (DieUpdate × List DieUpdate)
  | _, [] => none
  | before, u :: r =>
    if covers clock u.stamp && !(before.any fun b => b.home == u.home) then some (u, before ++ r) else dueUpdate clock (before ++ [u]) r

/-- `DIE_APPLY_WRITE` (R258). -/
def execDieApplyWrite (die : Nat) (s : State) : Out :=
  let v := s.die die
  match dueUpdate v.clock [] v.updates with
  | none => .next s
  | some (u, r) => .next (s.setDie die ({ v with updates := r }.apply u))

/-- `MEMORY_REQUEST_AT_HOME` (R124, R249): a request of a package and die is performed at its home here, under the key index of its
line (log entry 15). -/
def execMemoryRequestAtHome (q : HomeReq) (s : State) : Out :=
  let pa := q.addr
  let key := tget 0 s.lineKey (pa / 128)
  if !homedHere s pa || inDirectory pa then .next s
  else if q.kind = .atomic then
    let old := memNat s key pa q.width
    let data := toBytes q.width (atomNew q.op q.width old (ofBytes q.data) q.cmp)
    .next (homeWriteBy s pa key data (anyMark s.memMark pa q.width) q.pkg q.die (homeDie s pa))
  else if accessWrites q.kind then .next (homeWriteBy s pa key q.data false q.pkg q.die (homeDie s pa))
  else .next (noteRequest s pa q.pkg q.die)

/-- `TRANSLATION_WALK` (R346, R348): a walk for a TLB, by its number; no record is written for a walk that fails. -/
def execTranslationWalk (core asid : Nat) (va : DWord) (kind : Access) (s : State) : Out :=
  .next (translate s core asid va.toNat ⟨kind, decide (300 ≤ core), none, false⟩).2

end Sys2Proof.Machine
end

