-- ==== Sys2Proof/Machine/Dispatch.lean ====
section
/-!
DEFINITION. The one match over the instructions: one arm per constructor, each a direct call of its meaning.
-/

namespace Sys2Proof.Machine

/-- What an instruction does (R62, 95_what_each_step_holds.md). -/
def exec (i : Instr) (s : State) : Host.Outcome State Fault Refusal :=
  match i with
  | .iadd x sat => Sys2Proof.Machine.execIadd x sat s
  | .isub x sat => Sys2Proof.Machine.execIsub x sat s
  | .imul x => Sys2Proof.Machine.execImul x s
  | .imulhi x u => Sys2Proof.Machine.execImulhi x u s
  | .imad x sat => Sys2Proof.Machine.execImad x sat s
  | .imadw x => Sys2Proof.Machine.execImadw x s
  | .iaddc x cin cout => Sys2Proof.Machine.execIaddc x cin cout s
  | .isubb x cin cout => Sys2Proof.Machine.execIsubb x cin cout s
  | .imin x u => Sys2Proof.Machine.execImin x u s
  | .imax x u => Sys2Proof.Machine.execImax x u s
  | .iabs x sat => Sys2Proof.Machine.execIabs x sat s
  | .ineg x sat => Sys2Proof.Machine.execIneg x sat s
  | .isad x => Sys2Proof.Machine.execIsad x s
  | .idot4 x sat => Sys2Proof.Machine.execIdot4 x sat s
  | .lea x sh u => Sys2Proof.Machine.execLea x sh u s
  | .iadd64 x sat => Sys2Proof.Machine.execIadd64 x sat s
  | .isub64 x sat => Sys2Proof.Machine.execIsub64 x sat s
  | .icmp x => Sys2Proof.Machine.execIcmp x s
  | .isel x ps ns => Sys2Proof.Machine.execIsel x ps ns s
  | .and x => Sys2Proof.Machine.execAnd x s
  | .or x => Sys2Proof.Machine.execOr x s
  | .xor x => Sys2Proof.Machine.execXor x s
  | .andn x => Sys2Proof.Machine.execAndn x s
  | .not x => Sys2Proof.Machine.execNot x s
  | .bool3 hd d a b c tt => Sys2Proof.Machine.execBool3 hd d a b c tt s
  | .shl x => Sys2Proof.Machine.execShl x s
  | .shr x => Sys2Proof.Machine.execShr x s
  | .sar x => Sys2Proof.Machine.execSar x s
  | .rotl x => Sys2Proof.Machine.execRotl x s
  | .funnel x => Sys2Proof.Machine.execFunnel x s
  | .bfx x sx => Sys2Proof.Machine.execBfx x sx s
  | .bfi x => Sys2Proof.Machine.execBfi x s
  | .popc x => Sys2Proof.Machine.execPopc x s
  | .clz x => Sys2Proof.Machine.execClz x s
  | .ctz x => Sys2Proof.Machine.execCtz x s
  | .brev x => Sys2Proof.Machine.execBrev x s
  | .byteperm x => Sys2Proof.Machine.execByteperm x s
  | .pset hd pd pa na pb nb op => Sys2Proof.Machine.execPset hd pd pa na pb nb op s
  | .pmovGet hd d => Sys2Proof.Machine.execPmovGet hd d s
  | .pmovSet hd a ha => Sys2Proof.Machine.execPmovSet hd a ha s
  | .movi hd d imm => Sys2Proof.Machine.execMovi hd d imm s
  | .movhi hd d imm => Sys2Proof.Machine.execMovhi hd d imm s
  | .iaddi x => Sys2Proof.Machine.execIaddi x s
  | .imuli x => Sys2Proof.Machine.execImuli x s
  | .andi x => Sys2Proof.Machine.execAndi x s
  | .ori x => Sys2Proof.Machine.execOri x s
  | .xori x => Sys2Proof.Machine.execXori x s
  | .shli x => Sys2Proof.Machine.execShli x s
  | .shri x => Sys2Proof.Machine.execShri x s
  | .sari x => Sys2Proof.Machine.execSari x s
  | .icmpi hd a cc pd imm => Sys2Proof.Machine.execIcmpi hd a cc pd imm s
  | .leai x => Sys2Proof.Machine.execLeai x s
  | .fadd x rnd sat sm => Sys2Proof.Machine.execFadd x rnd sat sm s
  | .fsub x rnd sat sm => Sys2Proof.Machine.execFsub x rnd sat sm s
  | .fmul x rnd sat sm => Sys2Proof.Machine.execFmul x rnd sat sm s
  | .ffma x rnd sat sm => Sys2Proof.Machine.execFfma x rnd sat sm s
  | .fmin x sm => Sys2Proof.Machine.execFmin x sm s
  | .fmax x sm => Sys2Proof.Machine.execFmax x sm s
  | .fcmp x sm => Sys2Proof.Machine.execFcmp x sm s
  | .fclass x sm => Sys2Proof.Machine.execFclass x sm s
  | .frcp x rnd sat sm => Sys2Proof.Machine.execFrcp x rnd sat sm s
  | .frsq x sm => Sys2Proof.Machine.execFrsq x sm s
  | .fsqrt x rnd sm => Sys2Proof.Machine.execFsqrt x rnd sm s
  | .fex2 x sat sm => Sys2Proof.Machine.execFex2 x sat sm s
  | .flg2 x sm => Sys2Proof.Machine.execFlg2 x sm s
  | .fsin x sm => Sys2Proof.Machine.execFsin x sm s
  | .fcos x sm => Sys2Proof.Machine.execFcos x sm s
  | .dadd x rnd sat sm => Sys2Proof.Machine.execDadd x rnd sat sm s
  | .dsub x rnd sat sm => Sys2Proof.Machine.execDsub x rnd sat sm s
  | .dmul x rnd sat sm => Sys2Proof.Machine.execDmul x rnd sat sm s
  | .dfma x rnd sat sm => Sys2Proof.Machine.execDfma x rnd sat sm s
  | .dmin x sm => Sys2Proof.Machine.execDmin x sm s
  | .dmax x sm => Sys2Proof.Machine.execDmax x sm s
  | .dcmp x sm => Sys2Proof.Machine.execDcmp x sm s
  | .drcp x rnd sat sm => Sys2Proof.Machine.execDrcp x rnd sat sm s
  | .add2h x rnd sat sm => Sys2Proof.Machine.execAdd2h x rnd sat sm s
  | .mul2h x rnd sat sm => Sys2Proof.Machine.execMul2h x rnd sat sm s
  | .fma2h x rnd sat sm => Sys2Proof.Machine.execFma2h x rnd sat sm s
  | .max2h x sm => Sys2Proof.Machine.execMax2h x sm s
  | .add2b x rnd sat sm => Sys2Proof.Machine.execAdd2b x rnd sat sm s
  | .mul2b x rnd sat sm => Sys2Proof.Machine.execMul2b x rnd sat sm s
  | .fma2b x rnd sat sm => Sys2Proof.Machine.execFma2b x rnd sat sm s
  | .max2b x sm => Sys2Proof.Machine.execMax2b x sm s
  | .cvt x dst src rnd sat sm => Sys2Proof.Machine.execCvt x dst src rnd sat sm s
  | .cvtbx hd d a c rnd bx4 sm => Sys2Proof.Machine.execCvtbx hd d a c rnd bx4 sm s
  | .unpkbx hd d a c bx4 => Sys2Proof.Machine.execUnpkbx hd d a c bx4 s
  | .frnd x fmt rnd sm => Sys2Proof.Machine.execFrnd x fmt rnd sm s
  | .mov x b64 => Sys2Proof.Machine.execMov x b64 s
  | .movk hd d a b => Sys2Proof.Machine.execMovk hd d a b s
  | .lscan x op excl => Sys2Proof.Machine.execLscan x op excl s
  | .lred x op => Sys2Proof.Machine.execLred x op s
  | .lvote hd d mode ns ps pd => Sys2Proof.Machine.execLvote hd d mode ns ps pd s
  | .lbcast hd d a b ha b64 => Sys2Proof.Machine.execLbcast hd d a b ha b64 s
  | .lfind hd d hi ns ps pd => Sys2Proof.Machine.execLfind hd d hi ns ps pd s
  | .pairedWord s0 s1 => Sys2Proof.Machine.execPairedWord s0 s1 s
  | .reservedEncodingTrap w => Sys2Proof.Machine.execReservedEncodingTrap w s
  | .bra hd imm => Sys2Proof.Machine.execBra hd imm s
  | .brx hd a => Sys2Proof.Machine.execBrx hd a s
  | .call hd imm => Sys2Proof.Machine.execCall hd imm s
  | .callx hd a => Sys2Proof.Machine.execCallx hd a s
  | .ret hd => Sys2Proof.Machine.execRet hd s
  | .rcb hd slot imm => Sys2Proof.Machine.execRcb hd slot imm s
  | .rcw hd slot => Sys2Proof.Machine.execRcw hd slot s
  | .exit hd => Sys2Proof.Machine.execExit hd s
  | .yield hd => Sys2Proof.Machine.execYield hd s
  | .nop hd => Sys2Proof.Machine.execNop hd s
  | .brk hd code => Sys2Proof.Machine.execBrk hd code s
  | .trap hd code => Sys2Proof.Machine.execTrap hd code s
  | .tret hd => Sys2Proof.Machine.execTret hd s
  | .tretSkip hd => Sys2Proof.Machine.execTretSkip hd s
  | .ld m => Sys2Proof.Machine.execLd m s
  | .st m => Sys2Proof.Machine.execSt m s
  | .ldu m => Sys2Proof.Machine.execLdu m s
  | .stu m => Sys2Proof.Machine.execStu m s
  | .pref m => Sys2Proof.Machine.execPref m s
  | .fence m => Sys2Proof.Machine.execFence m s
  | .cflush m => Sys2Proof.Machine.execCflush m s
  | .waddr m => Sys2Proof.Machine.execWaddr m s
  | .atom x => Sys2Proof.Machine.execAtom x s
  | .atomcas x => Sys2Proof.Machine.execAtomcas x s
  | .red x => Sys2Proof.Machine.execRed x s
  | .cpy hd tl d a width => Sys2Proof.Machine.execCpy hd tl d a width s
  | .cpyt x => Sys2Proof.Machine.execCpyt x s
  | .cpyr hd tl h a dir op => Sys2Proof.Machine.execCpyr hd tl h a dir op s
  | .cpyn x => Sys2Proof.Machine.execCpyn x s
  | .cpyg x => Sys2Proof.Machine.execCpyg x s
  | .cminit hd slot a b => Sys2Proof.Machine.execCminit hd slot a b s
  | .cmtest hd d slot a b scope => Sys2Proof.Machine.execCmtest hd d slot a b scope s
  | .cmwait hd slot a b scope => Sys2Proof.Machine.execCmwait hd slot a b scope s
  | .tlwait hd tl a scope => Sys2Proof.Machine.execTlwait hd tl a scope s
  | .tlread hd d tl sel clr => Sys2Proof.Machine.execTlread hd d tl sel clr s
  | .seqend hd => Sys2Proof.Machine.execSeqend hd s
  | .mldw x => Sys2Proof.Machine.execMldw x s
  | .mswap hd bar arr => Sys2Proof.Machine.execMswap hd bar arr s
  | .mstrm x tile clr => Sys2Proof.Machine.execMstrm x tile clr s
  | .mldt x => Sys2Proof.Machine.execMldt x s
  | .mldtAcc x tile => Sys2Proof.Machine.execMldtAcc x tile s
  | .maclr hd mask bar arr => Sys2Proof.Machine.execMaclr hd mask bar arr s
  | .macld x tile => Sys2Proof.Machine.execMacld x tile s
  | .macst x tile => Sys2Proof.Machine.execMacst x tile s
  | .mvcnt hd a => Sys2Proof.Machine.execMvcnt hd a s
  | .mloop hd d off => Sys2Proof.Machine.execMloop hd d off s
  | .mmode hd fmt => Sys2Proof.Machine.execMmode hd fmt s
  | .fork hd a b => Sys2Proof.Machine.execFork hd a b s
  | .rdv hd => Sys2Proof.Machine.execRdv hd s
  | .barinit hd bar a => Sys2Proof.Machine.execBarinit hd bar a s
  | .barrive hd d bar => Sys2Proof.Machine.execBarrive hd d bar s
  | .barwait hd bar a => Sys2Proof.Machine.execBarwait hd bar a s
  | .barstat hd d bar sel => Sys2Proof.Machine.execBarstat hd d bar sel s
  | .tfetch hd d disp => Sys2Proof.Machine.execTfetch hd d disp s
  | .wpush hd d a => Sys2Proof.Machine.execWpush hd d a s
  | .wpop hd d a p => Sys2Proof.Machine.execWpop hd d a p s
  | .wdone hd a => Sys2Proof.Machine.execWdone hd a s
  | .cwait hd scope => Sys2Proof.Machine.execCwait hd scope s
  | .thset hd d h a => Sys2Proof.Machine.execThset hd d h a s
  | .thget hd h a => Sys2Proof.Machine.execThget hd h a s
  | .rcapmkReg hd d reg n a wr xp => Sys2Proof.Machine.execRcapmkReg hd d reg n a wr xp s
  | .rcapmkLand hd d e a b wr xp => Sys2Proof.Machine.execRcapmkLand hd d e a b wr xp s
  | .rcapld hd slot a => Sys2Proof.Machine.execRcapld hd slot a s
  | .rcaprevReg hd => Sys2Proof.Machine.execRcaprevReg hd s
  | .rcaprevLand hd e => Sys2Proof.Machine.execRcaprevLand hd e s
  | .rwr hd a slot tl scope rel off k => Sys2Proof.Machine.execRwr hd a slot tl scope rel off k s
  | .rarm hd d k => Sys2Proof.Machine.execRarm hd d k s
  | .rpoll hd d a k p => Sys2Proof.Machine.execRpoll hd d a k p s
  | .phreg x d a mode => Sys2Proof.Machine.execPhreg x d a mode s
  | .phdrop x => Sys2Proof.Machine.execPhdrop x s
  | .phsig x d scope => Sys2Proof.Machine.execPhsig x d scope s
  | .phsigb x d tl b => Sys2Proof.Machine.execPhsigb x d tl b s
  | .phany x d a => Sys2Proof.Machine.execPhany x d a s
  | .phanyBind x d a tl b => Sys2Proof.Machine.execPhanyBind x d a tl b s
  | .phwait x a scope => Sys2Proof.Machine.execPhwait x a scope s
  | .phtest x d a => Sys2Proof.Machine.execPhtest x d a s
  | .phwin x d a scope => Sys2Proof.Machine.execPhwin x d a scope s
  | .phtime x a b => Sys2Proof.Machine.execPhtime x a b s
  | .coll hd tl h a => Sys2Proof.Machine.execColl hd tl h a s
  | .collst hd d a => Sys2Proof.Machine.execCollst hd d a s
  | .sread hd d a => Sys2Proof.Machine.execSread hd d a s
  | .sreadSys hd d n => Sys2Proof.Machine.execSreadSys hd d n s
  | .swrite hd a b => Sys2Proof.Machine.execSwrite hd a b s
  | .swriteSys hd n b => Sys2Proof.Machine.execSwriteSys hd n b s
  | .sethdl hd a => Sys2Proof.Machine.execSethdl hd a s
  | .estatLog hd d a => Sys2Proof.Machine.execEstatLog hd d a s
  | .estatEq hd d => Sys2Proof.Machine.execEstatEq hd d s
  | .pggen hd d a => Sys2Proof.Machine.execPggen hd d a s
  | .assistNext hd d => Sys2Proof.Machine.execAssistNext hd d s
  | .assistGet hd d a => Sys2Proof.Machine.execAssistGet hd d a s
  | .assistPut hd a b => Sys2Proof.Machine.execAssistPut hd a b s
  | .assistDone hd => Sys2Proof.Machine.execAssistDone hd s
  | .halt hd => Sys2Proof.Machine.execHalt hd s
  | .haltStop hd => Sys2Proof.Machine.execHaltStop hd s
  | .troupeEnd ctx wg t => Sys2Proof.Machine.execTroupeEnd ctx wg t s
  | .waddrRelease r => Sys2Proof.Machine.execWaddrRelease r s
  | .longLatencyResult r => Sys2Proof.Machine.execLongLatencyResult r s
  | .dieApplyWrite die => Sys2Proof.Machine.execDieApplyWrite die s
  | .walkAheadTranslate core => Sys2Proof.Machine.execWalkAheadTranslate core s
  | .cmwaitRelease r => Sys2Proof.Machine.execCmwaitRelease r s
  | .tlwaitRelease r => Sys2Proof.Machine.execTlwaitRelease r s
  | .sequencerIdle ctx wg copy => Sys2Proof.Machine.execSequencerIdle ctx wg copy s
  | .copyStart core => Sys2Proof.Machine.execCopyStart core s
  | .chunkArrival core ix => Sys2Proof.Machine.execChunkArrival core ix s
  | .copyComplete core ix => Sys2Proof.Machine.execCopyComplete core ix s
  | .arrayOpStart core => Sys2Proof.Machine.execArrayOpStart core s
  | .arrayOpComplete core => Sys2Proof.Machine.execArrayOpComplete core s
  | .arrayOwnershipChange core => Sys2Proof.Machine.execArrayOwnershipChange core s
  | .forkStart r => Sys2Proof.Machine.execForkStart r s
  | .rdvRelease r => Sys2Proof.Machine.execRdvRelease r s
  | .barwaitRelease r => Sys2Proof.Machine.execBarwaitRelease r s
  | .parentPush ctx list => Sys2Proof.Machine.execParentPush ctx list s
  | .cwaitRelease r => Sys2Proof.Machine.execCwaitRelease r s
  | .poolEntryGrant core queue => Sys2Proof.Machine.execPoolEntryGrant core queue s
  | .rwrDeliveryApply ix => Sys2Proof.Machine.execRwrDeliveryApply ix s
  | .rwrAnswer ix => Sys2Proof.Machine.execRwrAnswer ix s
  | .phwaitRelease r => Sys2Proof.Machine.execPhwaitRelease r s
  | .coreEventWake core e => Sys2Proof.Machine.execCoreEventWake core e s
  | .tcmpTimerEvent core => Sys2Proof.Machine.execTcmpTimerEvent core s
  | .throttleEpochEnd core => Sys2Proof.Machine.execThrottleEpochEnd core s
  | .routingModeSwitch die => Sys2Proof.Machine.execRoutingModeSwitch die s
  | .carouselHop cluster ix => Sys2Proof.Machine.execCarouselHop cluster ix s
  | .carouselEject cluster stop => Sys2Proof.Machine.execCarouselEject cluster stop s
  | .sliceForward ix => Sys2Proof.Machine.execSliceForward ix s
  | .ackSend src tc => Sys2Proof.Machine.execAckSend src tc s
  | .packageRelease name => Sys2Proof.Machine.execPackageRelease name s
  | .boundSignalRelease die ix => Sys2Proof.Machine.execBoundSignalRelease die ix s
  | .curtainQuiescent ctx => Sys2Proof.Machine.execCurtainQuiescent ctx s
  | .launchStart q => Sys2Proof.Machine.execLaunchStart q s
  | .waitConditionMet q => Sys2Proof.Machine.execWaitConditionMet q s
  | .cmdNop q => Sys2Proof.Machine.execCmdNop q s
  | .cmdLaunch q => Sys2Proof.Machine.execCmdLaunch q s
  | .cmdWait q => Sys2Proof.Machine.execCmdWait q s
  | .cmdSignal q => Sys2Proof.Machine.execCmdSignal q s
  | .cmdBadType q => Sys2Proof.Machine.execCmdBadType q s
  | .workgroupPlace ctx wg => Sys2Proof.Machine.execWorkgroupPlace ctx wg s
  | .workgroupEnd ctx wg => Sys2Proof.Machine.execWorkgroupEnd ctx wg s
  | .launchEnd ctx => Sys2Proof.Machine.execLaunchEnd ctx s
  | .preemptCohort ctx cohort => Sys2Proof.Machine.execPreemptCohort ctx cohort s
  | .resumeCohort ctx cohort cores => Sys2Proof.Machine.execResumeCohort ctx cohort cores s
  | .pageHomeMove unit => Sys2Proof.Machine.execPageHomeMove unit s
  | .collectiveComplete ctx num => Sys2Proof.Machine.execCollectiveComplete ctx num s
  | .matrixColumnSpare core => Sys2Proof.Machine.execMatrixColumnSpare core s
  | .controlCoreRestart cluster => Sys2Proof.Machine.execControlCoreRestart cluster s
  | .firmwareCoreRestart die => Sys2Proof.Machine.execFirmwareCoreRestart die s
  | .linkLossReplay port plane => Sys2Proof.Machine.execLinkLossReplay port plane s
  | .trainingAttemptEnd port digest locked verified => Sys2Proof.Machine.execTrainingAttemptEnd port digest locked verified s
  | .rootNodeCycle name => Sys2Proof.Machine.execRootNodeCycle name s
  | .bankGrant core bank => Sys2Proof.Machine.execBankGrant core bank s
  | .memoryRequestAtHome q => Sys2Proof.Machine.execMemoryRequestAtHome q s
  | .translationWalk core asid va kind => Sys2Proof.Machine.execTranslationWalk core asid va kind s
  | .tcmpWrite core value => Sys2Proof.Machine.execTcmpWrite core value s
  | .nocWindowEnd die counts => Sys2Proof.Machine.execNocWindowEnd die counts s
  | .packetLdreq p => Sys2Proof.Machine.execPacketLdreq p s
  | .packetLdrsp p => Sys2Proof.Machine.execPacketLdrsp p s
  | .packetWrite p => Sys2Proof.Machine.execPacketWrite p s
  | .packetAtom p => Sys2Proof.Machine.execPacketAtom p s
  | .packetAtomrsp p => Sys2Proof.Machine.execPacketAtomrsp p s
  | .packetRegwr p => Sys2Proof.Machine.execPacketRegwr p s
  | .packetRegans p => Sys2Proof.Machine.execPacketRegans p s
  | .packetCopy p => Sys2Proof.Machine.execPacketCopy p s
  | .packetCollect p => Sys2Proof.Machine.execPacketCollect p s
  | .packetMcast p => Sys2Proof.Machine.execPacketMcast p s
  | .packetAck p => Sys2Proof.Machine.execPacketAck p s
  | .packetDowndraft p => Sys2Proof.Machine.execPacketDowndraft p s
  | .packetReserved h => Sys2Proof.Machine.execPacketReserved h s
  | .rateRecovery dst => Sys2Proof.Machine.execRateRecovery dst s
  | .e2eTimeoutReplay dst tc seq plane => Sys2Proof.Machine.execE2eTimeoutReplay dst tc seq plane s
  | .planeExclusionExpire dst plane => Sys2Proof.Machine.execPlaneExclusionExpire dst plane s
  | .streamClose dst tc => Sys2Proof.Machine.execStreamClose dst tc s
  | .linkFlitFail port => Sys2Proof.Machine.execLinkFlitFail port s
  | .linkReplay port flit => Sys2Proof.Machine.execLinkReplay port flit s
  | .linkFlitAck port => Sys2Proof.Machine.execLinkFlitAck port s
  | .laneLockLoss port lane => Sys2Proof.Machine.execLaneLockLoss port lane s
  | .plannedWidthChange port => Sys2Proof.Machine.execPlannedWidthChange port s
  | .portctlEn port en => Sys2Proof.Machine.execPortctlEn port en s
  | .portctlReset port => Sys2Proof.Machine.execPortctlReset port s
  | .portctlPwidth port w => Sys2Proof.Machine.execPortctlPwidth port w s
  | .tetherCountMessage node child m => Sys2Proof.Machine.execTetherCountMessage node child m s
  | .releaseReceipt m => Sys2Proof.Machine.execReleaseReceipt m s
  | .tetherPortFailover => Sys2Proof.Machine.execTetherPortFailover s
  | .tethcfgActiveWrite port => Sys2Proof.Machine.execTethcfgActiveWrite port s
  | .leafRootFailover loss => Sys2Proof.Machine.execLeafRootFailover loss s
  | .rootlost name => Sys2Proof.Machine.execRootlost name s
  | .timeSyncExchange parent skew => Sys2Proof.Machine.execTimeSyncExchange parent skew s
  | .phdescCreate value => Sys2Proof.Machine.execPhdescCreate value s
  | .phdescDestroy value => Sys2Proof.Machine.execPhdescDestroy value s
  | .qtailWrite q tail => Sys2Proof.Machine.execQtailWrite q tail s
  | .qstatSkip q => Sys2Proof.Machine.execQstatSkip q s
  | .ctxctlPreempt ctx => Sys2Proof.Machine.execCtxctlPreempt ctx s
  | .ctxctlEnd ctx => Sys2Proof.Machine.execCtxctlEnd ctx s
  | .pfqdoneRetry id => Sys2Proof.Machine.execPfqdoneRetry id s
  | .pfqdoneDecline id => Sys2Proof.Machine.execPfqdoneDecline id s
  | .migfreePush die frame => Sys2Proof.Machine.execMigfreePush die frame s
  | .migpinPin unit => Sys2Proof.Machine.execMigpinPin unit s
  | .migpinUnpin unit => Sys2Proof.Machine.execMigpinUnpin unit s
  | .migrationEpochEnd unit => Sys2Proof.Machine.execMigrationEpochEnd unit s
  | .collectiveLagTimeout ctx num laggard counts => Sys2Proof.Machine.execCollectiveLagTimeout ctx num laggard counts s
  | .correctedError res die unit index time => Sys2Proof.Machine.execCorrectedError res die unit index time s
  | .uncorrectableError what time => Sys2Proof.Machine.execUncorrectableError what time s
  | .coredis core => Sys2Proof.Machine.execCoredis core s
  | .leaseRenewal die => Sys2Proof.Machine.execLeaseRenewal die s
  | .termProposal die => Sys2Proof.Machine.execTermProposal die s
  | .voteRequest die proposer term => Sys2Proof.Machine.execVoteRequest die proposer term s
  | .ringmasterCommand die term reg value => Sys2Proof.Machine.execRingmasterCommand die term reg value s
  | .resetBoot image => Sys2Proof.Machine.execResetBoot image s
  | .lccmd cmd => Sys2Proof.Machine.execLccmd cmd s
  | .keyAllocate asid key => Sys2Proof.Machine.execKeyAllocate asid key s
  | .keyErase key => Sys2Proof.Machine.execKeyErase key s
  | .powerCeilingUpdate us iest waiting => Sys2Proof.Machine.execPowerCeilingUpdate us iest waiting s
  | .thermalLimitEnter die celsius => Sys2Proof.Machine.execThermalLimitEnter die celsius s
  | .thermalLimitLift die celsius => Sys2Proof.Machine.execThermalLimitLift die celsius s
  | .mbQuote fn => Sys2Proof.Machine.execMbQuote fn s
  | .mbGetcert fn => Sys2Proof.Machine.execMbGetcert fn s
  | .mbPwrwr fn => Sys2Proof.Machine.execMbPwrwr fn s
  | .mbPwrrd fn => Sys2Proof.Machine.execMbPwrrd fn s
  | .mbLogrd fn => Sys2Proof.Machine.execMbLogrd fn s
  | .mbLccmd fn => Sys2Proof.Machine.execMbLccmd fn s
  | .mbImage fn image => Sys2Proof.Machine.execMbImage fn image s
  | .mbHostasid fn => Sys2Proof.Machine.execMbHostasid fn s
  | .hostBar2Access fn kind addr data width => Sys2Proof.Machine.execHostBar2Access fn kind addr data width s
  | .registerWrite n unit value => Sys2Proof.Machine.execRegisterWrite n unit value s
  | .mbBadcmd fn => Sys2Proof.Machine.execMbBadcmd fn s
  | .qcfgEnWrite q en => Sys2Proof.Machine.execQcfgEnWrite q en s
  | .pfqheadWrite head => Sys2Proof.Machine.execPfqheadWrite head s
  | .debugAgentResume r resume => Sys2Proof.Machine.execDebugAgentResume r resume s
  | .tdiStateChange fn run => Sys2Proof.Machine.execTdiStateChange fn run s
  | .tetherPortLinkUp link => Sys2Proof.Machine.execTetherPortLinkUp link s
  | .tetherChildLoss node child => Sys2Proof.Machine.execTetherChildLoss node child s
  | .voteReceipt die source term => Sys2Proof.Machine.execVoteReceipt die source term s
  | .renewalAck die source term => Sys2Proof.Machine.execRenewalAck die source term s
  | .thrashHoldEnd unit => Sys2Proof.Machine.execThrashHoldEnd unit s
  | .pageRefill ctx wg page => Sys2Proof.Machine.execPageRefill ctx wg page s
  | .leaseExpiry die => Sys2Proof.Machine.execLeaseExpiry die s

end Sys2Proof.Machine
end

