-- ==== Sys2Proof/Machine/Turn.lean ====
section
/-!
DEFINITION. How the words of a cycle issue and how a word is fetched (R101-R103, R106, R225-R227; log entry 1). `step` only calls
what stands here.
-/

namespace Sys2Proof.Machine

/-! ### Sub-groups whose turn it is -/

/-- A sub-group waits at a word whose window has closed (R101). -/
def waitsAtWord (th : Thread) (g : Sub) : Bool :=
  th.pend.any fun p => p.lanes &&& g.mask != 0 && p.left == 0 && p.waitsFor fun _ => true

/-- A sub-group that may merge: it runs, performs no logged word again, does not wait at a word (R101), and no RCW has fixed its
lanes for its next word (R104). -/
def mayMerge (th : Thread) (g : Sub) : Bool := g.st == .run && g.replay == none && !g.fixed && !waitsAtWord th g

/-- Merge into the current sub-group those whose program counter equals its own (R101). -/
def mergeSubs (th : Thread) : Thread :=
  if mayMerge th th.grp then
    let same (g : Sub) : Bool := mayMerge th g && g.pc == th.grp.pc
    let mask := th.rest.foldl (fun m g => if same g then m ||| g.mask else m) th.grp.mask
    let role := th.grp.bcast || th.rest.any fun g => same g && g.bcast
    { th with grp := { th.grp with mask := mask, bcast := role }, rest := th.rest.filter fun g => !same g }
  else th

/-- The sub-group of some lanes has issued, and the turn passes to the others, in the order in which they have waited (R103). -/
def passTurn (m : LaneMask) (th : Thread) : Thread :=
  let subs := th.grp :: th.rest
  match (subs.filter fun g => g.mask &&& m == 0) ++ subs.filter fun g => g.mask &&& m != 0 with
  | [] => th
  | g :: r => { th with grp := g, rest := r }

/-- The next sub-group of the thread takes the turn (R103). -/
def nextSub (th : Thread) : Thread :=
  match th.rest with
  | [] => th
  | g :: r => { th with grp := g, rest := r ++ [th.grp] }

/-- A member of a cohort is still to be placed (R224). -/
def cohortWaits (s : State) (g : Workgroup) : Bool := (getCx s g.ctx).any fun x => x.toPlace.any fun p => p.2.2.1 == g.cohort

/-- An agent whose workgroup is resident with its whole cohort and not being stopped (R224, R359). -/
def awake (s : State) (t : Thread) : Bool :=
  t.status == .running && (match t.agent.place with
    | none => true
    | some (c, w) => (getWg s c w).any fun g => g.core.isSome && !g.stopping && !cohortWaits s g)

/-! ### What a sub-group waits for -/

/-- The step that completes a wait when its condition holds. -/
def releaseOf (r : SubRef) : Wait → Instr
  | .fence _ _ => .longLatencyResult r
  | .signal _ _ _ _ _ _ _ => .longLatencyResult r
  | .gen _ _ _ _ _ => .longLatencyResult r
  | .waddr _ _ _ _ _ => .waddrRelease r
  | .cm _ _ _ _ _ => .cmwaitRelease r
  | .tl _ _ _ => .tlwaitRelease r
  | .bar _ _ => .barwaitRelease r
  | .fork _ _ => .forkStart r
  | .rdv => .rdvRelease r
  | .cwait _ => .cwaitRelease r
  | .ph _ _ _ => .phwaitRelease r
  | .phwin _ _ _ _ _ _ => .phwaitRelease r
  | .seqend => .sequencerIdle r.ctx r.wg (r.troupe == 33)

/-- The looks that a cycle takes at the waits of the agents (R61, R119). -/
def waitsDue (s : State) : List Instr :=
  ((s.th :: s.threads).filter (awake s)).flatMap fun t => t.pend.filterMap fun p => match p.owed with
    | .wait w => some (releaseOf (refOf t.agent (lowLane p.lanes)) w)
    | .result _ _ _ => none

/-- The pending word of an agent has nothing more to wait for: its result is written before another word issues (R61), or its
refusal by another package is taken (R127, R414). -/
def Pend.settles (s : State) (t : Thread) (p : Pend) : Bool :=
  p.due || (p.refused && awake s t && !outsideHandler (bringFront t p.lanes) && !storesOut t)

/-- The step that a pending word is due for. -/
def dueStep (s : State) : Option Instr :=
  (s.th :: s.threads).findSome? fun t =>
    (t.pend.find? (Pend.settles s t)).map fun p => Instr.longLatencyResult (refOf t.agent (lowLane p.lanes))

/-! ### Time -/

/-- The nanoseconds by which pod time advances in the next cycle (R14, R296): 5 in 12 cycles; none while a count that was
ahead at the first lock holds still; one more or one fewer in each 12,000 cycles, which are 5,000 ns, while a correction is left. -/
def timeAdvance (s : State) : Nat × Tether :=
  let t := s.tether
  let dt := 5 * (s.clock + 1) / 12 - 5 * s.clock / 12
  if t.ahead ≠ 0 then (0, { t with ahead := t.ahead - dt })
  else if (s.clock + 1) % 12000 ≠ 0 ∨ t.slew = 0 then (dt, t)
  else if 0 < t.slew then (dt + 1, { t with slew := t.slew - 1 })
  else (dt - 1, { t with slew := t.slew + 1 })

/-- Roots whose node cycle ends (R292), releases whose time has come (R298), held signals that may leave (R295), and Curtains whose
signal has waited for the package's registration (R340). -/
def tetherDue (s : State) : List Instr :=
  let rel := (s.tether.nodes.filter fun x => x.2.pending.any fun p => decide (p.2.1 ≤ s.podTime)).map fun x => Instr.packageRelease x.1
  let held := (List.range 4).flatMap fun d =>
    let l := s.tether.held.filter fun x => x.die == d
    ((l.zip (List.range l.length)).filter fun x => heldReady s x.1).map fun x => Instr.boundSignalRelease d x.2
  let curtains := ((liveCxs s).filter fun x => x.quiet && x.cen && !x.podQuiet && x.open_ == 0 && !joinsYet s (.pod x.pcurt)).map fun x =>
    Instr.curtainQuiescent x.ctx
  rootsDue s ++ rel ++ held ++ curtains

/-- Timers that reach their time (R220), and the epochs of the throttle (R231). -/
def timersDue (s : State) : List Instr :=
  let due := (s.timers.filter fun t => t.2.due s.clock && !t.2.timer).map fun t => Instr.tcmpTimerEvent t.1
  due ++ if s.clock % 1024 = 0 then s.cores.map fun x => Instr.throttleEpochEnd x.1 else []

/-- WAIT commands look at their word again (R323). -/
def queuesDue (s : State) : List Instr :=
  s.queues.filterMap fun q => match q.2.cmd with
    | some (c, .fetched) => if cmdType c = 2 then some (.waitConditionMet q.1) else none
    | some (_, .page _) => none
    | some (_, .declined) => none
    | some (_, .measuring _) => none
    | some (_, .placing) => none
    | some (_, .sent _) => none
    | none => none

/-- Workgroups that have ended (R331), cohorts that are being stopped (R359), and columns that wait for their array (R401). -/
def endsDue (s : State) : List Instr :=
  ((allWgs s).filter fun g => !g.ended && wgDone s g).map (fun g => Instr.workgroupEnd g.ctx g.wgl)
    ++ (liveCxs s).flatMap (fun x => x.preempting.map fun k => Instr.preemptCohort x.ctx k)
    ++ ((s.ras.cols.filter fun x => !x.2.2).map fun x => Instr.matrixColumnSpare x.1)

/-- The ends of contexts that system software has ended go on (R362). -/
def goOnEnding (s : State) : State :=
  ((liveCxs s).filter fun x => x.ending && (allWgs s).any fun g => g.ctx == x.ctx && !g.ended).foldl
    (fun s x => nextOf s (execCtxctlEnd x.ctx s)) s

/-- The epochs of page homes (R364): after EPOCH × 10 µs of 2.4 GHz, every unit that has had requests considers a move. -/
def endEpochs (s : State) : State :=
  if s.clock % (24000 * bitsN s.trans.migcfg.toNat 9 2) = 0 then
    (s.trans.counts.filter fun e => !isHost (65536 * e.1)).foldl (fun s e => nextOf s (execMigrationEpochEnd e.1 s)) s
  else s

/-- The cohort that can resume (R329). -/
def resumeDue (s : State) : State :=
  match resumeNext s with
  | none => s
  | some i => { s with inputs := s.inputs ++ [i], free := s.free + 2 }

/-- The work-list caches write their records to the homes of their lists (R172, R237). -/
def drainCaches (s : State) : State := (s.cores.map Prod.fst).foldl drainWork s

/-- One cycle passes: the clock and pod time go on (R14), and what waits for time or for nobody's step becomes due. -/
def tickClock (s : State) : State :=
  let adv := timeAdvance s
  let s := restoreAll (drainCaches s)
  let s := endEpochs { s with clock := s.clock + 1, podTime := s.podTime + adv.1, tether := adv.2 }
  let s := resumeDue (goOnEnding s)
  { s with inputs := s.inputs ++ timersDue s ++ tetherDue s ++ queuesDue s ++ endsDue s ++ waitsDue s }

/-! ### Fetch -/

/-- A fetch meets a fault (R106): it is reported at its address with the word's trap registers zero, behind an earlier word whose
window has closed (R61) and behind the checks that another package still makes of earlier words (R127). -/
def fetchFault (s : State) (va : Nat) (e : Refused) : Out :=
  if heldBack s.th [] 0 0 || unchecked s.th || storesOut s.th then .next s else
  let lane := lowLane s.th.grp.mask
  let trap (s : State) : Out := .next (takeTrap s e.1 lane false ⟨0, 0, 0, 0, 0⟩ [])
  let rec_ := writeFault s va (curAsid s) e s.th.agent.faultCode s.wg.ctx s.wg.wgl s.th.ident.core .fetch
  if e.1 = .page then
    match rec_ with
    | none => .next s
    | some (id, s) => .next (s.setTh { s.th with grp := { s.th.grp with st := .page id lane } })
  else if outsideHandler s.th then .next s
  else if e.1 = .prot then
    match rec_ with
    | none => trap s
    | some (_, s) => trap s
  else trap s

/-- A word touches the pages of its registers and the state page of its troupe or workgroup, and a word of groups 10 to 14 that of its
workgroup (R19, R361). -/
def touchWord (i : Instr) (s : State) : State :=
  if s.wg.pages.isEmpty then s
  else
    let own := if decide (640 ≤ i.opcode) && decide (i.opcode < 960) then [s.wg.troupes * (regPages s.wg + 1)] else []
    touchPages s s.wg.ctx s.wg.wgl
      (own ++ wordPages s.wg s.th.agent (i.uses.map fun u => (max (roleReads u.1) (roleWrites u.1), u.2)))

/-- Decode a word for the agent that issues and run it (R63-R65). -/
def runWord (ex : Instr → State → Out) (s : State) (w : DWord) : Out :=
  match decode s.th.agent.engine s.th.nregs w with
  | .ok i => ex i (touchWord i s)
  | .error b => ex (.reservedEncodingTrap b) s

/-- Fetch the word at the program counter and run it (R47, R106, R346). -/
def fetchRun (ex : Instr → State → Out) (s : State) : Out :=
  let va := s.th.grp.pc.toNat
  match s.th.grp.replay with
  | some lw => runWord ex s lw.word
  | none =>
    if isWindow va then fetchFault s va (.window, 0)
    else
      match translate s (curTlb s) (curAsid s) va ⟨.fetch, s.th.agent.privileged, none, false⟩ with
      | (.error e, s) => fetchFault s va e
      | (.ok (pa, key), s) =>
        if inDirectory pa then .fault .originDirectory
        else if homedHere s pa || isHost pa then runWord ex s (BitVec.ofNat 64 (memNat s key pa 8))
        else
          match peek s 32 8 (.mem pa key) with
          | some (b, _) => runWord ex s (BitVec.ofNat 64 (ofBytes b))
          | none => .next (askLines s 8 [.mem pa key])

/-- The matrix sequencer issues nothing while an assist of its workgroup is in flight (R44, R46). -/
def assistHolds (s : State) : Bool :=
  match s.th.agent with
  | .matrix _ _ => s.wg.mq.any fun x => x.phase == .assist || x.phase == .assistWait
  | .troupe _ _ _ => false
  | .copy _ _ => false
  | .control _ => false
  | .firmware _ => false

/-- The sub-group whose turn it is can issue. -/
def canIssue (th : Thread) : Bool := th.status == .running && th.grp.st == .run && th.grp.mask != 0

/-! ### Schedulers -/

/-- What an agent issues through (R225, R226): troupe t of a workgroup through scheduler t mod 4 of its core. -/
def portOf (t : Thread) : IssuePort :=
  match t.agent with
  | .troupe _ _ n => .scheduler t.ident.core (n % 4)
  | .matrix c w => .single (.matrix c w)
  | .copy c w => .single (.copy c w)
  | .control c => .single (.control c)
  | .firmware d => .single (.firmware d)

/-- The agents that issue through a port. -/
def atPort (s : State) (p : IssuePort) : List Thread := (s.th :: s.threads).filter fun t => awake s t && portOf t == p

/-- The slot that issued last on a scheduler (R226). -/
def lastSlotOf (s : State) : IssuePort → Nat
  | .scheduler core j => tget 15 (s.core core).lastSlot j
  | .single _ => 15

/-- The priority of the launch of an agent (R226, R329). -/
def prioOf (s : State) (t : Thread) : Nat := ((t.agent.place.bind fun k => getCx s k.1).map Context.prio).getD 0

/-- The agents of a port in the order in which it takes the first that is ready (R226, R227): those whose wait count has reached 256,
the highest count first, and then by priority and by slots in rotating order after the one that issued last. -/
def turnOrder (s : State) (p : IssuePort) : List Agent :=
  let last := lastSlotOf s p
  let ts := atPort s p
  let late := sortBy (fun x y => decide (y.waited < x.waited) || (x.waited == y.waited && decide (x.slot < y.slot)))
    (ts.filter fun t => decide (256 ≤ t.waited))
  let rank (t : Thread) : Nat := (t.slot + 15 - last) % 16
  let rest := sortBy (fun x y => decide (prioOf s y < prioOf s x) || (prioOf s x == prioOf s y && decide (rank x < rank y)))
    (ts.filter fun t => decide (t.waited < 256))
  (late ++ rest).map Thread.agent

/-- The agent has issued a word, and not only looked whether it can. -/
def acted (a b : Thread) : Bool :=
  a.issues != b.issues || a.grp.pc != b.grp.pc || a.grp.st != b.grp.st || a.grp.mask != b.grp.mask || a.status != b.status
    || a.handler != b.handler

/-- The current sub-group goes to issue: sub-groups at its address have joined it (R101), and no YIELD withholds it. -/
def goes (s : State) : State :=
  let th := mergeSubs s.th
  s.setTh { th with grp := { th.grp with yielded := none } }

/-- The current sub-group issues its next word: what the step answers, or none where the word must wait, with the state that is left
then. -/
def tryWord (ex : Instr → State → Out) (s : State) : Option Out × State :=
  let t := goes s
  if canIssue t.th && !assistHolds t then
    match fetchRun ex t with
    | .next u =>
      if acted t.th u.th then (some (.next u), s)
      else (none, u.setTh { u.th with grp := { u.th.grp with yielded := s.th.grp.yielded } })
    | .fault e => (some (.fault e), s)
    | .refused r => (some (.refused r), s)
  else (none, s)

/-- The next sub-group of the current agent that can issue does so, in rotating order (R103); `may` names those that no YIELD
withholds. -/
def trySubs (ex : Instr → State → Out) (may : Sub → Bool) : Nat → State → Option Out × State
  | 0, s => (none, s)
  | n + 1, s =>
    match if may s.th.grp then tryWord ex s else (none, s) with
    | (some o, u) => (some o, u)
    | (none, u) => trySubs ex may n (u.setTh (nextSub u.th))

/-- The sub-groups of the current agent. -/
def subCount (s : State) : Nat := s.th.rest.length + 1

/-- The sub-group performs again a word that has faulted (R128). -/
def Sub.owesReplay (g : Sub) : Bool := g.st == .run && g.replay.any fun w => w.faulted != 0

/-- A troupe that has resumed issues its pending replays before its other words (R361). -/
def replayFirst (th : Thread) (g : Sub) : Bool := !th.resumed || g.owesReplay || !(th.grp :: th.rest).any Sub.owesReplay

/-- Whether an agent is ready (R103, R226), one of its sub-groups being able to issue, and whether the throttle refuses it a memory
word on the way (R231). -/
def lookAt (ex : Instr → State → Out) (s : State) (a : Agent) : Bool × Bool :=
  match focus s a with
  | none => (false, false)
  | some u =>
    let r := trySubs ex (fun g => g.yielded.isNone && replayFirst u.th g) (subCount u) u
    (r.1.isSome, throttleRefused r.2)

/-- An agent is ready (R103, R226). -/
def readyAgent (ex : Instr → State → Out) (s : State) (a : Agent) : Bool := (lookAt ex s a).1

/-- Another sub-group of the current agent, with a lane outside a mask, is ready (R103, R109). -/
def readyBeside (ex : Instr → State → Out) (s : State) (g : Sub) (m : LaneMask) : Bool :=
  (s.th.grp :: s.th.rest).any fun h =>
    h.mask != g.mask && h.yielded.isNone && h.mask &&& ~~~m != 0 && (tryWord ex (s.setTh (bringFront s.th h.mask))).1.isSome

/-- No YIELD withholds the sub-group: every other ready sub-group of its troupe and every other ready agent of its scheduler has issued
since (R109). `u` is the state with its agent current. -/
def notWithheld (ex : Instr → State → Out) (s u : State) (a : Agent) (others : List Agent) (g : Sub) : Bool :=
  match g.yielded with
  | none => true
  | some (done, m) => !(readyBeside ex u g m) && !(others.any fun b => b != a && !done.contains b && readyAgent ex s b)

/-- Sub-groups that a YIELD withholds hear what has issued: an agent, or lanes of their own troupe (R109). -/
def hearIssue (f : List Agent × LaneMask → List Agent × LaneMask) (t : Thread) : Thread :=
  let g (g : Sub) : Sub := { g with yielded := g.yielded.map f }
  { t with grp := g t.grp, rest := t.rest.map g }

/-- An agent of a port has issued with the lanes of a mask (R103, R109, R226, R227): the turn among its sub-groups passes on, its wait
count is 0, that of every other troupe that was ready rises, those to which the throttle refuses a memory word are noted (R231), and the
port starts after its slot in the next cycle. `s` is the state before. -/
def issuedAt (ex : Instr → State → Out) (p : IssuePort) (a : Agent) (m : LaneMask) (others : List Agent) (s u : State) : State :=
  let seen := (others.filter fun b => b != a).map fun b => (b, lookAt ex s b)
  let f (t : Thread) : Thread :=
    if t.agent = a then
      let t := hearIssue (fun y => (y.1, y.2 ||| m)) (passTurn m t)
      { t with waited := 0, resumed := t.resumed && (t.grp :: t.rest).any Sub.owesReplay }
    else if portOf t = p then
      let t := hearIssue (fun y => (if y.1.contains a then y.1 else y.1 ++ [a], y.2)) t
      { t with waited := if seen.any fun x => x.1 == t.agent && x.2.1 then t.waited + 1 else t.waited }
    else t
  let slot := (((u.th :: u.threads).find? fun t => t.agent == a).map Thread.slot).getD 0
  let turned := ((s.th :: s.threads).filter fun t => seen.any fun x => x.1 == t.agent && x.2.2).foldl (fun s t => refuseSlot s t.ident.core t.slotNo) u
  let u := { turned with th := f u.th, threads := u.threads.map f }
  match p with
  | .scheduler core j => u.setCore core { u.core core with lastSlot := tset 15 (u.core core).lastSlot j slot }
  | .single _ => u

/-- A port issues at most one word: that of the first of its agents that is ready (R226). What the others did while they looked whether
they could is kept. -/
def servePort (ex : Instr → State → Out) (p : IssuePort) (all : List Agent) : List Agent → State → Out
  | [], s => .next s
  | a :: r, s =>
    match focus s a with
    | none => servePort ex p all r s
    | some u =>
      match trySubs ex (fun g => notWithheld ex s u a all g && replayFirst u.th g) (subCount u) u with
      | (some (.next v), w) => .next (issuedAt ex p a (goes w).th.grp.mask all s v)
      | (some o, _) => o
      | (none, v) => servePort ex p all r v

/-- A cycle begins: time passes, and every port has its turn, in increasing core number, in which what they ask of one unit in one cycle
is served (R45, R335). -/
def openCycle (s : State) : State :=
  let s := tickClock s
  let ts := sortBy (fun x y => decide (x.ident.core < y.ident.core)) ((s.th :: s.threads).filter (awake s))
  { s with turns := (ts.map portOf).eraseDups }

/-- What a step has changed of the workgroups that are swapped out reaches their save areas (R359, R360). -/
def backed (s : State) : Out → Out
  | .next t => .next (backChanges s t)
  | .fault f => .fault f
  | .refused r => .refused r

/-- One step, given what executes an instruction: the first device step that is due; else a pending word that is due; else the next
port of the cycle issues; else a cycle begins. -/
def stepWith (ex : Instr → State → Out) (s : State) : Out :=
  match s.inputs with
  | i :: r => backed s (ex i { s with inputs := r })
  | [] =>
    match dueStep s with
    | some i => backed s (ex i s)
    | none =>
      match s.turns with
      | [] => .next (openCycle s)
      | p :: r =>
        let l := turnOrder s p
        backed s (servePort ex p l l { s with turns := r })

/-! ### Placing a word -/

/-- The agent that runs a word that is placed from outside, by engine. -/
def placedAgent : Engine → Agent
  | .troupe => .troupe 0 0 0
  | .matrix => .matrix 0 0
  | .copy => .copy 0 0
  | .control => .control 0
  | .firmware => .firmware 0

/-- A word is loaded from outside, and an agent that can run it stands at it with the turn (log entry 10): its code page is
translated, its workgroup and context are live. -/
def placeWord (s : State) (w : DWord) : State :=
  let e := ((decodeAny w).map Prod.fst).getD .troupe
  let th : Thread :=
    if s.th.status = .running && s.th.agent.engine = e && s.th.grp.mask != 0 then
      { s.th with grp := { s.th.grp with replay := none, st := .run, yielded := none }, pend := [], waited := 256 }
    else
      let lanes : LaneMask := if e = .troupe then 0xffffffff else 1
      let t := Thread.fresh (placedAgent e) .running lanes
      { t with grp := { t.grp with pc := 0x10000 }, waited := 256 }
  let wg := if !th.agent.hasWg then s.wg
    else if !s.wg.placed then { Workgroup.none with placed := true, core := some 0, troupes := 1, nregs := 256 }
    else { s.wg with core := some (s.wg.core.getD 0), stopping := false }
  let page := th.grp.pc.toNat / 65536 * 65536
  let cx := if !th.agent.hasWg then s.cx
    else if !s.cx.live then
      { Context.none with live := true, troupes := 1, regs := 256, wcount := 1, codeLo := page, codeHi := page + 65536,
                            codeUnits := [(s.pkg * 2 ^ 39 + 0x10000) / 65536] }
    else if s.cx.codeLo ≤ page ∧ page < s.cx.codeHi then s.cx
    else { s.cx with codeLo := page, codeHi := page + 65536, codeUnits := [(s.pkg * 2 ^ 39 + 0x10000) / 65536] }
  let s := { s with th := th, wg := wg, cx := cx, inputs := [], turns := [portOf th],
                    threads := (s.threads.filter fun t => !(t.agent == th.agent)).map fun t =>
                      if portOf t = portOf th then { t with waited := min t.waited 255 } else t }
  let va := th.grp.pc.toNat
  let page := va / 65536 * 65536
  let pa := s.pkg * 2 ^ 39 + 0x10000
  let t : TlbEntry := ⟨curAsid s, spaceGen s (curAsid s), page, 65536, pa, true, true, true, false, true, 0⟩
  let s := memPut s 0 (pa + va % 65536) (toBytes 8 w.toNat)
  { s with tlbs := tset [] s.tlbs (curTlb s) (t :: tget [] s.tlbs (curTlb s)) }

end Sys2Proof.Machine
end

