-- ==== Sys2Proof/Machine/Step.lean ====
section
/-!
DEFINITION. One step of the machine (R101, R103, R226): a device step that is due, or the next word of the agent whose turn it
is, or the completion of what it waits for. Log entry 1 says how turns are given.
-/

namespace Sys2Proof.Machine

/-- What one step answers. -/
def step (s : State) : Host.Outcome State Fault Refusal := stepWith exec s

/-- The state with an instruction stored where `step` fetches its next one (log entry 10). -/
def State.withFetchWord (s : State) (nbits w : Nat) : State := placeWord s (BitVec.ofNat 64 (w % 2 ^ nbits))

end Sys2Proof.Machine
end

