-- ==== Sys2Proof/Laws/Table.lean ====
section
/-!
SUPPORT. The laws of tables: what a read gives after a write, and that every operation keeps the canonical form.
-/

namespace Sys2Proof.Machine

variable {α : Type}

/-- Every key of the table lies above `n`. -/
def above (n : Nat) (m : TMap α) : Prop := ∀ e ∈ m, n < e.1

/-- What the canonical form of a table with a first entry says. -/
theorem twf_cons [DecidableEq α] (d : α) (k : Nat) (x : α) (m : TMap α) :
    twf d ((k, x) :: m) = true ↔ above k m ∧ x ≠ d ∧ twf d m = true := by
  simp only [twf, above, List.pairwise_cons, List.all_cons, Bool.and_eq_true, decide_eq_true_eq]
  constructor
  · rintro ⟨⟨h1, h2⟩, h3, h4⟩; exact ⟨h1, h3, h2, h4⟩
  · rintro ⟨h1, h3, h2, h4⟩; exact ⟨⟨h1, h2⟩, h3, h4⟩

/-- The empty table is canonical. -/
@[simp] theorem twf_nil [DecidableEq α] (d : α) : twf d ([] : TMap α) = true := rfl

/-- Erasing a key lists nothing new. -/
theorem mem_terase (m : TMap α) (n : Nat) (e : Nat × α) (h : e ∈ terase m n) : e ∈ m ∧ e.1 ≠ n := by
  induction m with
  | nil => simp [terase] at h
  | cons a r ih =>
    obtain ⟨k, x⟩ := a
    by_cases hk : k = n
    · simp only [terase, hk, ↓reduceIte] at h
      exact ⟨List.mem_cons_of_mem _ (ih h).1, (ih h).2⟩
    · simp only [terase, hk, ↓reduceIte, List.mem_cons] at h
      rcases h with rfl | h
      · exact ⟨List.mem_cons_self, hk⟩
      · exact ⟨List.mem_cons_of_mem _ (ih h).1, (ih h).2⟩

/-- Inserting a key lists that entry and nothing else that is new. -/
theorem mem_tinsert (m : TMap α) (n : Nat) (x : α) (e : Nat × α) (h : e ∈ tinsert m n x) : e = (n, x) ∨ e ∈ m := by
  induction m with
  | nil => simpa [tinsert] using h
  | cons a r ih =>
    obtain ⟨k, y⟩ := a
    simp only [tinsert] at h
    split at h
    · simpa using h
    · rcases List.mem_cons.1 h with rfl | h
      · exact .inr List.mem_cons_self
      · exact (ih h).imp id (List.mem_cons_of_mem _)

/-- Erasing keeps the canonical form. -/
theorem twf_terase [DecidableEq α] (d : α) (m : TMap α) (n : Nat) (h : twf d m = true) : twf d (terase m n) = true := by
  induction m with
  | nil => rfl
  | cons a r ih =>
    obtain ⟨k, x⟩ := a
    obtain ⟨h1, h2, h3⟩ := (twf_cons d k x r).1 h
    by_cases hk : k = n
    · simpa [terase, hk] using ih h3
    · simpa [terase, hk] using (twf_cons d k x _).2 ⟨fun e he => h1 e (mem_terase r n e he).1, h2, ih h3⟩

/-- Inserting a key that the table does not list keeps the canonical form. -/
theorem twf_tinsert [DecidableEq α] (d : α) (m : TMap α) (n : Nat) (x : α) (hx : x ≠ d)
    (hn : ∀ e ∈ m, e.1 ≠ n) (h : twf d m = true) : twf d (tinsert m n x) = true := by
  induction m with
  | nil => exact (twf_cons d n x []).2 ⟨by simp [above], hx, rfl⟩
  | cons a r ih =>
    obtain ⟨k, y⟩ := a
    obtain ⟨h1, h2, h3⟩ := (twf_cons d k y r).1 h
    have hne : k ≠ n := hn _ List.mem_cons_self
    by_cases hk : n < k
    · simp only [tinsert, hk, ↓reduceIte]
      refine (twf_cons d n x _).2 ⟨fun e he => ?_, hx, h⟩
      rcases List.mem_cons.1 he with rfl | he
      · exact hk
      · exact Nat.lt_trans hk (h1 e he)
    · simp only [tinsert, hk, ↓reduceIte]
      refine (twf_cons d k y _).2 ⟨fun e he => ?_, h2, ih (fun e he => hn e (List.mem_cons_of_mem _ he)) h3⟩
      rcases mem_tinsert r n x e he with rfl | he
      · exact Nat.lt_of_le_of_ne (Nat.le_of_not_lt hk) hne
      · exact h1 e he

/-- A write keeps the canonical form. -/
theorem twf_tset [DecidableEq α] (d : α) (m : TMap α) (n : Nat) (x : α) (h : twf d m = true) : twf d (tset d m n x) = true := by
  unfold tset
  split
  · exact twf_terase d m n h
  · next hx => exact twf_tinsert d _ n x hx (fun e he => (mem_terase m n e he).2) (twf_terase d m n h)

/-- A filter of entries keeps the canonical form. -/
theorem twf_filter [DecidableEq α] (d : α) (f : Nat × α → Bool) (m : TMap α) (h : twf d m = true) :
    twf d (m.filter f) = true := by
  simp only [twf, Bool.and_eq_true, decide_eq_true_eq, List.all_eq_true] at h ⊢
  exact ⟨h.1.filter f, fun e he => h.2 e (List.mem_filter.1 he).1⟩

/-- Putting canonical entries of a range in place of what the range lists keeps the canonical form. -/
theorem twf_tsplice [DecidableEq α] (d : α) (m new : TMap α) (lo hi : Nat) (h : twf d m = true) (hn : twf d new = true)
    (hlo : ∀ e ∈ new, lo ≤ e.1) (hhi : ∀ e ∈ new, e.1 < hi) (hle : lo ≤ hi) : twf d (tsplice m lo hi new) = true := by
  simp only [twf, Bool.and_eq_true, decide_eq_true_eq, List.all_eq_true] at h hn ⊢
  refine ⟨?_, fun e he => ?_⟩
  · refine List.pairwise_append.2 ⟨List.pairwise_append.2 ⟨h.1.filter _, hn.1, fun a ha b hb => ?_⟩, h.1.filter _, fun a ha b hb => ?_⟩
    · have := hlo b hb
      have := (List.mem_filter.1 ha).2
      simp only [decide_eq_true_eq] at this
      omega
    · have hb' := (List.mem_filter.1 hb).2
      simp only [decide_eq_true_eq] at hb'
      rcases List.mem_append.1 ha with ha | ha
      · have := (List.mem_filter.1 ha).2
        simp only [decide_eq_true_eq] at this
        omega
      · have := hhi a ha
        omega
  · rcases List.mem_append.1 he with he | he
    · rcases List.mem_append.1 he with he | he
      · exact h.2 e (List.mem_filter.1 he).1
      · exact hn.2 e he
    · exact h.2 e (List.mem_filter.1 he).1

/-- The entries of a list of values from a key on, those that are not the default, are canonical. -/
theorem twf_run [DecidableEq α] (d : α) (lo n : Nat) (f : Nat → α) :
    twf d (((List.range n).map fun i => (lo + i, f i)).filter fun e => decide (e.2 ≠ d)) = true := by
  simp only [twf, Bool.and_eq_true, decide_eq_true_eq, List.all_eq_true]
  refine ⟨List.Pairwise.filter _ ((List.pairwise_map).2 ?_), fun e he => by simpa using (List.mem_filter.1 he).2⟩
  exact (List.pairwise_lt_range (n := n)).imp fun h => by simpa using h

@[simp] theorem tget_nil (d : α) (n : Nat) : tget d [] n = d := rfl

/-- An erased key reads as the default. -/
theorem tget_terase_self (d : α) (m : TMap α) (n : Nat) : tget d (terase m n) n = d := by
  induction m with
  | nil => rfl
  | cons a r ih =>
    obtain ⟨k, x⟩ := a
    by_cases hk : k = n <;> simp [terase, tget, hk, ih]

/-- Erasing leaves every other key. -/
theorem tget_terase_ne (d : α) (m : TMap α) (n k : Nat) (h : k ≠ n) : tget d (terase m n) k = tget d m k := by
  induction m with
  | nil => rfl
  | cons a r ih =>
    obtain ⟨j, x⟩ := a
    by_cases hj : j = n
    · subst hj
      simp [terase, tget, ih, Ne.symm h]
    · simp [terase, tget, hj, ih]

/-- An inserted key reads as it was inserted. -/
theorem tget_tinsert_self (d : α) (m : TMap α) (n : Nat) (x : α) (h : ∀ e ∈ m, e.1 ≠ n) : tget d (tinsert m n x) n = x := by
  induction m with
  | nil => simp [tinsert, tget]
  | cons a r ih =>
    obtain ⟨j, y⟩ := a
    have hj : j ≠ n := h _ List.mem_cons_self
    by_cases hlt : n < j
    · simp [tinsert, tget, hlt]
    · simp [tinsert, tget, hlt, hj, ih fun e he => h e (List.mem_cons_of_mem _ he)]

/-- Inserting leaves every other key. -/
theorem tget_tinsert_ne (d : α) (m : TMap α) (n k : Nat) (x : α) (h : k ≠ n) : tget d (tinsert m n x) k = tget d m k := by
  induction m with
  | nil => simp [tinsert, tget, Ne.symm h]
  | cons a r ih =>
    obtain ⟨j, y⟩ := a
    by_cases hlt : n < j
    · simp [tinsert, tget, hlt, Ne.symm h]
    · simp [tinsert, tget, hlt, ih]

/-- A key reads as it was written. -/
@[simp] theorem tget_tset_self [DecidableEq α] (d : α) (m : TMap α) (n : Nat) (x : α) : tget d (tset d m n x) n = x := by
  unfold tset
  split
  · next h => rw [tget_terase_self, h]
  · exact tget_tinsert_self d _ n x fun e he => (mem_terase m n e he).2

/-- A write leaves every other key. -/
theorem tget_tset_ne [DecidableEq α] (d : α) (m : TMap α) (n k : Nat) (x : α) (h : k ≠ n) :
    tget d (tset d m n x) k = tget d m k := by
  unfold tset
  split
  · exact tget_terase_ne d m n k h
  · rw [tget_tinsert_ne d _ n k x h, tget_terase_ne d m n k h]

/-- What a key reads as after a write. -/
theorem tget_tset [DecidableEq α] (d : α) (m : TMap α) (n k : Nat) (x : α) :
    tget d (tset d m n x) k = if k = n then x else tget d m k := by
  split
  · next h => subst h; exact tget_tset_self d m k x
  · next h => exact tget_tset_ne d m n k x h

end Sys2Proof.Machine
end

