-- ==== Sys2Proof/Laws/State.lean ====
section
/-!
SUPPORT. What each update of the state leaves and writes, one lemma per field, so that no proof unfolds a record update.
-/

namespace Sys2Proof.Machine

/-! ### `State.setTh` -/

@[simp] theorem State.setTh_pkg (s : State) (t : Thread) : (s.setTh t).pkg = s.pkg := rfl
@[simp] theorem State.setTh_debug (s : State) (t : Thread) : (s.setTh t).debug = s.debug := rfl
@[simp] theorem State.setTh_clock (s : State) (t : Thread) : (s.setTh t).clock = s.clock := rfl
@[simp] theorem State.setTh_podTime (s : State) (t : Thread) : (s.setTh t).podTime = s.podTime := rfl
@[simp] theorem State.setTh_inputs (s : State) (t : Thread) : (s.setTh t).inputs = s.inputs := rfl
@[simp] theorem State.setTh_turns (s : State) (t : Thread) : (s.setTh t).turns = s.turns := rfl
@[simp] theorem State.setTh_free (s : State) (t : Thread) : (s.setTh t).free = s.free := rfl
@[simp] theorem State.setTh_th (s : State) (t : Thread) : (s.setTh t).th = t := rfl
@[simp] theorem State.setTh_wg (s : State) (t : Thread) : (s.setTh t).wg = s.wg := rfl
@[simp] theorem State.setTh_cx (s : State) (t : Thread) : (s.setTh t).cx = s.cx := rfl
@[simp] theorem State.setTh_threads (s : State) (t : Thread) : (s.setTh t).threads = s.threads := rfl
@[simp] theorem State.setTh_wgs (s : State) (t : Thread) : (s.setTh t).wgs = s.wgs := rfl
@[simp] theorem State.setTh_cxs (s : State) (t : Thread) : (s.setTh t).cxs = s.cxs := rfl
@[simp] theorem State.setTh_mem (s : State) (t : Thread) : (s.setTh t).mem = s.mem := rfl
@[simp] theorem State.setTh_memMark (s : State) (t : Thread) : (s.setTh t).memMark = s.memMark := rfl
@[simp] theorem State.setTh_lineKey (s : State) (t : Thread) : (s.setTh t).lineKey = s.lineKey := rfl
@[simp] theorem State.setTh_keys (s : State) (t : Thread) : (s.setTh t).keys = s.keys := rfl
@[simp] theorem State.setTh_trans (s : State) (t : Thread) : (s.setTh t).trans = s.trans := rfl
@[simp] theorem State.setTh_tlbs (s : State) (t : Thread) : (s.setTh t).tlbs = s.tlbs := rfl
@[simp] theorem State.setTh_walkers (s : State) (t : Thread) : (s.setTh t).walkers = s.walkers := rfl
@[simp] theorem State.setTh_cores (s : State) (t : Thread) : (s.setTh t).cores = s.cores := rfl
@[simp] theorem State.setTh_dies (s : State) (t : Thread) : (s.setTh t).dies = s.dies := rfl
@[simp] theorem State.setTh_assists (s : State) (t : Thread) : (s.setTh t).assists = s.assists := rfl
@[simp] theorem State.setTh_timers (s : State) (t : Thread) : (s.setTh t).timers = s.timers := rfl
@[simp] theorem State.setTh_sends (s : State) (t : Thread) : (s.setTh t).sends = s.sends := rfl
@[simp] theorem State.setTh_fabric (s : State) (t : Thread) : (s.setTh t).fabric = s.fabric := rfl
@[simp] theorem State.setTh_carousels (s : State) (t : Thread) : (s.setTh t).carousels = s.carousels := rfl
@[simp] theorem State.setTh_nocs (s : State) (t : Thread) : (s.setTh t).nocs = s.nocs := rfl
@[simp] theorem State.setTh_tether (s : State) (t : Thread) : (s.setTh t).tether = s.tether := rfl
@[simp] theorem State.setTh_colls (s : State) (t : Thread) : (s.setTh t).colls = s.colls := rfl
@[simp] theorem State.setTh_collq (s : State) (t : Thread) : (s.setTh t).collq = s.collq := rfl
@[simp] theorem State.setTh_collLagged (s : State) (t : Thread) : (s.setTh t).collLagged = s.collLagged := rfl
@[simp] theorem State.setTh_collcfg (s : State) (t : Thread) : (s.setTh t).collcfg = s.collcfg := rfl
@[simp] theorem State.setTh_forward (s : State) (t : Thread) : (s.setTh t).forward = s.forward := rfl
@[simp] theorem State.setTh_queues (s : State) (t : Thread) : (s.setTh t).queues = s.queues := rfl
@[simp] theorem State.setTh_launches (s : State) (t : Thread) : (s.setTh t).launches = s.launches := rfl
@[simp] theorem State.setTh_ras (s : State) (t : Thread) : (s.setTh t).ras = s.ras := rfl
@[simp] theorem State.setTh_trust (s : State) (t : Thread) : (s.setTh t).trust = s.trust := rfl
@[simp] theorem State.setTh_power (s : State) (t : Thread) : (s.setTh t).power = s.power := rfl
@[simp] theorem State.setTh_mailboxes (s : State) (t : Thread) : (s.setTh t).mailboxes = s.mailboxes := rfl
@[simp] theorem State.setTh_host (s : State) (t : Thread) : (s.setTh t).host = s.host := rfl

/-! ### `State.setFab` -/

@[simp] theorem State.setFab_pkg (s : State) (f : Fabric) : (s.setFab f).pkg = s.pkg := rfl
@[simp] theorem State.setFab_debug (s : State) (f : Fabric) : (s.setFab f).debug = s.debug := rfl
@[simp] theorem State.setFab_clock (s : State) (f : Fabric) : (s.setFab f).clock = s.clock := rfl
@[simp] theorem State.setFab_podTime (s : State) (f : Fabric) : (s.setFab f).podTime = s.podTime := rfl
@[simp] theorem State.setFab_inputs (s : State) (f : Fabric) : (s.setFab f).inputs = s.inputs := rfl
@[simp] theorem State.setFab_turns (s : State) (f : Fabric) : (s.setFab f).turns = s.turns := rfl
@[simp] theorem State.setFab_free (s : State) (f : Fabric) : (s.setFab f).free = s.free := rfl
@[simp] theorem State.setFab_th (s : State) (f : Fabric) : (s.setFab f).th = s.th := rfl
@[simp] theorem State.setFab_wg (s : State) (f : Fabric) : (s.setFab f).wg = s.wg := rfl
@[simp] theorem State.setFab_cx (s : State) (f : Fabric) : (s.setFab f).cx = s.cx := rfl
@[simp] theorem State.setFab_threads (s : State) (f : Fabric) : (s.setFab f).threads = s.threads := rfl
@[simp] theorem State.setFab_wgs (s : State) (f : Fabric) : (s.setFab f).wgs = s.wgs := rfl
@[simp] theorem State.setFab_cxs (s : State) (f : Fabric) : (s.setFab f).cxs = s.cxs := rfl
@[simp] theorem State.setFab_mem (s : State) (f : Fabric) : (s.setFab f).mem = s.mem := rfl
@[simp] theorem State.setFab_memMark (s : State) (f : Fabric) : (s.setFab f).memMark = s.memMark := rfl
@[simp] theorem State.setFab_lineKey (s : State) (f : Fabric) : (s.setFab f).lineKey = s.lineKey := rfl
@[simp] theorem State.setFab_keys (s : State) (f : Fabric) : (s.setFab f).keys = s.keys := rfl
@[simp] theorem State.setFab_trans (s : State) (f : Fabric) : (s.setFab f).trans = s.trans := rfl
@[simp] theorem State.setFab_tlbs (s : State) (f : Fabric) : (s.setFab f).tlbs = s.tlbs := rfl
@[simp] theorem State.setFab_walkers (s : State) (f : Fabric) : (s.setFab f).walkers = s.walkers := rfl
@[simp] theorem State.setFab_cores (s : State) (f : Fabric) : (s.setFab f).cores = s.cores := rfl
@[simp] theorem State.setFab_dies (s : State) (f : Fabric) : (s.setFab f).dies = s.dies := rfl
@[simp] theorem State.setFab_assists (s : State) (f : Fabric) : (s.setFab f).assists = s.assists := rfl
@[simp] theorem State.setFab_timers (s : State) (f : Fabric) : (s.setFab f).timers = s.timers := rfl
@[simp] theorem State.setFab_sends (s : State) (f : Fabric) : (s.setFab f).sends = s.sends := rfl
@[simp] theorem State.setFab_fabric (s : State) (f : Fabric) : (s.setFab f).fabric = f := rfl
@[simp] theorem State.setFab_carousels (s : State) (f : Fabric) : (s.setFab f).carousels = s.carousels := rfl
@[simp] theorem State.setFab_nocs (s : State) (f : Fabric) : (s.setFab f).nocs = s.nocs := rfl
@[simp] theorem State.setFab_tether (s : State) (f : Fabric) : (s.setFab f).tether = s.tether := rfl
@[simp] theorem State.setFab_colls (s : State) (f : Fabric) : (s.setFab f).colls = s.colls := rfl
@[simp] theorem State.setFab_collq (s : State) (f : Fabric) : (s.setFab f).collq = s.collq := rfl
@[simp] theorem State.setFab_collLagged (s : State) (f : Fabric) : (s.setFab f).collLagged = s.collLagged := rfl
@[simp] theorem State.setFab_collcfg (s : State) (f : Fabric) : (s.setFab f).collcfg = s.collcfg := rfl
@[simp] theorem State.setFab_forward (s : State) (f : Fabric) : (s.setFab f).forward = s.forward := rfl
@[simp] theorem State.setFab_queues (s : State) (f : Fabric) : (s.setFab f).queues = s.queues := rfl
@[simp] theorem State.setFab_launches (s : State) (f : Fabric) : (s.setFab f).launches = s.launches := rfl
@[simp] theorem State.setFab_ras (s : State) (f : Fabric) : (s.setFab f).ras = s.ras := rfl
@[simp] theorem State.setFab_trust (s : State) (f : Fabric) : (s.setFab f).trust = s.trust := rfl
@[simp] theorem State.setFab_power (s : State) (f : Fabric) : (s.setFab f).power = s.power := rfl
@[simp] theorem State.setFab_mailboxes (s : State) (f : Fabric) : (s.setFab f).mailboxes = s.mailboxes := rfl
@[simp] theorem State.setFab_host (s : State) (f : Fabric) : (s.setFab f).host = s.host := rfl

/-! ### `State.setTether` -/

@[simp] theorem State.setTether_pkg (s : State) (t : Tether) : (s.setTether t).pkg = s.pkg := rfl
@[simp] theorem State.setTether_debug (s : State) (t : Tether) : (s.setTether t).debug = s.debug := rfl
@[simp] theorem State.setTether_clock (s : State) (t : Tether) : (s.setTether t).clock = s.clock := rfl
@[simp] theorem State.setTether_podTime (s : State) (t : Tether) : (s.setTether t).podTime = s.podTime := rfl
@[simp] theorem State.setTether_inputs (s : State) (t : Tether) : (s.setTether t).inputs = s.inputs := rfl
@[simp] theorem State.setTether_turns (s : State) (t : Tether) : (s.setTether t).turns = s.turns := rfl
@[simp] theorem State.setTether_free (s : State) (t : Tether) : (s.setTether t).free = s.free := rfl
@[simp] theorem State.setTether_th (s : State) (t : Tether) : (s.setTether t).th = s.th := rfl
@[simp] theorem State.setTether_wg (s : State) (t : Tether) : (s.setTether t).wg = s.wg := rfl
@[simp] theorem State.setTether_cx (s : State) (t : Tether) : (s.setTether t).cx = s.cx := rfl
@[simp] theorem State.setTether_threads (s : State) (t : Tether) : (s.setTether t).threads = s.threads := rfl
@[simp] theorem State.setTether_wgs (s : State) (t : Tether) : (s.setTether t).wgs = s.wgs := rfl
@[simp] theorem State.setTether_cxs (s : State) (t : Tether) : (s.setTether t).cxs = s.cxs := rfl
@[simp] theorem State.setTether_mem (s : State) (t : Tether) : (s.setTether t).mem = s.mem := rfl
@[simp] theorem State.setTether_memMark (s : State) (t : Tether) : (s.setTether t).memMark = s.memMark := rfl
@[simp] theorem State.setTether_lineKey (s : State) (t : Tether) : (s.setTether t).lineKey = s.lineKey := rfl
@[simp] theorem State.setTether_keys (s : State) (t : Tether) : (s.setTether t).keys = s.keys := rfl
@[simp] theorem State.setTether_trans (s : State) (t : Tether) : (s.setTether t).trans = s.trans := rfl
@[simp] theorem State.setTether_tlbs (s : State) (t : Tether) : (s.setTether t).tlbs = s.tlbs := rfl
@[simp] theorem State.setTether_walkers (s : State) (t : Tether) : (s.setTether t).walkers = s.walkers := rfl
@[simp] theorem State.setTether_cores (s : State) (t : Tether) : (s.setTether t).cores = s.cores := rfl
@[simp] theorem State.setTether_dies (s : State) (t : Tether) : (s.setTether t).dies = s.dies := rfl
@[simp] theorem State.setTether_assists (s : State) (t : Tether) : (s.setTether t).assists = s.assists := rfl
@[simp] theorem State.setTether_timers (s : State) (t : Tether) : (s.setTether t).timers = s.timers := rfl
@[simp] theorem State.setTether_sends (s : State) (t : Tether) : (s.setTether t).sends = s.sends := rfl
@[simp] theorem State.setTether_fabric (s : State) (t : Tether) : (s.setTether t).fabric = s.fabric := rfl
@[simp] theorem State.setTether_carousels (s : State) (t : Tether) : (s.setTether t).carousels = s.carousels := rfl
@[simp] theorem State.setTether_nocs (s : State) (t : Tether) : (s.setTether t).nocs = s.nocs := rfl
@[simp] theorem State.setTether_tether (s : State) (t : Tether) : (s.setTether t).tether = t := rfl
@[simp] theorem State.setTether_colls (s : State) (t : Tether) : (s.setTether t).colls = s.colls := rfl
@[simp] theorem State.setTether_collq (s : State) (t : Tether) : (s.setTether t).collq = s.collq := rfl
@[simp] theorem State.setTether_collLagged (s : State) (t : Tether) : (s.setTether t).collLagged = s.collLagged := rfl
@[simp] theorem State.setTether_collcfg (s : State) (t : Tether) : (s.setTether t).collcfg = s.collcfg := rfl
@[simp] theorem State.setTether_forward (s : State) (t : Tether) : (s.setTether t).forward = s.forward := rfl
@[simp] theorem State.setTether_queues (s : State) (t : Tether) : (s.setTether t).queues = s.queues := rfl
@[simp] theorem State.setTether_launches (s : State) (t : Tether) : (s.setTether t).launches = s.launches := rfl
@[simp] theorem State.setTether_ras (s : State) (t : Tether) : (s.setTether t).ras = s.ras := rfl
@[simp] theorem State.setTether_trust (s : State) (t : Tether) : (s.setTether t).trust = s.trust := rfl
@[simp] theorem State.setTether_power (s : State) (t : Tether) : (s.setTether t).power = s.power := rfl
@[simp] theorem State.setTether_mailboxes (s : State) (t : Tether) : (s.setTether t).mailboxes = s.mailboxes := rfl
@[simp] theorem State.setTether_host (s : State) (t : Tether) : (s.setTether t).host = s.host := rfl

/-! ### `State.setCore` -/

@[simp] theorem State.setCore_pkg (s : State) (n : Nat) (x : CoreSt) : (s.setCore n x).pkg = s.pkg := rfl
@[simp] theorem State.setCore_debug (s : State) (n : Nat) (x : CoreSt) : (s.setCore n x).debug = s.debug := rfl
@[simp] theorem State.setCore_clock (s : State) (n : Nat) (x : CoreSt) : (s.setCore n x).clock = s.clock := rfl
@[simp] theorem State.setCore_podTime (s : State) (n : Nat) (x : CoreSt) : (s.setCore n x).podTime = s.podTime := rfl
@[simp] theorem State.setCore_inputs (s : State) (n : Nat) (x : CoreSt) : (s.setCore n x).inputs = s.inputs := rfl
@[simp] theorem State.setCore_turns (s : State) (n : Nat) (x : CoreSt) : (s.setCore n x).turns = s.turns := rfl
@[simp] theorem State.setCore_free (s : State) (n : Nat) (x : CoreSt) : (s.setCore n x).free = s.free := rfl
@[simp] theorem State.setCore_th (s : State) (n : Nat) (x : CoreSt) : (s.setCore n x).th = s.th := rfl
@[simp] theorem State.setCore_wg (s : State) (n : Nat) (x : CoreSt) : (s.setCore n x).wg = s.wg := rfl
@[simp] theorem State.setCore_cx (s : State) (n : Nat) (x : CoreSt) : (s.setCore n x).cx = s.cx := rfl
@[simp] theorem State.setCore_threads (s : State) (n : Nat) (x : CoreSt) : (s.setCore n x).threads = s.threads := rfl
@[simp] theorem State.setCore_wgs (s : State) (n : Nat) (x : CoreSt) : (s.setCore n x).wgs = s.wgs := rfl
@[simp] theorem State.setCore_cxs (s : State) (n : Nat) (x : CoreSt) : (s.setCore n x).cxs = s.cxs := rfl
@[simp] theorem State.setCore_mem (s : State) (n : Nat) (x : CoreSt) : (s.setCore n x).mem = s.mem := rfl
@[simp] theorem State.setCore_memMark (s : State) (n : Nat) (x : CoreSt) : (s.setCore n x).memMark = s.memMark := rfl
@[simp] theorem State.setCore_lineKey (s : State) (n : Nat) (x : CoreSt) : (s.setCore n x).lineKey = s.lineKey := rfl
@[simp] theorem State.setCore_keys (s : State) (n : Nat) (x : CoreSt) : (s.setCore n x).keys = s.keys := rfl
@[simp] theorem State.setCore_trans (s : State) (n : Nat) (x : CoreSt) : (s.setCore n x).trans = s.trans := rfl
@[simp] theorem State.setCore_tlbs (s : State) (n : Nat) (x : CoreSt) : (s.setCore n x).tlbs = s.tlbs := rfl
@[simp] theorem State.setCore_walkers (s : State) (n : Nat) (x : CoreSt) : (s.setCore n x).walkers = s.walkers := rfl
@[simp] theorem State.setCore_cores (s : State) (n : Nat) (x : CoreSt) : (s.setCore n x).cores = tset CoreSt.fresh s.cores n x := rfl
@[simp] theorem State.setCore_dies (s : State) (n : Nat) (x : CoreSt) : (s.setCore n x).dies = s.dies := rfl
@[simp] theorem State.setCore_assists (s : State) (n : Nat) (x : CoreSt) : (s.setCore n x).assists = s.assists := rfl
@[simp] theorem State.setCore_timers (s : State) (n : Nat) (x : CoreSt) : (s.setCore n x).timers = s.timers := rfl
@[simp] theorem State.setCore_sends (s : State) (n : Nat) (x : CoreSt) : (s.setCore n x).sends = s.sends := rfl
@[simp] theorem State.setCore_fabric (s : State) (n : Nat) (x : CoreSt) : (s.setCore n x).fabric = s.fabric := rfl
@[simp] theorem State.setCore_carousels (s : State) (n : Nat) (x : CoreSt) : (s.setCore n x).carousels = s.carousels := rfl
@[simp] theorem State.setCore_nocs (s : State) (n : Nat) (x : CoreSt) : (s.setCore n x).nocs = s.nocs := rfl
@[simp] theorem State.setCore_tether (s : State) (n : Nat) (x : CoreSt) : (s.setCore n x).tether = s.tether := rfl
@[simp] theorem State.setCore_colls (s : State) (n : Nat) (x : CoreSt) : (s.setCore n x).colls = s.colls := rfl
@[simp] theorem State.setCore_collq (s : State) (n : Nat) (x : CoreSt) : (s.setCore n x).collq = s.collq := rfl
@[simp] theorem State.setCore_collLagged (s : State) (n : Nat) (x : CoreSt) : (s.setCore n x).collLagged = s.collLagged := rfl
@[simp] theorem State.setCore_collcfg (s : State) (n : Nat) (x : CoreSt) : (s.setCore n x).collcfg = s.collcfg := rfl
@[simp] theorem State.setCore_forward (s : State) (n : Nat) (x : CoreSt) : (s.setCore n x).forward = s.forward := rfl
@[simp] theorem State.setCore_queues (s : State) (n : Nat) (x : CoreSt) : (s.setCore n x).queues = s.queues := rfl
@[simp] theorem State.setCore_launches (s : State) (n : Nat) (x : CoreSt) : (s.setCore n x).launches = s.launches := rfl
@[simp] theorem State.setCore_ras (s : State) (n : Nat) (x : CoreSt) : (s.setCore n x).ras = s.ras := rfl
@[simp] theorem State.setCore_trust (s : State) (n : Nat) (x : CoreSt) : (s.setCore n x).trust = s.trust := rfl
@[simp] theorem State.setCore_power (s : State) (n : Nat) (x : CoreSt) : (s.setCore n x).power = s.power := rfl
@[simp] theorem State.setCore_mailboxes (s : State) (n : Nat) (x : CoreSt) : (s.setCore n x).mailboxes = s.mailboxes := rfl
@[simp] theorem State.setCore_host (s : State) (n : Nat) (x : CoreSt) : (s.setCore n x).host = s.host := rfl

/-! ### `State.setDie` -/

@[simp] theorem State.setDie_pkg (s : State) (n : Nat) (x : DieView) : (s.setDie n x).pkg = s.pkg := rfl
@[simp] theorem State.setDie_debug (s : State) (n : Nat) (x : DieView) : (s.setDie n x).debug = s.debug := rfl
@[simp] theorem State.setDie_clock (s : State) (n : Nat) (x : DieView) : (s.setDie n x).clock = s.clock := rfl
@[simp] theorem State.setDie_podTime (s : State) (n : Nat) (x : DieView) : (s.setDie n x).podTime = s.podTime := rfl
@[simp] theorem State.setDie_inputs (s : State) (n : Nat) (x : DieView) : (s.setDie n x).inputs = s.inputs := rfl
@[simp] theorem State.setDie_turns (s : State) (n : Nat) (x : DieView) : (s.setDie n x).turns = s.turns := rfl
@[simp] theorem State.setDie_free (s : State) (n : Nat) (x : DieView) : (s.setDie n x).free = s.free := rfl
@[simp] theorem State.setDie_th (s : State) (n : Nat) (x : DieView) : (s.setDie n x).th = s.th := rfl
@[simp] theorem State.setDie_wg (s : State) (n : Nat) (x : DieView) : (s.setDie n x).wg = s.wg := rfl
@[simp] theorem State.setDie_cx (s : State) (n : Nat) (x : DieView) : (s.setDie n x).cx = s.cx := rfl
@[simp] theorem State.setDie_threads (s : State) (n : Nat) (x : DieView) : (s.setDie n x).threads = s.threads := rfl
@[simp] theorem State.setDie_wgs (s : State) (n : Nat) (x : DieView) : (s.setDie n x).wgs = s.wgs := rfl
@[simp] theorem State.setDie_cxs (s : State) (n : Nat) (x : DieView) : (s.setDie n x).cxs = s.cxs := rfl
@[simp] theorem State.setDie_mem (s : State) (n : Nat) (x : DieView) : (s.setDie n x).mem = s.mem := rfl
@[simp] theorem State.setDie_memMark (s : State) (n : Nat) (x : DieView) : (s.setDie n x).memMark = s.memMark := rfl
@[simp] theorem State.setDie_lineKey (s : State) (n : Nat) (x : DieView) : (s.setDie n x).lineKey = s.lineKey := rfl
@[simp] theorem State.setDie_keys (s : State) (n : Nat) (x : DieView) : (s.setDie n x).keys = s.keys := rfl
@[simp] theorem State.setDie_trans (s : State) (n : Nat) (x : DieView) : (s.setDie n x).trans = s.trans := rfl
@[simp] theorem State.setDie_tlbs (s : State) (n : Nat) (x : DieView) : (s.setDie n x).tlbs = s.tlbs := rfl
@[simp] theorem State.setDie_walkers (s : State) (n : Nat) (x : DieView) : (s.setDie n x).walkers = s.walkers := rfl
@[simp] theorem State.setDie_cores (s : State) (n : Nat) (x : DieView) : (s.setDie n x).cores = s.cores := rfl
@[simp] theorem State.setDie_dies (s : State) (n : Nat) (x : DieView) : (s.setDie n x).dies = tset DieView.fresh s.dies n x := rfl
@[simp] theorem State.setDie_assists (s : State) (n : Nat) (x : DieView) : (s.setDie n x).assists = s.assists := rfl
@[simp] theorem State.setDie_timers (s : State) (n : Nat) (x : DieView) : (s.setDie n x).timers = s.timers := rfl
@[simp] theorem State.setDie_sends (s : State) (n : Nat) (x : DieView) : (s.setDie n x).sends = s.sends := rfl
@[simp] theorem State.setDie_fabric (s : State) (n : Nat) (x : DieView) : (s.setDie n x).fabric = s.fabric := rfl
@[simp] theorem State.setDie_carousels (s : State) (n : Nat) (x : DieView) : (s.setDie n x).carousels = s.carousels := rfl
@[simp] theorem State.setDie_nocs (s : State) (n : Nat) (x : DieView) : (s.setDie n x).nocs = s.nocs := rfl
@[simp] theorem State.setDie_tether (s : State) (n : Nat) (x : DieView) : (s.setDie n x).tether = s.tether := rfl
@[simp] theorem State.setDie_colls (s : State) (n : Nat) (x : DieView) : (s.setDie n x).colls = s.colls := rfl
@[simp] theorem State.setDie_collq (s : State) (n : Nat) (x : DieView) : (s.setDie n x).collq = s.collq := rfl
@[simp] theorem State.setDie_collLagged (s : State) (n : Nat) (x : DieView) : (s.setDie n x).collLagged = s.collLagged := rfl
@[simp] theorem State.setDie_collcfg (s : State) (n : Nat) (x : DieView) : (s.setDie n x).collcfg = s.collcfg := rfl
@[simp] theorem State.setDie_forward (s : State) (n : Nat) (x : DieView) : (s.setDie n x).forward = s.forward := rfl
@[simp] theorem State.setDie_queues (s : State) (n : Nat) (x : DieView) : (s.setDie n x).queues = s.queues := rfl
@[simp] theorem State.setDie_launches (s : State) (n : Nat) (x : DieView) : (s.setDie n x).launches = s.launches := rfl
@[simp] theorem State.setDie_ras (s : State) (n : Nat) (x : DieView) : (s.setDie n x).ras = s.ras := rfl
@[simp] theorem State.setDie_trust (s : State) (n : Nat) (x : DieView) : (s.setDie n x).trust = s.trust := rfl
@[simp] theorem State.setDie_power (s : State) (n : Nat) (x : DieView) : (s.setDie n x).power = s.power := rfl
@[simp] theorem State.setDie_mailboxes (s : State) (n : Nat) (x : DieView) : (s.setDie n x).mailboxes = s.mailboxes := rfl
@[simp] theorem State.setDie_host (s : State) (n : Nat) (x : DieView) : (s.setDie n x).host = s.host := rfl

/-! ### `State.setQueue` -/

@[simp] theorem State.setQueue_pkg (s : State) (n : Nat) (x : Queue) : (s.setQueue n x).pkg = s.pkg := rfl
@[simp] theorem State.setQueue_debug (s : State) (n : Nat) (x : Queue) : (s.setQueue n x).debug = s.debug := rfl
@[simp] theorem State.setQueue_clock (s : State) (n : Nat) (x : Queue) : (s.setQueue n x).clock = s.clock := rfl
@[simp] theorem State.setQueue_podTime (s : State) (n : Nat) (x : Queue) : (s.setQueue n x).podTime = s.podTime := rfl
@[simp] theorem State.setQueue_inputs (s : State) (n : Nat) (x : Queue) : (s.setQueue n x).inputs = s.inputs := rfl
@[simp] theorem State.setQueue_turns (s : State) (n : Nat) (x : Queue) : (s.setQueue n x).turns = s.turns := rfl
@[simp] theorem State.setQueue_free (s : State) (n : Nat) (x : Queue) : (s.setQueue n x).free = s.free := rfl
@[simp] theorem State.setQueue_th (s : State) (n : Nat) (x : Queue) : (s.setQueue n x).th = s.th := rfl
@[simp] theorem State.setQueue_wg (s : State) (n : Nat) (x : Queue) : (s.setQueue n x).wg = s.wg := rfl
@[simp] theorem State.setQueue_cx (s : State) (n : Nat) (x : Queue) : (s.setQueue n x).cx = s.cx := rfl
@[simp] theorem State.setQueue_threads (s : State) (n : Nat) (x : Queue) : (s.setQueue n x).threads = s.threads := rfl
@[simp] theorem State.setQueue_wgs (s : State) (n : Nat) (x : Queue) : (s.setQueue n x).wgs = s.wgs := rfl
@[simp] theorem State.setQueue_cxs (s : State) (n : Nat) (x : Queue) : (s.setQueue n x).cxs = s.cxs := rfl
@[simp] theorem State.setQueue_mem (s : State) (n : Nat) (x : Queue) : (s.setQueue n x).mem = s.mem := rfl
@[simp] theorem State.setQueue_memMark (s : State) (n : Nat) (x : Queue) : (s.setQueue n x).memMark = s.memMark := rfl
@[simp] theorem State.setQueue_lineKey (s : State) (n : Nat) (x : Queue) : (s.setQueue n x).lineKey = s.lineKey := rfl
@[simp] theorem State.setQueue_keys (s : State) (n : Nat) (x : Queue) : (s.setQueue n x).keys = s.keys := rfl
@[simp] theorem State.setQueue_trans (s : State) (n : Nat) (x : Queue) : (s.setQueue n x).trans = s.trans := rfl
@[simp] theorem State.setQueue_tlbs (s : State) (n : Nat) (x : Queue) : (s.setQueue n x).tlbs = s.tlbs := rfl
@[simp] theorem State.setQueue_walkers (s : State) (n : Nat) (x : Queue) : (s.setQueue n x).walkers = s.walkers := rfl
@[simp] theorem State.setQueue_cores (s : State) (n : Nat) (x : Queue) : (s.setQueue n x).cores = s.cores := rfl
@[simp] theorem State.setQueue_dies (s : State) (n : Nat) (x : Queue) : (s.setQueue n x).dies = s.dies := rfl
@[simp] theorem State.setQueue_assists (s : State) (n : Nat) (x : Queue) : (s.setQueue n x).assists = s.assists := rfl
@[simp] theorem State.setQueue_timers (s : State) (n : Nat) (x : Queue) : (s.setQueue n x).timers = s.timers := rfl
@[simp] theorem State.setQueue_sends (s : State) (n : Nat) (x : Queue) : (s.setQueue n x).sends = s.sends := rfl
@[simp] theorem State.setQueue_fabric (s : State) (n : Nat) (x : Queue) : (s.setQueue n x).fabric = s.fabric := rfl
@[simp] theorem State.setQueue_carousels (s : State) (n : Nat) (x : Queue) : (s.setQueue n x).carousels = s.carousels := rfl
@[simp] theorem State.setQueue_nocs (s : State) (n : Nat) (x : Queue) : (s.setQueue n x).nocs = s.nocs := rfl
@[simp] theorem State.setQueue_tether (s : State) (n : Nat) (x : Queue) : (s.setQueue n x).tether = s.tether := rfl
@[simp] theorem State.setQueue_colls (s : State) (n : Nat) (x : Queue) : (s.setQueue n x).colls = s.colls := rfl
@[simp] theorem State.setQueue_collq (s : State) (n : Nat) (x : Queue) : (s.setQueue n x).collq = s.collq := rfl
@[simp] theorem State.setQueue_collLagged (s : State) (n : Nat) (x : Queue) : (s.setQueue n x).collLagged = s.collLagged := rfl
@[simp] theorem State.setQueue_collcfg (s : State) (n : Nat) (x : Queue) : (s.setQueue n x).collcfg = s.collcfg := rfl
@[simp] theorem State.setQueue_forward (s : State) (n : Nat) (x : Queue) : (s.setQueue n x).forward = s.forward := rfl
@[simp] theorem State.setQueue_queues (s : State) (n : Nat) (x : Queue) : (s.setQueue n x).queues = tset Queue.fresh s.queues n x := rfl
@[simp] theorem State.setQueue_launches (s : State) (n : Nat) (x : Queue) : (s.setQueue n x).launches = s.launches := rfl
@[simp] theorem State.setQueue_ras (s : State) (n : Nat) (x : Queue) : (s.setQueue n x).ras = s.ras := rfl
@[simp] theorem State.setQueue_trust (s : State) (n : Nat) (x : Queue) : (s.setQueue n x).trust = s.trust := rfl
@[simp] theorem State.setQueue_power (s : State) (n : Nat) (x : Queue) : (s.setQueue n x).power = s.power := rfl
@[simp] theorem State.setQueue_mailboxes (s : State) (n : Nat) (x : Queue) : (s.setQueue n x).mailboxes = s.mailboxes := rfl
@[simp] theorem State.setQueue_host (s : State) (n : Nat) (x : Queue) : (s.setQueue n x).host = s.host := rfl

/-! ### `State.setRing` -/

@[simp] theorem State.setRing_pkg (s : State) (n : Nat) (x : Carousel) : (s.setRing n x).pkg = s.pkg := rfl
@[simp] theorem State.setRing_debug (s : State) (n : Nat) (x : Carousel) : (s.setRing n x).debug = s.debug := rfl
@[simp] theorem State.setRing_clock (s : State) (n : Nat) (x : Carousel) : (s.setRing n x).clock = s.clock := rfl
@[simp] theorem State.setRing_podTime (s : State) (n : Nat) (x : Carousel) : (s.setRing n x).podTime = s.podTime := rfl
@[simp] theorem State.setRing_inputs (s : State) (n : Nat) (x : Carousel) : (s.setRing n x).inputs = s.inputs := rfl
@[simp] theorem State.setRing_turns (s : State) (n : Nat) (x : Carousel) : (s.setRing n x).turns = s.turns := rfl
@[simp] theorem State.setRing_free (s : State) (n : Nat) (x : Carousel) : (s.setRing n x).free = s.free := rfl
@[simp] theorem State.setRing_th (s : State) (n : Nat) (x : Carousel) : (s.setRing n x).th = s.th := rfl
@[simp] theorem State.setRing_wg (s : State) (n : Nat) (x : Carousel) : (s.setRing n x).wg = s.wg := rfl
@[simp] theorem State.setRing_cx (s : State) (n : Nat) (x : Carousel) : (s.setRing n x).cx = s.cx := rfl
@[simp] theorem State.setRing_threads (s : State) (n : Nat) (x : Carousel) : (s.setRing n x).threads = s.threads := rfl
@[simp] theorem State.setRing_wgs (s : State) (n : Nat) (x : Carousel) : (s.setRing n x).wgs = s.wgs := rfl
@[simp] theorem State.setRing_cxs (s : State) (n : Nat) (x : Carousel) : (s.setRing n x).cxs = s.cxs := rfl
@[simp] theorem State.setRing_mem (s : State) (n : Nat) (x : Carousel) : (s.setRing n x).mem = s.mem := rfl
@[simp] theorem State.setRing_memMark (s : State) (n : Nat) (x : Carousel) : (s.setRing n x).memMark = s.memMark := rfl
@[simp] theorem State.setRing_lineKey (s : State) (n : Nat) (x : Carousel) : (s.setRing n x).lineKey = s.lineKey := rfl
@[simp] theorem State.setRing_keys (s : State) (n : Nat) (x : Carousel) : (s.setRing n x).keys = s.keys := rfl
@[simp] theorem State.setRing_trans (s : State) (n : Nat) (x : Carousel) : (s.setRing n x).trans = s.trans := rfl
@[simp] theorem State.setRing_tlbs (s : State) (n : Nat) (x : Carousel) : (s.setRing n x).tlbs = s.tlbs := rfl
@[simp] theorem State.setRing_walkers (s : State) (n : Nat) (x : Carousel) : (s.setRing n x).walkers = s.walkers := rfl
@[simp] theorem State.setRing_cores (s : State) (n : Nat) (x : Carousel) : (s.setRing n x).cores = s.cores := rfl
@[simp] theorem State.setRing_dies (s : State) (n : Nat) (x : Carousel) : (s.setRing n x).dies = s.dies := rfl
@[simp] theorem State.setRing_assists (s : State) (n : Nat) (x : Carousel) : (s.setRing n x).assists = s.assists := rfl
@[simp] theorem State.setRing_timers (s : State) (n : Nat) (x : Carousel) : (s.setRing n x).timers = s.timers := rfl
@[simp] theorem State.setRing_sends (s : State) (n : Nat) (x : Carousel) : (s.setRing n x).sends = s.sends := rfl
@[simp] theorem State.setRing_fabric (s : State) (n : Nat) (x : Carousel) : (s.setRing n x).fabric = s.fabric := rfl
@[simp] theorem State.setRing_carousels (s : State) (n : Nat) (x : Carousel) : (s.setRing n x).carousels = tset Carousel.fresh s.carousels n x := rfl
@[simp] theorem State.setRing_nocs (s : State) (n : Nat) (x : Carousel) : (s.setRing n x).nocs = s.nocs := rfl
@[simp] theorem State.setRing_tether (s : State) (n : Nat) (x : Carousel) : (s.setRing n x).tether = s.tether := rfl
@[simp] theorem State.setRing_colls (s : State) (n : Nat) (x : Carousel) : (s.setRing n x).colls = s.colls := rfl
@[simp] theorem State.setRing_collq (s : State) (n : Nat) (x : Carousel) : (s.setRing n x).collq = s.collq := rfl
@[simp] theorem State.setRing_collLagged (s : State) (n : Nat) (x : Carousel) : (s.setRing n x).collLagged = s.collLagged := rfl
@[simp] theorem State.setRing_collcfg (s : State) (n : Nat) (x : Carousel) : (s.setRing n x).collcfg = s.collcfg := rfl
@[simp] theorem State.setRing_forward (s : State) (n : Nat) (x : Carousel) : (s.setRing n x).forward = s.forward := rfl
@[simp] theorem State.setRing_queues (s : State) (n : Nat) (x : Carousel) : (s.setRing n x).queues = s.queues := rfl
@[simp] theorem State.setRing_launches (s : State) (n : Nat) (x : Carousel) : (s.setRing n x).launches = s.launches := rfl
@[simp] theorem State.setRing_ras (s : State) (n : Nat) (x : Carousel) : (s.setRing n x).ras = s.ras := rfl
@[simp] theorem State.setRing_trust (s : State) (n : Nat) (x : Carousel) : (s.setRing n x).trust = s.trust := rfl
@[simp] theorem State.setRing_power (s : State) (n : Nat) (x : Carousel) : (s.setRing n x).power = s.power := rfl
@[simp] theorem State.setRing_mailboxes (s : State) (n : Nat) (x : Carousel) : (s.setRing n x).mailboxes = s.mailboxes := rfl
@[simp] theorem State.setRing_host (s : State) (n : Nat) (x : Carousel) : (s.setRing n x).host = s.host := rfl

/-! ### `State.setMailbox` -/

@[simp] theorem State.setMailbox_pkg (s : State) (n : Nat) (x : Mailbox) : (s.setMailbox n x).pkg = s.pkg := rfl
@[simp] theorem State.setMailbox_debug (s : State) (n : Nat) (x : Mailbox) : (s.setMailbox n x).debug = s.debug := rfl
@[simp] theorem State.setMailbox_clock (s : State) (n : Nat) (x : Mailbox) : (s.setMailbox n x).clock = s.clock := rfl
@[simp] theorem State.setMailbox_podTime (s : State) (n : Nat) (x : Mailbox) : (s.setMailbox n x).podTime = s.podTime := rfl
@[simp] theorem State.setMailbox_inputs (s : State) (n : Nat) (x : Mailbox) : (s.setMailbox n x).inputs = s.inputs := rfl
@[simp] theorem State.setMailbox_turns (s : State) (n : Nat) (x : Mailbox) : (s.setMailbox n x).turns = s.turns := rfl
@[simp] theorem State.setMailbox_free (s : State) (n : Nat) (x : Mailbox) : (s.setMailbox n x).free = s.free := rfl
@[simp] theorem State.setMailbox_th (s : State) (n : Nat) (x : Mailbox) : (s.setMailbox n x).th = s.th := rfl
@[simp] theorem State.setMailbox_wg (s : State) (n : Nat) (x : Mailbox) : (s.setMailbox n x).wg = s.wg := rfl
@[simp] theorem State.setMailbox_cx (s : State) (n : Nat) (x : Mailbox) : (s.setMailbox n x).cx = s.cx := rfl
@[simp] theorem State.setMailbox_threads (s : State) (n : Nat) (x : Mailbox) : (s.setMailbox n x).threads = s.threads := rfl
@[simp] theorem State.setMailbox_wgs (s : State) (n : Nat) (x : Mailbox) : (s.setMailbox n x).wgs = s.wgs := rfl
@[simp] theorem State.setMailbox_cxs (s : State) (n : Nat) (x : Mailbox) : (s.setMailbox n x).cxs = s.cxs := rfl
@[simp] theorem State.setMailbox_mem (s : State) (n : Nat) (x : Mailbox) : (s.setMailbox n x).mem = s.mem := rfl
@[simp] theorem State.setMailbox_memMark (s : State) (n : Nat) (x : Mailbox) : (s.setMailbox n x).memMark = s.memMark := rfl
@[simp] theorem State.setMailbox_lineKey (s : State) (n : Nat) (x : Mailbox) : (s.setMailbox n x).lineKey = s.lineKey := rfl
@[simp] theorem State.setMailbox_keys (s : State) (n : Nat) (x : Mailbox) : (s.setMailbox n x).keys = s.keys := rfl
@[simp] theorem State.setMailbox_trans (s : State) (n : Nat) (x : Mailbox) : (s.setMailbox n x).trans = s.trans := rfl
@[simp] theorem State.setMailbox_tlbs (s : State) (n : Nat) (x : Mailbox) : (s.setMailbox n x).tlbs = s.tlbs := rfl
@[simp] theorem State.setMailbox_walkers (s : State) (n : Nat) (x : Mailbox) : (s.setMailbox n x).walkers = s.walkers := rfl
@[simp] theorem State.setMailbox_cores (s : State) (n : Nat) (x : Mailbox) : (s.setMailbox n x).cores = s.cores := rfl
@[simp] theorem State.setMailbox_dies (s : State) (n : Nat) (x : Mailbox) : (s.setMailbox n x).dies = s.dies := rfl
@[simp] theorem State.setMailbox_assists (s : State) (n : Nat) (x : Mailbox) : (s.setMailbox n x).assists = s.assists := rfl
@[simp] theorem State.setMailbox_timers (s : State) (n : Nat) (x : Mailbox) : (s.setMailbox n x).timers = s.timers := rfl
@[simp] theorem State.setMailbox_sends (s : State) (n : Nat) (x : Mailbox) : (s.setMailbox n x).sends = s.sends := rfl
@[simp] theorem State.setMailbox_fabric (s : State) (n : Nat) (x : Mailbox) : (s.setMailbox n x).fabric = s.fabric := rfl
@[simp] theorem State.setMailbox_carousels (s : State) (n : Nat) (x : Mailbox) : (s.setMailbox n x).carousels = s.carousels := rfl
@[simp] theorem State.setMailbox_nocs (s : State) (n : Nat) (x : Mailbox) : (s.setMailbox n x).nocs = s.nocs := rfl
@[simp] theorem State.setMailbox_tether (s : State) (n : Nat) (x : Mailbox) : (s.setMailbox n x).tether = s.tether := rfl
@[simp] theorem State.setMailbox_colls (s : State) (n : Nat) (x : Mailbox) : (s.setMailbox n x).colls = s.colls := rfl
@[simp] theorem State.setMailbox_collq (s : State) (n : Nat) (x : Mailbox) : (s.setMailbox n x).collq = s.collq := rfl
@[simp] theorem State.setMailbox_collLagged (s : State) (n : Nat) (x : Mailbox) : (s.setMailbox n x).collLagged = s.collLagged := rfl
@[simp] theorem State.setMailbox_collcfg (s : State) (n : Nat) (x : Mailbox) : (s.setMailbox n x).collcfg = s.collcfg := rfl
@[simp] theorem State.setMailbox_forward (s : State) (n : Nat) (x : Mailbox) : (s.setMailbox n x).forward = s.forward := rfl
@[simp] theorem State.setMailbox_queues (s : State) (n : Nat) (x : Mailbox) : (s.setMailbox n x).queues = s.queues := rfl
@[simp] theorem State.setMailbox_launches (s : State) (n : Nat) (x : Mailbox) : (s.setMailbox n x).launches = s.launches := rfl
@[simp] theorem State.setMailbox_ras (s : State) (n : Nat) (x : Mailbox) : (s.setMailbox n x).ras = s.ras := rfl
@[simp] theorem State.setMailbox_trust (s : State) (n : Nat) (x : Mailbox) : (s.setMailbox n x).trust = s.trust := rfl
@[simp] theorem State.setMailbox_power (s : State) (n : Nat) (x : Mailbox) : (s.setMailbox n x).power = s.power := rfl
@[simp] theorem State.setMailbox_mailboxes (s : State) (n : Nat) (x : Mailbox) : (s.setMailbox n x).mailboxes = tset Mailbox.fresh s.mailboxes n x := rfl
@[simp] theorem State.setMailbox_host (s : State) (n : Nat) (x : Mailbox) : (s.setMailbox n x).host = s.host := rfl

/-! ### `State.setTimer` -/

@[simp] theorem State.setTimer_pkg (s : State) (n : Nat) (x : CoreTimer) : (s.setTimer n x).pkg = s.pkg := rfl
@[simp] theorem State.setTimer_debug (s : State) (n : Nat) (x : CoreTimer) : (s.setTimer n x).debug = s.debug := rfl
@[simp] theorem State.setTimer_clock (s : State) (n : Nat) (x : CoreTimer) : (s.setTimer n x).clock = s.clock := rfl
@[simp] theorem State.setTimer_podTime (s : State) (n : Nat) (x : CoreTimer) : (s.setTimer n x).podTime = s.podTime := rfl
@[simp] theorem State.setTimer_inputs (s : State) (n : Nat) (x : CoreTimer) : (s.setTimer n x).inputs = s.inputs := rfl
@[simp] theorem State.setTimer_turns (s : State) (n : Nat) (x : CoreTimer) : (s.setTimer n x).turns = s.turns := rfl
@[simp] theorem State.setTimer_free (s : State) (n : Nat) (x : CoreTimer) : (s.setTimer n x).free = s.free := rfl
@[simp] theorem State.setTimer_th (s : State) (n : Nat) (x : CoreTimer) : (s.setTimer n x).th = s.th := rfl
@[simp] theorem State.setTimer_wg (s : State) (n : Nat) (x : CoreTimer) : (s.setTimer n x).wg = s.wg := rfl
@[simp] theorem State.setTimer_cx (s : State) (n : Nat) (x : CoreTimer) : (s.setTimer n x).cx = s.cx := rfl
@[simp] theorem State.setTimer_threads (s : State) (n : Nat) (x : CoreTimer) : (s.setTimer n x).threads = s.threads := rfl
@[simp] theorem State.setTimer_wgs (s : State) (n : Nat) (x : CoreTimer) : (s.setTimer n x).wgs = s.wgs := rfl
@[simp] theorem State.setTimer_cxs (s : State) (n : Nat) (x : CoreTimer) : (s.setTimer n x).cxs = s.cxs := rfl
@[simp] theorem State.setTimer_mem (s : State) (n : Nat) (x : CoreTimer) : (s.setTimer n x).mem = s.mem := rfl
@[simp] theorem State.setTimer_memMark (s : State) (n : Nat) (x : CoreTimer) : (s.setTimer n x).memMark = s.memMark := rfl
@[simp] theorem State.setTimer_lineKey (s : State) (n : Nat) (x : CoreTimer) : (s.setTimer n x).lineKey = s.lineKey := rfl
@[simp] theorem State.setTimer_keys (s : State) (n : Nat) (x : CoreTimer) : (s.setTimer n x).keys = s.keys := rfl
@[simp] theorem State.setTimer_trans (s : State) (n : Nat) (x : CoreTimer) : (s.setTimer n x).trans = s.trans := rfl
@[simp] theorem State.setTimer_tlbs (s : State) (n : Nat) (x : CoreTimer) : (s.setTimer n x).tlbs = s.tlbs := rfl
@[simp] theorem State.setTimer_walkers (s : State) (n : Nat) (x : CoreTimer) : (s.setTimer n x).walkers = s.walkers := rfl
@[simp] theorem State.setTimer_cores (s : State) (n : Nat) (x : CoreTimer) : (s.setTimer n x).cores = s.cores := rfl
@[simp] theorem State.setTimer_dies (s : State) (n : Nat) (x : CoreTimer) : (s.setTimer n x).dies = s.dies := rfl
@[simp] theorem State.setTimer_assists (s : State) (n : Nat) (x : CoreTimer) : (s.setTimer n x).assists = s.assists := rfl
@[simp] theorem State.setTimer_timers (s : State) (n : Nat) (x : CoreTimer) : (s.setTimer n x).timers = tset ⟨0, false⟩ s.timers n x := rfl
@[simp] theorem State.setTimer_sends (s : State) (n : Nat) (x : CoreTimer) : (s.setTimer n x).sends = s.sends := rfl
@[simp] theorem State.setTimer_fabric (s : State) (n : Nat) (x : CoreTimer) : (s.setTimer n x).fabric = s.fabric := rfl
@[simp] theorem State.setTimer_carousels (s : State) (n : Nat) (x : CoreTimer) : (s.setTimer n x).carousels = s.carousels := rfl
@[simp] theorem State.setTimer_nocs (s : State) (n : Nat) (x : CoreTimer) : (s.setTimer n x).nocs = s.nocs := rfl
@[simp] theorem State.setTimer_tether (s : State) (n : Nat) (x : CoreTimer) : (s.setTimer n x).tether = s.tether := rfl
@[simp] theorem State.setTimer_colls (s : State) (n : Nat) (x : CoreTimer) : (s.setTimer n x).colls = s.colls := rfl
@[simp] theorem State.setTimer_collq (s : State) (n : Nat) (x : CoreTimer) : (s.setTimer n x).collq = s.collq := rfl
@[simp] theorem State.setTimer_collLagged (s : State) (n : Nat) (x : CoreTimer) : (s.setTimer n x).collLagged = s.collLagged := rfl
@[simp] theorem State.setTimer_collcfg (s : State) (n : Nat) (x : CoreTimer) : (s.setTimer n x).collcfg = s.collcfg := rfl
@[simp] theorem State.setTimer_forward (s : State) (n : Nat) (x : CoreTimer) : (s.setTimer n x).forward = s.forward := rfl
@[simp] theorem State.setTimer_queues (s : State) (n : Nat) (x : CoreTimer) : (s.setTimer n x).queues = s.queues := rfl
@[simp] theorem State.setTimer_launches (s : State) (n : Nat) (x : CoreTimer) : (s.setTimer n x).launches = s.launches := rfl
@[simp] theorem State.setTimer_ras (s : State) (n : Nat) (x : CoreTimer) : (s.setTimer n x).ras = s.ras := rfl
@[simp] theorem State.setTimer_trust (s : State) (n : Nat) (x : CoreTimer) : (s.setTimer n x).trust = s.trust := rfl
@[simp] theorem State.setTimer_power (s : State) (n : Nat) (x : CoreTimer) : (s.setTimer n x).power = s.power := rfl
@[simp] theorem State.setTimer_mailboxes (s : State) (n : Nat) (x : CoreTimer) : (s.setTimer n x).mailboxes = s.mailboxes := rfl
@[simp] theorem State.setTimer_host (s : State) (n : Nat) (x : CoreTimer) : (s.setTimer n x).host = s.host := rfl

/-! ### `State.setNoc` -/

@[simp] theorem State.setNoc_pkg (s : State) (n : Nat) (x : Noc) : (s.setNoc n x).pkg = s.pkg := rfl
@[simp] theorem State.setNoc_debug (s : State) (n : Nat) (x : Noc) : (s.setNoc n x).debug = s.debug := rfl
@[simp] theorem State.setNoc_clock (s : State) (n : Nat) (x : Noc) : (s.setNoc n x).clock = s.clock := rfl
@[simp] theorem State.setNoc_podTime (s : State) (n : Nat) (x : Noc) : (s.setNoc n x).podTime = s.podTime := rfl
@[simp] theorem State.setNoc_inputs (s : State) (n : Nat) (x : Noc) : (s.setNoc n x).inputs = s.inputs := rfl
@[simp] theorem State.setNoc_turns (s : State) (n : Nat) (x : Noc) : (s.setNoc n x).turns = s.turns := rfl
@[simp] theorem State.setNoc_free (s : State) (n : Nat) (x : Noc) : (s.setNoc n x).free = s.free := rfl
@[simp] theorem State.setNoc_th (s : State) (n : Nat) (x : Noc) : (s.setNoc n x).th = s.th := rfl
@[simp] theorem State.setNoc_wg (s : State) (n : Nat) (x : Noc) : (s.setNoc n x).wg = s.wg := rfl
@[simp] theorem State.setNoc_cx (s : State) (n : Nat) (x : Noc) : (s.setNoc n x).cx = s.cx := rfl
@[simp] theorem State.setNoc_threads (s : State) (n : Nat) (x : Noc) : (s.setNoc n x).threads = s.threads := rfl
@[simp] theorem State.setNoc_wgs (s : State) (n : Nat) (x : Noc) : (s.setNoc n x).wgs = s.wgs := rfl
@[simp] theorem State.setNoc_cxs (s : State) (n : Nat) (x : Noc) : (s.setNoc n x).cxs = s.cxs := rfl
@[simp] theorem State.setNoc_mem (s : State) (n : Nat) (x : Noc) : (s.setNoc n x).mem = s.mem := rfl
@[simp] theorem State.setNoc_memMark (s : State) (n : Nat) (x : Noc) : (s.setNoc n x).memMark = s.memMark := rfl
@[simp] theorem State.setNoc_lineKey (s : State) (n : Nat) (x : Noc) : (s.setNoc n x).lineKey = s.lineKey := rfl
@[simp] theorem State.setNoc_keys (s : State) (n : Nat) (x : Noc) : (s.setNoc n x).keys = s.keys := rfl
@[simp] theorem State.setNoc_trans (s : State) (n : Nat) (x : Noc) : (s.setNoc n x).trans = s.trans := rfl
@[simp] theorem State.setNoc_tlbs (s : State) (n : Nat) (x : Noc) : (s.setNoc n x).tlbs = s.tlbs := rfl
@[simp] theorem State.setNoc_walkers (s : State) (n : Nat) (x : Noc) : (s.setNoc n x).walkers = s.walkers := rfl
@[simp] theorem State.setNoc_cores (s : State) (n : Nat) (x : Noc) : (s.setNoc n x).cores = s.cores := rfl
@[simp] theorem State.setNoc_dies (s : State) (n : Nat) (x : Noc) : (s.setNoc n x).dies = s.dies := rfl
@[simp] theorem State.setNoc_assists (s : State) (n : Nat) (x : Noc) : (s.setNoc n x).assists = s.assists := rfl
@[simp] theorem State.setNoc_timers (s : State) (n : Nat) (x : Noc) : (s.setNoc n x).timers = s.timers := rfl
@[simp] theorem State.setNoc_sends (s : State) (n : Nat) (x : Noc) : (s.setNoc n x).sends = s.sends := rfl
@[simp] theorem State.setNoc_fabric (s : State) (n : Nat) (x : Noc) : (s.setNoc n x).fabric = s.fabric := rfl
@[simp] theorem State.setNoc_carousels (s : State) (n : Nat) (x : Noc) : (s.setNoc n x).carousels = s.carousels := rfl
@[simp] theorem State.setNoc_nocs (s : State) (n : Nat) (x : Noc) : (s.setNoc n x).nocs = tset Noc.fresh s.nocs n x := rfl
@[simp] theorem State.setNoc_tether (s : State) (n : Nat) (x : Noc) : (s.setNoc n x).tether = s.tether := rfl
@[simp] theorem State.setNoc_colls (s : State) (n : Nat) (x : Noc) : (s.setNoc n x).colls = s.colls := rfl
@[simp] theorem State.setNoc_collq (s : State) (n : Nat) (x : Noc) : (s.setNoc n x).collq = s.collq := rfl
@[simp] theorem State.setNoc_collLagged (s : State) (n : Nat) (x : Noc) : (s.setNoc n x).collLagged = s.collLagged := rfl
@[simp] theorem State.setNoc_collcfg (s : State) (n : Nat) (x : Noc) : (s.setNoc n x).collcfg = s.collcfg := rfl
@[simp] theorem State.setNoc_forward (s : State) (n : Nat) (x : Noc) : (s.setNoc n x).forward = s.forward := rfl
@[simp] theorem State.setNoc_queues (s : State) (n : Nat) (x : Noc) : (s.setNoc n x).queues = s.queues := rfl
@[simp] theorem State.setNoc_launches (s : State) (n : Nat) (x : Noc) : (s.setNoc n x).launches = s.launches := rfl
@[simp] theorem State.setNoc_ras (s : State) (n : Nat) (x : Noc) : (s.setNoc n x).ras = s.ras := rfl
@[simp] theorem State.setNoc_trust (s : State) (n : Nat) (x : Noc) : (s.setNoc n x).trust = s.trust := rfl
@[simp] theorem State.setNoc_power (s : State) (n : Nat) (x : Noc) : (s.setNoc n x).power = s.power := rfl
@[simp] theorem State.setNoc_mailboxes (s : State) (n : Nat) (x : Noc) : (s.setNoc n x).mailboxes = s.mailboxes := rfl
@[simp] theorem State.setNoc_host (s : State) (n : Nat) (x : Noc) : (s.setNoc n x).host = s.host := rfl

/-! ### `State.setLease` -/

@[simp] theorem State.setLease_pkg (s : State) (n : Nat) (x : Lease) : (s.setLease n x).pkg = s.pkg := rfl
@[simp] theorem State.setLease_debug (s : State) (n : Nat) (x : Lease) : (s.setLease n x).debug = s.debug := rfl
@[simp] theorem State.setLease_clock (s : State) (n : Nat) (x : Lease) : (s.setLease n x).clock = s.clock := rfl
@[simp] theorem State.setLease_podTime (s : State) (n : Nat) (x : Lease) : (s.setLease n x).podTime = s.podTime := rfl
@[simp] theorem State.setLease_inputs (s : State) (n : Nat) (x : Lease) : (s.setLease n x).inputs = s.inputs := rfl
@[simp] theorem State.setLease_turns (s : State) (n : Nat) (x : Lease) : (s.setLease n x).turns = s.turns := rfl
@[simp] theorem State.setLease_free (s : State) (n : Nat) (x : Lease) : (s.setLease n x).free = s.free := rfl
@[simp] theorem State.setLease_th (s : State) (n : Nat) (x : Lease) : (s.setLease n x).th = s.th := rfl
@[simp] theorem State.setLease_wg (s : State) (n : Nat) (x : Lease) : (s.setLease n x).wg = s.wg := rfl
@[simp] theorem State.setLease_cx (s : State) (n : Nat) (x : Lease) : (s.setLease n x).cx = s.cx := rfl
@[simp] theorem State.setLease_threads (s : State) (n : Nat) (x : Lease) : (s.setLease n x).threads = s.threads := rfl
@[simp] theorem State.setLease_wgs (s : State) (n : Nat) (x : Lease) : (s.setLease n x).wgs = s.wgs := rfl
@[simp] theorem State.setLease_cxs (s : State) (n : Nat) (x : Lease) : (s.setLease n x).cxs = s.cxs := rfl
@[simp] theorem State.setLease_mem (s : State) (n : Nat) (x : Lease) : (s.setLease n x).mem = s.mem := rfl
@[simp] theorem State.setLease_memMark (s : State) (n : Nat) (x : Lease) : (s.setLease n x).memMark = s.memMark := rfl
@[simp] theorem State.setLease_lineKey (s : State) (n : Nat) (x : Lease) : (s.setLease n x).lineKey = s.lineKey := rfl
@[simp] theorem State.setLease_keys (s : State) (n : Nat) (x : Lease) : (s.setLease n x).keys = s.keys := rfl
@[simp] theorem State.setLease_trans (s : State) (n : Nat) (x : Lease) : (s.setLease n x).trans = s.trans := rfl
@[simp] theorem State.setLease_tlbs (s : State) (n : Nat) (x : Lease) : (s.setLease n x).tlbs = s.tlbs := rfl
@[simp] theorem State.setLease_walkers (s : State) (n : Nat) (x : Lease) : (s.setLease n x).walkers = s.walkers := rfl
@[simp] theorem State.setLease_cores (s : State) (n : Nat) (x : Lease) : (s.setLease n x).cores = s.cores := rfl
@[simp] theorem State.setLease_dies (s : State) (n : Nat) (x : Lease) : (s.setLease n x).dies = s.dies := rfl
@[simp] theorem State.setLease_assists (s : State) (n : Nat) (x : Lease) : (s.setLease n x).assists = s.assists := rfl
@[simp] theorem State.setLease_timers (s : State) (n : Nat) (x : Lease) : (s.setLease n x).timers = s.timers := rfl
@[simp] theorem State.setLease_sends (s : State) (n : Nat) (x : Lease) : (s.setLease n x).sends = s.sends := rfl
@[simp] theorem State.setLease_fabric (s : State) (n : Nat) (x : Lease) : (s.setLease n x).fabric = s.fabric := rfl
@[simp] theorem State.setLease_carousels (s : State) (n : Nat) (x : Lease) : (s.setLease n x).carousels = s.carousels := rfl
@[simp] theorem State.setLease_nocs (s : State) (n : Nat) (x : Lease) : (s.setLease n x).nocs = s.nocs := rfl
@[simp] theorem State.setLease_tether (s : State) (n : Nat) (x : Lease) : (s.setLease n x).tether = s.tether := rfl
@[simp] theorem State.setLease_colls (s : State) (n : Nat) (x : Lease) : (s.setLease n x).colls = s.colls := rfl
@[simp] theorem State.setLease_collq (s : State) (n : Nat) (x : Lease) : (s.setLease n x).collq = s.collq := rfl
@[simp] theorem State.setLease_collLagged (s : State) (n : Nat) (x : Lease) : (s.setLease n x).collLagged = s.collLagged := rfl
@[simp] theorem State.setLease_collcfg (s : State) (n : Nat) (x : Lease) : (s.setLease n x).collcfg = s.collcfg := rfl
@[simp] theorem State.setLease_forward (s : State) (n : Nat) (x : Lease) : (s.setLease n x).forward = s.forward := rfl
@[simp] theorem State.setLease_queues (s : State) (n : Nat) (x : Lease) : (s.setLease n x).queues = s.queues := rfl
@[simp] theorem State.setLease_launches (s : State) (n : Nat) (x : Lease) : (s.setLease n x).launches = s.launches := rfl
@[simp] theorem State.setLease_ras (s : State) (n : Nat) (x : Lease) : (s.setLease n x).ras = s.ras := rfl
@[simp] theorem State.setLease_trust (s : State) (n : Nat) (x : Lease) : (s.setLease n x).trust = { s.trust with leases := tset Lease.fresh s.trust.leases n x } := rfl
@[simp] theorem State.setLease_power (s : State) (n : Nat) (x : Lease) : (s.setLease n x).power = s.power := rfl
@[simp] theorem State.setLease_mailboxes (s : State) (n : Nat) (x : Lease) : (s.setLease n x).mailboxes = s.mailboxes := rfl
@[simp] theorem State.setLease_host (s : State) (n : Nat) (x : Lease) : (s.setLease n x).host = s.host := rfl

@[simp] theorem State.setTh_setTh (s : State) (t u : Thread) : (s.setTh t).setTh u = s.setTh u := rfl
@[simp] theorem State.setTh_self (s : State) : s.setTh s.th = s := rfl

/-! ### `advance` -/

@[simp] theorem advance_agent (t : Thread) : (advance t).agent = t.agent := rfl
@[simp] theorem advance_status (t : Thread) : (advance t).status = t.status := rfl
@[simp] theorem advance_nregs (t : Thread) : (advance t).nregs = t.nregs := rfl
@[simp] theorem advance_v (t : Thread) : (advance t).v = t.v := rfl
@[simp] theorem advance_vEmpty (t : Thread) : (advance t).vEmpty = t.vEmpty := rfl
@[simp] theorem advance_vMark (t : Thread) : (advance t).vMark = t.vMark := rfl
@[simp] theorem advance_k (t : Thread) : (advance t).k = t.k := rfl
@[simp] theorem advance_kMark (t : Thread) : (advance t).kMark = t.kMark := rfl
@[simp] theorem advance_p (t : Thread) : (advance t).p = t.p := rfl
@[simp] theorem advance_pMark (t : Thread) : (advance t).pMark = t.pMark := rfl
@[simp] theorem advance_caps (t : Thread) : (advance t).caps = t.caps := rfl
@[simp] theorem advance_ident (t : Thread) : (advance t).ident = t.ident := rfl
@[simp] theorem advance_stklo (t : Thread) : (advance t).stklo = t.stklo := rfl
@[simp] theorem advance_stkhi (t : Thread) : (advance t).stkhi = t.stkhi := rfl
@[simp] theorem advance_vcnt (t : Thread) : (advance t).vcnt = t.vcnt := rfl
@[simp] theorem advance_fpmode (t : Thread) : (advance t).fpmode = t.fpmode := rfl
@[simp] theorem advance_err (t : Thread) : (advance t).err = t.err := rfl
@[simp] theorem advance_asid (t : Thread) : (advance t).asid = t.asid := rfl
@[simp] theorem advance_hdl (t : Thread) : (advance t).hdl = t.hdl := rfl
@[simp] theorem advance_trapcause (t : Thread) : (advance t).trapcause = t.trapcause := rfl
@[simp] theorem advance_trappc (t : Thread) : (advance t).trappc = t.trappc := rfl
@[simp] theorem advance_trapop (t : Thread) : (advance t).trapop = t.trapop := rfl
@[simp] theorem advance_trapd (t : Thread) : (advance t).trapd = t.trapd := rfl
@[simp] theorem advance_trapa (t : Thread) : (advance t).trapa = t.trapa := rfl
@[simp] theorem advance_trapb (t : Thread) : (advance t).trapb = t.trapb := rfl
@[simp] theorem advance_trapf (t : Thread) : (advance t).trapf = t.trapf := rfl
@[simp] theorem advance_slots (t : Thread) : (advance t).slots = t.slots := rfl
@[simp] theorem advance_regGen (t : Thread) : (advance t).regGen = t.regGen := rfl
@[simp] theorem advance_rest (t : Thread) : (advance t).rest = t.rest := rfl
@[simp] theorem advance_live (t : Thread) : (advance t).live = t.live := rfl
@[simp] theorem advance_handler (t : Thread) : (advance t).handler = t.handler := rfl
@[simp] theorem advance_log (t : Thread) : (advance t).log = t.log := rfl
@[simp] theorem advance_pend (t : Thread) : (advance t).pend = t.pend := rfl
@[simp] theorem advance_fabric (t : Thread) : (advance t).fabric = t.fabric := rfl
@[simp] theorem advance_blocked (t : Thread) : (advance t).blocked = t.blocked := rfl
@[simp] theorem advance_acq (t : Thread) : (advance t).acq = t.acq := rfl
@[simp] theorem advance_slot (t : Thread) : (advance t).slot = t.slot := rfl
@[simp] theorem advance_waited (t : Thread) : (advance t).waited = t.waited := rfl
@[simp] theorem advance_resumed (t : Thread) : (advance t).resumed = t.resumed := rfl

/-! ### `closeWindows` -/

@[simp] theorem closeWindows_agent (t : Thread) (m : LaneMask) : (closeWindows t m).agent = t.agent := rfl
@[simp] theorem closeWindows_status (t : Thread) (m : LaneMask) : (closeWindows t m).status = t.status := rfl
@[simp] theorem closeWindows_nregs (t : Thread) (m : LaneMask) : (closeWindows t m).nregs = t.nregs := rfl
@[simp] theorem closeWindows_v (t : Thread) (m : LaneMask) : (closeWindows t m).v = t.v := rfl
@[simp] theorem closeWindows_vEmpty (t : Thread) (m : LaneMask) : (closeWindows t m).vEmpty = t.vEmpty := rfl
@[simp] theorem closeWindows_vMark (t : Thread) (m : LaneMask) : (closeWindows t m).vMark = t.vMark := rfl
@[simp] theorem closeWindows_k (t : Thread) (m : LaneMask) : (closeWindows t m).k = t.k := rfl
@[simp] theorem closeWindows_kMark (t : Thread) (m : LaneMask) : (closeWindows t m).kMark = t.kMark := rfl
@[simp] theorem closeWindows_p (t : Thread) (m : LaneMask) : (closeWindows t m).p = t.p := rfl
@[simp] theorem closeWindows_pMark (t : Thread) (m : LaneMask) : (closeWindows t m).pMark = t.pMark := rfl
@[simp] theorem closeWindows_caps (t : Thread) (m : LaneMask) : (closeWindows t m).caps = t.caps := rfl
@[simp] theorem closeWindows_ident (t : Thread) (m : LaneMask) : (closeWindows t m).ident = t.ident := rfl
@[simp] theorem closeWindows_stklo (t : Thread) (m : LaneMask) : (closeWindows t m).stklo = t.stklo := rfl
@[simp] theorem closeWindows_stkhi (t : Thread) (m : LaneMask) : (closeWindows t m).stkhi = t.stkhi := rfl
@[simp] theorem closeWindows_vcnt (t : Thread) (m : LaneMask) : (closeWindows t m).vcnt = t.vcnt := rfl
@[simp] theorem closeWindows_fpmode (t : Thread) (m : LaneMask) : (closeWindows t m).fpmode = t.fpmode := rfl
@[simp] theorem closeWindows_err (t : Thread) (m : LaneMask) : (closeWindows t m).err = t.err := rfl
@[simp] theorem closeWindows_asid (t : Thread) (m : LaneMask) : (closeWindows t m).asid = t.asid := rfl
@[simp] theorem closeWindows_hdl (t : Thread) (m : LaneMask) : (closeWindows t m).hdl = t.hdl := rfl
@[simp] theorem closeWindows_trapcause (t : Thread) (m : LaneMask) : (closeWindows t m).trapcause = t.trapcause := rfl
@[simp] theorem closeWindows_trappc (t : Thread) (m : LaneMask) : (closeWindows t m).trappc = t.trappc := rfl
@[simp] theorem closeWindows_trapop (t : Thread) (m : LaneMask) : (closeWindows t m).trapop = t.trapop := rfl
@[simp] theorem closeWindows_trapd (t : Thread) (m : LaneMask) : (closeWindows t m).trapd = t.trapd := rfl
@[simp] theorem closeWindows_trapa (t : Thread) (m : LaneMask) : (closeWindows t m).trapa = t.trapa := rfl
@[simp] theorem closeWindows_trapb (t : Thread) (m : LaneMask) : (closeWindows t m).trapb = t.trapb := rfl
@[simp] theorem closeWindows_trapf (t : Thread) (m : LaneMask) : (closeWindows t m).trapf = t.trapf := rfl
@[simp] theorem closeWindows_slots (t : Thread) (m : LaneMask) : (closeWindows t m).slots = t.slots := rfl
@[simp] theorem closeWindows_regGen (t : Thread) (m : LaneMask) : (closeWindows t m).regGen = t.regGen := rfl
@[simp] theorem closeWindows_grp (t : Thread) (m : LaneMask) : (closeWindows t m).grp = t.grp := rfl
@[simp] theorem closeWindows_rest (t : Thread) (m : LaneMask) : (closeWindows t m).rest = t.rest := rfl
@[simp] theorem closeWindows_live (t : Thread) (m : LaneMask) : (closeWindows t m).live = t.live := rfl
@[simp] theorem closeWindows_handler (t : Thread) (m : LaneMask) : (closeWindows t m).handler = t.handler := rfl
@[simp] theorem closeWindows_log (t : Thread) (m : LaneMask) : (closeWindows t m).log = t.log := rfl
@[simp] theorem closeWindows_fabric (t : Thread) (m : LaneMask) : (closeWindows t m).fabric = t.fabric := rfl
@[simp] theorem closeWindows_blocked (t : Thread) (m : LaneMask) : (closeWindows t m).blocked = t.blocked := rfl
@[simp] theorem closeWindows_acq (t : Thread) (m : LaneMask) : (closeWindows t m).acq = t.acq := rfl
@[simp] theorem closeWindows_slot (t : Thread) (m : LaneMask) : (closeWindows t m).slot = t.slot := rfl
@[simp] theorem closeWindows_waited (t : Thread) (m : LaneMask) : (closeWindows t m).waited = t.waited := rfl
@[simp] theorem closeWindows_resumed (t : Thread) (m : LaneMask) : (closeWindows t m).resumed = t.resumed := rfl
@[simp] theorem closeWindows_issues (t : Thread) (m : LaneMask) : (closeWindows t m).issues = t.issues := rfl

/-! ### `countWindows` -/

@[simp] theorem countWindows_agent (t : Thread) (m : LaneMask) (ds : List Wr) : (countWindows t m ds).agent = t.agent := rfl
@[simp] theorem countWindows_status (t : Thread) (m : LaneMask) (ds : List Wr) : (countWindows t m ds).status = t.status := rfl
@[simp] theorem countWindows_nregs (t : Thread) (m : LaneMask) (ds : List Wr) : (countWindows t m ds).nregs = t.nregs := rfl
@[simp] theorem countWindows_v (t : Thread) (m : LaneMask) (ds : List Wr) : (countWindows t m ds).v = t.v := rfl
@[simp] theorem countWindows_vEmpty (t : Thread) (m : LaneMask) (ds : List Wr) : (countWindows t m ds).vEmpty = t.vEmpty := rfl
@[simp] theorem countWindows_vMark (t : Thread) (m : LaneMask) (ds : List Wr) : (countWindows t m ds).vMark = t.vMark := rfl
@[simp] theorem countWindows_k (t : Thread) (m : LaneMask) (ds : List Wr) : (countWindows t m ds).k = t.k := rfl
@[simp] theorem countWindows_kMark (t : Thread) (m : LaneMask) (ds : List Wr) : (countWindows t m ds).kMark = t.kMark := rfl
@[simp] theorem countWindows_p (t : Thread) (m : LaneMask) (ds : List Wr) : (countWindows t m ds).p = t.p := rfl
@[simp] theorem countWindows_pMark (t : Thread) (m : LaneMask) (ds : List Wr) : (countWindows t m ds).pMark = t.pMark := rfl
@[simp] theorem countWindows_caps (t : Thread) (m : LaneMask) (ds : List Wr) : (countWindows t m ds).caps = t.caps := rfl
@[simp] theorem countWindows_ident (t : Thread) (m : LaneMask) (ds : List Wr) : (countWindows t m ds).ident = t.ident := rfl
@[simp] theorem countWindows_stklo (t : Thread) (m : LaneMask) (ds : List Wr) : (countWindows t m ds).stklo = t.stklo := rfl
@[simp] theorem countWindows_stkhi (t : Thread) (m : LaneMask) (ds : List Wr) : (countWindows t m ds).stkhi = t.stkhi := rfl
@[simp] theorem countWindows_vcnt (t : Thread) (m : LaneMask) (ds : List Wr) : (countWindows t m ds).vcnt = t.vcnt := rfl
@[simp] theorem countWindows_fpmode (t : Thread) (m : LaneMask) (ds : List Wr) : (countWindows t m ds).fpmode = t.fpmode := rfl
@[simp] theorem countWindows_err (t : Thread) (m : LaneMask) (ds : List Wr) : (countWindows t m ds).err = t.err := rfl
@[simp] theorem countWindows_asid (t : Thread) (m : LaneMask) (ds : List Wr) : (countWindows t m ds).asid = t.asid := rfl
@[simp] theorem countWindows_hdl (t : Thread) (m : LaneMask) (ds : List Wr) : (countWindows t m ds).hdl = t.hdl := rfl
@[simp] theorem countWindows_trapcause (t : Thread) (m : LaneMask) (ds : List Wr) : (countWindows t m ds).trapcause = t.trapcause := rfl
@[simp] theorem countWindows_trappc (t : Thread) (m : LaneMask) (ds : List Wr) : (countWindows t m ds).trappc = t.trappc := rfl
@[simp] theorem countWindows_trapop (t : Thread) (m : LaneMask) (ds : List Wr) : (countWindows t m ds).trapop = t.trapop := rfl
@[simp] theorem countWindows_trapd (t : Thread) (m : LaneMask) (ds : List Wr) : (countWindows t m ds).trapd = t.trapd := rfl
@[simp] theorem countWindows_trapa (t : Thread) (m : LaneMask) (ds : List Wr) : (countWindows t m ds).trapa = t.trapa := rfl
@[simp] theorem countWindows_trapb (t : Thread) (m : LaneMask) (ds : List Wr) : (countWindows t m ds).trapb = t.trapb := rfl
@[simp] theorem countWindows_trapf (t : Thread) (m : LaneMask) (ds : List Wr) : (countWindows t m ds).trapf = t.trapf := rfl
@[simp] theorem countWindows_slots (t : Thread) (m : LaneMask) (ds : List Wr) : (countWindows t m ds).slots = t.slots := rfl
@[simp] theorem countWindows_regGen (t : Thread) (m : LaneMask) (ds : List Wr) : (countWindows t m ds).regGen = t.regGen := rfl
@[simp] theorem countWindows_grp (t : Thread) (m : LaneMask) (ds : List Wr) : (countWindows t m ds).grp = t.grp := rfl
@[simp] theorem countWindows_rest (t : Thread) (m : LaneMask) (ds : List Wr) : (countWindows t m ds).rest = t.rest := rfl
@[simp] theorem countWindows_live (t : Thread) (m : LaneMask) (ds : List Wr) : (countWindows t m ds).live = t.live := rfl
@[simp] theorem countWindows_handler (t : Thread) (m : LaneMask) (ds : List Wr) : (countWindows t m ds).handler = t.handler := rfl
@[simp] theorem countWindows_log (t : Thread) (m : LaneMask) (ds : List Wr) : (countWindows t m ds).log = t.log := rfl
@[simp] theorem countWindows_fabric (t : Thread) (m : LaneMask) (ds : List Wr) : (countWindows t m ds).fabric = t.fabric := rfl
@[simp] theorem countWindows_blocked (t : Thread) (m : LaneMask) (ds : List Wr) : (countWindows t m ds).blocked = t.blocked := rfl
@[simp] theorem countWindows_acq (t : Thread) (m : LaneMask) (ds : List Wr) : (countWindows t m ds).acq = t.acq := rfl
@[simp] theorem countWindows_slot (t : Thread) (m : LaneMask) (ds : List Wr) : (countWindows t m ds).slot = t.slot := rfl
@[simp] theorem countWindows_waited (t : Thread) (m : LaneMask) (ds : List Wr) : (countWindows t m ds).waited = t.waited := rfl
@[simp] theorem countWindows_resumed (t : Thread) (m : LaneMask) (ds : List Wr) : (countWindows t m ds).resumed = t.resumed := rfl
@[simp] theorem countWindows_issues (t : Thread) (m : LaneMask) (ds : List Wr) : (countWindows t m ds).issues = t.issues := rfl

@[simp] theorem advance_pc (t : Thread) : (advance t).grp.pc = nextPc t.grp := rfl
@[simp] theorem advance_fixed (t : Thread) : (advance t).grp.fixed = false := rfl
@[simp] theorem advance_issues (t : Thread) : (advance t).issues = t.issues + 1 := rfl
@[simp] theorem advance_mask (t : Thread) : (advance t).grp.mask = t.grp.mask := rfl
@[simp] theorem advance_replay (t : Thread) : (advance t).grp.replay = none := rfl
@[simp] theorem advance_st (t : Thread) : (advance t).grp.st = t.grp.st := rfl

/-! ### Reading back what was put -/

@[simp] theorem State.core_setCore (s : State) (n : Nat) (x : CoreSt) : (s.setCore n x).core n = x := tget_tset_self _ _ _ _
@[simp] theorem State.die_setDie (s : State) (n : Nat) (x : DieView) : (s.setDie n x).die n = x := tget_tset_self _ _ _ _
@[simp] theorem State.queue_setQueue (s : State) (n : Nat) (x : Queue) : (s.setQueue n x).queue n = x := tget_tset_self _ _ _ _
@[simp] theorem State.ring_setRing (s : State) (n : Nat) (x : Carousel) : (s.setRing n x).ring n = x := tget_tset_self _ _ _ _
@[simp] theorem State.mailbox_setMailbox (s : State) (n : Nat) (x : Mailbox) : (s.setMailbox n x).mailbox n = x := tget_tset_self _ _ _ _
@[simp] theorem State.timer_setTimer (s : State) (n : Nat) (x : CoreTimer) : (s.setTimer n x).timer n = x := tget_tset_self _ _ _ _
@[simp] theorem State.noc_setNoc (s : State) (n : Nat) (x : Noc) : (s.setNoc n x).noc n = x := tget_tset_self _ _ _ _
@[simp] theorem State.lease_setLease (s : State) (n : Nat) (x : Lease) : (s.setLease n x).lease n = x := tget_tset_self _ _ _ _
theorem State.core_setCore_ne (s : State) (n k : Nat) (x : CoreSt) (h : k ≠ n) : (s.setCore n x).core k = s.core k := tget_tset_ne _ _ _ _ _ h
theorem State.die_setDie_ne (s : State) (n k : Nat) (x : DieView) (h : k ≠ n) : (s.setDie n x).die k = s.die k := tget_tset_ne _ _ _ _ _ h
theorem State.queue_setQueue_ne (s : State) (n k : Nat) (x : Queue) (h : k ≠ n) : (s.setQueue n x).queue k = s.queue k := tget_tset_ne _ _ _ _ _ h
theorem State.ring_setRing_ne (s : State) (n k : Nat) (x : Carousel) (h : k ≠ n) : (s.setRing n x).ring k = s.ring k := tget_tset_ne _ _ _ _ _ h
theorem State.mailbox_setMailbox_ne (s : State) (n k : Nat) (x : Mailbox) (h : k ≠ n) : (s.setMailbox n x).mailbox k = s.mailbox k := tget_tset_ne _ _ _ _ _ h
theorem State.timer_setTimer_ne (s : State) (n k : Nat) (x : CoreTimer) (h : k ≠ n) : (s.setTimer n x).timer k = s.timer k := tget_tset_ne _ _ _ _ _ h
theorem State.noc_setNoc_ne (s : State) (n k : Nat) (x : Noc) (h : k ≠ n) : (s.setNoc n x).noc k = s.noc k := tget_tset_ne _ _ _ _ _ h
theorem State.lease_setLease_ne (s : State) (n k : Nat) (x : Lease) (h : k ≠ n) : (s.setLease n x).lease k = s.lease k := tget_tset_ne _ _ _ _ _ h
@[simp] theorem Fabric.port_setPort (f : Fabric) (n : Nat) (x : Port) : (f.setPort n x).port n = x := tget_tset_self _ _ _ _
theorem Fabric.port_setPort_ne (f : Fabric) (n k : Nat) (x : Port) (h : k ≠ n) : (f.setPort n x).port k = f.port k := tget_tset_ne _ _ _ _ _ h

/-- A change of a thread that keeps its agent is read back. -/
theorem State.thread_setThread (s : State) (a : Agent) (f : Thread → Thread) (th : Thread) (h : s.thread a = some th) (hf : (f th).agent = a) :
    (s.setThread a f).thread a = some (f th) := by
  have key : ∀ l : List Thread, l.find? (fun t => t.agent == a) = some th →
      (l.map fun t => if t.agent == a then f t else t).find? (fun t => t.agent == a) = some (f th) := by
    intro l hl
    induction l with
    | nil => simp at hl
    | cons y r ih =>
      by_cases hy : y.agent = a
      · simp [hy] at hl
        subst hl
        simp [hy, hf]
      · simp [hy] at hl
        have hn : (y.agent == a) = false := by simp [hy]
        simp only [List.map_cons, hn, List.find?_cons, Bool.false_eq_true, if_false]
        exact ih (by simpa using hl)
  by_cases hc : s.th.agent = a
  · simp [State.thread, hc] at h
    subst h
    simp [State.thread, State.setThread, hc, hf]
  · simp only [State.thread, hc, if_false] at h
    simpa [State.thread, State.setThread, hc] using key _ h

end Sys2Proof.Machine
end

