-- ==== Sys2Proof/Safety.lean ====
section
/-!
DEFINITION. The terms that claims use: a step that goes on, memory in its canonical form, a word that issues now, and the state
in which a word has issued or ended.
-/

namespace Sys2Proof.Machine

/-- The step goes on. -/
def Out.goesOn : Out → Bool
  | .next _ => true
  | .fault _ => false
  | .refused _ => false

/-- The memory, the marks and the line keys stand in their canonical form. -/
def Memory.wf (s : State) : Bool := twf 0 s.mem && twf false s.memMark && twf 0 s.lineKey

/-- The thread as a word finds it: a word that ends windows has closed those of its lanes (R61). -/
def atWord (i : Instr) (th : Thread) : Thread := if endsWindow i then closeWindows th th.grp.mask else th

/-- The lanes that take part in a word (R50). -/
def partaking (i : Instr) (hd : Hdr) (s : State) : LaneMask := takesPart (atWord i s.th) hd

/-- A word issues now: no source register of a lane that takes part is empty (R12), no outstanding result or wait holds it
back (R61), no access that it must wait for is out (R119, R257), and a window is free for it (R360). `uses` are its register
operands. -/
def issuesNow (i : Instr) (uses : List (Role × Operand)) (hd : Hdr) (s : State) : Bool :=
  let th := atWord i s.th
  !(heldBack th (if th.grp.replay = none then uses else []) hd.la.toNat (takesPart th hd) || fenced th i)

/-- The state in which a word has issued: its lookahead windows counted, and none of its effects (R61). `preds` are the
predicates that it writes. -/
def issued (i : Instr) (uses : List (Role × Operand)) (preds : List (BitVec 3)) (hd : Hdr) (s : State) : State :=
  let th := atWord i s.th
  s.setTh (countWindows th th.grp.mask (issueDests hd uses preds (takesPart th hd)))

/-- The sub-group stands at the next word. -/
def onward (s : State) : State := s.setTh (advance s.th)

/-- A word of groups 0 to 6 has ended that writes result `f s l` of `n` words to D in every lane that takes part, and raises
the flags of those lanes (R73, R75). -/
def laneEnd (i : Instr) (hd : Hdr) (n : Nat) (d : Operand) (f : State → Nat → LaneRes) (s : State) : State :=
  let act := partaking i hd s
  let t := issued i i.uses [] hd s
  onward (t.setTh ((noteWord t.th i act).writes (laneResults i act n d f t)))

/-- As `laneEnd` for a long-latency word, whose result waits for its window (R61). -/
def laneEndLong (i : Instr) (hd : Hdr) (n : Nat) (d : Operand) (f : State → Nat → LaneRes) (s : State) : State :=
  let act := partaking i hd s
  let t := issued i i.uses [] hd s
  onward (t.setTh (deliver hd (laneResults i act n d f t) (noteWord t.th i act)))

/-- A word has ended that writes predicate `pd` in every lane that takes part. -/
def predEnd (i : Instr) (hd : Hdr) (pd : BitVec 3) (f : State → Nat → Bool × FFlags) (s : State) : State :=
  let act := partaking i hd s
  let t := issued i i.uses [pd] hd s
  onward (t.setTh ((noteWord t.th i act).writes (predResults i act pd f t)))

/-- As `predEnd` for a long-latency word. -/
def predEndLong (i : Instr) (hd : Hdr) (pd : BitVec 3) (f : State → Nat → Bool × FFlags) (s : State) : State :=
  let act := partaking i hd s
  let t := issued i i.uses [pd] hd s
  onward (t.setTh (deliver hd (predResults i act pd f t) (noteWord t.th i act)))

/-- Whenever it issues, the word goes on to the state that `f` gives. -/
def Completes (i : Instr) (uses : List (Role × Operand)) (hd : Hdr) (f : State → State) : Prop :=
  ∀ s, issuesNow i uses hd s = true → exec i s = .next (f s)

/-- Whenever it issues, the word writes result `f s l` of `n` words to D in every lane l that takes part. -/
def LaneWord (i : Instr) (hd : Hdr) (n : Nat) (d : Operand) (f : State → Nat → LaneRes) : Prop :=
  Completes i i.uses hd (laneEnd i hd n d f)

/-- As `LaneWord` for a long-latency word. -/
def LaneWordLong (i : Instr) (hd : Hdr) (n : Nat) (d : Operand) (f : State → Nat → LaneRes) : Prop :=
  Completes i i.uses hd (laneEndLong i hd n d f)

/-- Whenever it issues, the word writes predicate `pd` with `f s l` in every lane l that takes part. -/
def PredWord (i : Instr) (hd : Hdr) (pd : BitVec 3) (f : State → Nat → Bool × FFlags) : Prop :=
  Completes i i.uses hd (predEnd i hd pd f)

/-- As `PredWord` for a long-latency word. -/
def PredWordLong (i : Instr) (hd : Hdr) (pd : BitVec 3) (f : State → Nat → Bool × FFlags) : Prop :=
  Completes i i.uses hd (predEndLong i hd pd f)

/-! ### Memory words -/

/-- The state as a memory word finds it. -/
def wordState (i : Instr) (s : State) : State := if endsWindow i then s.setTh (closeWindows s.th s.th.grp.mask) else s

/-- The operands of a memory word's lanes: read now by `lanes`, or those of the operand log (R128). -/
def memLanes (i : Instr) (hd : Hdr) (lanes : State → LaneMask → List LogLane) (s : State) : List LogLane :=
  match (wordState i s).th.grp.replay with
  | some w => w.lanes
  | none => lanes (wordState i s) (partaking i hd s)

/-- What the checks and walks of a memory word give, lane by lane, and the state with the walks done (R112, R346). -/
def memWalk (i : Instr) (hd : Hdr) (lanes : State → LaneMask → List LogLane) (ask : State → LogLane → LaneReq) (s : State) :
    List (LogLane × Except Refused Place × DWord) × State :=
  resolveAll ((memLanes i hd lanes s).map fun x => (x, ask (wordState i s) x)) (wordState i s)

/-- The places that the lanes of a memory word reach. -/
def memPlaces (i : Instr) (hd : Hdr) (lanes : State → LaneMask → List LogLane) (ask : State → LogLane → LaneReq) (s : State) :
    List (LogLane × Place) :=
  placesOf (memWalk i hd lanes ask s).1

/-- A memory word issues and is performed: the throttle lets it (R230), no lane faults (R126), no place lies in an origin directory
(R344), and `waits` names nothing that it must wait for. -/
def memReady (i : Instr) (uses : List (Role × Operand)) (hd : Hdr) (lanes : State → LaneMask → List LogLane)
    (ask : State → LogLane → LaneReq) (waits : State → List (LogLane × Place) → Bool) (s : State) : Bool :=
  issuesNow i uses hd s && !(isMemoryWord i && !throttleAllows (wordState i s))
    && (worstOf (memWalk i hd lanes ask s).1).isNone && !((memPlaces i hd lanes ask s).any fun p => p.2.inDirectory)
    && !waits (memWalk i hd lanes ask s).2 (memPlaces i hd lanes ask s)

/-- The state in which a memory word has issued: walks done, windows counted, nothing performed. -/
def memIssued (i : Instr) (uses : List (Role × Operand)) (hd : Hdr) (lanes : State → LaneMask → List LogLane)
    (ask : State → LogLane → LaneReq) (s : State) : State :=
  let t := (memWalk i hd lanes ask s).2
  t.setTh (countWindows t.th t.th.grp.mask (issueDests hd uses [] (partaking i hd s)))

/-- Whenever it is ready, the memory word, whose register operands are `uses`, goes on to the state that `f` gives of its lanes, their
places and the state in which it has issued. -/
def MemoryWordOf (i : Instr) (uses : List (Role × Operand)) (hd : Hdr) (lanes : State → LaneMask → List LogLane)
    (ask : State → LogLane → LaneReq) (waits : State → List (LogLane × Place) → Bool)
    (f : LaneMask → List (LogLane × Place) → State → State) : Prop :=
  ∀ s, memReady i uses hd lanes ask waits s = true →
    exec i s = .next (f (partaking i hd s) (memPlaces i hd lanes ask s) (memIssued i uses hd lanes ask s))

/-- As `MemoryWordOf` with the operands that the instruction names. -/
def MemoryWord (i : Instr) (hd : Hdr) (lanes : State → LaneMask → List LogLane) (ask : State → LogLane → LaneReq)
    (waits : State → List (LogLane × Place) → Bool) (f : LaneMask → List (LogLane × Place) → State → State) : Prop :=
  MemoryWordOf i i.uses hd lanes ask waits f

/-! ### Fetch, decoding and frames -/

/-- The engine executes the instruction (R63): a paired word is a troupe's. -/
def runsOn (e : Engine) (i : Instr) : Bool :=
  match i with
  | .pairedWord _ _ => e == .troupe
  | i => engineRuns e (i.opcode / 64) (i.opcode % 64)

/-- The word at the program counter of the sub-group whose turn it is, and the state in which it has been fetched (R47, R106). -/
def Fetches (s : State) (w : DWord) (t : State) : Prop :=
  isWindow s.th.grp.pc.toNat = false ∧ ∃ pa key,
    translate s (curTlb s) (curAsid s) s.th.grp.pc.toNat ⟨.fetch, s.th.agent.privileged, none, false⟩ = (.ok (pa, key), t) ∧
    inDirectory pa = false ∧
    ((homedHere t pa || isHost pa) = true ∧ w = BitVec.ofNat 64 (memNat t key pa 8) ∨
      (homedHere t pa || isHost pa) = false ∧ ∃ b m, peek t 32 8 (.mem pa key) = some (b, m) ∧ w = BitVec.ofNat 64 (ofBytes b))

/-- The port `p` has its turn and agent `a` is the first of it (R226): no device step and no pending word is due, the current
sub-group of the agent can issue, and neither a YIELD nor a pending replay of its troupe withholds it (R109, R361). -/
def firstAt (s : State) (p : IssuePort) (a : Agent) (u : State) : Prop :=
  s.inputs = [] ∧ dueStep s = none ∧ ∃ r l, s.turns = p :: r ∧ turnOrder s p = a :: l ∧
    focus { s with turns := r } a = some u ∧ u.th.grp.yielded = none ∧ replayFirst u.th u.th.grp = true ∧ canIssue (goes u).th = true ∧ assistHolds (goes u) = false

/-- A port has issued a word of an agent of it with the lanes of a mask, which left the state `v` (R103, R109, R226, R227). -/
def portTurn (s : State) (p : IssuePort) (a : Agent) (m : LaneMask) (v : State) : State :=
  issuedAt exec p a m (turnOrder s p) { s with turns := s.turns.drop 1 } v

/-- D of `n` words names per-lane register r. -/
def namesV (n r : Nat) : Operand → Bool
  | .v m => decide (m.toNat ≤ r) && decide (r < m.toNat + n)
  | .k _ => false
  | .s _ => false
  | .c _ => false

/-- D of `n` words names uniform register r. -/
def namesK (n r : Nat) : Operand → Bool
  | .v _ => false
  | .k m => decide (m.toNat ≤ r) && decide (r < m.toNat + n)
  | .s _ => false
  | .c _ => false

/-- The special registers and capability registers that no result of groups 0 to 6 reaches (R14, R15): every one but `s_fpmode`
and `s_err`. -/
def sameSpecials (a b : Thread) : Prop :=
  a.ident = b.ident ∧ a.stklo = b.stklo ∧ a.stkhi = b.stkhi ∧ a.vcnt = b.vcnt ∧ a.hdl = b.hdl ∧ a.trapcause = b.trapcause ∧
  a.trappc = b.trappc ∧ a.trapop = b.trapop ∧ a.trapd = b.trapd ∧ a.trapa = b.trapa ∧ a.trapb = b.trapb ∧ a.trapf = b.trapf ∧
  a.caps = b.caps

/-- The general registers of two threads are the same: per-lane, uniform and predicate registers. -/
def sameRegisters (a b : Thread) : Prop :=
  (∀ l r, a.rdV l r = b.rdV l r) ∧ (∀ r, a.rdK r = b.rdK r) ∧ ∀ l p, a.rdP l p = b.rdP l p

/-- Device memory, its data-error marks and the keys of its lines are the same. -/
def sameMemory (a b : State) : Prop := a.mem = b.mem ∧ a.memMark = b.memMark ∧ a.lineKey = b.lineKey

/-- A byte of a scratchpad; none where no such workgroup is in the package. -/
def scratchByte (s : State) (c w off : Nat) : Option Byte := (getWg s c w).map fun g => tget 0 g.scratch off

/-- The `n` bytes stored at a place leave the byte of memory at `pa` alone, and its line under key index `key` (R351). -/
def sparesByte (n key pa : Nat) : Place → Bool
  | .mem a k => (decide (pa < a) || decide (a + n ≤ pa)) && (!(linesOf a n).contains (pa / 128) || k == key)
  | .scratch _ _ _ => true
  | .window _ => true

/-- The `n` bytes stored at a place leave a byte of a scratchpad alone. -/
def sparesScratch (n c w off : Nat) : Place → Bool
  | .mem _ _ => true
  | .scratch c' w' a => c != c' || w != w' || decide (off < a) || decide (a + n ≤ off)
  | .window _ => true

/-- The place is no register. -/
def Place.noWindow : Place → Bool
  | .mem _ _ => true
  | .scratch _ _ _ => true
  | .window _ => false

/-! ### Words of groups 10 to 15 -/

/-- Whenever it issues with a lane that takes part, and `ok` holds where it has issued, the word goes on behind the state that `f`
gives. -/
def Works (i : Instr) (uses : List (Role × Operand)) (preds : List (BitVec 3)) (hd : Hdr) (ok : LaneMask → State → Prop)
    (f : LaneMask → State → State) : Prop :=
  ∀ s, issuesNow i uses hd s = true → partaking i hd s ≠ 0 → ok (partaking i hd s) (issued i uses preds hd s) →
    exec i s = .next (onward (f (partaking i hd s) (issued i uses preds hd s)))

/-- A result is delivered to D: `n` words of `x`, the same in every lane that takes part (R61, R73). -/
def result (hd : Hdr) (act : LaneMask) (n : Nat) (d : Operand) (x : DWord) (mark : Bool) (t : State) : State :=
  t.setTh (deliver hd (laneWrites act n d (fun _ => x) fun _ => mark) t.th)

/-- The state in which a tile command has issued: a marked descriptor has raised DATAF (R16, R75). -/
def tileIssued (i : Instr) (hd : Hdr) (a : Operand) (s : State) : State :=
  let t := issued i i.uses [] hd s
  t.setTh (if t.th.marked (lowLane (partaking i hd s)) 4 a then t.th.raiseErr 4 else t.th)

/-- Whenever it issues, its counter is not full and the pool has its two entries, the tile command joins the copy queue (R131). -/
def CopyWord (i : Instr) (hd : Hdr) (kind : CopyKind) (out : Bool) (tl : BitVec 3) (h : BitVec 8) (a : Operand) : Prop :=
  ∀ s u, let t := tileIssued i hd a s
    issuesNow i i.uses hd s = true → partaking i hd s ≠ 0 → (t.wg.tl tl.toNat).full = false → poolAsk t 0 2 = some u →
      exec i s = .next (joinCopy u tl.toNat (tileCmd t kind out tl.toNat 2 h (opnd128 t (lowLane (partaking i hd s)) 4 a)))

/-- Whenever it issues and the pool has its entries, the matrix operation joins the queue of its workgroup (R131, R155). -/
def MatWord (i : Instr) (hd : Hdr) (entries : Nat) (mk : State → LaneMask → MatOp) : Prop :=
  ∀ s u, let t := issued i i.uses [] hd s
    issuesNow i i.uses hd s = true → partaking i hd s ≠ 0 → poolAsk t 1 entries = some u →
      exec i s = .next (joinMat u (mk t (partaking i hd s)))

/-- Whenever it issues, the word waits: it is done where its condition holds, and else goes on with a wait open (R61). A marked operand
raises DATAF (R16). -/
def WaitWord (i : Instr) (hd : Hdr) (w : State → LaneMask → Wait) (done : State → Wait → Option State) : Prop :=
  Works i i.uses [] hd (fun _ _ => True) fun act s =>
    let t := s.setTh (noteWord s.th i act)
    match done t (w t act) with
    | some u => u
    | none => t.setTh (openKept hd (w t act) (waitLog i hd act t) t.th)

/-- A wait of the agent whose turn it is whose condition holds is done, and its sub-group is free (R61). -/
def WaitEnds (mk : SubRef → Instr) (f : Wait → Bool) (done : SubRef → State → Wait → Option State) : Prop :=
  ∀ r s i p w t, refAgent r = s.th.agent → findPend s.th r.lane (Pend.waitsFor f) = some (i, p) → p.owed = .wait w →
    done r s w = some t → t.th.agent = s.th.agent → exec (mk r) s = .next (t.setTh (donePend t.th i))

end Sys2Proof.Machine
end

