-- ==== Sys2Proof/Laws/Ops.lean ====
section
/-!
SUPPORT. What the shared operations of a word can do, once each: issuing, the lane words, the predicate words and the memory
words.
-/

namespace Sys2Proof.Machine

variable {i : Instr} {uses : List (Role × Operand)} {preds : List (BitVec 3)} {hd : Hdr} {s : State}

/-- A word that issues performs its body in the state in which it has issued. -/
theorem issue_now (h : issuesNow i uses hd s = true) (body : LaneMask → State → Out) :
    issue i uses preds hd s body = body (partaking i hd s) (issued i uses preds hd s) := by
  have h' : (heldBack (atWord i s.th) (if (atWord i s.th).grp.replay = none then uses else []) hd.la.toNat
      (takesPart (atWord i s.th) hd) || fenced (atWord i s.th) i) = false := by
    simpa only [issuesNow, Bool.not_eq_true'] using h
  show (if (heldBack (atWord i s.th) (if (atWord i s.th).grp.replay = none then uses else []) hd.la.toNat
      (takesPart (atWord i s.th) hd) || fenced (atWord i s.th) i) = true then _ else _) = _
  rw [h']
  rfl

/-- A word that does not issue only closes windows that it ends. -/
theorem issue_held (h : issuesNow i uses hd s = false) (body : LaneMask → State → Out) :
    issue i uses preds hd s body = .next (s.setTh (atWord i s.th)) := by
  have h' : (heldBack (atWord i s.th) (if (atWord i s.th).grp.replay = none then uses else []) hd.la.toNat
      (takesPart (atWord i s.th) hd) || fenced (atWord i s.th) i) = true := by
    simpa only [issuesNow, Bool.not_eq_false'] using h
  show (if (heldBack (atWord i s.th) (if (atWord i s.th).grp.replay = none then uses else []) hd.la.toNat
      (takesPart (atWord i s.th) hd) || fenced (atWord i s.th) i) = true then _ else _) = _
  rw [h']
  rfl

/-- Everything that `issue` can answer. -/
theorem issue_cases (body : LaneMask → State → Out) :
    issue i uses preds hd s body = .next (s.setTh (atWord i s.th)) ∨
    (issuesNow i uses hd s = true ∧
      issue i uses preds hd s body = body (partaking i hd s) (issued i uses preds hd s)) := by
  cases h : issuesNow i uses hd s
  · exact .inl (issue_held h body)
  · exact .inr ⟨rfl, issue_now h body⟩

/-- A lane word that issues. -/
theorem laneOp_now {n : Nat} {d : Operand} {f : State → Nat → LaneRes} (h : issuesNow i i.uses hd s = true) :
    laneOp i hd n d f s = .next (laneEnd i hd n d f s) :=
  issue_now h _

/-- A long-latency lane word that issues. -/
theorem laneOpLong_now {n : Nat} {d : Operand} {f : State → Nat → LaneRes} (h : issuesNow i i.uses hd s = true) :
    laneOpLong i hd n d f s = .next (laneEndLong i hd n d f s) :=
  issue_now h _

/-- A predicate word that issues. -/
theorem predOp_now {pd : BitVec 3} {f : State → Nat → Bool × FFlags} (h : issuesNow i i.uses hd s = true) :
    predOp i hd pd f s = .next (predEnd i hd pd f s) :=
  issue_now h _

/-- A long-latency predicate word that issues. -/
theorem predOpLong_now {pd : BitVec 3} {f : State → Nat → Bool × FFlags} (h : issuesNow i i.uses hd s = true) :
    predOpLong i hd pd f s = .next (predEndLong i hd pd f s) :=
  issue_now h _

theorem wordState_th : (wordState i s).th = atWord i s.th := by
  unfold wordState atWord
  split <;> rfl

/-- A memory word that is ready performs its body. -/
theorem memWord_now {kind : Access} {lanes : State → LaneMask → List LogLane} {ask : State → LogLane → LaneReq}
    {waits : State → List (LogLane × Place) → Bool} (h : memReady i uses hd lanes ask waits s = true)
    (body : LaneMask → List (LogLane × Place) → State → Out) :
    memWord i uses hd kind s lanes ask waits body =
      body (partaking i hd s) (memPlaces i hd lanes ask s) (memIssued i uses hd lanes ask s) := by
  simp only [memReady, Bool.and_eq_true, Bool.not_eq_true'] at h
  obtain ⟨⟨⟨⟨h1, h2⟩, h3⟩, h4⟩, h5⟩ := h
  have h1' := h1
  simp only [issuesNow, ← wordState_th, Bool.not_eq_true'] at h1'
  have hp : partaking i hd s = takesPart (wordState i s).th hd := by rw [wordState_th]; rfl
  have h3' : worstOf (memWalk i hd lanes ask s).1 = none := by simpa using h3
  unfold memWord
  have e : (if endsWindow i = true then s.setTh (closeWindows s.th s.th.grp.mask) else s) = wordState i s := rfl
  rw [← hp] at h1'
  simp only [e, ← hp]
  rw [h1', if_neg Bool.false_ne_true, if_neg (by rw [h2]; decide)]
  change (match worstOf (memWalk i hd lanes ask s).1 with | some f => _ | none => _) = _
  rw [h3']
  change (if ((memPlaces i hd lanes ask s).any fun p => p.2.inDirectory) = true then _
    else if waits (memWalk i hd lanes ask s).2 (memPlaces i hd lanes ask s) = true then _ else _) = _
  rw [h4, h5]
  rfl

/-- Issuing moves no sub-group. -/
theorem issued_th_pc : (issued i uses preds hd s).th.grp.pc = s.th.grp.pc := by
  unfold issued atWord
  dsimp only
  split <;> rfl

@[simp] theorem onward_pc : (onward s).th.grp.pc = nextPc s.th.grp := rfl
@[simp] theorem onward_mem : (onward s).mem = s.mem := rfl
@[simp] theorem issued_mem : (issued i uses preds hd s).mem = s.mem := rfl
@[simp] theorem issued_wg : (issued i uses preds hd s).wg = s.wg := rfl
@[simp] theorem issued_cx : (issued i uses preds hd s).cx = s.cx := rfl
@[simp] theorem issued_inputs : (issued i uses preds hd s).inputs = s.inputs := rfl

end Sys2Proof.Machine
end

