-- ==== Sys2Proof/Certificates/Slice0/Obligations.lean ====
section
/-!
DEFINITION. The statements for the provers. A completion statement says that a word or a device step answers a next state under
conditions on the state and its operands alone, and which; `Safety.lean` holds the terms it uses. The frames say what stays.
-/

open Sys2Proof Sys2Proof.Machine

/-! ### Encoding, fetch, reset, memory and frames -/

/-- Every instruction that an engine decodes is well-formed for it and one that R63 gives it. -/
def Obligations.DecodedIsWellFormed : Prop :=
  ∀ e n w i, decode e n w = .ok i → i.wf e n = true ∧ runsOn e i = true

/-- Every well-formed instruction that has an encoding decodes from it, with every operand, in each engine that executes it. -/
def Obligations.EncodeDecode : Prop :=
  ∀ e n i w, i.wf e n = true → runsOn e i = true → encode i = some w → decode e n w = .ok i

/-- Words written out from the fields of R48 decode to the instructions that they stand for. -/
def Obligations.DecodeWords : Prop :=
  let hd : Hdr := ⟨0, 7, false⟩
  decode .troupe 32 (0#1 ++ 0x000#10 ++ 0#4 ++ 7#3 ++ 0#1 ++ 3#9 ++ 1#9 ++ 2#9 ++ 0#18)
    = .ok (.iadd ⟨hd, .v 3, .v 1, .v 2, false, false⟩ false) ∧
  decode .troupe 32 (0#1 ++ 0x0c3#10 ++ 0#4 ++ 7#3 ++ 0#1 ++ 8#9 ++ 2#9 ++ 3#9 ++ (4#9 ++ 0#3 ++ 1#3 ++ 0#1 ++ 1#2))
    = .ok (.ffma ⟨hd, .v 8, .v 2, .v 3, .v 4, false, false, false⟩ 1 false 1) ∧
  decode .troupe 32 (0#1 ++ 0x1c0#10 ++ 0#4 ++ 2#3 ++ 1#1 ++ 0#9 ++ 0#9 ++ 0x7fffffe#27) = .ok (.bra ⟨0, 2, true⟩ 0x7fffffe) ∧
  decode .troupe 32 (0#1 ++ 0x200#10 ++ 2#4 ++ 7#3 ++ 0#1 ++ 7#9 ++ 266#9 ++ 6#9 ++ (2#3 ++ 0#1 ++ 0#3 ++ 0#3 ++ 0#2 ++ 5#6))
    = .ok (.ld ⟨⟨2, 7, false⟩, .v 7, .k 10, .v 6, .b32, false, .rlx, .tr, .dflt, 5⟩) ∧
  decode .troupe 32 (0#1 ++ 0x240#10 ++ 0#4 ++ 7#3 ++ 0#1 ++ 6#9 ++ 2#9 ++ 8#9 ++ (2#3 ++ 0#1 ++ 3#3 ++ 3#3 ++ 0#4 ++ 1#4))
    = .ok (.atom ⟨hd, .v 6, .v 2, .v 8, .b32, .acqrel, .pk, 0, 1⟩) ∧
  decode .matrix 32 (0#1 ++ 0x2c0#10 ++ 0#4 ++ 7#3 ++ 0#1 ++ 0#9 ++ 257#9 ++ 0#9 ++ (9#8 ++ 5#4 ++ 32#6))
    = .ok (.mldw ⟨hd, .k 1, 9, 5, true⟩) ∧
  decode .troupe 32 (0#1 ++ 0x343#10 ++ 0#4 ++ 7#3 ++ 0#1 ++ 0#9 ++ 8#9 ++ 0#9 ++ (3#3 ++ 1#1 ++ 0#1 ++ 0#3 ++ 3#4 ++ 3#3 ++ 1#3))
    = .ok (.rwr hd (.v 8) 3 1 .pk true 0 3) ∧
  decode .firmware 32 (0#1 ++ 0x3c6#10 ++ 0#4 ++ 7#3 ++ 0#1 ++ 0#9 ++ 0#9 ++ 0#9 ++ 1#18) = .ok (.haltStop hd) ∧
  decode .troupe 32 (1#1 ++ 0#1 ++ (2#7 ++ 0#2 ++ 3#8 ++ 4#8 ++ 0#6) ++ (17#7 ++ 0#2 ++ 9#8 ++ 14#8 ++ 0#6))
    = .ok (.pairedWord ⟨.iadd, 0, 3, 4, 0⟩ ⟨.fmul, 0, 9, 14, 0⟩) ∧
  decode .troupe 32 (0#1 ++ 0x013#10 ++ 0#53) = .error ⟨0#1 ++ 0x013#10 ++ 0#53, .opcode, false⟩

/-- An engine refuses every word of an instruction that R63 does not give it with reason ENGINE, before any other reason. -/
def Obligations.EngineRefusesForeignWords : Prop :=
  (∀ e n (w : DWord), w.getLsbD 63 = false →
    let g := (w.extractLsb' 59 4).toNat
    let p := (w.extractLsb' 53 6).toNat
    (p < groupSize g ∧ engineRuns e g p = false) ∨ (∀ q < groupSize g, engineRuns e g q = false) →
      decode e n w = .error ⟨w, .engine, false⟩) ∧
  (∀ e n (w : DWord), w.getLsbD 63 = true → e ≠ .troupe → decode e n w = .error ⟨w, .engine, false⟩)

/-- A step takes the first device step that is due; with none it looks at a due pending word; with none the next port of the cycle
issues, and with no port left a cycle begins. The first agent of the port, where its current sub-group can issue, runs the word at its
program counter, the decoded instruction or the reserved-encoding trap, or the word that the operand log holds (R128); where that has
issued, the turns pass on. What a step changes of a workgroup that is swapped out reaches its save area (`backed`). -/
def Obligations.StepRunsDecodedWord : Prop :=
  (∀ s i r, s.inputs = i :: r → step s = backed s (exec i { s with inputs := r })) ∧
  (∀ s i, s.inputs = [] → dueStep s = some i → step s = backed s (exec i s)) ∧
  (∀ s, s.inputs = [] → dueStep s = none → s.turns = [] → step s = .next (openCycle s)) ∧
  (∀ s p r, s.inputs = [] → dueStep s = none → s.turns = p :: r → turnOrder s p = [] → step s = backed s (.next { s with turns := r })) ∧
  (let Runs (s : State) (p : IssuePort) (a : Agent) (th : Thread) (o : Out) : Prop :=
    (∀ v, o = .next v → acted th v.th = true → step s = backed s (.next (portTurn s p a th.grp.mask v))) ∧
    (∀ e, o = .fault e → step s = .fault e) ∧ (∀ e, o = .refused e → step s = .refused e)
  (∀ s p a u w t, firstAt s p a u → (goes u).th.grp.replay = none → Fetches (goes u) w t →
    (∀ i, decode t.th.agent.engine t.th.nregs w = .ok i → Runs s p a (goes u).th (exec i (touchWord i t))) ∧
    (∀ b, decode t.th.agent.engine t.th.nregs w = .error b → Runs s p a (goes u).th (exec (.reservedEncodingTrap b) t))) ∧
  (∀ s p a u x i, firstAt s p a u → (goes u).th.grp.replay = some x →
    decode (goes u).th.agent.engine (goes u).th.nregs x.word = .ok i → Runs s p a (goes u).th (exec i (touchWord i (goes u)))))

/-- Reset leaves the values that the spec gives, every home at its origin, memory in its canonical form and every core stopped. -/
def Obligations.ResetState : Prop :=
  Memory.wf State.reset = true ∧
  (∀ pa, isHost pa = false → homeOf State.reset pa = some (pa / 2 ^ 39 % 4096, pa / 2 ^ 37 % 4)) ∧
  (∀ c < 24, ∀ j < 8,
    sysRead State.reset c (0x1000 * j + 0x200) = 512 + 2 * 2 ^ 16 + 4 * 2 ^ 22 + 1 * 2 ^ 28 + 2 ^ 31 ∧
    sysRead State.reset c (0x1000 * j + 0x201) = 64 ∧
    sysRead State.reset c (0x1000 * j + 0x210) = 256 + 1024 * 2 ^ 16 ∧
    sysRead State.reset c (0x1000 * j + 0x211) = 128 + 512 * 2 ^ 16 ∧
    sysRead State.reset c (0x8010 + j) = 16 + 16 * 2 ^ 5) ∧
  (∀ d < 4,
    sysRead State.reset (24 + d) 0x10000 = 32 + 20 * 2 ^ 8 + 4 * 2 ^ 16 ∧
    sysRead State.reset (24 + d) 0x12001 = 4 ∧
    sysRead State.reset (24 + d) 0x12004 = 0 ∧
    sysRead State.reset (24 + d) 0x13008 = 3 + 10 * 2 ^ 2 + 512 * 2 ^ 10 + 100 * 2 ^ 22 ∧
    sysRead State.reset (24 + d) 0x18000 = 4 + 2 * 2 ^ 6 ∧
    sysRead State.reset (24 + d) 0x18100 = 2 ∧
    sysRead State.reset (24 + d) 0x18101 = 4095 * 2 ^ 4)

/-- Bytes written under a key index read back under it, every other byte of that index in the lines written stays, every line that
is not written stays under every index, and memory keeps its canonical form. -/
def Obligations.MemoryReadsBack : Prop :=
  ∀ s key pa data, let t := memPut s key pa data
    memBytes t key pa data.length = data ∧
    (∀ a, (a < pa ∨ pa + data.length ≤ a) → memByte t key a = memByte s key a) ∧
    (∀ k a, (linesOf pa data.length).contains (a / 128) = false → memByte t k a = memByte s k a) ∧
    (Memory.wf s = true → Memory.wf t = true)

/-- A load leaves all of memory as the walks of its translations leave it, and writes no register but its destination. -/
def Obligations.LoadFrame : Prop :=
  ∀ m i lanes, (i = Instr.ld m ∧ lanes = (fun s act => (lanesOf act).map (memLane m 0 s))) ∨
      (i = Instr.ldu m ∧ lanes = fun s act => ((lanesOf act).take 1).map (memLane m 0 s)) →
    let n := if m.sx && m.width == .b32 then 2 else m.width.words
    (∀ v, m.d = .v v → v.toNat + n ≤ 256) →
    ∀ s t, memReady i i.uses m.hd lanes (memAsk m .load) (loadWaits m.width.bytes) s = true → exec i s = .next t →
      let u := (memWalk i m.hd lanes (memAsk m .load) s).2
      sameMemory t u ∧ (∀ c w off, scratchByte t c w off = scratchByte s c w off) ∧
      t.th.grp.pc = nextPc s.th.grp ∧ sameSpecials t.th s.th ∧
      (∀ l r, l < 32 → r < 256 → namesV n r m.d = false → t.th.rdV l r = s.th.rdV l r) ∧
      (∀ r, namesK n r m.d = false → t.th.rdK r = s.th.rdK r) ∧
      (∀ l p, t.th.rdP l p = s.th.rdP l p)

/-- A store writes no byte outside the places of its lanes, and, but for a place in the register window, no register. -/
def Obligations.StoreFrame : Prop :=
  ∀ m i lanes, (i = Instr.st m ∧ lanes = (fun s act => (lanesOf act).map (memLane m m.width.words s))) ∨
      (i = Instr.stu m ∧ lanes = fun s act => ((lanesOf act).take 1).map (memLane m m.width.words s)) →
    ∀ s t, memReady i i.uses m.hd lanes (memAsk m .store) (storeWaits m) s = true → exec i s = .next t →
      let u := (memWalk i m.hd lanes (memAsk m .store) s).2
      let ps := (memPlaces i m.hd lanes (memAsk m .store) s).map Prod.snd
      (∀ key pa, ps.all (sparesByte m.width.bytes key pa) = true → memByte t key pa = memByte u key pa) ∧
      (∀ c w off, ps.all (sparesScratch m.width.bytes c w off) = true → scratchByte t c w off = scratchByte s c w off) ∧
      t.th.grp.pc = nextPc s.th.grp ∧ sameSpecials t.th s.th ∧
      (ps.all Place.noWindow = true → sameRegisters t.th s.th)

/-- A word of groups 0 to 6 that issues writes its result to D in every lane that takes part, the lowest lane's alone to a uniform
D, and nothing else but sticky flags and the program counter; a long-latency word does so at once with an empty window. -/
def Obligations.LaneResultsAndFrame : Prop :=
  (∀ i hd n d f, (n = 1 ∨ n = 2) → (∀ m, d = .v m → m.toNat + n ≤ 256) → LaneWord i hd n d f →
    ∀ s, issuesNow i i.uses hd s = true →
      let act := partaking i hd s
      let u := issued i i.uses [] hd s
      ∃ t, exec i s = .next t ∧ t = s.setTh t.th ∧ t.th.grp.pc = nextPc s.th.grp ∧
        (∀ m l, d = .v m → l < 32 → act.getLsbD l = true →
          t.th.rdV l m.toNat = (f u l).val.setWidth 32 ∧
          (n = 2 → t.th.rdV l (m.toNat + 1) = (f u l).val.extractLsb' 32 32) ∧
          (∀ r < n, t.th.isEmpty l (m.toNat + r) = false)) ∧
        (∀ m, d = .k m → act ≠ 0 →
          t.th.rdK m.toNat = (f u (lowLane act)).val.setWidth 32 ∧
          (n = 2 → t.th.rdK (m.toNat + 1) = (f u (lowLane act)).val.extractLsb' 32 32)) ∧
        (∀ l r, l < 32 → r < 256 → (namesV n r d = false ∨ act.getLsbD l = false) → t.th.rdV l r = s.th.rdV l r) ∧
        (∀ r, (namesK n r d = false ∨ act = 0) → t.th.rdK r = s.th.rdK r) ∧
        (∀ l p, t.th.rdP l p = s.th.rdP l p) ∧ sameSpecials t.th s.th) ∧
  (∀ i hd pd f, PredWord i hd pd f → ∀ s, issuesNow i i.uses hd s = true →
      let act := partaking i hd s
      let u := issued i i.uses [pd] hd s
      ∃ t, exec i s = .next t ∧ t = s.setTh t.th ∧ t.th.grp.pc = nextPc s.th.grp ∧
        (∀ l, pd ≠ 7 → act.getLsbD l = true → t.th.rdP l pd.toNat = (f u l).1) ∧
        (∀ l p, l < 32 → (p ≠ pd.toNat ∨ act.getLsbD l = false) → t.th.rdP l p = s.th.rdP l p) ∧
        (∀ l r, t.th.rdV l r = s.th.rdV l r) ∧ (∀ r, t.th.rdK r = s.th.rdK r) ∧ sameSpecials t.th s.th) ∧
  (∀ i hd n d f, LaneWordLong i hd n d f →
    ∀ s, windowLen s.th hd = 0 → issuesNow i i.uses hd s = true → exec i s = .next (laneEnd i hd n d f s))

/-- No word of groups 0 to 6 changes anything but the thread that issues it; and the words of control flow that store nothing leave
memory, the workgroup, the general registers and the special registers alone. -/
def Obligations.ControlFrame : Prop :=
  (∀ i s t, i.hdr? ≠ none → i.opcode < 448 → exec i s = .next t → t = s.setTh t.th) ∧
  (∀ i s t, ((∃ hd, i = Instr.nop hd ∨ i = .yield hd ∨ i = .exit hd) ∨ (∃ hd imm, i = .bra hd imm) ∨
      (∃ hd slot imm, i = .rcb hd slot imm) ∨ ∃ hd slot, i = .rcw hd slot) →
    exec i s = .next t → sameMemory t s ∧ t.wg = s.wg ∧ sameRegisters t.th s.th ∧ sameSpecials t.th s.th)

/-! ### Rules stated whole -/

/-- R27 and its flag: an integer result wraps modulo 2^n, or under `.sat` becomes the nearest end of the signed range and sets SAT
(bit 13 of `s_fpmode`); a wrap sets no flag. The eight words that accept `.sat` give such results. -/
def Obligations.IntegerResultsWrapOrSaturate : Prop :=
  (∀ v : Int,
    ((narrow32 false v).val.setWidth 32).toInt = v.bmod (2 ^ 32) ∧ (narrow32 false v).flags = FFlags.none ∧
    (narrow64 false v).val.toInt = v.bmod (2 ^ 64) ∧ (narrow64 false v).flags = FFlags.none ∧
    ((narrow32 true v).val.setWidth 32).toInt = max (-2 ^ 31) (min v (2 ^ 31 - 1)) ∧
    (narrow64 true v).val.toInt = max (-2 ^ 63) (min v (2 ^ 63 - 1)) ∧
    (narrow32 true v).flags.bits = (if v < -2 ^ 31 ∨ 2 ^ 31 ≤ v then 2 ^ 13 else 0) ∧
    (narrow64 true v).flags.bits = (if v < -2 ^ 63 ∨ 2 ^ 63 ≤ v then 2 ^ 13 else 0)) ∧
  (∀ x sat, LaneWord (.iadd x sat) x.hd 1 x.d fun s l => op2 s x l fun a b => narrow32 sat (a.toInt + b.toInt)) ∧
  (∀ x sat, LaneWord (.isub x sat) x.hd 1 x.d fun s l => op2 s x l fun a b => narrow32 sat (a.toInt - b.toInt)) ∧
  (∀ x sat, LaneWord (.imad x sat) x.hd 1 x.d fun s l => op3 s x l fun a b c => narrow32 sat (a.toInt * b.toInt + c.toInt)) ∧
  (∀ x sat, LaneWord (.iabs x sat) x.hd 1 x.d fun s l => op1 s x l fun a => narrow32 sat a.toInt.natAbs) ∧
  (∀ x sat, LaneWord (.ineg x sat) x.hd 1 x.d fun s l => op1 s x l fun a => narrow32 sat (-a.toInt)) ∧
  (∀ x sat, LaneWord (.idot4 x sat) x.hd 1 x.d fun s l => op3 s x l fun a b c =>
    narrow32 sat (c.toInt + ((List.range 4).map fun i => sbyteOf a i * sbyteOf b i).sum)) ∧
  (∀ x sat, LaneWord (.iadd64 x sat) x.hd 2 x.d fun s l => narrow64 sat ((opnd64 s l x.a).toInt + (opnd64 s l x.b).toInt)) ∧
  (∀ x sat, LaneWord (.isub64 x sat) x.hd 2 x.d fun s l => narrow64 sat ((opnd64 s l x.a).toInt - (opnd64 s l x.b).toInt))

/-- R160: MLOOP counts its uniform register down, wrapping, and branches while the new value is not 0; D must be uniform, L must be
0, and the word ends lookahead windows. -/
def Obligations.MloopCountsDown : Prop :=
  (∀ hd (n : BitVec 7) off s, let i := Instr.mloop hd (.k n) off
    issuesNow i [] hd s = true → partaking i hd s ≠ 0 →
      ∃ t, exec i s = .next t ∧ t.th.rdK n.toNat = s.th.rdK n.toNat - 1 ∧ t.th.grp.mask = s.th.grp.mask ∧
        (s.th.rdK n.toNat = 1 → t.th.grp.pc = nextPc s.th.grp) ∧
        (s.th.rdK n.toNat ≠ 1 → t.th.grp.pc = s.th.grp.pc + BitVec.ofInt 64 (off.toInt * 8)) ∧
        (∀ m, m ≠ n.toNat → t.th.rdK m = s.th.rdK m) ∧ sameMemory t s ∧ t.wg = s.wg ∧ sameSpecials t.th s.th) ∧
  (∀ nr (la : BitVec 4) (guard : BitVec 3) (neg : BitVec 1) (d : BitVec 9) (off : BitVec 18),
    let w : DWord := 0#1 ++ 0x2c8#10 ++ la ++ guard ++ neg ++ d ++ 0#9 ++ 0#9 ++ off
    (d.toNat < 256 ∨ 384 ≤ d.toNat → decode .matrix nr w = .error ⟨w, .operand, false⟩) ∧
    (256 ≤ d.toNat → d.toNat < 384 → ¬(guard = 7 ∧ neg = 1) →
      (la ≠ 0 → decode .matrix nr w = .error ⟨w, .lookahead, false⟩) ∧
      (la = 0 → decode .matrix nr w = .ok (.mloop ⟨0, guard, neg == 1⟩ (.k (d.setWidth 7)) off)))) ∧
  (∀ hd d off, endsWindow (.mloop hd d off) = true)

/-- R214: SETHDL sets the handler, 0 removing it; a nonzero value that is not a multiple of 8 raises ALIGN, with the former handler
in force, once every earlier store is performed (R127); inside a handler the handler state stays. -/
def Obligations.SethdlSetsHandler : Prop :=
  (∀ hd a s, let i := Instr.sethdl hd a
    let l := lowLane (partaking i hd s)
    issuesNow i i.uses hd s = true → partaking i hd s ≠ 0 → (opnd64 (issued i i.uses [] hd s) l a).toNat % 8 = 0 →
      ∃ t, exec i s = .next t ∧ t.th.hdl = opnd64 (issued i i.uses [] hd s) l a ∧ t.th.grp.pc = nextPc s.th.grp ∧
        t.th.handler = s.th.handler ∧ sameRegisters t.th s.th ∧ sameMemory t s) ∧
  (∀ hd a s, let i := Instr.sethdl hd a
    let l := lowLane (partaking i hd s)
    issuesNow i i.uses hd s = true → partaking i hd s ≠ 0 → (opnd64 (issued i i.uses [] hd s) l a).toNat % 8 ≠ 0 →
    s.th.fabric = [] → s.th.handler = none → s.th.hdl ≠ 0 → s.th.agent.isTroupe = true →
      ∃ t, exec i s = .next t ∧ t.th.hdl = s.th.hdl ∧ t.th.grp.pc = s.th.hdl ∧ t.th.handler = some ⟨s.th.grp.mask, none⟩ ∧
        t.th.trappc = s.th.grp.pc ∧ t.th.trapcause = BitVec.ofNat 32 (3 + l % 32 * 256))

/-- R206: a handle that is not bound raises PROT on PHDROP, PHSIG, PHSIGB, PHANY, PHWAIT, PHWIN and PHTIME, and PHANY also on a
handle of another mode than `any`: with a handler and no store out the sub-group enters it with cause 6. PHREG, PHTEST, COLL and COLLST ask for
no handle. -/
def Obligations.UnboundHandlesRaiseProt : Prop :=
  let Prot (i : Instr) (uses : List (Role × Operand)) (hd : Hdr) (bad : State → Prop) : Prop :=
    ∀ s, issuesNow i uses hd s = true → partaking i hd s ≠ 0 → bad (issued i uses [] hd s) →
      s.th.fabric = [] → s.th.handler = none → s.th.hdl ≠ 0 → s.th.agent.isTroupe = true →
        ∃ t, exec i s = .next t ∧ t.th.grp.pc = s.th.hdl ∧ t.th.grp.mask = s.th.grp.mask ∧ t.th.trappc = s.th.grp.pc ∧
          t.th.trapcause.toNat % 256 = 6 ∧ t.th.handler = some ⟨s.th.grp.mask, none⟩ ∧ t.wg.scratch = s.wg.scratch
  let unbound (x : Ph) (t : State) : Prop := handleAt t x.x.toNat = none
  let other (x : Ph) (t : State) : Prop := ∃ ph, handleAt t x.x.toNat = some ph ∧ ph.mode ≠ .any
  ∀ x : Ph, Prot (.phdrop x) [] x.hd (unbound x) ∧
    (∀ d scope, Prot (.phsig x d scope) (usesOr (.phsig x d scope) d) x.hd (unbound x)) ∧
    (∀ d tl b, Prot (.phsigb x d tl b) (usesOr (.phsigb x d tl b) d) x.hd (unbound x)) ∧
    (∀ d a, Prot (.phany x d a) (usesOr (.phany x d a) d) x.hd (fun t => unbound x t ∨ other x t)) ∧
    (∀ d a tl b, Prot (.phanyBind x d a tl b) (usesOr (.phanyBind x d a tl b) d) x.hd (fun t => unbound x t ∨ other x t)) ∧
    (∀ a scope, Prot (.phwait x a scope) (Instr.phwait x a scope).uses x.hd (unbound x)) ∧
    (∀ d a scope, Prot (.phwin x d a scope) (Instr.phwin x d a scope).uses x.hd (unbound x)) ∧
    (∀ a b, Prot (.phtime x a b) (Instr.phtime x a b).uses x.hd (unbound x))

/-- R212: SREAD writes the named special register to D, a 64-bit one to the pair D, which must be even; `s_time` and `s_clock` are
read at issue. With an empty window the value stands in D of every lane that takes part when the word has issued. -/
def Obligations.SreadReadsSpecials : Prop :=
  (∀ hd d (n : BitVec 6) s, let i := Instr.sread hd d (.s n)
    let u := issued i i.uses [] hd s
    issuesNow i i.uses hd s = true → partaking i hd s ≠ 0 →
      exec i s = .next (onward (u.setTh (deliver hd (laneWrites (partaking i hd s) (if special64 n.toNat then 2 else 1) d
        (fun l => special u l n.toNat) fun _ => false) u.th)))) ∧
  (∀ s l, special s l 9 = BitVec.ofNat 64 s.podTime ∧ special s l 10 = BitVec.ofNat 64 s.clock) ∧
  (∀ nr (n : BitVec 6) (d : BitVec 9), n.toNat < 24 → special64 n.toNat = true → d.toNat < 384 → d.toNat % 2 = 1 →
    let w : DWord := 0#1 ++ 0x3c0#10 ++ 0#4 ++ 7#3 ++ 0#1 ++ d ++ (384 + n.setWidth 9) ++ 0#9 ++ 0#18
    decode .troupe nr w = .error ⟨w, .operand, false⟩)

/-- R219: HALT stops the core at the next word until an event of it arrives, and goes on at once when its timer event is pending;
HALT.stop stops it for every event. -/
def Obligations.HaltWaitsForEvent : Prop :=
  (∀ hd s, issuesNow (.halt hd) [] hd s = true → partaking (.halt hd) hd s ≠ 0 →
    ∃ t, exec (.halt hd) s = .next t ∧ t.th.grp.pc = nextPc s.th.grp ∧ sameMemory t s ∧ sameRegisters t.th s.th ∧
      t.th.status = (if (s.timer (coreNo s.th.agent)).timer then s.th.status else .halted)) ∧
  (∀ hd s, issuesNow (.haltStop hd) [] hd s = true → partaking (.haltStop hd) hd s ≠ 0 →
    ∃ t, exec (.haltStop hd) s = .next t ∧ t.th.grp.pc = nextPc s.th.grp ∧ t.th.status = .stopped) ∧
  (∀ core e s th, s.thread (coreAgent core) = some th → (e ≠ .timer ∨ (s.timer core).timer = true) →
    ∃ t u, exec (.coreEventWake core e) s = .next t ∧ t.thread (coreAgent core) = some u ∧ u.grp = th.grp ∧
      u.status = (if th.status = .halted then .running else th.status)) ∧
  (∀ core s th, s.thread (coreAgent core) = some th → (s.timer core).due s.clock = true → (s.timer core).timer = false →
    ∃ t u, exec (.tcmpTimerEvent core) s = .next t ∧ (t.timer core).timer = true ∧ t.thread (coreAgent core) = some u ∧
      u.grp = th.grp ∧ u.status = (if th.status = .halted then .running else th.status))

/-! ### Groups 0 to 6 -/

/-- Every word of group 0 completes wherever it issues, with the result that R77 gives. -/
def Obligations.IntegerWordsComplete : Prop :=
  (∀ x sat, LaneWord (.iadd x sat) x.hd 1 x.d fun s l => op2 s x l fun a b => narrow32 sat (a.toInt + b.toInt)) ∧
  (∀ x sat, LaneWord (.isub x sat) x.hd 1 x.d fun s l => op2 s x l fun a b => narrow32 sat (a.toInt - b.toInt)) ∧
  (∀ x, LaneWord (.imul x) x.hd 1 x.d fun s l => op2 s x l fun a b => .word (a * b)) ∧
  (∀ x u, LaneWord (.imulhi x u) x.hd 1 x.d fun s l => op2 s x l fun a b =>
    .word (if u then BitVec.ofNat 32 (a.toNat * b.toNat / 2 ^ 32) else BitVec.ofInt 32 (a.toInt * b.toInt / 2 ^ 32))) ∧
  (∀ x sat, LaneWord (.imad x sat) x.hd 1 x.d fun s l => op3 s x l fun a b c => narrow32 sat (a.toInt * b.toInt + c.toInt)) ∧
  (∀ x, LaneWord (.imadw x) x.hd 2 x.d fun s l =>
    .dword ((opnd32 s l x.a).signExtend 64 * (opnd32 s l x.b).signExtend 64 + opnd64 s l x.c)) ∧
  (∀ x cin cout, Completes (.iaddc x cin cout) (x.uses 1) x.hd fun s =>
    let act := partaking (.iaddc x cin cout) x.hd s
    let t := issued (.iaddc x cin cout) (x.uses 1) [cout] x.hd s
    let sum (l : Nat) : Nat := (opnd32 t l x.a).toNat + (opnd32 t l x.b).toNat + (if cin ≠ 7 ∧ t.th.rdP l cin.toNat then 1 else 0)
    let mark := wordMark t.th (.iaddc x cin cout)
    onward (t.setTh ((noteWord t.th (.iaddc x cin cout) act).writes
      (laneWrites act 1 x.d (fun l => BitVec.ofNat 64 (sum l % 2 ^ 32)) mark
        ++ (lanesOf act).map fun l => Wr.p l cout.toNat (decide (2 ^ 32 ≤ sum l)) (mark l))))) ∧
  (∀ x cin cout, Completes (.isubb x cin cout) (x.uses 1) x.hd fun s =>
    let act := partaking (.isubb x cin cout) x.hd s
    let t := issued (.isubb x cin cout) (x.uses 1) [cout] x.hd s
    let rhs (l : Nat) : Nat := (opnd32 t l x.b).toNat + (if cin ≠ 7 ∧ t.th.rdP l cin.toNat then 1 else 0)
    let mark := wordMark t.th (.isubb x cin cout)
    onward (t.setTh ((noteWord t.th (.isubb x cin cout) act).writes
      (laneWrites act 1 x.d (fun l => (BitVec.ofInt 32 ((opnd32 t l x.a).toNat - (rhs l : Int))).setWidth 64) mark
        ++ (lanesOf act).map fun l => Wr.p l cout.toNat (decide ((opnd32 t l x.a).toNat < rhs l)) (mark l))))) ∧
  (∀ x u, LaneWord (.imin x u) x.hd 1 x.d fun s l => op2 s x l fun a b =>
    .word (if (if u then decide (a.toNat ≤ b.toNat) else decide (a.toInt ≤ b.toInt)) then a else b)) ∧
  (∀ x u, LaneWord (.imax x u) x.hd 1 x.d fun s l => op2 s x l fun a b =>
    .word (if (if u then decide (a.toNat ≤ b.toNat) else decide (a.toInt ≤ b.toInt)) then b else a)) ∧
  (∀ x sat, LaneWord (.iabs x sat) x.hd 1 x.d fun s l => op1 s x l fun a => narrow32 sat a.toInt.natAbs) ∧
  (∀ x sat, LaneWord (.ineg x sat) x.hd 1 x.d fun s l => op1 s x l fun a => narrow32 sat (-a.toInt)) ∧
  (∀ x, LaneWord (.isad x) x.hd 1 x.d fun s l => op3 s x l fun a b c =>
    .word (c + BitVec.ofNat 32 (((List.range 4).map fun i => ((byteOf a i : Int) - (byteOf b i : Int)).natAbs).sum))) ∧
  (∀ x sat, LaneWord (.idot4 x sat) x.hd 1 x.d fun s l => op3 s x l fun a b c =>
    narrow32 sat (c.toInt + ((List.range 4).map fun i => sbyteOf a i * sbyteOf b i).sum)) ∧
  (∀ x sh u, LaneWord (.lea x sh u) x.hd 2 x.d fun s l =>
    .dword (opnd64 s l x.a
      + (if u then (opnd32 s l x.b).setWidth 64 else (opnd32 s l x.b).signExtend 64) <<< sh.toNat)) ∧
  (∀ x sat, LaneWord (.iadd64 x sat) x.hd 2 x.d fun s l => narrow64 sat ((opnd64 s l x.a).toInt + (opnd64 s l x.b).toInt)) ∧
  (∀ x sat, LaneWord (.isub64 x sat) x.hd 2 x.d fun s l => narrow64 sat ((opnd64 s l x.a).toInt - (opnd64 s l x.b).toInt)) ∧
  (∀ x, PredWord (.icmp x) x.hd x.pd fun s l => (icmpOf x.cc (opnd32 s l x.a) (opnd32 s l x.b), FFlags.none)) ∧
  (∀ x ps ns, LaneWord (.isel x ps ns) x.hd 1 x.d fun s l => op2 s x l fun a b =>
    .word (if s.th.rdP l ps.toNat != ns then a else b))

/-- Every word of group 1 completes wherever it issues, with the result that R79 gives. -/
def Obligations.LogicWordsComplete : Prop :=
  (∀ x, LaneWord (.and x) x.hd 1 x.d fun s l => op2 s x l fun a b => .word (a &&& b)) ∧
  (∀ x, LaneWord (.or x) x.hd 1 x.d fun s l => op2 s x l fun a b => .word (a ||| b)) ∧
  (∀ x, LaneWord (.xor x) x.hd 1 x.d fun s l => op2 s x l fun a b => .word (a ^^^ b)) ∧
  (∀ x, LaneWord (.andn x) x.hd 1 x.d fun s l => op2 s x l fun a b => .word (a &&& ~~~b)) ∧
  (∀ x, LaneWord (.not x) x.hd 1 x.d fun s l => op1 s x l fun a => .word (~~~a)) ∧
  (∀ hd d a b c tt, LaneWord (.bool3 hd d a b c tt) hd 1 d fun s l =>
    .word (wordOfBits fun i => tt.getLsbD (((opnd32 s l a).getLsbD i).toNat + 2 * ((opnd32 s l b).getLsbD i).toNat
      + 4 * ((opnd32 s l c).getLsbD i).toNat))) ∧
  (∀ x, LaneWord (.shl x) x.hd 1 x.d fun s l => op2 s x l fun a b => .word (if 32 ≤ b.toNat then 0 else a <<< b.toNat)) ∧
  (∀ x, LaneWord (.shr x) x.hd 1 x.d fun s l => op2 s x l fun a b => .word (if 32 ≤ b.toNat then 0 else a >>> b.toNat)) ∧
  (∀ x, LaneWord (.sar x) x.hd 1 x.d fun s l => op2 s x l fun a b => .word (a.sshiftRight (min b.toNat 31))) ∧
  (∀ x, LaneWord (.rotl x) x.hd 1 x.d fun s l => op2 s x l fun a b => .word (a.rotateLeft (b.toNat % 32))) ∧
  (∀ x, LaneWord (.funnel x) x.hd 1 x.d fun s l => op3 s x l fun a b c => .word (((b ++ a) >>> (c.toNat % 32)).setWidth 32)) ∧
  (∀ x sx, LaneWord (.bfx x sx) x.hd 1 x.d fun s l => op2 s x l fun a b =>
    .word (if (fieldOf b).2 = 0 then 0
      else if sx && decide (2 ^ ((fieldOf b).2 - 1) ≤ a.toNat / 2 ^ (fieldOf b).1 % 2 ^ (fieldOf b).2) then
        BitVec.ofInt 32 ((a.toNat / 2 ^ (fieldOf b).1 % 2 ^ (fieldOf b).2 : Nat) - 2 ^ (fieldOf b).2)
      else BitVec.ofNat 32 (a.toNat / 2 ^ (fieldOf b).1 % 2 ^ (fieldOf b).2))) ∧
  (∀ x, LaneWord (.bfi x) x.hd 1 x.d fun s l => op3 s x l fun a b c =>
    .word (if (fieldOf b).2 = 0 then c
      else BitVec.ofNat 32 (setBitsN c.toNat ((fieldOf b).1 + (fieldOf b).2 - 1) (fieldOf b).1 a.toNat))) ∧
  (∀ x, LaneWord (.popc x) x.hd 1 x.d fun s l => op1 s x l fun a =>
    .word (BitVec.ofNat 32 ((List.range 32).filter fun i => a.getLsbD i).length)) ∧
  (∀ x, LaneWord (.clz x) x.hd 1 x.d fun s l => op1 s x l fun a => .word (BitVec.ofNat 32 (32 - bitLen a.toNat))) ∧
  (∀ x, LaneWord (.ctz x) x.hd 1 x.d fun s l => op1 s x l fun a =>
    .word (BitVec.ofNat 32 ((((List.range 32).filter fun i => a.getLsbD i).head?).getD 32))) ∧
  (∀ x, LaneWord (.brev x) x.hd 1 x.d fun s l => op1 s x l fun a => .word (wordOfBits fun i => a.getLsbD (31 - i))) ∧
  (∀ x, LaneWord (.byteperm x) x.hd 1 x.d fun s l => op3 s x l fun a b c =>
    let byte (i : Nat) : Nat :=
      let n := c.toNat / 16 ^ i % 16
      if 8 ≤ n then 0 else if n < 4 then byteOf a n else byteOf b (n - 4)
    .word (BitVec.ofNat 32 (byte 0 + 256 * byte 1 + 65536 * byte 2 + 16777216 * byte 3))) ∧
  (∀ hd pd pa na pb nb op, PredWord (.pset hd pd pa na pb nb op) hd pd fun s l =>
    let a := s.th.rdP l pa.toNat != na
    let b := s.th.rdP l pb.toNat != nb
    (if op = 0 then a && b else if op = 1 then a || b else if op = 2 then a != b else a && !b, FFlags.none)) ∧
  (∀ hd d, LaneWord (.pmovGet hd d) hd 1 d fun s l => .word (wordOfBits fun i => decide (i < 7) && s.th.rdP l i)) ∧
  (∀ hd a ha, Completes (.pmovSet hd a ha) [(.src 1, a)] hd fun s =>
    let act := partaking (.pmovSet hd a ha) hd s
    let t := issued (.pmovSet hd a ha) [(.src 1, a)] [0, 1, 2, 3, 4, 5, 6] hd s
    onward (t.setTh ((noteMarks t.th [(.src 1, a)] act).writes
      ((lanesOf act).flatMap fun l => (List.range 7).map fun n => Wr.p l n ((opnd32 t l a).getLsbD n) (t.th.marked l 1 a)))))

/-- Every word of group 2 completes wherever it issues, with the result that R80 gives. -/
def Obligations.ImmediateWordsComplete : Prop :=
  (∀ hd d imm, LaneWord (.movi hd d imm) hd 1 d fun _ _ => .word (imm.signExtend 32)) ∧
  (∀ hd d imm, LaneWord (.movhi hd d imm) hd 1 d fun s l =>
    .word (imm.extractLsb' 0 16 ++ (opnd32 s l d).extractLsb' 0 16)) ∧
  (∀ x, LaneWord (.iaddi x) x.hd 1 x.d fun s l => .word (opnd32 s l x.a + x.imm.signExtend 32)) ∧
  (∀ x, LaneWord (.imuli x) x.hd 1 x.d fun s l => .word (opnd32 s l x.a * x.imm.signExtend 32)) ∧
  (∀ x, LaneWord (.andi x) x.hd 1 x.d fun s l => .word (opnd32 s l x.a &&& x.imm.signExtend 32)) ∧
  (∀ x, LaneWord (.ori x) x.hd 1 x.d fun s l => .word (opnd32 s l x.a ||| x.imm.signExtend 32)) ∧
  (∀ x, LaneWord (.xori x) x.hd 1 x.d fun s l => .word (opnd32 s l x.a ^^^ x.imm.signExtend 32)) ∧
  (∀ x, LaneWord (.shli x) x.hd 1 x.d fun s l => .word (shlOf (opnd32 s l x.a) x.imm.toNat)) ∧
  (∀ x, LaneWord (.shri x) x.hd 1 x.d fun s l => .word (shrOf (opnd32 s l x.a) x.imm.toNat)) ∧
  (∀ x, LaneWord (.sari x) x.hd 1 x.d fun s l => .word (sarOf (opnd32 s l x.a) x.imm.toNat)) ∧
  (∀ hd a cc pd imm, PredWord (.icmpi hd a cc pd imm) hd pd fun s l =>
    (icmpOf cc (opnd32 s l a) (imm.signExtend 32), FFlags.none)) ∧
  (∀ x, LaneWord (.leai x) x.hd 2 x.d fun s l => .dword (opnd64 s l x.a + x.imm.signExtend 64))

/-- Every word of group 3 completes wherever it issues, with the result and the flags that R82 to R84 give: one rounding of the
exact value, under the modifier of A and SUBN. -/
def Obligations.FloatWordsComplete : Prop :=
  (∀ x rnd sat sm, LaneWord (.fadd x rnd sat sm) x.hd 1 x.d fun s l =>
    .fp (addVal fp32 rnd sat s.th.subn (srcA fp32 s sm (opndF32 s l x.a)) (srcB fp32 s (opndF32 s l x.b)))) ∧
  (∀ x rnd sat sm, LaneWord (.fsub x rnd sat sm) x.hd 1 x.d fun s l =>
    .fp (addVal fp32 rnd sat s.th.subn (srcA fp32 s sm (opndF32 s l x.a)) (srcB fp32 s (opndF32 s l x.b)).negate)) ∧
  (∀ x rnd sat sm, LaneWord (.fmul x rnd sat sm) x.hd 1 x.d fun s l =>
    .fp (mulVal fp32 rnd sat s.th.subn (srcA fp32 s sm (opndF32 s l x.a)) (srcB fp32 s (opndF32 s l x.b)))) ∧
  (∀ x rnd sat sm, LaneWord (.ffma x rnd sat sm) x.hd 1 x.d fun s l =>
    .fp (fmaVal fp32 rnd sat s.th.subn (srcA fp32 s sm (opndF32 s l x.a)) (srcB fp32 s (opndF32 s l x.b))
      (srcB fp32 s (opndF32 s l x.c)))) ∧
  (∀ x sm, LaneWord (.fmin x sm) x.hd 1 x.d fun s l =>
    .fp (minMax fp32 s.th.subn false (srcMod fp32 sm (opndF32 s l x.a)) (opndF32 s l x.b))) ∧
  (∀ x sm, LaneWord (.fmax x sm) x.hd 1 x.d fun s l =>
    .fp (minMax fp32 s.th.subn true (srcMod fp32 sm (opndF32 s l x.a)) (opndF32 s l x.b))) ∧
  (∀ x sm, PredWord (.fcmp x sm) x.hd x.pd fun s l =>
    fcmpVal x.cc (srcA fp32 s sm (opndF32 s l x.a)) (srcB fp32 s (opndF32 s l x.b))) ∧
  (∀ x sm, LaneWord (.fclass x sm) x.hd 1 x.d fun s l =>
    .word (BitVec.ofNat 32 (2 ^ fclassOf fp32 (srcMod fp32 sm (opndF32 s l x.a))))) ∧
  (∀ x rnd sat sm, LaneWordLong (.frcp x rnd sat sm) x.hd 1 x.d fun s l =>
    .fp (rcpVal fp32 rnd sat s.th.subn (srcA fp32 s sm (opndF32 s l x.a)))) ∧
  (∀ x sm, LaneWordLong (.frsq x sm) x.hd 1 x.d fun s l => .fp (rsqVal fp32 s.th.subn (srcA fp32 s sm (opndF32 s l x.a)))) ∧
  (∀ x rnd sm, LaneWordLong (.fsqrt x rnd sm) x.hd 1 x.d fun s l =>
    .fp (sqrtVal fp32 rnd s.th.subn (srcA fp32 s sm (opndF32 s l x.a)))) ∧
  (∀ x sat sm, LaneWordLong (.fex2 x sat sm) x.hd 1 x.d fun s l =>
    .fp (ex2Val fp32 sat s.th.subn (srcA fp32 s sm (opndF32 s l x.a)))) ∧
  (∀ x sm, LaneWordLong (.flg2 x sm) x.hd 1 x.d fun s l => .fp (lg2Val fp32 s.th.subn (srcA fp32 s sm (opndF32 s l x.a)))) ∧
  (∀ x sm, LaneWordLong (.fsin x sm) x.hd 1 x.d fun s l =>
    .fp (trigVal fp32 s.th.subn false (srcA fp32 s sm (opndF32 s l x.a)))) ∧
  (∀ x sm, LaneWordLong (.fcos x sm) x.hd 1 x.d fun s l =>
    .fp (trigVal fp32 s.th.subn true (srcA fp32 s sm (opndF32 s l x.a))))

/-- Every word of group 4 completes wherever it issues, with the result and the flags that R85 gives. -/
def Obligations.DoubleAndPackedWordsComplete : Prop :=
  (∀ x rnd sat sm, LaneWordLong (.dadd x rnd sat sm) x.hd 2 x.d fun s l =>
    .fp (addVal fp64 rnd sat s.th.subn (srcA fp64 s sm (opndF64 s l x.a)) (srcB fp64 s (opndF64 s l x.b)))) ∧
  (∀ x rnd sat sm, LaneWordLong (.dsub x rnd sat sm) x.hd 2 x.d fun s l =>
    .fp (addVal fp64 rnd sat s.th.subn (srcA fp64 s sm (opndF64 s l x.a)) (srcB fp64 s (opndF64 s l x.b)).negate)) ∧
  (∀ x rnd sat sm, LaneWordLong (.dmul x rnd sat sm) x.hd 2 x.d fun s l =>
    .fp (mulVal fp64 rnd sat s.th.subn (srcA fp64 s sm (opndF64 s l x.a)) (srcB fp64 s (opndF64 s l x.b)))) ∧
  (∀ x rnd sat sm, LaneWordLong (.dfma x rnd sat sm) x.hd 2 x.d fun s l =>
    .fp (fmaVal fp64 rnd sat s.th.subn (srcA fp64 s sm (opndF64 s l x.a)) (srcB fp64 s (opndF64 s l x.b))
      (srcB fp64 s (opndF64 s l x.c)))) ∧
  (∀ x sm, LaneWordLong (.dmin x sm) x.hd 2 x.d fun s l =>
    .fp (minMax fp64 s.th.subn false (srcMod fp64 sm (opndF64 s l x.a)) (opndF64 s l x.b))) ∧
  (∀ x sm, LaneWordLong (.dmax x sm) x.hd 2 x.d fun s l =>
    .fp (minMax fp64 s.th.subn true (srcMod fp64 sm (opndF64 s l x.a)) (opndF64 s l x.b))) ∧
  (∀ x sm, PredWordLong (.dcmp x sm) x.hd x.pd fun s l =>
    fcmpVal x.cc (srcA fp64 s sm (opndF64 s l x.a)) (srcB fp64 s (opndF64 s l x.b))) ∧
  (∀ x rnd sat sm, LaneWordLong (.drcp x rnd sat sm) x.hd 2 x.d fun s l =>
    .fp (rcpVal fp64 rnd sat s.th.subn (srcA fp64 s sm (opndF64 s l x.a)))) ∧
  (∀ x rnd sat sm, LaneWord (.add2h x rnd sat sm) x.hd 1 x.d (packedAdd fp16 x rnd sat sm)) ∧
  (∀ x rnd sat sm, LaneWord (.mul2h x rnd sat sm) x.hd 1 x.d (packedMul fp16 x rnd sat sm)) ∧
  (∀ x rnd sat sm, LaneWord (.fma2h x rnd sat sm) x.hd 1 x.d (packedFma fp16 x rnd sat sm)) ∧
  (∀ x sm, LaneWord (.max2h x sm) x.hd 1 x.d (packedMax fp16 x sm)) ∧
  (∀ x rnd sat sm, LaneWord (.add2b x rnd sat sm) x.hd 1 x.d (packedAdd bf16 x rnd sat sm)) ∧
  (∀ x rnd sat sm, LaneWord (.mul2b x rnd sat sm) x.hd 1 x.d (packedMul bf16 x rnd sat sm)) ∧
  (∀ x rnd sat sm, LaneWord (.fma2b x rnd sat sm) x.hd 1 x.d (packedFma bf16 x rnd sat sm)) ∧
  (∀ x sm, LaneWord (.max2b x sm) x.hd 1 x.d (packedMax bf16 x sm))

/-- Every word of group 5 completes wherever it issues, with the result that R86 to R91 give. -/
def Obligations.ConversionWordsComplete : Prop :=
  (∀ x dst src rnd sat sm, LaneWord (.cvt x dst src rnd sat sm) x.hd (fmtWords dst) x.d fun s l =>
    .fp (convert dst.toNat src.toNat rnd sat s.th.subn (cvtSource s l x.a src.toNat sm))) ∧
  (∀ hd d a c rnd bx4 sm, Completes (.cvtbx hd d a c rnd bx4 sm) (Instr.cvtbx hd d a c rnd bx4 sm).uses hd fun s =>
    let i := Instr.cvtbx hd d a c rnd bx4 sm
    let act := partaking i hd s
    let t := issued i i.uses [] hd s
    let e := bxChoose bx4 rnd ((bxElems t act a sm).map Prod.snd)
    let res (l : Nat) : FRes := bxEncode bx4 rnd e.1 e.2 (srcA fp32 t sm (opndF32 t l a))
    let mark := (lanesOf act).any (marksIn t.th i.uses)
    onward (t.setTh (((noteMarks t.th i.uses act).raiseFlags (laneFlags act fun l => (res l).flags)).writes
      (laneWrites act 1 d (fun l => BitVec.ofNat 64 (res l).bits) (fun _ => mark)
        ++ if act = 0 then [] else regWrites 0 1 (BitVec.ofNat 64 (e.1 + 256 * e.2)) mark c)))) ∧
  (∀ hd d a c bx4, LaneWord (.unpkbx hd d a c bx4) hd 1 d fun s l =>
    .fp (toFormat fp32 0 false s.th.subn (bxValue bx4 ((opnd32 s l c).toNat % 256) ((opnd32 s l c).toNat / 256 % 256)
      ((opnd32 s l a).toNat % (if bx4 then 16 else 256))))) ∧
  (∀ x fmt rnd sm f, fpFormat fmt.toNat = some f → LaneWord (.frnd x fmt rnd sm) x.hd (fmtWords fmt) x.d fun s l =>
    .fp (roundIntegral f rnd s.th.subn (cvtSource s l x.a fmt.toNat sm))) ∧
  (∀ x, LaneWord (.mov x false) x.hd 1 x.d fun s l => .word (opnd32 s l x.a)) ∧
  (∀ x, LaneWord (.mov x true) x.hd 2 x.d fun s l => .dword (opnd64 s l x.a)) ∧
  (∀ hd d a b s, let i := Instr.movk hd d a b
    let us : List (Role × Operand) := [(.udst 1, d), (.src 1, b)]
    let act := partaking i hd s
    let t := issued i us [] hd s
    let src := pickLane t act b
    issuesNow i us hd s = true → act ≠ 0 → pickedFull s.th src 1 a = true →
      exec i s = .next (onward (t.setTh
        ((if t.th.marked src 1 a || marksIn t.th [(.src 1, b)] (lowLane act) then t.th.raiseErr 4 else t.th).writes
          (regWrites 0 1 ((opnd32 t src a).setWidth 64) (t.th.marked src 1 a || marksIn t.th [(.src 1, b)] (lowLane act)) d)))))

/-- The words of group 6 complete wherever they issue: the results come from the scan tree (R92 to R96), and the word raises its
flags with them (R73). A paired word (R57) completes where neither slot must wait. -/
def Obligations.TreeWordsComplete : Prop :=
  (∀ x op excl, Completes (.lscan x op excl) (Instr.lscan x op excl).uses x.hd fun s =>
    let i := Instr.lscan x op excl
    let act := partaking i x.hd s
    let t := issued i i.uses [] x.hd s
    let tree := scanTree op.toNat t.th.subn act (scanInput t act op.toNat x.a)
    let val (l : Nat) : DWord :=
      if excl then (if l = 0 then none else (tree.1[l - 1]?).getD none).getD (scanIdentity op.toNat)
      else ((tree.1[l]?).getD none).getD 0
    let mark := (lanesOf act).any (wordMark t.th i)
    onward (t.setTh (deliver x.hd (withFlags tree.2 (laneWrites act (scanWords op) x.d val fun _ => mark)) (noteWord t.th i act)))) ∧
  (∀ x op, Completes (.lred x op) (Instr.lred x op).uses x.hd fun s =>
    let i := Instr.lred x op
    let act := partaking i x.hd s
    let t := issued i i.uses [] x.hd s
    let tree := redTree op.toNat t.th.subn (scanInput t act op.toNat x.a)
    let mark := (lanesOf act).any (wordMark t.th i)
    onward (t.setTh (deliver x.hd (withFlags tree.2
      (laneWrites act (scanWords op) x.d (fun _ => ((tree.1[0]?).getD none).getD 0) fun _ => mark)) (noteWord t.th i act)))) ∧
  (∀ hd d mode ns ps pd, mode ≠ 3 → Completes (.lvote hd d mode ns ps pd) [] hd fun s =>
    let i := Instr.lvote hd d mode ns ps pd
    let act := partaking i hd s
    let t := issued i [] [pd] hd s
    let q := voteMask t act ns ps
    let r := if mode = 0 then q == act else if mode = 1 then q != 0 else q == act || q == 0
    let mark := (lanesOf act).any (wordMark t.th i)
    onward (t.setTh (deliver hd ((lanesOf act).map fun l => Wr.p l pd.toNat r mark) (noteWord t.th i act)))) ∧
  (∀ hd d ns ps pd, Completes (.lvote hd d 3 ns ps pd) (Instr.lvote hd d 3 ns ps pd).uses hd fun s =>
    let i := Instr.lvote hd d 3 ns ps pd
    let act := partaking i hd s
    let t := issued i i.uses [] hd s
    let mark := (lanesOf act).any (wordMark t.th i)
    onward (t.setTh (deliver hd (withFlags FFlags.none (laneWrites act 1 d (fun _ => (voteMask t act ns ps).setWidth 64) fun _ => mark))
      (noteWord t.th i act)))) ∧
  (∀ hd d a b ha b64 s, let i := Instr.lbcast hd d a b ha b64
    let n := if b64 then 2 else 1
    let us : List (Role × Operand) := [(.dst n, d), (.src 1, b)]
    let act := partaking i hd s
    let t := issued i us [] hd s
    let src := pickLane t act b
    let mark := t.th.marked src n a || marksIn t.th [(.src 1, b)] (lowLane act)
    issuesNow i us hd s = true → (act = 0 ∨ pickedFull s.th src n a = true) →
      exec i s = .next (onward (t.setTh (deliver hd
        (laneWrites act n d (fun _ => if b64 then opnd64 t src a else (opnd32 t src a).setWidth 64) fun _ => mark)
        (if mark && act != 0 then t.th.raiseErr 4 else t.th))))) ∧
  (∀ hd d hi ns ps pd, Completes (.lfind hd d hi ns ps pd) [(.dst 1, d)] hd fun s =>
    let i := Instr.lfind hd d hi ns ps pd
    let act := partaking i hd s
    let t := issued i [(.dst 1, d)] [pd] hd s
    let q := lanesOf (voteMask t act ns ps)
    let f := ((if hi then q.getLast? else q.head?)).getD 32
    let mark := (lanesOf act).any (wordMark t.th i)
    onward (t.setTh (deliver hd (laneWrites act 1 d (fun _ => BitVec.ofNat 64 f) (fun _ => mark)
      ++ (lanesOf act).map fun l => Wr.p l pd.toNat (decide (l = f)) mark) (noteWord t.th i act)))) ∧
  (∀ s0 s1 s, let a0 := slotLanes s.th s0.guard
    let a1 := slotLanes s.th s1.guard
    heldBack s.th (slotUses s0) 0 a0 = false → heldBack s.th (slotUses s1) 0 a1 = false →
      exec (.pairedWord s0 s1) s = .next (onward (s.setTh
        (((noteSlot (noteSlot (countWindows s.th s.th.grp.mask (destsOf (slotUses s0) a0 ++ destsOf (slotUses s1) a1)) s0 a0) s1 a1).raiseFlags
          ((if s0.op = .nop then FFlags.none else laneFlags a0 fun l => (slotResult s s0 l).flags).or
            (if s1.op = .nop then FFlags.none else laneFlags a1 fun l => (slotResult s s1 l).flags))).writes
          (slotWrites s s0 a0 ++ slotWrites s s1 a1)))))

/-! ### Groups 7 to 9, traps and waits -/

/-- The words of group 7 that neither call nor trap complete wherever they issue (R105, R106, R108, R109). NOP only moves on. BRA and
BRX send each lane that takes part to its target and the others behind the word. YIELD withholds the sub-group. EXIT ends the lanes
that take part. RCB, where a lane takes part, sets the target of its slot and adds the lanes to those expected, after releasing lanes
that wait at another address. RCW passes where nothing is expected or its address is not the target; else the expected lanes that take
part wait, the others go on, and the slot completes when every expected lane waits. -/
def Obligations.ControlWordsComplete : Prop :=
  (∀ hd, Completes (.nop hd) [] hd fun s => onward (issued (.nop hd) [] [] hd s)) ∧
  (∀ hd imm, Completes (.bra hd imm) [] hd fun s =>
    let t := issued (.bra hd imm) [] [] hd s
    t.setTh (branchTo t.th fun l =>
      if (partaking (.bra hd imm) hd s).getLsbD l then t.th.grp.pc + BitVec.ofInt 64 (imm.toInt * 8) else t.th.grp.pc + 8)) ∧
  (∀ hd a s, let i := Instr.brx hd a
    let t := issued i i.uses [] hd s
    issuesNow i i.uses hd s = true →
    (s.th.grp.replay = none → (∀ l ∈ lanesOf (partaking i hd s), t.th.marked l 2 a = false ∧ (opnd64 t l a).toNat % 8 = 0) →
      exec i s = .next (t.setTh (branchTo t.th fun l =>
        if (partaking i hd s).getLsbD l then opnd64 t l a else t.th.grp.pc + 8))) ∧
    (∀ w, s.th.grp.replay = some w → targetFault w.lanes = none →
      exec i s = .next (t.setTh (branchTo t.th fun l =>
        ((w.lanes.find? fun x => x.lane == l).map LogLane.a).getD (t.th.grp.pc + 8))))) ∧
  (∀ th pc l, th.grp.mask.getLsbD l = true →
    ∃ g ∈ (branchTo th pc).grp :: (branchTo th pc).rest, g.mask.getLsbD l = true ∧ g.pc = pc l) ∧
  (∀ hd, Completes (.yield hd) [] hd fun s =>
    let t := onward (issued (.yield hd) [] [] hd s)
    if partaking (.yield hd) hd s = 0 then t else t.setTh { t.th with grp := { t.th.grp with yielded := some ([], 0) } }) ∧
  (∀ hd s, issuesNow (.exit hd) [] hd s = true →
    let th := endLanes (onward (issued (.exit hd) [] [] hd s)).th (partaking (.exit hd) hd s)
    (th.live ≠ 0 → exec (.exit hd) s = .next (s.setTh th)) ∧
    (∀ c w n, th.live = 0 → th.agent = .troupe c w n →
      exec (.exit hd) s = .next { s with th := th, inputs := s.inputs ++ [.troupeEnd c w n] }) ∧
    (th.live = 0 → th.agent.isTroupe = false → exec (.exit hd) s = .next (s.setTh { th with status := .ended }))) ∧
  (∀ hd slot imm, Completes (.rcb hd slot imm) [] hd fun s =>
    let t := issued (.rcb hd slot imm) [] [] hd s
    let target := t.th.grp.pc + BitVec.ofInt 64 (imm.toInt * 8)
    let old := tget ⟨0, 0⟩ t.th.slots slot.toNat
    let moved := old.expect != 0 && old.target != target
    let th := if moved then gather (advance t.th) (Sub.atRcw slot.toNat) (old.target + 8) none true else advance t.th
    let new : Recon := ⟨target, (if moved then 0 else old.expect) ||| partaking (.rcb hd slot imm) hd s⟩
    if partaking (.rcb hd slot imm) hd s = 0 then onward t else t.setTh { th with slots := tset ⟨0, 0⟩ th.slots slot.toNat new }) ∧
  (∀ hd slot s, let t := issued (.rcw hd slot) [] [] hd s
    let act := partaking (.rcw hd slot) hd s
    let r := tget ⟨0, 0⟩ t.th.slots slot.toNat
    let arrive := act &&& r.expect
    let run := t.th.grp.mask &&& ~~~arrive
    let th := unexpect t.th slot.toNat (t.th.grp.mask &&& ~~~act)
    let low := laneBit (lowLane t.th.grp.mask)
    issuesNow (.rcw hd slot) [] hd s = true →
      ((r.expect = 0 ∨ t.th.grp.pc ≠ r.target) → exec (.rcw hd slot) s = .next (onward t)) ∧
      (r.expect ≠ 0 → t.th.grp.pc = r.target →
        (arrive = 0 → exec (.rcw hd slot) s = .next (t.setTh (slotCheck (advance th) slot.toNat))) ∧
        (arrive ≠ 0 → run = 0 → exec (.rcw hd slot) s = .next (t.setTh (slotCheck
          { th with grp := { th.grp with st := .rcw slot.toNat } } slot.toNat))) ∧
        (arrive ≠ 0 → run ≠ 0 → exec (.rcw hd slot) s = .next (t.setTh (slotCheck { th with
          grp := { (advance th).grp with mask := run, bcast := th.grp.bcast && run &&& low != 0 },
          rest := th.rest ++ [{ th.grp with
            mask := arrive, st := .rcw slot.toNat, bcast := th.grp.bcast && arrive &&& low != 0 }] } slot.toNat)))))

/-- CALL, CALLX and RET complete wherever their stack slots are reached and their targets are aligned (R107): the calls store the
return address of every lane that takes part at sp − 256 + 8 × lane, and RET reads it at sp + 8 × lane. The stack pointer moves
once for the word, by 256 down in a call and by 256 up in a return, when a lane takes part, where no slot lies in a register
window. The lanes of the sub-group go where the word sends them, each to its target and those that take no part behind the word. -/
def Obligations.CallsComplete : Prop :=
  ((∀ hd imm, MemoryWordOf (.call hd imm) stackUses hd
    (fun s act => (lanesOf act).map fun l => ⟨l, stackPtr s.th - 256 + BitVec.ofNat 64 (8 * l), 0, 0, 0, false, false⟩)
    (slotAsk .store false) (fun _ _ => false)
    (callAll fun _ pc => pc + BitVec.ofInt 64 (imm.toInt * 8))) ∧
  (∀ hd a, MemoryWordOf (.callx hd a) ((Instr.callx hd a).uses ++ stackUses) hd
    (fun s act => (lanesOf act).map (targetLane a (fun l => stackPtr s.th - 256 + BitVec.ofNat 64 (8 * l)) s))
    (slotAsk .store true) (fun _ _ => false) (callAll fun x _ => x.a)) ∧
  (∀ hd s, let i := Instr.ret hd
    let lanes (s : State) (act : LaneMask) : List LogLane :=
      (lanesOf act).map fun l => ⟨l, stackPtr s.th + BitVec.ofNat 64 (8 * l), 0, 0, 0, false, false⟩
    let r := memWalk i hd lanes (slotAsk .load false) s
    let ps := memPlaces i hd lanes (slotAsk .load false) s
    issuesNow i stackUses hd s = true → (∀ x ∈ ps, x.2.inDirectory = false ∧ (slotValue r.2 x).isSome = true) →
    worstOf (returnFaults (returnLanes r.2 ps) r.1) = none →
      exec i s = .next (returnAll (partaking i hd s) (returnLanes r.2 ps) ps (memIssued i stackUses hd lanes (slotAsk .load false) s)))) ∧
  ((∀ tgt act ps s, act ≠ 0 → (∀ p ∈ ps, ∀ off, p.2 ≠ Place.window off) →
    stackPtr (callAll tgt act ps s).th = stackPtr s.th - 256) ∧
  (∀ act got ps s, act ≠ 0 → stackPtr (returnAll act got ps s).th = stackPtr s.th + 256) ∧
  (∀ tgt act ps s l, (∀ p ∈ ps, ∀ off, p.2 ≠ Place.window off) → s.th.grp.mask.getLsbD l = true →
    ∃ g ∈ (callAll tgt act ps s).th.grp :: (callAll tgt act ps s).th.rest, g.mask.getLsbD l = true ∧
      g.pc = ((ps.find? fun y => y.1.lane == l).map fun y => tgt y.1 s.th.grp.pc).getD (s.th.grp.pc + 8)) ∧
  (∀ act got ps s l, s.th.grp.mask.getLsbD l = true →
    ∃ g ∈ (returnAll act got ps s).th.grp :: (returnAll act got ps s).th.rest, g.mask.getLsbD l = true ∧
      g.pc = ((got.find? fun x => x.lane == l).map LogLane.a).getD (s.th.grp.pc + 8)))

/-- A trap that goes to the user handler (R65, R110, R126): TRAP in a troupe that has a handler and is not in it starts every lane
of the sub-group at s_traphdl as the handler set, saves the address of the word, and reports cause 8 and its lowest lane.
Without a handler, inside the handler, or in an agent that has none, a trap ends the agent (R65, R67): a troupe is then faulted
with no live lane, its end is due, and the context records the first fault. -/
def Obligations.TrapsEnterHandlerOrEndTroupe : Prop :=
  (∀ hd code s, issuesNow (.trap hd code) [] hd s = true → partaking (.trap hd code) hd s ≠ 0 →
    s.th.handler = none → s.th.hdl ≠ 0 → s.th.agent.isTroupe = true →
      ∃ t, exec (.trap hd code) s = .next t ∧ t.th.grp.pc = s.th.hdl ∧ t.th.grp.mask = s.th.grp.mask ∧
        t.th.handler = some ⟨s.th.grp.mask, none⟩ ∧ t.th.trappc = s.th.grp.pc ∧
        t.th.trapcause = BitVec.ofNat 32 (8 + lowLane (partaking (.trap hd code) hd s) % 32 * 256) ∧
        t.th.trapop = 459 ∧ t.th.hdl = s.th.hdl ∧ t.mem = s.mem) ∧
  (∀ hd code s c w n, issuesNow (.trap hd code) [] hd s = true → partaking (.trap hd code) hd s ≠ 0 → s.th.agent = .troupe c w n →
    s.th.handler = none → s.th.hdl = 0 →
      ∃ t, exec (.trap hd code) s = .next t ∧ t.th.status = .faulted .trap ∧ t.th.live = 0 ∧ t.th.grp.mask = 0 ∧ t.th.rest = [] ∧
        t.inputs = s.inputs ++ [.troupeEnd c w n] ∧
        (s.cx.fault = none → t.cx.fault = some ⟨8, w, n, s.th.grp.pc⟩) ∧ t.th.trappc = s.th.grp.pc)

/-- A reserved word (R64, R65): in a troupe that has a handler and is not in it, where no result that is due and no word that another
package has still to check holds the sub-group back, every lane of the sub-group starts at s_traphdl, with cause 1, the reporting lane and slot, and the reason in bits [15:12] of s_trapop. -/
def Obligations.ReservedWordTraps : Prop :=
  ∀ w s, heldBack s.th [] 0 0 = false → unchecked s.th = false →
    s.th.handler = none → s.th.hdl ≠ 0 → s.th.agent.isTroupe = true →
    ∃ t, exec (.reservedEncodingTrap w) s = .next t ∧ t.th.grp.pc = s.th.hdl ∧ t.th.grp.mask = s.th.grp.mask ∧
      t.th.handler = some ⟨s.th.grp.mask, none⟩ ∧ t.th.trappc = s.th.grp.pc ∧
      t.th.trapcause = BitVec.ofNat 32 (1 + badLane s.th w % 32 * 256 + if w.slot then 8192 else 0) ∧
      (w.word.getLsbD 63 = false → t.th.trapop = BitVec.ofNat 32 ((Raw.unpack w.word).op.toNat + reasonCode w.reason * 4096)) ∧
      t.mem = s.mem

/-- The returns from a handler (R433): where the sub-group holds every live lane of the handler set, TRET resumes at s_trappc and
performs the logged word again, and TRET.skip resumes behind it, with no replay; a sub-group that holds not all of them waits for the
others. Outside a handler both are reserved with reason CODE. At most one word is logged (log entry 7). -/
def Obligations.TretResumes : Prop :=
  let Whole (s : State) (h : Handler) : Prop := s.th.handler = some h ∧ s.th.grp.mask ≠ 0 ∧ s.th.rest = [] ∧
    s.th.grp.mask &&& h.set = s.th.grp.mask ∧ h.set &&& s.th.live = s.th.grp.mask ∧ s.th.log.length ≤ 1
  (∀ hd s h, issuesNow (.tret hd) [] hd s = true → Whole s h → h.kind = none ∨ h.kind = some false →
    ∃ t, exec (.tret hd) s = .next t ∧ t.th.grp.pc = s.th.trappc ∧ t.th.grp.mask = s.th.grp.mask ∧ t.th.grp.st = .run ∧
      t.th.grp.replay = s.th.log.head? ∧ t.th.handler = none ∧ t.th.log = [] ∧ t.mem = s.mem) ∧
  (∀ hd s h, issuesNow (.tretSkip hd) [] hd s = true → Whole s h → h.kind = none ∨ h.kind = some true →
    ∃ t, exec (.tretSkip hd) s = .next t ∧
      t.th.grp.pc = ((s.th.log.head?).map LogWord.next).getD (s.th.trappc + 8) ∧ t.th.grp.mask = s.th.grp.mask ∧ t.th.grp.st = .run ∧
      t.th.grp.replay = none ∧ t.th.handler = none ∧ t.th.log = [] ∧ t.mem = s.mem) ∧
  (let Waits (i : Instr) (hd : Hdr) (skip : Bool) : Prop :=
    ∀ s h, issuesNow i [] hd s = true → s.th.handler = some h → h.kind = none ∨ h.kind = some skip →
      s.th.grp.mask ≠ 0 → s.th.rest = [] → s.th.grp.mask &&& h.set = s.th.grp.mask → h.set &&& s.th.live &&& ~~~s.th.grp.mask ≠ 0 →
        ∃ t, exec i s = .next t ∧ t.th.grp.st = .tret skip ∧ t.th.grp.pc = s.th.grp.pc ∧ t.th.grp.mask = s.th.grp.mask ∧
          t.th.handler = some { h with kind := some skip } ∧ t.mem = s.mem
  ∀ hd, Waits (.tret hd) hd false ∧ Waits (.tretSkip hd) hd true) ∧
  (∀ i hd s, (i = Instr.tret hd ∨ i = Instr.tretSkip hd) → issuesNow i [] hd s = true →
    s.th.handler = none → s.th.hdl ≠ 0 → s.th.agent.isTroupe = true →
    ∃ t, exec i s = .next t ∧ t.th.grp.pc = s.th.hdl ∧ t.th.trappc = s.th.grp.pc ∧ t.th.trapop = 460 + 2 * 4096)

/-- BRK (R110): with a debug agent the sub-group stops at the word, and the agent lets it go on after it or ends its troupe, with the trap
registers of the BRK (R17); without one the agent ends. -/
def Obligations.BreakAndResume : Prop :=
  (∀ hd code s, issuesNow (.brk hd code) [] hd s = true → partaking (.brk hd code) hd s ≠ 0 → s.debugOn = true →
    let t := issued (.brk hd code) [] [] hd s
    exec (.brk hd code) s = .next (t.setTh { t.th with grp := { t.th.grp with
      st := .brk (lowLane (partaking (.brk hd code) hd s)) ((encode (.brk hd code)).getD 0) } })) ∧
  (∀ hd code s, issuesNow (.brk hd code) [] hd s = true → partaking (.brk hd code) hd s ≠ 0 → s.debugOn = false →
    ∃ t, exec (.brk hd code) s = .next t ∧ t.th.status = .faulted .brk ∧ t.th.live = 0 ∧ t.th.trappc = s.th.grp.pc ∧
      t.th.trapcause = BitVec.ofNat 32 (7 + lowLane (partaking (.brk hd code) hd s) % 32 * 256)) ∧
  (∀ s l c w n lane word, s.th.agent = .troupe c w n → n ≠ 32 → n ≠ 33 → s.debugOn = true → s.th.grp.st = .brk lane word →
    s.th.grp.mask.getLsbD l = true → s.th.rest = [] →
      exec (.debugAgentResume ⟨c, w, n, l⟩ true) s =
        .next (s.setTh { s.th with grp := { s.th.grp with st := .run, pc := s.th.grp.pc + 8 } }) ∧
      ∃ t, exec (.debugAgentResume ⟨c, w, n, l⟩ false) s = .next t ∧ t.th.status = .faulted .brk ∧ t.th.live = 0 ∧
        t.th.trappc = s.th.grp.pc ∧ t.th.trapcause = BitVec.ofNat 32 (7 + lane % 32 * 256) ∧ t.mem = s.mem)

/-- The words of group 8 that load or store complete wherever they are ready: one access for each lane that takes part, and for LDU
and STU one for the word (R112 to R114). -/
def Obligations.LoadsAndStoresComplete : Prop :=
  (∀ m s, let i := Instr.ld m
    let lanes (s : State) (act : LaneMask) : List LogLane := (lanesOf act).map (memLane m 0 s)
    let ask := memAsk m .load
    memReady i i.uses m.hd lanes ask (loadWaits m.width.bytes) s = true →
      exec i s = .next (loadAll i m s.th (partaking i m.hd s) (memPlaces i m.hd lanes ask s) (memIssued i i.uses m.hd lanes ask s))) ∧
  (∀ m s, let i := Instr.ldu m
    let lanes (s : State) (act : LaneMask) : List LogLane := ((lanesOf act).take 1).map (memLane m 0 s)
    let ask := memAsk m .load
    memReady i i.uses m.hd lanes ask (loadWaits m.width.bytes) s = true →
      exec i s = .next (loadAll i m s.th (partaking i m.hd s) (memPlaces i m.hd lanes ask s) (memIssued i i.uses m.hd lanes ask s))) ∧
  (∀ m, MemoryWord (.st m) m.hd (fun s act => (lanesOf act).map (memLane m m.width.words s)) (memAsk m .store) (storeWaits m)
    (fun _ => storeAll m)) ∧
  (∀ m, MemoryWord (.stu m) m.hd (fun s act => ((lanesOf act).take 1).map (memLane m m.width.words s)) (memAsk m .store)
    (storeWaits m) (fun _ => storeAll m))

/-- The words of group 9 complete wherever they are ready, one operation for each lane that takes part in increasing lane order;
ATOMCAS is operation 15, and RED writes no register (R123 to R125). -/
def Obligations.AtomicsComplete : Prop :=
  (∀ x, MemoryWord (.atom x) x.hd (fun s act => (lanesOf act).map (atomLane x false true s)) (atomAsk x x.op.toNat) (atomWaits x)
    (atomAll (.atom x) x x.op.toNat true)) ∧
  (∀ x, MemoryWord (.atomcas x) x.hd (fun s act => (lanesOf act).map (atomLane x true true s)) (atomAsk x 15) (atomWaits x)
    (atomAll (.atomcas x) x 15 true)) ∧
  (∀ x, MemoryWord (.red x) x.hd (fun s act => (lanesOf act).map (atomLane x false false s)) (atomAsk x x.op.toNat) (atomWaits x)
    (atomAll (.red x) x x.op.toNat false))

/-- PREF, FENCE, CFLUSH and WADDR complete wherever they issue and the throttle lets PREF and FENCE (R115 to R118): PREF whatever its
lanes meet; FENCE at once where it waits for nothing, and else with a wait for the writes of its release part that are out, and with `sc` for the
loads that are out; CFLUSH where no
lane faults; WADDR at once where every lane's word meets its condition and else with a wait for the rest. -/
def Obligations.LineAndFenceWordsComplete : Prop :=
  (∀ m s, issuesNow (.pref m) (Instr.pref m).uses m.hd s = true → throttleAllows s = true →
      let t := issued (.pref m) (Instr.pref m).uses [] m.hd s
      let r := resolveAll ((lanesOf (partaking (.pref m) m.hd s)).map fun l => (lineLane m t l, lineAsk m t (lineLane m t l))) t
      exec (.pref m) s = .next (onward ((onePerLine (placesOf r.1)).foldl (prefLane m) r.2))) ∧
  (∀ m s, issuesNow (.fence m) [] m.hd s = true → throttleAllows s = true →
      let t := issued (.fence m) [] [] m.hd s
      let acq := if acquires m.order then some m.scope else none
      (partaking (.fence m) m.hd s = 0 → exec (.fence m) s = .next (onward t)) ∧
      (partaking (.fence m) m.hd s ≠ 0 → fenceTags s.th m = [] →
        exec (.fence m) s = .next (onward (if acquires m.order then acquire t m.scope else t))) ∧
      (partaking (.fence m) m.hd s ≠ 0 → fenceTags s.th m ≠ [] →
        exec (.fence m) s = .next (onward (t.setTh (openWait m.hd (.fence (fenceTags s.th m) acq) t.th))))) ∧
  (∀ m, MemoryWord (.cflush m) m.hd (fun s act => (lanesOf act).map (lineLane m s)) (lineAsk m) (fun _ _ => false)
    (fun _ ps s => onward (ps.foldl (flushLane m) s))) ∧
  (∀ m, MemoryWord (.waddr m) m.hd (fun s act => (lanesOf act).map (memLane m m.width.words s)) (waddrAsk m) (fun _ _ => false)
    (fun act ps s =>
      let r := waddrLeft m.width.bytes m.sx s
        (ps.map fun p => (p.1.lane, p.2, BitVec.ofNat 64 (p.1.data.toNat % 2 ^ (8 * m.width.bytes)), none))
      if r.1.isEmpty then onward (if m.order = .acq && !ps.isEmpty then acquire r.2 m.scope else r.2)
      else onward (r.2.setTh (openKept m.hd (.waddr m.width.bytes m.sx (m.order == .acq) m.scope r.1)
        (logOf (.waddr m) m.hd r.2.th act 0 (ps.map Prod.fst)) r.2.th))))

/-- What completes later, for the agent whose turn it is (R61): a result whose window has closed is written, and a WADDR whose words all
meet their condition is done, with its acquire (R118). A wait whose condition holds ends: of a chunk map (R147), a counter (R149), a
barrier (R166), an RDV (R169), a FORK (R168), the Curtain (R174), a phaser (R202), and of a FENCE, a signalling word or a PGGEN
(R117, R200, R217). -/
def Obligations.PendingWordsEnd : Prop :=
  let plain (p : Pend) : Bool := p.due || p.refused || p.waitsFor Wait.isPlain
  ((∀ r s p ws drops i, refAgent r = s.th.agent →
    findPend s.th r.lane plain = some (i, p) → p.owed = .result ws [] drops → p.check = none →
      exec (.longLatencyResult r) s = .next ((s.setTh { s.th with pend := retirePend s.th.pend i p.lanes ws }).writes ws)) ∧
  (∀ r s p i w geu acq scope left, refAgent r = s.th.agent → findPend s.th r.lane Pend.isWaddr = some (i, p) →
    p.owed = .wait (.waddr w geu acq scope left) → (waddrLeft w geu s left).1 = [] →
      let u := (waddrLeft w geu s left).2
      exec (.waddrRelease r) s =
        .next (if acq then acquire (u.setTh (donePend u.th i)) scope else u.setTh (donePend u.th i)))) ∧
  (WaitEnds .cmwaitRelease Wait.isCm (fun _ => cmDone) ∧ WaitEnds .tlwaitRelease Wait.isTl (fun _ => tlDone) ∧
  WaitEnds .barwaitRelease Wait.isBar (fun _ => barDone) ∧ WaitEnds .rdvRelease Wait.isRdv (fun _ => rdvDone) ∧
  WaitEnds .forkStart Wait.isFork (fun r s w =>
    if forkHead s = some (r.troupe, r.lane) then
      (forkDone s w).map fun s => { s with wg := { s.wg with forkq := s.wg.forkq.erase (r.troupe, r.lane) } }
    else none) ∧
  WaitEnds .cwaitRelease Wait.isCwait (fun _ => cwaitDone) ∧
  (∀ r s i p w t ws, refAgent r = s.th.agent → findPend s.th r.lane (Pend.waitsFor Wait.isPh) = some (i, p) → p.owed = .wait w →
    phDone s w = some (t, ws) → t.th.agent = s.th.agent → exec (.phwaitRelease r) s = .next (waitOver t i p ws)) ∧
  (∀ r s i p w t ws, refAgent r = s.th.agent → findPend s.th r.lane plain = some (i, p) → p.owed = .wait w →
    plainDone s w = some (t, ws) → t.th.agent = s.th.agent → exec (.longLatencyResult r) s = .next (waitOver t i p ws)))

/-! ### Groups 10 to 15 -/

/-- The copy commands join the copy queue of their core, with the next ticket of their counter (R131, R139, R141): wherever the word
issues, its counter is not full and the pool has its entries. CPY's lanes are checked at issue. A copy command that joins takes
ticket ISSUED + 1 of its counter, the last place of its core's queue, and the sub-group goes on (R131, R148). -/
def Obligations.CopyCommandsComplete : Prop :=
  ((∀ x, CopyWord (.cpyt x) x.hd (.tile x.sfmt) x.dir x.tl x.h x.a) ∧
  (∀ hd tl h a dir op, CopyWord (.cpyr hd tl h a dir op) hd (.reduce op) dir tl h a) ∧
  (∀ x, CopyWord (.cpyn x) x.hd (.notify x.sfmt) x.dir x.tl x.h x.a) ∧
  (∀ x, CopyWord (.cpyg x) x.hd (.gather x.sfmt 0) x.dir x.tl x.h x.a) ∧
  (∀ hd (tl : BitVec 3) d a width s u, let i := Instr.cpy hd tl d a width
    let t := issued i i.uses [] hd s
    let ls : List LogLane := match t.th.grp.replay with
      | some x => x.lanes
      | none => (lanesOf (partaking i hd s)).map fun l =>
        ⟨l, opnd64 t l d, opnd64 t l a, 0, 0, false, t.th.marked l 2 d || t.th.marked l 2 a⟩
    let t' := t.setTh (if ls.any fun x => x.dataMark then t.th.raiseErr 4 else t.th)
    let n := 1 + ceilDiv ls.length 4
    issuesNow i i.uses hd s = true → partaking i hd s ≠ 0 → throttleAllows s = true →
    (∀ x ∈ ls, cpyFault t (cpyBytes width) d x.addr = none ∧ cpyFault t (cpyBytes width) a x.a = none) →
    (t.wg.tl tl.toNat).full = false → poolAsk t' 0 n = some u →
      exec i s = .next (joinCopy u tl.toNat fun id ticket =>
        { tileCmd t' (.cpy (cpyBytes width) (ls.map fun x => (x.addr, x.a))) true tl.toNat n 0 0 id ticket with token := 0 }))) ∧
  (∀ s (tl : Nat) mk, let n := s.th.ident.core
    ((joinCopy s tl mk).wg.tl tl).issued = (s.wg.tl tl).issued + 1 ∧ ((joinCopy s tl mk).wg.tl tl).value = (s.wg.tl tl).value ∧
    ((joinCopy s tl mk).core n).copyq =
      (s.core n).copyq ++ [{ mk (s.core n).nextCopy ((s.wg.tl tl).issued + 1).toNat with seq := s.trans.handed }] ∧
    (joinCopy s tl mk).trans.handed = s.trans.handed + 1 ∧
    (joinCopy s tl mk).th.grp.pc = nextPc s.th.grp ∧ (joinCopy s tl mk).mem = s.mem)

/-- The words that work on chunk maps and timeline counters complete wherever they issue (R146, R147, R149): CMINIT where its
operands are aligned and inside the scratchpad. -/
def Obligations.CompletionWordsComplete : Prop :=
  (∀ hd slot a b, let i := Instr.cminit hd slot a b
    Works i i.uses [] hd
      (fun act t => cminitFault t.wg (uniLane t act a b).a.toNat (uniLane t act a b).b.toNat = none)
      fun act t =>
        let x := uniLane t act a b
        let map := x.a.toNat
        let bind := x.b.toNat
        let new : ChunkSlot := ⟨BitVec.ofNat 14 (map / 64), BitVec.ofNat 11 (bind % 2 ^ 20 / 512), BitVec.ofNat 12 (bind / 2 ^ 20), 0, false⟩
        let u := writeSlots hd [.cm slot.toNat (t.wg.cm slot.toNat)] [.cm slot.toNat new] []
          { t with wg := t.wg.put map (List.replicate 64 0) false }
        u.setTh (noteLane u.th x)) ∧
  (∀ hd d slot a b scope, let i := Instr.cmtest hd d slot a b scope
    Works i i.uses [] hd (fun _ _ => True) fun act t =>
      let l := lowLane act
      let r := cmRange (opnd32 t l a)
      let p := (opnd32 t l b).getLsbD 0
      let g := cmView t slot.toNat
      let u := if (g.cm slot.toNat).expect != 0 && g.cmMet slot.toNat r.1 r.2 p then acquire t scope else t
      u.setTh (deliver hd (laneWrites act 1 d (fun _ => (g.cmWord slot.toNat r.1 r.2 p).setWidth 64)
        fun _ => t.th.marked l 1 a || t.th.marked l 1 b) (noteWord u.th i act))) ∧
  (∀ hd slot a b scope, WaitWord (.cmwait hd slot a b scope) hd (fun t act =>
    .cm slot.toNat (cmRange (opnd32 t (lowLane act) a)).1 (cmRange (opnd32 t (lowLane act) a)).2
      ((opnd32 t (lowLane act) b).getLsbD 0) scope) cmDone) ∧
  (∀ hd tl a scope, WaitWord (.tlwait hd tl a scope) hd (fun t act => .tl tl.toNat (opnd64 t (lowLane act) a) scope) tlDone) ∧
  (∀ hd d tl sel clr, let i := Instr.tlread hd d tl sel clr
    Works i i.uses [] hd (fun _ _ => True) fun act t =>
      let c := t.wg.tl tl.toNat
      result hd act (if sel = 2 then 1 else 2) d
        (if sel = 0 then c.value else if sel = 1 then c.issued else c.status.setWidth 64) false
        (if clr then { t with wg := t.wg.setTl tl.toNat { c with status := 0 } } else t)) ∧
  (∀ hd s, let t := issued (.seqend hd) [] [] hd s
    let u := { t with inputs := t.inputs ++ [.arrayOwnershipChange t.th.ident.core] }
    issuesNow (.seqend hd) [] hd s = true → partaking (.seqend hd) hd s ≠ 0 →
      (seqDone u = true → exec (.seqend hd) s = .next (u.setTh (goIdle u.th))) ∧
      (seqDone u = false → exec (.seqend hd) s = .next (onward (u.setTh (openWait { hd with la := 0 } .seqend u.th)))))

/-- The matrix operations join the queue of their workgroup wherever they issue and the pool has their entries (R155 to R159), and
MLOOP counts its register down and branches while it is not 0 (R160). -/
def Obligations.MatrixWordsComplete : Prop :=
  (∀ x, MatWord (.mldw x) x.hd 2 (matOp (.ldw false) x)) ∧
  (∀ x, MatWord (.mldt x) x.hd 2 (matOp (.ldw true) x)) ∧
  (∀ x tile, MatWord (.mldtAcc x tile) x.hd 2 (matOp (.ldacc tile) x)) ∧
  (∀ hd bar arr, MatWord (.mswap hd bar arr) hd 1 fun t _ => plainOp .swap bar arr t) ∧
  (∀ x tile clr, MatWord (.mstrm x tile clr) x.hd 2 (matOp (.strm tile clr) x)) ∧
  (∀ hd mask bar arr, MatWord (.maclr hd mask bar arr) hd 1 fun t _ => plainOp (.clr mask) bar arr t) ∧
  (∀ x tile, MatWord (.macld x tile) x.hd 2 (matOp (.macld tile) x)) ∧
  (∀ x tile, MatWord (.macst x tile) x.hd 2 (matOp (.macst tile) x)) ∧
  (∀ hd a, MatWord (.mvcnt hd a) hd 1 fun t act => plainOp (.vcnt (min (opnd32 t (lowLane act) a).toNat 64)) 0 false t) ∧
  (∀ hd fmt, MatWord (.mmode hd fmt) hd 1 fun t _ => plainOp (.mode fmt) 0 false t) ∧
  (∀ hd (n : BitVec 7) off s, let i := Instr.mloop hd (.k n) off
    let t := issued i [] [] hd s
    let x := t.th.rdK n.toNat - 1
    let u := t.setTh (t.th.wrK n.toNat x (t.th.markK n.toNat))
    issuesNow i [] hd s = true → partaking i hd s ≠ 0 →
      (x = 0 → exec i s = .next (onward u)) ∧
      (x ≠ 0 → exec i s = .next (u.setTh { u.th with
        issues := u.th.issues + 1, grp := { u.th.grp with pc := t.th.grp.pc + BitVec.ofInt 64 (off.toInt * 8), replay := none, fixed := false } })))

/-- FORK, RDV and the barrier words complete wherever they issue (R163 to R169): FORK where its addresses are aligned. Of a barrier's
arrivals the last of a phase makes the next phase, with the pending status as its last status; an earlier one only counts, and a barrier
whose EXPECT is 0 ignores arrivals. -/
def Obligations.BarrierWordsComplete : Prop :=
  (∀ hd a b, let i := Instr.fork hd a b
    let at_ (act : LaneMask) (t : State) : LogLane := match t.th.grp.replay.bind fun w => w.lanes.head? with
      | some x => x
      | none =>
        let l := lowLane act
        ⟨l, 0, opnd64 t l a, opnd64 t l b, 0, false, t.th.marked l 2 a || t.th.marked l 2 b⟩
    Works i (forkUses i) [] hd (fun act t => (at_ act t).a.toNat % 8 = 0 ∧ (at_ act t).b.toNat % 8 = 0)
      fun act s =>
        let t := s.setTh (noteLane s.th (at_ act s))
        let w := Wait.fork (at_ act s).a (at_ act s).b
        match if (forkHead t).isNone then forkDone t w else none with
        | some u => u
        | none =>
          { t with wg := { t.wg with forkq := t.wg.forkq ++ [(t.th.agent.troupeNo, lowLane t.th.grp.mask)] } }.setTh
            (openWait hd w t.th)) ∧
  (∀ hd, WaitWord (.rdv hd) hd (fun _ _ => .rdv) rdvDone) ∧
  (∀ hd bar a, let i := Instr.barinit hd bar a
    Works i i.uses [] hd (fun _ _ => True) fun act t =>
      { t with wg := t.wg.setBar bar.toNat { Bar.fresh with expect := (opnd32 t (lowLane act) a).setWidth 12 } }.setTh
        (noteWord t.th i act)) ∧
  (∀ hd d bar, let i := Instr.barrive hd d bar
    Works i (usesOr i d) [] hd (fun _ _ => True) fun act t =>
      let b := t.wg.bar bar.toNat
      let u := match t.th.agent with
        | .troupe _ _ _ => { t with wg := t.wg.setBar bar.toNat (b.arrive 0) }
        | .copy _ _ => { t with wg := t.wg.setBar bar.toNat (b.arrive 0) }
        | .matrix _ _ => { t with wg := queueArrive t.wg bar, inputs := t.inputs ++ [Instr.arrayOpStart t.th.ident.core] }
        | .control _ => t
        | .firmware _ => t
      u.setTh (t.th.writes (if d.isZero then [] else laneWrites act 1 d (fun _ => b.phase.setWidth 64) fun _ => false))) ∧
  (∀ hd bar a, WaitWord (.barwait hd bar a) hd (fun t act => .bar bar.toNat (opnd32 t (lowLane act) a)) barDone) ∧
  (∀ hd d bar sel, let i := Instr.barstat hd d bar sel
    Works i i.uses [] hd (fun _ _ => True) fun act t =>
      t.setTh (t.th.writes (laneWrites act 1 d (fun _ => ((t.wg.bar bar.toNat).item sel).setWidth 64) fun _ => false))) ∧
  (∀ b : Bar, ∀ st,
    (b.expect = 0 → b.arrive st = b) ∧
    (b.expect ≠ 0 → b.arrived + 1 = b.expect →
      (b.arrive st).phase = b.phase + 1 ∧ (b.arrive st).arrived = 0 ∧ (b.arrive st).last = b.status ||| st ∧
        (b.arrive st).status = 0 ∧ (b.arrive st).expect = b.expect) ∧
    (b.expect ≠ 0 → b.arrived + 1 ≠ b.expect →
      (b.arrive st).phase = b.phase ∧ (b.arrive st).arrived = b.arrived + 1 ∧ (b.arrive st).status = b.status ||| st ∧
        (b.arrive st).last = b.last ∧ (b.arrive st).expect = b.expect))

/-- Memory keeps its canonical form: whatever a step does, device steps among them, the bytes, the data-error marks and the keys of lines
stay listed once, in rising order, and never at the value that an unlisted one reads as. -/
def Obligations.MemoryStaysCanonical : Prop :=
  ∀ s t, Memory.wf s = true → step s = .next t → Memory.wf t = true

/-- The words of work distribution and tensor handles complete (R134, R170 to R174): TFETCH wherever it issues, WPUSH where every
list exists and has room, the work-list cache has the entries and its release waits for nothing, WPOP where every list exists, WDONE,
THSET and THGET where their places are reached and the record of THSET can be read, CWAIT wherever it issues, at pod scope with the
pod-wide Curtain enabled. A WPUSH that lacks room pushes the records that have it, and waits with the others. -/
def Obligations.WorkWordsComplete : Prop :=
  (∀ hd d disp, let i := Instr.tfetch hd d disp
    Works i i.uses [] hd (fun _ _ => True) fun act t =>
      let e := t.th.ident.die
      let x := tget Dispenser.none t.cx.disps disp.toNat
      let r := if t.cx.dynamic || !x.configured then none else drawFrom x e [0, 1, 2, 3]
      let v : DWord := match r with
        | none => BitVec.ofNat 64 (0xffffffff + (2 + e * 256) * 2 ^ 32)
        | some (n, j, _) => BitVec.ofNat 64 (n + ((if j = e then 0 else 1) + j * 256) * 2 ^ 32)
      let u := match r with
        | none => t
        | some (_, _, y) => { t with cx := { t.cx with disps := tset Dispenser.none t.cx.disps disp.toNat y } }
      u.setTh (u.th.writes (laneWrites act 2 d (fun _ => v) fun _ => false))) ∧
  (∀ hd d a s, let i := Instr.wpush hd d a
    let t := issued i i.uses [] hd s
    let ls := pushLanes d a (partaking i hd s) t
    issuesNow i i.uses hd s = true → (∀ x ∈ ls, listBad t.cx x.addr.toNat = false) → (releaseWaits s.th .pk = false ∨ ls = []) →
      exec i s = .next (pushRecords i hd ls s t) ∧
      ∀ u, splitPush (listRoom t t.cx) ls = (ls, []) → cachePush t 32 ls = (u, []) →
        let v := setOpen u u.cx (u.cx.open_ + ls.length)
        exec i s = .next (onward (v.setTh (if ls.any fun x => x.dataMark then v.th.raiseErr 4 else v.th)))) ∧
  (∀ hd d a p s, let i := Instr.wpop hd d a p
    let t := issued i i.uses [p] hd s
    let ls := popLanes a (partaking i hd s) t
    let u := t.setTh (noteWord t.th i (partaking i hd s))
    issuesNow i i.uses hd s = true → (∀ x ∈ ls, listBad t.cx x.2 = false) →
      exec i s = .next (popRecords d p (fun l => u.th.marked l 1 a) ls u)) ∧
  (∀ hd a, MemoryWord (.wdone hd a) hd (fun s act => (lanesOf act).map (doneLane a s)) doneAsk
    (fun s ps => releaseWaits s.th .pk && !ps.isEmpty) (fun _ ps s => doneAll ps s)) ∧
  (∀ hd d (h : BitVec 8) a s x p b, let i := Instr.thset hd d h a
    let lanes := fun s act => ((lanesOf act).take 1).map (handleLane a s)
    memReady i i.uses hd lanes (handleAsk a .load) (fun _ _ => false) s = true →
    memPlaces i hd lanes (handleAsk a .load) s = [(x, p)] →
    peek (memIssued i i.uses hd lanes (handleAsk a .load) s) x.lane 64 p = some b →
      exec i s = .next (setHandle d h (partaking i hd s) x p b.1 b.2 (memIssued i i.uses hd lanes (handleAsk a .load) s))) ∧
  (∀ hd (h : BitVec 8) a, MemoryWord (.thget hd h a) hd (fun s act => ((lanesOf act).take 1).map (handleLane a s))
    (handleAsk a .store) (fun _ _ => false) (fun _ ps s => storeHandle h ps s)) ∧
  (∀ hd scope, Works (.cwait hd scope) [] [] hd (fun _ t => scope ≠ .pd ∨ t.cx.cen = true) fun _ t =>
    let u := creditTroupe t t.wg.ctx t.wg.wgl t.th.agent.troupeNo
    match cwaitDone u (.cwait scope) with
    | some u => u
    | none => u.setTh (openWait hd (.cwait scope) u.th))

/-- Work lists are queues (R172, R337): a record that reaches the home of its list goes behind the list's others, WPOP takes the oldest
as its place of the ring holds it, or nothing from an empty list, and a record whose list has no room waits at its lane. No other list
changes. -/
def Obligations.WorkListsAreQueues : Prop :=
  (∀ s c n r x, getCx s c = some x → x.ctx = c →
    ∃ y, getCx (homePush s c n r) c = some y ∧ (y.list n).recs = (x.list n).recs ++ [r] ∧ (y.list n).taken = (x.list n).taken ∧
      ∀ m, m ≠ n → y.list m = x.list m) ∧
  (∀ s n, (s.cx.list n).recs = [] → popOne s n = (none, s)) ∧
  (∀ s n r rs, (s.cx.list n).recs = r :: rs →
    (popOne s n).1 = some (ringRecord s s.cx n r) ∧ ((popOne s n).2.cx.list n).recs = rs ∧
      ((popOne s n).2.cx.list n).taken = (s.cx.list n).taken + 1 ∧ ∀ m, m ≠ n → (popOne s n).2.cx.list m = s.cx.list m) ∧
  (∀ s (y : LogLane), splitPush (listRoom s s.cx) [y] = if listRoom s s.cx y.addr.toNat = 0 then ([], [y]) else ([y], []))

/-- The words of remote register access complete (R182 to R192): RCAPMK and RCAPLD wherever they issue, RCAPMK.land where the buffer
is aligned and inside the scratchpad, RCAPREV, RPOLL, RARM where no write to its range is awaited, and RWR where its counter is
not full and its release waits for nothing: with its capability passing once queue 0 has had entries for all its deliveries, and with a
capability that fails at once, its ticket completed and the failure recorded. -/
def Obligations.RemoteWordsComplete : Prop :=
  (∀ hd d reg n a wr xp, let i := Instr.rcapmkReg hd d reg n a wr xp
    Works i [(.udst 4, d), (.src 1, a)] [] hd (fun _ _ => True) fun act t =>
      let l := lowLane act
      let m := t.th.marked l 1 a
      let bits := capBits (capPlace t + t.th.agent.troupeNo % 32 * 256 + reg.toNat) n.toNat (opnd32 t l a).toNat t.th.regGen.toNat wr xp false
      t.setTh (deliver hd (quadWrites d (makeCap t.cx.key bits) m) (if m then t.th.raiseErr 4 else t.th))) ∧
  (∀ hd d e a b wr xp, let i := Instr.rcapmkLand hd d e a b wr xp
    Works i i.uses [] hd
      (fun act t => landFault t.wg ((uniLane t act a b).a.toNat % 2 ^ 32) ((uniLane t act a b).b.toNat % 2 ^ 32) = none)
      fun act t =>
        let x := uniLane t act a b
        let off := x.a.toNat % 2 ^ 32
        let size := x.b.toNat % 2 ^ 32
        let old := t.wg.land e.toNat
        let bits := capBits (capPlace t + off / 128) (size - 1) e.toNat old.gen.toNat wr xp true
        { t with wg := t.wg.setLand e.toNat ⟨BitVec.ofNat 13 (off / 128), BitVec.ofNat 8 (size - 1), old.gen, true⟩ }.setTh
          (noteLane (deliver hd (quadWrites d (makeCap t.cx.key bits) x.dataMark) t.th) x)) ∧
  (∀ hd slot a, let i := Instr.rcapld hd slot a
    Works i i.uses [] hd (fun _ _ => True) fun act t =>
      let l := lowLane act
      writeSlots hd [.cap slot.toNat (tget 0 t.th.caps slot.toNat)] [.cap slot.toNat (opnd128 t l 4 a)] []
        (t.setTh (if t.th.marked l 4 a then t.th.raiseErr 4 else t.th))) ∧
  (∀ hd, Works (.rcaprevReg hd) [] [] hd (fun _ _ => True) fun _ t => t.setTh { t.th with regGen := t.th.regGen + 1 }) ∧
  (∀ hd e, Works (.rcaprevLand hd e) [] [] hd (fun _ _ => True) fun _ t =>
    let x := t.wg.land e.toNat
    { t with wg := t.wg.setLand e.toNat { x with gen := x.gen + 1, valid := false } }) ∧
  (∀ hd d k, Works (.rarm hd d k) [] [] hd (fun act t => rangeAwaited t.th act (k.toNat + 1) d = false) fun act t =>
    let u := writeRange t act (k.toNat + 1) d
    u.setTh (emptyRange u.th act (k.toNat + 1) d)) ∧
  (∀ hd d a k p, Works (.rpoll hd d a k p) [(.lanesDst 1, d)] [p] hd (fun _ _ => True) fun act t =>
    let n := k.toNat + 1
    t.setTh (deliver hd (laneWrites act 1 d (fun l => BitVec.ofNat 64 (fullBits t.th l n a)) (fun _ => false)
      ++ (lanesOf act).map fun l => Wr.p l p.toNat (fullBits t.th l n a == 2 ^ n - 1) false) t.th)) ∧
  (∀ hd a (slot : BitVec 4) (tl : BitVec 3) scope rel (off k : BitVec 3) s, let i := Instr.rwr hd a slot tl scope rel off k
    let act := partaking i hd s
    let t := issued i i.uses [] hd s
    let n := k.toNat + 1
    let cap := capOf t slot.toNat
    let parts := rwrParts t act a n
    let ticket := (t.wg.ticket tl.toNat).1
    let u := { t with wg := (t.wg.ticket tl.toNat).2 }.setTh (if parts.any fun p => p.2.any fun v => v.2 then t.th.raiseErr 4 else t.th)
    issuesNow i i.uses hd s = true → act ≠ 0 → s.th.grp.replay = none → (t.wg.tl tl.toNat).full = false →
    (rel = true → releaseWaits t.th scope = false) →
    (∀ v, rwrCheck t cap off.toNat n act = 0 →
      (poolAsk t 0 (1 + ceilDiv (((parts.head?).map fun p => p.2.length).getD 0) 16)).isSome = true →
      launchAll (ownSends (newSends tl.toNat ticket cap off.toNat n rel scope parts u) tl.toNat ticket)
        (newSends tl.toNat ticket cap off.toNat n rel scope parts u) = (true, v) → exec i s = .next (onward v)) ∧
    (∀ code, rwrCheck t cap off.toNat n act = code → code ≠ 0 →
      exec i s = .next (onward
        (completeTicket (noteFailure u u.th.agent tl.toNat ticket code 1 1) u.th.agent tl.toNat ticket))))

/-- The phaser words and the collective words complete (R198 to R209): where a handle names a phaser in a mode that the word accepts;
PHREG where its root has answered, and with a nonzero status where it is refused, after sending its registration at its first try. A word
that cannot signal yet, or whose phase is still open, goes on with a wait. -/
def Obligations.PhaserWordsComplete : Prop :=
  (∀ (x : Ph) d a mode, let i := Instr.phreg x d a mode
    let noted (act : LaneMask) (s : State) : State := s.setTh (noteWord s.th i act)
    let name (act : LaneMask) (t : State) : Word := opnd32 (noted act t) (lowLane act) a
    let status (act : LaneMask) (t : State) : Nat := phregStatus (noted act t) x.x.toNat (name act t) (phMode mode)
    let of (act : LaneMask) (t : State) : PhName := (phName (name act t)).getD (.pkg 0)
    let asked (t : State) : Option Joining := joiningOf t (memberOf t x.x.toNat)
    (∀ node s, let act := partaking i x.hd s
      let t := noted act (issued i i.uses [] x.hd s)
      issuesNow i i.uses x.hd s = true → act ≠ 0 → asked t = none → status act (issued i i.uses [] x.hd s) = 0 →
      phNode t (of act (issued i i.uses [] x.hd s)) = some node →
        exec i s = .next (askRoot s (of act (issued i i.uses [] x.hd s)) node (memberOf t x.x.toNat) (phMode mode))) ∧
    (∀ first, Works i i.uses [] x.hd
      (fun act t => asked t = some ⟨t.th.agent, memberOf t x.x.toNat, of act t, phMode mode, some first⟩)
      fun act t =>
        writeSlots x.hd [.ph x.x.toNat (handleOf t x.x.toNat)] [.ph x.x.toNat (some ⟨of act t, phMode mode, first, first⟩)]
          (laneWrites act 2 d (fun _ => first ++ 0#32) fun _ => false) (endJoining (noted act t) (memberOf t x.x.toNat))) ∧
    Works i i.uses [] x.hd (fun act t => asked t = none ∧ status act t ≠ 0) fun act t =>
      { noted act t with free := t.free + 1 }.setTh (deliver x.hd
        (laneWrites act 2 d (fun _ => Config.freeWord t.free ++ BitVec.ofNat 32 (status act t)) fun _ => false) (noted act t).th)) ∧
  (∀ (x : Ph) ph, Works (.phdrop x) [] [] x.hd (fun _ t => handleAt t x.x.toNat = some ph) fun _ t =>
    writeSlots x.hd [.ph x.x.toNat (handleOf t x.x.toNat)] [.ph x.x.toNat none] []
      (dropMember t t.th.ident.die (memberOf t x.x.toNat) ph t.th.fabric)) ∧
  (let Signals (i : Instr) (x : Ph) (d : Operand) (any : Bool) (scope : Scope) (tl : Option Nat) (na : Nat) (a : Operand)
      (nb : Nat) (b : Operand) : Prop :=
    ∀ ph node,
      let may (t : State) : Prop := handleAt t x.x.toNat = some ph ∧ phNode t ph.name = some node ∧ ph.mode ≠ .wait ∧
        (any = true → ph.mode = .any)
      let cand (act : LaneMask) (t : State) : Option Cand :=
        if any then some ⟨(phLane t act na a nb b).a.setWidth 32, t.pkg, t.th.ident.die, t.wg.wgl⟩ else none
      let bound (act : LaneMask) (t : State) : Option (Nat × DWord) := tl.map fun n => (n, (phLane t act na a nb b).b)
      Works i (usesOr i d) [] x.hd (fun _ t => may t ∧ ph.sigph ≠ node.seen + 2 ∧ (tl.isSome = true → holdFull t = false))
        (fun act t =>
          let v := sendOrHold t (memberOf t x.x.toNat) ph.name (.signal ph.sigph (cand act t)) (bound act t) (releaseTags t.th scope)
          let u := if (handleOf v x.x.toNat).isNone then v
            else { v with wg := { v.wg with phs := putBy x.x.toNat { ph with sigph := ph.sigph + 1 } v.wg.phs } }
          u.setTh (noteLane (deliver x.hd (if d.isZero then [] else laneWrites act 1 d (fun _ => ph.sigph.setWidth 64) fun _ => false)
            u.th) (phLane t act na a nb b))) ∧
      Works i (usesOr i d) [] x.hd (fun _ t => may t ∧ ph.sigph = node.seen + 2) fun act t =>
        let y := phLane t act na a nb b
        t.setTh (openKept x.hd
          (.signal x.x.toNat (if d.isZero then .c 0 else d) act (cand act t) (bound act t) (releaseTags t.th scope) [])
          (logOf i x.hd t.th act 0 [y]) (noteLane t.th y))
  (∀ x d scope, Signals (.phsig x d scope) x d false scope none 0 d 0 d) ∧
  (∀ x d (tl : BitVec 3) b, Signals (.phsigb x d tl b) x d false .pd (some tl.toNat) 0 d 2 b) ∧
  (∀ x d a, Signals (.phany x d a) x d true .tr none 1 a 0 d) ∧
  (∀ x d a (tl : BitVec 3) b, Signals (.phanyBind x d a tl b) x d true .pd (some tl.toNat) 1 a 2 b)) ∧
  (let Waits (i : Instr) (x : Ph) (a : Operand) (fits : PhHandle → PhNode → Prop) (w : LaneMask → Word → Wait) : Prop :=
    ∀ ph node, Works i i.uses [] x.hd
      (fun _ t => handleAt t x.x.toNat = some ph ∧ phNode t ph.name = some node ∧ fits ph node) fun act t =>
        let y := phLane t act 1 a 0 a
        match phDone t (w act (y.a.setWidth 32)) with
        | some (u, ws) => u.setTh (noteLane (deliver x.hd ws u.th) y)
        | none => t.setTh (openKept x.hd (w act (y.a.setWidth 32)) (logOf i x.hd t.th act 0 [y]) (noteLane t.th y))
  (∀ x a scope, Waits (.phwait x a scope) x a (fun ph _ => ph.mode ≠ .sig) fun _ phase => .ph x.x.toNat phase scope) ∧
  (∀ x d a scope, Waits (.phwin x d a scope) x a (fun ph node => node.anyOf = true ∧ (ph.mode = .wait ∨ ph.mode = .any))
    fun act phase => .phwin x.x.toNat phase scope d act [])) ∧
  (∀ s h phase scope ph node, handleOf s h = some ph → phNode s ph.name = some node →
    phDone s (.ph h phase scope) = (if node.open_ phase then some (acquire s scope, []) else none) ∧
    ∀ d act, phDone s (.phwin h phase scope d act []) =
      if node.open_ phase then some (acquire s scope, laneWrites act 2 d (fun _ => winRecord node phase) fun _ => false) else none) ∧
  (∀ (x : Ph) d a, let i := Instr.phtest x d a
    Works i i.uses [] x.hd (fun _ _ => True) fun act t =>
      let l := lowLane act
      t.setTh (deliver x.hd (laneWrites act 1 d (fun _ => (phStatus t x.x.toNat (opnd32 t l a)).setWidth 64) fun _ => t.th.marked l 1 a)
        (noteWord t.th i act))) ∧
  (∀ (x : Ph) a b ph, let i := Instr.phtime x a b
    Works i i.uses [] x.hd (fun _ t => handleAt t x.x.toNat = some ph) fun act t =>
      let l := phLane t act 2 a 1 b
      let u := toRoot t ph.name (.time l.a (l.b.toNat % 65536))
      u.setTh (noteLane u.th l)) ∧
  (∀ hd tl h a s u, let i := Instr.coll hd tl h a
    let t := issued i i.uses [] hd s
    let x := collLane t (partaking i hd s) a
    let t' := t.setTh (noteLane t.th x)
    let num := bitsN x.data.toNat 31 16
    issuesNow i i.uses hd s = true → partaking i hd s ≠ 0 → x.addr.toNat % 64 = 0 → (t'.wg.tl tl.toNat).full = false →
    (t'.colls.any fun y => y.ctx == t'.wg.ctx && y.num == num && y.wgl == t'.wg.wgl && !y.numberFree t') = false →
    ((activeColls t').contains (t'.wg.ctx, num) = true ∨ (activeColls t').length < bitsN t'.collcfg.toNat 22 16) → poolAsk t' 0 3 = some u →
      exec i s = .next (joinColl u x h tl.toNat)) ∧
  (∀ hd d a, let i := Instr.collst hd d a
    Works i i.uses [] hd (fun _ _ => True) fun act t =>
      t.setTh (deliver hd (laneWrites act 2 d (fun l =>
        match t.colls.find? fun x => x.ctx == t.wg.ctx && x.num == (opnd32 t l a).toNat && x.wgl == t.wg.wgl with
        | none => 0
        | some x => x.word) (fun l => t.th.marked l 1 a)) (noteWord t.th i act)))

/-- The words that read and write special and system registers complete (R212 to R217): SREAD and SWRITE of any register, SREAD.sys
and SWRITE.sys of a register that the leader's view lets them reach, SETHDL of an aligned address, ESTAT, and PGGEN, at once or with a
wait for what uses older translations; for a number beyond the address-space table the value of D is free (log entry 2). -/
def Obligations.SystemWordsComplete : Prop :=
  (∀ hd d (n : BitVec 6), let i := Instr.sread hd d (.s n)
    Works i i.uses [] hd (fun _ _ => True) fun act t =>
      t.setTh (deliver hd (laneWrites act (Operand.s n).specialWords d (fun l => special t l n.toNat) fun _ => false) t.th)) ∧
  (∀ hd d n, let i := Instr.sreadSys hd d n
    Works i i.uses [] hd (fun _ t => leaderView t n.toNat false = some true) fun act t =>
      result hd act (sysWords n) d (sysRead t (coreNo t.th.agent) n.toNat) false t) ∧
  (∀ hd (n : BitVec 6) b, let i := Instr.swrite hd (.s n) b
    Works i i.uses [] hd (fun _ _ => True) fun act t =>
      let w := (Operand.s n).specialWords
      t.setTh (noteMark (writeSpecial t.th n.toNat (wideOpnd t (lowLane act) w b)) (t.th.marked (lowLane act) w b))) ∧
  (∀ hd n b s, let i := Instr.swriteSys hd n b
    let l := lowLane (partaking i hd s)
    let t := issued i i.uses [] hd s
    let v := wideOpnd t l (sysWords n) b
    let u := t.setTh (advance (noteMark t.th (t.th.marked l (sysWords n) b)))
    let core := coreNo t.th.agent
    issuesNow i i.uses hd s = true → partaking i hd s ≠ 0 → leaderView t n.toNat true = some true →
      exec i s = .next (if leaderReg n.toNat true then leaderWrite u (core - 24) (core - 24) (t.lease (core - 24)).term n.toNat v
        else sysWrite u core n.toNat v)) ∧
  (∀ hd a, let i := Instr.sethdl hd a
    Works i i.uses [] hd (fun act t => (opnd64 t (lowLane act) a).toNat % 8 = 0) fun act t =>
      t.setTh (noteMark { t.th with hdl := opnd64 t (lowLane act) a } (t.th.marked (lowLane act) 2 a))) ∧
  (∀ hd d a, let i := Instr.estatLog hd d a
    Works i i.uses [] hd (fun _ _ => True) fun act t =>
      let m := t.th.marked (lowLane act) 1 a
      t.setTh (noteMark (t.th.writes (laneWrites act 2 d (fun l => logRead t.th (opnd32 t (lowLane act) a).toNat l) fun _ => m)) m)) ∧
  (∀ hd d, let i := Instr.estatEq hd d
    Works i i.uses [] hd (fun _ _ => True) fun act t =>
      { t with cx := { t.cx with errq := t.cx.errq.drop 1 } }.setTh
        (t.th.writes (laneWrites act 2 d (fun _ => (t.cx.errq.head?).getD 0) fun _ => false))) ∧
  (∀ hd d a, let i := Instr.pggen hd d a
    Works i i.uses [] hd
      (fun act t => (opnd32 t (lowLane act) a).toNat < t.trans.astlen.toNat ∧ opsIn t (opnd32 t (lowLane act) a).toNat = false)
      fun act t =>
        let l := lowLane act
        let n := (opnd32 t l a).toNat
        let m := t.th.marked l 1 a
        let g : Word := BitVec.ofNat 32 (spaceGen t n) + 1
        let u := homeWrite (dropRecurred (drainDie t t.th.ident.die) n g.toNat) (t.trans.astbase.toNat + 64 * n + 8) 0 (toBytes 4 g.toNat) false t.pkg t.th.ident.die
        if (usersOf t n).left u then u.setTh (openWait { hd with la := 0 } (.gen g d act m (usersOf t n)) (noteMark u.th m))
        else
          let v := acquire u .pk
          v.setTh (noteMark (v.th.writes (laneWrites act 1 d (fun _ => g.setWidth 64) fun _ => m)) m)) ∧
  (∀ hd d a, let i := Instr.pggen hd d a
    Works i i.uses [] hd (fun act t => t.trans.astlen.toNat ≤ (opnd32 t (lowLane act) a).toNat) fun act t =>
      let m := t.th.marked (lowLane act) 1 a
      { t with free := t.free + 1 }.setTh (noteMark
        (t.th.writes (laneWrites act 1 d (fun _ => (Config.freeWord t.free).setWidth 64) fun _ => m)) m))

/-- The control core's words complete (R218 to R220): the assist in the order next, get, put, done on the request that it has taken,
HALT and HALT.stop. -/
def Obligations.ControlCoreWordsComplete : Prop :=
  (∀ hd d, let i := Instr.assistNext hd d
    Works i i.uses [] hd (fun _ _ => True) fun act t =>
      let cl := t.th.agent.cluster
      match tget [] t.assists cl with
      | [] => t.setTh (t.th.writes (laneWrites act 2 d (fun _ => 0xffffffff) fun _ => false))
      | a :: r =>
        { t with assists := tset [] t.assists cl ({ a with taken := true } :: r) }.setTh (t.th.writes
          (laneWrites act 2 d (fun _ => BitVec.ofNat 64 (a.core + a.elems.length * 256 + a.fmt * 2 ^ 21)) fun _ => false))) ∧
  (∀ hd d a r j k x p, let i := Instr.assistGet hd d a
    Works i i.uses [] hd
      (fun act t => takenAssist t = some r ∧ r.elems[(opnd32 t (lowLane act) a).toNat]? = some (j, k, x, p))
      fun act t => t.setTh (t.th.writes
        (laneWrites act 2 d (fun _ => BitVec.ofNat 64 (x.toNat + (j + 64 * k) * 2 ^ 32)) fun _ => false))) ∧
  (∀ hd a b r j k x p, let i := Instr.assistPut hd a b
    Works i i.uses [] hd
      (fun act t => takenAssist t = some r ∧ r.elems[(opnd32 t (lowLane act) a).toNat]? = some (j, k, x, p))
      fun act t =>
        let w := engWrite t r.core 0 p (toBytes (elemBits r.fmt / 8) (opnd32 t (lowLane act) b).toNat) false
        tagAssisted w.2 r w.1) ∧
  (∀ hd a r, Works (.assistDone hd) [] [] hd (fun _ t => tget [] t.assists t.th.agent.cluster = a :: r ∧ a.taken = true) fun _ t =>
    endAssist t t.th.agent.cluster a r) ∧
  (∀ hd, Works (.halt hd) [] [] hd (fun _ _ => True) fun _ t =>
    if (t.timer (coreNo t.th.agent)).timer then t else t.setTh { t.th with status := .halted }) ∧
  (∀ hd, Works (.haltStop hd) [] [] hd (fun _ _ => True) fun _ t => t.setTh { t.th with status := .stopped })

/-! ### Device steps -/

/-- The steps of the copy engine (R133, R142 to R145, R235, R354): a start looks at the commands in turn, a walk ahead translates for
the first 32 commands of its cluster that have not started, a chunk of a started command arrives at its map, or the command loses a map that
is bound no more, and a command with nothing left to do completes its ticket and
leaves the queue, after the answer of a notify word that lies in a cohort member's scratchpad. -/
def Obligations.CopyEngineSteps : Prop :=
  (∀ core s, exec (.copyStart core) s =
    .next (rebackAll (startFirst core (rotateCmds (s.core core).lastIssuer (s.core core).copyq) s))) ∧
  (∀ core s, exec (.walkAheadTranslate core) s =
    .next (((aheadOf s (core / 8)).take 32).foldl (walkAhead (core / 8)) s)) ∧
  (∀ core i s x c w m n r g,
    ((s.core core).copyq.find? fun x => x.id == i && x.phase == .started && x.remote.isEmpty) = some x → x.chunks = (c, w, m, n) :: r →
    let u := putCmd s core { x with chunks := r }
    getWg u c w = some g →
      ((findMap g m).isSome = true → exec (.chunkArrival core i) s = .next (putWg u (g.arriveChunk m n))) ∧
      ((findMap g m).isNone = true → exec (.chunkArrival core i) s = .next (putCmd u core { x with chunks := r }.lostMap))) ∧
  (∀ core i s x, ((s.core core).copyq.find? fun x => x.id == i && x.phase == .started) = some x → x.chunks = [] → x.remote = [] →
    let good := x.code = 0 ∨ x.code = 5 ∨ (x.code = 2 ∧ x.isGather = true)
    (∀ c w off v, good → x.notifyAway s = some (c, w, off, v) →
      let r := cohortAsk s core c w off (.write (toBytes 4 v.toNat) false)
      exec (.copyComplete core i) s = .next (putCmd r.2 core { x with notify := none, remote := [r.1] })) ∧
    (¬good ∨ x.notifyAway s = none →
      let u := finishTicket (if good then writeNotify s x.notify else s)
        x.issuer x.tl x.ticket x.code (if x.byToken then 3 else 0) 2 x.sat x.data x.stale
      exec (.copyComplete core i) s =
        .next (u.setCore core { u.core core with copyq := (u.core core).copyq.filter fun y => y.id != i })))

/-- The steps of the matrix array and the pool (R154, R162, R234, R238, R401): arrivals that wait for nothing happen and the owner's
next operation starts, a started operation is performed, an operation whose writes are acknowledged ends, the outgoing owner's
state is saved and the array goes to the next workgroup that waits, with the state that its save area holds, a sequencer whose SEQEND is
due is idle, and of the producers that stall on the pool, which take their places behind one another, those that have ended lose theirs,
and the first of the others alone enters, when there is room. -/
def Obligations.MatrixArraySteps : Prop :=
  (∀ core s, let u := (wgsOn s core).foldl (fun s g => putWg s (headArrives g)) s
    ((u.core core).owner = none → exec (.arrayOpStart core) s = .next u) ∧
    (∀ c w g, (u.core core).owner = some (c, w) → getWg u c w = some g →
      exec (.arrayOpStart core) s = .next (startOp core g u))) ∧
  (∀ core s c w g e before x after, (s.core core).owner = some (c, w) → getWg s c w = some g → engCtx s core (.matrix c w) = some e →
    goingOp g.mq = some (before, x, after) →
      (x.phase ≠ .acking → exec (.arrayOpComplete core) s = .next (performOp core e g before x after s)) ∧
      (x.phase = .acking → exec (.arrayOpComplete core) s = .next (finishOp core c w before x after s))) ∧
  (∀ core s g r, ownerFree s core = true → arrayWaiters s core = g :: r →
    let u := saveOwner s core
    let v := u.setCore core { u.core core with owner := some (g.ctx, g.wgl), lastOwner := some (g.ctx, g.wgl) }
    exec (.arrayOwnershipChange core) s =
      .next { putWg v (if g.ownedArray then { g with matrix := loadMatrix u g }
          else { g with ownedArray := true, matrix := Matrix.fresh }) with
        inputs := v.inputs ++ [.arrayOpStart core, .arrayOpComplete core] }) ∧
  (∀ ctx wg (copy : Bool) s, s.th.agent = (if copy then .copy ctx wg else .matrix ctx wg) →
    s.th.pend.any (Pend.waitsFor Wait.isSeqend) = true → seqDone s = true →
      exec (.sequencerIdle ctx wg copy) s =
        .next { s with th := goIdle s.th, inputs := s.inputs ++ [.arrayOwnershipChange s.th.ident.core] }) ∧
  (∀ core (queue : Nat) s, exec (.poolEntryGrant core queue) s = .next (s.setCore core { s.core core with
    stalled := (s.core core).stalled.filter fun x => x.1 != queue || producerAlive s x.2 })) ∧
  (∀ s core queue e who, let c := s.core core
    let first := c.stalled.find? fun x => x.1 == queue && producerAlive s x.2
    let own := fun (x : Nat × Producer) => x.1 == queue && sameProducer s x.2 who
    (c.stalled.any own = false → ((poolWait s core queue who).core core).stalled = c.stalled ++ [(queue, who)]) ∧
    (∀ x, first = some x → sameProducer s x.2 who = false → poolEnter s core queue e who = none) ∧
    ((∀ x, first = some x → sameProducer s x.2 who = true) → poolRoom c queue e = true →
      poolEnter s core queue e who =
        some (s.setCore core (poolTake { c with stalled := c.stalled.filter fun x => !own x } queue e)))) ∧
  (∀ core s, ((wgsOn s core).any fun g => g.mq.any fun x => x.phase == .started) = false →
    exec (.matrixColumnSpare core) s =
      .next { s with ras := { s.ras with cols := s.ras.cols.map fun x => if x.1 = core then (x.1, x.2.1, true) else x } })

/-- Remote register access on its way (R187, R188, R265, R270 to R275): a packet moves on by a flit, or is performed at its target and
leaves the ring, a slice that need not hold it forwards a delivery to the core that holds its target or performs it, a core applies one and frees its entries, and the last
answer of a word completes its ticket, or another package is answered. -/
def Obligations.DeliverySteps : Prop :=
  (∀ cluster i s p q r, ((s.ring cluster).packets.find? fun p => p.id == i) = some p → carHop (s.ring cluster) p = some (q, r) →
    let u := leftSource (s.setRing cluster r) p q
    exec (.carouselHop cluster i) s = .next { u with inputs := u.inputs ++ ringWake u cluster }) ∧
  (∀ cluster stop s p r u, (s.ring cluster).dueAt stop = p :: r → performLoad s cluster p = (true, u) →
    exec (.carouselEject cluster stop) s = .next (ejected u cluster p)) ∧
  (∀ cluster stop s, exec (.carouselEject cluster stop) s = .next (ejectFirst cluster ((s.ring cluster).dueAt stop) s)) ∧
  (∀ i s d, (s.sends.find? fun d => d.id == i) = some d → d.phase = .slice → sendBefore s d = false → sliceHolds s d = false →
    let t := capTarget d.cap
    (∀ n, coreOf s t.1 t.2.1 = some n → exec (.sliceForward i) s = .next (takeInbound s n d).2) ∧
    (coreOf s t.1 t.2.1 = none → exec (.sliceForward i) s = .next (performSend s d none))) ∧
  (∀ i s d core, (s.sends.find? fun d => d.id == i) = some d → d.phase = .inbound core → sendBefore s d = false →
    let v := performSend (s.setCore core (poolFree (s.core core) 2 (d.units 16))) d (some core)
    exec (.rwrDeliveryApply i) s =
      .next { v with inputs := v.inputs ++ [.poolEntryGrant core 2] ++ ringWake v (core / 8) }) ∧
  (∀ i s d code, (s.sends.find? fun d => d.id == i) = some d → d.phase = .answered code →
    let u := { s with sends := s.sends.filter fun e => e.id != i }
    (∀ a core tl ticket, d.sender = .word a core tl ticket →
      let v := if code = 0 then u else noteFailure u a tl ticket code 1 1
      exec (.rwrAnswer i) s = .next (if v.sends.any fun e => (match e.sender with
          | .word b _ n k => b == a && n == tl && k == ticket
          | .packet _ => false) then v else completeTicket v a tl ticket)) ∧
    (∀ p, d.sender = .packet p →
      exec (.rwrAnswer i) s = .next (respondCached u p { packetBlank with typ := 6, code := code })))

/-- The commands of a queue (R321 to R326): a NOP, a WAIT, a SIGNAL or a LAUNCH at HEAD is fetched, a TYPE that does not exist halts
the queue with BADCMD, a WAIT whose word is large enough starts and one whose word is not stays, a skipped command lets the queue go on,
and the writes of QTAIL and QCFG.EN fetch. The firmware core reaches every queue, a virtual function of the host its four alone. -/
def Obligations.QueueSteps : Prop :=
  (∀ q s c u, takeCmd s q 0 = some (c, u) → exec (.cmdNop q) s = .next (startedQ u q)) ∧
  (∀ q s c u, takeCmd s q 1 = some (c, u) → exec (.cmdLaunch q) s = .next { u with inputs := u.inputs ++ [.launchStart q] }) ∧
  (∀ q s c u, takeCmd s q 2 = some (c, u) →
    (waitFieldsOk u q c = true → exec (.cmdWait q) s = .next { u with inputs := u.inputs ++ [Instr.waitConditionMet q] }) ∧
    (waitFieldsOk u q c = false → exec (.cmdWait q) s = .next (haltQueue u q 1))) ∧
  (∀ q s c u v pa key, (s.queue q).cmd = none → takeCmd s q 3 = some (c, u) → waitFieldsOk u q c = true → launchesOut u q = false →
    frontWalk u (bitsN c 207 192) (bitsN c 184 128) .store = (.ok (pa, key), v) → inDirectory pa = false →
      (∀ t, frontWrite v pa key (toBytes 8 (bitsN c 127 64)) = (none, t) → exec (.cmdSignal q) s = .next (startedQ t q)) ∧
      (∀ n t, frontWrite v pa key (toBytes 8 (bitsN c 127 64)) = (some n, t) → exec (.cmdSignal q) s = .next (setPhase t q (.sent n)))) ∧
  (∀ q s c u r v, (s.queue q).cmd = none → takeCmd s q 3 = some (c, u) → waitFieldsOk u q c = true → launchesOut u q = false →
    frontWalk u (bitsN c 207 192) (bitsN c 184 128) .store = (.error r, v) →
      exec (.cmdSignal q) s = .next (refuseCmd v q 1 (bitsN c 207 192) (bitsN c 184 128) r .store)) ∧
  (∀ q s, (s.queue q).fetchable = true → 4 ≤ cmdType (headCmd s (s.queue q)) →
    exec (.cmdBadType q) s = .next (haltQueue s q 1)) ∧
  (∀ q s c pa key u b m v, (s.queue q).cmd = some (c, .fetched) → cmdType c = 2 →
    frontWalk s (bitsN c 207 192) (bitsN c 184 128) .load = (.ok (pa, key), u) → inDirectory pa = false →
    frontRead (if homedHere u pa then drainDie u 0 else u) pa key 8 = (some (b, m), v) →
      (bitsN c 127 64 ≤ ofBytes b → exec (.waitConditionMet q) s = .next (startedQ (acquireAll v) q)) ∧
      (ofBytes b < bitsN c 127 64 → exec (.waitConditionMet q) s = .next (rdcDrop v 0 pa))) ∧
  (∀ q tail s, (queueShown s q = true →
      exec (.qtailWrite q tail) s = .next (nextFetch (s.setQueue q.q { s.queue q.q with tail := tail }) q.q)) ∧
    (queueShown s q = false → exec (.qtailWrite q tail) s = .next s)) ∧
  (∀ q s, let x := s.queue q.q
    (queueShown s q = true → x.halted = true → exec (.qstatSkip q) s = .next (nextFetch (s.setQueue q.q
      { x with halted := false, err := 0, head := if x.bad then x.head + 1 else x.head, bad := false }) q.q)) ∧
    (queueShown s q = false → exec (.qstatSkip q) s = .next s)) ∧
  (∀ q en s, (queueShown s q = true → exec (.qcfgEnWrite q en) s = .next (nextFetch (s.setQueue q.q { s.queue q.q with
      cfg := BitVec.ofNat 32 (setBitsN (s.queue q.q).cfg.toNat 7 7 (if en then 1 else 0)) }) q.q)) ∧
    (queueShown s q = false → exec (.qcfgEnWrite q en) s = .next s)) ∧
  (∀ s q, queueShown s ⟨none, q⟩ = true ∧ ∀ fn, fn ≠ 16 → q / 4 ≠ fn → queueShown s ⟨some fn, q⟩ = false)

/-- A launch from its checks to its end (R325 to R332, R339, R359 to R362): where its checks pass its context lives with its workgroups
to place, and where one fails its record says which and the queue moves on; a cohort is placed where all its cores have room; troupes,
workgroups and launches end where nothing of them is left, a workgroup giving its core up with its cohort; cohorts are swapped out, their
forwarding entries going to MOVING first, and in again; and system software pre-empts or ends a context. -/
def Obligations.LaunchSteps : Prop :=
  (∀ q s c, ((s.queue q).cmd = some (c, .fetched) ∨ ∃ far, (s.queue q).cmd = some (c, .measuring far)) → cmdType c = 1 →
    (bitsN c 31 31 = 1 → launchesOut s q = false) → ((liveCxs s).any fun x => x.ctx == lCtx c) = false → lDone c % 64 = 0 →
    (∀ pa key u, launchFails s q c ≠ 0 → frontWalk s (lAsid c) (lDone c) .store = (.ok (pa, key), u) → inDirectory pa = false →
      exec (.launchStart q) s = .next (startedQ (putRecord u (lAsid c) pa key
        (doneRecord (BitVec.ofNat 64 (bitsN c 1151 1088)) 1 (launchFails s q c) ⟨0, 0, 0, 0⟩ 0 0)) q)) ∧
    (∀ pa key u p v, launchFails s q c = 0 → frontWalk s (lAsid c) (lDone c) .store = (.ok (pa, key), u) → inDirectory pa = false →
      (createPhreqs c [0, 1, 2, 3] u = (p, true, v) → ∀ at_ k w, frontWalk (p.foldl destroyPhreq v) (lAsid c) (lDone c) .store =
          (.ok (at_, k), w) → inDirectory at_ = false →
        exec (.launchStart q) s = .next (startedQ (putRecord w (lAsid c) at_ k
          (doneRecord (BitVec.ofNat 64 (bitsN c 1151 1088)) 1 9 ⟨0, 0, 0, 0⟩ 0 0)) q)) ∧
      (createPhreqs c [0, 1, 2, 3] u = (p, false, v) → ∀ ttab uregs seeds s1 s2 s3 got s4,
        frontGather (lAsid c) (linePieces (lTtab c) (64 * lNh c)) v = (some ttab, s1) →
        frontGather (lAsid c) (linePieces (lUregp c) (4 * lUregs c)) s1 = (some uregs, s2) →
        frontGather (lAsid c) (linePieces (lSeedp c) (32 * lSeedn c)) s2 = (some seeds, s3) →
        let units := codeUnits s3 (lAsid c) 4096 (lCode c / 65536 * 65536)
        gatherCode (farCode s3 units) (measuredFar s3 q) s3 = (got, s4) → (farCode s3 units).length ≤ got.length →
        let x := newContext s4 q c ttab p units (measure s4 c ttab uregs seeds units got)
        let y := pushSeeds { s4 with cxs := s4.cxs ++ [x], free := s4.free + 192, launches := s4.launches + 1 } x
          ((groupsOf 32 (lSeedn c) seeds).map ofBytes)
        let z := setPhase (if x.cen then joinCurtain y x.pcurt else y) q .placing
        (z.queue q).cmd = some (c, .placing) →
          exec (.launchStart q) s = .next { z with inputs := z.inputs ++ x.toPlace.map fun p => Instr.workgroupPlace x.ctx p.1 }))) ∧
  (∀ ctx wg s x core cohort stage b u, getCx s ctx = some x →
    (x.toPlace.find? fun p => p.1 == wg) = some (wg, core, cohort, stage) → x.ending = false →
    let mine := x.toPlace.filter fun p => p.2.2.1 == cohort
    (∀ p ∈ mine, hasRoom s x p.2.1 = true) → frontGather x.asid (linePieces x.uregp.toNat (4 * x.uregs)) s = (some b, u) →
      exec (.workgroupPlace ctx wg) s = .next (launchBegun (mine.foldl (placeMember x b)
        (putCx u { x with toPlace := x.toPlace.filter fun p => p.2.2.1 != cohort })) x)) ∧
  (∀ x b s wg core cohort stage, let id (t : Nat) : Ident := identOf s t wg stage cohort core
    placeMember x b s (wg, core, cohort, stage) = occupy { s with
      threads := s.threads ++ (List.range x.troupes).map (fun t => newTroupe x wg t (id t) b)
        ++ [newSeq (.matrix x.ctx wg) (id 0), newSeq (.copy x.ctx wg) (id 0)],
      wgs := s.wgs ++ [newWorkgroup x wg core cohort stage s.clock], forward := putBy (x.ctx, wg) (core + 2) s.forward }
      x.ctx wg x.troupes core) ∧
  (∀ c w t s th, s.thread (.troupe c w t) = some th → th.failed = false → th.live = 0 → th.status = .running → memoryDone th = true →
    let u := countEnd (s.setThread (.troupe c w t) fun th => { th with status := .ended, pend := [] }) c w t
    exec (.troupeEnd c w t) s = .next { u with inputs := u.inputs ++ [.workgroupEnd c w] }) ∧
  (∀ c w s g0 g, getWg s c w = some g0 → getWg (countFailed s g0) c w = some g → g.ended = false → wgDone (countFailed s g0) g = true →
    let u := putWg (dropHandles (countFailed s g0) g)
      { g with ended := true, phs := [], forkq := [], l1 := [], l1Due := [], l1Own := [] }
    let v := match g.core with
      | none => u
      | some core =>
        { u.setCore core { u.core core with owner := if (u.core core).owner = some (c, w) then none else (u.core core).owner } with
          inputs := u.inputs ++ [.arrayOwnershipChange core] }
    let t := roomAgain (freeCohort v c g.cohort)
    exec (.workgroupEnd c w) s = .next { t with inputs := t.inputs ++ [.launchEnd c] }) ∧
  (∀ s c k, ((getCx s c).any fun x => x.toPlace.any fun p => p.2.2.1 == k) = false →
    ((allWgs s).any fun g => g.ctx == c && g.cohort == k && !g.ended) = false →
      freeCohort s c k = (allWgs s).foldl (fun s g =>
        if g.ctx == c && g.cohort == k then putWg s { g with core := none, frames := none } else s) s) ∧
  (∀ c s x pa key u, getCx s c = some x → x.toPlace = [] → ((allWgs s).any fun g => g.ctx == c && !g.ended) = false → x.doneWait = none →
    x.declined = false →
    let s1 := launchBegun s x
    let y := { x with phreqs := [], key := 0, codeLo := 0, codeHi := 0, codeUnits := [] }
    frontWalk (putCx (((getCx s1 c).getD y).phreqs.foldl destroyPhreq s1) y) x.asid x.doneaddr.toNat .store = (.ok (pa, key), u) →
    inDirectory pa = false →
      exec (.launchEnd c) s = .next (afterLaunch (putRecord (forgetContext u c) x.asid pa key y.record))) ∧
  (∀ ctx cohort s x, getCx s ctx = some x → x.ending = false →
    let l := (cohortOf s ctx cohort).filter fun g => g.core.isSome
    l ≠ [] → (l.all fun g => g.ended) = false → l.any onArray = false →
    let y := { x with preempting := if x.preempting.contains cohort then x.preempting else x.preempting ++ [cohort] }
    let u := putCx (l.foldl (fun s g => putWg s { g with stopping := true }) s) y
    ((l.any fun g => lookupBy (g.ctx, g.wgl) u.forward != some 1) = true → exec (.preemptCohort ctx cohort) s = .next (setMoving u l)) ∧
    ((l.any fun g => lookupBy (g.ctx, g.wgl) u.forward != some 1) = false → l.any (inboundFor u) = false →
      let n := ((allWgs u).map fun g => g.outOrder).foldl max 0 + 1
      let v := (cohortOf u ctx cohort).foldl (swapOut n) u
      exec (.preemptCohort ctx cohort) s = .next (roomAgain (putCx { v with inputs := v.inputs ++ sendsDue v }
        { y with preempting := y.preempting.filter (· != cohort) })))) ∧
  (∀ ctx cohort cores s x, getCx s ctx = some x →
    let l := cohortOf s ctx cohort
    l.length = cores.length → cores.eraseDups = cores → (∀ k ∈ cores, k / 8 = cores.headD 0 / 8) → (∀ g ∈ l, g.core = none) →
    (∃ g ∈ l, g.ended = false) → x.ending = false → (∀ k ∈ cores, canResume s x k = true) →
      let u := (l.zip cores).foldl swapIn s
      exec (.resumeCohort ctx cohort cores) s = .next { u with inputs := u.inputs ++ sendsDue u }) ∧
  (∀ ctx wg page s g, getWg s ctx wg = some g → page < backedPages g →
    exec (.pageRefill ctx wg page) s = .next (if g.pages = [] then s else putWg s (g.touch s.clock [page]))) ∧
  (∀ ctx s x, getCx s ctx = some x → x.nopre = false →
    ∃ t, exec (.ctxctlPreempt ctx) s = .next t ∧
      ∀ g ∈ allWgs s, g.ctx = ctx → g.core.isSome = true → g.ended = false → Instr.preemptCohort ctx g.cohort ∈ t.inputs) ∧
  (∀ ctx s x, getCx s ctx = some x → x.ending = true → contextBusy s ctx = false →
    let u := roomAgain (((allWgs s).filter fun g => g.ctx == ctx).foldl endMember s)
    exec (.ctxctlEnd ctx) s = .next { u with inputs := u.inputs ++ [.launchEnd ctx] })

/-- Work that waits in the package: a parent record finds room in its list and goes there (R173), the Curtain reports a context without
open work (R339, R340), and signals once its package has joined the phaser, and a die applies the next write that it is due (R258).
Collectives (R208, R369, R373, R375): a cycle is made, and another one follows while something changed; a member lags once T has passed
for a survivor of this package, or where survivors in other packages say so; it leaves the ring of every
survivor, which starts again from the smallest count Q of completed chunks, the laggard's part ends, which is noted with Q, and another cycle
follows. -/
def Obligations.CurtainAndCollectiveSteps : Prop :=
  ((∀ ctx list s x y, getCx s ctx = some x → (x.parents.find? fun y => y.1 == list) = some y → listRoom s x list ≠ 0 →
    exec (.parentPush ctx list) s = .next (homePush (putCx s { x with parents := x.parents.erase y }) ctx list y.2)) ∧
  (∀ ctx s x, getCx s ctx = some x → x.open_ = 0 → x.dynamic = true →
    let signals := x.cen && !x.podQuiet && !joinsYet s (.pod x.pcurt)
    let u := putCx s { x with quiet := true, podQuiet := x.podQuiet || signals }
    exec (.curtainQuiescent ctx) s = .next (if signals then toRoot u (.pod x.pcurt) (.signal 0 none) else u)) ∧
  (∀ die s u r, dueUpdate (s.die die).clock [] (s.die die).updates = some (u, r) →
    exec (.dieApplyWrite die) s = .next (s.setDie die ({ s.die die with updates := r }.apply u)))) ∧
  ((∀ ctx num s, let t := rebackAll (collCycle ctx num s)
    (t.collq ≠ s.collq ∨ t.colls ≠ s.colls →
      exec (.collectiveComplete ctx num) s = .next { t with inputs := t.inputs ++ [.collectiveComplete ctx num] }) ∧
    (t.collq = s.collq → t.colls = s.colls → exec (.collectiveComplete ctx num) s = .next t)) ∧
  (∀ ctx num laggard counts s,
    let lagging := ringWith s ctx num laggard
    let all := counts ++ (lagging.filter fun x => x.me != laggard).map Coll.count
    let q := all.foldl min (all.headD 0)
    let u := lagging.foldl (fun s x => restitch s x laggard q) s
    let v := { u with collLagged := u.collLagged ++ [(ctx, num, laggard, q)] }
    let w := ((collsOf v ctx num).filter fun x => x.phase == .done && x.group.contains laggard).foldl settleLags v
    let again := (collsOf w ctx num).filter fun x => x.phase == .running && x.group.contains laggard
    (lags s ctx num laggard = true → exec (.collectiveLagTimeout ctx num laggard counts) s = .next { w with
      collq := w.collq ++ again.flatMap startMsgs, inputs := w.inputs ++ [.collectiveComplete ctx num] }) ∧
    (lags s ctx num laggard = false → exec (.collectiveLagTimeout ctx num laggard counts) s = .next s)) ∧
  (∀ s ctx num laggard (x : Coll), x ∈ s.colls → x.ctx = ctx → x.num = num → x.phase = .running → x.me ≠ laggard →
    (x.ring.any fun p => x.member p == laggard) = true →
    (x.begun.contains laggard = false → x.issued + 1000 * x.timeout ≤ s.podTime → lags s ctx num laggard = true) ∧
    (x.begun.contains laggard = true → x.follows laggard = true → x.since + 1000 * x.timeout ≤ s.podTime →
      lags s ctx num laggard = true)) ∧
  (∀ s (x : Coll) laggard q,
    (x.me ≠ laggard → restitch s x laggard q = putColl s { x with
      ring := x.ring.filter (fun p => x.member p != laggard), epoch := x.epoch + 1, q := max x.q q, order := true, restitched := true,
      told := false, fins := [], got := x.got.filter (fun p => decide (p.2 / 64 < max x.q q)), since := s.podTime }) ∧
    (x.me = laggard → restitch s x laggard q =
      collDone s { x with q := max x.q q, restitched := true, order := false } (laggardCode s x))))

/-- Faults, walks and page homes (R346, R355 to R357, R364, R365): an answer to a fault record retries or declines, a new PFQHEAD
lets what waits for room try again, a walk is made, an epoch of a unit that lies in no save area ends and its page home moves, every die
having applied what it owes, and frames and pins are kept. -/
def Obligations.PagingSteps : Prop :=
  (∀ (id : Word) s, exec (.pfqdoneRetry id) s = .next (answer s id.toNat false) ∧
    exec (.pfqdoneDecline id) s = .next (answer s id.toNat true)) ∧
  (∀ head s, exec (.pfqheadWrite head) s = .next (ringRoom { s with trans := { s.trans with pfqhead := head } })) ∧
  (∀ core asid (va : DWord) kind s, exec (.translationWalk core asid va kind) s =
    .next (translate s core asid va.toNat ⟨kind, decide (300 ≤ core), none, false⟩).2) ∧
  (∀ u s who f v, migCandidate s u = some who → unitHome s u / 4 = s.pkg → inSaveAreas s u = false → tget false s.trans.pinned u = false →
    (s.trans.moving.any fun m => m.1 == u) = false → tget 0 s.trans.hold u ≤ s.podTime →
    takeFrame { s with trans := { s.trans with counts := tset [] s.trans.counts u [], askers := tset [] s.trans.askers u [] } } who =
      some (f, v) →
      exec (.migrationEpochEnd u) s = .next { v with
        trans := { v.trans with moving := v.trans.moving ++ [(u, who, f, coreFor s u who)] }, inputs := v.inputs ++ [.pageHomeMove u] }) ∧
  (∀ u s m, (s.trans.moving.find? fun m => m.1 == u) = some m →
    exec (.pageHomeMove u) s = .next (moveUnit u m.2.1 m.2.2.1 m.2.2.2 ((List.range 4).foldl drainDie s))) ∧
  (∀ u who frame core s, unitHome (moveUnit u who frame core s) u = who ∧
    (unitHome s u / 4 = s.pkg ∨ who / 4 ≠ s.pkg → (moveUnit u who frame core s).mem = s.mem)) ∧
  (∀ u s, (s.trans.moving.find? fun m => m.1 == u) = none → unitHome s u / 4 ≠ s.pkg →
    exec (.pageHomeMove u) s = .next (moveFrom u s)) ∧
  (∀ u s, tget 0 s.trans.hold u ≤ s.podTime →
    exec (.thrashHoldEnd u) s = .next { s with trans := { s.trans with hold := tset 0 s.trans.hold u 0 } }) ∧
  (∀ die (frame : DWord) s, (tget [] s.trans.frames die).length < 256 →
    ∃ t, exec (.migfreePush die frame) s = .next t ∧ tget [] t.trans.frames die = tget [] s.trans.frames die ++ [frame.toNat]) ∧
  (∀ u s, (∃ t, exec (.migpinPin u) s = .next t ∧ tget false t.trans.pinned u = true) ∧
    (∃ t, exec (.migpinUnpin u) s = .next t ∧ tget false t.trans.pinned u = false))

/-- The Tether (R286 to R300): a reached root that rebuilds nothing takes in one cycle what has arrived, and answers the registrations
among it, a message of another package (a registration, a total, a report) reaches the root it names, a release is received, every
release whose time has come frees its waiters, a held signal leaves, PHDESC creates, destroys and keeps its fields, but with another KIND
than it holds, ports and roots fail over, a lost leaf node takes the totals with it that came by it, and the pod's time follows the
parent's. -/
def Obligations.TetherSteps : Prop :=
  (∀ name s r, phRoot s name = some r → r.lost = [] → rootReached s name = true →
    let own := r.inbox.filter fun a => a.2.mine s.pkg
    let r' := if own.isEmpty then r else sendOwn s name r
    let q := { r' with inbox := [], unsent := [] }.cycle s.pkg (isPod name) s.podTime (degraded s name) r.inbox
    let u := deliverReleases (setRoot s name q.2) name (r'.unsent ++ q.1)
    let v := if own.any fun a => a.2.registers then learnPhase u name q.2.c else u
    exec (.rootNodeCycle name) s = .next (endRoot (answerJoins (keepOwn v name own) name) name)) ∧
  (∀ node child name leaf phase s, child ≠ s.pkg → isPod name = true →
    (∀ any, phRoot s name = none → exec (.tetherCountMessage node child ⟨name, leaf, phase, .join any node⟩) s =
      .next (toRoot (setRoot s name (PhRoot.fresh any node)) name (.join child))) ∧
    (∀ r, phRoot s name = some r → r.spine = node →
      exec (.tetherCountMessage node child ⟨name, leaf, phase, .join r.anyOf r.rootIx⟩) s = .next (toRoot s name (.join child)) ∧
      (∀ k, exec (.tetherCountMessage node child ⟨name, leaf, phase, .totals k⟩) s =
        .next (toRoot s name (.totals child leaf phase (kidOf k) k.cand0 k.cand1))) ∧
      (∀ found win k, exec (.tetherCountMessage node child ⟨name, leaf, phase, .report found win k⟩) s =
        .next (rebuilt (setRoot s name (r.report child leaf phase found win (kidOf k) k.cand0 k.cand1)) name)))) ∧
  (∀ m s x, phNode s m.name = some x → phaseDone x.seen m.phase = false →
    let rel : PhRelease := ⟨m.phase, m.base.toNat, m.window, m.late, m.window != 0 || m.late || decide (s.podTime < m.base.toNat),
      m.found, m.win, m.skewed⟩
    (phRoot s m.name = none → exec (.releaseReceipt m) s = .next (receiveRelease s m.name rel)) ∧
    (∀ r, phRoot s m.name = some r → phaseDone r.c m.phase = true →
      exec (.releaseReceipt m) s = .next (receiveRelease s m.name rel)) ∧
    (∀ r, phRoot s m.name = some r → phaseDone r.c m.phase = false → exec (.releaseReceipt m) s =
      .next (receiveRelease (setRoot s m.name { r.toward (m.phase + 1) with found := m.found, win := m.win }) m.name rel))) ∧
  (∀ name s x, phNode s name = some x → exec (.packageRelease name) s =
    .next (setNode s name ((x.pending.filter fun p => decide (p.2.1 ≤ s.podTime)).foldl PhNode.release
      { x with pending := x.pending.filter fun p => !decide (p.2.1 ≤ s.podTime) }))) ∧
  (∀ die i s x, (s.tether.held.filter fun x => x.die == die)[i]? = some x → heldReady s x = true →
    (s.tether.held.find? fun y => y.member == x.member) = some x →
      exec (.boundSignalRelease die i) s = .next (toRoot (s.setTether { s.tether with held := s.tether.held.erase x }) x.name x.what)) ∧
  (∀ (value : Word) s, let u := clearRefused s value
    let n := selName u.tether.phsel
    let kind := ((lookupBy n u.tether.descs).getD PhDesc.reset).anyOf
    exec (.phdescCreate value) s = .next (createPhaser u n (PhDesc.of value.toNat)) ∧
    (∀ x, phNode u n = some x →
      (x.members = 0 → value.getLsbD 1 = x.anyOf → exec (.phdescDestroy value) s = .next (destroyPhaser u n (PhDesc.of value.toNat))) ∧
      (x.members ≠ 0 ∨ value.getLsbD 1 ≠ x.anyOf → exec (.phdescDestroy value) s = .next (refuseDesc u))) ∧
    (phNode u n = none →
      (value.getLsbD 1 ≠ kind → exec (.phdescDestroy value) s = .next (refuseDesc u)) ∧
      (value.getLsbD 1 = kind → exec (.phdescDestroy value) s =
        .next (u.setTether { u.tether with descs := putBy n (PhDesc.of value.toNat) u.tether.descs })))) ∧
  (∀ port s, let u := logFault (s.setTether (s.tether.setUp port false)) 7 1 0 (if port then 1 else 0) 0
    (port = s.tether.active → exec .tetherPortFailover s =
      .next (if s.tether.autofail then usePort u (!s.tether.active) else u)) ∧
    (port ≠ s.tether.active → exec (.tetherPortLinkUp ⟨port, false⟩) s = .next u) ∧
    exec (.tetherPortLinkUp ⟨port, true⟩) s = .next (resendAll (s.setTether (s.tether.setUp port true))) ∧
    exec (.tethcfgActiveWrite port) s = .next (usePort s port)) ∧
  (∀ name standby s r, isPod name = true → phRoot s name = some r →
    let lost := (r.kids.filter fun k => k.1 != s.pkg && decide (0 < k.2.e0 + k.2.e1 + k.2.later)).map Prod.fst
      ++ (if (phNode s name).isSome then [s.pkg] else [])
    exec (.leafRootFailover ⟨name, standby⟩) s = .next (setRoot s name { r with
      spine := standby, kids := if lost.isEmpty then r.kids else [], cand0 := none, cand1 := none, unsent := [], lost := lost,
      heard := false })) ∧
  (∀ name s x r, isPod name = true → phNode s name = some x → phRoot s name = some r →
    let last := ((x.pending.find? fun p => p.1.phase + 1 == x.seen).map fun p => (p.1.found, p.1.win)).getD (x.found, x.win)
    let u := s.setTether { s.tether with rootfails := min (s.tether.rootfails + 1) 15 }
    exec (.rootlost name) s = .next (rebuilt (setRoot u name (r.report s.pkg (Config.leafOf s.tether.active) x.seen last.1 last.2 x.own
      (lookupBy x.seen x.fwd) (lookupBy (x.seen + 1) x.fwd))) name)) ∧
  (∀ node child s, exec (.tetherChildLoss node child) s = .next (s.setTether { s.tether with
    roots := s.tether.roots.map fun r => if isPod r.1 && r.2.spine == node then
      (r.1, (r.2.paths.filter fun p => p.2 == child + 1).foldl (fun q p => q.setKid p.1 fun k => { k with n0 := 0, n1 := 0 }) r.2)
      else r })) ∧
  (∀ (parent : DWord) (skb : BitVec 12) above s, ∃ t, exec (.timeSyncExchange parent ⟨skb, above⟩) s = .next t ∧ t.tether.locked = true ∧
    t.tether.skb = skb.toNat ∧ t.tether.above = above ∧ (s.tether.locked = false → s.podTime ≤ parent.toNat → t.podTime = parent.toNat) ∧
    (s.tether.locked = true ∨ parent.toNat < s.podTime → t.podTime = s.podTime) ∧
    (s.tether.locked = true → t.tether.slew = (parent.toNat : Int) - s.podTime))

/-- Packets of other packages (R277 to R281, R383, R386, R389 to R393): a packet of each type is received, on a port that is UP and
waits for no replay; one of a reserved type is counted and dropped, an ACK retires and is sent, streams acknowledge, replay and close,
and a rate falls with a notice and recovers. -/
def Obligations.PacketSteps : Prop :=
  (∀ (p : Packet) s,
    (p.typ = 0 → exec (.packetLdreq p) s = .next (receive p s)) ∧ (p.typ = 1 → exec (.packetLdrsp p) s = .next (receive p s)) ∧
    (p.typ = 2 → exec (.packetWrite p) s = .next (receive p s)) ∧ (p.typ = 3 → exec (.packetAtom p) s = .next (receive p s)) ∧
    (p.typ = 4 → exec (.packetAtomrsp p) s = .next (receive p s)) ∧ (p.typ = 5 → exec (.packetRegwr p) s = .next (receive p s)) ∧
    (p.typ = 6 → exec (.packetRegans p) s = .next (receive p s)) ∧ (p.typ = 7 → exec (.packetCopy p) s = .next (receive p s)) ∧
    (p.typ = 8 → exec (.packetCollect p) s = .next (receive p s)) ∧ (p.typ = 9 → exec (.packetMcast p) s = .next (receive p s)) ∧
    (p.typ = 10 → s.fabric.hears p = true → exec (.packetAck p) s = .next (applyRetire p (applyAck p (heard s p))))) ∧
  (∀ (p : Packet) s, s.fabric.hears p = true → newEpochIn (heard s p) p = s → trusted s p.src = true →
    let x := s.fabric.inflow (inKey p)
    p.seq = x.expect → x.held = [] →
      let t := perform (s.setFab (s.fabric.setInflow (inKey p) { x with expect := x.expect + 1, held := [] })) p
      receive p s = { t with inputs := t.inputs ++ [Instr.ackSend p.src ⟨p.tc, (inKey p).2.2⟩] }) ∧
  (∀ (p : Packet) s, (s.fabric.port p.plane).st ≠ .up ∨ ((s.fabric.port p.plane).asked = true ∧ p.resent = false) → receive p s = s) ∧
  (∀ (h : BitVec 512) s, let x := s.fabric.port (h.extractLsb' 52 5).toNat
    headerReserved h = true → x.st = .up → x.asked = false →
      exec (.packetReserved h) s = .next (s.setFab { s.fabric with linkErrors := s.fabric.linkErrors + 1 })) ∧
  (∀ (p : Packet) s, p.typ = 11 → s.fabric.hears p = true → s.fabric.rateCfg.getLsbD 14 = false →
    ∃ t, exec (.packetDowndraft p) s = .next t ∧
      t.fabric.rate p.congested = max (s.fabric.rate p.congested * (8 - p.severity) / 8) (max 1 (bitsN s.fabric.rateCfg.toNat 5 0)) ∧
      ∀ d, d ≠ p.congested → t.fabric.rate d = s.fabric.rate d) ∧
  (∀ dst s, ∃ t, exec (.rateRecovery dst) s = .next t ∧
    t.fabric.rate dst = (if tget false s.fabric.noticed dst then s.fabric.rate dst else min (s.fabric.rate dst + 1) 64) ∧
    ∀ d, d ≠ dst → t.fabric.rate d = s.fabric.rate d) ∧
  (∀ (src : Nat) (x : StreamClass) s,
    (pickPlane s [src] none 1 = none → ∃ t, exec (.ackSend src x) s = .next t ∧ (src, x.tc.toNat, x.group) ∈ t.fabric.acksDue ∧
      t.mem = s.mem ∧ t.fabric.ports = s.fabric.ports) ∧
    (∀ n u, pickPlane s [src] none 1 = some (n, u) →
      let y := u.fabric.flow (src, 0, 0)
      let f := u.fabric.emit n (ackPacket u src x.tc x.group)
      exec (.ackSend src x) s = .next (u.setFab (if y.retireDue then f.setFlow (src, 0, 0) { y with retireDue := false } else f)))) ∧
  (∀ port s, (s.fabric.port port).st ≠ .up → exec (.linkLossReplay port port) s = .next (replay s fun p n =>
    (n == port || p.tc == 3) && (s.fabric.port port).flits.any fun f => sameCopy f.pkt p)) ∧
  (∀ (dst : Nat) (tc : BitVec 2) (seq : BitVec 16) (plane : Nat) s x p,
    (s.fabric.flows.findSome? fun x => (x.2.unretired.find? fun e => e.port.any (timedOut dst tc seq plane e.pkt)).map
      fun e => (x.2, e.pkt)) = some (x, p) →
    let late := if tc = 3 then (s.fabric.targets p).filter fun d => !groupAcked [d] x.acks p else [dst]
    exec (.e2eTimeoutReplay dst tc seq plane) s = .next (replay (s.setFab { s.fabric with
      excluded := s.fabric.excluded ++ (late.map fun d => (d, plane)).filter fun e => !s.fabric.excluded.contains e })
        (timedOut dst tc seq plane))) ∧
  (∀ dst plane s, exec (.planeExclusionExpire dst plane) s =
    .next (pumpOn (s.setFab { s.fabric with excluded := s.fabric.excluded.filter (· != (dst, plane)) }))) ∧
  (∀ (dst : Nat) (tc : BitVec 2) s, let mine (k : Nat × Nat × Nat) : Bool :=
      k.2.1 == tc.toNat && (if tc = 3 then (tget [] s.fabric.groups k.2.2).contains dst else k.1 == dst)
    let flows := s.fabric.flows.filter fun x => mine x.1
    let lost := flows.flatMap fun x => x.2.unretired.map fun e => e.pkt
    flows ≠ [] → (lost ≠ [] ∨ s.fabric.planes dst 1 = []) →
      let u := s.setFab { s.fabric with
        flows := s.fabric.flows.map fun x => if mine x.1 then (x.1, { Flow.fresh with newEpoch := true }) else x
        closed := min (s.fabric.closed + flows.length) 255 }
      exec (.streamClose dst tc) s = .next (lost.foldl linkFailed
        (if tc = 0 && lost.any fun p => p.typ == 0 then waitFailed u dst else u)))

/-- Ports (R382 to R387, R396, R399, R401): they are enabled and disabled, train and then replay what they kept, fail after five attempts,
lose lanes, change their width, and replay flits. -/
def Obligations.PortSteps : Prop :=
  (∀ n digest (locked : BitVec 4) s, let x := s.fabric.port n
    let lanes := locked &&& x.lmask &&& ~~~x.retiredLanes
    let active := activeOf x.pwidth lanes
    let own := digestOf s n active
    x.training = true → x.retiredLanes ≠ 0xf → active ≠ 0 →
    digest.toNat % 2 ^ 14 = own % 2 ^ 14 → bitsN digest.toNat 18 14 = bitsN own 18 14 → digest.getLsbD 31 = true →
      exec (.trainingAttemptEnd n digest locked true) s = .next (portUp (s.setFab (s.fabric.setPort n
        { x with st := .up, active := active, tries := 0, mismatch := false, lanes := lanes, planned := false, fails := 0, asked := false
                 lreplay := if x.flits = [] then x.lreplay else bump12 x.lreplay })))) ∧
  (∀ n (digest : Word) (locked : BitVec 4) s, (s.fabric.port n).training = true → (s.fabric.port n).retiredLanes ≠ 0xf →
    ((s.fabric.port n).tries < 4 → ∃ t, exec (.trainingAttemptEnd n digest locked false) s = .next t ∧ (t.fabric.port n).st = .train ∧
      (t.fabric.port n).tries = (s.fabric.port n).tries + 1 ∧ (t.fabric.port n).mismatch = true ∧
      (t.fabric.port n).flits = (s.fabric.port n).flits) ∧
    (4 ≤ (s.fabric.port n).tries → exec (.trainingAttemptEnd n digest locked false) s = .next (portFailed s n
      { s.fabric.port n with st := .train, tries := 5, mismatch := true, active := 0 }))) ∧
  (∀ n s, (s.fabric.port n).st = .off →
    ∃ t, exec (.portctlEn n true) s = .next t ∧ (t.fabric.port n).st = .train ∧ (t.fabric.port n).en = true) ∧
  (∀ n s, exec (.portctlEn n false) s =
    .next (portDown (s.setFab (s.fabric.setPort n { s.fabric.port n with en := false, st := .off, active := 0 })) n)) ∧
  (∀ n s, (s.fabric.port n).st = .failed →
    ∃ t, exec (.portctlReset n) s = .next t ∧ (t.fabric.port n).st = .train ∧ (t.fabric.port n).tries = 0) ∧
  (∀ n (w : BitVec 2) s, w ≠ 3 →
    ∃ t, exec (.portctlPwidth n w) s = .next t ∧ (t.fabric.port n).pwidth = w ∧ (t.fabric.port n).active = (s.fabric.port n).active) ∧
  (∀ n s, (s.fabric.port n).planned = true → (s.fabric.port n).st = .up →
    let a := activeOf (s.fabric.port n).pwidth (s.fabric.port n).lanes
    (a ≠ 0 → ∃ t, exec (.plannedWidthChange ⟨n, none⟩) s = .next t ∧ (t.fabric.port n).planned = false ∧
      (t.fabric.port n).active = a ∧ (t.fabric.port n).st = .up) ∧
    (a = 0 → ∃ t, exec (.plannedWidthChange ⟨n, none⟩) s = .next t ∧ (t.fabric.port n).active = 0 ∧ (t.fabric.port n).st = .train)) ∧
  (∀ n (w : BitVec 2) s, (s.fabric.port n).st = .up → s.power.cfg.getLsbD 24 = true → (s.fabric.port n).flits = [] →
    widest w ≤ widest (s.fabric.port n).pwidth → activeOf w (s.fabric.port n).lanes ≠ 0 →
      ∃ t, exec (.plannedWidthChange ⟨n, some w⟩) s = .next t ∧ (t.fabric.port n).active = activeOf w (s.fabric.port n).lanes ∧
        (t.fabric.port n).pwidth = (s.fabric.port n).pwidth) ∧
  (∀ n (lane : Moment) s, let x := s.fabric.port n
    let left := x.lanes &&& x.lmask &&& ~~~x.retiredLanes &&& ~~~BitVec.ofNat 4 (2 ^ lane.ix)
    let y := { x with lanes := left, active := activeOf x.pwidth left, forced := bump8 x.forced, retrain := bump8 x.retrain
                      lreplay := if x.flits = [] then x.lreplay else bump12 x.lreplay }
    x.st = .up → x.active.getLsbD lane.ix = true →
      exec (.laneLockLoss n lane) s = .next (laneEvents n lane.time (BitVec.ofNat 4 (2 ^ lane.ix))
        (if y.active = 0 then retrainPort s n y else s.setFab (s.fabric.setPort n y)))) ∧
  (∀ n s, ∃ t, exec (.linkFlitFail n) s = .next t ∧ (t.fabric.port n).asked = true ∧ (t.fabric.port n).flits = (s.fabric.port n).flits) ∧
  (∀ n (flit : Moment) s, let x := s.fabric.port n
    flit.ix < x.flits.length →
      ((flit.ix = 0 → x.fails < 7) → ∃ t, exec (.linkReplay n flit) s = .next t ∧ (t.fabric.port n).flits = x.flits.drop flit.ix ∧
        (t.fabric.port n).lreplay = bump12 x.lreplay ∧ (t.fabric.port n).fails = (if flit.ix = 0 then x.fails + 1 else 1)) ∧
      (flit.ix = 0 → 7 ≤ x.fails → x.st = .up → exec (.linkReplay n flit) s = .next (laneEvents n flit.time x.active
        (retrainPort s n { x with lreplay := bump12 x.lreplay, fails := 0, retrain := bump8 x.retrain })))) ∧
  (∀ n s, exec (.linkFlitAck n) s = .next (pumpOn (s.setFab (s.fabric.setPort n
    { s.fabric.port n with flits := (s.fabric.port n).flits.drop 1, fails := 0 }))))

/-- Errors and repairs (R397 to R404): a corrected error is logged, an uncorrectable one marks the unit it struck or stops a core, a
core is taken out of use, and a stopped control or firmware core runs again from its image, the firmware core without the role. Which
bank counts an error whose bank the spec does not name, and the logged UNIT and INDEX of a unit of L2 or RDC, are the model's choice (log
entries 39 and 51). -/
def Obligations.ErrorSteps : Prop :=
  (∀ res die unit index time s, exec (.correctedError res die unit index time) s = .next (rasEvent s res die unit index time)) ∧
  (∀ pa time s, exec (.uncorrectableError (.memory pa) time) s =
    .next { s with memMark := tset false s.memMark (pa / 16) true }) ∧
  (∀ c w off time s g, getWg s c w = some g → exec (.uncorrectableError (.scratch c w off) time) s =
    .next (bankError (putWg s { g with scratchMark := tset false g.scratchMark (off / 16) true }) g (off / 16 % 32) time)) ∧
  (∀ c w t lane reg time s g, getWg s c w = some g →
    exec (.uncorrectableError (.register c w t lane reg) time) s = .next (bankError (s.setThread (.troupe c w t) fun th =>
      { th with vMark := tset false th.vMark (markKeyV (lane % 32) (reg % 256)) true }) g (8 * (reg % 4) + lane % 32 / 4) time)) ∧
  (∀ c w t reg time s g, getWg s c w = some g →
    exec (.uncorrectableError (.uniform c w t reg) time) s = .next (someBankError (s.setThread (.troupe c w t) fun th =>
      { th with kMark := tset false th.kMark (markKeyK (reg % 128)) true }) g time)) ∧
  (∀ c w pa time s g, getWg s c w = some g →
    let h := { g with l1 := g.l1.map (CacheLine.strike pa) }
    exec (.uncorrectableError (.l1Line c w pa) time) s = .next (someBankError (putWg s h) h time)) ∧
  (∀ c w t lane time s g, getWg s c w = some g →
    exec (.uncorrectableError (.predicate c w t lane) time) s = .next (someBankError (s.setThread (.troupe c w t) fun th =>
      { th with pMark := (List.range 7).foldl (fun m n => tset 0 m n (tget 0 m n ||| laneBit (lane % 32 / 4 * 4) * 15)) th.pMark })
      g time)) ∧
  (∀ c w time s g, getWg s c w = some g → exec (.uncorrectableError (.statePage c w) time) s = .next (someBankError s g time)) ∧
  (∀ i w core a b time s d, (s.sends.find? fun d => d.id == i) = some d → (∃ t, d.sender = .word t core a b) →
    exec (.uncorrectableError (.delivery i w) time) s =
      .next (freeBankError { s with sends := s.sends.map fun d => if d.id = i then d.strike w else d } core time)) ∧
  (∀ core i time s, exec (.uncorrectableError (.command core i) time) s = .next (freeBankError (s.setCore core { s.core core with
    copyq := (s.core core).copyq.map fun x => if x.id = i then { x with data := true, code := if x.code = 0 then 5 else x.code } else x })
    core time)) ∧
  (∀ pa time s, exec (.uncorrectableError (.l2Unit pa) time) s =
    .next (logFault { s with memMark := tset false s.memMark (pa / 16) true } 4 1 (homeDie s pa) 0 0)) ∧
  (∀ d pa time s, exec (.uncorrectableError (.rdcLine d pa) time) s =
    .next (logFault (s.setDie d { s.die d with rdc := (s.die d).rdc.map (CacheLine.strike pa) }) 4 1 d 0 0)) ∧
  (∀ core col time s g, ((s.core core).owner.bind fun o => getWg s o.1 o.2) = some g → onArray g = true →
    exec (.uncorrectableError (.cell core col) time) s = .next (rasEvent (putWg s
      { g with matrix := { g.matrix with badCells := g.matrix.badCells ++ [col % 64] } }) .matrixCell (dieOfCore core) core col time)) ∧
  (∀ c w tile row col time s g, getWg s c w = some g → accKey (tile % 8) (row % 64) (col % 64) ∉ g.matrix.badAcc →
    exec (.uncorrectableError (.acc c w tile row col) time) s = .next (putWg s
      { g with matrix := { g.matrix with badAcc := g.matrix.badAcc ++ [accKey (tile % 8) (row % 64) (col % 64)] } })) ∧
  (∀ die time s, ∃ t, exec (.uncorrectableError (.firmware die) time) s = .next t ∧ t.inputs = s.inputs ++ [.firmwareCoreRestart die] ∧
    ∀ th, s.thread (.firmware die) = some th → t.thread (.firmware die) =
      some { th with status := .faulted .data, live := 0, rest := [], grp := { th.grp with mask := 0 }, pend := [] }) ∧
  (∀ cl time s, ∃ t, exec (.uncorrectableError (.control cl) time) s = .next t ∧
    t.inputs = s.inputs ++ [.coreEventWake (24 + cl / 6) .error, .controlCoreRestart cl] ∧
    ∀ th, s.thread (.control cl) = some th → t.thread (.control cl) =
      some { th with status := .faulted .data, live := 0, rest := [], grp := { th.grp with mask := 0 }, pend := [] }) ∧
  (∀ core s, core ≤ 191 → ∃ t, exec (.coredis core) s = .next t ∧ (t.core core).disabled = true ∧
    ∀ g ∈ wgsOn s core, g.ended = false → Instr.preemptCohort g.ctx g.cohort ∈ t.inputs) ∧
  (∀ cl s th, s.thread (.control cl) = some th → th.failed = true →
    let u := logFault (failAssist s cl) 5 1 (cl / 6) cl 0
    exec (.controlCoreRestart cl) s = .next { u.setThread (.control cl) (startCore u.free) with free := u.free + 1 } ∧
    ∀ x, u.thread (.control cl) = some x → ∃ y, (u.setThread (.control cl) (startCore u.free)).thread (.control cl) = some y ∧
      y.status = .running ∧ y.live = 1 ∧ y.grp.mask = 1 ∧ y.grp.pc = imageEntry u.free) ∧
  (∀ die s th, s.thread (.firmware die) = some th → th.failed = true →
    let v := logFault s 6 1 die die 0
    let u := v.setLease die { v.lease die with self := false }
    exec (.firmwareCoreRestart die) s = .next { u.setThread (.firmware die) (startCore u.free) with free := u.free + 1 } ∧
    (u.lease die).self = false ∧
    ∀ x, u.thread (.firmware die) = some x → ∃ y, (u.setThread (.firmware die) (startCore u.free)).thread (.firmware die) = some y ∧
      y.status = .running ∧ y.live = 1 ∧ y.grp.mask = 1 ∧ y.grp.pc = imageEntry u.free)

/-- The Ringmaster's lease (R406, R407): the holder renews and a follower that receives the renewal extends its lease, a follower whose
lease has lapsed proposes a term or grants a vote, three votes make a leader, the acknowledgements of two followers extend the holder's
lease, a lease that has run out ends, and a command is refused below the term that its register or the die on its way has seen. -/
def Obligations.LeaseSteps : Prop :=
  (∀ (r : Renewal) s, (s.lease r.die).acts s.clock = true → ∃ t, exec (.leaseRenewal r) s = .next t ∧
    (t.lease r.die).sent = s.clock ∧ (t.lease r.die).term = (s.lease r.die).term ∧ (t.lease r.die).acks = [] ∧
    (∀ d ∈ r.heard, d ≠ r.die → (s.lease d).term ≤ (s.lease r.die).term → (t.lease d).ends = s.clock + leaseCycles ∧
      (t.lease d).leader = r.die ∧ (t.lease d).term = (s.lease r.die).term ∧ (t.lease d).self = false) ∧
    ∀ d, d ∉ r.heard → d ≠ r.die → t.lease d = s.lease d) ∧
  (∀ die s, (s.lease die).lapsed s.clock = true → (s.lease die).term ≠ 0 ∨ die = 0 → (s.lease die).voted ≠ some ((s.lease die).term, die) →
    ∃ t, exec (.termProposal die) s = .next t ∧ (t.lease die).term = (s.lease die).term + 1 ∧
      (t.lease die).voted = some ((s.lease die).term + 1, die) ∧ (t.lease die).self = false) ∧
  (∀ die proposer (term : Word) s, (s.lease die).lapsed s.clock = true → (s.lease die).term < term.toNat → die ≠ proposer →
    ∃ t, exec (.voteRequest die proposer term) s = .next t ∧ (t.lease die).term = term.toNat ∧
      (t.lease die).voted = some (term.toNat, proposer)) ∧
  (∀ die source (term : Word) s, (s.lease die).term = term.toNat → (s.lease die).voted = some (term.toNat, die) →
    (s.lease source).voted = some (term.toNat, die) → (s.lease die).self = false → source ∉ (s.lease die).votes →
    (s.lease die).votes.length = 2 →
      ∃ t, exec (.voteReceipt die source term) s = .next t ∧ (t.lease die).self = true ∧ (t.lease die).leader = die ∧
        (t.lease die).ends = s.clock + leaseCycles) ∧
  (∀ die source (term : Word) s, (s.lease die).term = term.toNat → (s.lease die).acts s.clock = true → source ≠ die →
    source ∉ (s.lease die).acks →
      ∃ t, exec (.renewalAck die source term) s = .next t ∧ (t.lease die).acks = (s.lease die).acks ++ [source] ∧
        (t.lease die).ends = (if 1 ≤ (s.lease die).acks.length then max (s.lease die).ends ((s.lease die).sent + leaseCycles)
          else (s.lease die).ends) ∧
        ∀ d, d ≠ die → t.lease d = s.lease d) ∧
  (∀ die s, (s.lease die).ends ≤ s.clock → ∃ t, exec (.leaseExpiry die) s = .next t ∧ (t.lease die).self = false) ∧
  (∀ (c : CommandPath) (term : Word) (reg : BitVec 17) value s, leaderReg reg.toNat true = true → sysReach .firmware reg = true →
    let seen := max (tget 0 s.trust.regTerms reg.toNat) (s.lease c.via).term
    (term.toNat < seen → exec (.ringmasterCommand c term reg value) s = .next (s.setLease c.die { s.lease c.die with stale := true })) ∧
    (seen ≤ term.toNat →
      let u := sysWrite s (24 + c.die) reg.toNat value
      exec (.ringmasterCommand c term reg value) s =
        .next { u with trust := { u.trust with regTerms := tset 0 u.trust.regTerms reg.toNat term.toNat } }))

/-- Keys, boot and life cycle, power and heat, and the device state of a function (R405, R412, R415, R416, R420 to R422): a key pair is
drawn or erased, the package boots under a new key 0, a transition command is carried out or fails, the ceiling moves within its limits
in each microsecond, and the thermal limit is entered above 105 °C and left below 100 °C. -/
def Obligations.TrustAndPowerSteps : Prop :=
  (∀ asid key s, 0 < key → key ≤ 2047 →
    ∃ t, exec (.keyAllocate asid key) s = .next t ∧ tget 0 t.keys key = Config.random s.free ++ Config.random (s.free + 1) ∧
      ∀ k, k ≠ key → tget 0 t.keys k = tget 0 s.keys k) ∧
  (∀ key s, 0 < key → key ≤ 2047 → ∃ t, exec (.keyErase key) s = .next t ∧ tget 0 t.keys key = 0) ∧
  (∀ image s, exec (.resetBoot image) s = .next (bootWith (wipeKeyed s) (bootImage s image))) ∧
  (∀ s, tget 0 (wipeKeyed s).keys 0 = Config.random s.free ++ Config.random (s.free + 1) ∧ (wipeKeyed s).trust.lc = s.trust.lc) ∧
  (∀ cmd s, exec (.lccmd cmd) s = .next (lifeCommand s cmd).2 ∧
    ((lifeCommand s cmd).1 = true ↔ Config.rootVerifies cmd = true ∧
      lifeMoves.contains (s.trust.lc, Config.transitionTarget cmd) = true ∧
      (Config.transitionTarget cmd = 2 ∨ s.trust.lc = 2 → Config.transitionNames cmd s.pkg = true)) ∧
    ((lifeCommand s cmd).1 = false → (lifeCommand s cmd).2 = logFault s 6 1 0 0 0)) ∧
  (∀ us iest waiting s, exec (.powerCeilingUpdate us iest waiting) s =
    .next { s with power := { powerRun iest waiting us s.power with iest := min iest 4095 } }) ∧
  (∀ iest waiting p, powerRun iest waiting 0 p = p ∧
    ∀ n, powerRun iest waiting (n + 1) p = powerRun iest waiting n (powerTick iest waiting p)) ∧
  (∀ iest waiting (p : Power), let slew := bitsN p.cfg.toNat 8 0
    let q := powerTick iest waiting p
    (waiting = true → p.ceiling < powerMax p → q.ceiling = min (powerMax p) (p.ceiling + slew)) ∧
    (p.hot = false → waiting = false ∨ powerMax p ≤ p.ceiling → iest < p.ceiling →
      q.ceiling = if p.cfg.getLsbD 9 then max iest (p.ceiling - slew) else iest) ∧
    (waiting = false ∨ powerMax p ≤ p.ceiling → p.ceiling ≤ iest → p.hot = false ∨ p.ceiling ≤ 1500 → q.ceiling = p.ceiling) ∧
    (p.hot = true → 1500 < p.ceiling → q.ceiling ≤ max 1500 (p.ceiling - slew)) ∧
    q.shaped = if powerF p < 64 then min (p.shaped + 1) 4095 else p.shaped) ∧
  (∀ die celsius s, 105 < celsius → s.power.hot = false → exec (.thermalLimitEnter die celsius) s =
    .next (logFault { s with power := { s.power with hot := true } } 8 0 die 0 celsius)) ∧
  (∀ die celsius s, celsius < 100 → s.power.hot = true → exec (.thermalLimitLift die celsius) s =
    .next (logFault { s with power := { s.power with hot := false } } 8 1 die 0 celsius)) ∧
  (∀ fn (x : TdiState) s, fn < 16 → exec (.tdiStateChange fn x) s =
    .next (s.setMailbox fn { s.mailbox fn with run := x.run, ide := x.ide }))

/-- Timers, throttle, network and homes (R124, R219, R220, R230, R249, R267, R268, R430): TCMP is written and reached, an event
wakes a core, the epoch of a core's throttle ends, the counts of a window call for two-phase routing and the mode of a die changes, a
home performs a request, and a bank grants a row to the first request that waits for one of it, and performs that row. -/
def Obligations.CoreDeviceSteps : Prop :=
  (∀ core value s, exec (.tcmpWrite core value) s = .next (writeTcmp s core value)) ∧
  (∀ core s, (s.timer core).due s.clock = true → (s.timer core).timer = false →
    exec (.tcmpTimerEvent core) s = .next (wakeCore (s.setTimer core { s.timer core with timer := true }) core)) ∧
  (∀ core e s, e ≠ .timer ∨ (s.timer core).timer = true → exec (.coreEventWake core e) s = .next (wakeCore s core)) ∧
  (∀ core s, let x := (s.core core).throttle
    let score (n : Nat) : Nat := (lookupBy n x.scores).getD 0
    let here := residentSlots s core
    ∃ t, exec (.throttleEpochEnd core) s = .next t ∧ t.th = s.th ∧ t.mem = s.mem ∧
      (t.core core).throttle.sum = (here.map score).sum ∧
      (t.core core).throttle.m =
        (if bitsN x.cfg.toNat 31 31 = 1 ∧ bitsN x.cfg.toNat 15 0 < (here.map score).sum then max (x.m / 2) (bitsN x.cfg.toNat 21 16)
         else min (x.m + bitsN x.cfg.toNat 27 22) 64) ∧
      (t.core core).throttle.scores = here.map fun n => (n, score n / 2 ^ bitsN x.cfg.toNat 30 28)) ∧
  (∀ die counts s, bitsN (s.noc die).cfg.toNat 21 21 = 0 → (s.noc die).twoPhase = false →
    bitsN (s.noc die).cfg.toNat 20 20 = 1 ∨ counts.any (loadAbove (bitsN (s.noc die).cfg.toNat 7 0)) = true →
    ∃ t, exec (.nocWindowEnd die counts) s = .next t ∧ t.inputs = s.inputs ++ [.routingModeSwitch die] ∧
      (t.noc die).pending = some true ∧ (t.noc die).imb = windowImb counts) ∧
  (∀ die s m, (s.noc die).pending = some m →
    ∃ t, exec (.routingModeSwitch die) s = .next t ∧ (t.noc die).twoPhase = m ∧ (t.noc die).pending = none ∧
      (t.noc die).seed = (Config.random s.free).toNat ∧ (t.noc die).switches = min ((s.noc die).switches + 1) (2 ^ 23 - 1)) ∧
  (∀ (q : HomeReq) s, homedHere s q.addr = true → inDirectory q.addr = false →
    let key := tget 0 s.lineKey (q.addr / 128)
    (q.kind = .atomic → exec (.memoryRequestAtHome q) s = .next (homeWriteBy s q.addr key
      (toBytes q.width (atomNew q.op q.width (memNat s key q.addr q.width) (ofBytes q.data) q.cmp))
      (anyMark s.memMark q.addr q.width) q.pkg q.die (homeDie s q.addr))) ∧
    (q.kind = .store → exec (.memoryRequestAtHome q) s =
      .next (homeWriteBy s q.addr key q.data false q.pkg q.die (homeDie s q.addr))) ∧
    (q.kind = .load → exec (.memoryRequestAtHome q) s = .next (noteRequest s q.addr q.pkg q.die))) ∧
  (∀ core bank s p u r, (((s.ring (core / 8)).dueAt (core % 8)).find? fun p => (p.rowAt bank).isSome) = some p →
    p.rowAt bank = some u → p.load = .request r →
    let v := performRow s (core / 8) u p r
    exec (.bankGrant core bank) s = .next { v with inputs := v.inputs ++ [.carouselEject (core / 8) (core % 8)] })

/-- The host's mailbox and windows (R4, R407, R414, R422 to R425): a command runs where the function's BAR0 is served, none runs and its
LEN is right; a command with a wrong code or LEN finishes with BADCMD, and any but IMAGE with REFUSED while the boot ROM waits; BAR2
reads and writes piece by piece, and is refused outside RUN; a register write changes the register, one of the Ringmaster under its
lease. -/
def Obligations.HostPortSteps : Prop :=
  (let Runs (i : Nat → Instr) (code : Nat) (f : Nat → State → Mailbox → State) : Prop :=
    ∀ fn s, barOpen s fn = true → (s.mailbox fn).code = code → lenOk code (s.mailbox fn).len = true → mbServed s = true →
      let u := { s with inputs := s.inputs ++ [.coreEventWake 24 .mailbox] }
      ((s.trust.waiting = true → code = 7) → exec (i fn) s = .next (f fn u (s.mailbox fn))) ∧
      (s.trust.waiting = true → code ≠ 7 → exec (i fn) s = .next (finishMb u fn 3 []))
  Runs .mbQuote 1 (fun fn s m =>
    let c := m.arg 8 4
    if 127 < c then finishMb s fn 2 []
    else match getCx s c with
      | none => finishMb s fn 6 []
      | some x =>
        if (fn ≠ 16 ∧ x.queue / 4 ≠ fn) ∨ (s.trust.lc ≠ 1 ∧ s.trust.lc ≠ 2) then finishMb s fn 3 []
        else match s.trust.attKey with
          | none => finishMb s fn 4 []
          | some k =>
            if 2 ^ 16 ≤ s.trust.attNext then finishMb s fn 4 []
            else finishMb { s with trust := { s.trust with attNext := s.trust.attNext + 1 } } fn 0
              (quoteBytes s m x ++ fitBytes 2692 (Config.xmssSign k s.trust.attNext (quoteBytes s m x)))) ∧
  Runs .mbGetcert 2 (fun fn s _ =>
    if s.trust.lc ≠ 1 ∧ s.trust.lc ≠ 2 then finishMb s fn 3 []
    else match s.trust.attKey, s.trust.idKey with
      | some ak, some ik =>
        let b := fitBytes 68 (Config.xmssPublic ak) ++ fitBytes 68 (Config.xmssPublic ik) ++ toBytes 32 s.trust.digest.toNat
          ++ toBytes 4 s.trust.lc ++ toBytes 8 s.trust.boots
        finishMb s fn 0 (b ++ fitBytes 2820 (Config.xmssSign ik (s.trust.idNext - 1) b))
      | _, _ => finishMb s fn 4 []) ∧
  Runs .mbPwrwr 3 (fun fn s m => if fn ≠ 16 then finishMb s fn 3 [] else finishMb (writePwrcfg s (m.arg 8 4)) fn 0 []) ∧
  Runs .mbPwrrd 4 (fun fn s _ => finishMb s fn 0 (toBytes 4 s.power.cfg.toNat ++ toBytes 4 (pwrstat s))) ∧
  Runs .mbLogrd 5 (fun fn s m =>
    let n := m.arg 8 4
    if fn ≠ 16 then finishMb s fn 3 []
    else if n = 0 ∨ 251 < n then finishMb s fn 2 []
    else
      let k := min n (s.ras.tail - s.ras.head).toNat
      finishMb { s with ras := { s.ras with head := s.ras.head + BitVec.ofNat 32 k } } fn 0 (toBytes 4 k ++
        (List.range k).flatMap fun i => memBytes s 0 (s.ras.base.toNat + 16 * ((s.ras.head.toNat + i) % 4096)) 16)) ∧
  Runs .mbLccmd 6 (fun fn s m =>
    if fn ≠ 16 then finishMb s fn 3 []
    else
      let r := lifeCommand s ((List.range (m.len - 8)).map fun i => tget 0 m.buf (8 + i))
      finishMb r.2 fn (if r.1 then 0 else 5) []) ∧
  (∀ seen, Runs (fun fn => .mbImage fn seen) 7 (fun fn s m =>
    if fn ≠ 16 then finishMb s fn 3 []
    else if 2 ^ 51 < m.arg 8 8 + m.arg 16 8 then finishMb s fn 2 []
    else
      let image := hostImage s seen (m.arg 8 8) (m.arg 16 8)
      if Config.rootVerifies image = false then finishMb s fn 5 []
      else if imageRuns s image = false then finishMb s fn 3 []
      else
        let t := { s with trust := { s.trust with flash := if m.arg 24 1 % 2 == 1 then image else s.trust.flash } }
        if s.trust.waiting then finishMb (bootWith t image) fn 0 []
        else finishMb { t with trust := { t.trust with staged := image } } fn 0 [])) ∧
  Runs .mbHostasid 8 (fun fn s m =>
    let f := m.arg 8 4
    let a := m.arg 12 4
    if fn ≠ 16 then finishMb s fn 3 []
    else if 16 < f ∨ 65535 < a then finishMb s fn 2 []
    else finishMb (s.setMailbox f { s.mailbox f with asid := a }) fn 0 [])) ∧
  (∀ fn s, barOpen s fn = true → lenOk (s.mailbox fn).code (s.mailbox fn).len = false → mbServed s = true →
    (s.trust.waiting = false ∨ (s.mailbox fn).code = 7 → exec (.mbBadcmd fn) s = .next (finishMb s fn 1 [])) ∧
    (s.trust.waiting = true → (s.mailbox fn).code ≠ 7 → exec (.mbBadcmd fn) s = .next (finishMb s fn 3 []))) ∧
  (∀ fn s, barOpen s fn = true → lenOk (s.mailbox fn).code (s.mailbox fn).len = false → mbServed s = false →
    exec (.mbBadcmd fn) s = .next (s.setMailbox fn { s.mailbox fn with busy := true, done := false })) ∧
  (∀ fn kind (addr : DWord) data width s,
    (barOpen s fn = true → accessWrites kind = true → hostInDirectory s fn .store (linePieces addr.toNat data.length) = false →
      exec (.hostBar2Access fn kind addr data width) s =
        .next ((linePieces addr.toNat data.length).foldl
          (hostPiece fn .store fun va n => some ((data.drop (va - addr.toNat)).take n)) s)) ∧
    (barOpen s fn = true → accessWrites kind = false → hostInDirectory s fn .load (linePieces addr.toNat width) = false →
      exec (.hostBar2Access fn kind addr data width) s =
        .next ((linePieces addr.toNat width).foldl (hostPiece fn .load fun _ _ => none) s)) ∧
    (barOpen s fn = false → exec (.hostBar2Access fn kind addr data width) s = .next
      (if barAborts s fn then hostAnswer s .abort else if accessWrites kind then s
       else hostAnswer s (.data (List.replicate width 0xff))))) ∧
  (∀ (n : BitVec 17) unit value s, n.toNat < 0x1f000 → sysReach (if unit < 24 then .control else .firmware) n = true → unit < 28 →
    (leaderReg n.toNat true = false → exec (.registerWrite n unit value) s = .next (sysWrite s unit n.toNat value)) ∧
    (leaderReg n.toNat true = true → (s.lease (unit - 24)).acts s.clock = true →
      exec (.registerWrite n unit value) s =
        .next (leaderWrite s (unit - 24) (unit - 24) (s.lease (unit - 24)).term n.toNat value))) ∧
  (∀ fn q (i : Fin 8) (value : DWord) s, q < 64 → fn ≤ 16 → queueShown s ⟨some fn, q⟩ = true →
    exec (.registerWrite (BitVec.ofNat 17 (0x12000 + 8 * q + i.val)) (28 + fn) value) s = .next (writeQueueReg s q i.val value.toNat)) ∧
  (∀ (n : BitVec 17) unit (value : DWord) s, 0x1f000 ≤ n.toNat →
    exec (.registerWrite n unit value) s = .next (mailboxWrite s unit (4 * (n.toNat - 0x1f000)) (value.toNat % 2 ^ 32)))
end

