-- ==== Sys2Proof/Laws/Decode.lean ====
section
/-!
SUPPORT. Words and their fields: what the fields of a word that `encode` gives are, and when such a word decodes to its instruction.
-/

namespace Sys2Proof

/-- A field above the last part of an append lies in the parts before it. -/
theorem extract_hi {m n : Nat} (x : BitVec m) (y : BitVec n) (s l : Nat) (h : n ≤ s) :
    @BitVec.extractLsb' (no_index (m + n)) s l (@HAppend.hAppend (BitVec m) (BitVec n) (no_index (BitVec (m + n))) _ x y) = x.extractLsb' (s - n) l := by
  ext i hi
  simp only [BitVec.getElem_extractLsb', BitVec.getLsbD_append]
  rw [if_neg (by omega)]; congr 1; omega

/-- A field within the last part of an append. -/
theorem extract_lo {m n : Nat} (x : BitVec m) (y : BitVec n) (s l : Nat) (h : s + l ≤ n) :
    @BitVec.extractLsb' (no_index (m + n)) s l (@HAppend.hAppend (BitVec m) (BitVec n) (no_index (BitVec (m + n))) _ x y) = y.extractLsb' s l := by
  ext i hi
  simp only [BitVec.getElem_extractLsb', BitVec.getLsbD_append]
  rw [if_pos (by omega)]

/-- A field across the last part of an append and those before it. -/
theorem extract_mid {m n : Nat} (x : BitVec m) (y : BitVec n) (s l : Nat) (h : s < n) (h2 : n < s + l) :
    @BitVec.extractLsb' (no_index (m + n)) s l (@HAppend.hAppend (BitVec m) (BitVec n) (no_index (BitVec (m + n))) _ x y) = (x.extractLsb' 0 (s + l - n) ++ y.extractLsb' s (n - s) : BitVec (s + l - n + (n - s))).cast (by omega) := by
  ext i hi
  simp only [BitVec.getElem_extractLsb', BitVec.getLsbD_append, BitVec.getElem_cast, BitVec.getElem_append]
  split
  · rw [dif_pos (by omega)]
  · rw [dif_neg (by omega)]; simp; congr 1; omega

/-- A bit above the last part of an append. -/
theorem bit_hi {m n : Nat} (x : BitVec m) (y : BitVec n) (s : Nat) (h : n ≤ s) :
    @BitVec.getLsbD (no_index (m + n)) (@HAppend.hAppend (BitVec m) (BitVec n) (no_index (BitVec (m + n))) _ x y) s = x.getLsbD (s - n) := by
  rw [BitVec.getLsbD_append, if_neg (by omega)]

/-- A bit within the last part of an append. -/
theorem bit_lo {m n : Nat} (x : BitVec m) (y : BitVec n) (s : Nat) (h : s < n) :
    @BitVec.getLsbD (no_index (m + n)) (@HAppend.hAppend (BitVec m) (BitVec n) (no_index (BitVec (m + n))) _ x y) s = y.getLsbD s := by
  rw [BitVec.getLsbD_append, if_pos h]

/-- The field that is everything. -/
theorem extract_all {m : Nat} (x : BitVec m) : x.extractLsb' 0 m = x := by ext i hi; simp

/-- The bit of a flag. -/
theorem bit_bool (b : Bool) : (BitVec.ofBool b).getLsbD 0 = b := by cases b <;> rfl

/-- No bit of a full-form word is dropped (R48). -/
theorem unpack_pack (r : Raw) : Raw.unpack (Raw.pack r) = r := by
  obtain ⟨op, la, g, neg, d, a, b, f⟩ := r
  unfold Raw.unpack Raw.pack
  simp (disch := omega) only [extract_hi, extract_lo, bit_hi, bit_lo, extract_all, bit_bool, Nat.sub_self]

/-- An operand field says its operand (R49). -/
theorem dec_enc (o : Operand) : Operand.dec o.enc = o := by
  cases o <;> unfold Operand.enc Operand.dec <;>
    simp (disch := omega) only [bit_hi, bit_lo, extract_lo, extract_all, Nat.reduceSub] <;> rfl

/-- A width code says its width (R54). -/
theorem wdec_enc (x : Width) : Width.dec x.enc = x := by cases x <;> rfl

/-- A width code is no reserved one. -/
theorem wvalid (x : Width) : Width.valid x.enc = true := by cases x <;> rfl

/-- An order code says its order. -/
theorem odec_enc (x : Order) : Order.dec x.enc = x := by cases x <;> rfl

/-- An order code is no reserved one. -/
theorem ovalid (x : Order) : Order.valid x.enc = true := by cases x <;> rfl

/-- A scope code says its scope. -/
theorem sdec_enc (x : Scope) : Scope.dec x.enc = x := by cases x <;> rfl

/-- A scope code is no reserved one. -/
theorem svalid (x : Scope) : Scope.valid x.enc = true := by cases x <;> rfl

/-- A hint code says its hint. -/
theorem hdec_enc (x : Hint) : Hint.dec x.enc = x := by cases x <;> rfl

/-- The group of an opcode (R62). -/
theorem op_hi (n : Nat) (h : n < 1024) : ((BitVec.ofNat 10 n).extractLsb' 6 4).toNat = n / 64 := by
  simp [BitVec.extractLsb'_toNat]; omega

/-- The position of an opcode in its group (R62). -/
theorem op_lo (n : Nat) (_h : n < 1024) : ((BitVec.ofNat 10 n).extractLsb' 0 6).toNat = n % 64 := by
  simp [BitVec.extractLsb'_toNat]

/-- The instruction at a group and position. -/
def parseAt (r : Raw) (g p : Nat) : Option Parsed :=
  match g with
  | 0 => parseG0 r p
  | 1 => parseG1 r p
  | 2 => parseG2 r p
  | 3 => parseG3 r p
  | 4 => parseG4 r p
  | 5 => parseG5 r p
  | 6 => parseG6 r p
  | 7 => parseG7 r p
  | 8 => parseG8 r p
  | 9 => parseG9 r p
  | 10 => parseG10 r p
  | 11 => parseG11 r p
  | 12 => parseG12 r p
  | 13 => parseG13 r p
  | 14 => parseG14 r p
  | 15 => parseG15 r p
  | _ => none

/-- Parsing looks at the group and the position. -/
theorem parse_at (r : Raw) (g p : Nat) (hg : (r.op.extractLsb' 6 4).toNat = g) (hp : (r.op.extractLsb' 0 6).toNat = p) :
    r.parse = parseAt r g p := by
  subst hg hp; rfl

/-- The instructions of a group. -/
@[simp] theorem parseAt_0 (r : Raw) (p : Nat) : parseAt r 0 p = parseG0 r p := rfl

/-- The instructions of a group. -/
@[simp] theorem parseAt_1 (r : Raw) (p : Nat) : parseAt r 1 p = parseG1 r p := rfl

/-- The instructions of a group. -/
@[simp] theorem parseAt_2 (r : Raw) (p : Nat) : parseAt r 2 p = parseG2 r p := rfl

/-- The instructions of a group. -/
@[simp] theorem parseAt_3 (r : Raw) (p : Nat) : parseAt r 3 p = parseG3 r p := rfl

/-- The instructions of a group. -/
@[simp] theorem parseAt_4 (r : Raw) (p : Nat) : parseAt r 4 p = parseG4 r p := rfl

/-- The instructions of a group. -/
@[simp] theorem parseAt_5 (r : Raw) (p : Nat) : parseAt r 5 p = parseG5 r p := rfl

/-- The instructions of a group. -/
@[simp] theorem parseAt_6 (r : Raw) (p : Nat) : parseAt r 6 p = parseG6 r p := rfl

/-- The instructions of a group. -/
@[simp] theorem parseAt_7 (r : Raw) (p : Nat) : parseAt r 7 p = parseG7 r p := rfl

/-- The instructions of a group. -/
@[simp] theorem parseAt_8 (r : Raw) (p : Nat) : parseAt r 8 p = parseG8 r p := rfl

/-- The instructions of a group. -/
@[simp] theorem parseAt_9 (r : Raw) (p : Nat) : parseAt r 9 p = parseG9 r p := rfl

/-- The instructions of a group. -/
@[simp] theorem parseAt_10 (r : Raw) (p : Nat) : parseAt r 10 p = parseG10 r p := rfl

/-- The instructions of a group. -/
@[simp] theorem parseAt_11 (r : Raw) (p : Nat) : parseAt r 11 p = parseG11 r p := rfl

/-- The instructions of a group. -/
@[simp] theorem parseAt_12 (r : Raw) (p : Nat) : parseAt r 12 p = parseG12 r p := rfl

/-- The instructions of a group. -/
@[simp] theorem parseAt_13 (r : Raw) (p : Nat) : parseAt r 13 p = parseG13 r p := rfl

/-- The instructions of a group. -/
@[simp] theorem parseAt_14 (r : Raw) (p : Nat) : parseAt r 14 p = parseG14 r p := rfl

/-- The instructions of a group. -/
@[simp] theorem parseAt_15 (r : Raw) (p : Nat) : parseAt r 15 p = parseG15 r p := rfl

/-- What well-formedness says of a full-form instruction. -/
theorem wf_word (i : Instr) (e : Engine) (n : Nat) (hd : Hdr) (hh : i.hdr? = some hd) (hnp : ∀ x y, i ≠ .pairedWord x y) (hw : i.wf e n = true) :
   (i.hintsOk && i.fieldsOk && i.codesOk e && i.operandsOk e n && (!(hd.guard == 7 && hd.neg) && (hd.la == 0 || i.longLatency))) = true := by
  have : i.wf e n = (i.hintsOk && i.fieldsOk && i.codesOk e && i.operandsOk e n
      && (match i.hdr? with
          | some hd => !(hd.guard == 7 && hd.neg) && (hd.la == 0 || i.longLatency)
          | none => true)) := by
    exact Instr.wf.eq_2 e n i hnp
  rw [this, hh] at hw; exact hw

/-- A full-form word decodes to the well-formed instruction that its fields name, where the engine runs it. -/
theorem decode_encFull (e : Engine) (n op g p : Nat) (hgg : op / 64 = g) (hpp : op % 64 = p) (hd : Hdr) (d a b : BitVec 9) (f : BitVec 18) (i : Instr) (hop : op < 1024)
    (hp : parseAt ⟨BitVec.ofNat 10 op, hd.la, hd.guard, hd.neg, d, a, b, f⟩ g p = some ⟨false, false, i⟩)
    (hh : i.hdr? = some hd) (hnp : ∀ x y, i ≠ .pairedWord x y) (hw : i.wf e n = true)
    (hr : engineRuns e g p = true) (hg : p < groupSize g) :
    decode e n (encFull op hd d a b f) = .ok i := by
  have hh1 := (op_hi op hop).trans hgg
  have hh2 := (op_lo op hop).trans hpp
  have h63 : (encFull op hd d a b f).getLsbD 63 = false := by
    unfold encFull Raw.pack
    simp (disch := omega) only [bit_hi]; rfl
  have hw' := wf_word i e n hd hh hnp hw
  simp only [Bool.and_eq_true, Bool.not_eq_true', Bool.or_eq_true] at hw'
  obtain ⟨⟨⟨⟨h1, h2⟩, h3⟩, h4⟩, h5, h6⟩ := hw'
  have hp' : Raw.parse ⟨BitVec.ofNat 10 op, hd.la, hd.guard, hd.neg, d, a, b, f⟩ = some ⟨false, false, i⟩ :=
    (parse_at ⟨BitVec.ofNat 10 op, hd.la, hd.guard, hd.neg, d, a, b, f⟩ g p hh1 hh2).trans hp
  unfold decode
  rw [h63]
  have hf : decodeFull e n (encFull op hd d a b f) = .ok i := by
    unfold decodeFull encFull
    simp only [unpack_pack, hh1, hh2, hp']
    have : engineRunsGroup e g = true := by
      unfold engineRunsGroup
      simp only [List.any_eq_true, List.mem_range]
      exact ⟨_, hg, hr⟩
    rw [this, hr]
    simp only [Bool.not_true, Bool.and_false, Bool.or_self, Bool.false_eq_true, if_false, h1, h2, h3, h4, h5]
    rcases h6 with h | h
    · simp only [bne, h]; simp
    · simp [h]
  rw [if_neg (by decide), hf]

end Sys2Proof
end

