-- ==== Sys2Proof/Laws/Exec.lean ====
section
/-!
SUPPORT. The dispatch, one equation per constructor, so that no proof unfolds the whole of it.
-/

namespace Sys2Proof.Machine

@[simp] theorem exec_iadd (x : A2) (sat : Bool) (s : State) : exec (.iadd x sat) s = execIadd x sat s := rfl
@[simp] theorem exec_isub (x : A2) (sat : Bool) (s : State) : exec (.isub x sat) s = execIsub x sat s := rfl
@[simp] theorem exec_imul (x : A2) (s : State) : exec (.imul x) s = execImul x s := rfl
@[simp] theorem exec_imulhi (x : A2) (u : Bool) (s : State) : exec (.imulhi x u) s = execImulhi x u s := rfl
@[simp] theorem exec_imad (x : A3) (sat : Bool) (s : State) : exec (.imad x sat) s = execImad x sat s := rfl
@[simp] theorem exec_imadw (x : A3) (s : State) : exec (.imadw x) s = execImadw x s := rfl
@[simp] theorem exec_iaddc (x : A2) (cin cout : BitVec 3) (s : State) : exec (.iaddc x cin cout) s = execIaddc x cin cout s := rfl
@[simp] theorem exec_isubb (x : A2) (cin cout : BitVec 3) (s : State) : exec (.isubb x cin cout) s = execIsubb x cin cout s := rfl
@[simp] theorem exec_imin (x : A2) (u : Bool) (s : State) : exec (.imin x u) s = execImin x u s := rfl
@[simp] theorem exec_imax (x : A2) (u : Bool) (s : State) : exec (.imax x u) s = execImax x u s := rfl
@[simp] theorem exec_iabs (x : A1) (sat : Bool) (s : State) : exec (.iabs x sat) s = execIabs x sat s := rfl
@[simp] theorem exec_ineg (x : A1) (sat : Bool) (s : State) : exec (.ineg x sat) s = execIneg x sat s := rfl
@[simp] theorem exec_isad (x : A3) (s : State) : exec (.isad x) s = execIsad x s := rfl
@[simp] theorem exec_idot4 (x : A3) (sat : Bool) (s : State) : exec (.idot4 x sat) s = execIdot4 x sat s := rfl
@[simp] theorem exec_lea (x : A2) (sh : BitVec 5) (u : Bool) (s : State) : exec (.lea x sh u) s = execLea x sh u s := rfl
@[simp] theorem exec_iadd64 (x : A2) (sat : Bool) (s : State) : exec (.iadd64 x sat) s = execIadd64 x sat s := rfl
@[simp] theorem exec_isub64 (x : A2) (sat : Bool) (s : State) : exec (.isub64 x sat) s = execIsub64 x sat s := rfl
@[simp] theorem exec_icmp (x : ACmp) (s : State) : exec (.icmp x) s = execIcmp x s := rfl
@[simp] theorem exec_isel (x : A2) (ps : BitVec 3) (ns : Bool) (s : State) : exec (.isel x ps ns) s = execIsel x ps ns s := rfl
@[simp] theorem exec_and (x : A2) (s : State) : exec (.and x) s = execAnd x s := rfl
@[simp] theorem exec_or (x : A2) (s : State) : exec (.or x) s = execOr x s := rfl
@[simp] theorem exec_xor (x : A2) (s : State) : exec (.xor x) s = execXor x s := rfl
@[simp] theorem exec_andn (x : A2) (s : State) : exec (.andn x) s = execAndn x s := rfl
@[simp] theorem exec_not (x : A1) (s : State) : exec (.not x) s = execNot x s := rfl
@[simp] theorem exec_bool3 (hd : Hdr) (d a b c : Operand) (tt : BitVec 8) (s : State) : exec (.bool3 hd d a b c tt) s = execBool3 hd d a b c tt s := rfl
@[simp] theorem exec_shl (x : A2) (s : State) : exec (.shl x) s = execShl x s := rfl
@[simp] theorem exec_shr (x : A2) (s : State) : exec (.shr x) s = execShr x s := rfl
@[simp] theorem exec_sar (x : A2) (s : State) : exec (.sar x) s = execSar x s := rfl
@[simp] theorem exec_rotl (x : A2) (s : State) : exec (.rotl x) s = execRotl x s := rfl
@[simp] theorem exec_funnel (x : A3) (s : State) : exec (.funnel x) s = execFunnel x s := rfl
@[simp] theorem exec_bfx (x : A2) (sx : Bool) (s : State) : exec (.bfx x sx) s = execBfx x sx s := rfl
@[simp] theorem exec_bfi (x : A3) (s : State) : exec (.bfi x) s = execBfi x s := rfl
@[simp] theorem exec_popc (x : A1) (s : State) : exec (.popc x) s = execPopc x s := rfl
@[simp] theorem exec_clz (x : A1) (s : State) : exec (.clz x) s = execClz x s := rfl
@[simp] theorem exec_ctz (x : A1) (s : State) : exec (.ctz x) s = execCtz x s := rfl
@[simp] theorem exec_brev (x : A1) (s : State) : exec (.brev x) s = execBrev x s := rfl
@[simp] theorem exec_byteperm (x : A3) (s : State) : exec (.byteperm x) s = execByteperm x s := rfl
@[simp] theorem exec_pset (hd : Hdr) (pd pa : BitVec 3) (na : Bool) (pb : BitVec 3) (nb : Bool) (op : BitVec 2) (s : State) : exec (.pset hd pd pa na pb nb op) s = execPset hd pd pa na pb nb op s := rfl
@[simp] theorem exec_pmovGet (hd : Hdr) (d : Operand) (s : State) : exec (.pmovGet hd d) s = execPmovGet hd d s := rfl
@[simp] theorem exec_pmovSet (hd : Hdr) (a : Operand) (ha : Bool) (s : State) : exec (.pmovSet hd a ha) s = execPmovSet hd a ha s := rfl
@[simp] theorem exec_movi (hd : Hdr) (d : Operand) (imm : BitVec 27) (s : State) : exec (.movi hd d imm) s = execMovi hd d imm s := rfl
@[simp] theorem exec_movhi (hd : Hdr) (d : Operand) (imm : BitVec 27) (s : State) : exec (.movhi hd d imm) s = execMovhi hd d imm s := rfl
@[simp] theorem exec_iaddi (x : Imm) (s : State) : exec (.iaddi x) s = execIaddi x s := rfl
@[simp] theorem exec_imuli (x : Imm) (s : State) : exec (.imuli x) s = execImuli x s := rfl
@[simp] theorem exec_andi (x : Imm) (s : State) : exec (.andi x) s = execAndi x s := rfl
@[simp] theorem exec_ori (x : Imm) (s : State) : exec (.ori x) s = execOri x s := rfl
@[simp] theorem exec_xori (x : Imm) (s : State) : exec (.xori x) s = execXori x s := rfl
@[simp] theorem exec_shli (x : Imm) (s : State) : exec (.shli x) s = execShli x s := rfl
@[simp] theorem exec_shri (x : Imm) (s : State) : exec (.shri x) s = execShri x s := rfl
@[simp] theorem exec_sari (x : Imm) (s : State) : exec (.sari x) s = execSari x s := rfl
@[simp] theorem exec_icmpi (hd : Hdr) (a : Operand) (cc : BitVec 4) (pd : BitVec 3) (imm : BitVec 20) (s : State) : exec (.icmpi hd a cc pd imm) s = execIcmpi hd a cc pd imm s := rfl
@[simp] theorem exec_leai (x : Imm) (s : State) : exec (.leai x) s = execLeai x s := rfl
@[simp] theorem exec_fadd (x : A2) (rnd : BitVec 3) (sat : Bool) (sm : BitVec 2) (s : State) : exec (.fadd x rnd sat sm) s = execFadd x rnd sat sm s := rfl
@[simp] theorem exec_fsub (x : A2) (rnd : BitVec 3) (sat : Bool) (sm : BitVec 2) (s : State) : exec (.fsub x rnd sat sm) s = execFsub x rnd sat sm s := rfl
@[simp] theorem exec_fmul (x : A2) (rnd : BitVec 3) (sat : Bool) (sm : BitVec 2) (s : State) : exec (.fmul x rnd sat sm) s = execFmul x rnd sat sm s := rfl
@[simp] theorem exec_ffma (x : A3) (rnd : BitVec 3) (sat : Bool) (sm : BitVec 2) (s : State) : exec (.ffma x rnd sat sm) s = execFfma x rnd sat sm s := rfl
@[simp] theorem exec_fmin (x : A2) (sm : BitVec 2) (s : State) : exec (.fmin x sm) s = execFmin x sm s := rfl
@[simp] theorem exec_fmax (x : A2) (sm : BitVec 2) (s : State) : exec (.fmax x sm) s = execFmax x sm s := rfl
@[simp] theorem exec_fcmp (x : ACmp) (sm : BitVec 2) (s : State) : exec (.fcmp x sm) s = execFcmp x sm s := rfl
@[simp] theorem exec_fclass (x : A1) (sm : BitVec 2) (s : State) : exec (.fclass x sm) s = execFclass x sm s := rfl
@[simp] theorem exec_frcp (x : A1) (rnd : BitVec 3) (sat : Bool) (sm : BitVec 2) (s : State) : exec (.frcp x rnd sat sm) s = execFrcp x rnd sat sm s := rfl
@[simp] theorem exec_frsq (x : A1) (sm : BitVec 2) (s : State) : exec (.frsq x sm) s = execFrsq x sm s := rfl
@[simp] theorem exec_fsqrt (x : A1) (rnd : BitVec 3) (sm : BitVec 2) (s : State) : exec (.fsqrt x rnd sm) s = execFsqrt x rnd sm s := rfl
@[simp] theorem exec_fex2 (x : A1) (sat : Bool) (sm : BitVec 2) (s : State) : exec (.fex2 x sat sm) s = execFex2 x sat sm s := rfl
@[simp] theorem exec_flg2 (x : A1) (sm : BitVec 2) (s : State) : exec (.flg2 x sm) s = execFlg2 x sm s := rfl
@[simp] theorem exec_fsin (x : A1) (sm : BitVec 2) (s : State) : exec (.fsin x sm) s = execFsin x sm s := rfl
@[simp] theorem exec_fcos (x : A1) (sm : BitVec 2) (s : State) : exec (.fcos x sm) s = execFcos x sm s := rfl
@[simp] theorem exec_dadd (x : A2) (rnd : BitVec 3) (sat : Bool) (sm : BitVec 2) (s : State) : exec (.dadd x rnd sat sm) s = execDadd x rnd sat sm s := rfl
@[simp] theorem exec_dsub (x : A2) (rnd : BitVec 3) (sat : Bool) (sm : BitVec 2) (s : State) : exec (.dsub x rnd sat sm) s = execDsub x rnd sat sm s := rfl
@[simp] theorem exec_dmul (x : A2) (rnd : BitVec 3) (sat : Bool) (sm : BitVec 2) (s : State) : exec (.dmul x rnd sat sm) s = execDmul x rnd sat sm s := rfl
@[simp] theorem exec_dfma (x : A3) (rnd : BitVec 3) (sat : Bool) (sm : BitVec 2) (s : State) : exec (.dfma x rnd sat sm) s = execDfma x rnd sat sm s := rfl
@[simp] theorem exec_dmin (x : A2) (sm : BitVec 2) (s : State) : exec (.dmin x sm) s = execDmin x sm s := rfl
@[simp] theorem exec_dmax (x : A2) (sm : BitVec 2) (s : State) : exec (.dmax x sm) s = execDmax x sm s := rfl
@[simp] theorem exec_dcmp (x : ACmp) (sm : BitVec 2) (s : State) : exec (.dcmp x sm) s = execDcmp x sm s := rfl
@[simp] theorem exec_drcp (x : A1) (rnd : BitVec 3) (sat : Bool) (sm : BitVec 2) (s : State) : exec (.drcp x rnd sat sm) s = execDrcp x rnd sat sm s := rfl
@[simp] theorem exec_add2h (x : A2) (rnd : BitVec 3) (sat : Bool) (sm : BitVec 2) (s : State) : exec (.add2h x rnd sat sm) s = execAdd2h x rnd sat sm s := rfl
@[simp] theorem exec_mul2h (x : A2) (rnd : BitVec 3) (sat : Bool) (sm : BitVec 2) (s : State) : exec (.mul2h x rnd sat sm) s = execMul2h x rnd sat sm s := rfl
@[simp] theorem exec_fma2h (x : A3) (rnd : BitVec 3) (sat : Bool) (sm : BitVec 2) (s : State) : exec (.fma2h x rnd sat sm) s = execFma2h x rnd sat sm s := rfl
@[simp] theorem exec_max2h (x : A2) (sm : BitVec 2) (s : State) : exec (.max2h x sm) s = execMax2h x sm s := rfl
@[simp] theorem exec_add2b (x : A2) (rnd : BitVec 3) (sat : Bool) (sm : BitVec 2) (s : State) : exec (.add2b x rnd sat sm) s = execAdd2b x rnd sat sm s := rfl
@[simp] theorem exec_mul2b (x : A2) (rnd : BitVec 3) (sat : Bool) (sm : BitVec 2) (s : State) : exec (.mul2b x rnd sat sm) s = execMul2b x rnd sat sm s := rfl
@[simp] theorem exec_fma2b (x : A3) (rnd : BitVec 3) (sat : Bool) (sm : BitVec 2) (s : State) : exec (.fma2b x rnd sat sm) s = execFma2b x rnd sat sm s := rfl
@[simp] theorem exec_max2b (x : A2) (sm : BitVec 2) (s : State) : exec (.max2b x sm) s = execMax2b x sm s := rfl
@[simp] theorem exec_cvt (x : A1) (dst src : BitVec 4) (rnd : BitVec 3) (sat : Bool) (sm : BitVec 2) (s : State) : exec (.cvt x dst src rnd sat sm) s = execCvt x dst src rnd sat sm s := rfl
@[simp] theorem exec_cvtbx (hd : Hdr) (d a c : Operand) (rnd : BitVec 3) (bx4 : Bool) (sm : BitVec 2) (s : State) : exec (.cvtbx hd d a c rnd bx4 sm) s = execCvtbx hd d a c rnd bx4 sm s := rfl
@[simp] theorem exec_unpkbx (hd : Hdr) (d a c : Operand) (bx4 : Bool) (s : State) : exec (.unpkbx hd d a c bx4) s = execUnpkbx hd d a c bx4 s := rfl
@[simp] theorem exec_frnd (x : A1) (fmt : BitVec 4) (rnd : BitVec 3) (sm : BitVec 2) (s : State) : exec (.frnd x fmt rnd sm) s = execFrnd x fmt rnd sm s := rfl
@[simp] theorem exec_mov (x : A1) (b64 : Bool) (s : State) : exec (.mov x b64) s = execMov x b64 s := rfl
@[simp] theorem exec_movk (hd : Hdr) (d a b : Operand) (s : State) : exec (.movk hd d a b) s = execMovk hd d a b s := rfl
@[simp] theorem exec_lscan (x : A1) (op : BitVec 4) (excl : Bool) (s : State) : exec (.lscan x op excl) s = execLscan x op excl s := rfl
@[simp] theorem exec_lred (x : A1) (op : BitVec 4) (s : State) : exec (.lred x op) s = execLred x op s := rfl
@[simp] theorem exec_lvote (hd : Hdr) (d : Operand) (mode : BitVec 2) (ns : Bool) (ps pd : BitVec 3) (s : State) : exec (.lvote hd d mode ns ps pd) s = execLvote hd d mode ns ps pd s := rfl
@[simp] theorem exec_lbcast (hd : Hdr) (d a b : Operand) (ha b64 : Bool) (s : State) : exec (.lbcast hd d a b ha b64) s = execLbcast hd d a b ha b64 s := rfl
@[simp] theorem exec_lfind (hd : Hdr) (d : Operand) (hi ns : Bool) (ps pd : BitVec 3) (s : State) : exec (.lfind hd d hi ns ps pd) s = execLfind hd d hi ns ps pd s := rfl
@[simp] theorem exec_pairedWord (s0 s1 : Slot) (s : State) : exec (.pairedWord s0 s1) s = execPairedWord s0 s1 s := rfl
@[simp] theorem exec_reservedEncodingTrap (w : BadWord) (s : State) : exec (.reservedEncodingTrap w) s = execReservedEncodingTrap w s := rfl
@[simp] theorem exec_bra (hd : Hdr) (imm : BitVec 27) (s : State) : exec (.bra hd imm) s = execBra hd imm s := rfl
@[simp] theorem exec_brx (hd : Hdr) (a : Operand) (s : State) : exec (.brx hd a) s = execBrx hd a s := rfl
@[simp] theorem exec_call (hd : Hdr) (imm : BitVec 27) (s : State) : exec (.call hd imm) s = execCall hd imm s := rfl
@[simp] theorem exec_callx (hd : Hdr) (a : Operand) (s : State) : exec (.callx hd a) s = execCallx hd a s := rfl
@[simp] theorem exec_ret (hd : Hdr) (s : State) : exec (.ret hd) s = execRet hd s := rfl
@[simp] theorem exec_rcb (hd : Hdr) (slot : BitVec 3) (imm : BitVec 27) (s : State) : exec (.rcb hd slot imm) s = execRcb hd slot imm s := rfl
@[simp] theorem exec_rcw (hd : Hdr) (slot : BitVec 3) (s : State) : exec (.rcw hd slot) s = execRcw hd slot s := rfl
@[simp] theorem exec_exit (hd : Hdr) (s : State) : exec (.exit hd) s = execExit hd s := rfl
@[simp] theorem exec_yield (hd : Hdr) (s : State) : exec (.yield hd) s = execYield hd s := rfl
@[simp] theorem exec_nop (hd : Hdr) (s : State) : exec (.nop hd) s = execNop hd s := rfl
@[simp] theorem exec_brk (hd : Hdr) (code : BitVec 6) (s : State) : exec (.brk hd code) s = execBrk hd code s := rfl
@[simp] theorem exec_trap (hd : Hdr) (code : BitVec 6) (s : State) : exec (.trap hd code) s = execTrap hd code s := rfl
@[simp] theorem exec_tret (hd : Hdr) (s : State) : exec (.tret hd) s = execTret hd s := rfl
@[simp] theorem exec_tretSkip (hd : Hdr) (s : State) : exec (.tretSkip hd) s = execTretSkip hd s := rfl
@[simp] theorem exec_ld (m : Mem) (s : State) : exec (.ld m) s = execLd m s := rfl
@[simp] theorem exec_st (m : Mem) (s : State) : exec (.st m) s = execSt m s := rfl
@[simp] theorem exec_ldu (m : Mem) (s : State) : exec (.ldu m) s = execLdu m s := rfl
@[simp] theorem exec_stu (m : Mem) (s : State) : exec (.stu m) s = execStu m s := rfl
@[simp] theorem exec_pref (m : Mem) (s : State) : exec (.pref m) s = execPref m s := rfl
@[simp] theorem exec_fence (m : Mem) (s : State) : exec (.fence m) s = execFence m s := rfl
@[simp] theorem exec_cflush (m : Mem) (s : State) : exec (.cflush m) s = execCflush m s := rfl
@[simp] theorem exec_waddr (m : Mem) (s : State) : exec (.waddr m) s = execWaddr m s := rfl
@[simp] theorem exec_atom (x : Atom) (s : State) : exec (.atom x) s = execAtom x s := rfl
@[simp] theorem exec_atomcas (x : Atom) (s : State) : exec (.atomcas x) s = execAtomcas x s := rfl
@[simp] theorem exec_red (x : Atom) (s : State) : exec (.red x) s = execRed x s := rfl
@[simp] theorem exec_cpy (hd : Hdr) (tl : BitVec 3) (d a : Operand) (width : BitVec 2) (s : State) : exec (.cpy hd tl d a width) s = execCpy hd tl d a width s := rfl
@[simp] theorem exec_cpyt (x : Tile) (s : State) : exec (.cpyt x) s = execCpyt x s := rfl
@[simp] theorem exec_cpyr (hd : Hdr) (tl : BitVec 3) (h : BitVec 8) (a : Operand) (dir : Bool) (op : BitVec 3) (s : State) : exec (.cpyr hd tl h a dir op) s = execCpyr hd tl h a dir op s := rfl
@[simp] theorem exec_cpyn (x : Tile) (s : State) : exec (.cpyn x) s = execCpyn x s := rfl
@[simp] theorem exec_cpyg (x : Tile) (s : State) : exec (.cpyg x) s = execCpyg x s := rfl
@[simp] theorem exec_cminit (hd : Hdr) (slot : BitVec 4) (a b : Operand) (s : State) : exec (.cminit hd slot a b) s = execCminit hd slot a b s := rfl
@[simp] theorem exec_cmtest (hd : Hdr) (d : Operand) (slot : BitVec 4) (a b : Operand) (scope : Scope) (s : State) : exec (.cmtest hd d slot a b scope) s = execCmtest hd d slot a b scope s := rfl
@[simp] theorem exec_cmwait (hd : Hdr) (slot : BitVec 4) (a b : Operand) (scope : Scope) (s : State) : exec (.cmwait hd slot a b scope) s = execCmwait hd slot a b scope s := rfl
@[simp] theorem exec_tlwait (hd : Hdr) (tl : BitVec 3) (a : Operand) (scope : Scope) (s : State) : exec (.tlwait hd tl a scope) s = execTlwait hd tl a scope s := rfl
@[simp] theorem exec_tlread (hd : Hdr) (d : Operand) (tl : BitVec 3) (sel : BitVec 2) (clr : Bool) (s : State) : exec (.tlread hd d tl sel clr) s = execTlread hd d tl sel clr s := rfl
@[simp] theorem exec_seqend (hd : Hdr) (s : State) : exec (.seqend hd) s = execSeqend hd s := rfl
@[simp] theorem exec_mldw (x : MOp) (s : State) : exec (.mldw x) s = execMldw x s := rfl
@[simp] theorem exec_mswap (hd : Hdr) (bar : BitVec 4) (arr : Bool) (s : State) : exec (.mswap hd bar arr) s = execMswap hd bar arr s := rfl
@[simp] theorem exec_mstrm (x : MOp) (tile : BitVec 3) (clr : Bool) (s : State) : exec (.mstrm x tile clr) s = execMstrm x tile clr s := rfl
@[simp] theorem exec_mldt (x : MOp) (s : State) : exec (.mldt x) s = execMldt x s := rfl
@[simp] theorem exec_mldtAcc (x : MOp) (tile : BitVec 3) (s : State) : exec (.mldtAcc x tile) s = execMldtAcc x tile s := rfl
@[simp] theorem exec_maclr (hd : Hdr) (mask : BitVec 8) (bar : BitVec 4) (arr : Bool) (s : State) : exec (.maclr hd mask bar arr) s = execMaclr hd mask bar arr s := rfl
@[simp] theorem exec_macld (x : MOp) (tile : BitVec 3) (s : State) : exec (.macld x tile) s = execMacld x tile s := rfl
@[simp] theorem exec_macst (x : MOp) (tile : BitVec 3) (s : State) : exec (.macst x tile) s = execMacst x tile s := rfl
@[simp] theorem exec_mvcnt (hd : Hdr) (a : Operand) (s : State) : exec (.mvcnt hd a) s = execMvcnt hd a s := rfl
@[simp] theorem exec_mloop (hd : Hdr) (d : Operand) (off : BitVec 18) (s : State) : exec (.mloop hd d off) s = execMloop hd d off s := rfl
@[simp] theorem exec_mmode (hd : Hdr) (fmt : BitVec 3) (s : State) : exec (.mmode hd fmt) s = execMmode hd fmt s := rfl
@[simp] theorem exec_fork (hd : Hdr) (a b : Operand) (s : State) : exec (.fork hd a b) s = execFork hd a b s := rfl
@[simp] theorem exec_rdv (hd : Hdr) (s : State) : exec (.rdv hd) s = execRdv hd s := rfl
@[simp] theorem exec_barinit (hd : Hdr) (bar : BitVec 4) (a : Operand) (s : State) : exec (.barinit hd bar a) s = execBarinit hd bar a s := rfl
@[simp] theorem exec_barrive (hd : Hdr) (d : Operand) (bar : BitVec 4) (s : State) : exec (.barrive hd d bar) s = execBarrive hd d bar s := rfl
@[simp] theorem exec_barwait (hd : Hdr) (bar : BitVec 4) (a : Operand) (s : State) : exec (.barwait hd bar a) s = execBarwait hd bar a s := rfl
@[simp] theorem exec_barstat (hd : Hdr) (d : Operand) (bar : BitVec 4) (sel : BitVec 2) (s : State) : exec (.barstat hd d bar sel) s = execBarstat hd d bar sel s := rfl
@[simp] theorem exec_tfetch (hd : Hdr) (d : Operand) (disp : BitVec 2) (s : State) : exec (.tfetch hd d disp) s = execTfetch hd d disp s := rfl
@[simp] theorem exec_wpush (hd : Hdr) (d a : Operand) (s : State) : exec (.wpush hd d a) s = execWpush hd d a s := rfl
@[simp] theorem exec_wpop (hd : Hdr) (d a : Operand) (p : BitVec 3) (s : State) : exec (.wpop hd d a p) s = execWpop hd d a p s := rfl
@[simp] theorem exec_wdone (hd : Hdr) (a : Operand) (s : State) : exec (.wdone hd a) s = execWdone hd a s := rfl
@[simp] theorem exec_cwait (hd : Hdr) (scope : Scope) (s : State) : exec (.cwait hd scope) s = execCwait hd scope s := rfl
@[simp] theorem exec_thset (hd : Hdr) (d : Operand) (h : BitVec 8) (a : Operand) (s : State) : exec (.thset hd d h a) s = execThset hd d h a s := rfl
@[simp] theorem exec_thget (hd : Hdr) (h : BitVec 8) (a : Operand) (s : State) : exec (.thget hd h a) s = execThget hd h a s := rfl
@[simp] theorem exec_rcapmkReg (hd : Hdr) (d : Operand) (reg : BitVec 8) (n : BitVec 3) (a : Operand) (wr xp : Bool) (s : State) : exec (.rcapmkReg hd d reg n a wr xp) s = execRcapmkReg hd d reg n a wr xp s := rfl
@[simp] theorem exec_rcapmkLand (hd : Hdr) (d : Operand) (e : BitVec 4) (a b : Operand) (wr xp : Bool) (s : State) : exec (.rcapmkLand hd d e a b wr xp) s = execRcapmkLand hd d e a b wr xp s := rfl
@[simp] theorem exec_rcapld (hd : Hdr) (slot : BitVec 4) (a : Operand) (s : State) : exec (.rcapld hd slot a) s = execRcapld hd slot a s := rfl
@[simp] theorem exec_rcaprevReg (hd : Hdr) (s : State) : exec (.rcaprevReg hd) s = execRcaprevReg hd s := rfl
@[simp] theorem exec_rcaprevLand (hd : Hdr) (e : BitVec 4) (s : State) : exec (.rcaprevLand hd e) s = execRcaprevLand hd e s := rfl
@[simp] theorem exec_rwr (hd : Hdr) (a : Operand) (slot : BitVec 4) (tl : BitVec 3) (scope : Scope) (rel : Bool) (off : BitVec 3) (k : BitVec 3) (s : State) : exec (.rwr hd a slot tl scope rel off k) s = execRwr hd a slot tl scope rel off k s := rfl
@[simp] theorem exec_rarm (hd : Hdr) (d : Operand) (k : BitVec 3) (s : State) : exec (.rarm hd d k) s = execRarm hd d k s := rfl
@[simp] theorem exec_rpoll (hd : Hdr) (d a : Operand) (k : BitVec 3) (p : BitVec 3) (s : State) : exec (.rpoll hd d a k p) s = execRpoll hd d a k p s := rfl
@[simp] theorem exec_phreg (x : Ph) (d a : Operand) (mode : BitVec 2) (s : State) : exec (.phreg x d a mode) s = execPhreg x d a mode s := rfl
@[simp] theorem exec_phdrop (x : Ph) (s : State) : exec (.phdrop x) s = execPhdrop x s := rfl
@[simp] theorem exec_phsig (x : Ph) (d : Operand) (scope : Scope) (s : State) : exec (.phsig x d scope) s = execPhsig x d scope s := rfl
@[simp] theorem exec_phsigb (x : Ph) (d : Operand) (tl : BitVec 3) (b : Operand) (s : State) : exec (.phsigb x d tl b) s = execPhsigb x d tl b s := rfl
@[simp] theorem exec_phany (x : Ph) (d a : Operand) (s : State) : exec (.phany x d a) s = execPhany x d a s := rfl
@[simp] theorem exec_phanyBind (x : Ph) (d a : Operand) (tl : BitVec 3) (b : Operand) (s : State) : exec (.phanyBind x d a tl b) s = execPhanyBind x d a tl b s := rfl
@[simp] theorem exec_phwait (x : Ph) (a : Operand) (scope : Scope) (s : State) : exec (.phwait x a scope) s = execPhwait x a scope s := rfl
@[simp] theorem exec_phtest (x : Ph) (d a : Operand) (s : State) : exec (.phtest x d a) s = execPhtest x d a s := rfl
@[simp] theorem exec_phwin (x : Ph) (d a : Operand) (scope : Scope) (s : State) : exec (.phwin x d a scope) s = execPhwin x d a scope s := rfl
@[simp] theorem exec_phtime (x : Ph) (a b : Operand) (s : State) : exec (.phtime x a b) s = execPhtime x a b s := rfl
@[simp] theorem exec_coll (hd : Hdr) (tl : BitVec 3) (h : BitVec 8) (a : Operand) (s : State) : exec (.coll hd tl h a) s = execColl hd tl h a s := rfl
@[simp] theorem exec_collst (hd : Hdr) (d a : Operand) (s : State) : exec (.collst hd d a) s = execCollst hd d a s := rfl
@[simp] theorem exec_sread (hd : Hdr) (d a : Operand) (s : State) : exec (.sread hd d a) s = execSread hd d a s := rfl
@[simp] theorem exec_sreadSys (hd : Hdr) (d : Operand) (n : BitVec 17) (s : State) : exec (.sreadSys hd d n) s = execSreadSys hd d n s := rfl
@[simp] theorem exec_swrite (hd : Hdr) (a b : Operand) (s : State) : exec (.swrite hd a b) s = execSwrite hd a b s := rfl
@[simp] theorem exec_swriteSys (hd : Hdr) (n : BitVec 17) (b : Operand) (s : State) : exec (.swriteSys hd n b) s = execSwriteSys hd n b s := rfl
@[simp] theorem exec_sethdl (hd : Hdr) (a : Operand) (s : State) : exec (.sethdl hd a) s = execSethdl hd a s := rfl
@[simp] theorem exec_estatLog (hd : Hdr) (d a : Operand) (s : State) : exec (.estatLog hd d a) s = execEstatLog hd d a s := rfl
@[simp] theorem exec_estatEq (hd : Hdr) (d : Operand) (s : State) : exec (.estatEq hd d) s = execEstatEq hd d s := rfl
@[simp] theorem exec_pggen (hd : Hdr) (d a : Operand) (s : State) : exec (.pggen hd d a) s = execPggen hd d a s := rfl
@[simp] theorem exec_assistNext (hd : Hdr) (d : Operand) (s : State) : exec (.assistNext hd d) s = execAssistNext hd d s := rfl
@[simp] theorem exec_assistGet (hd : Hdr) (d a : Operand) (s : State) : exec (.assistGet hd d a) s = execAssistGet hd d a s := rfl
@[simp] theorem exec_assistPut (hd : Hdr) (a b : Operand) (s : State) : exec (.assistPut hd a b) s = execAssistPut hd a b s := rfl
@[simp] theorem exec_assistDone (hd : Hdr) (s : State) : exec (.assistDone hd) s = execAssistDone hd s := rfl
@[simp] theorem exec_halt (hd : Hdr) (s : State) : exec (.halt hd) s = execHalt hd s := rfl
@[simp] theorem exec_haltStop (hd : Hdr) (s : State) : exec (.haltStop hd) s = execHaltStop hd s := rfl
@[simp] theorem exec_troupeEnd (ctx wg t : Nat) (s : State) : exec (.troupeEnd ctx wg t) s = execTroupeEnd ctx wg t s := rfl
@[simp] theorem exec_waddrRelease (r : SubRef) (s : State) : exec (.waddrRelease r) s = execWaddrRelease r s := rfl
@[simp] theorem exec_longLatencyResult (r : SubRef) (s : State) : exec (.longLatencyResult r) s = execLongLatencyResult r s := rfl
@[simp] theorem exec_dieApplyWrite (die : Nat) (s : State) : exec (.dieApplyWrite die) s = execDieApplyWrite die s := rfl
@[simp] theorem exec_walkAheadTranslate (core : Nat) (s : State) : exec (.walkAheadTranslate core) s = execWalkAheadTranslate core s := rfl
@[simp] theorem exec_cmwaitRelease (r : SubRef) (s : State) : exec (.cmwaitRelease r) s = execCmwaitRelease r s := rfl
@[simp] theorem exec_tlwaitRelease (r : SubRef) (s : State) : exec (.tlwaitRelease r) s = execTlwaitRelease r s := rfl
@[simp] theorem exec_sequencerIdle (ctx wg : Nat) (copy : Bool) (s : State) : exec (.sequencerIdle ctx wg copy) s = execSequencerIdle ctx wg copy s := rfl
@[simp] theorem exec_copyStart (core : Nat) (s : State) : exec (.copyStart core) s = execCopyStart core s := rfl
@[simp] theorem exec_chunkArrival (core : Nat) (i : Nat) (s : State) : exec (.chunkArrival core i) s = execChunkArrival core i s := rfl
@[simp] theorem exec_copyComplete (core : Nat) (i : Nat) (s : State) : exec (.copyComplete core i) s = execCopyComplete core i s := rfl
@[simp] theorem exec_arrayOpStart (core : Nat) (s : State) : exec (.arrayOpStart core) s = execArrayOpStart core s := rfl
@[simp] theorem exec_arrayOpComplete (core : Nat) (s : State) : exec (.arrayOpComplete core) s = execArrayOpComplete core s := rfl
@[simp] theorem exec_arrayOwnershipChange (core : Nat) (s : State) : exec (.arrayOwnershipChange core) s = execArrayOwnershipChange core s := rfl
@[simp] theorem exec_forkStart (r : SubRef) (s : State) : exec (.forkStart r) s = execForkStart r s := rfl
@[simp] theorem exec_rdvRelease (r : SubRef) (s : State) : exec (.rdvRelease r) s = execRdvRelease r s := rfl
@[simp] theorem exec_barwaitRelease (r : SubRef) (s : State) : exec (.barwaitRelease r) s = execBarwaitRelease r s := rfl
@[simp] theorem exec_parentPush (ctx list : Nat) (s : State) : exec (.parentPush ctx list) s = execParentPush ctx list s := rfl
@[simp] theorem exec_cwaitRelease (r : SubRef) (s : State) : exec (.cwaitRelease r) s = execCwaitRelease r s := rfl
@[simp] theorem exec_poolEntryGrant (core queue : Nat) (s : State) : exec (.poolEntryGrant core queue) s = execPoolEntryGrant core queue s := rfl
@[simp] theorem exec_rwrDeliveryApply (i : Nat) (s : State) : exec (.rwrDeliveryApply i) s = execRwrDeliveryApply i s := rfl
@[simp] theorem exec_rwrAnswer (i : Nat) (s : State) : exec (.rwrAnswer i) s = execRwrAnswer i s := rfl
@[simp] theorem exec_phwaitRelease (r : SubRef) (s : State) : exec (.phwaitRelease r) s = execPhwaitRelease r s := rfl
@[simp] theorem exec_coreEventWake (core : Nat) (e : CoreEvent) (s : State) : exec (.coreEventWake core e) s = execCoreEventWake core e s := rfl
@[simp] theorem exec_tcmpTimerEvent (core : Nat) (s : State) : exec (.tcmpTimerEvent core) s = execTcmpTimerEvent core s := rfl
@[simp] theorem exec_throttleEpochEnd (core : Nat) (s : State) : exec (.throttleEpochEnd core) s = execThrottleEpochEnd core s := rfl
@[simp] theorem exec_routingModeSwitch (die : Nat) (s : State) : exec (.routingModeSwitch die) s = execRoutingModeSwitch die s := rfl
@[simp] theorem exec_carouselHop (cluster i : Nat) (s : State) : exec (.carouselHop cluster i) s = execCarouselHop cluster i s := rfl
@[simp] theorem exec_carouselEject (cluster stop : Nat) (s : State) : exec (.carouselEject cluster stop) s = execCarouselEject cluster stop s := rfl
@[simp] theorem exec_sliceForward (i : Nat) (s : State) : exec (.sliceForward i) s = execSliceForward i s := rfl
@[simp] theorem exec_ackSend (src : Nat) (tc : StreamClass) (s : State) : exec (.ackSend src tc) s = execAckSend src tc s := rfl
@[simp] theorem exec_packageRelease (name : PhName) (s : State) : exec (.packageRelease name) s = execPackageRelease name s := rfl
@[simp] theorem exec_boundSignalRelease (die i : Nat) (s : State) : exec (.boundSignalRelease die i) s = execBoundSignalRelease die i s := rfl
@[simp] theorem exec_curtainQuiescent (ctx : Nat) (s : State) : exec (.curtainQuiescent ctx) s = execCurtainQuiescent ctx s := rfl
@[simp] theorem exec_launchStart (q : Nat) (s : State) : exec (.launchStart q) s = execLaunchStart q s := rfl
@[simp] theorem exec_waitConditionMet (q : Nat) (s : State) : exec (.waitConditionMet q) s = execWaitConditionMet q s := rfl
@[simp] theorem exec_cmdNop (q : Nat) (s : State) : exec (.cmdNop q) s = execCmdNop q s := rfl
@[simp] theorem exec_cmdLaunch (q : Nat) (s : State) : exec (.cmdLaunch q) s = execCmdLaunch q s := rfl
@[simp] theorem exec_cmdWait (q : Nat) (s : State) : exec (.cmdWait q) s = execCmdWait q s := rfl
@[simp] theorem exec_cmdSignal (q : Nat) (s : State) : exec (.cmdSignal q) s = execCmdSignal q s := rfl
@[simp] theorem exec_cmdBadType (q : Nat) (s : State) : exec (.cmdBadType q) s = execCmdBadType q s := rfl
@[simp] theorem exec_workgroupPlace (ctx wg : Nat) (s : State) : exec (.workgroupPlace ctx wg) s = execWorkgroupPlace ctx wg s := rfl
@[simp] theorem exec_workgroupEnd (ctx wg : Nat) (s : State) : exec (.workgroupEnd ctx wg) s = execWorkgroupEnd ctx wg s := rfl
@[simp] theorem exec_launchEnd (ctx : Nat) (s : State) : exec (.launchEnd ctx) s = execLaunchEnd ctx s := rfl
@[simp] theorem exec_preemptCohort (ctx cohort : Nat) (s : State) : exec (.preemptCohort ctx cohort) s = execPreemptCohort ctx cohort s := rfl
@[simp] theorem exec_resumeCohort (ctx cohort : Nat) (cores : List Nat) (s : State) : exec (.resumeCohort ctx cohort cores) s = execResumeCohort ctx cohort cores s := rfl
@[simp] theorem exec_pageHomeMove (unit : Nat) (s : State) : exec (.pageHomeMove unit) s = execPageHomeMove unit s := rfl
@[simp] theorem exec_collectiveComplete (ctx num : Nat) (s : State) : exec (.collectiveComplete ctx num) s = execCollectiveComplete ctx num s := rfl
@[simp] theorem exec_matrixColumnSpare (core : Nat) (s : State) : exec (.matrixColumnSpare core) s = execMatrixColumnSpare core s := rfl
@[simp] theorem exec_controlCoreRestart (cluster : Nat) (s : State) : exec (.controlCoreRestart cluster) s = execControlCoreRestart cluster s := rfl
@[simp] theorem exec_firmwareCoreRestart (die : Nat) (s : State) : exec (.firmwareCoreRestart die) s = execFirmwareCoreRestart die s := rfl
@[simp] theorem exec_linkLossReplay (port plane : Nat) (s : State) : exec (.linkLossReplay port plane) s = execLinkLossReplay port plane s := rfl
@[simp] theorem exec_trainingAttemptEnd (port : Nat) (digest : Word) (locked : BitVec 4) (verified : Bool) (s : State) : exec (.trainingAttemptEnd port digest locked verified) s = execTrainingAttemptEnd port digest locked verified s := rfl
@[simp] theorem exec_rootNodeCycle (name : PhName) (s : State) : exec (.rootNodeCycle name) s = execRootNodeCycle name s := rfl
@[simp] theorem exec_bankGrant (core bank : Nat) (s : State) : exec (.bankGrant core bank) s = execBankGrant core bank s := rfl
@[simp] theorem exec_memoryRequestAtHome (q : HomeReq) (s : State) : exec (.memoryRequestAtHome q) s = execMemoryRequestAtHome q s := rfl
@[simp] theorem exec_translationWalk (core asid : Nat) (va : DWord) (kind : Access) (s : State) : exec (.translationWalk core asid va kind) s = execTranslationWalk core asid va kind s := rfl
@[simp] theorem exec_tcmpWrite (core : Nat) (value : DWord) (s : State) : exec (.tcmpWrite core value) s = execTcmpWrite core value s := rfl
@[simp] theorem exec_nocWindowEnd (die : Nat) (counts : List (List Nat)) (s : State) : exec (.nocWindowEnd die counts) s = execNocWindowEnd die counts s := rfl
@[simp] theorem exec_packetLdreq (p : Packet) (s : State) : exec (.packetLdreq p) s = execPacketLdreq p s := rfl
@[simp] theorem exec_packetLdrsp (p : Packet) (s : State) : exec (.packetLdrsp p) s = execPacketLdrsp p s := rfl
@[simp] theorem exec_packetWrite (p : Packet) (s : State) : exec (.packetWrite p) s = execPacketWrite p s := rfl
@[simp] theorem exec_packetAtom (p : Packet) (s : State) : exec (.packetAtom p) s = execPacketAtom p s := rfl
@[simp] theorem exec_packetAtomrsp (p : Packet) (s : State) : exec (.packetAtomrsp p) s = execPacketAtomrsp p s := rfl
@[simp] theorem exec_packetRegwr (p : Packet) (s : State) : exec (.packetRegwr p) s = execPacketRegwr p s := rfl
@[simp] theorem exec_packetRegans (p : Packet) (s : State) : exec (.packetRegans p) s = execPacketRegans p s := rfl
@[simp] theorem exec_packetCopy (p : Packet) (s : State) : exec (.packetCopy p) s = execPacketCopy p s := rfl
@[simp] theorem exec_packetCollect (p : Packet) (s : State) : exec (.packetCollect p) s = execPacketCollect p s := rfl
@[simp] theorem exec_packetMcast (p : Packet) (s : State) : exec (.packetMcast p) s = execPacketMcast p s := rfl
@[simp] theorem exec_packetAck (p : Packet) (s : State) : exec (.packetAck p) s = execPacketAck p s := rfl
@[simp] theorem exec_packetDowndraft (p : Packet) (s : State) : exec (.packetDowndraft p) s = execPacketDowndraft p s := rfl
@[simp] theorem exec_packetReserved (h : BitVec 512) (s : State) : exec (.packetReserved h) s = execPacketReserved h s := rfl
@[simp] theorem exec_rateRecovery (dst : Nat) (s : State) : exec (.rateRecovery dst) s = execRateRecovery dst s := rfl
@[simp] theorem exec_e2eTimeoutReplay (dst : Nat) (tc : BitVec 2) (seq : BitVec 16) (plane : Nat) (s : State) : exec (.e2eTimeoutReplay dst tc seq plane) s = execE2eTimeoutReplay dst tc seq plane s := rfl
@[simp] theorem exec_planeExclusionExpire (dst plane : Nat) (s : State) : exec (.planeExclusionExpire dst plane) s = execPlaneExclusionExpire dst plane s := rfl
@[simp] theorem exec_streamClose (dst : Nat) (tc : BitVec 2) (s : State) : exec (.streamClose dst tc) s = execStreamClose dst tc s := rfl
@[simp] theorem exec_linkFlitFail (port : Nat) (s : State) : exec (.linkFlitFail port) s = execLinkFlitFail port s := rfl
@[simp] theorem exec_linkReplay (port : Nat) (flit : Moment) (s : State) : exec (.linkReplay port flit) s = execLinkReplay port flit s := rfl
@[simp] theorem exec_linkFlitAck (port : Nat) (s : State) : exec (.linkFlitAck port) s = execLinkFlitAck port s := rfl
@[simp] theorem exec_laneLockLoss (port : Nat) (lane : Moment) (s : State) : exec (.laneLockLoss port lane) s = execLaneLockLoss port lane s := rfl
@[simp] theorem exec_plannedWidthChange (port : WidthChange) (s : State) : exec (.plannedWidthChange port) s = execPlannedWidthChange port s := rfl
@[simp] theorem exec_portctlEn (port : Nat) (en : Bool) (s : State) : exec (.portctlEn port en) s = execPortctlEn port en s := rfl
@[simp] theorem exec_portctlReset (port : Nat) (s : State) : exec (.portctlReset port) s = execPortctlReset port s := rfl
@[simp] theorem exec_portctlPwidth (port : Nat) (w : BitVec 2) (s : State) : exec (.portctlPwidth port w) s = execPortctlPwidth port w s := rfl
@[simp] theorem exec_tetherCountMessage (node child : Nat) (m : TetherMsg) (s : State) : exec (.tetherCountMessage node child m) s = execTetherCountMessage node child m s := rfl
@[simp] theorem exec_releaseReceipt (m : Release) (s : State) : exec (.releaseReceipt m) s = execReleaseReceipt m s := rfl
@[simp] theorem exec_tetherPortFailover (s : State) : exec .tetherPortFailover s = execTetherPortFailover s := rfl
@[simp] theorem exec_tethcfgActiveWrite (port : Bool) (s : State) : exec (.tethcfgActiveWrite port) s = execTethcfgActiveWrite port s := rfl
@[simp] theorem exec_leafRootFailover (loss : RootLoss) (s : State) : exec (.leafRootFailover loss) s = execLeafRootFailover loss s := rfl
@[simp] theorem exec_rootlost (name : PhName) (s : State) : exec (.rootlost name) s = execRootlost name s := rfl
@[simp] theorem exec_timeSyncExchange (parent : DWord) (skew : Skew) (s : State) : exec (.timeSyncExchange parent skew) s = execTimeSyncExchange parent skew s := rfl
@[simp] theorem exec_phdescCreate (value : Word) (s : State) : exec (.phdescCreate value) s = execPhdescCreate value s := rfl
@[simp] theorem exec_phdescDestroy (value : Word) (s : State) : exec (.phdescDestroy value) s = execPhdescDestroy value s := rfl
@[simp] theorem exec_qtailWrite (q : QueueAccess) (tail : Word) (s : State) : exec (.qtailWrite q tail) s = execQtailWrite q tail s := rfl
@[simp] theorem exec_qstatSkip (q : QueueAccess) (s : State) : exec (.qstatSkip q) s = execQstatSkip q s := rfl
@[simp] theorem exec_ctxctlPreempt (ctx : Nat) (s : State) : exec (.ctxctlPreempt ctx) s = execCtxctlPreempt ctx s := rfl
@[simp] theorem exec_ctxctlEnd (ctx : Nat) (s : State) : exec (.ctxctlEnd ctx) s = execCtxctlEnd ctx s := rfl
@[simp] theorem exec_pfqdoneRetry (id : Word) (s : State) : exec (.pfqdoneRetry id) s = execPfqdoneRetry id s := rfl
@[simp] theorem exec_pfqdoneDecline (id : Word) (s : State) : exec (.pfqdoneDecline id) s = execPfqdoneDecline id s := rfl
@[simp] theorem exec_migfreePush (die : Nat) (frame : DWord) (s : State) : exec (.migfreePush die frame) s = execMigfreePush die frame s := rfl
@[simp] theorem exec_migpinPin (unit : Nat) (s : State) : exec (.migpinPin unit) s = execMigpinPin unit s := rfl
@[simp] theorem exec_migpinUnpin (unit : Nat) (s : State) : exec (.migpinUnpin unit) s = execMigpinUnpin unit s := rfl
@[simp] theorem exec_migrationEpochEnd (unit : Nat) (s : State) : exec (.migrationEpochEnd unit) s = execMigrationEpochEnd unit s := rfl
@[simp] theorem exec_collectiveLagTimeout (ctx num laggard : Nat) (counts : List Nat) (s : State) : exec (.collectiveLagTimeout ctx num laggard counts) s = execCollectiveLagTimeout ctx num laggard counts s := rfl
@[simp] theorem exec_correctedError (res : Resource) (die unit index : Nat) (time : Nat) (s : State) : exec (.correctedError res die unit index time) s = execCorrectedError res die unit index time s := rfl
@[simp] theorem exec_uncorrectableError (what : Struck) (time : Nat) (s : State) : exec (.uncorrectableError what time) s = execUncorrectableError what time s := rfl
@[simp] theorem exec_coredis (core : Nat) (s : State) : exec (.coredis core) s = execCoredis core s := rfl
@[simp] theorem exec_leaseRenewal (die : Renewal) (s : State) : exec (.leaseRenewal die) s = execLeaseRenewal die s := rfl
@[simp] theorem exec_termProposal (die : Nat) (s : State) : exec (.termProposal die) s = execTermProposal die s := rfl
@[simp] theorem exec_voteRequest (die proposer : Nat) (term : Word) (s : State) : exec (.voteRequest die proposer term) s = execVoteRequest die proposer term s := rfl
@[simp] theorem exec_ringmasterCommand (die : CommandPath) (term : Word) (reg : BitVec 17) (value : DWord) (s : State) : exec (.ringmasterCommand die term reg value) s = execRingmasterCommand die term reg value s := rfl
@[simp] theorem exec_resetBoot (image : List Byte) (s : State) : exec (.resetBoot image) s = execResetBoot image s := rfl
@[simp] theorem exec_lccmd (cmd : List Byte) (s : State) : exec (.lccmd cmd) s = execLccmd cmd s := rfl
@[simp] theorem exec_keyAllocate (asid key : Nat) (s : State) : exec (.keyAllocate asid key) s = execKeyAllocate asid key s := rfl
@[simp] theorem exec_keyErase (key : Nat) (s : State) : exec (.keyErase key) s = execKeyErase key s := rfl
@[simp] theorem exec_powerCeilingUpdate (us iest : Nat) (waiting : Bool) (s : State) : exec (.powerCeilingUpdate us iest waiting) s = execPowerCeilingUpdate us iest waiting s := rfl
@[simp] theorem exec_thermalLimitEnter (die celsius : Nat) (s : State) : exec (.thermalLimitEnter die celsius) s = execThermalLimitEnter die celsius s := rfl
@[simp] theorem exec_thermalLimitLift (die celsius : Nat) (s : State) : exec (.thermalLimitLift die celsius) s = execThermalLimitLift die celsius s := rfl
@[simp] theorem exec_mbQuote (fn : Nat) (s : State) : exec (.mbQuote fn) s = execMbQuote fn s := rfl
@[simp] theorem exec_mbGetcert (fn : Nat) (s : State) : exec (.mbGetcert fn) s = execMbGetcert fn s := rfl
@[simp] theorem exec_mbPwrwr (fn : Nat) (s : State) : exec (.mbPwrwr fn) s = execMbPwrwr fn s := rfl
@[simp] theorem exec_mbPwrrd (fn : Nat) (s : State) : exec (.mbPwrrd fn) s = execMbPwrrd fn s := rfl
@[simp] theorem exec_mbLogrd (fn : Nat) (s : State) : exec (.mbLogrd fn) s = execMbLogrd fn s := rfl
@[simp] theorem exec_mbLccmd (fn : Nat) (s : State) : exec (.mbLccmd fn) s = execMbLccmd fn s := rfl
@[simp] theorem exec_mbImage (fn : Nat) (image : List Byte) (s : State) : exec (.mbImage fn image) s = execMbImage fn image s := rfl
@[simp] theorem exec_mbHostasid (fn : Nat) (s : State) : exec (.mbHostasid fn) s = execMbHostasid fn s := rfl
@[simp] theorem exec_hostBar2Access (fn : Nat) (kind : Access) (addr : DWord) (data : List Byte) (width : Nat) (s : State) : exec (.hostBar2Access fn kind addr data width) s = execHostBar2Access fn kind addr data width s := rfl
@[simp] theorem exec_registerWrite (n : BitVec 17) (unit : Nat) (value : DWord) (s : State) : exec (.registerWrite n unit value) s = execRegisterWrite n unit value s := rfl
@[simp] theorem exec_mbBadcmd (fn : Nat) (s : State) : exec (.mbBadcmd fn) s = execMbBadcmd fn s := rfl
@[simp] theorem exec_qcfgEnWrite (q : QueueAccess) (en : Bool) (s : State) : exec (.qcfgEnWrite q en) s = execQcfgEnWrite q en s := rfl
@[simp] theorem exec_pfqheadWrite (head : Word) (s : State) : exec (.pfqheadWrite head) s = execPfqheadWrite head s := rfl
@[simp] theorem exec_debugAgentResume (r : SubRef) (resume : Bool) (s : State) : exec (.debugAgentResume r resume) s = execDebugAgentResume r resume s := rfl
@[simp] theorem exec_tdiStateChange (fn : Nat) (run : TdiState) (s : State) : exec (.tdiStateChange fn run) s = execTdiStateChange fn run s := rfl
@[simp] theorem exec_tetherPortLinkUp (link : TetherLink) (s : State) : exec (.tetherPortLinkUp link) s = execTetherPortLinkUp link s := rfl
@[simp] theorem exec_tetherChildLoss (node child : Nat) (s : State) : exec (.tetherChildLoss node child) s = execTetherChildLoss node child s := rfl
@[simp] theorem exec_voteReceipt (die source : Nat) (term : Word) (s : State) : exec (.voteReceipt die source term) s = execVoteReceipt die source term s := rfl
@[simp] theorem exec_renewalAck (die source : Nat) (term : Word) (s : State) : exec (.renewalAck die source term) s = execRenewalAck die source term s := rfl
@[simp] theorem exec_thrashHoldEnd (unit : Nat) (s : State) : exec (.thrashHoldEnd unit) s = execThrashHoldEnd unit s := rfl
@[simp] theorem exec_pageRefill (ctx wg page : Nat) (s : State) : exec (.pageRefill ctx wg page) s = execPageRefill ctx wg page s := rfl
@[simp] theorem exec_leaseExpiry (die : Nat) (s : State) : exec (.leaseExpiry die) s = execLeaseExpiry die s := rfl

end Sys2Proof.Machine
end

