-- ==== Sys2Proof/Laws/Memory.lean ====
section
/-!
SUPPORT. The memory operations: every one of them keeps the canonical form, and a read under the index of a write gives what
was written.
-/

namespace Sys2Proof.Machine

/-- The canonical form, part by part. -/
theorem Memory.wf_iff (s : State) :
    Memory.wf s = true ↔ twf 0 s.mem = true ∧ twf false s.memMark = true ∧ twf 0 s.lineKey = true := by
  simp [Memory.wf, and_assoc]

/-- The canonical form depends on the three tables alone. -/
theorem Memory.wf_congr {s t : State} (h1 : t.mem = s.mem) (h2 : t.memMark = s.memMark) (h3 : t.lineKey = s.lineKey) :
    Memory.wf t = Memory.wf s := by
  simp [Memory.wf, h1, h2, h3]

/-- Memory after reset is in its canonical form. -/
theorem reset_memory_wf : Memory.wf State.reset = true := rfl

theorem twf_putRaw (m : TMap Byte) (pa : Nat) (l : List Byte) (h : twf 0 m = true) : twf 0 (putRaw m pa l) = true := by
  induction l generalizing m pa with
  | nil => exact h
  | cons b r ih => exact ih _ _ (twf_tset 0 m pa b h)

theorem twf_putMark (m : TMap Bool) (pa n : Nat) (mark : Bool) (h : twf false m = true) :
    twf false (putMark m pa n mark) = true := by
  unfold putMark
  generalize unitsOf pa n = us
  induction us generalizing m with
  | nil => exact h
  | cons u r ih =>
    refine ih _ ?_
    dsimp only
    split
    · exact twf_tset _ _ _ _ h
    · split
      · exact twf_tset _ _ _ _ h
      · exact h

theorem rekey_memMark (s : State) (key l : Nat) : (rekey s key l).memMark = s.memMark := by
  unfold rekey
  split
  · rfl
  · split <;> rfl

theorem rekey_wf (s : State) (key l : Nat) (h : Memory.wf s = true) : Memory.wf (rekey s key l) = true := by
  unfold rekey
  split
  · exact h
  · split
    · exact h
    · rw [Memory.wf_iff] at h ⊢
      exact ⟨twf_putRaw _ _ _ h.1, h.2.1, twf_tset _ _ _ _ h.2.2⟩

theorem rekeys_wf (ls : List Nat) (s : State) (key : Nat) (h : Memory.wf s = true) :
    Memory.wf (ls.foldl (fun s l => rekey s key l) s) = true := by
  induction ls generalizing s with
  | nil => exact h
  | cons l r ih => exact ih _ (rekey_wf s key l h)

/-- A write of bytes keeps the canonical form. -/
theorem memPut_wf (s : State) (key pa : Nat) (data : List Byte) (h : Memory.wf s = true) :
    Memory.wf (memPut s key pa data) = true := by
  have := rekeys_wf (linesOf pa data.length) s key h
  unfold memPut
  rw [Memory.wf_iff] at this ⊢
  exact ⟨twf_putRaw _ _ _ this.1, this.2⟩

/-- A block of bytes put into a table keeps the canonical form. -/
theorem twf_putBlock (m : TMap Byte) (r : Nat × List Byte) (h : twf 0 m = true) : twf 0 (putBlock m r) = true := by
  unfold putBlock
  refine twf_tsplice 0 m _ _ _ h ?_ (fun e he => ?_) (fun e he => ?_) (Nat.le_add_right _ _)
  · simp only [twf, Bool.and_eq_true, decide_eq_true_eq, List.all_eq_true]
    refine ⟨List.Pairwise.filterMap _ (R := fun a b => a.1 < b.1) (fun a b hab x hx y hy => ?_) ?_, fun e he => ?_⟩
    · simp only [Option.ite_none_left_eq_some, Option.some.injEq] at hx hy
      obtain ⟨-, rfl⟩ := hx
      obtain ⟨-, rfl⟩ := hy
      simpa using hab
    · have := (List.pairwise_lt_range (n := r.2.length))
      rw [show List.range r.2.length = ((List.range r.2.length).zip r.2).map Prod.fst from
        (List.map_fst_zip (by simp)).symm] at this
      exact List.pairwise_map.1 this
    · obtain ⟨x, -, hx⟩ := List.mem_filterMap.1 he
      split at hx
      · cases hx
      · next h0 => cases hx; exact h0
  all_goals
    obtain ⟨x, hm, hx⟩ := List.mem_filterMap.1 he
    have hl : x.1 < r.2.length := List.mem_range.1 (List.of_mem_zip hm).1
    split at hx
    · cases hx
    · cases hx
      simp only
      omega

/-- The bytes of a unit that comes from another package keep the canonical form. -/
theorem bringUnit_wf (s : State) (u : Nat) (h : Memory.wf s = true) : Memory.wf (bringUnit s u) = true := by
  rw [Memory.wf_iff] at h ⊢
  refine ⟨twf_tsplice 0 s.mem _ _ _ h.1 ?_ (fun e he => ?_) (fun e he => ?_) (by omega),
    twf_tsplice false s.memMark _ _ _ h.2.1 ?_ (fun e he => ?_) (fun e he => ?_) (by omega), h.2.2⟩
  · simpa [bne, BEq.beq] using twf_run 0 (65536 * u) 65536 fun i => (Config.freeWord (s.free + i)).setWidth 8
  · obtain ⟨i, -, rfl⟩ := List.mem_map.1 (List.mem_filter.1 he).1
    simp
  · obtain ⟨i, hi, rfl⟩ := List.mem_map.1 (List.mem_filter.1 he).1
    have := List.mem_range.1 hi
    simp only
    omega
  · simpa using twf_run false (4096 * u) 4096 fun i => Config.freeNat (s.free + 65536 + i) % 2 == 1
  · obtain ⟨i, -, rfl⟩ := List.mem_map.1 (List.mem_filter.1 he).1
    simp
  · obtain ⟨i, hi, rfl⟩ := List.mem_map.1 (List.mem_filter.1 he).1
    have := List.mem_range.1 hi
    simp only
    omega

/-- Sealing a line keeps the canonical form. -/
theorem sealLine_wf (s : State) (l : Nat) (h : Memory.wf s = true) : Memory.wf (sealLine s l) = true := by
  rw [Memory.wf_iff] at h ⊢
  exact ⟨twf_putRaw _ _ _ h.1, h.2.1, twf_tset 0 s.lineKey l 2048 h.2.2⟩

/-- Wiping memory leaves it in canonical form. -/
theorem wipe_wf (s : State) (h : Memory.wf s = true) : Memory.wf (wipe s) = true := by
  rw [Memory.wf_iff] at h ⊢
  exact ⟨twf_filter _ _ _ h.1, twf_filter _ _ _ h.2.1, rfl⟩

/-- Folding operations that keep the canonical form keeps it. -/
theorem foldl_wf {α : Type} (l : List α) (f : State → α → State) (hf : ∀ s x, Memory.wf s = true → Memory.wf (f s x) = true)
    (s : State) (h : Memory.wf s = true) : Memory.wf (l.foldl f s) = true := by
  induction l generalizing s with
  | nil => exact h
  | cons d r ih => exact ih _ (hf s d h)

/-- Setting the same mark in several units keeps the canonical form. -/
theorem twf_setUnits (l : List Nat) (m : TMap Bool) (b : Bool) (h : twf false m = true) :
    twf false (l.foldl (fun m u => tset false m u b) m) = true := by
  induction l generalizing m with
  | nil => exact h
  | cons u r ih => exact ih _ (twf_tset _ _ _ _ h)

/-- What a write does to memory keeps the canonical form. -/
theorem memApply_wf (s : State) (key : Nat) (w : MemWrite) (h : Memory.wf s = true) : Memory.wf (memApply s key w) = true := by
  have h0 := foldl_wf w.runs (fun s r => memPut s key r.1 r.2) (fun s r hs => memPut_wf s key r.1 r.2 hs) s h
  unfold memApply
  rw [Memory.wf_iff] at h0 ⊢
  exact ⟨h0.1, twf_setUnits _ _ _ (twf_setUnits _ _ _ h0.2.1), h0.2.2⟩

/-- A write performed at its home keeps the canonical form. -/
theorem homePerform_wf (s : State) (key : Nat) (w : MemWrite) (pkg die by_ : Nat) (h : Memory.wf s = true) :
    Memory.wf (homePerform s key w pkg die by_) = true := by
  have h1 : Memory.wf (noteRequest (memApply s key w) w.at_ pkg die) = true :=
    (Memory.wf_congr rfl rfl rfl).trans (memApply_wf s key w h)
  unfold homePerform
  dsimp only
  split
  · exact h1
  · refine foldl_wf _ _ (fun s d hs => ?_) _ ?_
    · exact (Memory.wf_congr rfl rfl rfl).trans hs
    · exact (Memory.wf_congr rfl rfl rfl).trans h1

/-- A write of bytes performed at its home keeps the canonical form. -/
theorem homeWriteBy_wf (s : State) (pa key : Nat) (data : List Byte) (mark : Bool) (pkg die by_ : Nat)
    (h : Memory.wf s = true) : Memory.wf (homeWriteBy s pa key data mark pkg die by_) = true :=
  homePerform_wf s key _ pkg die by_ h

/-- A write of a requester of this package keeps the canonical form. -/
theorem homeWrite_wf (s : State) (pa key : Nat) (data : List Byte) (mark : Bool) (pkg die : Nat)
    (h : Memory.wf s = true) : Memory.wf (homeWrite s pa key data mark pkg die) = true :=
  homeWriteBy_wf s pa key data mark pkg die die h

/-! ### Reading what was written -/

/-- Bytes put as stored, read back: inside the range the new byte, outside the old one. -/
theorem tget_putRaw (m : TMap Byte) (pa a : Nat) (l : List Byte) :
    tget 0 (putRaw m pa l) a = if pa ≤ a ∧ a < pa + l.length then (l[a - pa]?).getD 0 else tget 0 m a := by
  induction l generalizing m pa with
  | nil => simp only [putRaw, List.length_nil]; rw [if_neg (by omega)]
  | cons b r ih =>
    rw [putRaw, ih, tget_tset]
    simp only [List.length_cons]
    by_cases h : a = pa
    · subst h
      rw [if_neg (by omega), if_pos rfl, if_pos (by omega)]
      simp
    · by_cases h2 : pa + 1 ≤ a ∧ a < pa + 1 + r.length
      · rw [if_pos h2, if_pos (by omega), show a - pa = (a - (pa + 1)) + 1 by omega]
        simp
      · rw [if_neg h2, if_neg h, if_neg (by omega)]

end Sys2Proof.Machine
end

