-- ==== Sys2Proof/Laws/PerInstr.lean ====
section
/-!
SUPPORT. What is said of every instruction as syntax, one lemma per constructor: the opcode of its word.
-/

namespace Sys2Proof.Laws.Encoded

open Sys2Proof

/-- The full-form word of an instruction carries the instruction's opcode in bits 62 to 53 (R48, R62). A device step has no word. -/
def Statement (i : Instr) : Prop := ∀ w, encode i = some w → w.getLsbD 63 = false → (Raw.unpack w).op = BitVec.ofNat 10 i.opcode

theorem ofFull {i : Instr} {op : Nat} {hd : Hdr} {d a b : BitVec 9} {f : BitVec 18} (h : encode i = some (encFull op hd d a b f))
    (ho : i.opcode = op) : Statement i := by
  intro w hw _
  rw [h] at hw
  injection hw with hw
  subst hw ho
  unfold encFull
  rw [unpack_pack]

theorem ofNone {i : Instr} (h : encode i = none) : Statement i := by
  intro w hw _
  rw [h] at hw
  cases hw

theorem pairedWord (x y : Slot) : Statement (.pairedWord x y) := by
  intro w hw h
  injection hw with hw
  subst hw
  have : (1#1 ++ 0#1 ++ x.enc ++ y.enc : BitVec 64).getLsbD 63 = true := by
    simp (disch := omega) only [bit_hi]; rfl
  rw [this] at h
  cases h

theorem iadd (x : A2) (sat : Bool) : Statement (.iadd x sat) := ofFull rfl rfl
theorem isub (x : A2) (sat : Bool) : Statement (.isub x sat) := ofFull rfl rfl
theorem imul (x : A2) : Statement (.imul x) := ofFull rfl rfl
theorem imulhi (x : A2) (u : Bool) : Statement (.imulhi x u) := ofFull rfl rfl
theorem imad (x : A3) (sat : Bool) : Statement (.imad x sat) := ofFull rfl rfl
theorem imadw (x : A3) : Statement (.imadw x) := ofFull rfl rfl
theorem iaddc (x : A2) (cin cout : BitVec 3) : Statement (.iaddc x cin cout) := ofFull rfl rfl
theorem isubb (x : A2) (cin cout : BitVec 3) : Statement (.isubb x cin cout) := ofFull rfl rfl
theorem imin (x : A2) (u : Bool) : Statement (.imin x u) := ofFull rfl rfl
theorem imax (x : A2) (u : Bool) : Statement (.imax x u) := ofFull rfl rfl
theorem iabs (x : A1) (sat : Bool) : Statement (.iabs x sat) := ofFull rfl rfl
theorem ineg (x : A1) (sat : Bool) : Statement (.ineg x sat) := ofFull rfl rfl
theorem isad (x : A3) : Statement (.isad x) := ofFull rfl rfl
theorem idot4 (x : A3) (sat : Bool) : Statement (.idot4 x sat) := ofFull rfl rfl
theorem lea (x : A2) (sh : BitVec 5) (u : Bool) : Statement (.lea x sh u) := ofFull rfl rfl
theorem iadd64 (x : A2) (sat : Bool) : Statement (.iadd64 x sat) := ofFull rfl rfl
theorem isub64 (x : A2) (sat : Bool) : Statement (.isub64 x sat) := ofFull rfl rfl
theorem icmp (x : ACmp) : Statement (.icmp x) := ofFull rfl rfl
theorem isel (x : A2) (ps : BitVec 3) (ns : Bool) : Statement (.isel x ps ns) := ofFull rfl rfl
theorem and (x : A2) : Statement (.and x) := ofFull rfl rfl
theorem or (x : A2) : Statement (.or x) := ofFull rfl rfl
theorem xor (x : A2) : Statement (.xor x) := ofFull rfl rfl
theorem andn (x : A2) : Statement (.andn x) := ofFull rfl rfl
theorem not (x : A1) : Statement (.not x) := ofFull rfl rfl
theorem bool3 (hd : Hdr) (d a b c : Operand) (tt : BitVec 8) : Statement (.bool3 hd d a b c tt) := ofFull rfl rfl
theorem shl (x : A2) : Statement (.shl x) := ofFull rfl rfl
theorem shr (x : A2) : Statement (.shr x) := ofFull rfl rfl
theorem sar (x : A2) : Statement (.sar x) := ofFull rfl rfl
theorem rotl (x : A2) : Statement (.rotl x) := ofFull rfl rfl
theorem funnel (x : A3) : Statement (.funnel x) := ofFull rfl rfl
theorem bfx (x : A2) (sx : Bool) : Statement (.bfx x sx) := ofFull rfl rfl
theorem bfi (x : A3) : Statement (.bfi x) := ofFull rfl rfl
theorem popc (x : A1) : Statement (.popc x) := ofFull rfl rfl
theorem clz (x : A1) : Statement (.clz x) := ofFull rfl rfl
theorem ctz (x : A1) : Statement (.ctz x) := ofFull rfl rfl
theorem brev (x : A1) : Statement (.brev x) := ofFull rfl rfl
theorem byteperm (x : A3) : Statement (.byteperm x) := ofFull rfl rfl
theorem pset (hd : Hdr) (pd pa : BitVec 3) (na : Bool) (pb : BitVec 3) (nb : Bool) (op : BitVec 2) : Statement (.pset hd pd pa na pb nb op) := ofFull rfl rfl
theorem pmovGet (hd : Hdr) (d : Operand) : Statement (.pmovGet hd d) := ofFull rfl rfl
theorem pmovSet (hd : Hdr) (a : Operand) (ha : Bool) : Statement (.pmovSet hd a ha) := ofFull rfl rfl
theorem movi (hd : Hdr) (d : Operand) (imm : BitVec 27) : Statement (.movi hd d imm) := ofFull rfl rfl
theorem movhi (hd : Hdr) (d : Operand) (imm : BitVec 27) : Statement (.movhi hd d imm) := ofFull rfl rfl
theorem iaddi (x : Imm) : Statement (.iaddi x) := ofFull rfl rfl
theorem imuli (x : Imm) : Statement (.imuli x) := ofFull rfl rfl
theorem andi (x : Imm) : Statement (.andi x) := ofFull rfl rfl
theorem ori (x : Imm) : Statement (.ori x) := ofFull rfl rfl
theorem xori (x : Imm) : Statement (.xori x) := ofFull rfl rfl
theorem shli (x : Imm) : Statement (.shli x) := ofFull rfl rfl
theorem shri (x : Imm) : Statement (.shri x) := ofFull rfl rfl
theorem sari (x : Imm) : Statement (.sari x) := ofFull rfl rfl
theorem icmpi (hd : Hdr) (a : Operand) (cc : BitVec 4) (pd : BitVec 3) (imm : BitVec 20) : Statement (.icmpi hd a cc pd imm) := ofFull rfl rfl
theorem leai (x : Imm) : Statement (.leai x) := ofFull rfl rfl
theorem fadd (x : A2) (rnd : BitVec 3) (sat : Bool) (sm : BitVec 2) : Statement (.fadd x rnd sat sm) := ofFull rfl rfl
theorem fsub (x : A2) (rnd : BitVec 3) (sat : Bool) (sm : BitVec 2) : Statement (.fsub x rnd sat sm) := ofFull rfl rfl
theorem fmul (x : A2) (rnd : BitVec 3) (sat : Bool) (sm : BitVec 2) : Statement (.fmul x rnd sat sm) := ofFull rfl rfl
theorem ffma (x : A3) (rnd : BitVec 3) (sat : Bool) (sm : BitVec 2) : Statement (.ffma x rnd sat sm) := ofFull rfl rfl
theorem fmin (x : A2) (sm : BitVec 2) : Statement (.fmin x sm) := ofFull rfl rfl
theorem fmax (x : A2) (sm : BitVec 2) : Statement (.fmax x sm) := ofFull rfl rfl
theorem fcmp (x : ACmp) (sm : BitVec 2) : Statement (.fcmp x sm) := ofFull rfl rfl
theorem fclass (x : A1) (sm : BitVec 2) : Statement (.fclass x sm) := ofFull rfl rfl
theorem frcp (x : A1) (rnd : BitVec 3) (sat : Bool) (sm : BitVec 2) : Statement (.frcp x rnd sat sm) := ofFull rfl rfl
theorem frsq (x : A1) (sm : BitVec 2) : Statement (.frsq x sm) := ofFull rfl rfl
theorem fsqrt (x : A1) (rnd : BitVec 3) (sm : BitVec 2) : Statement (.fsqrt x rnd sm) := ofFull rfl rfl
theorem fex2 (x : A1) (sat : Bool) (sm : BitVec 2) : Statement (.fex2 x sat sm) := ofFull rfl rfl
theorem flg2 (x : A1) (sm : BitVec 2) : Statement (.flg2 x sm) := ofFull rfl rfl
theorem fsin (x : A1) (sm : BitVec 2) : Statement (.fsin x sm) := ofFull rfl rfl
theorem fcos (x : A1) (sm : BitVec 2) : Statement (.fcos x sm) := ofFull rfl rfl
theorem dadd (x : A2) (rnd : BitVec 3) (sat : Bool) (sm : BitVec 2) : Statement (.dadd x rnd sat sm) := ofFull rfl rfl
theorem dsub (x : A2) (rnd : BitVec 3) (sat : Bool) (sm : BitVec 2) : Statement (.dsub x rnd sat sm) := ofFull rfl rfl
theorem dmul (x : A2) (rnd : BitVec 3) (sat : Bool) (sm : BitVec 2) : Statement (.dmul x rnd sat sm) := ofFull rfl rfl
theorem dfma (x : A3) (rnd : BitVec 3) (sat : Bool) (sm : BitVec 2) : Statement (.dfma x rnd sat sm) := ofFull rfl rfl
theorem dmin (x : A2) (sm : BitVec 2) : Statement (.dmin x sm) := ofFull rfl rfl
theorem dmax (x : A2) (sm : BitVec 2) : Statement (.dmax x sm) := ofFull rfl rfl
theorem dcmp (x : ACmp) (sm : BitVec 2) : Statement (.dcmp x sm) := ofFull rfl rfl
theorem drcp (x : A1) (rnd : BitVec 3) (sat : Bool) (sm : BitVec 2) : Statement (.drcp x rnd sat sm) := ofFull rfl rfl
theorem add2h (x : A2) (rnd : BitVec 3) (sat : Bool) (sm : BitVec 2) : Statement (.add2h x rnd sat sm) := ofFull rfl rfl
theorem mul2h (x : A2) (rnd : BitVec 3) (sat : Bool) (sm : BitVec 2) : Statement (.mul2h x rnd sat sm) := ofFull rfl rfl
theorem fma2h (x : A3) (rnd : BitVec 3) (sat : Bool) (sm : BitVec 2) : Statement (.fma2h x rnd sat sm) := ofFull rfl rfl
theorem max2h (x : A2) (sm : BitVec 2) : Statement (.max2h x sm) := ofFull rfl rfl
theorem add2b (x : A2) (rnd : BitVec 3) (sat : Bool) (sm : BitVec 2) : Statement (.add2b x rnd sat sm) := ofFull rfl rfl
theorem mul2b (x : A2) (rnd : BitVec 3) (sat : Bool) (sm : BitVec 2) : Statement (.mul2b x rnd sat sm) := ofFull rfl rfl
theorem fma2b (x : A3) (rnd : BitVec 3) (sat : Bool) (sm : BitVec 2) : Statement (.fma2b x rnd sat sm) := ofFull rfl rfl
theorem max2b (x : A2) (sm : BitVec 2) : Statement (.max2b x sm) := ofFull rfl rfl
theorem cvt (x : A1) (dst src : BitVec 4) (rnd : BitVec 3) (sat : Bool) (sm : BitVec 2) : Statement (.cvt x dst src rnd sat sm) := ofFull rfl rfl
theorem cvtbx (hd : Hdr) (d a c : Operand) (rnd : BitVec 3) (bx4 : Bool) (sm : BitVec 2) : Statement (.cvtbx hd d a c rnd bx4 sm) := ofFull rfl rfl
theorem unpkbx (hd : Hdr) (d a c : Operand) (bx4 : Bool) : Statement (.unpkbx hd d a c bx4) := ofFull rfl rfl
theorem frnd (x : A1) (fmt : BitVec 4) (rnd : BitVec 3) (sm : BitVec 2) : Statement (.frnd x fmt rnd sm) := ofFull rfl rfl
theorem mov (x : A1) (b64 : Bool) : Statement (.mov x b64) := ofFull rfl rfl
theorem movk (hd : Hdr) (d a b : Operand) : Statement (.movk hd d a b) := ofFull rfl rfl
theorem lscan (x : A1) (op : BitVec 4) (excl : Bool) : Statement (.lscan x op excl) := ofFull rfl rfl
theorem lred (x : A1) (op : BitVec 4) : Statement (.lred x op) := ofFull rfl rfl
theorem lvote (hd : Hdr) (d : Operand) (mode : BitVec 2) (ns : Bool) (ps pd : BitVec 3) : Statement (.lvote hd d mode ns ps pd) := ofFull rfl rfl
theorem lbcast (hd : Hdr) (d a b : Operand) (ha b64 : Bool) : Statement (.lbcast hd d a b ha b64) := ofFull rfl rfl
theorem lfind (hd : Hdr) (d : Operand) (hi ns : Bool) (ps pd : BitVec 3) : Statement (.lfind hd d hi ns ps pd) := ofFull rfl rfl
theorem reservedEncodingTrap (w : BadWord) : Statement (.reservedEncodingTrap w) := ofNone rfl
theorem bra (hd : Hdr) (imm : BitVec 27) : Statement (.bra hd imm) := ofFull rfl rfl
theorem brx (hd : Hdr) (a : Operand) : Statement (.brx hd a) := ofFull rfl rfl
theorem call (hd : Hdr) (imm : BitVec 27) : Statement (.call hd imm) := ofFull rfl rfl
theorem callx (hd : Hdr) (a : Operand) : Statement (.callx hd a) := ofFull rfl rfl
theorem ret (hd : Hdr) : Statement (.ret hd) := ofFull rfl rfl
theorem rcb (hd : Hdr) (slot : BitVec 3) (imm : BitVec 27) : Statement (.rcb hd slot imm) := ofFull rfl rfl
theorem rcw (hd : Hdr) (slot : BitVec 3) : Statement (.rcw hd slot) := ofFull rfl rfl
theorem exit (hd : Hdr) : Statement (.exit hd) := ofFull rfl rfl
theorem yield (hd : Hdr) : Statement (.yield hd) := ofFull rfl rfl
theorem nop (hd : Hdr) : Statement (.nop hd) := ofFull rfl rfl
theorem brk (hd : Hdr) (code : BitVec 6) : Statement (.brk hd code) := ofFull rfl rfl
theorem trap (hd : Hdr) (code : BitVec 6) : Statement (.trap hd code) := ofFull rfl rfl
theorem tret (hd : Hdr) : Statement (.tret hd) := ofFull rfl rfl
theorem tretSkip (hd : Hdr) : Statement (.tretSkip hd) := ofFull rfl rfl
theorem ld (m : Mem) : Statement (.ld m) := ofFull rfl rfl
theorem st (m : Mem) : Statement (.st m) := ofFull rfl rfl
theorem ldu (m : Mem) : Statement (.ldu m) := ofFull rfl rfl
theorem stu (m : Mem) : Statement (.stu m) := ofFull rfl rfl
theorem pref (m : Mem) : Statement (.pref m) := ofFull rfl rfl
theorem fence (m : Mem) : Statement (.fence m) := ofFull rfl rfl
theorem cflush (m : Mem) : Statement (.cflush m) := ofFull rfl rfl
theorem waddr (m : Mem) : Statement (.waddr m) := ofFull rfl rfl
theorem atom (x : Atom) : Statement (.atom x) := ofFull rfl rfl
theorem atomcas (x : Atom) : Statement (.atomcas x) := ofFull rfl rfl
theorem red (x : Atom) : Statement (.red x) := ofFull rfl rfl
theorem cpy (hd : Hdr) (tl : BitVec 3) (d a : Operand) (width : BitVec 2) : Statement (.cpy hd tl d a width) := ofFull rfl rfl
theorem cpyt (x : Tile) : Statement (.cpyt x) := ofFull rfl rfl
theorem cpyr (hd : Hdr) (tl : BitVec 3) (h : BitVec 8) (a : Operand) (dir : Bool) (op : BitVec 3) : Statement (.cpyr hd tl h a dir op) := ofFull rfl rfl
theorem cpyn (x : Tile) : Statement (.cpyn x) := ofFull rfl rfl
theorem cpyg (x : Tile) : Statement (.cpyg x) := ofFull rfl rfl
theorem cminit (hd : Hdr) (slot : BitVec 4) (a b : Operand) : Statement (.cminit hd slot a b) := ofFull rfl rfl
theorem cmtest (hd : Hdr) (d : Operand) (slot : BitVec 4) (a b : Operand) (scope : Scope) : Statement (.cmtest hd d slot a b scope) := ofFull rfl rfl
theorem cmwait (hd : Hdr) (slot : BitVec 4) (a b : Operand) (scope : Scope) : Statement (.cmwait hd slot a b scope) := ofFull rfl rfl
theorem tlwait (hd : Hdr) (tl : BitVec 3) (a : Operand) (scope : Scope) : Statement (.tlwait hd tl a scope) := ofFull rfl rfl
theorem tlread (hd : Hdr) (d : Operand) (tl : BitVec 3) (sel : BitVec 2) (clr : Bool) : Statement (.tlread hd d tl sel clr) := ofFull rfl rfl
theorem seqend (hd : Hdr) : Statement (.seqend hd) := ofFull rfl rfl
theorem mldw (x : MOp) : Statement (.mldw x) := ofFull rfl rfl
theorem mswap (hd : Hdr) (bar : BitVec 4) (arr : Bool) : Statement (.mswap hd bar arr) := ofFull rfl rfl
theorem mstrm (x : MOp) (tile : BitVec 3) (clr : Bool) : Statement (.mstrm x tile clr) := ofFull rfl rfl
theorem mldt (x : MOp) : Statement (.mldt x) := ofFull rfl rfl
theorem mldtAcc (x : MOp) (tile : BitVec 3) : Statement (.mldtAcc x tile) := ofFull rfl rfl
theorem maclr (hd : Hdr) (mask : BitVec 8) (bar : BitVec 4) (arr : Bool) : Statement (.maclr hd mask bar arr) := ofFull rfl rfl
theorem macld (x : MOp) (tile : BitVec 3) : Statement (.macld x tile) := ofFull rfl rfl
theorem macst (x : MOp) (tile : BitVec 3) : Statement (.macst x tile) := ofFull rfl rfl
theorem mvcnt (hd : Hdr) (a : Operand) : Statement (.mvcnt hd a) := ofFull rfl rfl
theorem mloop (hd : Hdr) (d : Operand) (off : BitVec 18) : Statement (.mloop hd d off) := ofFull rfl rfl
theorem mmode (hd : Hdr) (fmt : BitVec 3) : Statement (.mmode hd fmt) := ofFull rfl rfl
theorem fork (hd : Hdr) (a b : Operand) : Statement (.fork hd a b) := ofFull rfl rfl
theorem rdv (hd : Hdr) : Statement (.rdv hd) := ofFull rfl rfl
theorem barinit (hd : Hdr) (bar : BitVec 4) (a : Operand) : Statement (.barinit hd bar a) := ofFull rfl rfl
theorem barrive (hd : Hdr) (d : Operand) (bar : BitVec 4) : Statement (.barrive hd d bar) := ofFull rfl rfl
theorem barwait (hd : Hdr) (bar : BitVec 4) (a : Operand) : Statement (.barwait hd bar a) := ofFull rfl rfl
theorem barstat (hd : Hdr) (d : Operand) (bar : BitVec 4) (sel : BitVec 2) : Statement (.barstat hd d bar sel) := ofFull rfl rfl
theorem tfetch (hd : Hdr) (d : Operand) (disp : BitVec 2) : Statement (.tfetch hd d disp) := ofFull rfl rfl
theorem wpush (hd : Hdr) (d a : Operand) : Statement (.wpush hd d a) := ofFull rfl rfl
theorem wpop (hd : Hdr) (d a : Operand) (p : BitVec 3) : Statement (.wpop hd d a p) := ofFull rfl rfl
theorem wdone (hd : Hdr) (a : Operand) : Statement (.wdone hd a) := ofFull rfl rfl
theorem cwait (hd : Hdr) (scope : Scope) : Statement (.cwait hd scope) := ofFull rfl rfl
theorem thset (hd : Hdr) (d : Operand) (h : BitVec 8) (a : Operand) : Statement (.thset hd d h a) := ofFull rfl rfl
theorem thget (hd : Hdr) (h : BitVec 8) (a : Operand) : Statement (.thget hd h a) := ofFull rfl rfl
theorem rcapmkReg (hd : Hdr) (d : Operand) (reg : BitVec 8) (n : BitVec 3) (a : Operand) (wr xp : Bool) : Statement (.rcapmkReg hd d reg n a wr xp) := ofFull rfl rfl
theorem rcapmkLand (hd : Hdr) (d : Operand) (e : BitVec 4) (a b : Operand) (wr xp : Bool) : Statement (.rcapmkLand hd d e a b wr xp) := ofFull rfl rfl
theorem rcapld (hd : Hdr) (slot : BitVec 4) (a : Operand) : Statement (.rcapld hd slot a) := ofFull rfl rfl
theorem rcaprevReg (hd : Hdr) : Statement (.rcaprevReg hd) := ofFull rfl rfl
theorem rcaprevLand (hd : Hdr) (e : BitVec 4) : Statement (.rcaprevLand hd e) := ofFull rfl rfl
theorem rwr (hd : Hdr) (a : Operand) (slot : BitVec 4) (tl : BitVec 3) (scope : Scope) (rel : Bool) (off : BitVec 3) (k : BitVec 3) : Statement (.rwr hd a slot tl scope rel off k) := ofFull rfl rfl
theorem rarm (hd : Hdr) (d : Operand) (k : BitVec 3) : Statement (.rarm hd d k) := ofFull rfl rfl
theorem rpoll (hd : Hdr) (d a : Operand) (k : BitVec 3) (p : BitVec 3) : Statement (.rpoll hd d a k p) := ofFull rfl rfl
theorem phreg (x : Ph) (d a : Operand) (mode : BitVec 2) : Statement (.phreg x d a mode) := ofFull rfl rfl
theorem phdrop (x : Ph) : Statement (.phdrop x) := ofFull rfl rfl
theorem phsig (x : Ph) (d : Operand) (scope : Scope) : Statement (.phsig x d scope) := ofFull rfl rfl
theorem phsigb (x : Ph) (d : Operand) (tl : BitVec 3) (b : Operand) : Statement (.phsigb x d tl b) := ofFull rfl rfl
theorem phany (x : Ph) (d a : Operand) : Statement (.phany x d a) := ofFull rfl rfl
theorem phanyBind (x : Ph) (d a : Operand) (tl : BitVec 3) (b : Operand) : Statement (.phanyBind x d a tl b) := ofFull rfl rfl
theorem phwait (x : Ph) (a : Operand) (scope : Scope) : Statement (.phwait x a scope) := ofFull rfl rfl
theorem phtest (x : Ph) (d a : Operand) : Statement (.phtest x d a) := ofFull rfl rfl
theorem phwin (x : Ph) (d a : Operand) (scope : Scope) : Statement (.phwin x d a scope) := ofFull rfl rfl
theorem phtime (x : Ph) (a b : Operand) : Statement (.phtime x a b) := ofFull rfl rfl
theorem coll (hd : Hdr) (tl : BitVec 3) (h : BitVec 8) (a : Operand) : Statement (.coll hd tl h a) := ofFull rfl rfl
theorem collst (hd : Hdr) (d a : Operand) : Statement (.collst hd d a) := ofFull rfl rfl
theorem sread (hd : Hdr) (d a : Operand) : Statement (.sread hd d a) := ofFull rfl rfl
theorem sreadSys (hd : Hdr) (d : Operand) (n : BitVec 17) : Statement (.sreadSys hd d n) := ofFull rfl rfl
theorem swrite (hd : Hdr) (a b : Operand) : Statement (.swrite hd a b) := ofFull rfl rfl
theorem swriteSys (hd : Hdr) (n : BitVec 17) (b : Operand) : Statement (.swriteSys hd n b) := ofFull rfl rfl
theorem sethdl (hd : Hdr) (a : Operand) : Statement (.sethdl hd a) := ofFull rfl rfl
theorem estatLog (hd : Hdr) (d a : Operand) : Statement (.estatLog hd d a) := ofFull rfl rfl
theorem estatEq (hd : Hdr) (d : Operand) : Statement (.estatEq hd d) := ofFull rfl rfl
theorem pggen (hd : Hdr) (d a : Operand) : Statement (.pggen hd d a) := ofFull rfl rfl
theorem assistNext (hd : Hdr) (d : Operand) : Statement (.assistNext hd d) := ofFull rfl rfl
theorem assistGet (hd : Hdr) (d a : Operand) : Statement (.assistGet hd d a) := ofFull rfl rfl
theorem assistPut (hd : Hdr) (a b : Operand) : Statement (.assistPut hd a b) := ofFull rfl rfl
theorem assistDone (hd : Hdr) : Statement (.assistDone hd) := ofFull rfl rfl
theorem halt (hd : Hdr) : Statement (.halt hd) := ofFull rfl rfl
theorem haltStop (hd : Hdr) : Statement (.haltStop hd) := ofFull rfl rfl
theorem troupeEnd (ctx wg t : Nat) : Statement (.troupeEnd ctx wg t) := ofNone rfl
theorem waddrRelease (r : SubRef) : Statement (.waddrRelease r) := ofNone rfl
theorem longLatencyResult (r : SubRef) : Statement (.longLatencyResult r) := ofNone rfl
theorem dieApplyWrite (die : Nat) : Statement (.dieApplyWrite die) := ofNone rfl
theorem walkAheadTranslate (core : Nat) : Statement (.walkAheadTranslate core) := ofNone rfl
theorem cmwaitRelease (r : SubRef) : Statement (.cmwaitRelease r) := ofNone rfl
theorem tlwaitRelease (r : SubRef) : Statement (.tlwaitRelease r) := ofNone rfl
theorem sequencerIdle (ctx wg : Nat) (copy : Bool) : Statement (.sequencerIdle ctx wg copy) := ofNone rfl
theorem copyStart (core : Nat) : Statement (.copyStart core) := ofNone rfl
theorem chunkArrival (core : Nat) (i : Nat) : Statement (.chunkArrival core i) := ofNone rfl
theorem copyComplete (core : Nat) (i : Nat) : Statement (.copyComplete core i) := ofNone rfl
theorem arrayOpStart (core : Nat) : Statement (.arrayOpStart core) := ofNone rfl
theorem arrayOpComplete (core : Nat) : Statement (.arrayOpComplete core) := ofNone rfl
theorem arrayOwnershipChange (core : Nat) : Statement (.arrayOwnershipChange core) := ofNone rfl
theorem forkStart (r : SubRef) : Statement (.forkStart r) := ofNone rfl
theorem rdvRelease (r : SubRef) : Statement (.rdvRelease r) := ofNone rfl
theorem barwaitRelease (r : SubRef) : Statement (.barwaitRelease r) := ofNone rfl
theorem parentPush (ctx list : Nat) : Statement (.parentPush ctx list) := ofNone rfl
theorem cwaitRelease (r : SubRef) : Statement (.cwaitRelease r) := ofNone rfl
theorem poolEntryGrant (core queue : Nat) : Statement (.poolEntryGrant core queue) := ofNone rfl
theorem rwrDeliveryApply (i : Nat) : Statement (.rwrDeliveryApply i) := ofNone rfl
theorem rwrAnswer (i : Nat) : Statement (.rwrAnswer i) := ofNone rfl
theorem phwaitRelease (r : SubRef) : Statement (.phwaitRelease r) := ofNone rfl
theorem coreEventWake (core : Nat) (e : CoreEvent) : Statement (.coreEventWake core e) := ofNone rfl
theorem tcmpTimerEvent (core : Nat) : Statement (.tcmpTimerEvent core) := ofNone rfl
theorem throttleEpochEnd (core : Nat) : Statement (.throttleEpochEnd core) := ofNone rfl
theorem routingModeSwitch (die : Nat) : Statement (.routingModeSwitch die) := ofNone rfl
theorem carouselHop (cluster i : Nat) : Statement (.carouselHop cluster i) := ofNone rfl
theorem carouselEject (cluster stop : Nat) : Statement (.carouselEject cluster stop) := ofNone rfl
theorem sliceForward (i : Nat) : Statement (.sliceForward i) := ofNone rfl
theorem ackSend (src : Nat) (tc : StreamClass) : Statement (.ackSend src tc) := ofNone rfl
theorem packageRelease (name : PhName) : Statement (.packageRelease name) := ofNone rfl
theorem boundSignalRelease (die i : Nat) : Statement (.boundSignalRelease die i) := ofNone rfl
theorem curtainQuiescent (ctx : Nat) : Statement (.curtainQuiescent ctx) := ofNone rfl
theorem launchStart (q : Nat) : Statement (.launchStart q) := ofNone rfl
theorem waitConditionMet (q : Nat) : Statement (.waitConditionMet q) := ofNone rfl
theorem cmdNop (q : Nat) : Statement (.cmdNop q) := ofNone rfl
theorem cmdLaunch (q : Nat) : Statement (.cmdLaunch q) := ofNone rfl
theorem cmdWait (q : Nat) : Statement (.cmdWait q) := ofNone rfl
theorem cmdSignal (q : Nat) : Statement (.cmdSignal q) := ofNone rfl
theorem cmdBadType (q : Nat) : Statement (.cmdBadType q) := ofNone rfl
theorem workgroupPlace (ctx wg : Nat) : Statement (.workgroupPlace ctx wg) := ofNone rfl
theorem workgroupEnd (ctx wg : Nat) : Statement (.workgroupEnd ctx wg) := ofNone rfl
theorem launchEnd (ctx : Nat) : Statement (.launchEnd ctx) := ofNone rfl
theorem preemptCohort (ctx cohort : Nat) : Statement (.preemptCohort ctx cohort) := ofNone rfl
theorem resumeCohort (ctx cohort : Nat) (cores : List Nat) : Statement (.resumeCohort ctx cohort cores) := ofNone rfl
theorem pageHomeMove (unit : Nat) : Statement (.pageHomeMove unit) := ofNone rfl
theorem collectiveComplete (ctx num : Nat) : Statement (.collectiveComplete ctx num) := ofNone rfl
theorem matrixColumnSpare (core : Nat) : Statement (.matrixColumnSpare core) := ofNone rfl
theorem controlCoreRestart (cluster : Nat) : Statement (.controlCoreRestart cluster) := ofNone rfl
theorem firmwareCoreRestart (die : Nat) : Statement (.firmwareCoreRestart die) := ofNone rfl
theorem linkLossReplay (port plane : Nat) : Statement (.linkLossReplay port plane) := ofNone rfl
theorem trainingAttemptEnd (port : Nat) (digest : Word) (locked : BitVec 4) (verified : Bool) : Statement (.trainingAttemptEnd port digest locked verified) := ofNone rfl
theorem rootNodeCycle (name : PhName) : Statement (.rootNodeCycle name) := ofNone rfl
theorem bankGrant (core bank : Nat) : Statement (.bankGrant core bank) := ofNone rfl
theorem memoryRequestAtHome (q : HomeReq) : Statement (.memoryRequestAtHome q) := ofNone rfl
theorem translationWalk (core asid : Nat) (va : DWord) (kind : Access) : Statement (.translationWalk core asid va kind) := ofNone rfl
theorem tcmpWrite (core : Nat) (value : DWord) : Statement (.tcmpWrite core value) := ofNone rfl
theorem nocWindowEnd (die : Nat) (counts : List (List Nat)) : Statement (.nocWindowEnd die counts) := ofNone rfl
theorem packetLdreq (p : Packet) : Statement (.packetLdreq p) := ofNone rfl
theorem packetLdrsp (p : Packet) : Statement (.packetLdrsp p) := ofNone rfl
theorem packetWrite (p : Packet) : Statement (.packetWrite p) := ofNone rfl
theorem packetAtom (p : Packet) : Statement (.packetAtom p) := ofNone rfl
theorem packetAtomrsp (p : Packet) : Statement (.packetAtomrsp p) := ofNone rfl
theorem packetRegwr (p : Packet) : Statement (.packetRegwr p) := ofNone rfl
theorem packetRegans (p : Packet) : Statement (.packetRegans p) := ofNone rfl
theorem packetCopy (p : Packet) : Statement (.packetCopy p) := ofNone rfl
theorem packetCollect (p : Packet) : Statement (.packetCollect p) := ofNone rfl
theorem packetMcast (p : Packet) : Statement (.packetMcast p) := ofNone rfl
theorem packetAck (p : Packet) : Statement (.packetAck p) := ofNone rfl
theorem packetDowndraft (p : Packet) : Statement (.packetDowndraft p) := ofNone rfl
theorem packetReserved (h : BitVec 512) : Statement (.packetReserved h) := ofNone rfl
theorem rateRecovery (dst : Nat) : Statement (.rateRecovery dst) := ofNone rfl
theorem e2eTimeoutReplay (dst : Nat) (tc : BitVec 2) (seq : BitVec 16) (plane : Nat) : Statement (.e2eTimeoutReplay dst tc seq plane) := ofNone rfl
theorem planeExclusionExpire (dst plane : Nat) : Statement (.planeExclusionExpire dst plane) := ofNone rfl
theorem streamClose (dst : Nat) (tc : BitVec 2) : Statement (.streamClose dst tc) := ofNone rfl
theorem linkFlitFail (port : Nat) : Statement (.linkFlitFail port) := ofNone rfl
theorem linkReplay (port : Nat) (flit : Moment) : Statement (.linkReplay port flit) := ofNone rfl
theorem linkFlitAck (port : Nat) : Statement (.linkFlitAck port) := ofNone rfl
theorem laneLockLoss (port : Nat) (lane : Moment) : Statement (.laneLockLoss port lane) := ofNone rfl
theorem plannedWidthChange (port : WidthChange) : Statement (.plannedWidthChange port) := ofNone rfl
theorem portctlEn (port : Nat) (en : Bool) : Statement (.portctlEn port en) := ofNone rfl
theorem portctlReset (port : Nat) : Statement (.portctlReset port) := ofNone rfl
theorem portctlPwidth (port : Nat) (w : BitVec 2) : Statement (.portctlPwidth port w) := ofNone rfl
theorem tetherCountMessage (node child : Nat) (m : TetherMsg) : Statement (.tetherCountMessage node child m) := ofNone rfl
theorem releaseReceipt (m : Release) : Statement (.releaseReceipt m) := ofNone rfl
theorem tetherPortFailover : Statement .tetherPortFailover := ofNone rfl
theorem tethcfgActiveWrite (port : Bool) : Statement (.tethcfgActiveWrite port) := ofNone rfl
theorem leafRootFailover (loss : RootLoss) : Statement (.leafRootFailover loss) := ofNone rfl
theorem rootlost (name : PhName) : Statement (.rootlost name) := ofNone rfl
theorem timeSyncExchange (parent : DWord) (skew : Skew) : Statement (.timeSyncExchange parent skew) := ofNone rfl
theorem phdescCreate (value : Word) : Statement (.phdescCreate value) := ofNone rfl
theorem phdescDestroy (value : Word) : Statement (.phdescDestroy value) := ofNone rfl
theorem qtailWrite (q : QueueAccess) (tail : Word) : Statement (.qtailWrite q tail) := ofNone rfl
theorem qstatSkip (q : QueueAccess) : Statement (.qstatSkip q) := ofNone rfl
theorem ctxctlPreempt (ctx : Nat) : Statement (.ctxctlPreempt ctx) := ofNone rfl
theorem ctxctlEnd (ctx : Nat) : Statement (.ctxctlEnd ctx) := ofNone rfl
theorem pfqdoneRetry (id : Word) : Statement (.pfqdoneRetry id) := ofNone rfl
theorem pfqdoneDecline (id : Word) : Statement (.pfqdoneDecline id) := ofNone rfl
theorem migfreePush (die : Nat) (frame : DWord) : Statement (.migfreePush die frame) := ofNone rfl
theorem migpinPin (unit : Nat) : Statement (.migpinPin unit) := ofNone rfl
theorem migpinUnpin (unit : Nat) : Statement (.migpinUnpin unit) := ofNone rfl
theorem migrationEpochEnd (unit : Nat) : Statement (.migrationEpochEnd unit) := ofNone rfl
theorem collectiveLagTimeout (ctx num laggard : Nat) (counts : List Nat) : Statement (.collectiveLagTimeout ctx num laggard counts) := ofNone rfl
theorem correctedError (res : Resource) (die unit index : Nat) (time : Nat) : Statement (.correctedError res die unit index time) := ofNone rfl
theorem uncorrectableError (what : Struck) (time : Nat) : Statement (.uncorrectableError what time) := ofNone rfl
theorem coredis (core : Nat) : Statement (.coredis core) := ofNone rfl
theorem leaseRenewal (die : Renewal) : Statement (.leaseRenewal die) := ofNone rfl
theorem termProposal (die : Nat) : Statement (.termProposal die) := ofNone rfl
theorem voteRequest (die proposer : Nat) (term : Word) : Statement (.voteRequest die proposer term) := ofNone rfl
theorem ringmasterCommand (die : CommandPath) (term : Word) (reg : BitVec 17) (value : DWord) : Statement (.ringmasterCommand die term reg value) := ofNone rfl
theorem resetBoot (image : List Byte) : Statement (.resetBoot image) := ofNone rfl
theorem lccmd (cmd : List Byte) : Statement (.lccmd cmd) := ofNone rfl
theorem keyAllocate (asid key : Nat) : Statement (.keyAllocate asid key) := ofNone rfl
theorem keyErase (key : Nat) : Statement (.keyErase key) := ofNone rfl
theorem powerCeilingUpdate (us iest : Nat) (waiting : Bool) : Statement (.powerCeilingUpdate us iest waiting) := ofNone rfl
theorem thermalLimitEnter (die celsius : Nat) : Statement (.thermalLimitEnter die celsius) := ofNone rfl
theorem thermalLimitLift (die celsius : Nat) : Statement (.thermalLimitLift die celsius) := ofNone rfl
theorem mbQuote (fn : Nat) : Statement (.mbQuote fn) := ofNone rfl
theorem mbGetcert (fn : Nat) : Statement (.mbGetcert fn) := ofNone rfl
theorem mbPwrwr (fn : Nat) : Statement (.mbPwrwr fn) := ofNone rfl
theorem mbPwrrd (fn : Nat) : Statement (.mbPwrrd fn) := ofNone rfl
theorem mbLogrd (fn : Nat) : Statement (.mbLogrd fn) := ofNone rfl
theorem mbLccmd (fn : Nat) : Statement (.mbLccmd fn) := ofNone rfl
theorem mbImage (fn : Nat) (image : List Byte) : Statement (.mbImage fn image) := ofNone rfl
theorem mbHostasid (fn : Nat) : Statement (.mbHostasid fn) := ofNone rfl
theorem hostBar2Access (fn : Nat) (kind : Access) (addr : DWord) (data : List Byte) (width : Nat) : Statement (.hostBar2Access fn kind addr data width) := ofNone rfl
theorem registerWrite (n : BitVec 17) (unit : Nat) (value : DWord) : Statement (.registerWrite n unit value) := ofNone rfl
theorem mbBadcmd (fn : Nat) : Statement (.mbBadcmd fn) := ofNone rfl
theorem qcfgEnWrite (q : QueueAccess) (en : Bool) : Statement (.qcfgEnWrite q en) := ofNone rfl
theorem pfqheadWrite (head : Word) : Statement (.pfqheadWrite head) := ofNone rfl
theorem debugAgentResume (r : SubRef) (resume : Bool) : Statement (.debugAgentResume r resume) := ofNone rfl
theorem tdiStateChange (fn : Nat) (run : TdiState) : Statement (.tdiStateChange fn run) := ofNone rfl
theorem tetherPortLinkUp (link : TetherLink) : Statement (.tetherPortLinkUp link) := ofNone rfl
theorem tetherChildLoss (node child : Nat) : Statement (.tetherChildLoss node child) := ofNone rfl
theorem voteReceipt (die source : Nat) (term : Word) : Statement (.voteReceipt die source term) := ofNone rfl
theorem renewalAck (die source : Nat) (term : Word) : Statement (.renewalAck die source term) := ofNone rfl
theorem thrashHoldEnd (unit : Nat) : Statement (.thrashHoldEnd unit) := ofNone rfl
theorem pageRefill (ctx wg page : Nat) : Statement (.pageRefill ctx wg page) := ofNone rfl
theorem leaseExpiry (die : Nat) : Statement (.leaseExpiry die) := ofNone rfl

end Sys2Proof.Laws.Encoded
end

