-- ==== Sys2Proof/Tests/Slice0.lean ====
section
/-!
SUPPORT. Tests: words written out from the spec, terms that each check refuses, single steps with results worked out by hand from
the spec, and for every statement with hypotheses a concrete state and operands that meet them. The statement a witness belongs
to is named in it.
-/

open Sys2Proof Sys2Proof.Machine

namespace Sys2Proof.Tests

/-! ### Words written out from the spec's encodings -/

/-- The fields of a full-form word at their places (R48). -/
def word (op : BitVec 10) (la : BitVec 4) (guard : BitVec 3) (neg : BitVec 1) (d a b : BitVec 9) (f : BitVec 18) : DWord :=
  0#1 ++ op ++ la ++ guard ++ neg ++ d ++ a ++ b ++ f

/-- A word with lookahead 0 and guard `pa`. -/
def plain (op : BitVec 10) (d a b : BitVec 9) (f : BitVec 18) : DWord := word op 0 7 0 d a b f

/-- A class I word: a 27-bit immediate in place of B and F (R53). -/
def immWord (op : BitVec 10) (d a : BitVec 9) (imm : BitVec 27) : DWord := 0#1 ++ op ++ 0#4 ++ 7#3 ++ 0#1 ++ d ++ a ++ imm

/-- F of class A (R51): C, HA, HB, HC, RND, SAT, SM. -/
def fA (c : BitVec 9) (ha hb hc : BitVec 1) (rnd : BitVec 3) (sat : BitVec 1) (sm : BitVec 2) : BitVec 18 :=
  c ++ ha ++ hb ++ hc ++ rnd ++ sat ++ sm

/-- F of class M (R54): WIDTH, SX, ORDER, SCOPE, HINT, disp. -/
def fM (width : BitVec 3) (sx : BitVec 1) (order scope : BitVec 3) (hint : BitVec 2) (disp : BitVec 6) : BitVec 18 :=
  width ++ sx ++ order ++ scope ++ hint ++ disp

/-- F of group 9 (R55): WIDTH, zero, ORDER, SCOPE, OP, disp. -/
def f9 (width order scope : BitVec 3) (op disp : BitVec 4) : BitVec 18 := width ++ 0#1 ++ order ++ scope ++ op ++ disp

/-- F of class E (R56): H, N, X. -/
def fE (h : BitVec 8) (n : BitVec 4) (x : BitVec 6) : BitVec 18 := h ++ n ++ x

/-- The header of `plain`. -/
def pa : Hdr := ⟨0, 7, false⟩

theorem test_decode_manual_words :
    decode .troupe 32 0x0001c03008080000 = .ok (.iadd ⟨pa, .v 3, .v 1, .v 2, false, false⟩ false)
    ∧ decode .troupe 32 0x4005c07850190005 = .ok (.ld ⟨⟨2, 7, false⟩, .v 7, .k 10, .v 6, .b32, false, .rlx, .tr, .dflt, 5⟩)
    ∧ decode .troupe 32 0x8100608011024380 = .ok (.pairedWord ⟨.iadd, 0, 3, 4, 0⟩ ⟨.fmul, 0, 9, 14, 0⟩)
    ∧ decode .troupe 32 0x1861c080100c0809 = .ok (.ffma ⟨pa, .v 8, .v 2, .v 3, .v 4, false, false, false⟩ 1 false 1)
    ∧ decode .troupe 32 0x4801c06010211b01 = .ok (.atom ⟨pa, .v 6, .v 2, .v 8, .b32, .acqrel, .pk, 0, 1⟩)
    ∧ decode .troupe 32 0x6861c0004001c0d9 = .ok (.rwr pa (.v 8) 3 1 .pk true 0 3) := by decide

theorem test_decode_group0 :
    decode .troupe 32 (word 0x000 0 2 1 5 6 448 (fA 0 1 0 0 0 1 0)) = .ok (.iadd ⟨⟨0, 2, true⟩, .v 5, .v 6, .c 0, true, false⟩ true)
    ∧ decode .troupe 32 (plain 0x001 5 256 7 (fA 0 0 1 0 0 0 0)) = .ok (.isub ⟨pa, .v 5, .k 0, .v 7, false, true⟩ false)
    ∧ decode .troupe 32 (plain 0x002 5 6 7 0) = .ok (.imul ⟨pa, .v 5, .v 6, .v 7, false, false⟩)
    ∧ decode .troupe 32 (plain 0x003 5 6 7 (fA 1 0 0 0 0 0 0)) = .ok (.imulhi ⟨pa, .v 5, .v 6, .v 7, false, false⟩ true)
    ∧ decode .troupe 32 (plain 0x004 5 6 7 (fA 8 0 0 1 0 1 0)) = .ok (.imad ⟨pa, .v 5, .v 6, .v 7, .v 8, false, false, true⟩ true)
    ∧ decode .troupe 32 (plain 0x005 4 6 7 (fA 258 0 0 0 0 0 0)) = .ok (.imadw ⟨pa, .v 4, .v 6, .v 7, .k 2, false, false, false⟩)
    ∧ decode .troupe 32 (plain 0x006 5 6 7 (fA (1#3 ++ 0#3 ++ 2#3) 0 0 0 0 0 0)) = .ok (.iaddc ⟨pa, .v 5, .v 6, .v 7, false, false⟩ 1 2)
    ∧ decode .troupe 32 (plain 0x007 5 6 7 (fA (7#3 ++ 0#3 ++ 3#3) 0 0 0 0 0 0)) = .ok (.isubb ⟨pa, .v 5, .v 6, .v 7, false, false⟩ 7 3)
    ∧ decode .troupe 32 (plain 0x008 5 6 7 (fA 1 0 0 0 0 0 0)) = .ok (.imin ⟨pa, .v 5, .v 6, .v 7, false, false⟩ true)
    ∧ decode .troupe 32 (plain 0x009 5 6 7 0) = .ok (.imax ⟨pa, .v 5, .v 6, .v 7, false, false⟩ false)
    ∧ decode .troupe 32 (plain 0x00a 5 6 0 (fA 0 0 0 0 0 1 0)) = .ok (.iabs ⟨pa, .v 5, .v 6, false⟩ true)
    ∧ decode .troupe 32 (plain 0x00b 5 6 0 (fA 0 1 0 0 0 0 0)) = .ok (.ineg ⟨pa, .v 5, .v 6, true⟩ false)
    ∧ decode .troupe 32 (plain 0x00c 5 6 7 (fA 8 0 0 0 0 0 0)) = .ok (.isad ⟨pa, .v 5, .v 6, .v 7, .v 8, false, false, false⟩)
    ∧ decode .troupe 32 (plain 0x00d 5 6 7 (fA 8 0 0 0 0 1 0)) = .ok (.idot4 ⟨pa, .v 5, .v 6, .v 7, .v 8, false, false, false⟩ true)
    ∧ decode .troupe 32 (plain 0x00e 4 6 7 (fA (0#3 ++ 1#1 ++ 9#5) 0 0 0 0 0 0)) = .ok (.lea ⟨pa, .v 4, .v 6, .v 7, false, false⟩ 9 true)
    ∧ decode .troupe 32 (plain 0x00f 4 6 8 (fA 0 0 0 0 0 1 0)) = .ok (.iadd64 ⟨pa, .v 4, .v 6, .v 8, false, false⟩ true)
    ∧ decode .troupe 32 (plain 0x010 4 6 8 0) = .ok (.isub64 ⟨pa, .v 4, .v 6, .v 8, false, false⟩ false)
    ∧ decode .troupe 32 (plain 0x011 0 6 7 (0#6 ++ 4#3 ++ 0#3 ++ 9#4 ++ 0#2)) = .ok (.icmp ⟨pa, .v 6, .v 7, false, false, 4, 9⟩)
    ∧ decode .troupe 32 (plain 0x012 5 6 7 (fA (0#5 ++ 1#1 ++ 3#3) 0 0 0 0 0 0)) = .ok (.isel ⟨pa, .v 5, .v 6, .v 7, false, false⟩ 3 true) := by decide

theorem test_decode_group1 :
    decode .troupe 32 (plain 0x040 5 6 7 0) = .ok (.and ⟨pa, .v 5, .v 6, .v 7, false, false⟩)
    ∧ decode .troupe 32 (plain 0x041 5 6 7 0) = .ok (.or ⟨pa, .v 5, .v 6, .v 7, false, false⟩)
    ∧ decode .troupe 32 (plain 0x042 5 6 7 0) = .ok (.xor ⟨pa, .v 5, .v 6, .v 7, false, false⟩)
    ∧ decode .troupe 32 (plain 0x043 5 6 7 0) = .ok (.andn ⟨pa, .v 5, .v 6, .v 7, false, false⟩)
    ∧ decode .troupe 32 (plain 0x044 5 6 0 0) = .ok (.not ⟨pa, .v 5, .v 6, false⟩)
    ∧ decode .troupe 32 (plain 0x045 5 6 7 (8#9 ++ 0x96#8 ++ 0#1)) = .ok (.bool3 pa (.v 5) (.v 6) (.v 7) (.v 8) 0x96)
    ∧ decode .troupe 32 (plain 0x046 5 6 7 0) = .ok (.shl ⟨pa, .v 5, .v 6, .v 7, false, false⟩)
    ∧ decode .troupe 32 (plain 0x047 5 6 7 0) = .ok (.shr ⟨pa, .v 5, .v 6, .v 7, false, false⟩)
    ∧ decode .troupe 32 (plain 0x048 5 6 7 0) = .ok (.sar ⟨pa, .v 5, .v 6, .v 7, false, false⟩)
    ∧ decode .troupe 32 (plain 0x049 5 6 7 0) = .ok (.rotl ⟨pa, .v 5, .v 6, .v 7, false, false⟩)
    ∧ decode .troupe 32 (plain 0x04a 5 6 7 (fA 480 0 0 0 0 0 0)) = .ok (.funnel ⟨pa, .v 5, .v 6, .v 7, .c 32, false, false, false⟩)
    ∧ decode .troupe 32 (plain 0x04b 5 6 7 (fA 1 0 0 0 0 0 0)) = .ok (.bfx ⟨pa, .v 5, .v 6, .v 7, false, false⟩ true)
    ∧ decode .troupe 32 (plain 0x04c 5 6 7 (fA 8 0 0 0 0 0 0)) = .ok (.bfi ⟨pa, .v 5, .v 6, .v 7, .v 8, false, false, false⟩)
    ∧ decode .troupe 32 (plain 0x04d 5 6 0 0) = .ok (.popc ⟨pa, .v 5, .v 6, false⟩)
    ∧ decode .troupe 32 (plain 0x04e 5 6 0 0) = .ok (.clz ⟨pa, .v 5, .v 6, false⟩)
    ∧ decode .troupe 32 (plain 0x04f 5 6 0 0) = .ok (.ctz ⟨pa, .v 5, .v 6, false⟩)
    ∧ decode .troupe 32 (plain 0x050 5 6 0 0) = .ok (.brev ⟨pa, .v 5, .v 6, false⟩)
    ∧ decode .troupe 32 (plain 0x051 5 6 7 (fA 8 0 0 0 0 0 0)) = .ok (.byteperm ⟨pa, .v 5, .v 6, .v 7, .v 8, false, false, false⟩)
    ∧ decode .troupe 32 (plain 0x052 0 0 0 (1#3 ++ 1#1 ++ 0#2 ++ 2#3 ++ 0#3 ++ 3#3 ++ 0#1 ++ 3#2)) = .ok (.pset pa 2 1 true 3 false 3)
    ∧ decode .troupe 32 (plain 0x053 5 0 0 0) = .ok (.pmovGet pa (.v 5))
    ∧ decode .troupe 32 (plain 0x053 0 6 0 (fA 1 1 0 0 0 0 0)) = .ok (.pmovSet pa (.v 6) true) := by decide

theorem test_decode_group2 :
    decode .troupe 32 (immWord 0x080 5 0 0x7ffffff) = .ok (.movi pa (.v 5) 0x7ffffff)
    ∧ decode .troupe 32 (immWord 0x081 5 0 0xffff) = .ok (.movhi pa (.v 5) 0xffff)
    ∧ decode .troupe 32 (immWord 0x082 5 6 3) = .ok (.iaddi ⟨pa, .v 5, .v 6, 3⟩)
    ∧ decode .troupe 32 (immWord 0x083 5 6 3) = .ok (.imuli ⟨pa, .v 5, .v 6, 3⟩)
    ∧ decode .troupe 32 (immWord 0x084 5 6 3) = .ok (.andi ⟨pa, .v 5, .v 6, 3⟩)
    ∧ decode .troupe 32 (immWord 0x085 5 6 3) = .ok (.ori ⟨pa, .v 5, .v 6, 3⟩)
    ∧ decode .troupe 32 (immWord 0x086 5 6 3) = .ok (.xori ⟨pa, .v 5, .v 6, 3⟩)
    ∧ decode .troupe 32 (immWord 0x087 5 6 3) = .ok (.shli ⟨pa, .v 5, .v 6, 3⟩)
    ∧ decode .troupe 32 (immWord 0x088 5 6 3) = .ok (.shri ⟨pa, .v 5, .v 6, 3⟩)
    ∧ decode .troupe 32 (immWord 0x089 5 6 3) = .ok (.sari ⟨pa, .v 5, .v 6, 3⟩)
    ∧ decode .troupe 32 (immWord 0x08a 0 6 (7#4 ++ 2#3 ++ 0xfffff#20)) = .ok (.icmpi pa (.v 6) 7 2 0xfffff)
    ∧ decode .troupe 32 (immWord 0x08b 4 6 0x4000000) = .ok (.leai ⟨pa, .v 4, .v 6, 0x4000000⟩) := by decide

theorem test_decode_group3 :
    decode .troupe 32 (plain 0x0c0 5 6 7 (fA 0 0 0 0 1 1 1)) = .ok (.fadd ⟨pa, .v 5, .v 6, .v 7, false, false⟩ 1 true 1)
    ∧ decode .troupe 32 (plain 0x0c1 5 6 7 (fA 0 0 0 0 0 0 2)) = .ok (.fsub ⟨pa, .v 5, .v 6, .v 7, false, false⟩ 0 false 2)
    ∧ decode .troupe 32 (plain 0x0c2 5 6 7 (fA 0 0 0 0 3 0 3)) = .ok (.fmul ⟨pa, .v 5, .v 6, .v 7, false, false⟩ 3 false 3)
    ∧ decode .troupe 32 (plain 0x0c3 5 6 7 (fA 8 0 0 0 2 0 0)) = .ok (.ffma ⟨pa, .v 5, .v 6, .v 7, .v 8, false, false, false⟩ 2 false 0)
    ∧ decode .troupe 32 (plain 0x0c4 5 6 7 (fA 0 0 0 0 0 0 1)) = .ok (.fmin ⟨pa, .v 5, .v 6, .v 7, false, false⟩ 1)
    ∧ decode .troupe 32 (plain 0x0c5 5 6 7 0) = .ok (.fmax ⟨pa, .v 5, .v 6, .v 7, false, false⟩ 0)
    ∧ decode .troupe 32 (plain 0x0c6 0 6 7 (0#6 ++ 2#3 ++ 0#3 ++ 13#4 ++ 1#2)) = .ok (.fcmp ⟨pa, .v 6, .v 7, false, false, 2, 13⟩ 1)
    ∧ decode .troupe 32 (plain 0x0c7 5 6 0 0) = .ok (.fclass ⟨pa, .v 5, .v 6, false⟩ 0)
    ∧ decode .troupe 32 (word 0x0c8 3 7 0 5 6 0 (fA 0 0 0 0 1 1 0)) = .ok (.frcp ⟨⟨3, 7, false⟩, .v 5, .v 6, false⟩ 1 true 0)
    ∧ decode .troupe 32 (plain 0x0c9 5 6 0 0) = .ok (.frsq ⟨pa, .v 5, .v 6, false⟩ 0)
    ∧ decode .troupe 32 (plain 0x0ca 5 6 0 (fA 0 0 0 0 2 0 0)) = .ok (.fsqrt ⟨pa, .v 5, .v 6, false⟩ 2 0)
    ∧ decode .troupe 32 (plain 0x0cb 5 6 0 (fA 0 0 0 0 0 1 0)) = .ok (.fex2 ⟨pa, .v 5, .v 6, false⟩ true 0)
    ∧ decode .troupe 32 (plain 0x0cc 5 6 0 (fA 0 0 0 0 0 0 2)) = .ok (.flg2 ⟨pa, .v 5, .v 6, false⟩ 2)
    ∧ decode .troupe 32 (plain 0x0cd 5 6 0 0) = .ok (.fsin ⟨pa, .v 5, .v 6, false⟩ 0)
    ∧ decode .troupe 32 (plain 0x0ce 5 6 0 (fA 0 1 0 0 0 0 0)) = .ok (.fcos ⟨pa, .v 5, .v 6, true⟩ 0) := by decide

theorem test_decode_group4 :
    decode .troupe 32 (word 0x100 15 7 0 4 6 8 (fA 0 0 0 0 1 1 1)) = .ok (.dadd ⟨⟨15, 7, false⟩, .v 4, .v 6, .v 8, false, false⟩ 1 true 1)
    ∧ decode .troupe 32 (plain 0x101 4 6 8 0) = .ok (.dsub ⟨pa, .v 4, .v 6, .v 8, false, false⟩ 0 false 0)
    ∧ decode .troupe 32 (plain 0x102 4 6 8 0) = .ok (.dmul ⟨pa, .v 4, .v 6, .v 8, false, false⟩ 0 false 0)
    ∧ decode .troupe 32 (plain 0x103 4 6 8 (fA 10 0 0 0 0 0 0)) = .ok (.dfma ⟨pa, .v 4, .v 6, .v 8, .v 10, false, false, false⟩ 0 false 0)
    ∧ decode .troupe 32 (plain 0x104 4 6 8 0) = .ok (.dmin ⟨pa, .v 4, .v 6, .v 8, false, false⟩ 0)
    ∧ decode .troupe 32 (plain 0x105 4 6 8 0) = .ok (.dmax ⟨pa, .v 4, .v 6, .v 8, false, false⟩ 0)
    ∧ decode .troupe 32 (plain 0x106 0 6 8 (0#6 ++ 0#3 ++ 0#3 ++ 2#4 ++ 0#2)) = .ok (.dcmp ⟨pa, .v 6, .v 8, false, false, 0, 2⟩ 0)
    ∧ decode .troupe 32 (plain 0x107 4 6 0 (fA 0 0 0 0 1 0 0)) = .ok (.drcp ⟨pa, .v 4, .v 6, false⟩ 1 false 0)
    ∧ decode .troupe 32 (plain 0x108 5 6 7 0) = .ok (.add2h ⟨pa, .v 5, .v 6, .v 7, false, false⟩ 0 false 0)
    ∧ decode .troupe 32 (plain 0x109 5 6 7 0) = .ok (.mul2h ⟨pa, .v 5, .v 6, .v 7, false, false⟩ 0 false 0)
    ∧ decode .troupe 32 (plain 0x10a 5 6 7 (fA 8 0 0 0 0 0 0)) = .ok (.fma2h ⟨pa, .v 5, .v 6, .v 7, .v 8, false, false, false⟩ 0 false 0)
    ∧ decode .troupe 32 (plain 0x10b 5 6 7 0) = .ok (.max2h ⟨pa, .v 5, .v 6, .v 7, false, false⟩ 0)
    ∧ decode .troupe 32 (plain 0x10c 5 6 7 0) = .ok (.add2b ⟨pa, .v 5, .v 6, .v 7, false, false⟩ 0 false 0)
    ∧ decode .troupe 32 (plain 0x10d 5 6 7 0) = .ok (.mul2b ⟨pa, .v 5, .v 6, .v 7, false, false⟩ 0 false 0)
    ∧ decode .troupe 32 (plain 0x10e 5 6 7 (fA 8 0 0 0 0 0 0)) = .ok (.fma2b ⟨pa, .v 5, .v 6, .v 7, .v 8, false, false, false⟩ 0 false 0)
    ∧ decode .troupe 32 (plain 0x10f 5 6 7 0) = .ok (.max2b ⟨pa, .v 5, .v 6, .v 7, false, false⟩ 0) := by decide

theorem test_decode_group5_6 :
    decode .troupe 32 (plain 0x140 5 6 0 (1#4 ++ 2#4 ++ 0#1 ++ 0#3 ++ 0#3 ++ 0#1 ++ 1#2)) = .ok (.cvt ⟨pa, .v 5, .v 6, false⟩ 1 2 0 false 1)
    ∧ decode .troupe 32 (plain 0x141 5 6 0 (258#9 ++ 0#3 ++ 1#3 ++ 1#1 ++ 2#2)) = .ok (.cvtbx pa (.v 5) (.v 6) (.k 2) 1 true 2)
    ∧ decode .troupe 32 (plain 0x142 5 6 0 (8#9 ++ 0#3 ++ 0#3 ++ 0#1 ++ 0#2)) = .ok (.unpkbx pa (.v 5) (.v 6) (.v 8) false)
    ∧ decode .troupe 32 (plain 0x143 5 6 0 (1#4 ++ 0#5 ++ 0#3 ++ 2#3 ++ 0#1 ++ 1#2)) = .ok (.frnd ⟨pa, .v 5, .v 6, false⟩ 1 2 1)
    ∧ decode .troupe 32 (plain 0x144 4 6 0 (fA 1 0 0 0 0 0 0)) = .ok (.mov ⟨pa, .v 4, .v 6, false⟩ true)
    ∧ decode .troupe 32 (plain 0x145 259 6 7 0) = .ok (.movk pa (.k 3) (.v 6) (.v 7))
    ∧ decode .troupe 32 (word 0x180 1 7 0 5 6 0 (13#4 ++ 1#1 ++ 0#4 ++ 1#1 ++ 0#8)) = .ok (.lscan ⟨⟨1, 7, false⟩, .v 5, .v 6, true⟩ 13 true)
    ∧ decode .troupe 32 (plain 0x181 5 6 0 (9#4 ++ 0#14)) = .ok (.lred ⟨pa, .v 5, .v 6, false⟩ 9)
    ∧ decode .troupe 32 (plain 0x182 5 0 0 (3#2 ++ 1#1 ++ 2#3 ++ 7#3 ++ 0#9)) = .ok (.lvote pa (.v 5) 3 true 2 7)
    ∧ decode .troupe 32 (plain 0x183 4 6 7 (0#8 ++ 1#1 ++ 1#1 ++ 0#8)) = .ok (.lbcast pa (.v 4) (.v 6) (.v 7) true true)
    ∧ decode .troupe 32 (plain 0x184 5 0 0 (0#1 ++ 1#1 ++ 0#1 ++ 2#3 ++ 3#3 ++ 0#9)) = .ok (.lfind pa (.v 5) true false 2 3) := by decide

theorem test_decode_group7 :
    decode .troupe 32 (immWord 0x1c0 0 0 0x7fffffe) = .ok (.bra pa 0x7fffffe)
    ∧ decode .troupe 32 (plain 0x1c1 0 6 0 0) = .ok (.brx pa (.v 6))
    ∧ decode .troupe 32 (immWord 0x1c2 0 0 9) = .ok (.call pa 9)
    ∧ decode .troupe 32 (plain 0x1c3 0 258 0 0) = .ok (.callx pa (.k 2))
    ∧ decode .troupe 32 (plain 0x1c4 0 0 0 0) = .ok (.ret pa)
    ∧ decode .troupe 32 (immWord 0x1c5 7 0 5) = .ok (.rcb pa 7 5)
    ∧ decode .troupe 32 (plain 0x1c6 0 0 0 (fE 0 7 0)) = .ok (.rcw pa 7)
    ∧ decode .troupe 32 (plain 0x1c7 0 0 0 0) = .ok (.exit pa)
    ∧ decode .troupe 32 (plain 0x1c8 0 0 0 0) = .ok (.yield pa)
    ∧ decode .troupe 32 (plain 0x1c9 0 0 0 0) = .ok (.nop pa)
    ∧ decode .troupe 32 (plain 0x1ca 0 0 0 (fE 0 0 63)) = .ok (.brk pa 63)
    ∧ decode .troupe 32 (plain 0x1cb 0 0 0 (fE 0 0 5)) = .ok (.trap pa 5)
    ∧ decode .troupe 32 (plain 0x1cc 0 0 0 0) = .ok (.tret pa)
    ∧ decode .troupe 32 (plain 0x1cc 0 0 0 (fE 0 0 1)) = .ok (.tretSkip pa) := by decide

theorem test_decode_group8_9 :
    decode .troupe 32 (plain 0x200 5 6 7 (fM 1 1 1 2 3 63)) = .ok (.ld ⟨pa, .v 5, .v 6, .v 7, .b16, true, .acq, .co, .nl1, 63⟩)
    ∧ decode .troupe 32 (plain 0x201 8 382 480 (fM 4 0 2 1 1 32)) = .ok (.st ⟨pa, .v 8, .k 126, .c 32, .b128, false, .rel, .wg, .strm, 32⟩)
    ∧ decode .troupe 32 (plain 0x202 260 262 480 (fM 3 0 4 4 0 1)) = .ok (.ldu ⟨pa, .k 4, .k 6, .c 32, .b64, false, .sc, .pd, .dflt, 1⟩)
    ∧ decode .troupe 32 (plain 0x203 261 262 257 (fM 0 0 0 3 0 1)) = .ok (.stu ⟨pa, .k 5, .k 6, .k 1, .b8, false, .rlx, .pk, .dflt, 1⟩)
    ∧ decode .troupe 32 (plain 0x204 0 6 7 (fM 0 0 0 0 2 9)) = .ok (.pref ⟨pa, .v 0, .v 6, .v 7, .b8, false, .rlx, .tr, .keep, 9⟩)
    ∧ decode .troupe 32 (plain 0x205 0 0 0 (fM 0 0 3 4 0 0)) = .ok (.fence ⟨pa, .v 0, .v 0, .v 0, .b8, false, .acqrel, .pd, .dflt, 0⟩)
    ∧ decode .troupe 32 (plain 0x206 0 6 480 (fM 0 0 0 4 0 9)) = .ok (.cflush ⟨pa, .v 0, .v 6, .c 32, .b8, false, .rlx, .pd, .dflt, 9⟩)
    ∧ decode .troupe 32 (word 0x207 2 7 0 5 6 480 (fM 2 1 1 2 0 0)) = .ok (.waddr ⟨⟨2, 7, false⟩, .v 5, .v 6, .c 32, .b32, true, .acq, .co, .dflt, 0⟩)
    ∧ decode .troupe 32 (plain 0x240 4 6 8 (f9 3 4 4 8 15)) = .ok (.atom ⟨pa, .v 4, .v 6, .v 8, .b64, .sc, .pd, 8, 15⟩)
    ∧ decode .troupe 32 (plain 0x241 5 6 7 (f9 2 0 0 0 1)) = .ok (.atomcas ⟨pa, .v 5, .v 6, .v 7, .b32, .rlx, .tr, 0, 1⟩)
    ∧ decode .troupe 32 (plain 0x242 0 6 7 (f9 2 2 3 11 1)) = .ok (.red ⟨pa, .v 0, .v 6, .v 7, .b32, .rel, .pk, 11, 1⟩) := by decide

theorem test_decode_group10 :
    decode .troupe 32 (plain 0x280 4 6 0 (fE 0 5 2)) = .ok (.cpy pa 5 (.v 4) (.v 6) 2)
    ∧ decode .troupe 32 (plain 0x281 0 260 0 (fE 9 2 (0#1 ++ 15#4 ++ 1#1))) = .ok (.cpyt ⟨pa, .k 4, 9, 2, true, 15⟩)
    ∧ decode .copy 32 (plain 0x282 0 260 0 (fE 9 2 (0#2 ++ 4#3 ++ 1#1))) = .ok (.cpyr pa 2 9 (.k 4) true 4)
    ∧ decode .copy 32 (plain 0x283 0 260 0 (fE 9 2 (0#1 ++ 1#4 ++ 0#1))) = .ok (.cpyn ⟨pa, .k 4, 9, 2, false, 1⟩)
    ∧ decode .copy 32 (plain 0x284 0 260 0 (fE 9 2 (0#1 ++ 2#4 ++ 1#1))) = .ok (.cpyg ⟨pa, .k 4, 9, 2, true, 2⟩)
    ∧ decode .troupe 32 (plain 0x285 0 262 263 (fE 0 15 0)) = .ok (.cminit pa 15 (.k 6) (.k 7))
    ∧ decode .troupe 32 (plain 0x286 5 262 480 (fE 0 15 2)) = .ok (.cmtest pa (.v 5) 15 (.k 6) (.c 32) .co)
    ∧ decode .troupe 32 (word 0x287 4 7 0 0 262 263 (fE 0 3 1)) = .ok (.cmwait ⟨4, 7, false⟩ 3 (.k 6) (.k 7) .wg)
    ∧ decode .matrix 32 (plain 0x288 0 258 0 (fE 0 7 4)) = .ok (.tlwait pa 7 (.k 2) .pd)
    ∧ decode .troupe 32 (plain 0x289 5 0 0 (fE 0 1 (0#3 ++ 1#1 ++ 2#2))) = .ok (.tlread pa (.v 5) 1 2 true)
    ∧ decode .copy 32 (plain 0x28a 0 0 0 0) = .ok (.seqend pa) := by decide

theorem test_decode_group11 :
    decode .matrix 32 (plain 0x2c0 0 257 0 (fE 9 5 32)) = .ok (.mldw ⟨pa, .k 1, 9, 5, true⟩)
    ∧ decode .matrix 32 (plain 0x2c1 0 0 0 (fE 0 5 32)) = .ok (.mswap pa 5 true)
    ∧ decode .matrix 32 (plain 0x2c2 0 480 0 (fE 9 0 (0#2 ++ 1#1 ++ 3#3))) = .ok (.mstrm ⟨pa, .c 32, 9, 0, false⟩ 3 true)
    ∧ decode .matrix 32 (plain 0x2c3 0 257 0 (fE 9 0 0)) = .ok (.mldt ⟨pa, .k 1, 9, 0, false⟩)
    ∧ decode .matrix 32 (plain 0x2c3 0 257 0 (fE 9 4 (1#1 ++ 1#1 ++ 0#1 ++ 6#3))) = .ok (.mldtAcc ⟨pa, .k 1, 9, 4, true⟩ 6)
    ∧ decode .matrix 32 (plain 0x2c4 0 0 0 (fE 0x81 0 0)) = .ok (.maclr pa 0x81 0 false)
    ∧ decode .matrix 32 (plain 0x2c5 0 257 0 (fE 9 0 2)) = .ok (.macld ⟨pa, .k 1, 9, 0, false⟩ 2)
    ∧ decode .matrix 32 (plain 0x2c6 0 257 0 (fE 9 0 7)) = .ok (.macst ⟨pa, .k 1, 9, 0, false⟩ 7)
    ∧ decode .matrix 32 (plain 0x2c7 0 257 0 0) = .ok (.mvcnt pa (.k 1))
    ∧ decode .matrix 32 (plain 0x2c8 259 0 0 0x3ffff) = .ok (.mloop pa (.k 3) 0x3ffff)
    ∧ decode .matrix 32 (plain 0x2c9 0 0 0 (fE 0 0 4)) = .ok (.mmode pa 4) := by decide

theorem test_decode_group12 :
    decode .troupe 32 (plain 0x300 0 258 260 0) = .ok (.fork pa (.k 2) (.k 4))
    ∧ decode .troupe 32 (plain 0x301 0 0 0 0) = .ok (.rdv pa)
    ∧ decode .troupe 32 (plain 0x302 0 481 0 (fE 0 15 0)) = .ok (.barinit pa 15 (.c 33))
    ∧ decode .copy 32 (plain 0x303 259 0 0 (fE 0 4 0)) = .ok (.barrive pa (.k 3) 4)
    ∧ decode .matrix 32 (plain 0x304 0 259 0 (fE 0 4 0)) = .ok (.barwait pa 4 (.k 3))
    ∧ decode .troupe 32 (plain 0x305 5 0 0 (fE 0 4 3)) = .ok (.barstat pa (.v 5) 4 3)
    ∧ decode .troupe 32 (plain 0x306 260 0 0 (fE 0 0 3)) = .ok (.tfetch pa (.k 4) 3)
    ∧ decode .troupe 32 (plain 0x307 8 6 0 0) = .ok (.wpush pa (.v 8) (.v 6))
    ∧ decode .troupe 32 (plain 0x308 16 257 0 (fE 0 0 7)) = .ok (.wpop pa (.v 16) (.k 1) 7)
    ∧ decode .troupe 32 (plain 0x309 0 6 0 0) = .ok (.wdone pa (.v 6))
    ∧ decode .troupe 32 (plain 0x30a 0 0 0 (fE 0 0 4)) = .ok (.cwait pa .pd)
    ∧ decode .troupe 32 (plain 0x30b 259 260 0 (fE 9 0 0)) = .ok (.thset pa (.k 3) 9 (.k 4))
    ∧ decode .troupe 32 (plain 0x30c 0 260 0 (fE 255 0 0)) = .ok (.thget pa 255 (.k 4)) := by decide

theorem test_decode_group13 :
    decode .troupe 32 (plain 0x340 260 480 0 (fE 8 7 3)) = .ok (.rcapmkReg pa (.k 4) 8 7 (.c 32) true true)
    ∧ decode .troupe 32 (plain 0x340 260 257 258 (fE 0 15 5)) = .ok (.rcapmkLand pa (.k 4) 15 (.k 1) (.k 2) true false)
    ∧ decode .troupe 32 (plain 0x341 0 260 0 (fE 0 9 0)) = .ok (.rcapld pa 9 (.k 4))
    ∧ decode .troupe 32 (plain 0x342 0 0 0 0) = .ok (.rcaprevReg pa)
    ∧ decode .troupe 32 (plain 0x342 0 0 0 (fE 0 9 4)) = .ok (.rcaprevLand pa 9)
    ∧ decode .troupe 32 (word 0x343 3 7 0 0 8 0 (4#3 ++ 0#1 ++ 0#1 ++ 5#3 ++ 2#4 ++ 7#3 ++ 6#3)) = .ok (.rwr ⟨3, 7, false⟩ (.v 8) 2 6 .pd false 5 7)
    ∧ decode .troupe 32 (plain 0x344 8 0 0 (fE 0 7 0)) = .ok (.rarm pa (.v 8) 7)
    ∧ decode .troupe 32 (plain 0x345 5 8 0 (fE 0 3 2)) = .ok (.rpoll pa (.v 5) (.v 8) 3 2) := by decide

theorem test_decode_group14 :
    decode .troupe 32 (plain 0x380 260 257 0 (fE 0 2 63)) = .ok (.phreg ⟨pa, 63⟩ (.k 4) (.k 1) 2)
    ∧ decode .troupe 32 (plain 0x381 0 0 0 (fE 0 0 5)) = .ok (.phdrop ⟨pa, 5⟩)
    ∧ decode .copy 32 (plain 0x382 259 0 0 (fE 0 3 5)) = .ok (.phsig ⟨pa, 5⟩ (.k 3) .pk)
    ∧ decode .copy 32 (plain 0x383 0 0 260 (fE 0 7 5)) = .ok (.phsigb ⟨pa, 5⟩ (.v 0) 7 (.k 4))
    ∧ decode .troupe 32 (plain 0x384 259 257 0 (fE 0 0 5)) = .ok (.phany ⟨pa, 5⟩ (.k 3) (.k 1))
    ∧ decode .troupe 32 (plain 0x384 259 257 260 (fE 1 2 5)) = .ok (.phanyBind ⟨pa, 5⟩ (.k 3) (.k 1) 2 (.k 4))
    ∧ decode .copy 32 (plain 0x385 0 257 0 (fE 0 4 5)) = .ok (.phwait ⟨pa, 5⟩ (.k 1) .pd)
    ∧ decode .troupe 32 (plain 0x386 5 257 0 (fE 0 0 5)) = .ok (.phtest ⟨pa, 5⟩ (.v 5) (.k 1))
    ∧ decode .troupe 32 (plain 0x387 6 257 0 (fE 0 1 5)) = .ok (.phwin ⟨pa, 5⟩ (.v 6) (.k 1) .wg)
    ∧ decode .troupe 32 (plain 0x388 0 258 481 (fE 0 0 5)) = .ok (.phtime ⟨pa, 5⟩ (.k 2) (.c 33))
    ∧ decode .troupe 32 (plain 0x389 0 260 0 (fE 9 7 0)) = .ok (.coll pa 7 9 (.k 4))
    ∧ decode .troupe 32 (plain 0x38a 6 257 0 0) = .ok (.collst pa (.v 6) (.k 1)) := by decide

theorem test_decode_group15 :
    decode .troupe 32 (word 0x3c0 1 7 0 4 393 0 0) = .ok (.sread ⟨1, 7, false⟩ (.v 4) (.s 9))
    ∧ decode .firmware 32 (plain 0x3c0 4 0 0 (0x13000#17 ++ 1#1)) = .ok (.sreadSys pa (.v 4) 0x13000)
    ∧ decode .troupe 32 (plain 0x3c1 0 399 5 0) = .ok (.swrite pa (.s 15) (.v 5))
    ∧ decode .control 32 (plain 0x3c1 0 0 5 (0x8000#17 ++ 1#1)) = .ok (.swriteSys pa 0x8000 (.v 5))
    ∧ decode .troupe 32 (plain 0x3c2 0 6 0 0) = .ok (.sethdl pa (.v 6))
    ∧ decode .troupe 32 (plain 0x3c3 4 257 0 0) = .ok (.estatLog pa (.v 4) (.k 1))
    ∧ decode .troupe 32 (plain 0x3c3 4 0 0 (fE 0 0 1)) = .ok (.estatEq pa (.v 4))
    ∧ decode .firmware 32 (plain 0x3c4 5 6 0 0) = .ok (.pggen pa (.v 5) (.v 6))
    ∧ decode .control 32 (plain 0x3c5 4 0 0 (fE 0 0 0)) = .ok (.assistNext pa (.v 4))
    ∧ decode .control 32 (plain 0x3c5 4 6 0 (fE 0 0 1)) = .ok (.assistGet pa (.v 4) (.v 6))
    ∧ decode .control 32 (plain 0x3c5 0 6 8 (fE 0 0 2)) = .ok (.assistPut pa (.v 6) (.v 8))
    ∧ decode .control 32 (plain 0x3c5 0 0 0 (fE 0 0 3)) = .ok (.assistDone pa)
    ∧ decode .control 32 (plain 0x3c6 0 0 0 0) = .ok (.halt pa)
    ∧ decode .firmware 32 (plain 0x3c6 0 0 0 (fE 0 0 1)) = .ok (.haltStop pa) := by decide

/-! ### Terms that each check refuses -/

/-- A reuse hint on an operand that is no per-lane register (R51). -/
theorem test_wf_refuses_hint : (Instr.iadd ⟨pa, .v 1, .k 2, .v 3, true, false⟩ false).wf .troupe 64 = false := by decide

/-- An operand field that the instruction does not use and that is not zero (R49, R111). -/
theorem test_wf_refuses_unused_field :
    (Instr.fence ⟨pa, .v 1, .v 0, .v 0, .b8, false, .acqrel, .pk, .dflt, 0⟩).wf .troupe 64 = false := by decide

/-- A reserved rounding code (R30). -/
theorem test_wf_refuses_code : (Instr.fadd ⟨pa, .v 1, .v 2, .v 3, false, false⟩ 5 false 0).wf .troupe 64 = false := by decide

/-- A constant as destination, a register that `.regs` does not give, an odd pair (R9, R10, R49). -/
theorem test_wf_refuses_operand :
    (Instr.iadd ⟨pa, .c 1, .v 2, .v 3, false, false⟩ false).wf .troupe 64 = false ∧
    (Instr.iadd ⟨pa, .v 64, .v 2, .v 3, false, false⟩ false).wf .troupe 64 = false ∧
    (Instr.iadd64 ⟨pa, .v 3, .v 2, .v 4, false, false⟩ false).wf .troupe 64 = false := by decide

/-- A per-lane register in a sequencer's word (R63). -/
theorem test_wf_refuses_sequencer_operand : (Instr.mvcnt pa (.v 1)).wf .matrix 64 = false := by decide

/-- The negated `pa` as guard (R50), and a lookahead on a word that is not long-latency (R60). -/
theorem test_wf_refuses_header :
    (Instr.nop ⟨0, 7, true⟩).wf .troupe 64 = false ∧ (Instr.nop ⟨1, 7, false⟩).wf .troupe 64 = false := by decide

/-- Slots of a paired word: an unused field, a register that does not exist, two registers of one bank group (R58, R9, R59). -/
theorem test_wf_refuses_slots :
    (Instr.pairedWord ⟨.nop, 0, 5, 0, 0⟩ ⟨.nop, 0, 0, 0, 0⟩).wf .troupe 64 = false ∧
    (Instr.pairedWord ⟨.iadd, 0, 64, 1, 0⟩ ⟨.nop, 0, 0, 0, 0⟩).wf .troupe 64 = false ∧
    (Instr.pairedWord ⟨.iadd, 0, 3, 4, 0⟩ ⟨.fmul, 0, 8, 14, 0⟩).wf .troupe 64 = false := by decide

/-- The same words with nothing wrong in them are well-formed. -/
theorem test_wf_accepts :
    (Instr.iadd ⟨pa, .v 1, .v 2, .v 3, true, false⟩ false).wf .troupe 64 = true ∧
    (Instr.fence ⟨pa, .v 0, .v 0, .v 0, .b8, false, .acqrel, .pk, .dflt, 0⟩).wf .troupe 64 = true ∧
    (Instr.fadd ⟨pa, .v 1, .v 2, .v 3, false, false⟩ 3 false 0).wf .troupe 64 = true ∧
    (Instr.mvcnt pa (.k 1)).wf .matrix 64 = true ∧ (Instr.nop pa).wf .troupe 64 = true := by decide

/-! ### States that tests start from -/

/-- Two lanes of a troupe of a workgroup on core 0 stand at 0x10000 with a handler at 0x10800. The page at 0x10000 holds code and
the page at 0x20000 data, at their origins. -/
def ready : State :=
  { State.reset with
    th := { Thread.fresh (.troupe 0 0 0) .running 3 with hdl := 0x10800, grp := ⟨3, 0x10000, true, .run, none, none, false⟩ }
    wg := { Workgroup.none with placed := true, core := some 0, troupes := 1, nregs := 256, scratchSize := 65536 }
    cx := { Context.none with live := true, troupes := 1, regs := 256, wcount := 1, scratch := 65536, codeLo := 0x10000,
                              codeHi := 0x20000 }
    tlbs := [(0, [⟨0, 0, 0x10000, 65536, 0x10000, true, true, true, false, true, 0⟩,
                  ⟨0, 0, 0x20000, 65536, 0x20000, true, true, false, false, true, 0⟩])] }

/-- `ready` with other registers: per-lane registers given as (256 × lane + n, value), uniform ones as (n, value). -/
def readyWith (v k : TMap Word) : State := ready.setTh { ready.th with v := v, k := k }

/-- A firmware core of die 0 that runs at 0x10000. -/
def core : State :=
  { ready with th := { Thread.fresh (.firmware 0) .running 1 with grp := ⟨1, 0x10000, true, .run, none, none, false⟩ }
               wg := Workgroup.none, cx := Context.none }

/-- The state after a step, or the state before one that stops. -/
def after (o : Out) (s : State) : State :=
  match o with
  | .next t => t
  | .fault _ => s
  | .refused _ => s

theorem emptyIn_none (th : Thread) (h : th.vEmpty = []) (act : LaneMask) (n : Nat) (o : Operand) :
    th.emptyIn act n o = false := by
  cases o <;> simp [Thread.emptyIn, Thread.isEmpty, h]

theorem ready_atWord (i : Instr) : atWord i ready.th = ready.th := by
  unfold atWord
  split <;> rfl

/-- Every word issues in `ready`. -/
theorem ready_issues (i : Instr) (uses : List (Role × Operand)) (hd : Hdr) : issuesNow i uses hd ready = true := by
  unfold issuesNow
  rw [ready_atWord]
  simp only [heldBack, fenced]
  simp [emptyIn_none, show ready.th.vEmpty = [] from rfl, show ready.th.pend = [] from rfl, show ready.th.blocked = [] from rfl,
    show unchecked ready.th = false from rfl]

/-- Both lanes take part in a word of `ready` that carries the guard `pa`. -/
theorem ready_partake (i : Instr) (la : BitVec 4) : partaking i ⟨la, 7, false⟩ ready = 3 := by
  unfold partaking
  rw [ready_atWord]
  show activeLanes ready.th ⟨la, 7, false⟩ = 3
  unfold activeLanes
  show (maskOf fun l => ready.th.grp.mask.getLsbD l && (ready.th.rdP l 7 != false)) = 3
  decide


/-! ### Single steps

Each expected value is worked out by hand from the rule that the name or the comment gives. `out i v k r` is per-lane register r of
lane 0 after the word i has run from `readyWith v k`; a long-latency word with lookahead 0 writes at once. -/

def out (i : Instr) (v k : TMap Word) (r : Nat) : Word := (after (exec i (readyWith v k)) ready).th.rdV 0 r

theorem test_iadd_wraps : out (.iadd ⟨pa, .v 1, .v 2, .v 3, false, false⟩ false) [(2, 0xffffffff), (3, 2)] [] 1 = 1 := by decide

/-- 2^31 − 1 + 1 under `.sat` is 2^31 − 1, and SAT is bit 13 of `s_fpmode` (R27, R15). -/
theorem test_iadd_sat :
    out (.iadd ⟨pa, .v 1, .v 2, .v 3, false, false⟩ true) [(2, 0x7fffffff), (3, 1)] [] 1 = 0x7fffffff ∧
    (after (exec (.iadd ⟨pa, .v 1, .v 2, .v 3, false, false⟩ true) (readyWith [(2, 0x7fffffff), (3, 1)] [])) ready).th.fpmode
      = 0x2000 := by decide

theorem test_isub_order : out (.isub ⟨pa, .v 1, .v 2, .v 3, false, false⟩ false) [(2, 5), (3, 7)] [] 1 = 0xfffffffe := by decide
theorem test_imulhi_signed : out (.imulhi ⟨pa, .v 1, .v 2, .v 3, false, false⟩ false) [(2, 0xffffffff), (3, 2)] [] 1 = 0xffffffff := by
  decide
theorem test_imulhi_unsigned : out (.imulhi ⟨pa, .v 1, .v 2, .v 3, false, false⟩ true) [(2, 0xffffffff), (3, 2)] [] 1 = 1 := by decide

/-- The destination is also a source. -/
theorem test_imad_in_place :
    out (.imad ⟨pa, .v 1, .v 1, .v 2, .v 1, false, false, false⟩ false) [(1, 3), (2, 5)] [] 1 = 18 := by decide

theorem test_iaddc_carry :
    ((after (exec (.iaddc ⟨pa, .v 1, .v 2, .v 3, false, false⟩ 7 2) (readyWith [(2, 0xffffffff), (3, 1)] [])) ready).th.rdP 0 2) = true
    := by decide
theorem test_isad_bytes :
    out (.isad ⟨pa, .v 1, .v 2, .v 3, .v 4, false, false, false⟩) [(2, 0x01020304), (3, 0x04030201), (4, 100)] [] 1 = 108 := by decide

/-- Bytes −1, 2 and 3, 4 at places 0 and 1: −1 × 3 + 2 × 4 = 5. -/
theorem test_idot4_signed :
    out (.idot4 ⟨pa, .v 1, .v 2, .v 3, .v 4, false, false, false⟩ false) [(2, 0x02ff), (3, 0x0403)] [] 1 = 5 := by decide

/-- A pair and a signed index shifted by 2: 2^32 − 4. -/
theorem test_lea_pair :
    out (.lea ⟨pa, .v 4, .v 2, .v 1, false, false⟩ 2 false) [(1, 0xffffffff), (3, 1)] [] 4 = 0xfffffffc ∧
    out (.lea ⟨pa, .v 4, .v 2, .v 1, false, false⟩ 2 false) [(1, 0xffffffff), (3, 1)] [] 5 = 0 := by decide

theorem test_shl_full_width : out (.shl ⟨pa, .v 1, .v 2, .v 3, false, false⟩) [(2, 1), (3, 32)] [] 1 = 0 := by decide
theorem test_sar_full_width : out (.sar ⟨pa, .v 1, .v 2, .v 3, false, false⟩) [(2, 0x80000000), (3, 99)] [] 1 = 0xffffffff := by
  decide
theorem test_clz_zero : out (.clz ⟨pa, .v 1, .v 2, false⟩) [] [] 1 = 32 := by decide
theorem test_ctz_zero : out (.ctz ⟨pa, .v 1, .v 2, false⟩) [] [] 1 = 32 := by decide
theorem test_brev : out (.brev ⟨pa, .v 1, .v 2, false⟩) [(2, 0x13)] [] 1 = 0xc8000000 := by decide
theorem test_movhi : out (.movhi pa (.v 1) 0x1234) [(1, 0xabcdef01)] [] 1 = 0x1234ef01 := by decide
theorem test_movi_negative : out (.movi pa (.v 1) 0x7ffffff) [] [] 1 = 0xffffffff := by decide

/-- 2^24 + 1 ties to 2^24, and sets NX, bit 12 of `s_fpmode` (R31, R15). -/
theorem test_fadd_tie :
    out (.fadd ⟨pa, .v 1, .v 2, .v 3, false, false⟩ 0 false 0) [(2, 0x4b800000), (3, 0x3f800000)] [] 1 = 0x4b800000 := by decide

/-- 1 + 2^−23 squared is 1 + 2^−22 + 2^−46; the fused form keeps the last term against −(1 + 2^−22). -/
theorem test_ffma_fused :
    out (.ffma ⟨pa, .v 1, .v 2, .v 2, .v 3, false, false, false⟩ 0 false 0) [(2, 0x3f800001), (3, 0xbf800002)] [] 1 = 0x28800000 := by
  decide
theorem test_fmul_overflow : out (.fmul ⟨pa, .v 1, .v 2, .v 2, false, false⟩ 0 false 0) [(2, 0x7f000000)] [] 1 = 0x7f800000 := by decide

/-- −0 is below +0 for FMIN (R29). -/
theorem test_fmin_zeros : out (.fmin ⟨pa, .v 1, .v 2, .v 3, false, false⟩ 0) [(3, 0x80000000)] [] 1 = 0x80000000 := by decide
theorem test_frcp_zero : out (.frcp ⟨pa, .v 1, .v 2, false⟩ 0 false 0) [(2, 0x80000000)] [] 1 = 0xff800000 := by decide
theorem test_fsqrt : out (.fsqrt ⟨pa, .v 1, .v 2, false⟩ 0 0) [(2, 0x40800000)] [] 1 = 0x40000000 := by decide
theorem test_dadd : out (.dadd ⟨pa, .v 4, .v 2, .v 2, false, false⟩ 0 false 0) [(3, 0x3ff00000)] [] 5 = 0x40000000 := by decide
theorem test_add2h : out (.add2h ⟨pa, .v 1, .v 2, .v 2, false, false⟩ 0 false 0) [(2, 0x3c004000)] [] 1 = 0x40004400 := by decide

/-- CVT of −1.5 to s32: toward zero under code 1, to the even −2 under code 0. -/
theorem test_cvt_rounding :
    out (.cvt ⟨pa, .v 1, .v 2, false⟩ 4 1 1 false 0) [(2, 0xbfc00000)] [] 1 = 0xffffffff ∧
    out (.cvt ⟨pa, .v 1, .v 2, false⟩ 4 1 0 false 0) [(2, 0xbfc00000)] [] 1 = 0xfffffffe := by decide

/-- The block of the example of R90, over the two lanes of `ready`: 6.0 and 0.3. -/
theorem test_cvtbx_example :
    let t := after (exec (.cvtbx pa (.v 5) (.v 4) (.k 20) 0 false 0) (readyWith [(4, 0x40c00000), (260, 0x3e99999a)] [])) ready
    t.th.rdV 0 5 = 0x30 ∧ t.th.rdV 1 5 = 0x02 ∧ t.th.rdK 20 = 0x7b81 := by decide

/-- UNPKBX of element 0x5a under the scale word of that example is 0.05078125 (R91). -/
theorem test_unpkbx_example : out (.unpkbx pa (.v 5) (.v 4) (.k 20) false) [(4, 0x5a)] [(20, 0x7b81)] 5 = 0x3d500000 := by decide

/-- The tree of R42: lane 1 of an inclusive add-scan of 5 and 6. -/
theorem test_lscan :
    (after (exec (.lscan ⟨pa, .v 1, .v 2, false⟩ 0 false) (readyWith [(2, 5), (258, 6)] [])) ready).th.rdV 1 1 = 11 := by decide
theorem test_lred : out (.lred ⟨pa, .v 1, .v 2, false⟩ 0) [(2, 5), (258, 6)] [] 1 = 11 := by decide

/-- A paired word reads both slots before it writes (R57): v3 and v4 change from the old values. -/
theorem test_paired :
    out (.pairedWord ⟨.mov, 0, 3, 4, 0⟩ ⟨.iaddi, 0, 4, 0, 63⟩) [(3, 7), (4, 9)] [] 3 = 9 ∧
    out (.pairedWord ⟨.mov, 0, 3, 4, 0⟩ ⟨.iaddi, 0, 4, 0, 63⟩) [(3, 7), (4, 9)] [] 4 = 8 := by decide

/-- A backward branch by two words (R106). -/
theorem test_bra_backward : (after (exec (.bra pa 0x7fffffe) ready) ready).th.grp.pc = 0xfff0 := by decide

/-- TRAP enters the handler with cause 8 and lane 0 (R110, R17). -/
theorem test_trap :
    let t := after (exec (.trap pa 5) ready) ready
    t.th.grp.pc = 0x10800 ∧ t.th.trappc = 0x10000 ∧ t.th.trapcause = 8 ∧ t.th.handler = some ⟨3, none⟩ := by decide

/-- A word with a reserved opcode enters it with cause 1 and reason OPCODE, code 0, in `s_trapop` (R64). -/
theorem test_reserved :
    let t := after (exec (.reservedEncodingTrap ⟨0#1 ++ 0x013#10 ++ 0#53, .opcode, false⟩) ready) ready
    t.th.trapcause = 1 ∧ t.th.grp.pc = 0x10800 := by decide

/-- A call pushes the return address of lane l at sp − 256 + 8 × l (R107). -/
theorem test_call_pushes :
    let s := readyWith [] [(126, 0x21000)]
    let t := after (exec (.call pa 4) (s.setTh { s.th with stklo := 0x20000, stkhi := 0x21000 })) ready
    memNat t 0 0x20f00 8 = 0x10008 ∧ memNat t 0 0x20f08 8 = 0x10008 ∧ t.th.rdK 126 = 0x20f00 ∧ t.th.grp.pc = 0x10020 := by decide

/-- A stored byte order, and the load of a signed byte (R26, R112, R113). -/
theorem test_store_little_endian :
    let t := after (exec (.stu ⟨pa, .k 4, .k 2, .c 32, .b32, false, .rlx, .tr, .dflt, 1⟩)
      (readyWith [] [(2, 0x20000), (4, 0x11223344)])) ready
    memNat t 0 0x20004 1 = 0x44 ∧ memNat t 0 0x20007 1 = 0x11 := by decide
theorem test_load_sign_extends :
    (after (exec (.ldu ⟨pa, .k 6, .k 2, .c 32, .b8, true, .rlx, .tr, .dflt, 0⟩)
      { readyWith [] [(2, 0x20000)] with mem := [(0x20000, 0x80)] }) ready).th.rdK 6 = 0xffffff80 := by
  set_option maxRecDepth 2000 in decide

/-- A misaligned access raises ALIGN, cause 3 (R112, R17). -/
theorem test_load_misaligned :
    (after (exec (.ldu ⟨pa, .k 6, .k 2, .c 32, .b32, false, .rlx, .tr, .dflt, 0⟩) (readyWith [] [(2, 0x20002)])) ready).th.trapcause = 3 := by
  set_option maxRecDepth 2000 in decide

/-- Two lanes add 5 and 6 to one word: lane 1 receives what lane 0 left (R124, R125). -/
theorem test_atom_order :
    let t := after (exec (.atom ⟨pa, .v 6, .k 2, .v 8, .b32, .rlx, .pk, 0, 0⟩) (readyWith [(8, 5), (264, 6)] [(2, 0x20000)])) ready
    t.th.rdV 0 6 = 0 ∧ t.th.rdV 1 6 = 5 ∧ memNat t 0 0x20000 4 = 11 := by decide

/-- BARINIT sets EXPECT, and the last arrival makes phase 1 (R163, R165, R166). -/
theorem test_barrier :
    let t := after (exec (.barinit pa 3 (.c 33)) ready) ready
    let u := after (exec (.barrive pa (.v 0) 3) t) ready
    (t.wg.bar 3).expect = 1 ∧ (u.wg.bar 3).phase = 1 ∧ (u.wg.bar 3).arrived = 0 := by decide

/-- SREAD of `s_lane` (R14), and SWRITE of `s_fpmode`. -/
theorem test_sread_lane :
    (after (exec (.sread pa (.v 1) (.s 0)) ready) ready).th.rdV 1 1 = 1 := by decide

/-- MLOOP counts 1 down to 0 and falls through; 0 wraps and branches (R160). -/
theorem test_mloop :
    let w := Instr.mloop pa (.k 3) 0x3fffe
    (after (exec w (readyWith [] [(3, 1)])) ready).th.grp.pc = 0x10008 ∧
    (after (exec w (readyWith [] [])) ready).th.grp.pc = 0xfff0 ∧ (after (exec w (readyWith [] [])) ready).th.rdK 3 = 0xffffffff := by
  decide

/-- A word placed from outside is the word that the next step runs. -/
theorem test_fetched_word_runs :
    let t := after (step (State.reset.withFetchWord 64 (immWord 0x080 5 0 7).toNat)) ready
    t.th.rdV 31 5 = 7 ∧ t.th.grp.pc = 0x10008 := by decide

/-! ### Witnesses: encoding, fetch, memory and frames -/

theorem witness_DecodedIsWellFormed :
    decode .troupe 64 (plain 0x004 5 6 7 (fA 8 0 0 1 0 1 0)) = .ok (.imad ⟨pa, .v 5, .v 6, .v 7, .v 8, false, false, true⟩ true) := by
  decide

theorem witness_EncodeDecode :
    let i := Instr.imad ⟨pa, .v 5, .v 6, .v 7, .v 8, false, false, true⟩ true
    let j := Instr.pairedWord ⟨.iadd, 0, 3, 4, 0⟩ ⟨.fmul, 0, 9, 14, 0⟩
    let k := Instr.mloop pa (.k 127) 0x20000
    (i.wf .troupe 64 = true ∧ runsOn .troupe i = true ∧ encode i = some (plain 0x004 5 6 7 (fA 8 0 0 1 0 1 0))) ∧
    (j.wf .troupe 64 = true ∧ runsOn .troupe j = true ∧ encode j = some 0x8100608011024380) ∧
    (k.wf .matrix 256 = true ∧ runsOn .matrix k = true ∧ encode k = some (plain 0x2c8 383 0 0 0x20000)) := by decide

/-- A full-form word of a matrix instruction in a troupe; a group that the copy sequencer does not have; a paired word in a
sequencer. -/
theorem witness_EngineRefusesForeignWords :
    let w := plain 0x2c8 256 0 0 0
    let g (w : DWord) := (w.extractLsb' 59 4).toNat
    let p (w : DWord) := (w.extractLsb' 53 6).toNat
    (w.getLsbD 63 = false ∧ p w < groupSize (g w) ∧ engineRuns .troupe (g w) (p w) = false) ∧
    ((plain 0x0ff 1 2 3 0).getLsbD 63 = false ∧ ∀ q < groupSize (g (plain 0x0ff 1 2 3 0)), engineRuns .copy (g (plain 0x0ff 1 2 3 0)) q = false) ∧
    ((0x8100608011024380 : DWord).getLsbD 63 = true ∧ Engine.copy ≠ .troupe) := by decide

/-- `ready` with another sub-group state: a logged word to perform again, or a result that is due. -/
def replaying : State :=
  ready.setTh { ready.th with grp := { ready.th.grp with replay := some ⟨plain 0x1c9 0 0 0 0, 3, 0, [], 0x10008, 0⟩ } }
def owing : State := ready.setTh { ready.th with pend := [⟨3, 0x10000, 0, true, .result [.v 0 5 7 false] [] [], [], none, none⟩] }
def waiting (w : Wait) : State := ready.setTh { ready.th with pend := [⟨3, 0x10000, 0, true, .wait w, [], none, none⟩] }

/-- A word that decodes and one that does not, at the program counter of the first agent of a port that has its turn. -/
theorem witness_StepRunsDecodedWord_fetch (w : Nat) (hw : w = (plain 0 5 6 7 0).toNat ∨ w = 2 ^ 62 + 2 ^ 61 + 2 ^ 60 + 2 ^ 59) :
    let s := State.reset.withFetchWord 64 w
    let u := { s with turns := [] }
    let t := (translate (goes u) (curTlb (goes u)) (curAsid (goes u)) (goes u).th.grp.pc.toNat ⟨.fetch, (goes u).th.agent.privileged, none, false⟩).2
    firstAt s (.scheduler 0 0) (.troupe 0 0 0) u ∧ (goes u).th.grp.replay = none ∧ Fetches (goes u) (BitVec.ofNat 64 w) t := by
  rcases hw with rfl | rfl <;>
  exact ⟨⟨by decide, by decide, [], [], by decide, by decide, rfl, by decide, by decide, by decide⟩, by decide, by decide,
    0x10000, 0, Prod.ext (by decide) rfl, by decide, Or.inl ⟨by decide, by decide⟩⟩

theorem witness_StepRunsDecodedWord_decode :
    decode .troupe 256 (plain 0 5 6 7 0) = .ok (.iadd ⟨pa, .v 5, .v 6, .v 7, false, false⟩ false) ∧
    (match decode .troupe 256 (BitVec.ofNat 64 (2 ^ 62 + 2 ^ 61 + 2 ^ 60 + 2 ^ 59)) with
      | .ok _ => false
      | .error _ => true) = true := by decide

/-- The same with a logged word to perform again. -/
theorem witness_StepRunsDecodedWord_replay :
    firstAt { replaying with turns := [.scheduler 0 0] } (.scheduler 0 0) (.troupe 0 0 0) { replaying with turns := [] } ∧
    (goes { replaying with turns := [] }).th.grp.replay = some ⟨plain 0x1c9 0 0 0 0, 3, 0, [], 0x10008, 0⟩ ∧
    decode .troupe 256 (plain 0x1c9 0 0 0 0) = .ok (.nop pa) :=
  ⟨⟨rfl, rfl, [], [], rfl, by decide, rfl, rfl, by decide, by decide⟩, rfl, by decide⟩

/-- A device step, a result that is due, no port left, a port without an agent that is awake. -/
theorem witness_StepRunsDecodedWord_due :
    { ready with inputs := [Instr.seqend pa] }.inputs = .seqend pa :: [] ∧
    (owing.inputs = [] ∧ dueStep owing = some (.longLatencyResult ⟨0, 0, 0, 0⟩)) ∧
    (State.reset.inputs = [] ∧ dueStep State.reset = none ∧ State.reset.turns = []) ∧
    (let s := { State.reset with turns := [.scheduler 0 0] }
     s.inputs = [] ∧ dueStep s = none ∧ s.turns = .scheduler 0 0 :: [] ∧ turnOrder s (.scheduler 0 0) = []) := by decide

theorem witness_ResetState : isHost 0 = false ∧ 23 < 24 ∧ 7 < 8 ∧ 3 < 4 := by decide

/-- A byte below, a byte behind, a line that is not written, and memory in its form. -/
theorem witness_MemoryReadsBack :
    (0x1fffe < 0x1ffff ∨ 0x1ffff + 2 ≤ 0x1fffe) ∧ (0x20001 < 0x1ffff ∨ 0x1ffff + 2 ≤ 0x20001) ∧
    (linesOf 0x1ffff 2).contains (0x20080 / 128) = false ∧ Memory.wf State.reset = true := by decide

/-- The load of a pair into v254 and v255 by two lanes, and of a signed byte into a uniform register. -/
theorem witness_LoadFrame :
    (let m : Mem := ⟨pa, .v 254, .k 2, .c 32, .b64, false, .rlx, .tr, .dflt, 0⟩
     let s := readyWith [] [(2, 0x20000)]
     memReady (.ld m) (Instr.ld m).uses m.hd (fun s act => (lanesOf act).map (memLane m 0 s)) (memAsk m .load) (loadWaits m.width.bytes) s = true
       ∧ Out.goesOn (exec (.ld m) s) = true ∧ (254 : BitVec 8).toNat + 2 ≤ 256) ∧
    (let m : Mem := ⟨pa, .k 6, .k 2, .c 32, .b8, true, .rlx, .tr, .dflt, 0⟩
     let s := readyWith [] [(2, 0x20000)]
     memReady (.ldu m) (Instr.ldu m).uses m.hd (fun s act => ((lanesOf act).take 1).map (memLane m 0 s)) (memAsk m .load)
       (loadWaits m.width.bytes) s = true ∧ Out.goesOn (exec (.ldu m) s) = true) := by decide

/-- A store of both lanes to memory, and one to the scratchpad; places that spare a byte. -/
theorem witness_StoreFrame :
    (let m : Mem := ⟨pa, .v 4, .k 2, .v 8, .b32, false, .rlx, .tr, .dflt, 0⟩
     let s := readyWith [(264, 4)] [(2, 0x20000)]
     let lanes := fun s act => (lanesOf act).map (memLane m m.width.words s)
     let ps := (memPlaces (.st m) m.hd lanes (memAsk m .store) s).map Prod.snd
     memReady (.st m) (Instr.st m).uses m.hd lanes (memAsk m .store) (storeWaits m) s = true ∧ Out.goesOn (exec (.st m) s) = true ∧
       ps.all (sparesByte 4 0 0x20008) = true ∧ ps.all (sparesScratch 4 0 0 0) = true ∧ ps.all Place.noWindow = true) ∧
    (let m : Mem := ⟨pa, .v 4, .k 2, .c 32, .b32, false, .rlx, .tr, .dflt, 0⟩
     let s := readyWith [] [(2, 0), (3, 0x01f00000)]
     let lanes := fun s act => ((lanesOf act).take 1).map (memLane m m.width.words s)
     let ps := (memPlaces (.stu m) m.hd lanes (memAsk m .store) s).map Prod.snd
     memReady (.stu m) (Instr.stu m).uses m.hd lanes (memAsk m .store) (storeWaits m) s = true ∧ Out.goesOn (exec (.stu m) s) = true ∧
       ps = [.scratch 0 0 0] ∧ ps.all (sparesScratch 4 0 0 4) = true) := by decide

/-- A lane word of one register, one of a pair, a predicate word and a long-latency word; both lanes of `ready` take part. -/
theorem witness_LaneResultsAndFrame :
    LaneWord (.iadd ⟨pa, .v 255, .v 2, .v 3, false, false⟩ false) pa 1 (.v 255)
      (fun s l => op2 s ⟨pa, .v 255, .v 2, .v 3, false, false⟩ l fun a b => narrow32 false (a.toInt + b.toInt)) ∧
    LaneWord (.iadd64 ⟨pa, .v 254, .v 2, .v 4, false, false⟩ false) pa 2 (.v 254)
      (fun s l => narrow64 false ((opnd64 s l (.v 2)).toInt + (opnd64 s l (.v 4)).toInt)) ∧
    PredWord (.icmp ⟨pa, .v 2, .v 3, false, false, 6, 0⟩) pa 6 (fun s l => (icmpOf 0 (opnd32 s l (.v 2)) (opnd32 s l (.v 3)), FFlags.none)) ∧
    LaneWordLong (.frsq ⟨pa, .v 5, .v 6, false⟩ 0) pa 1 (.v 5)
      (fun s l => .fp (rsqVal fp32 s.th.subn (srcA fp32 s 0 (opndF32 s l (.v 6))))) ∧
    (∀ i uses, issuesNow i uses pa ready = true) ∧ (∀ i, partaking i pa ready = 3) ∧ pa.la = 0 :=
  ⟨by intro s h; rw [exec_iadd]; unfold execIadd; exact laneOp_now h, by intro s h; rw [exec_iadd64]; unfold execIadd64; exact laneOp_now h,
    by intro s h; rw [exec_icmp]; unfold execIcmp; exact predOp_now h, by intro s h; rw [exec_frsq]; unfold execFrsq; exact laneOpLong_now h,
    fun i uses => ready_issues i uses pa, fun i => ready_partake i 0, rfl⟩

theorem witness_ControlFrame :
    (Instr.iadd ⟨pa, .v 1, .v 2, .v 3, false, false⟩ false).hdr? ≠ none ∧
    (Instr.iadd ⟨pa, .v 1, .v 2, .v 3, false, false⟩ false).opcode < 448 ∧
    Out.goesOn (exec (.iadd ⟨pa, .v 1, .v 2, .v 3, false, false⟩ false) ready) = true ∧ Out.goesOn (exec (.nop pa) ready) = true ∧
    Out.goesOn (exec (.yield pa) ready) = true ∧ Out.goesOn (exec (.exit pa) ready) = true ∧ Out.goesOn (exec (.bra pa 0) ready) = true ∧
    Out.goesOn (exec (.rcb pa 7 0) ready) = true ∧ Out.goesOn (exec (.rcw pa 7) ready) = true := by decide

/-! ### Witnesses: rules stated whole -/

theorem witness_IntegerResultsWrapOrSaturate :
    (∀ i uses, issuesNow i uses pa ready = true) ∧ ((2 ^ 31 : Int) < -2 ^ 31 ∨ (2 ^ 31 : Int) ≤ 2 ^ 31) ∧ ¬((2 ^ 31 - 1 : Int) < -2 ^ 31 ∨ (2 ^ 31 : Int) ≤ 2 ^ 31 - 1) :=
  ⟨fun i uses => ready_issues i uses pa, by decide, by decide⟩

/-- The counter at 1, at 0, and another uniform register; a per-lane D, one above the uniform registers, a lookahead. -/
theorem witness_MloopCountsDown :
    let i := Instr.mloop pa (.k 3) 0x3fffe
    (issuesNow i [] pa (readyWith [] [(3, 1)]) = true ∧ partaking i pa (readyWith [] [(3, 1)]) ≠ 0 ∧
      (readyWith [] [(3, 1)]).th.rdK (3 : BitVec 7).toNat = 1) ∧
    (issuesNow i [] pa ready = true ∧ partaking i pa ready ≠ 0 ∧ ready.th.rdK (3 : BitVec 7).toNat ≠ 1) ∧ 2 ≠ (3 : BitVec 7).toNat ∧
    ((255 : BitVec 9).toNat < 256 ∨ 384 ≤ (255 : BitVec 9).toNat) ∧ ((384 : BitVec 9).toNat < 256 ∨ 384 ≤ (384 : BitVec 9).toNat) ∧
    (256 ≤ (383 : BitVec 9).toNat ∧ (383 : BitVec 9).toNat < 384 ∧ ¬((7 : BitVec 3) = 7 ∧ (0 : BitVec 1) = 1)) ∧
    (1 : BitVec 4) ≠ 0 ∧ (0 : BitVec 4) = 0 := by decide

/-- An aligned address, and a misaligned one in a troupe with a handler. -/
theorem witness_SethdlSetsHandler :
    let i := Instr.sethdl pa (.k 2)
    let s := readyWith [] [(2, 0x10c00)]
    let t := readyWith [] [(2, 0x10c04)]
    (issuesNow i i.uses pa s = true ∧ partaking i pa s ≠ 0 ∧ (opnd64 (issued i i.uses [] pa s) 0 (.k 2)).toNat % 8 = 0) ∧
    (issuesNow i i.uses pa t = true ∧ partaking i pa t ≠ 0 ∧ lowLane (partaking i pa t) = 0 ∧
      (opnd64 (issued i i.uses [] pa t) 0 (.k 2)).toNat % 8 ≠ 0 ∧ t.th.handler = none ∧ t.th.hdl ≠ 0 ∧ t.th.agent.isTroupe = true) := by
  decide

/-- A handle that is not bound, and one bound in mode `sigwait`. -/
def bound : State := { ready with wg := { ready.wg with phs := [(5, ⟨.pkg 3, .sigwait, 1, 1⟩)] } }

theorem witness_UnboundHandlesRaiseProt :
    (∀ i uses, issuesNow i uses pa ready = true) ∧ (∀ i, partaking i pa ready ≠ 0) ∧
      (∀ i uses, handleAt (issued i uses [] pa ready) 5 = none) ∧
      ready.th.handler = none ∧ ready.th.hdl ≠ 0 ∧ ready.th.agent.isTroupe = true :=
  ⟨fun i uses => ready_issues i uses pa, fun i => by rw [show pa = (⟨0, 7, false⟩ : Hdr) from rfl, ready_partake]; decide,
    fun i uses => by unfold issued; rw [ready_atWord]; rfl, rfl, by decide, rfl⟩

theorem witness_UnboundHandlesRaiseProt_other :
    let x : Ph := ⟨pa, 5⟩
    issuesNow (.phany x (.v 0) (.k 1)) (usesOr (.phany x (.v 0) (.k 1)) (.v 0)) pa bound = true ∧
    partaking (.phany x (.v 0) (.k 1)) pa bound ≠ 0 ∧
    handleAt (issued (.phany x (.v 0) (.k 1)) (usesOr (.phany x (.v 0) (.k 1)) (.v 0)) [] pa bound) 5 = some ⟨.pkg 3, .sigwait, 1, 1⟩ ∧
    PhMode.sigwait ≠ .any ∧
    bound.th.handler = none ∧ bound.th.hdl ≠ 0 ∧ bound.th.agent.isTroupe = true := by decide

theorem witness_SreadReadsSpecials :
    (∀ uses n, issuesNow (.sread pa (.v 4) (.s n)) uses pa ready = true) ∧ (∀ n, partaking (.sread pa (.v 4) (.s n)) pa ready ≠ 0) ∧
    ((9 : BitVec 6).toNat < 24 ∧ special64 (9 : BitVec 6).toNat = true ∧ (383 : BitVec 9).toNat < 384 ∧ (383 : BitVec 9).toNat % 2 = 1) :=
  ⟨fun uses n => ready_issues _ uses pa, fun n => by rw [show pa = (⟨0, 7, false⟩ : Hdr) from rfl, ready_partake]; decide, by decide⟩

/-- A control core whose timer has come, and one that halts. -/
def timed : State :=
  { core with clock := 9, threads := [{ Thread.fresh (.control 0) .halted 1 with ident := ⟨0, 0, 0, 0, 0, 0, 0, 0⟩ }],
              timers := [(0, ⟨0x8000000000000008, false⟩)] }

theorem witness_HaltWaitsForEvent :
    (issuesNow (.halt pa) [] pa core = true ∧ partaking (.halt pa) pa core ≠ 0) ∧
    (issuesNow (.haltStop pa) [] pa core = true ∧ partaking (.haltStop pa) pa core ≠ 0) ∧
    (timed.thread (coreAgent 0)).isSome = true ∧ (CoreEvent.mailbox ≠ .timer ∨ (timed.timer 0).timer = true) ∧
    (timed.timer 0).due timed.clock = true ∧ (timed.timer 0).timer = false := by decide

/-! ### Witnesses: groups 0 to 6 -/

/-- Every word of the completion statements issues in `ready`, with both lanes where its guard is `pa`. -/
theorem witness_words : (∀ i uses hd, issuesNow i uses hd ready = true) ∧ ∀ i, partaking i pa ready = 3 :=
  ⟨ready_issues, fun i => ready_partake i 0⟩

theorem witness_IntegerWordsComplete : ∀ x sat, issuesNow (.iadd x sat) (Instr.iadd x sat).uses x.hd ready = true :=
  fun x _ => ready_issues _ _ x.hd

theorem witness_LogicWordsComplete : ∀ x, issuesNow (.and x) (Instr.and x).uses x.hd ready = true := fun x => ready_issues _ _ x.hd

theorem witness_ImmediateWordsComplete : ∀ hd d imm, issuesNow (.movi hd d imm) (Instr.movi hd d imm).uses hd ready = true :=
  fun hd _ _ => ready_issues _ _ hd

theorem witness_FloatWordsComplete : ∀ x sm, issuesNow (.fmin x sm) (Instr.fmin x sm).uses x.hd ready = true :=
  fun x _ => ready_issues _ _ x.hd

theorem witness_DoubleAndPackedWordsComplete : ∀ x sm, issuesNow (.dmin x sm) (Instr.dmin x sm).uses x.hd ready = true :=
  fun x _ => ready_issues _ _ x.hd

/-- FRND's formats are 0 to 3, and MOVK picks a full register. -/
theorem witness_ConversionWordsComplete :
    (∀ x fmt rnd sm, issuesNow (.frnd x fmt rnd sm) (Instr.frnd x fmt rnd sm).uses x.hd ready = true) ∧
    fpFormat (0 : BitVec 4).toNat = some fp64 ∧ fpFormat (3 : BitVec 4).toNat = some bf16 ∧
    (let i := Instr.movk pa (.k 4) (.v 2) (.k 1)
     let us : List (Role × Operand) := [(.udst 1, .k 4), (.src 1, .k 1)]
     issuesNow i us pa ready = true ∧ partaking i pa ready ≠ 0 ∧
       pickedFull ready.th (pickLane (issued i us [] pa ready) (partaking i pa ready) (.k 1)) 1 (.v 2) = true) :=
  ⟨fun x _ _ _ => ready_issues _ _ x.hd, rfl, rfl, by decide⟩

/-- LBCAST of a full register, and with no lane that takes part; a paired word held back by nothing. -/
theorem witness_TreeWordsComplete :
    (∀ hd d mode ns ps pd, issuesNow (.lvote hd d mode ns ps pd) [] hd ready = true) ∧ (2 : BitVec 2) ≠ 3 ∧
    (let i := Instr.lbcast pa (.v 4) (.v 2) (.k 1) false false
     let us : List (Role × Operand) := [(.dst 1, .v 4), (.src 1, .k 1)]
     issuesNow i us pa ready = true ∧
       pickedFull ready.th (pickLane (issued i us [] pa ready) (partaking i pa ready) (.k 1)) 1 (.v 2) = true) ∧
    partaking (.lbcast ⟨0, 1, false⟩ (.v 4) (.v 2) (.k 1) false false) ⟨0, 1, false⟩ ready = 0 ∧
    (let s0 : Slot := ⟨.iadd, 0, 3, 4, 0⟩
     let s1 : Slot := ⟨.fmul, 0, 9, 14, 0⟩
     heldBack ready.th (slotUses s0) 0 (slotLanes ready.th s0.guard) = false ∧
       heldBack ready.th (slotUses s1) 0 (slotLanes ready.th s1.guard) = false) :=
  ⟨fun hd _ _ _ _ _ => ready_issues _ _ hd, by decide, by decide, by decide, by decide⟩

/-! ### Witnesses: groups 7 to 9, traps and waits -/

/-- `ready` with a stack of a page at 0x20000 and its pointer at 0x21000; a return address stands in each slot. -/
def stacked : State :=
  { readyWith [] [(2, 0x10040), (126, 0x21000)] with
    th := { (readyWith [] [(2, 0x10040), (126, 0x21000)]).th with stklo := 0x20000, stkhi := 0x22000 }
    mem := [(0x21000, 0x40), (0x21002, 1), (0x21008, 0x40), (0x2100a, 1)] }

/-- `ready` where lane 0 alone has p0, and a reconvergence slot expects both lanes at 0x10000. -/
def guarded : State := ready.setTh { ready.th with p := [(0, 1)], slots := [(2, ⟨0x10000, 3⟩)] }

theorem witness_ControlWordsComplete :
    (∀ i uses hd, issuesNow i uses hd ready = true) ∧
    (let i := Instr.brx pa (.k 2)
     issuesNow i i.uses pa stacked = true ∧ stacked.th.grp.replay = none ∧
       ∀ l ∈ lanesOf (partaking i pa stacked), (issued i i.uses [] pa stacked).th.marked l 2 (.k 2) = false ∧
         (opnd64 (issued i i.uses [] pa stacked) l (.k 2)).toNat % 8 = 0) ∧
    (let i := Instr.brx pa (.k 2)
     let w : LogWord := ⟨plain 0x1c1 0 258 0 0, 1, 0, [⟨0, 0, 0x10040, 0, 0, false, false⟩], 0x10008, 0⟩
     let s := stacked.setTh { stacked.th with grp := { stacked.th.grp with replay := some w } }
     issuesNow i i.uses pa s = true ∧ s.th.grp.replay = some w ∧ targetFault w.lanes = none) ∧
    ready.th.grp.mask.getLsbD 1 = true :=
  ⟨ready_issues, by decide, by decide, by decide⟩

/-- EXIT of one lane of two, of all of a troupe, and of a core; RCW at a free slot, at another address, and at its own with lanes that
all arrive, none that does, and one that does beside one that goes on. -/
theorem witness_ControlWordsComplete_ends :
    (endLanes (onward (issued (.exit ⟨0, 0, false⟩) [] [] ⟨0, 0, false⟩ guarded)).th (partaking (.exit ⟨0, 0, false⟩) ⟨0, 0, false⟩ guarded)).live ≠ 0 ∧
    (endLanes (onward (issued (.exit pa) [] [] pa ready)).th (partaking (.exit pa) pa ready)).live = 0 ∧
    (endLanes (onward (issued (.exit pa) [] [] pa ready)).th (partaking (.exit pa) pa ready)).agent = .troupe 0 0 0 ∧
    (endLanes (onward (issued (.exit pa) [] [] pa core)).th (partaking (.exit pa) pa core)).live = 0 ∧
    (endLanes (onward (issued (.exit pa) [] [] pa core)).th (partaking (.exit pa) pa core)).agent.isTroupe = false ∧
    (tget (⟨0, 0⟩ : Recon) (issued (.rcw pa 0) [] [] pa ready).th.slots 0).expect = 0 ∧
    (let t := issued (.rcw pa 2) [] [] pa guarded
     let r := tget (⟨0, 0⟩ : Recon) t.th.slots 2
     r.expect ≠ 0 ∧ t.th.grp.pc = r.target ∧ partaking (.rcw pa 2) pa guarded &&& r.expect = t.th.grp.mask ∧ t.th.grp.mask ≠ 0) ∧
    (let t := issued (.rcw pa 2) [] [] pa (guarded.setTh { guarded.th with slots := [(2, ⟨0x10008, 3⟩)] })
     t.th.grp.pc ≠ (tget (⟨0, 0⟩ : Recon) t.th.slots 2).target) ∧
    (let h : Hdr := ⟨0, 1, false⟩
     partaking (.rcw h 2) h guarded &&& 3 = 0) ∧
    (let h : Hdr := ⟨0, 0, false⟩
     partaking (.rcw h 2) h guarded &&& 3 = 1 ∧ (issued (.rcw h 2) [] [] h guarded).th.grp.mask &&& ~~~(1 : LaneMask) = 2) := by decide

theorem witness_CallsComplete :
    memReady (.call pa 4) stackUses pa
      (fun s act => (lanesOf act).map fun l => ⟨l, stackPtr s.th - 256 + BitVec.ofNat 64 (8 * l), 0, 0, 0, false, false⟩)
      (slotAsk .store false) (fun _ _ => false) stacked = true ∧
    memReady (.callx pa (.k 2)) ((Instr.callx pa (.k 2)).uses ++ stackUses) pa
      (fun s act => (lanesOf act).map (targetLane (.k 2) (fun l => stackPtr s.th - 256 + BitVec.ofNat 64 (8 * l)) s))
      (slotAsk .store true) (fun _ _ => false) stacked = true ∧
    (let i := Instr.ret pa
     let lanes (s : State) (act : LaneMask) : List LogLane :=
       (lanesOf act).map fun l => ⟨l, stackPtr s.th + BitVec.ofNat 64 (8 * l), 0, 0, 0, false, false⟩
     let ps := memPlaces i pa lanes (slotAsk .load false) stacked
     let r := memWalk i pa lanes (slotAsk .load false) stacked
     issuesNow i stackUses pa stacked = true ∧ (∀ x ∈ ps, x.2.inDirectory = false ∧ (slotValue r.2 x).isSome = true) ∧
       worstOf (returnFaults (returnLanes r.2 ps) r.1) = none ∧ ps.length = 2) := by
  set_option maxRecDepth 4000 in decide

/-- The slots of both lanes in memory. -/
theorem witness_CallsComplete_moves :
    let ps : List (LogLane × Place) :=
      [(⟨0, 0x20f00, 0, 0, 0, false, false⟩, .mem 0x20f00 0), (⟨1, 0x20f08, 0, 0, 0, false, false⟩, .mem 0x20f08 0)]
    (3 : LaneMask) ≠ 0 ∧ (∀ p ∈ ps, ∀ off, p.2 ≠ Place.window off) ∧ stacked.th.grp.mask.getLsbD 1 = true :=
  ⟨by decide, by simp, by decide⟩

theorem witness_TrapsEnterHandlerOrEndTroupe :
    let bare := ready.setTh { ready.th with hdl := 0 }
    (issuesNow (.trap pa 63) [] pa ready = true ∧ partaking (.trap pa 63) pa ready ≠ 0 ∧ ready.th.handler = none ∧ ready.th.hdl ≠ 0 ∧
      ready.th.agent.isTroupe = true) ∧
    (issuesNow (.trap pa 63) [] pa bare = true ∧ partaking (.trap pa 63) pa bare ≠ 0 ∧ bare.th.agent = .troupe 0 0 0 ∧
      bare.th.handler = none ∧ bare.th.hdl = 0 ∧ bare.cx.fault = none) := by decide

theorem witness_ReservedWordTraps :
    heldBack ready.th [] 0 0 = false ∧ unchecked ready.th = false ∧
    ready.th.handler = none ∧ ready.th.hdl ≠ 0 ∧ ready.th.agent.isTroupe = true ∧ (0 : DWord).getLsbD 63 = false := by decide

/-- `ready` in its handler. -/
def handling (kind : Option Bool) : State :=
  ready.setTh { ready.th with handler := some ⟨3, kind⟩, trappc := 0x10040, log := [⟨0, 3, 3, [], 0x10048, 0⟩] }

theorem witness_TretResumes :
    (∀ k ∈ [none, some false], issuesNow (.tret pa) [] pa (handling k) = true ∧ (handling k).th.handler = some ⟨3, k⟩) ∧
    (∀ k ∈ [none, some true], issuesNow (.tretSkip pa) [] pa (handling k) = true ∧ (handling k).th.handler = some ⟨3, k⟩) ∧
    (let t := (handling none).th
     t.grp.mask ≠ 0 ∧ t.rest = [] ∧ t.grp.mask &&& 3 = t.grp.mask ∧ 3 &&& t.live = t.grp.mask) ∧
    (issuesNow (.tret pa) [] pa ready = true ∧ ready.th.handler = none ∧ ready.th.hdl ≠ 0 ∧ ready.th.agent.isTroupe = true) := by decide

theorem witness_BreakAndResume :
    let s := { ready with debug := true }
    let t := s.setTh { s.th with grp := { s.th.grp with st := .brk 1 7 } }
    (issuesNow (.brk pa 0) [] pa s = true ∧ partaking (.brk pa 0) pa s ≠ 0 ∧ s.debug = true) ∧
    (issuesNow (.brk pa 0) [] pa ready = true ∧ partaking (.brk pa 0) pa ready ≠ 0 ∧ ready.debug = false) ∧
    (t.th.agent = .troupe 0 0 0 ∧ 0 ≠ 32 ∧ 0 ≠ 33 ∧ t.debug = true ∧ t.th.grp.st = .brk 1 7 ∧ t.th.grp.mask.getLsbD 1 = true ∧ t.th.rest = []) := by
  decide

/-- Loads and stores of both lanes, and one access for the word, in the data page. -/
theorem witness_LoadsAndStoresComplete :
    let m : Mem := ⟨pa, .v 4, .k 2, .v 8, .b32, false, .rlx, .tr, .dflt, 0⟩
    let u : Mem := ⟨pa, .k 4, .k 2, .c 32, .b32, false, .rlx, .tr, .dflt, 0⟩
    let s := readyWith [(264, 4)] [(2, 0x20000)]
    memReady (.ld m) (Instr.ld m).uses pa (fun s act => (lanesOf act).map (memLane m 0 s)) (memAsk m .load) (loadWaits 4) s = true ∧
    memReady (.ldu u) (Instr.ldu u).uses pa (fun s act => ((lanesOf act).take 1).map (memLane u 0 s)) (memAsk u .load) (loadWaits 4) s
      = true ∧
    memReady (.st m) (Instr.st m).uses pa (fun s act => (lanesOf act).map (memLane m 1 s)) (memAsk m .store) (storeWaits m) s = true ∧
    memReady (.stu u) (Instr.stu u).uses pa (fun s act => ((lanesOf act).take 1).map (memLane u 1 s)) (memAsk u .store) (storeWaits u) s
      = true := by decide

theorem witness_AtomicsComplete :
    let x : Atom := ⟨pa, .v 6, .k 2, .v 8, .b32, .rlx, .pk, 0, 0⟩
    let r : Atom := ⟨pa, .v 0, .k 2, .v 8, .b32, .rlx, .pk, 0, 0⟩
    let s := readyWith [] [(2, 0x20000)]
    memReady (.atom x) (Instr.atom x).uses pa (fun s act => (lanesOf act).map (atomLane x false true s)) (atomAsk x 0) (atomWaits x) s
      = true ∧
    memReady (.atomcas x) (Instr.atomcas x).uses pa (fun s act => (lanesOf act).map (atomLane x true true s)) (atomAsk x 15)
      (atomWaits x) s = true ∧
    memReady (.red r) (Instr.red r).uses pa (fun s act => (lanesOf act).map (atomLane r false false s)) (atomAsk r 0) (atomWaits r) s
      = true := by decide

/-- A fence that waits for nothing and one that waits for a write; WADDR and CFLUSH of words in the data page. -/
theorem witness_LineAndFenceWordsComplete :
    let p : Mem := ⟨pa, .v 0, .k 2, .v 8, .b8, false, .rlx, .tr, .dflt, 0⟩
    let f : Mem := ⟨pa, .v 0, .v 0, .v 0, .b8, false, .sc, .pk, .dflt, 0⟩
    let w : Mem := ⟨pa, .v 4, .k 2, .v 8, .b32, false, .acq, .tr, .dflt, 0⟩
    let s := readyWith [] [(2, 0x20000)]
    (issuesNow (.pref p) (Instr.pref p).uses pa s = true ∧ throttleAllows s = true) ∧
    (issuesNow (.fence f) [] pa s = true ∧ partaking (.fence f) pa s ≠ 0 ∧ throttleAllows s = true ∧
      fenceTags s.th f = []) ∧
    (let u := s.setTh { s.th with fabric := [7] }
     issuesNow (.fence f) [] pa u = true ∧ partaking (.fence f) pa u ≠ 0 ∧ throttleAllows u = true ∧
      fenceTags u.th f ≠ []) ∧
    memReady (.cflush p) (Instr.cflush p).uses pa (fun s act => (lanesOf act).map (lineLane p s)) (lineAsk p) (fun _ _ => false) s = true ∧
    memReady (.waddr w) (Instr.waddr w).uses pa (fun s act => (lanesOf act).map (memLane w 1 s)) (waddrAsk w) (fun _ _ => false)
      (readyWith [] [(3, 0x01f00000)]) = true := by decide

/-- A phaser 3 of two phases released, and its handle in `bound`. -/
def phased (w : Wait) : State :=
  { waiting w with
    wg := { ready.wg with phs := [(5, ⟨.pkg 3, .sigwait, 1, 1⟩)] }
    tether := { Tether.reset with nodes := [(.pkg 3, ⟨false, 0, 16, 0, 1, Kid.zero, [], 2, 2, false, false, false, ⟨0, 0, 0, 0⟩, []⟩)] } }

/-- Each wait with its condition met, and a result and a WADDR that end. -/
theorem witness_PendingWordsEnd :
    let plain (p : Pend) : Bool := p.due || p.refused || p.waitsFor Wait.isPlain
    (refAgent ⟨0, 0, 0, 0⟩ = owing.th.agent ∧
      (findPend owing.th 0 plain).map (fun x => (x.1, x.2.owed, x.2.check)) = some (0, .result [.v 0 5 7 false] [] [], none)) ∧
    (let left : List (Nat × Place × DWord × Option Peek) := [(0, .mem 0x20000 0, 0, none)]
     let w := Wait.waddr 4 false true .co left
     (findPend (waiting w).th 0 Pend.isWaddr).map (fun x => (x.1, x.2.owed)) = some (0, .wait w) ∧
       (waddrLeft 4 false (waiting w) left).1 = []) ∧
    (let w := Wait.cm 3 0 0 false .wg
     (findPend (waiting w).th 0 (Pend.waitsFor Wait.isCm)).isSome = true ∧ (cmDone (waiting w) w).isSome = true) ∧
    (let w := Wait.tl 3 0 .wg
     (findPend (waiting w).th 0 (Pend.waitsFor Wait.isTl)).isSome = true ∧ (tlDone (waiting w) w).isSome = true) ∧
    (let w := Wait.bar 3 1
     (findPend (waiting w).th 0 (Pend.waitsFor Wait.isBar)).isSome = true ∧ (barDone (waiting w) w).isSome = true) ∧
    (let w := Wait.rdv
     let s := { waiting w with threads := [newSeq (.matrix 0 0) ready.th.ident, newSeq (.copy 0 0) ready.th.ident] }
     (findPend s.th 0 (Pend.waitsFor Wait.isRdv)).isSome = true ∧ (rdvDone s w).isSome = true) ∧
    (let w := Wait.fork 0x10000 0
     let s := { waiting w with threads := [newSeq (.matrix 0 0) ready.th.ident], wg := { ready.wg with forkq := [(0, 0)] } }
     (findPend s.th 0 (Pend.waitsFor Wait.isFork)).isSome = true ∧ forkHead s = some (0, 0) ∧ (forkDone s w).isSome = true) ∧
    (let w := Wait.cwait .pk
     (findPend (waiting w).th 0 (Pend.waitsFor Wait.isCwait)).isSome = true ∧ (cwaitDone (waiting w) w).isSome = true) ∧
    (let w := Wait.ph 5 1 .wg
     (findPend (phased w).th 0 (Pend.waitsFor Wait.isPh)).isSome = true ∧
       (phDone (phased w) w).map (fun x => x.1.th.agent) = some (phased w).th.agent) ∧
    (∀ w ∈ [Wait.fence [] none, .gen 1 (.v 5) 3 false ⟨[], [], [], [], 0⟩, .signal 5 (.v 6) 3 none none [] []],
      (findPend (phased w).th 0 plain).map (fun x => (x.1, x.2.owed)) = some (0, .wait w) ∧
        (plainDone (phased w) w).map (fun x => x.1.th.agent) = some (phased w).th.agent) := by decide

/-! ### Witnesses: groups 10 to 15 -/

/-- The matrix sequencer of `ready` at 0x10000, with operations in its queue; and its copy sequencer. -/
def sequencer (mq : List MatOp) : State :=
  { ready with th := { Thread.fresh (.matrix 0 0) .running 1 with grp := ⟨1, 0x10000, true, .run, none, none, false⟩ }
               wg := { ready.wg with mq := mq } }
def swapOp : MatOp := ⟨.swap, 0, 0, none, .queued, 0x10000, [], [], 0, true⟩

/-- A tile command and CPY where the counter is not full and the pool has room; addresses that CPY accepts. -/
theorem witness_CopyCommandsComplete :
    (∀ i uses, issuesNow i uses pa ready = true) ∧ (∀ i, partaking i pa ready = 3) ∧
    (let i := Instr.cpyt ⟨pa, .k 4, 9, 2, true, 15⟩
     let t := tileIssued i pa (.k 4) ready
     (t.wg.tl 2).full = false ∧ (poolAsk t 0 2).isSome = true) ∧
    (let i := Instr.cpy pa 7 (.v 4) (.v 6) 2
     let t := issued i i.uses [] pa ready
     let ls := (lanesOf (partaking i pa ready)).map fun l =>
       (⟨l, opnd64 t l (.v 4), opnd64 t l (.v 6), 0, 0, false, t.th.marked l 2 (.v 4) || t.th.marked l 2 (.v 6)⟩ : LogLane)
     throttleAllows ready = true ∧
       (∀ x ∈ ls, cpyFault t (cpyBytes 2) (.v 4) x.addr = none ∧ cpyFault t (cpyBytes 2) (.v 6) x.a = none) ∧
       (t.wg.tl 7).full = false ∧
       (poolAsk (t.setTh (if ls.any fun x => x.dataMark then t.th.raiseErr 4 else t.th)) 0 (1 + ceilDiv ls.length 4)).isSome = true) :=
  ⟨fun i uses => ready_issues i uses pa, fun i => ready_partake i 0, by decide, by decide⟩

/-- A map and a tile that lie in the scratchpad, the last that do; SEQEND with nothing and with an operation left. -/
theorem witness_CompletionWordsComplete :
    (let i := Instr.cminit pa 15 (.k 2) (.k 3)
     let s := readyWith [] [(2, 0xffc0), (3, 0xfe00)]
     let t := issued i i.uses [] pa s
     issuesNow i i.uses pa s = true ∧ partaking i pa s ≠ 0 ∧
       cminitFault t.wg (uniLane t (partaking i pa s) (.k 2) (.k 3)).a.toNat (uniLane t (partaking i pa s) (.k 2) (.k 3)).b.toNat = none) ∧
    (∀ mq ∈ [[], [swapOp]], issuesNow (.seqend pa) [] pa (sequencer mq) = true ∧ partaking (.seqend pa) pa (sequencer mq) ≠ 0) ∧
    (let u (mq : List MatOp) := { issued (.seqend pa) [] [] pa (sequencer mq) with inputs := [Instr.arrayOwnershipChange 0] }
     seqDone (u []) = true ∧ seqDone (u [swapOp]) = false) := by decide

theorem witness_MatrixWordsComplete :
    let i := Instr.mswap pa 0 false
    let s := sequencer []
    (issuesNow i i.uses pa s = true ∧ partaking i pa s ≠ 0 ∧ (poolAsk (issued i i.uses [] pa s) 1 1).isSome = true ∧
      (poolAsk (issued i i.uses [] pa s) 1 2).isSome = true) ∧
    (let l := Instr.mloop pa (.k 3) 0x3fffe
     let u (x : Word) := s.setTh { s.th with k := [(3, x)] }
     (issuesNow l [] pa (u 1) = true ∧ partaking l pa (u 1) ≠ 0) ∧ (issuesNow l [] pa (u 5) = true ∧ partaking l pa (u 5) ≠ 0) ∧
       (issued l [] [] pa (u 1)).th.rdK 3 = 1 ∧ (issued l [] [] pa (u 5)).th.rdK 3 = 5 ∧ (1 : Word) - 1 = 0 ∧ (5 : Word) - 1 ≠ 0) := by
  decide

/-- FORK at two entries, and a barrier at its last arrival, at an earlier one and one that ignores arrivals. -/
theorem witness_BarrierWordsComplete :
    let i := Instr.fork pa (.k 2) (.k 4)
    let s := readyWith [] [(2, 0x10040), (4, 0x10080)]
    let t := issued i i.uses [] pa s
    let b (e a : BitVec 12) : Bar := ⟨7, a, e, 0, 0⟩
    (issuesNow i (forkUses i) pa s = true ∧ partaking i pa s ≠ 0 ∧ t.th.grp.replay = none ∧ lowLane (partaking i pa s) = 0 ∧
      (opnd64 t 0 (.k 2)).toNat % 8 = 0 ∧ (opnd64 t 0 (.k 4)).toNat % 8 = 0) ∧
    (b 0 0).expect = 0 ∧ ((b 0xfff 0xffe).expect ≠ 0 ∧ (b 0xfff 0xffe).arrived + 1 = (b 0xfff 0xffe).expect) ∧
    ((b 2 0).expect ≠ 0 ∧ (b 2 0).arrived + 1 ≠ (b 2 0).expect) := by decide

/-- A step from reset and one from `ready`, whose memory is canonical. -/
theorem witness_MemoryStaysCanonical :
    (Memory.wf State.reset = true ∧ (match step State.reset with
      | .next _ => true
      | .fault _ => false
      | .refused _ => false) = true) ∧
    (let s := readyWith [] [(2, 0x20000), (4, 0x11223344)]
     Memory.wf s = true ∧ (match step s with
      | .next _ => true
      | .fault _ => false
      | .refused _ => false) = true) := by decide +kernel

/-- A context in dynamic mode with four lists. -/
def dynamic : State := { readyWith [] [(2, 0x20040), (4, 3)] with cx := { ready.cx with dynamic := true, nlist := 4, lcaplog := 6 } }

theorem witness_WorkWordsComplete :
    (let i := Instr.wpush pa (.v 8) (.k 4)
     let t := issued i i.uses [] pa dynamic
     let ls := pushLanes (.v 8) (.k 4) (partaking i pa dynamic) t
     issuesNow i i.uses pa dynamic = true ∧ (∀ x ∈ ls, listBad t.cx x.addr.toNat = false) ∧ ls.length = 2 ∧
       releaseWaits dynamic.th .pk = false ∧ splitPush (listRoom t t.cx) ls = (ls, []) ∧ (cachePush t 32 ls).2 = []) ∧
    (let i := Instr.wpop pa (.v 8) (.k 4) 2
     let t := issued i i.uses [2] pa dynamic
     issuesNow i i.uses pa dynamic = true ∧ ∀ x ∈ popLanes (.k 4) (partaking i pa dynamic) t, listBad t.cx x.2 = false) ∧
    memReady (.wdone pa (.k 2)) (Instr.wdone pa (.k 2)).uses pa (fun s act => (lanesOf act).map (doneLane (.k 2) s)) doneAsk
      (fun s ps => releaseWaits s.th .pk && !ps.isEmpty) dynamic = true ∧
    (let i := Instr.thset pa (.k 8) 9 (.k 2)
     let lanes := fun s act => ((lanesOf act).take 1).map (handleLane (.k 2) s)
     memReady i i.uses pa lanes (handleAsk (.k 2) .load) (fun _ _ => false) dynamic = true ∧
       (memPlaces i pa lanes (handleAsk (.k 2) .load) dynamic).map Prod.snd = [.mem 0x20040 0] ∧
       (peek (memIssued i i.uses pa lanes (handleAsk (.k 2) .load) dynamic) 0 64 (.mem 0x20040 0)).isSome = true) ∧
    memReady (.thget pa 9 (.k 2)) (Instr.thget pa 9 (.k 2)).uses pa (fun s act => ((lanesOf act).take 1).map (handleLane (.k 2) s))
      (handleAsk (.k 2) .store) (fun _ _ => false) dynamic = true ∧
    (Scope.pk ≠ .pd ∨ dynamic.cx.cen = true) := by decide

/-- A context that is live; a list of two records, an empty one, and one that is full (R337). -/
theorem witness_WorkListsAreQueues :
    let s (l : TMap WorkList) : State := { dynamic with cx := { dynamic.cx with lists := l } }
    (getCx dynamic 0).map Context.ctx = some 0 ∧ ((s [(3, ⟨0, [10, 20]⟩)]).cx.list 3).recs = 10 :: [20] ∧
    ((s [(3, ⟨0, [10, 20]⟩)]).cx.list 2).recs = [] ∧ 2 ≠ 3 ∧ listRoom (s []) (s []).cx 3 ≠ 0 ∧
    listRoom (s [(3, ⟨0, List.replicate 64 0⟩)]) (s [(3, ⟨0, List.replicate 64 0⟩)]).cx 3 = 0 := by decide

/-- A landing buffer at the end of the scratchpad, a range that nothing awaits, and a word that its capability lets pass or does not. -/
theorem witness_RemoteWordsComplete :
    (∀ i uses hd, issuesNow i uses hd ready = true) ∧
    landFault ready.wg 0xf000 1 = none ∧ rangeAwaited ready.th 3 256 (.v 0) = false ∧
    (let i := Instr.rwr pa (.v 8) 3 1 .pk true 0 7
     let s := ready.setTh { ready.th with caps := [(3, BitVec.ofNat 128 (2 ^ 96 + 0xffffffff * 2 ^ 48 + 7 * 2 ^ 40))] }
     let t := issued i i.uses [] pa s
     let parts := rwrParts t (partaking i pa s) (.v 8) 8
     issuesNow i i.uses pa s = true ∧ partaking i pa s ≠ 0 ∧ (t.wg.tl 1).full = false ∧ releaseWaits t.th .pk = false ∧
       s.th.grp.replay = none ∧ rwrCheck t (capOf t 3) 0 8 (partaking i pa s) = 0 ∧
       (poolAsk t 0 (1 + ceilDiv (((parts.head?).map fun p => p.2.length).getD 0) 16)).isSome = true ∧
       (let u := { t with wg := (t.wg.ticket 1).2 }
        let v := newSends 1 (t.wg.ticket 1).1 (capOf t 3) 0 8 true .pk parts u
        (launchAll (ownSends v 1 (t.wg.ticket 1).1) v).1 = true)) ∧
    (let i := Instr.rwr pa (.v 8) 3 1 .pk true 0 7
     let t := issued i i.uses [] pa ready
     rwrCheck t (capOf t 3) 0 8 (partaking i pa ready) ≠ 0) :=
  ⟨ready_issues, by decide, by decide, by decide +kernel, by decide⟩

/-- A package phaser of the context with no member, and an any-of phaser with the handle bound in mode `any`. -/
def phasers (anyOf : Bool) (phs : List (Nat × PhHandle)) : State :=
  { ready with
    wg := { ready.wg with phs := phs }
    tether := { Tether.reset with
      nodes := [(.pkg 3, ⟨anyOf, 0, 16, 0, 0, Kid.zero, [], 0, 0, false, false, false, ⟨0, 0, 0, 0⟩, []⟩)]
      roots := [(.pkg 3, PhRoot.fresh anyOf 0)] } }

/-- A registration that is sent, one that has its answer, and one that is refused. -/
theorem witness_PhaserWordsComplete :
    let x : Ph := ⟨pa, 5⟩
    let reg (a : Operand) := Instr.phreg x (.v 4) a 2
    let s := phasers false []
    let noted (a : Operand) := (issued (reg a) (reg a).uses [] pa s).setTh (noteWord (issued (reg a) (reg a).uses [] pa s).th (reg a) 3)
    (issuesNow (reg (.c 35)) (reg (.c 35)).uses pa s = true ∧ partaking (reg (.c 35)) pa s = 3 ∧
      phName (opnd32 (noted (.c 35)) 0 (.c 35)) = some (.pkg 3) ∧
      phregStatus (noted (.c 35)) 5 (opnd32 (noted (.c 35)) 0 (.c 35)) (phMode 2) = 0 ∧
      joiningOf (noted (.c 35)) (memberOf (noted (.c 35)) 5) = none ∧ (phNode (noted (.c 35)) (.pkg 3)).isSome = true) ∧
    (let j : Joining := ⟨s.th.agent, memberOf s 5, .pkg 3, phMode 2, some 7⟩
     let u := { s with tether := { s.tether with joining := [j] } }
     let v := issued (reg (.c 35)) (reg (.c 35)).uses [] pa u
     issuesNow (reg (.c 35)) (reg (.c 35)).uses pa u = true ∧ partaking (reg (.c 35)) pa u ≠ 0 ∧
       joiningOf v (memberOf v 5) = some j ∧ v.th.agent = s.th.agent ∧ memberOf v 5 = memberOf s 5) ∧
    (issuesNow (reg (.c 36)) (reg (.c 36)).uses pa s = true ∧ partaking (reg (.c 36)) pa s ≠ 0 ∧
      joiningOf (noted (.c 36)) (memberOf (noted (.c 36)) 5) = none ∧
      phregStatus (noted (.c 36)) 5 (opnd32 (noted (.c 36)) 0 (.c 36)) (phMode 2) ≠ 0) := by decide

/-- Handles whose phase is open to signal, one whose member is a phase ahead, and the modes and kinds that the waiting words ask for. -/
theorem witness_PhaserWordsComplete_handles :
    let x : Ph := ⟨pa, 5⟩
    let any := phasers true [(5, ⟨.pkg 3, .any, 1, 1⟩)]
    let sig := phasers false [(5, ⟨.pkg 3, .sigwait, 1, 1⟩)]
    let late := phasers false [(5, ⟨.pkg 3, .sigwait, 2, 1⟩)]
    let i := Instr.phsig x (.v 0) .pk
    let u (t : State) : State := issued i (usesOr i (.v 0)) [] pa t
    (∀ t ∈ [any, sig, late], issuesNow i (usesOr i (.v 0)) pa t = true ∧ partaking i pa t ≠ 0 ∧
      (handleAt (u t) 5).isSome = true ∧ ((phNode (u t) (.pkg 3)).map PhNode.seen) = some 0 ∧ holdFull (u t) = false) ∧
    (1 : Word) ≠ 0 + 2 ∧ (2 : Word) = 0 + 2 ∧
    ((handleAt (u any) 5).map PhHandle.mode) = some .any ∧ ((handleAt (u sig) 5).map PhHandle.mode) = some .sigwait ∧
    PhMode.any ≠ .wait ∧ PhMode.sigwait ≠ .wait ∧ PhMode.sigwait ≠ .sig ∧ ((phNode (u any) (.pkg 3)).map PhNode.anyOf) = some true := by
  decide

/-- A collective at an aligned descriptor while none runs. -/
theorem witness_PhaserWordsComplete_coll :
    let i := Instr.coll pa 7 9 (.k 4)
    let s := readyWith [] [(5, 0x20040)]
    let t := issued i i.uses [] pa s
    let x := collLane t (partaking i pa s) (.k 4)
    let t' := t.setTh (noteLane t.th x)
    issuesNow i i.uses pa s = true ∧ partaking i pa s ≠ 0 ∧ x.addr.toNat % 64 = 0 ∧ (t'.wg.tl 7).full = false ∧
      (t'.colls.any fun y => y.ctx == t'.wg.ctx && y.num == bitsN x.data.toNat 31 16 && y.wgl == t'.wg.wgl && !y.numberFree t') = false ∧
      ((activeColls t').contains (t'.wg.ctx, bitsN x.data.toNat 31 16) = true ∨
        (activeColls t').length < bitsN t'.collcfg.toNat 22 16) ∧ (poolAsk t' 0 3).isSome = true := by decide

/-- A firmware core that acts as Ringmaster, and ASTLEN 4: address spaces 0 to 3 have an entry. -/
def leading : State :=
  { core with trust := { State.reset.trust with leases := [(0, { Lease.fresh with term := 1, voted := some (1, 0), ends := 100, self := true, any := true })] }
              trans := { State.reset.trans with astlen := 4 } }

theorem witness_SystemWordsComplete :
    (∀ i uses hd, issuesNow i uses hd ready = true) ∧
    (∀ n ∈ [0x18000, 0x10000], leaderView leading n false = some true ∧ leaderView leading n true = some true) ∧
    (let i := Instr.swriteSys pa 0x18000 (.k 2)
     issuesNow i i.uses pa leading = true ∧ partaking i pa leading ≠ 0) ∧
    (opnd64 ready 0 (.k 2)).toNat % 8 = 0 ∧
    (let i := Instr.pggen pa (.k 2) (.k 3)
     issuesNow i i.uses pa leading = true ∧ partaking i pa leading ≠ 0 ∧
       (opnd32 (issued i i.uses [] pa leading) 0 (.k 3)).toNat < (issued i i.uses [] pa leading).trans.astlen.toNat ∧
       opsIn (issued i i.uses [] pa leading) (opnd32 (issued i i.uses [] pa leading) 0 (.k 3)).toNat = false) ∧
    (let i := Instr.pggen pa (.k 2) (.c 36)
     issuesNow i i.uses pa leading = true ∧ partaking i pa leading ≠ 0 ∧
       (issued i i.uses [] pa leading).trans.astlen.toNat ≤ (opnd32 (issued i i.uses [] pa leading) 0 (.c 36)).toNat) :=
  ⟨ready_issues, by decide, by decide, by decide, by decide, by decide⟩

/-- A control core that has taken an assist request of one element. -/
def assisting : State :=
  { core with th := { core.th with agent := .control 0 }, assists := [(0, [⟨0, 0, 0, 5, [(0, 0, 0x3f800000, .scratch 0 0 0)], true, 0⟩])] }

theorem witness_ControlCoreWordsComplete :
    let i := Instr.assistGet pa (.v 4) (.k 2)
    let j := Instr.assistPut pa (.k 2) (.k 3)
    issuesNow i i.uses pa assisting = true ∧ partaking i pa assisting ≠ 0 ∧ issuesNow j j.uses pa assisting = true ∧
    partaking j pa assisting ≠ 0 ∧
    ((takenAssist assisting).bind fun r => r.elems[(opnd32 assisting 0 (.k 2)).toNat]?) = some (0, 0, 0x3f800000, .scratch 0 0 0) ∧
    ((tget [] assisting.assists assisting.th.agent.cluster).head?.map fun a => a.taken) = some true ∧
    issuesNow (.halt pa) [] pa assisting = true ∧ partaking (.haltStop pa) pa assisting ≠ 0 := by decide

/-! ### Witnesses: device steps -/

/-- `ready` with core 0 holding a started copy command. -/
def copying (chunks : List (Nat × Nat × Nat × Nat)) (notify : Option (Nat × Nat × Nat × Word)) : State :=
  { ready with cores := [(0, { CoreSt.fresh with copyq :=
      [⟨0, .troupe 0 0 0, 1, 1, .tile 15, false, 0, 0, 0, 64, 2, .started, 0, false, false, false, false, chunks, notify, [], [], 0⟩] })] }

/-- A chunk to count, with its map bound and unbound; nothing left with no notify word, and with one in a cohort member. -/
theorem witness_CopyEngineSteps :
    (let s := copying [(0, 0, 64, 3)] none
     (match (s.core 0).copyq.find? fun x => x.id == 0 && x.phase == .started && x.remote.isEmpty with
      | some x => x.chunks == [(0, 0, 64, 3)] && (getWg (putCmd s 0 { x with chunks := [] }) 0 0).any (fun g => (findMap g 64).isNone)
      | none => false) = true ∧
     (findMap { s.wg with cms := [(2, ⟨1, 0, 1, 0, false⟩)] } 64).isSome = true) ∧
    (∀ n ∈ [none, some (0, 1, 64, (5 : Word))],
      let s := copying [] n
      (match (s.core 0).copyq.find? fun x => x.id == 0 && x.phase == .started with
      | some x => x.chunks == [] && x.remote == [] && x.code == 0 && x.notifyAway s == n
      | none => false) = true) := by decide

/-- `ready` with an operation in its queue and the array in its hands, or not. -/
def arrayed (owner : Option (Nat × Nat)) (phase : MatPhase) : State :=
  { ready with wg := { ready.wg with mq := [{ swapOp with phase := phase }] }, cores := [(0, { CoreSt.fresh with owner := owner })] }

theorem witness_MatrixArraySteps :
    (let u (s : State) := (wgsOn s 0).foldl (fun s g => putWg s (headArrives g)) s
     ((u (arrayed none .queued)).core 0).owner = none ∧ ((u (arrayed (some (0, 0)) .queued)).core 0).owner = some (0, 0) ∧
       (getWg (u (arrayed (some (0, 0)) .queued)) 0 0).isSome = true) ∧
    (((arrayed (some (0, 0)) .started).core 0).owner = some (0, 0) ∧ (getWg (arrayed (some (0, 0)) .started) 0 0).isSome = true ∧
      (engCtx (arrayed (some (0, 0)) .started) 0 (.matrix 0 0)).isSome = true ∧
      goingOp [{ swapOp with phase := .started }] = some ([], { swapOp with phase := .started }, []) ∧
      goingOp [{ swapOp with phase := .acking }] = some ([], { swapOp with phase := .acking }, [])) ∧
    (ownerFree (arrayed none .queued) 0 = true ∧ ((arrayWaiters (arrayed none .queued) 0).head?).isSome = true) ∧
    (let s := (sequencer []).setTh { (sequencer []).th with pend := [⟨1, 0x10000, 0, true, .wait .seqend, [], none, none⟩] }
     s.th.agent = (if false = true then .copy 0 0 else .matrix 0 0) ∧ s.th.pend.any (Pend.waitsFor Wait.isSeqend) = true ∧ seqDone s = true) ∧
    (let who (pc : DWord) : Producer := .word (.troupe 0 0 0) 0 pc
     let s (l : List (Nat × Producer)) : State := { ready with cores := [(0, { CoreSt.fresh with stalled := l })] }
     let first (l : List (Nat × Producer)) := ((s l).core 0).stalled.find? fun x => x.1 == 1 && producerAlive (s l) x.2
     let here := who ready.th.grp.pc
     ((s []).core 0).stalled = [] ∧ first [] = none ∧ poolRoom ((s []).core 0) 1 2 = true ∧
     first [(1, who 0), (1, here)] = some (1, here) ∧ sameProducer (s []) here here = true ∧ sameProducer (s []) here (who 0) = false) ∧
    ((wgsOn (arrayed none .queued) 0).any fun g => g.mq.any fun x => x.phase == .started) = false := by decide +kernel

/-- A delivery of a troupe to its own workgroup on core 0, in a phase, with its packet at a stop of cluster 0. -/
def delivering (phase : DeliveryPhase) (cur : Nat) : State :=
  { ready with
    sends := [⟨4, .word (.troupe 0 0 0) 0 1 1, BitVec.ofNat 128 (2 ^ 96 + 0xffffffff * 2 ^ 48), 0, 1, 3, [(7, false), (8, false)], false,
               .pk, true, phase⟩]
    forward := [((0, 0), 2)]
    carousels := [(0, { Carousel.fresh with packets := [⟨4, .delivery 4, 3, 0, cur, false, false, 1, .pool, 0, [], [], false, 1, []⟩] })] }

/-- A packet that may hop, one at its target with its entries free, a delivery at a slice whose target is on a core or nowhere, one in
queue 2, and answers of a word of this package and of another package. -/
theorem witness_DeliverySteps :
    (let s := delivering .ring 3
     (match (s.ring 0).packets.find? fun p => p.id == 4 with
      | some p => p.cur != p.dst && (carHop (s.ring 0) p).isSome
      | none => false) = true) ∧
    (let s := delivering .ring 0
     (match (s.ring 0).dueAt 0 with
      | p :: _ => (performLoad s 0 p).1
      | [] => false) = true) ∧
    (let s := delivering .slice 0
     ((s.sends.find? fun d => d.id == 4).map fun d => (d.phase, sendBefore s d, sliceHolds s d)) = some (.slice, false, false) ∧
     ((s.sends.find? fun d => d.id == 4).map fun d => coreOf s (capTarget d.cap).1 (capTarget d.cap).2.1) = some (some 0) ∧
     ((s.sends.find? fun d => d.id == 4).map fun d => coreOf { s with forward := [] } (capTarget d.cap).1 (capTarget d.cap).2.1)
       = some none) ∧
    (let s := delivering (.inbound 0) 0
     ((s.sends.find? fun d => d.id == 4).map fun d => (d.phase, sendBefore s d)) = some (.inbound 0, false)) ∧
    (let s := delivering (.answered 0) 0
     ((s.sends.find? fun d => d.id == 4).map fun d => (d.phase, d.sender)) = some (.answered 0, .word (.troupe 0 0 0) 0 1 1)) ∧
    (let s := delivering (.answered 0) 0
     let l := s.sends.map fun d => ({ d with sender := .packet packetBlank } : Delivery)
     ((l.find? fun d => d.id == 4).map fun d => (d.phase, d.sender)) = some (.answered 0, .packet packetBlank)) := by decide

/-- Address space 0 with one leaf of 8 GiB that maps addresses onto themselves, granted to queue 0, whose command at HEAD
holds the given bytes. -/
def queued (cmd : TMap Byte) : State :=
  { State.reset with
    trans := { State.reset.trans with astbase := 0x100000, astlen := 1, savecnt := 4 }
    mem := cmd ++ [(0x100002, 0x11), (0x10000c, 1), (0x100012, 0x12), (0x110000, 1), (0x110001, 0x80), (0x110002, 0x11),
                   (0x118000, 0x7f), (0x120000, 1)]
    queues := [(0, { Queue.fresh with base := 0x30000, cfg := 0x84, tail := 1, grants := [0] })] }

/-- A WAIT for `n` at 0x20000, and a SIGNAL to an address. -/
def waitCmd (n : Byte) : TMap Byte := [(0x30000, 2)] ++ (if n = 0 then [] else [(0x30008, n)]) ++ [(0x30012, 2)]
def signalCmd (far : Bool) : TMap Byte := if far then [(0x30000, 3), (0x30015, 1)] else [(0x30000, 3), (0x30012, 2)]

/-- Each command is taken; a WAIT of a misaligned word, a command of another type and a halted queue. -/
theorem witness_QueueSteps_take :
    (takeCmd (queued []) 0 0).isSome = true ∧ (takeCmd (queued [(0x30000, 1)]) 0 1).isSome = true ∧
    (∀ x ∈ [(waitCmd 0, true), ([(0x30000, 2), (0x30010, 1)], false)],
      ((takeCmd (queued x.1) 0 2).map fun r => waitFieldsOk r.2 0 r.1) = some x.2) ∧
    (((queued [(0x30000, 4)]).queue 0).fetchable = true ∧ 4 ≤ cmdType (headCmd (queued [(0x30000, 4)]) ((queued []).queue 0))) ∧
    (({ queued [] with queues := [(0, { Queue.fresh with halted := true })] } : State).queue 0).halted = true ∧
    queueShown (queued []) ⟨some 16, 63⟩ = true ∧ queueShown (queued []) ⟨some 16, 64⟩ = false ∧ (15 ≠ 16 ∧ 59 / 4 ≠ 15) := by
  decide +kernel

/-- A SIGNAL whose address is translated, with no launch out: its word lies here, or has its home in package 1; and one whose address
has no translation. -/
theorem witness_QueueSteps_signal :
    (∀ h ∈ [0, 5],
      let s := queued (signalCmd false)
      let t := if h = 0 then s else { s with trans := { s.trans with homes := [(2, h)] }, trust := { s.trust with table := [(1, true)] } }
      (t.queue 0).cmd = none ∧
      (match takeCmd t 0 3 with
        | some (c, u) => waitFieldsOk u 0 c && !launchesOut u 0
            && (match frontWalk u (bitsN c 207 192) (bitsN c 184 128) .store with
              | (.ok (pa, key), v) => !inDirectory pa && (frontWrite v pa key (toBytes 8 (bitsN c 127 64))).1.isSome == decide (h = 5)
              | (.error _, _) => false)
        | none => false) = true) ∧
    (let s := queued (signalCmd true)
     (s.queue 0).cmd = none ∧
      (match takeCmd s 0 3 with
        | some (c, u) => waitFieldsOk u 0 c && !launchesOut u 0
            && (match (frontWalk u (bitsN c 207 192) (bitsN c 184 128) .store).1 with
              | .ok _ => false
              | .error _ => true)
        | none => false) = true) := by decide +kernel

/-- A fetched WAIT whose word is large enough, and one whose word is not. -/
theorem witness_QueueSteps_wait : ∀ n ∈ [(0 : Byte), 1],
    let s := after (exec (.cmdWait 0) (queued (waitCmd n))) (queued [])
    let c := headCmd (queued (waitCmd n)) ((queued (waitCmd n)).queue 0)
    (s.queue 0).cmd = some (c, .fetched) ∧ cmdType c = 2 ∧
    (match frontWalk s (bitsN c 207 192) (bitsN c 184 128) .load with
      | (.ok (pa, key), u) => !inDirectory pa && (match (frontRead (if homedHere u pa then drainDie u 0 else u) pa key 8).1 with
          | some (b, _) => decide (bitsN c 127 64 ≤ ofBytes b) == decide (n = 0)
          | none => false)
      | (.error _, _) => false) = true := by decide +kernel

/-! ### Witnesses: launches -/

/-- `queued` with a page for code at 0x10000 and one for data at 0x20000, and nothing else. -/
def coded (cmd : TMap Byte) : State :=
  { queued [] with
    mem := cmd ++ [(0x100002, 0x11), (0x10000c, 1), (0x100012, 0x12), (0x110000, 1), (0x110001, 0x80), (0x110002, 0x11),
                   (0x118000, 1), (0x118002, 0x13), (0x120000, 1), (0x130000, 1), (0x130001, 0x10), (0x130002, 0x13),
                   (0x131000, 1), (0x131001, 0x20), (0x131002, 0x13), (0x132008, 0x7f), (0x13200a, 1), (0x132010, 0x77), (0x132012, 2)] }

/-- A launch of one workgroup of one troupe on core 0: code at 0x10000, completion record at 0x20000. -/
def launchCmd : TMap Byte := [(0x30000, 1), (0x30006, 0x80), (0x30012, 1), (0x30018, 1), (0x30082, 2)]
/-- The same without a core, and one that asks for package phaser 3 of the kind any-of. -/
def badCmd : TMap Byte := [(0x30000, 1), (0x30006, 0x80), (0x30012, 1), (0x30082, 2)]
def phCmd : TMap Byte := [(0x30000, 1), (0x30006, 0x80), (0x30012, 1), (0x30018, 1), (0x30082, 2), (0x30092, 3), (0x30093, 0x20), (0x30094, 0x10)]

/-- A launch that is carried out, one that check 1 refuses (no core), and one whose phaser exists with the other KIND (check 9). -/
theorem witness_LaunchSteps_start :
    (let s := after (exec (.cmdLaunch 0) (coded launchCmd)) (coded [])
     let c := headCmd (coded launchCmd) ((coded launchCmd).queue 0)
     (s.queue 0).cmd = some (c, .fetched) ∧ cmdType c = 1 ∧ bitsN c 31 31 = 0 ∧ ((liveCxs s).any fun x => x.ctx == lCtx c) = false ∧
     lDone c % 64 = 0 ∧ launchFails s 0 c = 0 ∧
     (match frontWalk s (lAsid c) (lDone c) .store with
       | (.ok (pa, _), u) => !inDirectory pa && (match createPhreqs c [0, 1, 2, 3] u with
           | (p, false, v) => (match startLaunch v 0 c p with
               | .next w => (w.queue 0).cmd == some (c, .placing)
               | .fault _ => false
               | .refused _ => false)
           | (_, true, _) => false)
       | (.error _, _) => false) = true) ∧
    (let s := after (exec (.cmdLaunch 0) (coded badCmd)) (coded [])
     let c := headCmd (coded badCmd) ((coded badCmd).queue 0)
     (s.queue 0).cmd = some (c, .fetched) ∧ launchFails s 0 c ≠ 0 ∧ lDone c % 64 = 0 ∧
     (match (frontWalk s (lAsid c) (lDone c) .store).1 with
       | .ok (pa, _) => !inDirectory pa
       | .error _ => false) = true) ∧
    (let u := { coded phCmd with tether := { Tether.reset with
       nodes := [(.pkg 3, ⟨false, 0, 16, 0, 0, Kid.zero, [], 0, 0, false, false, false, ⟨0, 0, 0, 0⟩, []⟩)] } }
     let s := after (exec (.cmdLaunch 0) u) u
     let c := headCmd u (u.queue 0)
     (s.queue 0).cmd = some (c, .fetched) ∧ launchFails s 0 c = 0 ∧ (createPhreqs c [0, 1, 2, 3] s).2.1 = true) := by decide +kernel

/-- `queued` with context 0 live, with a workgroup still to be placed on core 5, or none. -/
def launched (toPlace : List (Nat × Nat × Nat × Nat)) : State :=
  { queued [] with cxs := [{ Context.none with live := true, troupes := 1, regs := 32, wcount := 1, cores := 0xff, toPlace := toPlace,
                                               doneaddr := 0x20000 }] }

theorem witness_LaunchSteps_place :
    let s := launched [(0, 5, 0, 0)]
    (match getCx s 0 with
      | some x => decide ((x.toPlace.find? fun p => p.1 == 0) = some (0, 5, 0, 0)) && !(s.core 5).disabled && !x.ending && hasRoom s x 5
          && (frontGather x.asid (linePieces x.uregp.toNat (4 * x.uregs)) s).1.isSome
      | none => false) = true := by decide +kernel

/-- The last troupe has no live lane; its workgroup has nothing left; the context has no workgroup left. -/
theorem witness_LaunchSteps_ends :
    (let s := ready.setTh { ready.th with live := 0 }
     ((s.thread (.troupe 0 0 0)).map fun th => (th.failed, th.live, th.status, memoryDone th)) = some (false, 0, .running, true)) ∧
    (let s := { ready with wg := { ready.wg with gone := 1 } }
     (match getWg s 0 0 with
       | some g0 => (match getWg (countFailed s g0) 0 0 with
           | some g => !g.ended && wgDone (countFailed s g0) g
           | none => false)
       | none => false) = true) ∧
    (let s := launched []
     (match getCx s 0 with
       | some x =>
         let s1 := launchBegun s x
         let y := { x with phreqs := [], key := 0, codeLo := 0, codeHi := 0, codeUnits := [] }
         decide (x.toPlace = []) && !((allWgs s).any fun g => g.ctx == 0 && !g.ended) && decide (x.doneWait = none) && !x.declined
           && (match (frontWalk (putCx (((getCx s1 0).getD y).phreqs.foldl destroyPhreq s1) y) x.asid x.doneaddr.toNat .store).1 with
             | .ok p => !inDirectory p.1
             | .error _ => false)
       | none => false) = true) := by decide +kernel

/-- A resident cohort, and one that is swapped out with room on a core of its cluster. -/
theorem witness_LaunchSteps_cohorts :
    (let l := (cohortOf ready 0 0).filter fun g => g.core.isSome
     let u (f : List ((Nat × Nat) × Nat)) := l.foldl (fun s g => putWg s { g with stopping := true }) { ready with forward := f }
     ((getCx ready 0).map fun x => x.ending) = some false ∧ l ≠ [] ∧ (l.all fun g => g.ended) = false ∧ l.any onArray = false ∧
       (l.any fun g => lookupBy (g.ctx, g.wgl) (u []).forward != some 1) = true ∧
       (l.any fun g => lookupBy (g.ctx, g.wgl) (u [((0, 0), 1)]).forward != some 1) = false ∧ l.any (inboundFor (u [((0, 0), 1)])) = false) ∧
    (let s := { ready with wg := { ready.wg with core := none }, cx := { ready.cx with cores := 0xff, regs := 32 } }
     let l := cohortOf s 0 0
     (match getCx s 0 with
       | some x => decide (l.length = 1) && (l.all fun g => g.core.isNone) && (l.any fun g => !g.ended) && !x.ending
           && [5].all fun k => canResume s x k
       | none => false) = true ∧ [5].eraseDups = [5] ∧ ∀ k ∈ [5], k / 8 = [5].headD 0 / 8) ∧
    (((getWg ready 0 0).map fun g => (g.core.isSome, decide (0 < backedPages g))) = some (true, true)) ∧
    ((getCx ready 0).map fun x => x.nopre) = some false ∧
    (let s := { ready with cx := { ready.cx with ending := true } }
     ((getCx s 0).map fun x => x.ending) = some true ∧ contextBusy s 0 = false) := by decide +kernel

/-! ### Witnesses: paging, the Tether, packets and ports -/

/-- A parent record for a list with room; a context without open work; a write that a die may apply; a collective of which nothing
is left to do, and one that goes on. -/
theorem witness_CurtainAndCollectiveSteps :
    (let s := { dynamic with cx := { dynamic.cx with parents := [(2, 7)] } }
     ((getCx s 0).map fun x => (x.parents.find? fun y => y.1 == 2, decide (listRoom s x 2 ≠ 0))) = some (some (2, 7), true)) ∧
    ((getCx dynamic 0).map fun x => (x.open_, x.dynamic)) = some (0, true) ∧
    (dueUpdate [0, 0, 0, 0] [] [(⟨0, ⟨[(0x20000, [1])], [], []⟩, 1, [0, 0, 0, 0]⟩ : DieUpdate)]).isSome = true ∧
    (collCycle 0 0 ready).collq = ready.collq ∧ (collCycle 0 0 ready).colls = ready.colls ∧
    (let s := { ready with colls := [⟨0, 0, .troupe 0 0 0, 1, 1, 0, 0, 0, 0, 0, 0, 0, .failed, .localCopy, 0, [], 0, 0, [0], [], 0, 0, [], [],
                                    false, [], 1, false, false, false, false, 0, true, 0, [], [], 0, 0⟩] }
     (collCycle 0 0 s).colls ≠ s.colls) ∧
    (let x : Coll := ⟨0, 0, .troupe 0 0 0, 1, 1, 0, 0, 0, 0, 0, 0, 2, .running, .localCopy, 0, [(0, 0), (0, 1)], 0, 0, [0, 1], [0, 1], 0, 0, [], [],
                      false, [], 0, false, false, false, false, 0, true, 0, [], [], 0, 0⟩
     (x.ring.any fun p => x.member p == 1) = true ∧ x.begun.contains 1 = false ∧ x.issued + 1000 * x.timeout ≤ 2000 ∧
       lags { ready with podTime := 2000, colls := [x] } 0 0 1 = true ∧ lags { ready with podTime := 1999, colls := [x] } 0 0 1 = false ∧
       ({ x with begun := [1] }.follows 1 = true)) := by decide +kernel

/-- A unit that die 1 asked for most in the epoch, with a free frame in the pool of die 1; one that moves, with no write due. -/
theorem witness_PagingSteps :
    (let s := { ready with trans := { ready.trans with counts := [(2, [(1, 600)])], frames := [(1, [77])] } }
     migCandidate s 2 = some 1 ∧ unitHome s 2 / 4 = s.pkg ∧ inSaveAreas s 2 = false ∧ tget false s.trans.pinned 2 = false ∧
       (s.trans.moving.any fun m => m.1 == 2) = false ∧ tget 0 s.trans.hold 2 ≤ s.podTime ∧
       (takeFrame { s with trans := { s.trans with counts := tset [] s.trans.counts 2 [], askers := tset [] s.trans.askers 2 [] } } 1).isSome = true) ∧
    (let s := { ready with trans := { ready.trans with moving := [(2, 1, 78, 0)] } }
     (s.trans.moving.find? fun m => m.1 == 2) = some (2, 1, 78, 0) ∧
       ((List.range 4).any fun d => (s.die d).updates.any fun x => x.write.at_ / 65536 == 2) = false) ∧
    (let s := { ready with trans := { ready.trans with homes := [(2, 6)] } }
     (s.trans.moving.find? fun m => m.1 == 2) = none ∧ unitHome s 2 / 4 ≠ s.pkg) ∧
    tget 0 ready.trans.hold 2 ≤ ready.podTime ∧ (tget [] ready.trans.frames 3).length < 256 := by decide +kernel

/-- A package phaser and a pod-wide one whose root is here, one without a root, and a signal that a die node holds. -/
def tethered (inbox : List (Nat × PhArrival)) : State :=
  let node (x : Nat) : PhNode := ⟨false, 0, 16, 0, x, Kid.zero, [], 0, 0, false, false, false, ⟨0, 0, 0, 0⟩, []⟩
  { ready with tether := { Tether.reset with
      up0 := true
      nodes := [(.pkg 3, node 0), (.pod 7, node 2), (.pod 8, node 0)]
      roots := [(.pkg 3, { PhRoot.fresh false 0 with kids := [(0, ⟨0, 1, 0, 1, 1⟩)], inbox := inbox }), (.pod 7, PhRoot.fresh false 5)]
      held := [⟨0, (0, 0, 5), .pkg 3, .signal 0 none, none, []⟩] } }

/-- A reached root whose next phase is not complete, and one with a signal for each of two phases; messages to a root that exists and to
none; releases that are ahead of a root, behind it, and of a phaser without one. -/
theorem witness_TetherSteps :
    (∀ x ∈ [([], false), ([(0, .signal 0 none), (0, .signal 1 none)], true)],
      let s := tethered x.1
      rootReached s (.pkg 3) = true ∧
      (match phRoot s (.pkg 3) with
        | some r => decide (r.lost = []) && (({ r with inbox := [], unsent := [] }.cycle s.pkg false s.podTime false r.inbox).2.ready == x.2)
        | none => false) = true) ∧
    (let s := tethered []
     isPod (.pod 7) = true ∧ 1 ≠ s.pkg ∧ phRoot s (.pod 8) = none ∧ ((phRoot s (.pod 7)).map PhRoot.spine) = some 5 ∧
     (phNode s (.pod 7)).isSome = true ∧ (phNode s (.pod 8)).isSome = true ∧ phaseDone 0 0 = false ∧
     ((phNode s (.pod 7)).map PhNode.seen) = some 0 ∧ ((phNode s (.pod 8)).map PhNode.seen) = some 0 ∧
     ((phRoot s (.pod 7)).map fun r => (phaseDone r.c 0, phaseDone { r with c := 1 }.c 0)) = some (false, true) ∧
     (match (s.tether.held.filter fun x => x.die == 0)[0]? with
       | some x => heldReady s x && decide ((s.tether.held.find? fun y => y.member == x.member) = some x)
       | none => false) = true) := by decide +kernel

/-- Phasers without members, with members and none; a count that is first locked, and one that is ahead. -/
theorem witness_TetherSteps_desc :
    let s := tethered []
    let u (sel v : Word) : State := clearRefused { s with tether := { s.tether with phsel := sel } } v
    ((phNode (u 3 0) (selName (u 3 0).tether.phsel)).map PhNode.members) = some 0 ∧
    ((phNode (u 0x1007 0) (selName (u 0x1007 0).tether.phsel)).map PhNode.members) = some 2 ∧
    phNode (u 9 2) (selName (u 9 2).tether.phsel) = none ∧ phNode (u 9 0) (selName (u 9 0).tether.phsel) = none ∧
    (2 : Word).getLsbD 1 = true ∧ (0 : Word).getLsbD 1 = false ∧
    true ≠ s.tether.active ∧ (s.tether.locked = false ∧ s.podTime ≤ (5 : DWord).toNat) ∧
    (5 : DWord).toNat < ({ s with podTime := 9 } : State).podTime ∧ ({ s.tether with locked := true } : Tether).locked = true := by
  decide +kernel

/-- A package with port 0 up and an unretired packet of stream (1, 0, 0) on it. -/
def linked : State :=
  { ready with fabric := { Fabric.reset with
      ports := [(0, { Port.fresh with st := .up, active := 0xf, lanes := 0xf, flits := [⟨{ packetBlank with dst := 1 }, 0⟩] }), (1, { Port.fresh with st := .train })]
      flows := [((1, 0, 0), { Flow.fresh with next := 1, unretired := [⟨{ packetBlank with dst := 1 }, some 0, some 0, []⟩] })] } }

theorem linked_planes : linked.fabric.planesFor [1] none 1 = [0] := by decide
theorem ready_planes : ready.fabric.planesFor [1] none 1 = [] := by decide

/-- A packet of each type on a port that is UP, in order and of a trusted package, and on one that is not UP or waits for a replay; reserved
headers; a plane for an ACK and none; a packet that a timeout names; a stream that can be closed. -/
theorem witness_PacketSteps :
    (∀ n ∈ List.range 12, ({ packetBlank with typ := BitVec.ofNat 4 n } : Packet).typ = BitVec.ofNat 4 n) ∧
    newEpochIn (heard linked packetBlank) packetBlank = linked ∧
    (let p := packetBlank
     linked.fabric.hears p = true ∧ inKey p = (0, 0, 0) ∧ trusted linked p.src = true ∧
       p.seq = (linked.fabric.inflow (inKey p)).expect ∧ (linked.fabric.inflow (inKey p)).held = [] ∧
       (linked.fabric.port 1).st ≠ .up ∧ ({ linked.fabric.port 0 with asked := true } : Port).asked = true ∧ p.resent = false) ∧
    (headerReserved 12 = true ∧ ((12 : BitVec 512).extractLsb' 52 5).toNat = 0 ∧ headerReserved (BitVec.ofNat 512 (2 ^ 57)) = true ∧
      headerReserved (BitVec.ofNat 512 (2 ^ 127)) = true) ∧
    ((linked.fabric.port 0).st = .up ∧ (linked.fabric.port 0).asked = false) ∧
    linked.fabric.rateCfg.getLsbD 14 = false ∧ (pickPlane linked [1] none 1).isSome = true ∧ (pickPlane ready [1] none 1).isNone = true ∧
    (linked.fabric.flows.findSome? fun x => (x.2.unretired.find? fun e => e.port.any (timedOut 1 0 0 0 e.pkt)).map
      fun e => (x.2, e.pkt)).isSome = true ∧
    (let mine (k : Nat × Nat × Nat) : Bool := k.1 == 1 && k.2.1 == 0
     let flows := linked.fabric.flows.filter fun x => mine x.1
     flows ≠ [] ∧ (flows.flatMap fun x => x.2.unretired.map fun e => e.pkt) ≠ []) :=
  ⟨by decide, rfl, by decide, by decide +kernel, by decide, by decide, by simp [pickPlane, linked_planes, Nat.mod_one], by simp [pickPlane, ready_planes], by decide,
    by decide⟩

/-- Port 1 trains and meets its own digest with KEYMAP set; ports in every state that a step asks for. -/
theorem witness_PortSteps :
    (let x := linked.fabric.port 1
     let active := activeOf x.pwidth (0xf &&& x.lmask &&& ~~~x.retiredLanes)
     let own := digestOf linked 1 active
     let digest : Word := BitVec.ofNat 32 (own + 2 ^ 31)
     x.training = true ∧ x.retiredLanes ≠ 0xf ∧ active ≠ 0 ∧ digest.toNat % 2 ^ 14 = own % 2 ^ 14 ∧
       bitsN digest.toNat 18 14 = bitsN own 18 14 ∧ digest.getLsbD 31 = true ∧ x.tries < 4 ∧ 4 ≤ ({ x with tries := 4 } : Port).tries) ∧
    (linked.fabric.port 2).st = .off ∧
    (let f := linked.fabric.setPort 2 { Port.fresh with st := .failed }
     (f.port 2).st = .failed) ∧ (2 : BitVec 2) ≠ 3 ∧
    (let f := linked.fabric.setPort 0 { linked.fabric.port 0 with planned := true }
     (f.port 0).planned = true ∧ (f.port 0).st = .up ∧ activeOf (f.port 0).pwidth (f.port 0).lanes ≠ 0 ∧
       activeOf (f.port 0).pwidth 0 = 0) ∧
    (let f := linked.fabric.setPort 0 { linked.fabric.port 0 with flits := [] }
     let s := { ready with power := { ready.power with cfg := ready.power.cfg ||| 0x1000000 } }
     (f.port 0).st = .up ∧ (f.port 0).flits = [] ∧ s.power.cfg.getLsbD 24 = true ∧ widest 2 ≤ widest (f.port 0).pwidth ∧
       activeOf 2 (f.port 0).lanes ≠ 0) ∧
    (let x := linked.fabric.port 0
     x.st = .up ∧ x.active.getLsbD 3 = true) ∧
    (0 < (linked.fabric.port 0).flits.length ∧ (linked.fabric.port 0).fails < 7) ∧
    7 ≤ ({ linked.fabric.port 0 with fails := 7 } : Port).fails := by decide +kernel

/-! ### Witnesses: errors, leases, power, cores and the host -/

/-- A control core and a firmware core that have failed. -/
def broken : State :=
  { ready with threads := [{ Thread.fresh (.control 0) (.faulted .prot) 1 with ident := ⟨0, 0, 0, 0, 0, 0, 0, 0⟩ },
                           { Thread.fresh (.firmware 1) (.faulted .prot) 1 with ident := ⟨0, 0, 0, 0, 48, 6, 1, 0⟩ }] }

theorem witness_ErrorSteps :
    (getWg ready 0 0).isSome = true ∧
    (((arrayed (some (0, 0)) .started).core 0).owner.bind fun o => getWg (arrayed (some (0, 0)) .started) o.1 o.2).any onArray = true ∧
    ((getWg ready 0 0).any fun g => !g.matrix.badAcc.contains (accKey 7 63 63)) = true ∧ 191 ≤ 191 ∧ ((wgsOn ready 0).any fun g => !g.ended) = true ∧
    ((delivering .ring 3).sends.find? fun d => d.id == 4).map Delivery.sender = some (.word (.troupe 0 0 0) 0 1 1) ∧
    ((broken.thread (.control 0)).map fun th => th.failed) = some true ∧
    ((broken.thread (.firmware 1)).map fun th => th.failed) = some true := by decide +kernel

/-- Leases of four dies: die 0 with a lease to renew, die 1 a voter, die 2 a follower whose lease has lapsed, die 3 with two votes
for its own proposal. -/
def electing : State :=
  { ready with clock := 200000000, trust := { ready.trust with leases :=
      [(0, ⟨4, 0, some (4, 0), 200000100, 5, [], [], true, true, false⟩), (1, ⟨4, 0, some (5, 3), 0, 0, [], [], false, true, false⟩),
       (2, ⟨4, 0, none, 0, 0, [], [], false, true, false⟩), (3, ⟨5, 0, some (5, 3), 0, 0, [], [0, 2], false, true, false⟩)] } }

theorem witness_LeaseSteps :
    let l := electing.lease
    (l 0).acts electing.clock = true ∧
    ((l 2).lapsed electing.clock = true ∧ (l 2).term ≠ 0 ∧ (l 2).voted ≠ some ((l 2).term, 2)) ∧
    ((l 2).lapsed electing.clock = true ∧ (l 2).term < (5 : Word).toNat ∧ 2 ≠ 3) ∧
    ((l 3).term = (5 : Word).toNat ∧ (l 3).voted = some ((5 : Word).toNat, 3) ∧ (l 1).voted = some ((5 : Word).toNat, 3) ∧
      (l 3).self = false ∧ 1 ∉ (l 3).votes ∧ (l 3).votes.length = 2) ∧
    ((l 0).term = (4 : Word).toNat ∧ (l 0).acts electing.clock = true ∧ 1 ≠ 0 ∧ (l 1).term ≤ (l 0).term ∧ 1 ∉ (l 0).acks) ∧
    (l 1).ends ≤ electing.clock ∧ leaderReg (0x18000 : BitVec 17).toNat true = true ∧ sysReach .firmware 0x18000 = true ∧
    max (tget 0 electing.trust.regTerms 0x18000) (l 0).term = 4 ∧ (3 : Word).toNat < 4 ∧ 4 ≤ (4 : Word).toNat := by
  decide +kernel

/-- Keys at both ends of their range; a ceiling below its limit, one above the current, and one at it; a junction above 105 °C and one below
100 °C. -/
theorem witness_TrustAndPowerSteps :
    (0 < 1 ∧ 1 ≤ 2047) ∧ (0 < 2047 ∧ 2047 ≤ 2047) ∧
    (let p := { ready.power with ceiling := 400 }
     p.hot = false ∧ p.ceiling < powerMax p ∧ 399 < p.ceiling ∧ p.ceiling ≤ 400) ∧
    (let p := { ready.power with ceiling := 1700, hot := true }
     p.hot = true ∧ 1500 < p.ceiling ∧ powerMax p ≤ p.ceiling) ∧
    (105 < 106 ∧ ready.power.hot = false) ∧ (99 < 100 ∧ ({ ready.power with hot := true } : Power).hot = true) ∧ 15 < 16 := by
  decide +kernel

theorem witness_CoreDeviceSteps :
    ((timed.timer 0).due timed.clock = true ∧ (timed.timer 0).timer = false ∧ CoreEvent.assist ≠ .timer) ∧
    (let s := { ready with nocs := [(0, { Noc.fresh with cfg := 0x100000 })] }
     bitsN (s.noc 0).cfg.toNat 21 21 = 0 ∧ bitsN (s.noc 0).cfg.toNat 20 20 = 1 ∧ (s.noc 0).twoPhase = false) ∧
    (bitsN (ready.noc 0).cfg.toNat 21 21 = 0 ∧ (ready.noc 0).twoPhase = false ∧
      [[0, 90]].any (loadAbove (bitsN (ready.noc 0).cfg.toNat 7 0)) = false ∧
      [List.replicate 15 0 ++ [90]].any (loadAbove (bitsN (ready.noc 0).cfg.toNat 7 0)) = true) ∧
    ({ Noc.fresh with pending := some true } : Noc).pending = some true ∧
    (homedHere ready 0x20000 = true ∧ inDirectory 0x20000 = false) ∧
    bitsN ((ready.core 0).throttle.cfg).toNat 31 31 = 1 ∧
    (let s := { ready with carousels := [(0, { Carousel.fresh with packets :=
        [⟨4, .request ⟨9, 0, 0, 0x40, .read 4⟩, 3, 0, 0, false, false, 1, .pool, 0, [0], [], false, 1, []⟩] })] }
     (((s.ring (0 / 8)).dueAt (0 % 8)).find? fun p => (p.rowAt 0).isSome).isSome = true) := by decide +kernel

/-- The mailbox of the physical function with a command of a length, and one with a code or a length that no command has. -/
def mailed (code len : Nat) : State :=
  { ready with mailboxes := [(16, { Mailbox.fresh with len := len, buf := [(0, BitVec.ofNat 8 code)] })] }

/-- Each command where the firmware or the waiting boot ROM answers, and where nobody does; a function that is not in RUN; registers of every
kind. -/
theorem witness_HostPortSteps :
    (∀ c ∈ [(1, 48), (2, 8), (3, 12), (4, 8), (5, 12), (6, 4032), (7, 25), (8, 16)],
      barOpen (mailed c.1 c.2) 16 = true ∧ ((mailed c.1 c.2).mailbox 16).code = c.1 ∧ lenOk c.1 ((mailed c.1 c.2).mailbox 16).len = true) ∧
    (∀ c ∈ [(9, 8), (1, 47)], lenOk ((mailed c.1 c.2).mailbox 16).code ((mailed c.1 c.2).mailbox 16).len = false ∧
      ((mailed c.1 c.2).mailbox 16).code ≠ 7) ∧ lenOk ((mailed 7 8).mailbox 16).code ((mailed 7 8).mailbox 16).len = false ∧
    mbServed ready = false ∧
    (let s := { ready with threads := [{ Thread.fresh (.firmware 0) .running 1 with ident := ⟨0, 0, 0, 0, 0, 0, 0, 0⟩ }] }
     mbServed s = true ∧ s.trust.waiting = false) ∧
    (let s := { ready with trust := { ready.trust with waiting := true } }
     mbServed s = true ∧ s.trust.waiting = true) ∧
    barOpen (queued []) 16 = true ∧ barOpen (queued []) 3 = false ∧
    (accessWrites .store = true ∧ hostInDirectory (queued []) 16 .store (linePieces 0x20000 4) = false) ∧
    (accessWrites .load = false ∧ hostInDirectory (queued []) 16 .load (linePieces 0x20000 4) = false) ∧
    ((0x8000 : BitVec 17).toNat < 0x1f000 ∧ sysReach .control 0x8000 = true ∧ 23 < 24 ∧ leaderReg 0x8000 true = false ∧
      sysReach .firmware 0x10000 = true ∧ 27 < 28) ∧
    (leaderReg (0x18000 : BitVec 17).toNat true = true ∧ sysReach .firmware 0x18000 = true ∧
      (electing.lease (24 - 24)).acts electing.clock = true) ∧
    queueShown ready ⟨some 16, 63⟩ = true ∧ 0x1f000 ≤ (0x1f000 : BitVec 17).toNat := by decide +kernel

end Sys2Proof.Tests
end

section
/-!
PROOF. The host's port (R4, R407, R414, R422 to R425): what a mailbox command does where somebody serves the mailbox, what an access
through BAR2 does, and what a register write does, one lemma per case of each definition; then the statement about all of them.
-/

namespace Sys2Proof.Machine

/-! ### The mailbox -/

/-- The step `i` of every function is the mailbox command of a code, and `f` is what the command does: a served function with a right LEN
performs `f`, or is refused while the boot ROM waits for an image (R424, R425, log entry 40). -/
def MailboxRuns (i : Nat → Instr) (code : Nat) (f : Nat → State → Mailbox → State) : Prop :=
  ∀ fn s, barOpen s fn = true → (s.mailbox fn).code = code → lenOk code (s.mailbox fn).len = true → mbServed s = true →
    let u := { s with inputs := s.inputs ++ [.coreEventWake 24 .mailbox] }
    ((s.trust.waiting = true → code = 7) → exec (i fn) s = .next (f fn u (s.mailbox fn))) ∧
    (s.trust.waiting = true → code ≠ 7 → exec (i fn) s = .next (finishMb u fn 3 []))

/-- A served command of a right code and LEN: refused while the boot ROM waits, unless it is IMAGE, and performed otherwise. -/
theorem runMb_of_served {s : State} {fn code : Nat} (f : State → Mailbox → State) (hopen : barOpen s fn = true)
    (hcode : (s.mailbox fn).code = code) (hlen : lenOk code (s.mailbox fn).len = true) (hserved : mbServed s = true) :
    runMb s fn code f =
      let u := { s with inputs := s.inputs ++ [.coreEventWake 24 .mailbox] }
      if s.trust.waiting = true ∧ code ≠ 7 then .next (finishMb u fn 3 []) else .next (f u (s.mailbox fn)) := by
  simp [runMb, hopen, hcode, hlen, hserved]

/-- A step that is the mailbox command `f` of a code runs as one. -/
theorem mailboxRuns_of_exec {i : Nat → Instr} {code : Nat} {f : Nat → State → Mailbox → State}
    (hi : ∀ fn s, exec (i fn) s = runMb s fn code (f fn)) : MailboxRuns i code f := by
  intro fn s hopen hcode hlen hserved
  rw [hi, runMb_of_served (f fn) hopen hcode hlen hserved]
  constructor
  · intro h
    exact if_neg fun hw => hw.2 (h hw.1)
  · intro hw h7
    exact if_pos ⟨hw, h7⟩

/-- Commands with the same effect run alike. -/
theorem runMb_congr {f g : State → Mailbox → State} (h : ∀ s m, f s m = g s m) (s : State) (fn code : Nat) :
    runMb s fn code f = runMb s fn code g := by
  rw [funext₂ h]

/-- A command of an unknown code or a wrong LEN that somebody answers: BADCMD, or REFUSED while the boot ROM waits (R425). -/
theorem execMbBadcmd_of_served {s : State} {fn : Nat} (hopen : barOpen s fn = true)
    (hbad : lenOk (s.mailbox fn).code (s.mailbox fn).len = false) (hserved : mbServed s = true) :
    execMbBadcmd fn s =
      .next (finishMb s fn (if s.trust.waiting = true ∧ (s.mailbox fn).code ≠ 7 then 3 else 1) []) := by
  simp [execMbBadcmd, hopen, hbad, hserved]

/-- A command of an unknown code or a wrong LEN that nobody answers yet stays busy (log entry 40). -/
theorem execMbBadcmd_of_unserved {s : State} {fn : Nat} (hopen : barOpen s fn = true)
    (hbad : lenOk (s.mailbox fn).code (s.mailbox fn).len = false) (hserved : mbServed s = false) :
    execMbBadcmd fn s = .next (startMb s fn) := by
  simp [execMbBadcmd, hopen, hbad, hserved]

/-! ### BAR2 -/

theorem execHostBar2Access_of_closed {s : State} {fn : Nat} (h : barOpen s fn = false) (kind : Access) (addr : DWord)
    (data : List Byte) (width : Nat) : execHostBar2Access fn kind addr data width s = .next (closedBar s fn kind width) := by
  simp [execHostBar2Access, h]

theorem execHostBar2Access_write {s : State} {fn : Nat} {kind : Access} {addr : DWord} {data : List Byte} (width : Nat)
    (hopen : barOpen s fn = true) (hw : accessWrites kind = true)
    (hdir : hostInDirectory s fn .store (linePieces addr.toNat data.length) = false) :
    execHostBar2Access fn kind addr data width s = .next ((linePieces addr.toNat data.length).foldl
      (hostPiece fn .store fun va n => some ((data.drop (va - addr.toNat)).take n)) s) := by
  simp [execHostBar2Access, hopen, hw, hdir]

theorem execHostBar2Access_read {s : State} {fn : Nat} {kind : Access} {addr : DWord} {width : Nat} (data : List Byte)
    (hopen : barOpen s fn = true) (hr : accessWrites kind = false)
    (hdir : hostInDirectory s fn .load (linePieces addr.toNat width) = false) :
    execHostBar2Access fn kind addr data width s =
      .next ((linePieces addr.toNat width).foldl (hostPiece fn .load fun _ _ => none) s) := by
  simp [execHostBar2Access, hopen, hr, hdir]

/-! ### Register writes -/

/-- The numbers from 0x1f000 on are the words of a function's BAR0 (log entry 14). -/
theorem execRegisterWrite_bar0 {n : BitVec 17} (h : 0x1f000 ≤ n.toNat) (unit : Nat) (value : DWord) (s : State) :
    execRegisterWrite n unit value s = .next (mailboxWrite s unit (4 * (n.toNat - 0x1f000)) (value.toNat % 2 ^ 32)) :=
  if_pos h

/-- Unit 28 + n is function n at the registers of a queue that its BAR0 shows (R422, R423, log entry 14). -/
theorem execRegisterWrite_queue {fn q i : Nat} (hq : q < 64) (hi : i < 8) {s : State} (hshown : queueShown s ⟨some fn, q⟩ = true)
    (value : DWord) : execRegisterWrite (BitVec.ofNat 17 (0x12000 + 8 * q + i)) (28 + fn) value s =
      .next (writeQueueReg s q i value.toNat) := by
  have hn : (BitVec.ofNat 17 (0x12000 + 8 * q + i)).toNat = 0x12000 + 8 * q + i := by
    rw [BitVec.toNat_ofNat, Nat.mod_eq_of_lt (by omega)]
  have hqueue : (0x12000 + 8 * q + i - 0x12000) / 8 = q := by omega
  have hreg : (0x12000 + 8 * q + i) % 8 = i := by omega
  unfold execRegisterWrite
  rw [hn, if_neg (by omega), if_pos (by omega)]
  simp only [hqueue, hreg, Nat.add_sub_cancel_left, hshown, if_true]

/-- A core writes a register that it reaches: one of the Ringmaster only while it acts under its lease (R407, R414). -/
theorem execRegisterWrite_core {n : BitVec 17} {unit : Nat} (hn : n.toNat < 0x1f000)
    (hreach : sysReach (if unit < 24 then .control else .firmware) n = true) (hunit : unit < 28) (value : DWord) (s : State) :
    execRegisterWrite n unit value s =
      if leaderReg n.toNat true = false then .next (sysWrite s unit n.toNat value)
      else if (s.lease (unit - 24)).acts s.clock = true then
        .next (leaderWrite s (unit - 24) (unit - 24) (s.lease (unit - 24)).term n.toNat value)
      else .next s := by
  unfold execRegisterWrite
  rw [if_neg (by omega), if_neg (by omega), hreach]
  simp [hunit]

/-! ### The statement -/

/-- Settles O60, step by step through the equations above. Choices of the model that the statement rests on: the numbering of register
writes (log entry 14), and what the mailbox answers while nobody or only the boot ROM serves it (log entry 40). -/
theorem hostPortSteps : Obligations.HostPortSteps := by
  refine ⟨?commands, ?bad, ?unserved, ?bar2, ?core, ?queue, ?bar0⟩
  case commands =>
    intro Runs
    have runs {i code f} (hi : ∀ fn s, exec (i fn) s = runMb s fn code (f fn)) : Runs i code f := mailboxRuns_of_exec hi
    -- A command is matched to its clause by name and code, without unfolding what running means.
    clear_value Runs
    refine ⟨runs fun fn s => ?quote, runs fun fn s => exec_mbGetcert fn s, runs fun fn s => exec_mbPwrwr fn s,
      runs fun fn s => exec_mbPwrrd fn s, runs fun fn s => exec_mbLogrd fn s, runs fun fn s => exec_mbLccmd fn s,
      fun seen => runs fun fn s => ?image, runs fun fn s => exec_mbHostasid fn s⟩
    case quote =>
      refine (exec_mbQuote fn s).trans (runMb_congr (fun s m => ?_) s fn 1)
      cases hx : getCx s (m.arg 8 4) with
      | none => simp only [hx]
      | some x => cases hk : s.trust.attKey <;> simp only [hx, hk, ite_or]
    case image =>
      refine (exec_mbImage fn seen s).trans (runMb_congr (fun s m => ?_) s fn 7)
      simp only [Bool.not_eq_true']
  case bad =>
    intro fn s hopen hbad hserved
    rw [exec_mbBadcmd, execMbBadcmd_of_served hopen hbad hserved]
    constructor
    · rintro (hw | h7)
      · rw [if_neg (by simp [hw])]
      · rw [if_neg (by simp [h7])]
    · intro hw h7
      rw [if_pos ⟨hw, h7⟩]
  case unserved => exact fun fn s hopen hbad hserved => execMbBadcmd_of_unserved hopen hbad hserved
  case bar2 =>
    exact fun fn kind addr data width s => ⟨execHostBar2Access_write width, execHostBar2Access_read data,
      fun hclosed => execHostBar2Access_of_closed hclosed kind addr data width⟩
  case core =>
    intro n unit value s hn hreach hunit
    rw [exec_registerWrite, execRegisterWrite_core hn hreach hunit]
    constructor
    · intro hl
      rw [if_pos hl]
    · intro hl hacts
      rw [if_neg (by simp [hl]), if_pos hacts]
  case queue => exact fun fn q i value s hq _ hshown => execRegisterWrite_queue hq i.isLt hshown value
  case bar0 => exact fun n unit value s h => execRegisterWrite_bar0 h unit value s

end Sys2Proof.Machine
end

section
/-!
PROOF. The integer results of R27: what `narrow32` and `narrow64` give for an exact value, wrapped or saturated; that a word which is
a lane operation completes as one; then the statement about the words that accept `.sat`.
-/

namespace Sys2Proof.Machine

/-! ### The flag SAT -/

/-- SAT is bit 13 of `s_fpmode` (R15). -/
theorem FFlags.bits_sat : ({ FFlags.none with sat := true } : FFlags).bits = 2 ^ 13 := rfl

@[simp] theorem FFlags.bits_none : FFlags.none.bits = 0 := rfl

/-! ### Results of 32 bits -/

@[simp] theorem LaneRes.word_flags (x : Word) : (LaneRes.word x).flags = FFlags.none := rfl

/-- The low word of a 32-bit result is that result. -/
@[simp] theorem LaneRes.word_low (x : Word) : (LaneRes.word x).val.setWidth 32 = x :=
  BitVec.setWidth_setWidth_of_le x (by decide)

@[simp] theorem narrow32_wraps (v : Int) : narrow32 false v = .word (BitVec.ofInt 32 v) := rfl

/-- What a saturating 32-bit result is: the minimum below the signed range, the maximum above it, and the exact value inside. -/
theorem narrow32_saturates (v : Int) :
    (v < -2 ^ 31 ∧ narrow32 true v = ⟨0x80000000, { FFlags.none with sat := true }⟩) ∨
    (2 ^ 31 ≤ v ∧ narrow32 true v = ⟨0x7fffffff, { FFlags.none with sat := true }⟩) ∨
    (-2 ^ 31 ≤ v ∧ v < 2 ^ 31 ∧ narrow32 true v = .word (BitVec.ofInt 32 v)) := by
  simp only [narrow32, Bool.true_and, decide_eq_true_eq]
  split
  · exact .inl ⟨by omega, rfl⟩
  · split
    · exact .inr (.inl ⟨by omega, rfl⟩)
    · exact .inr (.inr ⟨by omega, by omega, rfl⟩)

theorem narrow32_sat_toInt (v : Int) :
    ((narrow32 true v).val.setWidth 32).toInt = max (-2 ^ 31) (min v (2 ^ 31 - 1)) := by
  obtain ⟨hlow, h⟩ | ⟨hhigh, h⟩ | ⟨hlow, hhigh, h⟩ := narrow32_saturates v <;> rw [h]
  · have hmin : ((0x80000000 : DWord).setWidth 32).toInt = -2 ^ 31 := by decide
    exact hmin.trans (by omega)
  · have hmax : ((0x7fffffff : DWord).setWidth 32).toInt = 2 ^ 31 - 1 := by decide
    exact hmax.trans (by omega)
  · rw [LaneRes.word_low, BitVec.toInt_ofInt_eq_self (by decide) hlow hhigh]
    omega

theorem narrow32_sat_bits (v : Int) :
    (narrow32 true v).flags.bits = if v < -2 ^ 31 ∨ 2 ^ 31 ≤ v then 2 ^ 13 else 0 := by
  obtain ⟨hlow, h⟩ | ⟨hhigh, h⟩ | ⟨hlow, hhigh, h⟩ := narrow32_saturates v <;> rw [h]
  · rw [if_pos (.inl hlow), FFlags.bits_sat]
  · rw [if_pos (.inr hhigh), FFlags.bits_sat]
  · rw [if_neg (by omega), LaneRes.word_flags, FFlags.bits_none]

/-! ### Results of 64 bits -/

@[simp] theorem LaneRes.dword_flags (x : DWord) : (LaneRes.dword x).flags = FFlags.none := rfl

@[simp] theorem LaneRes.dword_val (x : DWord) : (LaneRes.dword x).val = x := rfl

@[simp] theorem narrow64_wraps (v : Int) : narrow64 false v = .dword (BitVec.ofInt 64 v) := rfl

/-- What a saturating 64-bit result is: the minimum below the signed range, the maximum above it, and the exact value inside. -/
theorem narrow64_saturates (v : Int) :
    (v < -2 ^ 63 ∧ narrow64 true v = ⟨0x8000000000000000, { FFlags.none with sat := true }⟩) ∨
    (2 ^ 63 ≤ v ∧ narrow64 true v = ⟨0x7fffffffffffffff, { FFlags.none with sat := true }⟩) ∨
    (-2 ^ 63 ≤ v ∧ v < 2 ^ 63 ∧ narrow64 true v = .dword (BitVec.ofInt 64 v)) := by
  simp only [narrow64, Bool.true_and, decide_eq_true_eq]
  split
  · exact .inl ⟨by omega, rfl⟩
  · split
    · exact .inr (.inl ⟨by omega, rfl⟩)
    · exact .inr (.inr ⟨by omega, by omega, rfl⟩)

theorem narrow64_sat_toInt (v : Int) :
    (narrow64 true v).val.toInt = max (-2 ^ 63) (min v (2 ^ 63 - 1)) := by
  obtain ⟨hlow, h⟩ | ⟨hhigh, h⟩ | ⟨hlow, hhigh, h⟩ := narrow64_saturates v <;> rw [h]
  · have hmin : (0x8000000000000000 : DWord).toInt = -2 ^ 63 := by decide
    exact hmin.trans (by omega)
  · have hmax : (0x7fffffffffffffff : DWord).toInt = 2 ^ 63 - 1 := by decide
    exact hmax.trans (by omega)
  · rw [LaneRes.dword_val, BitVec.toInt_ofInt_eq_self (by decide) hlow hhigh]
    omega

theorem narrow64_sat_bits (v : Int) :
    (narrow64 true v).flags.bits = if v < -2 ^ 63 ∨ 2 ^ 63 ≤ v then 2 ^ 13 else 0 := by
  obtain ⟨hlow, h⟩ | ⟨hhigh, h⟩ | ⟨hlow, hhigh, h⟩ := narrow64_saturates v <;> rw [h]
  · rw [if_pos (.inl hlow), FFlags.bits_sat]
  · rw [if_pos (.inr hhigh), FFlags.bits_sat]
  · rw [if_neg (by omega), LaneRes.dword_flags, FFlags.bits_none]

/-! ### Lane words -/

/-- A word whose meaning is a lane operation completes as a lane word. -/
theorem laneWord_of_exec {i : Instr} {hd : Hdr} {n : Nat} {d : Operand} {f : State → Nat → LaneRes}
    (hi : ∀ s, exec i s = laneOp i hd n d f s) : LaneWord i hd n d f :=
  fun s h => (hi s).trans (laneOp_now h)

/-! ### The statement -/

/-- Settles O12: the results by the three cases of a saturating result (below, above and inside the signed range), the eight words as
lane operations. -/
theorem integerResultsWrapOrSaturate : Obligations.IntegerResultsWrapOrSaturate := by
  refine ⟨fun v => ⟨?wrap32, ?flags32, ?wrap64, ?flags64, narrow32_sat_toInt v, narrow64_sat_toInt v, narrow32_sat_bits v,
      narrow64_sat_bits v⟩,
    fun x sat => laneWord_of_exec (exec_iadd x sat), fun x sat => laneWord_of_exec (exec_isub x sat),
    fun x sat => laneWord_of_exec (exec_imad x sat), fun x sat => laneWord_of_exec (exec_iabs x sat),
    fun x sat => laneWord_of_exec (exec_ineg x sat), fun x sat => laneWord_of_exec (exec_idot4 x sat),
    fun x sat => laneWord_of_exec (exec_iadd64 x sat), fun x sat => laneWord_of_exec (exec_isub64 x sat)⟩
  case wrap32 => rw [narrow32_wraps, LaneRes.word_low, BitVec.toInt_ofInt]
  case flags32 => rw [narrow32_wraps, LaneRes.word_flags]
  case wrap64 => rw [narrow64_wraps, LaneRes.dword_val, BitVec.toInt_ofInt]
  case flags64 => rw [narrow64_wraps, LaneRes.dword_flags]

end Sys2Proof.Machine
end

section
/-!
PROOF. The decoder (R47 to R49, R57, R63, R64): what the parser says of a row of the opcode table, what a decoded word has passed, and
which words an engine refuses first; then the statements about encoding.
-/

namespace Sys2Proof

/-! ### Rows of the opcode table -/

/-- What parses at a group and position is a full-form word of that row, with the header of the word. -/
theorem parseAt_names {r : Raw} {g p : Nat} {x : Parsed} :
    parseAt r g p = some x → p < groupSize g ∧ x.instr.opcode = 64 * g + p ∧ x.instr.hdr? = some r.hd := by
  fun_cases parseAt r g p <;>
    [fun_cases parseG0 r p; fun_cases parseG1 r p; fun_cases parseG2 r p; fun_cases parseG3 r p; fun_cases parseG4 r p;
     fun_cases parseG5 r p; fun_cases parseG6 r p; fun_cases parseG7 r p; fun_cases parseG8 r p; fun_cases parseG9 r p;
     fun_cases parseG10 r p; fun_cases parseG11 r p; fun_cases parseG12 r p; fun_cases parseG13 r p; fun_cases parseG14 r p;
     fun_cases parseG15 r p; skip] <;>
    rintro ⟨⟩ <;> exact ⟨by decide, rfl, rfl⟩

theorem parse_names {r : Raw} {rsv code : Bool} {i : Instr} (h : r.parse = some ⟨rsv, code, i⟩) :
    (r.op.extractLsb' 0 6).toNat < groupSize (r.op.extractLsb' 6 4).toNat ∧
      i.opcode = 64 * (r.op.extractLsb' 6 4).toNat + (r.op.extractLsb' 0 6).toNat ∧ i.hdr? = some r.hd :=
  parseAt_names ((parse_at r _ _ rfl rfl).symm.trans h)

/-- An instruction with a header is no paired word. -/
theorem ne_pairedWord_of_hdr {i : Instr} {hd : Hdr} (h : i.hdr? = some hd) (x y : Slot) : i ≠ .pairedWord x y := by
  rintro rfl
  cases h

/-- The rules of R64 for a full-form instruction, in their order. -/
theorem wf_iff_of_hdr {i : Instr} {hd : Hdr} (h : i.hdr? = some hd) (e : Engine) (n : Nat) :
    i.wf e n = true ↔ i.hintsOk = true ∧ i.fieldsOk = true ∧ i.codesOk e = true ∧ i.operandsOk e n = true ∧
      (hd.guard == 7 && hd.neg) = false ∧ (hd.la == 0 || i.longLatency) = true := by
  rw [Instr.wf.eq_2 e n i (ne_pairedWord_of_hdr h), h]
  simp only [Bool.and_eq_true, Bool.not_eq_true', and_assoc]

theorem runsOn_of_hdr {i : Instr} {hd : Hdr} (h : i.hdr? = some hd) (e : Engine) :
    Machine.runsOn e i = engineRuns e (i.opcode / 64) (i.opcode % 64) :=
  Machine.runsOn.eq_2 e i (ne_pairedWord_of_hdr h)

/-! ### Decoded words -/

/-- A full-form word that decodes is of a row that the engine executes (R63), and has passed every check of R64. -/
theorem decodeFull_ok {e : Engine} {n : Nat} {w : DWord} {i : Instr} :
    decodeFull e n w = .ok i → i.wf e n = true ∧ Machine.runsOn e i = true := by
  fun_cases decodeFull e n w
  all_goals rintro ⟨⟩
  case case8 r g p hengine rsv code hguard hparse hrsv hcode hoperand hla =>
    obtain ⟨hp, hop, hhd⟩ := parse_names hparse
    have hgroup : i.opcode / 64 = g := by omega
    have hposition : i.opcode % 64 = p := by omega
    simp only [Bool.not_eq_true, Bool.or_eq_false_iff, Bool.not_eq_false'] at hengine hguard hrsv hcode hoperand hla
    obtain ⟨⟨-, hhints⟩, hfields⟩ := hrsv
    obtain ⟨-, hcodes⟩ := hcode
    have hruns : engineRuns e g p = true := by simpa [show p < groupSize g from hp] using hengine.2
    have hlookahead : (r.hd.la == 0 || i.longLatency) = true := by simpa [Raw.hd, or_iff_not_imp_left] using hla
    rw [wf_iff_of_hdr hhd, runsOn_of_hdr hhd, hgroup, hposition]
    exact ⟨⟨hhints, hfields, hcodes, hoperand, hguard, hlookahead⟩, hruns⟩

/-- What the reasons of a slot say of its checks. -/
theorem slotReasons_some (n : Nat) (x : Slot) :
    (slotReasons n (some x)).contains .rsvbit = !x.fieldsOk ∧ (slotReasons n (some x)).contains .code = !x.codesOk ∧
      (slotReasons n (some x)).contains .operand = !x.operandsOk n := by
  simp only [slotReasons]
  cases x.fieldsOk <;> cases x.codesOk <;> cases x.operandsOk n <;> exact ⟨rfl, rfl, rfl⟩

/-- A paired word that decodes is a troupe's, and both slots have passed every check of R64. -/
theorem decodePaired_ok {e : Engine} {n : Nat} {w : DWord} {i : Instr} :
    decodePaired e n w = .ok i → i.wf e n = true ∧ Machine.runsOn e i = true := by
  fun_cases decodePaired e n w
  all_goals rintro ⟨⟩
  case case10 x y r0 r1 hengine _ _ hrsv0 hrsv1 hcode0 hcode1 hoperand0 hoperand1 s0 s1 hy hx hpair =>
    obtain ⟨hr0, hc0, ho0⟩ := slotReasons_some n s0
    obtain ⟨hr1, hc1, ho1⟩ := slotReasons_some n s1
    simp only [r0, r1, hx, hy, hr0, hr1, hc0, hc1, ho0, ho1] at hrsv0 hrsv1 hcode0 hcode1 hoperand0 hoperand1
    simp_all [Instr.wf, Machine.runsOn]

/-! ### Refusals -/

/-- A field of a field is a field of the word. -/
theorem extract_extract {m : Nat} (x : BitVec m) (t n : Nat) {s l : Nat} (h : s + l ≤ n) :
    (x.extractLsb' t n).extractLsb' s l = x.extractLsb' (t + s) l := by
  ext i hi
  simp only [BitVec.getElem_extractLsb', BitVec.getLsbD_extractLsb', Nat.add_assoc, Bool.and_eq_right_iff_imp,
    decide_eq_true_eq]
  omega

/-- A word of a row that an engine does not execute, or of a group of which it executes no row, is refused first. -/
theorem decodeFull_foreign {e : Engine} {w : DWord} (n : Nat)
    (h : ((w.extractLsb' 53 6).toNat < groupSize (w.extractLsb' 59 4).toNat ∧
        engineRuns e (w.extractLsb' 59 4).toNat (w.extractLsb' 53 6).toNat = false) ∨
      ∀ q < groupSize (w.extractLsb' 59 4).toNat, engineRuns e (w.extractLsb' 59 4).toNat q = false) :
    decodeFull e n w = .error .engine := by
  have hg : (Raw.unpack w).op.extractLsb' 6 4 = w.extractLsb' 59 4 := extract_extract w 53 10 (by decide)
  have hp : (Raw.unpack w).op.extractLsb' 0 6 = w.extractLsb' 53 6 := extract_extract w 53 10 (by decide)
  unfold decodeFull
  simp only [hg, hp]
  refine if_pos ?_
  rcases h with ⟨hlt, hrow⟩ | hgroup
  · simp only [hlt, hrow, decide_true, Bool.not_false, Bool.and_self, Bool.or_true]
  · have hnone : engineRunsGroup e (w.extractLsb' 59 4).toNat = false := by
      simpa [engineRunsGroup, List.any_eq_false] using hgroup
    simp only [hnone, Bool.not_false, Bool.true_or]

end Sys2Proof

namespace Sys2Proof.Machine

/-- Refutes O2: R94 makes D zero in every mode of LVOTE but `mask`, and the decoder refuses another D with RSVBIT, but `Instr.wf` looks at
D in the mode `mask` alone and `encode` writes D in every mode. So `LVOTE.all` with D = v1 is well-formed and runs on a troupe, and its
word does not decode. -/
theorem not_encodeDecode : ¬ Obligations.EncodeDecode := by
  unfold Obligations.EncodeDecode
  intro h
  have hdec : decode .troupe 32 (0#1 ++ 386#10 ++ 0#4 ++ 7#3 ++ 0#1 ++ 1#9 ++ 0#36) = .ok (.lvote ⟨0, 7, false⟩ (.v 1) 0 false 0 0) :=
    h .troupe 32 (.lvote ⟨0, 7, false⟩ (.v 1) 0 false 0 0) _ (by decide) (by decide) (by decide)
  exact absurd hdec (by decide)

/-- Settles O1: whatever decodes is a full-form word or a paired word that has passed the checks of R64. -/
theorem decodedIsWellFormed : Obligations.DecodedIsWellFormed := by
  intro e n w i
  fun_cases decode e n w
  all_goals rintro ⟨⟩
  · next hpaired => exact decodePaired_ok hpaired
  · next hfull => exact decodeFull_ok hfull

/-- Settles O4. That a control or firmware core refuses a paired word with ENGINE is log entry 48: the table of R63 gives paired words to no
engine. -/
theorem engineRefusesForeignWords : Obligations.EngineRefusesForeignWords := by
  refine ⟨?full, ?paired⟩
  case full =>
    intro e n w h63 g p hforeign
    rw [decode, if_neg (by rw [h63]; decide), decodeFull_foreign n hforeign]
  case paired =>
    intro e n w h63 he
    have hpaired : decodePaired e n w = .error (.engine, false) := if_pos (by simpa using he)
    rw [decode, if_pos h63, hpaired]

/-- Settles O3: each word is decoded. -/
theorem decodeWords : Obligations.DecodeWords := by
  unfold Obligations.DecodeWords
  decide

end Sys2Proof.Machine
end

section
/-!
PROOF. Traps that go to the user handler (R64, R65, R67, R110, R126): what the writes of a result leave alone, what a trap does in a
troupe with and without a handler; then the statements about TRAP and about reserved words.
-/

namespace Sys2Proof.Machine

/-! ### What the writes of a result leave alone -/

/-- A thread with the state that writes of results reach taken from another: registers, marks, capability slots and `s_fpmode`. -/
def Thread.results (a b : Thread) : Thread :=
  { a with v := b.v, vEmpty := b.vEmpty, vMark := b.vMark, k := b.k, kMark := b.kMark, p := b.p, pMark := b.pMark,
           caps := b.caps, fpmode := b.fpmode }

theorem Thread.write1_shape (th : Thread) (w : Wr) : th.write1 w = th.results (th.write1 w) := by
  cases w with
  | v l n x mark => rfl
  | k n x mark => rfl
  | p l n x mark =>
    simp only [Thread.write1, Thread.wrP]
    split <;> rfl
  | fl bits =>
    simp only [Thread.write1, Thread.raiseFlagBits]
    split <;> rfl
  | cap n x => rfl
  | cm n x => rfl
  | ph n x => rfl

/-- Writes of a result change the registers of a thread, their marks, capability slots and `s_fpmode` alone. -/
theorem Thread.writes_shape (th : Thread) (ws : List Wr) : th.writes ws = th.results (th.writes ws) := by
  have hfold (l : List Wr) (t : Thread) (ht : t = th.results t) : l.foldl Thread.write1 t = th.results (l.foldl Thread.write1 t) := by
    induction l generalizing t with
    | nil => exact ht
    | cons w r ih =>
      refine ih _ ?_
      rw [t.write1_shape w, ht]
      rfl
  exact hfold ws _ rfl

theorem State.write1_shape (s : State) (w : Wr) :
    s.write1 w = { s with th := s.th.results (s.write1 w).th, wg := (s.write1 w).wg } := by
  cases w with
  | v l n x mark => rfl
  | k n x mark => rfl
  | p l n x mark => exact congrArg s.setTh (s.th.write1_shape (.p l n x mark))
  | fl bits => exact congrArg s.setTh (s.th.write1_shape (.fl bits))
  | cap n x => rfl
  | cm n x => rfl
  | ph n x => rfl

/-- Writes of a result change the registers of the thread and the slots and handles of its workgroup alone. -/
theorem State.writes_shape (s : State) (ws : List Wr) :
    s.writes ws = { s with th := s.th.results (s.writes ws).th, wg := (s.writes ws).wg } := by
  have hfold (l : List Wr) (t : State) (ht : t = { s with th := s.th.results t.th, wg := t.wg }) :
      l.foldl State.write1 t = { s with th := s.th.results (l.foldl State.write1 t).th, wg := (l.foldl State.write1 t).wg } := by
    induction l generalizing t with
    | nil => exact ht
    | cons w r ih =>
      refine ih _ ?_
      rw [t.write1_shape w, ht]
      rfl
  exact hfold ws _ rfl

/-! ### Issuing -/

/-- Issuing changes the pending words of the thread alone. -/
theorem issued_shape (i : Instr) (uses : List (Role × Operand)) (preds : List (BitVec 3)) (hd : Hdr) (s : State) :
    (issued i uses preds hd s).th = { s.th with pend := (issued i uses preds hd s).th.pend } := by
  unfold issued atWord
  dsimp only
  split <;> rfl

section
variable {i : Instr} {uses : List (Role × Operand)} {preds : List (BitVec 3)} {hd : Hdr} {s : State}

@[simp] theorem issued_th_grp : (issued i uses preds hd s).th.grp = s.th.grp := by rw [issued_shape]
@[simp] theorem issued_th_hdl : (issued i uses preds hd s).th.hdl = s.th.hdl := by rw [issued_shape]
@[simp] theorem issued_th_handler : (issued i uses preds hd s).th.handler = s.th.handler := by rw [issued_shape]
@[simp] theorem issued_th_agent : (issued i uses preds hd s).th.agent = s.th.agent := by rw [issued_shape]

end

/-! ### Taking a trap -/

/-- A trap first writes the results that have arrived, which change the registers of the thread, its pending words, and the slots and
handles of its workgroup alone (R61). -/
theorem retireNow_shape (s : State) (m : LaneMask) :
    retireNow s m = { s with th := { s.th.results (retireNow s m).th with pend := (retireNow s m).th.pend }, wg := (retireNow s m).wg } := by
  unfold retireNow
  rw [State.writes_shape]
  rfl

section
variable (s : State) (m : LaneMask)

@[simp] theorem retireNow_grp : (retireNow s m).th.grp = s.th.grp := by rw [retireNow_shape]; rfl
@[simp] theorem retireNow_hdl : (retireNow s m).th.hdl = s.th.hdl := by rw [retireNow_shape]; rfl
@[simp] theorem retireNow_handler : (retireNow s m).th.handler = s.th.handler := by rw [retireNow_shape]; rfl
@[simp] theorem retireNow_agent : (retireNow s m).th.agent = s.th.agent := by rw [retireNow_shape]; rfl
@[simp] theorem retireNow_mem : (retireNow s m).mem = s.mem := by rw [retireNow_shape]
@[simp] theorem retireNow_inputs : (retireNow s m).inputs = s.inputs := by rw [retireNow_shape]
@[simp] theorem retireNow_cx : (retireNow s m).cx = s.cx := by rw [retireNow_shape]

end

@[simp] theorem setTrapRegs_hdl (th : Thread) (c : Cause) (lane : Nat) (slot : Bool) (r : TrapRegs) :
    (setTrapRegs th c lane slot r).hdl = th.hdl := rfl

@[simp] theorem setTrapRegs_handler (th : Thread) (c : Cause) (lane : Nat) (slot : Bool) (r : TrapRegs) :
    (setTrapRegs th c lane slot r).handler = th.handler := rfl

@[simp] theorem setTrapRegs_agent (th : Thread) (c : Cause) (lane : Nat) (slot : Bool) (r : TrapRegs) :
    (setTrapRegs th c lane slot r).agent = th.agent := rfl

theorem outsideHandler_of_none {th : Thread} (h : th.handler = none) : outsideHandler th = false := by
  rw [outsideHandler, h]

/-- A trap of a troupe that has a handler and is not in it enters the handler (R65, R433). -/
theorem takeTrap_eq_enterHandler {s : State} (hnone : s.th.handler = none) (hhdl : s.th.hdl ≠ 0) (htroupe : s.th.agent.isTroupe = true)
    (c : Cause) (lane : Nat) (slot : Bool) (r : TrapRegs) (log : List LogWord) :
    let u := retireNow s s.th.grp.mask
    takeTrap s c lane slot r log = u.setTh (enterHandler { setTrapRegs u.th c lane slot r with log := log }) := by
  intro u
  have hout : outsideHandler u.th = false := outsideHandler_of_none (by simp [u, hnone])
  have hhandles : (u.th.handler.isSome || decide (u.th.hdl = 0) || !u.th.agent.isTroupe) = false := by
    simp only [u, retireNow_handler, retireNow_hdl, retireNow_agent, hnone, htroupe, decide_eq_false hhdl]
    rfl
  unfold takeTrap
  rw [if_neg (by rw [hout]; decide)]
  exact if_neg (by rw [setTrapRegs_handler, setTrapRegs_hdl, setTrapRegs_agent, hhandles]; decide)

/-- What stands in the thread and in memory when the handler is entered (R65). -/
theorem takeTrap_enters {s : State} (hnone : s.th.handler = none) (hhdl : s.th.hdl ≠ 0) (htroupe : s.th.agent.isTroupe = true)
    (c : Cause) (lane : Nat) (slot : Bool) (r : TrapRegs) (log : List LogWord) :
    let t := takeTrap s c lane slot r log
    t.th.grp.pc = s.th.hdl ∧ t.th.grp.mask = s.th.grp.mask ∧ t.th.handler = some ⟨s.th.grp.mask, none⟩ ∧ t.th.trappc = s.th.grp.pc ∧
      t.th.trapcause = BitVec.ofNat 32 (c.code + lane % 32 * 256 + if slot then 8192 else 0) ∧ t.th.trapop = r.op ∧
      t.th.hdl = s.th.hdl ∧ t.mem = s.mem := by
  rw [takeTrap_eq_enterHandler hnone hhdl htroupe]
  simp [enterHandler, setTrapRegs]

/-- A trap of a troupe without a handler ends it (R65, R67). -/
theorem takeTrap_ends {s : State} (hnone : s.th.handler = none) (hhdl : s.th.hdl = 0) (c : Cause) (lane : Nat) (slot : Bool)
    (r : TrapRegs) (log : List LogWord) :
    let u := retireNow s s.th.grp.mask
    takeTrap s c lane slot r log = endAgent (u.setTh (setTrapRegs u.th c lane slot r)) c := by
  intro u
  have hout : outsideHandler u.th = false := outsideHandler_of_none (by simp [u, hnone])
  simp [takeTrap, u, hout, hnone, hhdl]

/-- The end of a troupe (R67): it is faulted, the context records the first fault, and its end is due. -/
theorem endAgent_troupe {s : State} {c w n : Nat} (h : s.th.agent = .troupe c w n) (why : Cause) :
    endAgent s why = { s with
      th := { s.th with status := .faulted why, live := 0, grp := { s.th.grp with mask := 0 }, rest := [], pend := [] }
      cx := recordFault s.cx why.code w n s.th.trappc, inputs := s.inputs ++ [.troupeEnd c w n] } := by
  simp only [endAgent, h]

/-! ### The statements -/

/-- A TRAP with a lane that takes part traps at its word (R110). -/
theorem exec_trap_now {hd : Hdr} {code : BitVec 6} {s : State} (h : issuesNow (.trap hd code) [] hd s = true)
    (hact : partaking (.trap hd code) hd s ≠ 0) :
    exec (.trap hd code) s = .next (takeTrap (issued (.trap hd code) [] [] hd s) .trap (lowLane (partaking (.trap hd code) hd s)) false
      (fullTrapRegs (encFull 459 hd 0 0 0 (0#12 ++ code)) 0) []) := by
  refine (exec_trap hd code s).trans ((issue_now h _).trans ?_)
  rw [if_neg hact, trapWord, if_neg hact]
  rfl

/-- The opcode that a trap at a full-form word reports (R66). -/
theorem fullTrapRegs_op (op : Nat) (hd : Hdr) (d a b : BitVec 9) (f : BitVec 18) (reason : Nat) :
    (fullTrapRegs (encFull op hd d a b f) reason).op = BitVec.ofNat 32 (op % 1024 + reason * 4096) := by
  rw [fullTrapRegs, encFull, unpack_pack]
  rfl

/-- Settles O27: the trap of a TRAP word by what a trap does with and without a handler. -/
theorem trapsEnterHandlerOrEndTroupe : Obligations.TrapsEnterHandlerOrEndTroupe := by
  refine ⟨?enters, ?ends⟩
  case enters =>
    intro hd code s hissue hact hnone hhdl htroupe
    obtain ⟨hpc, hmask, hhandler, htrappc, hcause, hop, hkept, hmem⟩ :=
      takeTrap_enters (s := issued (.trap hd code) [] [] hd s) (by simpa) (by simpa) (by simpa) .trap
        (lowLane (partaking (.trap hd code) hd s)) false (fullTrapRegs (encFull 459 hd 0 0 0 (0#12 ++ code)) 0) []
    rw [issued_th_grp] at hmask hhandler htrappc
    rw [issued_th_hdl] at hpc hkept
    exact ⟨_, exec_trap_now hissue hact, hpc, hmask, hhandler, htrappc, hcause, hop.trans (fullTrapRegs_op ..), hkept, hmem⟩
  case ends =>
    intro hd code s c w n hissue hact hagent hnone hhdl
    rw [exec_trap_now hissue hact, takeTrap_ends (by simp [hnone]) (by simp [hhdl]),
      endAgent_troupe (c := c) (w := w) (n := n) (by simp [hagent])]
    refine ⟨_, rfl, rfl, rfl, rfl, rfl, by simp, fun hfault => ?_, by simp [setTrapRegs]⟩
    simp [recordFault, hfault, setTrapRegs, Cause.code]

/-- A reserved word that nothing holds back traps at its word (R64, R65). -/
theorem exec_reservedEncodingTrap_now {w : BadWord} {s : State} (hheld : heldBack s.th [] 0 0 = false) (hchecked : unchecked s.th = false) :
    exec (.reservedEncodingTrap w) s = .next (takeTrap s .reserved (badLane s.th w) w.slot
      (if w.word.getLsbD 63 then pairTrapRegs w.word w.slot (reasonCode w.reason) else fullTrapRegs w.word (reasonCode w.reason)) []) := by
  rw [exec_reservedEncodingTrap, execReservedEncodingTrap, if_neg (by rw [hheld, hchecked]; decide)]

/-- Settles O28: the trap of a reserved word by what a trap does where there is a handler. -/
theorem reservedWordTraps : Obligations.ReservedWordTraps := by
  intro w s hheld hchecked hnone hhdl htroupe
  obtain ⟨hpc, hmask, hhandler, htrappc, hcause, hop, -, hmem⟩ := takeTrap_enters hnone hhdl htroupe .reserved (badLane s.th w) w.slot
    (if w.word.getLsbD 63 then pairTrapRegs w.word w.slot (reasonCode w.reason) else fullTrapRegs w.word (reasonCode w.reason)) []
  refine ⟨_, exec_reservedEncodingTrap_now hheld hchecked, hpc, hmask, hhandler, htrappc, hcause, fun hfull => ?_, hmem⟩
  rw [hop, hfull]
  rfl

end Sys2Proof.Machine
end

section
/-!
PROOF. What completes later (R61, R118): a step that names a sub-group of the agent whose turn it is, the first pending word that it finds,
and the end of a wait; then the statement about all of them.
-/

namespace Sys2Proof.Machine

/-- A step of the agent whose turn it is leaves it the turn. -/
theorem asAgent_current {s t : State} {a : Agent} {f : State → Out} (ha : a = s.th.agent) (hf : f s = .next t)
    (ht : t.th.agent = s.th.agent) : asAgent s a f = .next t := by
  have hs : focus s a = some s := if_pos ha.symm
  have hback : focus t s.th.agent = some t := if_pos ht
  simp only [asAgent, hs, hf, hback, Option.getD_some]

/-- A wait whose condition holds ends (R61). -/
theorem waitEnds_of_releaseWait {mk : SubRef → Instr} {f : Wait → Bool} {done : SubRef → State → Wait → Option State}
    (h : ∀ r s, exec (mk r) s = releaseWait r f (done r) s) : WaitEnds mk f done := by
  intro r s i p w t hagent hfind howed hdone hkept
  refine (h r s).trans (asAgent_current hagent ?_ hkept)
  simp only [hfind, howed, hdone]

/-! ### What keeps the thread -/

theorem acquire_th (s : State) (scope : Scope) : (acquire s scope).th = s.th := by
  unfold acquire drainDie
  dsimp only
  split <;> split <;> rfl

theorem waddrLook_th (w : Nat) (geu : Bool) (s : State) (x : WaddrLane) : (waddrLook w geu s x).2.th = s.th := by
  fun_cases waddrLook w geu s x <;> rfl

/-- A look at the words of a WADDR changes no thread (R118). -/
theorem waddrLeft_th (w : Nat) (geu : Bool) (s : State) (l : List WaddrLane) : (waddrLeft w geu s l).2.th = s.th := by
  induction l generalizing s with
  | nil => rfl
  | cons x r ih => exact (ih _).trans (waddrLook_th w geu s x)

/-! ### The statement -/

/-- A wait that is over leaves the agent (R61). -/
theorem waitOver_agent (s : State) (i : Nat) (p : Pend) (ws : List Wr) : (waitOver s i p ws).th.agent = s.th.agent := by
  unfold waitOver
  split
  · rw [State.writes_shape]
    rfl
  · rfl

/-- Settles O34: each completion is a step of the agent whose turn it is, which finds its pending word and leaves it the turn; that a look of
WADDR and an acquire change no thread makes it so for WADDR. -/
theorem pendingWordsEnd : Obligations.PendingWordsEnd := by
  refine ⟨⟨?result, ?waddr⟩, waitEnds_of_releaseWait fun r s => exec_cmwaitRelease r s, waitEnds_of_releaseWait fun r s => exec_tlwaitRelease r s,
    waitEnds_of_releaseWait fun r s => exec_barwaitRelease r s, waitEnds_of_releaseWait fun r s => exec_rdvRelease r s,
    waitEnds_of_releaseWait fun r s => exec_forkStart r s, waitEnds_of_releaseWait fun r s => exec_cwaitRelease r s, ?phase, ?plain⟩
  case result =>
    intro r s p ws drops i hagent hfind howed hcheck
    refine (exec_longLatencyResult r s).trans (asAgent_current hagent ?_ ?_)
    · simp only [hfind, howed, hcheck, writeDue]
    · rw [State.writes_shape]
      rfl
  case waddr =>
    intro r s p i w geu acq scope left hagent hfind howed hleft u
    refine (exec_waddrRelease r s).trans (asAgent_current hagent ?_ ?_)
    · simp only [hfind, howed, hleft, List.isEmpty_nil, if_true, u]
    · split <;> simp [acquire_th, donePend, u, waddrLeft_th]
  case phase =>
    intro r s i p w t ws hagent hfind howed hdone hkept
    refine (exec_phwaitRelease r s).trans (asAgent_current hagent ?_ ((waitOver_agent ..).trans hkept))
    simp only [hfind, howed, hdone]
  case plain =>
    intro r s i p w t ws hagent hfind howed hdone hkept
    refine (exec_longLatencyResult r s).trans (asAgent_current hagent ?_ ((waitOver_agent ..).trans hkept))
    simp only [hfind, howed, hdone]

end Sys2Proof.Machine
end

section
/-!
PROOF. Group 6 and the paired words (R57, R92 to R96): each word goes on to the state that its rule names; then the statement about all of
them.
-/

namespace Sys2Proof.Machine

/-- A word of the scan tree that writes a register, where it issues (R92). -/
theorem treeOp_now {i : Instr} {hd : Hdr} {s : State} (h : issuesNow i i.uses hd s = true) (n : Nat) (d : Operand)
    (f : State → LaneMask → Nat → DWord) (fl : State → LaneMask → FFlags) :
    treeOp i hd n d f fl s =
      let act := partaking i hd s
      let t := issued i i.uses [] hd s
      .next (onward (t.setTh (deliver hd
        (withFlags (fl t act) (laneWrites act n d (f t act) fun _ => (lanesOf act).any (wordMark t.th i))) (noteWord t.th i act)))) :=
  issue_now h _

/-- A vote into a register is a word of the tree that writes one (R94). -/
theorem exec_lvote_mask (hd : Hdr) (d : Operand) (ns : Bool) (ps pd : BitVec 3) (s : State) :
    exec (.lvote hd d 3 ns ps pd) s = treeOp (.lvote hd d 3 ns ps pd) hd 1 d
      (fun s act _ => (voteMask s act ns ps).setWidth 64) (fun _ _ => FFlags.none) s := by
  rw [exec_lvote, execLvote, if_pos rfl]

/-- A vote into a predicate (R94). -/
theorem exec_lvote_pred {mode : BitVec 2} (hmode : mode ≠ 3) (hd : Hdr) (d : Operand) (ns : Bool) (ps pd : BitVec 3) (s : State) :
    exec (.lvote hd d mode ns ps pd) s = issue (.lvote hd d mode ns ps pd) [] [pd] hd s fun act s =>
      let q := voteMask s act ns ps
      let r := if mode = 0 then q == act else if mode = 1 then q != 0 else q == act || q == 0
      let mark := (lanesOf act).any (wordMark s.th (.lvote hd d mode ns ps pd))
      .next (s.setTh (advance (deliver hd ((lanesOf act).map fun l => Wr.p l pd.toNat r mark)
        (noteWord s.th (.lvote hd d mode ns ps pd) act)))) := by
  rw [exec_lvote, execLvote, if_neg hmode]

/-- Settles O24: each word issues and performs its body. LBCAST issues where the picked register is full; a paired word issues where neither
slot is held back. -/
theorem treeWordsComplete : Obligations.TreeWordsComplete := by
  refine ⟨?scan, ?reduction, ?vote, ?mask, ?bcast, ?find, ?paired⟩
  case scan =>
    intro x op excl s hissue
    rw [exec_lscan, execLscan]
    exact treeOp_now hissue ..
  case reduction =>
    intro x op s hissue
    rw [exec_lred, execLred]
    exact treeOp_now hissue ..
  case mask =>
    intro hd d ns ps pd s hissue
    rw [exec_lvote_mask]
    exact treeOp_now hissue ..
  case vote =>
    intro hd d mode ns ps pd hmode s hissue
    exact (exec_lvote_pred hmode hd d ns ps pd s).trans (issue_now hissue _)
  case bcast =>
    intro hd d a b ha b64 s i n us act t src mark hissue hfull
    rw [exec_lbcast, execLbcast]
    refine (issue_now hissue _).trans (if_neg ?_)
    rintro ⟨hact, hempty⟩
    have hpicked : pickedFull s.th src n a = true := hfull.resolve_left hact
    have hnot : pickedFull s.th src n a = false := by simpa using hempty
    exact absurd (hpicked.symm.trans hnot) (by decide)
  case find =>
    intro hd d hi ns ps pd s hissue
    rw [exec_lfind, execLfind]
    exact issue_now hissue _
  case paired =>
    intro s0 s1 s a0 a1 h0 h1
    refine (exec_pairedWord s0 s1 s).trans (if_neg ?_)
    rw [h0, h1]
    decide

end Sys2Proof.Machine
end

section
/-!
PROOF. One step (R47, R61, R64, R101, R103, R128): what is fetched and run at the program counter, what the first agent of a port answers,
and what a step does with it; then the statement about a step.
-/

namespace Sys2Proof.Machine

variable {ex : Instr → State → Out} {s t u : State} {p : IssuePort} {a : Agent} {o : Out}

/-! ### The word that runs -/

/-- The word that has been fetched runs (R47, R106). -/
theorem fetchRun_of_fetches {w : DWord} (hreplay : s.th.grp.replay = none) (h : Fetches s w t) : fetchRun ex s = runWord ex t w := by
  obtain ⟨hwindow, pa, key, htranslate, hdirectory, ⟨hhere, rfl⟩ | ⟨hthere, b, m, hpeek, rfl⟩⟩ := h
  · simp only [fetchRun, hreplay, hwindow, htranslate, hdirectory, hhere, Bool.false_eq_true, if_false, if_true]
  · simp only [fetchRun, hreplay, hwindow, htranslate, hdirectory, hthere, hpeek, Bool.false_eq_true, if_false]

/-- The word that the operand log holds runs again (R128). -/
theorem fetchRun_of_replay {x : LogWord} (hreplay : s.th.grp.replay = some x) : fetchRun ex s = runWord ex s x.word := by
  simp only [fetchRun, hreplay]

theorem runWord_ok {w : DWord} {i : Instr} (h : decode s.th.agent.engine s.th.nregs w = .ok i) :
    runWord ex s w = ex i (touchWord i s) := by
  simp only [runWord, h]

theorem runWord_error {w : DWord} {b : BadWord} (h : decode s.th.agent.engine s.th.nregs w = .error b) :
    runWord ex s w = ex (.reservedEncodingTrap b) s := by
  simp only [runWord, h]

/-! ### The port that has its turn -/

/-- A sub-group that can issue answers with its word, where that word has issued or stops the machine. -/
theorem tryWord_of_acted (hcan : canIssue (goes u).th = true) (hassist : assistHolds (goes u) = false)
    (hrun : fetchRun ex (goes u) = o) (hacted : ∀ v, o = .next v → acted (goes u).th v.th = true) :
    tryWord ex u = (some o, u) := by
  unfold tryWord
  rw [if_pos (by rw [hcan, hassist]; rfl), hrun]
  cases o with
  | next v => exact if_pos (hacted v rfl)
  | fault e => rfl
  | refused e => rfl

/-- With nothing due, the port that has its turn serves its agents (R226). -/
theorem step_of_turn {r : List IssuePort} (hinputs : s.inputs = []) (hdue : dueStep s = none) (hturns : s.turns = p :: r) :
    step s = backed s (servePort exec p (turnOrder s p) (turnOrder s p) { s with turns := r }) := by
  unfold step stepWith
  split
  · next hnext => exact absurd (hinputs.symm.trans hnext) nofun
  · rw [hdue, hturns]

/-- What a port answers with the word of its first agent: where it goes on, the turns have passed (R103, R226). -/
def portAnswer (s : State) (p : IssuePort) (a : Agent) (m : LaneMask) : Out → Out
  | .next v => .next (portTurn s p a m v)
  | .fault e => .fault e
  | .refused e => .refused e

/-- The first agent of the port that has its turn issues its word (R226). -/
theorem step_of_firstAt (hfirst : firstAt s p a u) (hrun : fetchRun exec (goes u) = o)
    (hacted : ∀ v, o = .next v → acted (goes u).th v.th = true) :
    step s = backed s (portAnswer s p a (goes u).th.grp.mask o) := by
  obtain ⟨hinputs, hdue, r, l, hturns, horder, hfocus, hyield, hreplay, hcan, hassist⟩ := hfirst
  have hmay : (notWithheld exec { s with turns := r } u a (turnOrder s p) u.th.grp && replayFirst u.th u.th.grp) = true := by
    simp only [notWithheld, hyield, hreplay, Bool.and_self]
  have hsubs : trySubs exec (fun g => notWithheld exec { s with turns := r } u a (turnOrder s p) g && replayFirst u.th g) (subCount u) u =
      (some o, u) := by
    simp only [subCount, trySubs, hmay, if_true, tryWord_of_acted hcan hassist hrun hacted]
  have hserve : servePort exec p (turnOrder s p) (turnOrder s p) { s with turns := r } = portAnswer s p a (goes u).th.grp.mask o := by
    rw [horder] at hsubs ⊢
    simp only [servePort, hfocus, hsubs, portAnswer, portTurn, hturns, horder]
    cases o <;> rfl
  rw [step_of_turn hinputs hdue hturns, hserve]

theorem step_of_firstAt_next {v : State} (hfirst : firstAt s p a u) (hrun : fetchRun exec (goes u) = .next v)
    (hacted : acted (goes u).th v.th = true) : step s = backed s (.next (portTurn s p a (goes u).th.grp.mask v)) := by
  rw [step_of_firstAt hfirst hrun fun w hw => Host.Outcome.next.inj hw ▸ hacted, portAnswer]

theorem step_of_firstAt_fault {e} (hfirst : firstAt s p a u) (hrun : fetchRun exec (goes u) = .fault e) : step s = .fault e := by
  rw [step_of_firstAt hfirst hrun (fun _ h => nomatch h), portAnswer, backed]

theorem step_of_firstAt_refused {e} (hfirst : firstAt s p a u) (hrun : fetchRun exec (goes u) = .refused e) : step s = .refused e := by
  rw [step_of_firstAt hfirst hrun (fun _ h => nomatch h), portAnswer, backed]

/-! ### The statement -/

/-- Settles O5. The order of due device steps, pending words, ports and cycles is log entry 1; that changes of a workgroup that is swapped
out reach its save area is log entry 34. -/
theorem stepRunsDecodedWord : Obligations.StepRunsDecodedWord := by
  refine ⟨?device, ?pending, ?cycle, ?idle, ?word⟩
  case device =>
    intro s i r h
    simp only [step, stepWith, h]
  case pending =>
    intro s i h hdue
    simp only [step, stepWith, h, hdue]
  case cycle =>
    intro s h hdue hturns
    simp only [step, stepWith, h, hdue, hturns]
  case idle =>
    intro s p r h hdue hturns horder
    rw [step_of_turn h hdue hturns, horder]
    rfl
  case word =>
    intro Runs
    have runs : ∀ s p a u o, firstAt s p a u → fetchRun exec (goes u) = o → Runs s p a (goes u).th o := by
      intro s p a u o hfirst hrun
      refine ⟨fun v hv hacted => ?_, fun e he => ?_, fun e he => ?_⟩
      · exact step_of_firstAt_next hfirst (hrun.trans hv) hacted
      · exact step_of_firstAt_fault hfirst (hrun.trans he)
      · exact step_of_firstAt_refused hfirst (hrun.trans he)
    clear_value Runs
    refine ⟨fun s p a u w t hfirst hreplay hfetch => ⟨fun i hi => runs s p a u _ hfirst ?_, fun b hb => runs s p a u _ hfirst ?_⟩,
      fun s p a u x i hfirst hreplay hi => runs s p a u _ hfirst ?_⟩
    · exact (fetchRun_of_fetches hreplay hfetch).trans (runWord_ok hi)
    · exact (fetchRun_of_fetches hreplay hfetch).trans (runWord_error hb)
    · exact (fetchRun_of_replay hreplay).trans (runWord_ok hi)

end Sys2Proof.Machine
end

section
/-!
PROOF. The lane words and the predicate words of groups 0 to 6 (R50, R73, R75): what a single write sets and leaves, what the writes of a
result come to, which writes the result of such a word holds; then the statement about their results and their frame.
-/

namespace Sys2Proof.Machine

/-! ### Readers of registers -/

/-- What `R` reads of a thread rests on its registers, its predicates and its capability slots alone. -/
def ReadsRegisters {α : Type} (R : Thread → α) : Prop :=
  ∀ a b : Thread, a.v = b.v → a.vEmpty = b.vEmpty → a.k = b.k → a.p = b.p → a.caps = b.caps → R a = R b

/-- A write leaves what `R` reads. -/
def Wr.Leaves {α : Type} (w : Wr) (R : Thread → α) : Prop := ∀ th : Thread, R (th.write1 w) = R th

/-- Behind a write `R` reads `x`. -/
def Wr.Sets {α : Type} (w : Wr) (R : Thread → α) (x : α) : Prop := ∀ th : Thread, R (th.write1 w) = x

theorem readsRegisters_rdV (l r : Nat) : ReadsRegisters (·.rdV l r) :=
  fun _ _ hv _ _ _ _ => congrArg (tget 0 · (regKey l r)) hv

theorem readsRegisters_isEmpty (l r : Nat) : ReadsRegisters (·.isEmpty l r) :=
  fun _ _ _ he _ _ _ => congrArg (tget false · (regKey l r)) he

theorem readsRegisters_rdK (r : Nat) : ReadsRegisters (·.rdK r) :=
  fun _ _ _ _ hk _ _ => congrArg (tget 0 · r) hk

theorem readsRegisters_rdP (l p : Nat) : ReadsRegisters (·.rdP l p) :=
  fun _ _ _ _ _ hp _ => congrArg (fun m : TMap LaneMask => decide (p = 7) || (tget 0 m p).getLsbD l) hp

theorem readsRegisters_caps : ReadsRegisters (·.caps) := fun _ _ _ _ _ _ hc => hc

section
variable {α : Type} {R : Thread → α} {ws : List Wr} {x : α}

theorem foldl_write1_leaves (h : ∀ w ∈ ws, w.Leaves R) (th : Thread) : R (ws.foldl Thread.write1 th) = R th := by
  induction ws generalizing th with
  | nil => rfl
  | cons w ws ih =>
    rw [List.foldl_cons, ih (fun w' hw' => h w' (List.mem_cons_of_mem w hw'))]
    exact h w List.mem_cons_self th

theorem foldl_write1_sets (h : ∀ w ∈ ws, w.Sets R x ∨ w.Leaves R) (th : Thread) (hx : R th = x ∨ ∃ w ∈ ws, w.Sets R x) :
    R (ws.foldl Thread.write1 th) = x := by
  induction ws generalizing th with
  | nil =>
    obtain hx | ⟨w, hw, -⟩ := hx
    · exact hx
    · exact absurd hw List.not_mem_nil
  | cons w ws ih =>
    refine ih (fun w' hw' => h w' (List.mem_cons_of_mem w hw')) _ ?_
    obtain hset | hleave := h w List.mem_cons_self
    · exact .inl (hset th)
    · obtain hx | ⟨w', hw', hset⟩ := hx
      · exact .inl ((hleave th).trans hx)
      · obtain rfl | hw' := List.mem_cons.mp hw'
        · exact .inl (hset th)
        · exact .inr ⟨w', hw', hset⟩

end

/-! ### The end of a word -/

/-- The thread in which a word has ended whose result is `ws`. -/
def endedWith (i : Instr) (act : LaneMask) (ws : List Wr) (th : Thread) : Thread := advance ((noteWord th i act).writes ws)

section
variable {i : Instr} {act : LaneMask} {ws : List Wr} {preds : List (BitVec 3)} {hd : Hdr} {s : State}

theorem noteWord_shape (th : Thread) : noteWord th i act = { th with err := (noteWord th i act).err } := by
  unfold noteWord
  split <;> rfl

@[simp] theorem noteWord_grp (th : Thread) : (noteWord th i act).grp = th.grp := by rw [noteWord_shape]

theorem endedWith_pc : (endedWith i act ws (issued i i.uses preds hd s).th).grp.pc = nextPc s.th.grp := by
  rw [endedWith, advance_pc, Thread.writes_shape]
  exact congrArg nextPc ((noteWord_grp _).trans issued_th_grp)

/-- Up to its writes, a word that ends leaves the registers as they were when it issued. -/
theorem read_unmark_noteWord_issued {α : Type} {R : Thread → α} (hR : ReadsRegisters R) :
    R ((noteWord (issued i i.uses preds hd s).th i act).unmark ws) = R s.th := by
  rw [noteWord_shape, issued_shape]
  exact hR _ _ rfl rfl rfl rfl rfl

theorem endedWith_leaves {α : Type} {R : Thread → α} (hR : ReadsRegisters R) (h : ∀ w ∈ ws, w.Leaves R) :
    R (endedWith i act ws (issued i i.uses preds hd s).th) = R s.th :=
  calc R (endedWith i act ws (issued i i.uses preds hd s).th)
    _ = R ((noteWord (issued i i.uses preds hd s).th i act).writes ws) := hR _ _ rfl rfl rfl rfl rfl
    _ = R ((noteWord (issued i i.uses preds hd s).th i act).unmark ws) := foldl_write1_leaves h _
    _ = R s.th := read_unmark_noteWord_issued hR

theorem endedWith_sets {α : Type} {R : Thread → α} {x : α} (hR : ReadsRegisters R) (h : ∀ w ∈ ws, w.Sets R x ∨ w.Leaves R)
    (hx : ∃ w ∈ ws, w.Sets R x) : R (endedWith i act ws (issued i i.uses preds hd s).th) = x :=
  calc R (endedWith i act ws (issued i i.uses preds hd s).th)
    _ = R ((noteWord (issued i i.uses preds hd s).th i act).writes ws) := hR _ _ rfl rfl rfl rfl rfl
    _ = x := foldl_write1_sets h _ (.inr hx)

/-- A word that writes no capability slot leaves the special registers (R14, R15). -/
theorem endedWith_sameSpecials (h : ∀ w ∈ ws, w.Leaves (·.caps)) :
    sameSpecials (endedWith i act ws (issued i i.uses preds hd s).th) s.th := by
  have hcaps : (endedWith i act ws (issued i i.uses preds hd s).th).caps = s.th.caps := endedWith_leaves readsRegisters_caps h
  refine ⟨?_, ?_, ?_, ?_, ?_, ?_, ?_, ?_, ?_, ?_, ?_, ?_, hcaps⟩ <;>
  · rw [endedWith, Thread.writes_shape, noteWord_shape, issued_shape]
    rfl

end

/-! ### What one write sets and leaves -/

theorem regKey_inj {l r l' r' : Nat} (hr : r < 256) (hr' : r' < 256) (h : regKey l r = regKey l' r') : l = l' ∧ r = r' := by
  unfold regKey at h
  omega

theorem leaves_fl {α : Type} {R : Thread → α} (hR : ReadsRegisters R) (b : Word) : (Wr.fl b).Leaves R := by
  intro th
  simp only [Thread.write1, Thread.raiseFlagBits]
  split <;> exact hR _ _ rfl rfl rfl rfl rfl

section
variable (l r : Nat) (x : Word) (mark b : Bool)

theorem sets_v_rdV : (Wr.v l r x mark).Sets (·.rdV l r) x := fun th => tget_tset_self 0 th.v (regKey l r) x

theorem sets_v_isEmpty : (Wr.v l r x mark).Sets (·.isEmpty l r) false := fun th => tget_tset_self false th.vEmpty (regKey l r) false

theorem sets_k_rdK : (Wr.k r x mark).Sets (·.rdK r) x := fun th => tget_tset_self 0 th.k r x

variable {l r}

theorem leaves_v_rdV {l' r' : Nat} (hr : r < 256) (hr' : r' < 256) (h : l = l' → r ≠ r') : (Wr.v l' r' x mark).Leaves (·.rdV l r) :=
  fun th => tget_tset_ne 0 th.v _ _ x fun hkey =>
    have ⟨hl, hrr⟩ := regKey_inj hr hr' hkey
    h hl hrr

theorem leaves_v_isEmpty {l' r' : Nat} (hr : r < 256) (hr' : r' < 256) (h : l = l' → r ≠ r') :
    (Wr.v l' r' x mark).Leaves (·.isEmpty l r) :=
  fun th => tget_tset_ne false th.vEmpty _ _ false fun hkey =>
    have ⟨hl, hrr⟩ := regKey_inj hr hr' hkey
    h hl hrr

theorem leaves_k_rdK {r' : Nat} (h : r ≠ r') : (Wr.k r' x mark).Leaves (·.rdK r) := fun th => tget_tset_ne 0 th.k _ _ x h

end

theorem getLsbD_laneBit (l i : Nat) : (laneBit l).getLsbD i = (decide (i < 32) && decide (l = i)) := by
  rw [laneBit, BitVec.getLsbD_ofNat, Nat.testBit_two_pow]

theorem getLsbD_setLane (m : LaneMask) (l i : Nat) (x : Bool) (hi : i < 32) :
    (setLane m l x).getLsbD i = if l = i then x else m.getLsbD i := by
  unfold setLane
  cases x
  · rw [if_neg Bool.false_ne_true, BitVec.getLsbD_and, BitVec.getLsbD_not, getLsbD_laneBit]
    by_cases h : l = i <;> simp [hi, h]
  · rw [if_pos rfl, BitVec.getLsbD_or, getLsbD_laneBit]
    by_cases h : l = i <;> simp [hi, h]

theorem sets_p_rdP {l p : Nat} (x mark : Bool) (hl : l < 32) (hp : p < 7) : (Wr.p l p x mark).Sets (·.rdP l p) x := by
  intro th
  simp [Thread.write1, Thread.wrP, Thread.rdP, hp, Nat.ne_of_lt hp, getLsbD_setLane _ _ _ _ hl]

theorem leaves_p_rdP {l p l' p' : Nat} (x mark : Bool) (hl : l < 32) (h : p = p' → l ≠ l') : (Wr.p l' p' x mark).Leaves (·.rdP l p) := by
  intro th
  simp only [Thread.write1, Thread.wrP]
  split
  · by_cases hpp : p = p'
    · have hne : ¬ l' = l := fun e => h hpp e.symm
      simp [Thread.rdP, hpp, getLsbD_setLane _ _ _ _ hl, hne]
    · simp [Thread.rdP, tget_tset_ne _ _ _ _ _ hpp]
  · rfl

/-- A write to a predicate leaves the registers and the capability slots. -/
theorem wrP_regs (th : Thread) (l p : Nat) (x mk : Bool) :
    (th.wrP l p x mk).v = th.v ∧ (th.wrP l p x mk).k = th.k ∧ (th.wrP l p x mk).caps = th.caps := by
  unfold Thread.wrP
  split <;> exact ⟨rfl, rfl, rfl⟩

theorem leaves_p_rdV (l p l' r : Nat) (x mk : Bool) : (Wr.p l p x mk).Leaves (·.rdV l' r) :=
  fun th => congrArg (tget 0 · (regKey l' r)) (wrP_regs th l p x mk).1

theorem leaves_p_rdK (l p r : Nat) (x mk : Bool) : (Wr.p l p x mk).Leaves (·.rdK r) :=
  fun th => congrArg (tget 0 · r) (wrP_regs th l p x mk).2.1

theorem leaves_p_caps (l p : Nat) (x mk : Bool) : (Wr.p l p x mk).Leaves (·.caps) := fun th => (wrP_regs th l p x mk).2.2

/-! ### The writes of a result -/

theorem mem_lanesOf {m : LaneMask} {l : Nat} : l ∈ lanesOf m ↔ m.getLsbD l = true := by
  simp only [lanesOf, List.mem_filter, List.mem_range, and_iff_right_iff_imp]
  exact BitVec.lt_of_getLsbD

/-- Word `j` of a value. -/
def wordAt (x : DWord) (j : Nat) : Word := x.extractLsb' (32 * j) 32

@[simp] theorem wordAt_zero (x : DWord) : wordAt x 0 = x.setWidth 32 := by
  ext i hi
  simp [wordAt]

@[simp] theorem wordAt_one (x : DWord) : wordAt x 1 = x.extractLsb' 32 32 := rfl

theorem exists_lt_two {P : Nat → Prop} : (∃ j < 2, P j) ↔ P 0 ∨ P 1 := by
  rw [Nat.exists_lt_succ_left, Nat.exists_lt_succ_left]
  simp

section
variable {l n : Nat} {x : DWord} {mk : Bool} {w : Wr}

theorem mem_regWrites_v {m : BitVec 8} (hn : n = 1 ∨ n = 2) :
    w ∈ regWrites l n x mk (.v m) ↔ ∃ j < n, w = .v l (m.toNat + j) (wordAt x j) mk := by
  obtain rfl | rfl := hn
  · simp [regWrites]
  · simp only [regWrites, exists_lt_two, List.mem_cons, if_true, List.not_mem_nil, or_false, Nat.add_zero, wordAt_zero, wordAt_one]

theorem mem_regWrites_k {m : BitVec 7} (hn : n = 1 ∨ n = 2) :
    w ∈ regWrites l n x mk (.k m) ↔ ∃ j < n, w = .k (m.toNat + j) (wordAt x j) mk := by
  obtain rfl | rfl := hn
  · simp [regWrites]
  · simp only [regWrites, exists_lt_two, List.mem_cons, if_true, List.not_mem_nil, or_false, Nat.add_zero, wordAt_zero, wordAt_one]

end

section
variable {act : LaneMask} {n : Nat} {val : Nat → DWord} {mark : Nat → Bool} {w : Wr}

theorem mem_laneWrites_v {m : BitVec 8} (hn : n = 1 ∨ n = 2) :
    w ∈ laneWrites act n (.v m) val mark ↔
      ∃ l, act.getLsbD l = true ∧ ∃ j < n, w = .v l (m.toNat + j) (wordAt (val l) j) (mark l) := by
  simp only [laneWrites, List.mem_flatMap, mem_lanesOf, mem_regWrites_v hn]

theorem mem_laneWrites_k {m : BitVec 7} (hn : n = 1 ∨ n = 2) :
    w ∈ laneWrites act n (.k m) val mark ↔
      act ≠ 0 ∧ ∃ j < n, w = .k (m.toNat + j) (wordAt (val (lowLane act)) j) (mark (lowLane act)) := by
  rw [laneWrites]
  split
  · next h => simp [h]
  · next h => rw [mem_regWrites_k hn, and_iff_right h]

/-- A result writes a register that D names, of a lane that takes part. -/
theorem forall_mem_laneWrites {d : Operand} {P : Wr → Prop} (hn : n = 1 ∨ n = 2)
    (hv : ∀ m l j x mk, d = .v m → act.getLsbD l = true → j < n → P (.v l (m.toNat + j) x mk))
    (hk : ∀ m j x mk, d = .k m → act ≠ 0 → j < n → P (.k (m.toNat + j) x mk)) : ∀ w ∈ laneWrites act n d val mark, P w := by
  intro w hw
  cases d with
  | v m =>
    obtain ⟨l, hl, j, hj, rfl⟩ := (mem_laneWrites_v hn).mp hw
    exact hv m l j _ _ rfl hl hj
  | k m =>
    obtain ⟨hact, j, hj, rfl⟩ := (mem_laneWrites_k hn).mp hw
    exact hk m j _ _ rfl hact hj
  | s m => exact absurd hw List.not_mem_nil
  | c m => exact absurd hw List.not_mem_nil

end

theorem forall_mem_withFlags {fl : FFlags} {ws : List Wr} {P : Wr → Prop} (hfl : ∀ b, P (.fl b)) (h : ∀ w ∈ ws, P w) :
    ∀ w ∈ withFlags fl ws, P w := by
  intro w hw
  unfold withFlags at hw
  split at hw
  · exact absurd hw List.not_mem_nil
  · obtain rfl | hw := List.mem_cons.mp hw
    · exact hfl _
    · exact h w hw

theorem mem_withFlags_of_mem {fl : FFlags} {ws : List Wr} {w : Wr} (h : w ∈ ws) : w ∈ withFlags fl ws := by
  have hne : ¬ ws.isEmpty = true := fun hnil => List.ne_nil_of_mem h (List.isEmpty_iff.mp hnil)
  rw [withFlags, if_neg hne]
  exact List.mem_cons_of_mem _ h

/-! ### A lane word that ends -/

section
variable {i : Instr} {hd : Hdr} {n : Nat} {d : Operand} {f : State → Nat → LaneRes} {s : State}

theorem laneEnd_pc : (laneEnd i hd n d f s).th.grp.pc = nextPc s.th.grp := endedWith_pc

/-- What no write to a register of D reaches in a lane that takes part stays. -/
theorem laneEnd_leaves {α : Type} {R : Thread → α} (hR : ReadsRegisters R) (hn : n = 1 ∨ n = 2)
    (hv : ∀ m l j x mk, d = .v m → (partaking i hd s).getLsbD l = true → j < n → (Wr.v l (m.toNat + j) x mk).Leaves R)
    (hk : ∀ m j x mk, d = .k m → partaking i hd s ≠ 0 → j < n → (Wr.k (m.toNat + j) x mk).Leaves R) :
    R (laneEnd i hd n d f s).th = R s.th :=
  endedWith_leaves hR (forall_mem_withFlags (leaves_fl hR) (forall_mem_laneWrites hn hv hk))

theorem laneEnd_sets_v {α : Type} {R : Thread → α} {y : α} {m : BitVec 8} {l j : Nat} (hR : ReadsRegisters R) (hn : n = 1 ∨ n = 2)
    (hl : (partaking i hd s).getLsbD l = true) (hj : j < n)
    (hset : ∀ mk, (Wr.v l (m.toNat + j) (wordAt (f (issued i i.uses [] hd s) l).val j) mk).Sets R y)
    (hleave : ∀ l' j' x mk, j' < n → (l = l' → j ≠ j') → (Wr.v l' (m.toNat + j') x mk).Leaves R) :
    R (laneEnd i hd n (.v m) f s).th = y := by
  refine endedWith_sets hR (forall_mem_withFlags (fun b => .inr (leaves_fl hR b)) ?all) ?some
  case all =>
    intro w hw
    obtain ⟨l', -, j', hj', rfl⟩ := (mem_laneWrites_v hn).mp hw
    by_cases hsame : l = l' ∧ j = j'
    · obtain ⟨rfl, rfl⟩ := hsame
      exact .inl (hset _)
    · exact .inr (hleave l' j' _ _ hj' fun hll hjj => hsame ⟨hll, hjj⟩)
  case some =>
    exact ⟨_, mem_withFlags_of_mem ((mem_laneWrites_v hn).mpr ⟨l, hl, j, hj, rfl⟩), hset _⟩

theorem laneEnd_rdV {m : BitVec 8} {l j : Nat} (hn : n = 1 ∨ n = 2) (hm : m.toNat + n ≤ 256)
    (hl : (partaking i hd s).getLsbD l = true) (hj : j < n) :
    (laneEnd i hd n (.v m) f s).th.rdV l (m.toNat + j) = wordAt (f (issued i i.uses [] hd s) l).val j :=
  laneEnd_sets_v (readsRegisters_rdV l (m.toNat + j)) hn hl hj (fun mk => sets_v_rdV l (m.toNat + j) _ mk) fun l' j' x mk hj' hne =>
    leaves_v_rdV x mk (by omega) (by omega) fun hll => by have := hne hll; omega

theorem laneEnd_isEmpty {m : BitVec 8} {l j : Nat} (hn : n = 1 ∨ n = 2) (hm : m.toNat + n ≤ 256)
    (hl : (partaking i hd s).getLsbD l = true) (hj : j < n) : (laneEnd i hd n (.v m) f s).th.isEmpty l (m.toNat + j) = false :=
  laneEnd_sets_v (readsRegisters_isEmpty l (m.toNat + j)) hn hl hj (fun mk => sets_v_isEmpty l (m.toNat + j) _ mk) fun l' j' x mk hj' hne =>
    leaves_v_isEmpty x mk (by omega) (by omega) fun hll => by have := hne hll; omega

theorem laneEnd_rdK {m : BitVec 7} {j : Nat} (hn : n = 1 ∨ n = 2) (hact : partaking i hd s ≠ 0) (hj : j < n) :
    (laneEnd i hd n (.k m) f s).th.rdK (m.toNat + j) = wordAt (f (issued i i.uses [] hd s) (lowLane (partaking i hd s))).val j := by
  have hR := readsRegisters_rdK (m.toNat + j)
  refine endedWith_sets hR (forall_mem_withFlags (fun b => .inr (leaves_fl hR b)) ?all) ?some
  case all =>
    intro w hw
    obtain ⟨-, j', -, rfl⟩ := (mem_laneWrites_k hn).mp hw
    by_cases hjj : j = j'
    · exact hjj ▸ .inl (sets_k_rdK _ _ _)
    · exact .inr (leaves_k_rdK _ _ (by omega))
  case some =>
    exact ⟨_, mem_withFlags_of_mem ((mem_laneWrites_k hn).mpr ⟨hact, j, hj, rfl⟩), sets_k_rdK _ _ _⟩

theorem laneEnd_rdV_other {l r : Nat} (hn : n = 1 ∨ n = 2) (hm : ∀ m, d = .v m → m.toNat + n ≤ 256) (hr : r < 256)
    (h : namesV n r d = false ∨ (partaking i hd s).getLsbD l = false) : (laneEnd i hd n d f s).th.rdV l r = s.th.rdV l r := by
  refine laneEnd_leaves (readsRegisters_rdV l r) hn ?perLane fun _ _ _ _ _ _ _ _ => rfl
  rintro m l' j x mk rfl hl' hj
  have hmn := hm m rfl
  refine leaves_v_rdV x mk hr (by omega) ?_
  rintro rfl rfl
  obtain hname | hlane := h
  · simp [namesV, hj] at hname
  · exact absurd (hl'.symm.trans hlane) nofun

theorem laneEnd_rdK_other {r : Nat} (hn : n = 1 ∨ n = 2) (h : namesK n r d = false ∨ partaking i hd s = 0) :
    (laneEnd i hd n d f s).th.rdK r = s.th.rdK r := by
  refine laneEnd_leaves (readsRegisters_rdK r) hn (fun _ _ _ _ _ _ _ _ _ => rfl) ?uniform
  rintro m j x mk rfl hact hj
  refine leaves_k_rdK x mk ?_
  rintro rfl
  obtain hname | hlane := h
  · simp [namesK, hj] at hname
  · exact hact hlane

theorem laneEnd_rdP (hn : n = 1 ∨ n = 2) (l p : Nat) : (laneEnd i hd n d f s).th.rdP l p = s.th.rdP l p :=
  laneEnd_leaves (readsRegisters_rdP l p) hn (fun _ _ _ _ _ _ _ _ _ => rfl) fun _ _ _ _ _ _ _ _ => rfl

theorem laneEnd_sameSpecials (hn : n = 1 ∨ n = 2) : sameSpecials (laneEnd i hd n d f s).th s.th :=
  endedWith_sameSpecials (forall_mem_withFlags (leaves_fl readsRegisters_caps)
    (forall_mem_laneWrites hn (fun _ _ _ _ _ _ _ _ _ => rfl) fun _ _ _ _ _ _ _ _ => rfl))

theorem windowLen_noteWord_issued {act : LaneMask} :
    windowLen (noteWord (issued i i.uses [] hd s).th i act) hd = windowLen s.th hd := by
  rw [windowLen, noteWord_grp, issued_th_grp, windowLen]

/-- With an empty window the result of a long-latency word is written at once (R61). -/
theorem laneEndLong_of_windowLen (h : windowLen s.th hd = 0) : laneEndLong i hd n d f s = laneEnd i hd n d f s := by
  simp only [laneEndLong, laneEnd, deliver, windowLen_noteWord_issued, h, decide_true, Bool.true_or, if_true]

end

/-! ### A predicate word that ends -/

section
variable {i : Instr} {hd : Hdr} {pd : BitVec 3} {f : State → Nat → Bool × FFlags} {s : State}

/-- A predicate result writes `pd` in the lanes that take part. -/
theorem forall_mem_predResults {P : Wr → Prop} {act : LaneMask} {t : State} (hfl : ∀ b, P (.fl b))
    (hp : ∀ l mk, act.getLsbD l = true → P (.p l pd.toNat (f t l).1 mk)) : ∀ w ∈ predResults i act pd f t, P w := by
  refine forall_mem_withFlags hfl fun w hw => ?_
  obtain ⟨l, hl, rfl⟩ := List.mem_map.mp hw
  exact hp l _ (mem_lanesOf.mp hl)

theorem predEnd_pc : (predEnd i hd pd f s).th.grp.pc = nextPc s.th.grp := endedWith_pc

/-- What no write to predicate `pd` reaches in a lane that takes part stays. -/
theorem predEnd_leaves {α : Type} {R : Thread → α} (hR : ReadsRegisters R)
    (hp : ∀ l x mk, (partaking i hd s).getLsbD l = true → (Wr.p l pd.toNat x mk).Leaves R) :
    R (predEnd i hd pd f s).th = R s.th :=
  endedWith_leaves hR (forall_mem_predResults (leaves_fl hR) fun l mk hl => hp l _ mk hl)

theorem predEnd_rdP {l : Nat} (hpd : pd ≠ 7) (hl : (partaking i hd s).getLsbD l = true) :
    (predEnd i hd pd f s).th.rdP l pd.toNat = (f (issued i i.uses [pd] hd s) l).1 := by
  have hR := readsRegisters_rdP l pd.toNat
  have hl32 : l < 32 := BitVec.lt_of_getLsbD hl
  have hpd7 : pd.toNat < 7 := by bv_omega
  refine endedWith_sets hR (forall_mem_predResults (fun b => .inr (leaves_fl hR b)) fun l' mk _ => ?_) ?some
  · by_cases hll : l = l'
    · exact hll ▸ .inl (sets_p_rdP _ _ hl32 hpd7)
    · exact .inr (leaves_p_rdP _ _ hl32 fun _ => hll)
  case some =>
    exact ⟨_, mem_withFlags_of_mem (List.mem_map.mpr ⟨l, mem_lanesOf.mpr hl, rfl⟩), sets_p_rdP _ _ hl32 hpd7⟩

theorem predEnd_rdP_other {l p : Nat} (hl : l < 32) (h : p ≠ pd.toNat ∨ (partaking i hd s).getLsbD l = false) :
    (predEnd i hd pd f s).th.rdP l p = s.th.rdP l p := by
  refine predEnd_leaves (readsRegisters_rdP l p) fun l' x mk hl' => leaves_p_rdP x mk hl ?_
  rintro rfl rfl
  obtain hne | hlane := h
  · exact hne rfl
  · exact absurd (hl'.symm.trans hlane) nofun

end

/-! ### The statement -/

/-- Settles O10: the end of each such word is the state that `laneEnd` and `predEnd` give, and the rules above say what it holds. -/
theorem laneResultsAndFrame : Obligations.LaneResultsAndFrame := by
  refine ⟨?lane, ?pred, ?long⟩
  case lane =>
    intro i hd n d f hn hm hword s hissues
    refine ⟨laneEnd i hd n d f s, hword s hissues, rfl, laneEnd_pc, ?perLane, ?uniform,
      fun l r _ hr h => laneEnd_rdV_other hn hm hr h, fun r h => laneEnd_rdK_other hn h, laneEnd_rdP hn, laneEnd_sameSpecials hn⟩
    case perLane =>
      rintro m l rfl - hl
      have hrd (j : Nat) (hj : j < n) := laneEnd_rdV (f := f) (j := j) hn (hm m rfl) hl hj
      exact ⟨(hrd 0 (by omega)).trans (wordAt_zero _), fun h2 => hrd 1 (by omega), fun r hr => laneEnd_isEmpty hn (hm m rfl) hl hr⟩
    case uniform =>
      rintro m rfl hact
      have hrd (j : Nat) (hj : j < n) := laneEnd_rdK (m := m) (f := f) (j := j) hn hact hj
      exact ⟨(hrd 0 (by omega)).trans (wordAt_zero _), fun h2 => hrd 1 (by omega)⟩
  case pred =>
    intro i hd pd f hword s hissues
    exact ⟨predEnd i hd pd f s, hword s hissues, rfl, predEnd_pc, fun l hpd hl => predEnd_rdP hpd hl,
      fun l p hl h => predEnd_rdP_other hl h,
      fun l r => predEnd_leaves (readsRegisters_rdV l r) fun l' x mk _ => leaves_p_rdV l' pd.toNat l r x mk,
      fun r => predEnd_leaves (readsRegisters_rdK r) fun l' x mk _ => leaves_p_rdK l' pd.toNat r x mk,
      endedWith_sameSpecials (forall_mem_predResults (leaves_fl readsRegisters_caps) fun l mk _ => leaves_p_caps l pd.toNat _ mk)⟩
  case long =>
    intro i hd n d f hword s hwindow hissues
    rw [hword s hissues, laneEndLong_of_windowLen hwindow]

end Sys2Proof.Machine
end

section
/-!
PROOF. The words of groups 0 to 5 (R77, R79, R80, R82 to R91): a word whose meaning is one of the shared operations completes as one; the
words whose meaning is written otherwise are brought to that form; then the statements, a group each.
-/

namespace Sys2Proof.Machine

/-! ### Words that are a shared operation -/

section
variable {i : Instr} {hd : Hdr}

/-- A word whose meaning is a long-latency lane operation completes as one. -/
theorem laneWordLong_of_exec {n : Nat} {d : Operand} {f : State → Nat → LaneRes} (hi : ∀ s, exec i s = laneOpLong i hd n d f s) :
    LaneWordLong i hd n d f :=
  fun s h => (hi s).trans (laneOpLong_now h)

/-- A word whose meaning is a predicate operation completes as a predicate word. -/
theorem predWord_of_exec {pd : BitVec 3} {f : State → Nat → Bool × FFlags} (hi : ∀ s, exec i s = predOp i hd pd f s) :
    PredWord i hd pd f :=
  fun s h => (hi s).trans (predOp_now h)

/-- A word whose meaning is a long-latency predicate operation completes as one. -/
theorem predWordLong_of_exec {pd : BitVec 3} {f : State → Nat → Bool × FFlags} (hi : ∀ s, exec i s = predOpLong i hd pd f s) :
    PredWordLong i hd pd f :=
  fun s h => (hi s).trans (predOpLong_now h)

end

/-! ### Group 0 -/

/-- There is a carry or borrow in where CIN names a predicate that is true; 7 names none (R77). -/
theorem carryIn_iff (cin : BitVec 3) (b : Bool) : (cin != 7 && b) = true ↔ cin ≠ 7 ∧ b = true := by
  rw [Bool.and_eq_true, bne_iff_ne]

/-- Settles O18: all but IADDC and ISUBB are lane or predicate operations; those two issue and write a register and a predicate. -/
theorem integerWordsComplete : Obligations.IntegerWordsComplete := by
  refine ⟨fun x sat => laneWord_of_exec (exec_iadd x sat), fun x sat => laneWord_of_exec (exec_isub x sat),
    fun x => laneWord_of_exec (exec_imul x), fun x u => laneWord_of_exec (exec_imulhi x u),
    fun x sat => laneWord_of_exec (exec_imad x sat), fun x => laneWord_of_exec (exec_imadw x), ?addc, ?subb,
    fun x u => laneWord_of_exec (exec_imin x u), fun x u => laneWord_of_exec (exec_imax x u),
    fun x sat => laneWord_of_exec (exec_iabs x sat), fun x sat => laneWord_of_exec (exec_ineg x sat),
    fun x => laneWord_of_exec (exec_isad x), fun x sat => laneWord_of_exec (exec_idot4 x sat),
    fun x sh u => laneWord_of_exec (exec_lea x sh u), fun x sat => laneWord_of_exec (exec_iadd64 x sat),
    fun x sat => laneWord_of_exec (exec_isub64 x sat), fun x => predWord_of_exec (exec_icmp x),
    fun x ps ns => laneWord_of_exec (exec_isel x ps ns)⟩
  case addc =>
    intro x cin cout s hissue
    rw [exec_iaddc]
    simp only [execIaddc, carryIn_iff]
    exact issue_now hissue _
  case subb =>
    intro x cin cout s hissue
    rw [exec_isubb]
    simp only [execIsubb, carryIn_iff]
    exact issue_now hissue _

/-! ### Group 1 -/

/-- The operation of PSET on two predicates (R79). -/
theorem exec_pset_op (hd : Hdr) (pd pa : BitVec 3) (na : Bool) (pb : BitVec 3) (nb : Bool) (op : BitVec 2) (s : State) :
    exec (.pset hd pd pa na pb nb op) s = predOp (.pset hd pd pa na pb nb op) hd pd (fun s l =>
      let a := s.th.rdP l pa.toNat != na
      let b := s.th.rdP l pb.toNat != nb
      (if op = 0 then a && b else if op = 1 then a || b else if op = 2 then a != b else a && !b, FFlags.none)) s := by
  have hop : op = 0 ∨ op = 1 ∨ op = 2 ∨ op = 3 := by decide +revert
  obtain rfl | rfl | rfl | rfl := hop <;> rfl

/-- Settles O19: all but PMOV.set are lane or predicate operations; PMOV.set issues and writes every predicate. -/
theorem logicWordsComplete : Obligations.LogicWordsComplete := by
  refine ⟨fun x => laneWord_of_exec (exec_and x), fun x => laneWord_of_exec (exec_or x), fun x => laneWord_of_exec (exec_xor x),
    fun x => laneWord_of_exec (exec_andn x), fun x => laneWord_of_exec (exec_not x),
    fun hd d a b c tt => laneWord_of_exec (exec_bool3 hd d a b c tt), fun x => laneWord_of_exec (exec_shl x),
    fun x => laneWord_of_exec (exec_shr x), fun x => laneWord_of_exec (exec_sar x), fun x => laneWord_of_exec (exec_rotl x),
    fun x => laneWord_of_exec (exec_funnel x), fun x sx => laneWord_of_exec (exec_bfx x sx), fun x => laneWord_of_exec (exec_bfi x),
    fun x => laneWord_of_exec (exec_popc x), fun x => laneWord_of_exec (exec_clz x), fun x => laneWord_of_exec (exec_ctz x),
    fun x => laneWord_of_exec (exec_brev x), fun x => laneWord_of_exec (exec_byteperm x),
    fun hd pd pa na pb nb op => predWord_of_exec (exec_pset_op hd pd pa na pb nb op),
    fun hd d => laneWord_of_exec (exec_pmovGet hd d), ?setPreds⟩
  case setPreds =>
    intro hd a ha s hissue
    rw [exec_pmovSet, execPmovSet]
    exact issue_now hissue _

/-! ### Group 2 -/

/-- Settles O20: every word is a lane operation, ICMPI a predicate operation. -/
theorem immediateWordsComplete : Obligations.ImmediateWordsComplete :=
  ⟨fun hd d imm => laneWord_of_exec (exec_movi hd d imm), fun hd d imm => laneWord_of_exec (exec_movhi hd d imm),
    fun x => laneWord_of_exec (exec_iaddi x), fun x => laneWord_of_exec (exec_imuli x), fun x => laneWord_of_exec (exec_andi x),
    fun x => laneWord_of_exec (exec_ori x), fun x => laneWord_of_exec (exec_xori x), fun x => laneWord_of_exec (exec_shli x),
    fun x => laneWord_of_exec (exec_shri x), fun x => laneWord_of_exec (exec_sari x),
    fun hd a cc pd imm => predWord_of_exec (exec_icmpi hd a cc pd imm), fun x => laneWord_of_exec (exec_leai x)⟩

/-! ### Group 3 -/

/-- Settles O21: the arithmetic words and FCLASS are lane operations, FCMP a predicate operation, the special functions long-latency lane
operations. -/
theorem floatWordsComplete : Obligations.FloatWordsComplete :=
  ⟨fun x rnd sat sm => laneWord_of_exec (exec_fadd x rnd sat sm), fun x rnd sat sm => laneWord_of_exec (exec_fsub x rnd sat sm),
    fun x rnd sat sm => laneWord_of_exec (exec_fmul x rnd sat sm), fun x rnd sat sm => laneWord_of_exec (exec_ffma x rnd sat sm),
    fun x sm => laneWord_of_exec (exec_fmin x sm), fun x sm => laneWord_of_exec (exec_fmax x sm),
    fun x sm => predWord_of_exec (exec_fcmp x sm), fun x sm => laneWord_of_exec (exec_fclass x sm),
    fun x rnd sat sm => laneWordLong_of_exec (exec_frcp x rnd sat sm), fun x sm => laneWordLong_of_exec (exec_frsq x sm),
    fun x rnd sm => laneWordLong_of_exec (exec_fsqrt x rnd sm), fun x sat sm => laneWordLong_of_exec (exec_fex2 x sat sm),
    fun x sm => laneWordLong_of_exec (exec_flg2 x sm), fun x sm => laneWordLong_of_exec (exec_fsin x sm),
    fun x sm => laneWordLong_of_exec (exec_fcos x sm)⟩

/-! ### Group 4 -/

/-- Settles O22: the FP64 words are long-latency lane operations, DCMP a long-latency predicate operation, the packed words lane
operations. -/
theorem doubleAndPackedWordsComplete : Obligations.DoubleAndPackedWordsComplete :=
  ⟨fun x rnd sat sm => laneWordLong_of_exec (exec_dadd x rnd sat sm), fun x rnd sat sm => laneWordLong_of_exec (exec_dsub x rnd sat sm),
    fun x rnd sat sm => laneWordLong_of_exec (exec_dmul x rnd sat sm), fun x rnd sat sm => laneWordLong_of_exec (exec_dfma x rnd sat sm),
    fun x sm => laneWordLong_of_exec (exec_dmin x sm), fun x sm => laneWordLong_of_exec (exec_dmax x sm),
    fun x sm => predWordLong_of_exec (exec_dcmp x sm), fun x rnd sat sm => laneWordLong_of_exec (exec_drcp x rnd sat sm),
    fun x rnd sat sm => laneWord_of_exec (exec_add2h x rnd sat sm), fun x rnd sat sm => laneWord_of_exec (exec_mul2h x rnd sat sm),
    fun x rnd sat sm => laneWord_of_exec (exec_fma2h x rnd sat sm), fun x sm => laneWord_of_exec (exec_max2h x sm),
    fun x rnd sat sm => laneWord_of_exec (exec_add2b x rnd sat sm), fun x rnd sat sm => laneWord_of_exec (exec_mul2b x rnd sat sm),
    fun x rnd sat sm => laneWord_of_exec (exec_fma2b x rnd sat sm), fun x sm => laneWord_of_exec (exec_max2b x sm)⟩

/-! ### Group 5 -/

/-- FRND of a format that exists (R88). -/
theorem exec_frnd_format {fmt : BitVec 4} {f : FFmt} (hf : fpFormat fmt.toNat = some f) (x : A1) (rnd : BitVec 3) (sm : BitVec 2)
    (s : State) :
    exec (.frnd x fmt rnd sm) s = laneOp (.frnd x fmt rnd sm) x.hd (fmtWords fmt) x.d (fun s l =>
      .fp (roundIntegral f rnd s.th.subn (cvtSource s l x.a fmt.toNat sm))) s := by
  rw [exec_frnd]
  simp only [execFrnd, hf]

/-- Settles O23: CVT, UNPKBX, FRND and MOV are lane operations; CVTBX issues and writes the elements and the exponents; MOVK issues where a
lane takes part and the picked register is full. -/
theorem conversionWordsComplete : Obligations.ConversionWordsComplete := by
  refine ⟨fun x dst src rnd sat sm => laneWord_of_exec (exec_cvt x dst src rnd sat sm), ?block,
    fun hd d a c bx4 => laneWord_of_exec (exec_unpkbx hd d a c bx4),
    fun x fmt rnd sm f hf => laneWord_of_exec (exec_frnd_format hf x rnd sm),
    fun x => laneWord_of_exec (exec_mov x false), fun x => laneWord_of_exec (exec_mov x true), ?pick⟩
  case block =>
    intro hd d a c rnd bx4 sm s hissue
    rw [exec_cvtbx, execCvtbx]
    exact issue_now hissue _
  case pick =>
    intro hd d a b s i us act t src hissue hact hfull
    rw [exec_movk, execMovk]
    have hread : (!pickedFull s.th src 1 a) = false := by rw [hfull]; rfl
    exact (issue_now hissue _).trans ((if_neg hact).trans (if_neg (ne_true_of_eq_false hread)))

end Sys2Proof.Machine
end

section
/-!
PROOF. The words of groups 8 and 9 (R112 to R118, R123 to R125): each completes by the path that every memory word takes; the words that
may wait, FENCE and WADDR, by whether something is left to wait for; then the statements about them.
-/

namespace Sys2Proof.Machine

/-! ### Loads, stores and atomics -/

/-- Settles O31. -/
theorem loadsAndStoresComplete : Obligations.LoadsAndStoresComplete :=
  ⟨fun m s h => (exec_ld m s).trans (memWord_now h _), fun m s h => (exec_ldu m s).trans (memWord_now h _),
    fun m s h => (exec_st m s).trans (memWord_now h _), fun m s h => (exec_stu m s).trans (memWord_now h _)⟩

/-- Settles O32. -/
theorem atomicsComplete : Obligations.AtomicsComplete :=
  ⟨fun x s h => (exec_atom x s).trans (memWord_now h _), fun x s h => (exec_atomcas x s).trans (memWord_now h _),
    fun x s h => (exec_red x s).trans (memWord_now h _)⟩

/-! ### FENCE -/

/-- The tags of the answers that a pending word awaits. -/
def Owed.tags : Owed → List Nat
  | .wait _ => []
  | .result _ aw _ => aw.map Await.tag

theorem loadTags_eq (th : Thread) : loadTags th = th.pend.flatMap fun p => p.owed.tags := rfl

@[simp] theorem Owed.tags_yieldTo (ds : List Wr) (o : Owed) : (o.yieldTo ds).tags = o.tags := by
  cases o <;> rfl

theorem flatMap_tags_settleOlds (ps : List Pend) :
    (settleOlds ps).flatMap (fun p => p.owed.tags) = ps.flatMap fun p => p.owed.tags := by
  induction ps with
  | nil => rfl
  | cons p r ih => simp only [settleOlds, List.flatMap_cons, ih]

/-- Issuing leaves what the troupe's loads await (R61). -/
theorem loadTags_countWindows (th : Thread) (m : LaneMask) (ds : List Wr) : loadTags (countWindows th m ds) = loadTags th := by
  rw [loadTags_eq, loadTags_eq, ← flatMap_tags_settleOlds th.pend]
  simp only [countWindows, List.flatMap_map]
  congr 1
  funext p
  split
  · rfl
  · exact Owed.tags_yieldTo ds p.owed

/-- The writes and answers that a FENCE waits for are out, so that its release part is behind it only where there are none (R117). -/
theorem fenceTags_out {th : Thread} {m : Mem} {t : Nat} (h : t ∈ fenceTags th m) : t ∈ th.fabric ∨ t ∈ loadTags th := by
  unfold fenceTags releaseTags at h
  obtain h | h := List.mem_append.mp h
  · left
    split at h
    · split at h
      · exact h
      · exact absurd h List.not_mem_nil
    · exact absurd h List.not_mem_nil
  · right
    split at h
    · exact h
    · exact absurd h List.not_mem_nil

section
variable {m : Mem} {s t : State} {acq : Option Scope}

theorem fenceDone_nil : fenceDone t (.fence [] acq) = some (acq.elim t fun scope => acquire t scope) := by
  cases acq <;> rfl

theorem fenceDone_fenceTags (hne : fenceTags s.th m ≠ []) (hfabric : t.th.fabric = s.th.fabric) (hloads : loadTags t.th = loadTags s.th) :
    fenceDone t (.fence (fenceTags s.th m) acq) = none := by
  obtain ⟨n, hn⟩ := List.exists_mem_of_ne_nil _ hne
  refine if_pos (List.any_eq_true.mpr ⟨n, hn, ?_⟩)
  simpa [hfabric, hloads] using fenceTags_out hn

end

/-- A FENCE ends no lookahead window (R61). -/
theorem atWord_fence (m : Mem) (th : Thread) : atWord (.fence m) th = th := by
  have hop : (Instr.fence m).opcode = 517 := rfl
  refine if_neg ?_
  rw [endsWindow, hop]
  decide

theorem loadTags_issued_fence (m : Mem) (s : State) : loadTags (issued (.fence m) [] [] m.hd s).th = loadTags s.th := by
  rw [issued, atWord_fence]
  exact loadTags_countWindows ..

/-- A FENCE that issues where the throttle lets it (R117, R230). -/
theorem exec_fence_now {m : Mem} {s : State} (h : issuesNow (.fence m) [] m.hd s = true) (hthrottle : throttleAllows s = true) :
    exec (.fence m) s =
      let t := issued (.fence m) [] [] m.hd s
      let w := Wait.fence (fenceTags s.th m) (if acquires m.order then some m.scope else none)
      if partaking (.fence m) m.hd s = 0 then .next (onward t)
      else match fenceDone t w with
        | some u => .next (onward u)
        | none => .next (onward (t.setTh (openWait m.hd w t.th))) := by
  refine (exec_fence m s).trans ((issue_now h _).trans ((if_neg (by rw [hthrottle]; decide)).trans ?_))
  rfl

/-! ### The statement -/

/-- Settles O33. -/
theorem lineAndFenceWordsComplete : Obligations.LineAndFenceWordsComplete := by
  refine ⟨?pref, ?fence, fun m s h => (exec_cflush m s).trans (memWord_now h _), ?waddr⟩
  case pref =>
    intro m s hissue hthrottle
    exact (exec_pref m s).trans ((issue_now hissue _).trans (if_neg (by rw [hthrottle]; decide)))
  case fence =>
    intro m s hissue hthrottle t acq
    rw [exec_fence_now hissue hthrottle]
    refine ⟨fun hact => if_pos hact, fun hact htags => ?_, fun hact htags => ?_⟩
    · refine (if_neg hact).trans ?_
      rw [htags, fenceDone_nil]
      cases acquires m.order <;> rfl
    · refine (if_neg hact).trans ?_
      rw [fenceDone_fenceTags htags (by rw [issued_shape]) (loadTags_issued_fence m s)]
  case waddr =>
    intro m s h
    refine (exec_waddr m s).trans ((memWord_now h _).trans ?_)
    dsimp only
    split <;> rfl

end Sys2Proof.Machine
end

section
/-!
PROOF. The words of group 7 that neither call nor trap (R104 to R106, R108, R109): where the lanes of a branch go, the targets of BRX; then
the statement about them.
-/

namespace Sys2Proof.Machine

/-! ### Where the lanes of a branch go -/

theorem mem_putBy {κ α : Type} [DecidableEq κ] (k : κ) (x : α) (l : List (κ × α)) : (k, x) ∈ putBy k x l := by
  induction l with
  | nil => exact List.mem_singleton_self _
  | cons e r ih =>
    simp only [putBy]
    split
    · next h => exact h ▸ List.mem_cons_self
    · exact List.mem_cons_of_mem _ ih

/-- Putting an entry replaces the one that the key finds and leaves every other. -/
theorem mem_putBy_of_mem {κ α : Type} [DecidableEq κ] {k : κ} {x y : α} {l : List (κ × α)} {e : κ × α} (hk : lookupBy k l = some y)
    (he : e ∈ l) : e ∈ putBy k x l ∨ e = (k, y) := by
  induction l with
  | nil => exact absurd he List.not_mem_nil
  | cons d r ih =>
    simp only [lookupBy] at hk
    simp only [putBy]
    split at hk
    · next h =>
      rw [if_pos h]
      obtain rfl | he := List.mem_cons.mp he
      · exact .inr (Prod.ext h (Option.some.inj hk))
      · exact .inl (List.mem_cons_of_mem _ he)
    · next h =>
      rw [if_neg h]
      obtain rfl | he := List.mem_cons.mp he
      · exact .inl List.mem_cons_self
      · exact (ih hk he).imp (List.mem_cons_of_mem _) id

/-- A lane joins the part that goes to its program counter (R100). -/
def joinPart (pc : Nat → DWord) (ps : List (DWord × LaneMask)) (l : Nat) : List (DWord × LaneMask) :=
  match lookupBy (pc l) ps with
  | some m => putBy (pc l) (m ||| laneBit l) ps
  | none => ps ++ [(pc l, laneBit l)]

theorem partsBy_eq_foldl (lanes : List Nat) (pc : Nat → DWord) : partsBy lanes pc = lanes.foldl (joinPart pc) [] := rfl

/-- Some part that goes to `p` holds lane `l`. -/
def Holds (ps : List (DWord × LaneMask)) (p : DWord) (l : Nat) : Prop := ∃ m, (p, m) ∈ ps ∧ m.getLsbD l = true

section
variable {pc : Nat → DWord} {ps : List (DWord × LaneMask)} {p : DWord} {l : Nat}

theorem holds_joinPart_self (hl : l < 32) : Holds (joinPart pc ps l) (pc l) l := by
  have hbit : (laneBit l).getLsbD l = true := by simp [getLsbD_laneBit, hl]
  unfold joinPart
  split
  · next m _ => exact ⟨m ||| laneBit l, mem_putBy .., by simp [hbit]⟩
  · exact ⟨laneBit l, by simp, hbit⟩

theorem holds_joinPart_of_holds {j : Nat} (h : Holds ps p l) : Holds (joinPart pc ps j) p l := by
  obtain ⟨m, hm, hl⟩ := h
  unfold joinPart
  split
  · next n hn =>
    obtain hstays | hreplaced := mem_putBy_of_mem (x := n ||| laneBit j) hn hm
    · exact ⟨m, hstays, hl⟩
    · obtain ⟨rfl, rfl⟩ := Prod.mk.inj hreplaced
      exact ⟨_, mem_putBy .., by simp [hl]⟩
  · exact ⟨m, List.mem_append_left _ hm, hl⟩

theorem holds_foldl_joinPart {lanes : List Nat} (h : Holds ps p l) : Holds (lanes.foldl (joinPart pc) ps) p l := by
  induction lanes generalizing ps with
  | nil => exact h
  | cons j r ih => exact ih (holds_joinPart_of_holds h)

/-- Every lane is in a part that goes to its program counter (R100). -/
theorem holds_partsBy {lanes : List Nat} (hmem : l ∈ lanes) (hl : l < 32) : Holds (partsBy lanes pc) (pc l) l := by
  rw [partsBy_eq_foldl]
  generalize ([] : List (DWord × LaneMask)) = ps
  induction lanes generalizing ps with
  | nil => exact absurd hmem List.not_mem_nil
  | cons j r ih =>
    rw [List.foldl_cons]
    obtain rfl | hmem := List.mem_cons.mp hmem
    · exact holds_foldl_joinPart (holds_joinPart_self hl)
    · exact ih hmem _

end

/-- A branch puts every lane of the sub-group into a sub-group at its program counter (R100). -/
theorem exists_mem_branchTo (th : Thread) (pc : Nat → DWord) (l : Nat) (hl : th.grp.mask.getLsbD l = true) :
    ∃ g ∈ (branchTo th pc).grp :: (branchTo th pc).rest, g.mask.getLsbD l = true ∧ g.pc = pc l := by
  obtain ⟨m, hm, hlm⟩ := holds_partsBy (pc := pc) (mem_lanesOf.mpr hl) (BitVec.lt_of_getLsbD hl)
  unfold branchTo
  split
  · next h => exact absurd (h ▸ hm) List.not_mem_nil
  · next p m' ps h =>
    rw [h] at hm
    obtain heq | hrest := List.mem_cons.mp hm
    · obtain ⟨rfl, rfl⟩ := Prod.mk.inj heq
      exact ⟨_, List.mem_cons_self, hlm, rfl⟩
    · exact ⟨_, List.mem_cons_of_mem _ (List.mem_append_right _ (List.mem_map.mpr ⟨_, hrest, rfl⟩)), hlm, rfl⟩

/-! ### BRX -/

/-- A lane's operands among those of the lanes of a mask. -/
theorem find?_lanesOf_map {f : Nat → LogLane} (hf : ∀ l, (f l).lane = l) (act : LaneMask) (l : Nat) :
    ((lanesOf act).map f).find? (fun x => x.lane == l) = if act.getLsbD l then some (f l) else none := by
  have key (ls : List Nat) : (ls.map f).find? (fun x => x.lane == l) = if l ∈ ls then some (f l) else none := by
    induction ls with
    | nil => rfl
    | cons j r ih =>
      by_cases hj : j = l
      · simp [hf, hj]
      · simp [hf, hj, Ne.symm hj, ih]
  simp only [key, mem_lanesOf]

/-- No target is marked or misaligned, so that none faults (R106, R126). -/
theorem targetFault_eq_none {ls : List LogLane} (h : ∀ x ∈ ls, x.addrMark = false ∧ x.a.toNat % 8 = 0) : targetFault ls = none := by
  have hmark : ls.find? (fun x => x.addrMark) = none := List.find?_eq_none.mpr fun x hx => by simp [(h x hx).1]
  have halign : ls.find? (fun x => x.a.toNat % 8 != 0) = none := List.find?_eq_none.mpr fun x hx => by simp [(h x hx).2]
  simp only [targetFault, hmark, halign, Option.map_none]

/-- The targets of a BRX, lane by lane: read now, or those of the operand log (R106, R128). -/
def targetLanes (hd : Hdr) (a : Operand) (s : State) : List LogLane :=
  (s.th.grp.replay.map LogWord.lanes).getD
    ((lanesOf (partaking (.brx hd a) hd s)).map (targetLane a (fun _ => 0) (issued (.brx hd a) (Instr.brx hd a).uses [] hd s)))

section
variable {hd : Hdr} {a : Operand} {s : State}

/-- BRX sends the lanes that take part to their targets (R106). -/
theorem exec_brx_now (h : issuesNow (.brx hd a) (Instr.brx hd a).uses hd s = true) (hfault : targetFault (targetLanes hd a s) = none) :
    exec (.brx hd a) s =
      let t := issued (.brx hd a) (Instr.brx hd a).uses [] hd s
      .next (t.setTh (branchTo t.th fun l =>
        (((targetLanes hd a s).find? fun x => x.lane == l).map LogLane.a).getD (t.th.grp.pc + 8))) := by
  refine (exec_brx hd a s).trans ((issue_now h _).trans ?_)
  unfold targetLanes at hfault ⊢
  cases hreplay : s.th.grp.replay <;>
  · simp only [hreplay, Option.map_none, Option.map_some, Option.getD_none, Option.getD_some] at hfault ⊢
    rw [hfault]
    refine congrArg (fun pc => Host.Outcome.next (State.setTh _ (branchTo _ pc))) (funext fun l => ?_)
    cases List.find? (fun x : LogLane => x.lane == l) _ <;> rfl

end

/-! ### EXIT -/

/-- EXIT ends the lanes that take part (R109). -/
theorem exec_exit_now {hd : Hdr} {s : State} (h : issuesNow (.exit hd) [] hd s = true) :
    let th := endLanes (onward (issued (.exit hd) [] [] hd s)).th (partaking (.exit hd) hd s)
    (th.live ≠ 0 → exec (.exit hd) s = .next (s.setTh th)) ∧
    (∀ c w n, th.live = 0 → th.agent = .troupe c w n →
      exec (.exit hd) s = .next { s with th := th, inputs := s.inputs ++ [.troupeEnd c w n] }) ∧
    (th.live = 0 → th.agent.isTroupe = false → exec (.exit hd) s = .next (s.setTh { th with status := .ended })) := by
  intro th
  have hexec := (exec_exit hd s).trans (issue_now h _)
  have hth : endLanes (advance (issued (.exit hd) [] [] hd s).th) (partaking (.exit hd) hd s) = th := rfl
  simp only [hth, issued_inputs] at hexec
  rw [hexec]
  clear_value th
  refine ⟨fun hlive => ?_, fun c w n hlive hagent => ?_, fun hlive htroupe => ?_⟩
  · simp only [if_neg hlive, decide_eq_false hlive, Bool.false_and, Bool.false_eq_true, if_false, List.append_nil]
    rfl
  · simp only [hlive, hagent, Agent.isTroupe, decide_true, Bool.not_true, Bool.and_false, Bool.false_eq_true, if_true, if_false]
    rfl
  · cases hagent : th.agent with
    | troupe c w n => exact absurd (hagent ▸ htroupe) nofun
    | _ =>
      simp only [hlive, Agent.isTroupe, decide_true, Bool.not_false, Bool.and_true, if_true, List.append_nil]
      rfl

/-! ### RCW -/

/-- An RCW passes its slot where nothing is expected or its address is not the target (R108). -/
theorem passesSlot_iff (expect : LaneMask) (pc target : DWord) :
    (decide (expect = 0) || pc != target) = true ↔ expect = 0 ∨ pc ≠ target := by
  rw [Bool.or_eq_true, decide_eq_true_iff, bne_iff_ne]

/-! ### The statement -/

/-- Settles O25. -/
theorem controlWordsComplete : Obligations.ControlWordsComplete := by
  refine ⟨fun hd s h => (exec_nop hd s).trans (issue_now h _), fun hd imm s h => (exec_bra hd imm s).trans (issue_now h _), ?brx,
    exists_mem_branchTo, ?yield, fun hd s h => exec_exit_now h, ?rcb, ?rcw⟩
  case brx =>
    intro hd a s i t h
    refine ⟨fun hreplay htargets => ?_, fun w hreplay hfault => ?_⟩
    · have hlanes : targetLanes hd a s = (lanesOf (partaking i hd s)).map (targetLane a (fun _ => 0) t) := by
        rw [targetLanes, hreplay]
        rfl
      have hfault : targetFault (targetLanes hd a s) = none := by
        rw [hlanes]
        refine targetFault_eq_none fun x hx => ?_
        obtain ⟨l, hl, rfl⟩ := List.mem_map.mp hx
        exact htargets l hl
      refine (exec_brx_now h hfault).trans (congrArg (fun pc => Host.Outcome.next (t.setTh (branchTo t.th pc))) (funext fun l => ?_))
      rw [hlanes, find?_lanesOf_map fun _ => rfl]
      split <;> rfl
    · have hlanes : targetLanes hd a s = w.lanes := by
        rw [targetLanes, hreplay]
        rfl
      rw [← hlanes] at hfault ⊢
      exact exec_brx_now h hfault
  case yield =>
    intro hd s h
    refine (exec_yield hd s).trans ((issue_now h _).trans ?_)
    dsimp only
    split <;> rfl
  case rcb =>
    intro hd slot imm s h
    refine (exec_rcb hd slot imm s).trans ((issue_now h _).trans ?_)
    dsimp only
    split <;> rfl
  case rcw =>
    intro hd slot s t act r arrive run th low h
    have hexec := (exec_rcw hd slot s).trans (issue_now h _)
    refine ⟨fun hpass => hexec.trans (if_pos ((passesSlot_iff ..).mpr hpass)), fun hexpect hpc => ?_⟩
    have hstop := mt (passesSlot_iff r.expect t.th.grp.pc r.target).mp (not_or.mpr ⟨hexpect, not_not.mpr hpc⟩)
    refine ⟨fun harrive => ?_, fun harrive hrun => ?_, fun harrive hrun => ?_⟩ <;>
    refine hexec.trans ((if_neg hstop).trans (congrArg (fun x => Host.Outcome.next (t.setTh (slotCheck x slot.toNat))) ?_))
    · exact if_pos harrive
    · exact (if_neg harrive).trans (if_pos hrun)
    · exact (if_neg harrive).trans (if_neg hrun)

end Sys2Proof.Machine
end

section
/-!
PROOF. The returns from a handler (R127, R433): what a TRET does where the handler state goes on and where it ends, for a sub-group that is
alone in its agent; then the statement about them. BRK and the debug agent (R110): the statement about them fails.
-/

namespace Sys2Proof.Machine

section
variable {i : Instr} {uses : List (Role × Operand)} {preds : List (BitVec 3)} {hd : Hdr} {s : State}

@[simp] theorem issued_th_rest : (issued i uses preds hd s).th.rest = s.th.rest := by rw [issued_shape]
@[simp] theorem issued_th_live : (issued i uses preds hd s).th.live = s.th.live := by rw [issued_shape]
@[simp] theorem issued_th_log : (issued i uses preds hd s).th.log = s.th.log := by rw [issued_shape]
@[simp] theorem issued_th_trappc : (issued i uses preds hd s).th.trappc = s.th.trappc := by rw [issued_shape]

end

/-! ### Waiting at a TRET -/

/-- The sub-group waits at a TRET of a kind (R433). -/
def atReturn (th : Thread) (h : Handler) (skip : Bool) : Thread :=
  { th with handler := some { h with kind := some skip }, grp := { th.grp with st := .tret skip } }

/-- A TRET of a sub-group in the handler, where no TRET of the other kind waits, waits and looks whether the handler state ends (R433). -/
theorem leaveHandler_now {i : Instr} {hd : Hdr} {s : State} {h : Handler} {skip : Bool} (hissue : issuesNow i [] hd s = true)
    (hhandler : s.th.handler = some h) (hinside : s.th.grp.mask &&& h.set ≠ 0#32) (hkind : h.kind = none ∨ h.kind = some skip) :
    leaveHandler i hd skip s =
      let t := issued i [] [] hd s
      .next (t.setTh (tidy (handlerCheck (atReturn t.th h skip)))) := by
  have hmay : (outsideHandler (issued i [] [] hd s).th || (h.kind != none && h.kind != some skip)) = false := by
    simp only [outsideHandler, issued_th_handler, hhandler, issued_th_grp]
    obtain hk | hk := hkind <;> simp [hk, hinside]
  refine (issue_now hissue _).trans ?_
  simp only [issued_th_handler, hhandler, hmay, Bool.false_eq_true, if_false]
  rfl

/-- A sub-group that is alone in its agent and waits forms the gathered sub-group. -/
theorem gather_alone {th : Thread} {waits : Sub → Bool} (hrest : th.rest = []) (hwaits : waits th.grp = true) (hmask : th.grp.mask ≠ 0#32)
    (pc : DWord) (replay : Option LogWord) (fixed : Bool) :
    gather th waits pc replay fixed =
      { th with grp := ⟨th.grp.mask, pc, th.grp.bcast || !(th.grp.bcast && th.grp.mask != 0), .run, replay, none, fixed⟩, rest := [] } := by
  simp [gather, hrest, hwaits, hmask]

theorem tidy_alone {th : Thread} (hrest : th.rest = []) (hmask : th.grp.mask ≠ 0#32) : tidy th = th := by
  have hsame : { th with rest := [] } = th := by rw [← hrest]
  simp only [tidy, hrest, List.filter_nil]
  exact (if_neg hmask).trans hsame

section
variable {th : Thread} {h : Handler} {skip : Bool}

/-- While a lane of the handler set has still to execute its TRET, the handler state goes on (R433). -/
theorem handlerCheck_atReturn_of_missing (hrest : th.rest = []) (hmissing : h.set &&& th.live &&& ~~~th.grp.mask ≠ 0#32) :
    handlerCheck (atReturn th h skip) = atReturn th h skip := by
  simp [handlerCheck, atReturn, Sub.atTret, hrest, hmissing]

/-- Where and with what replay a handler state ends (R127, R433): at the trap's word with the logged word, or under `.skip` behind it. -/
def returnPoint (th : Thread) (skip : Bool) : DWord × Option LogWord :=
  if skip then (((th.log.head?).map LogWord.next).getD (th.trappc + 8), none) else (th.trappc, th.log.head?)

/-- With the last lane of the handler set the handler state ends, and the sub-group resumes (R433). -/
theorem handlerCheck_atReturn_of_whole (hrest : th.rest = []) (hwhole : h.set &&& th.live = th.grp.mask) :
    handlerCheck (atReturn th h skip) =
      gather { atReturn th h skip with handler := none, log := [] } Sub.atTret (returnPoint th skip).1 (returnPoint th skip).2 false := by
  cases skip <;> simp [handlerCheck, atReturn, Sub.atTret, hrest, hwhole, returnPoint]

end

/-- The last TRET of a handler set resumes the sub-group (R433). -/
theorem leaveHandler_whole {i : Instr} {hd : Hdr} {s : State} {h : Handler} {skip : Bool} (hissue : issuesNow i [] hd s = true)
    (hhandler : s.th.handler = some h) (hmask : s.th.grp.mask ≠ 0#32) (hrest : s.th.rest = []) (hinside : s.th.grp.mask &&& h.set = s.th.grp.mask)
    (hwhole : h.set &&& s.th.live = s.th.grp.mask) (hkind : h.kind = none ∨ h.kind = some skip) :
    ∃ t, leaveHandler i hd skip s = .next t ∧ t.th.grp.pc = (returnPoint s.th skip).1 ∧ t.th.grp.mask = s.th.grp.mask ∧
      t.th.grp.st = .run ∧ t.th.grp.replay = (returnPoint s.th skip).2 ∧ t.th.handler = none ∧ t.th.log = [] ∧ t.mem = s.mem := by
  have hpoint : returnPoint (issued i [] [] hd s).th skip = returnPoint s.th skip := by
    simp only [returnPoint, issued_th_log, issued_th_trappc]
  refine ⟨_, leaveHandler_now hissue hhandler (by rwa [hinside]) hkind, ?_⟩
  rw [handlerCheck_atReturn_of_whole (by simpa) (by simpa), gather_alone (by simpa [atReturn]) rfl (by simpa [atReturn]),
    tidy_alone rfl (by simpa [atReturn]), hpoint]
  simp [atReturn]

/-- A TRET that is not the last of its handler set waits (R433). -/
theorem leaveHandler_waits {i : Instr} {hd : Hdr} {s : State} {h : Handler} {skip : Bool} (hissue : issuesNow i [] hd s = true)
    (hhandler : s.th.handler = some h) (hmask : s.th.grp.mask ≠ 0#32) (hrest : s.th.rest = []) (hinside : s.th.grp.mask &&& h.set = s.th.grp.mask)
    (hmissing : h.set &&& s.th.live &&& ~~~s.th.grp.mask ≠ 0#32) (hkind : h.kind = none ∨ h.kind = some skip) :
    ∃ t, leaveHandler i hd skip s = .next t ∧ t.th.grp.st = .tret skip ∧ t.th.grp.pc = s.th.grp.pc ∧ t.th.grp.mask = s.th.grp.mask ∧
      t.th.handler = some { h with kind := some skip } ∧ t.mem = s.mem := by
  refine ⟨_, leaveHandler_now hissue hhandler (by rwa [hinside]) hkind, ?_⟩
  rw [handlerCheck_atReturn_of_missing (by simpa) (by simpa), tidy_alone (by simpa [atReturn]) (by simpa [atReturn])]
  simp [atReturn]

/-- Outside a handler a TRET is reserved with reason CODE (R64, R433). -/
theorem leaveHandler_outside {i : Instr} {hd : Hdr} {s : State} {skip : Bool} (hissue : issuesNow i [] hd s = true)
    (hnone : s.th.handler = none) (hhdl : s.th.hdl ≠ 0) (htroupe : s.th.agent.isTroupe = true) :
    ∃ t, leaveHandler i hd skip s = .next t ∧ t.th.grp.pc = s.th.hdl ∧ t.th.trappc = s.th.grp.pc ∧
      t.th.trapop = (fullTrapRegs ((encode i).getD 0) 2).op := by
  have hexec : leaveHandler i hd skip s = .next (takeTrap (issued i [] [] hd s) .reserved (lowLane (issued i [] [] hd s).th.grp.mask) false
      (fullTrapRegs ((encode i).getD 0) 2) []) := by
    refine (issue_now hissue _).trans ?_
    simp only [issued_th_handler, hnone, trapWord, if_true]
  obtain ⟨hpc, -, -, htrappc, -, hop, -, -⟩ := takeTrap_enters (s := issued i [] [] hd s) (by simpa) (by simpa) (by simpa) .reserved
    (lowLane (issued i [] [] hd s).th.grp.mask) false (fullTrapRegs ((encode i).getD 0) 2) []
  exact ⟨_, hexec, hpc.trans issued_th_hdl, htrappc.trans (congrArg Sub.pc issued_th_grp), hop⟩

/-! ### The statement -/

/-- Both kinds of TRET have one opcode, with which a reserved one traps (R62, R66). -/
theorem fullTrapRegs_tret (hd : Hdr) :
    (fullTrapRegs ((encode (.tret hd)).getD 0) 2).op = 460 + 2 * 4096 ∧ (fullTrapRegs ((encode (.tretSkip hd)).getD 0) 2).op = 460 + 2 * 4096 :=
  ⟨fullTrapRegs_op 460 hd 0 0 0 _ 2, fullTrapRegs_op 460 hd 0 0 0 _ 2⟩

/-- Settles O29. -/
theorem tretResumes : Obligations.TretResumes := by
  refine ⟨?again, ?skip, ?waits, ?outside⟩
  case again =>
    rintro hd s h hissue ⟨hhandler, hmask, hrest, hinside, hwhole, -⟩ hkind
    exact leaveHandler_whole (skip := false) hissue hhandler hmask hrest hinside hwhole hkind
  case skip =>
    rintro hd s h hissue ⟨hhandler, hmask, hrest, hinside, hwhole, -⟩ hkind
    exact leaveHandler_whole (skip := true) hissue hhandler hmask hrest hinside hwhole hkind
  case waits =>
    exact fun hd => ⟨fun s h hissue hhandler hkind hmask hrest hinside hmissing =>
        leaveHandler_waits hissue hhandler hmask hrest hinside hmissing hkind,
      fun s h hissue hhandler hkind hmask hrest hinside hmissing =>
        leaveHandler_waits hissue hhandler hmask hrest hinside hmissing hkind⟩
  case outside =>
    rintro i hd s (rfl | rfl) hissue hnone hhdl htroupe
    · obtain ⟨t, hexec, hpc, htrappc, hop⟩ := leaveHandler_outside (skip := false) hissue hnone hhdl htroupe
      exact ⟨t, hexec, hpc, htrappc, hop.trans (fullTrapRegs_tret hd).1⟩
    · obtain ⟨t, hexec, hpc, htrappc, hop⟩ := leaveHandler_outside (skip := true) hissue hnone hhdl htroupe
      exact ⟨t, hexec, hpc, htrappc, hop.trans (fullTrapRegs_tret hd).2⟩

/-! ### The debug agent -/

/-- A state whose current agent is a troupe numbered 34, stopped at a BRK with a debug agent attached, and that has no other agent. -/
def stoppedTroupe34 : State :=
  { State.reset with
    th := { Thread.fresh (.troupe 0 0 34) .running 1 with grp := ⟨1, 0, true, .brk 0 0, none, none, false⟩ }
    threads := [], debug := true, trust := { State.reset.trust with lc := 2 } }

/-- The reference of lane 0 of that troupe names the control core of cluster 0, so that the debug agent changes nothing. -/
theorem exec_debugAgentResume_stoppedTroupe34 : exec (.debugAgentResume ⟨0, 0, 34, 0⟩ true) stoppedTroupe34 = .next stoppedTroupe34 := by
  have hfocus : focus stoppedTroupe34 (refAgent ⟨0, 0, 34, 0⟩) = none := rfl
  rw [exec_debugAgentResume, execDebugAgentResume, asAgent, hfocus]

/-- Refutes O30: the numbers 34 and 35 in place of a troupe name a control core and a firmware core too (log entry 27), and the last clause
excepts 32 and 33 alone. -/
theorem not_breakAndResume : ¬ Obligations.BreakAndResume := by
  rintro ⟨-, -, hresume⟩
  obtain ⟨hgoes, -⟩ := hresume stoppedTroupe34 0 0 0 34 0 0 rfl (by decide) (by decide) rfl rfl rfl rfl
  have hsame := Host.Outcome.next.inj (exec_debugAgentResume_stoppedTroupe34.symm.trans hgoes)
  have hst : SubState.brk 0 0 = .run := congrArg (fun s => s.th.grp.st) hsame
  exact absurd hst nofun

end Sys2Proof.Machine
end

section
/-!
PROOF. Timers, throttle, network, homes and banks (R124, R219, R220, R230, R249, R267, R268, R430): each device step answers the state that
its rule names; then the statement about them.
-/

namespace Sys2Proof.Machine

/-! ### Requests at their home -/

section
variable {q : HomeReq} {s : State}

/-- A request is performed where its address is homed here and lies in no origin directory (R249, R344). -/
theorem exec_memoryRequestAtHome_here (hhere : homedHere s q.addr = true) (hdirectory : inDirectory q.addr = false) :
    exec (.memoryRequestAtHome q) s =
      let key := tget 0 s.lineKey (q.addr / 128)
      if q.kind = .atomic then .next (homeWriteBy s q.addr key
        (toBytes q.width (atomNew q.op q.width (memNat s key q.addr q.width) (ofBytes q.data) q.cmp))
        (anyMark s.memMark q.addr q.width) q.pkg q.die (homeDie s q.addr))
      else if accessWrites q.kind then .next (homeWriteBy s q.addr key q.data false q.pkg q.die (homeDie s q.addr))
      else .next (noteRequest s q.addr q.pkg q.die) := by
  have hmay : ¬ (!homedHere s q.addr || inDirectory q.addr) = true := by simp [hhere, hdirectory]
  exact (exec_memoryRequestAtHome q s).trans (if_neg hmay)

end

/-! ### The routing of a die -/

section
variable {die : Nat} {s : State}

/-- A window whose counts call for two-phase routing, where the die may change to it, asks for the switch (R267). -/
theorem exec_nocWindowEnd_calls {counts : List (List Nat)} (hallow : bitsN (s.noc die).cfg.toNat 21 21 = 0)
    (htwo : (s.noc die).twoPhase = false)
    (hcall : bitsN (s.noc die).cfg.toNat 20 20 = 1 ∨ counts.any (loadAbove (bitsN (s.noc die).cfg.toNat 7 0)) = true) :
    exec (.nocWindowEnd die counts) s =
      let t := s.setNoc die { s.noc die with imb := windowImb counts, below := 0, pending := some true }
      .next { t with inputs := t.inputs ++ [.routingModeSwitch die] } := by
  rw [exec_nocWindowEnd, execNocWindowEnd]
  obtain hforce | habove := hcall
  · simp only [hallow, htwo, hforce, Nat.zero_ne_one, Bool.false_and, Bool.false_eq_true, Bool.true_eq_false, if_true, if_false]
  · simp only [hallow, htwo, habove, Nat.zero_ne_one, Bool.false_and, Bool.false_eq_true, Bool.true_eq_false, if_false, ite_self]

/-- A pending change of the routing mode takes effect and draws a new seed (R267). -/
theorem exec_routingModeSwitch_pending {m : Bool} (hpending : (s.noc die).pending = some m) :
    exec (.routingModeSwitch die) s = .next (State.setNoc { s with free := s.free + 1 } die { s.noc die with
      twoPhase := m, pending := none, below := 0, switches := min ((s.noc die).switches + 1) (2 ^ 23 - 1),
      seed := (Config.random s.free).toNat }) := by
  rw [exec_routingModeSwitch, execRoutingModeSwitch, hpending]
  rfl

end

/-! ### The statement -/

/-- Settles O59. MEMORY_REQUEST_AT_HOME works under the key index of its line by log entry 15. -/
theorem coreDeviceSteps : Obligations.CoreDeviceSteps := by
  refine ⟨exec_tcmpWrite, ?timer, ?wake, ?epoch, ?window, ?switch, ?home, ?bank⟩
  case timer =>
    intro core s hdue htimer
    rw [exec_tcmpTimerEvent, execTcmpTimerEvent]
    exact if_pos (by rw [hdue, htimer]; rfl)
  case wake =>
    intro core e s h
    rw [exec_coreEventWake, execCoreEventWake]
    refine if_neg ?_
    rintro ⟨rfl, htimer⟩
    obtain hne | hset := h
    · exact hne rfl
    · rw [hset] at htimer
      exact absurd htimer (by decide)
  case epoch =>
    intro core s x score here
    refine ⟨_, exec_throttleEpochEnd core s, rfl, rfl, ?_, ?_, ?_⟩ <;>
    · rw [State.core_setCore]
  case window =>
    intro die counts s hallow htwo hcall
    exact ⟨_, exec_nocWindowEnd_calls hallow htwo hcall, rfl, congrArg Noc.pending (State.noc_setNoc ..),
      congrArg Noc.imb (State.noc_setNoc ..)⟩
  case switch =>
    intro die s m hpending
    exact ⟨_, exec_routingModeSwitch_pending hpending, by simp⟩
  case home =>
    intro q s hhere hdirectory key
    rw [exec_memoryRequestAtHome_here hhere hdirectory]
    refine ⟨fun hkind => if_pos hkind, fun hkind => ?_, fun hkind => ?_⟩
    · simp only [hkind, accessWrites, reduceCtorEq, if_true, if_false]
      rfl
    · simp only [hkind, accessWrites, reduceCtorEq, if_false, Bool.false_eq_true]
  case bank =>
    intro core bank s p u r hfirst hrow hload v
    rw [exec_bankGrant, execBankGrant, hfirst]
    dsimp only
    rw [hload, hrow]

end Sys2Proof.Machine
end

section
/-!
PROOF. What serving an access leaves alone (R113, R255, R256, R428): reads, requests of other packages and of cohort members, and what caches
take change the caches, the counts of requests, the fabric, the Carousels and the steps that are due, and nothing that a word of the program
can read by name.
-/

namespace Sys2Proof.Machine

/-! ### Serving -/

/-- A workgroup with what its L1 holds and awaits taken from another. -/
def Workgroup.cached (g h : Workgroup) : Workgroup := { g with l1 := h.l1, l1Due := h.l1Due, l1Own := h.l1Own }

/-- A state with what serving an access can change taken from another: caches, counts of requests, the fabric, the Carousels, the steps that
are due, and the counter of free values. -/
def State.served (s t : State) : State :=
  { s with dies := t.dies, fabric := t.fabric, trans := t.trans, carousels := t.carousels, cores := t.cores, inputs := t.inputs,
           free := t.free, wg := s.wg.cached t.wg }

/-- Serving accesses leads from `s` to `t`. -/
structure Serves (s t : State) : Prop where
  eq_served : t = s.served t

theorem Serves.refl (s : State) : Serves s s := ⟨rfl⟩

theorem Serves.trans {s t u : State} (h : Serves s t) (h' : Serves t u) : Serves s u :=
  ⟨h'.eq_served.trans (congrArg (fun x => x.served u) h.eq_served)⟩

theorem Serves.th_eq {s t : State} (h : Serves s t) : t.th = s.th :=
  (congrArg State.th h.eq_served).trans rfl

/-- Steps that each serve serve together; `R` is the state that they have reached. -/
theorem Serves.foldl {α β : Type} {R : β → State} {f : β → α → β} (hf : ∀ b x, Serves (R b) (R (f b x))) (l : List α) (b : β) :
    Serves (R b) (R (l.foldl f b)) := by
  induction l generalizing b with
  | nil => exact .refl _
  | cons x r ih => exact (hf b x).trans (ih _)

theorem serves_setWg {s : State} {g : Workgroup} (h : g = s.wg.cached g) : Serves s { s with wg := g } :=
  ⟨congrArg (fun g => { s with wg := g }) h⟩

theorem setFab_serves (s : State) (f : Fabric) : Serves s (s.setFab f) := ⟨rfl⟩
theorem setDie_serves (s : State) (d : Nat) (v : DieView) : Serves s (s.setDie d v) := ⟨rfl⟩
theorem setCore_serves (s : State) (c : Nat) (x : CoreSt) : Serves s (s.setCore c x) := ⟨rfl⟩
theorem setRing_serves (s : State) (c : Nat) (r : Carousel) : Serves s (s.setRing c r) := ⟨rfl⟩
theorem setInputs_serves (s : State) (l : List Instr) : Serves s { s with inputs := l } := ⟨rfl⟩
theorem setFree_serves (s : State) (n : Nat) : Serves s { s with free := n } := ⟨rfl⟩
theorem setTrans_serves (s : State) (x : Trans) : Serves s { s with trans := x } := ⟨rfl⟩

/-! ### Dies and the counts of requests -/

theorem drainDie_serves (s : State) (d : Nat) : Serves s (drainDie s d) := setDie_serves ..

theorem noteRequest_serves (s : State) (pa pkg die : Nat) : Serves s (noteRequest s pa pkg die) := setTrans_serves ..

theorem noteAsker_serves (s : State) (pa core : Nat) : Serves s (noteAsker s pa core) := setTrans_serves ..

theorem rdcDrop_serves (s : State) (d pa : Nat) : Serves s (rdcDrop s d pa) := (setFab_serves ..).trans (setDie_serves ..)

theorem rdcInsert_serves (s : State) (d : Nat) (c : CacheLine) : Serves s (rdcInsert s d c) := by
  unfold rdcInsert
  dsimp only
  split
  · exact setDie_serves ..
  · exact (setDie_serves ..).trans (setFree_serves ..)

theorem dieReadAt_serves (s : State) (d pa key n : Nat) : Serves s (dieReadAt s d pa key n).2 := by
  unfold dieReadAt
  dsimp only
  split
  · exact noteRequest_serves ..
  · split
    · exact .refl s
    · split
      · exact (drainDie_serves ..).trans ((rdcInsert_serves ..).trans (noteRequest_serves ..))
      · exact .refl s

theorem dieRead_serves (s : State) (pa key n : Nat) : Serves s (dieRead s pa key n).2 := by
  unfold dieRead
  dsimp only
  split
  · exact dieReadAt_serves ..
  · exact (dieReadAt_serves ..).trans (noteAsker_serves ..)

theorem countOnce_serves (lines : List Nat) (pa : Nat) (s0 s : State) : Serves s (countOnce lines pa s0 s) := by
  unfold countOnce
  split
  · exact setTrans_serves ..
  · exact .refl s

/-! ### L1 and the throttle -/

theorem l1Insert_cached (g : Workgroup) (c : CacheLine) : (l1Insert g c).1 = g.cached (l1Insert g c).1 := by
  unfold l1Insert
  dsimp only
  split
  · rfl
  · split
    · rfl
    · split <;> rfl

theorem l1Fresh_cached (g : Workgroup) (c : CacheLine) : (l1Fresh g c).1 = g.cached (l1Fresh g c).1 :=
  (l1Insert_cached (l1Forget g c.addr) c).trans rfl

theorem l1Drop_serves (s : State) (pa : Nat) : Serves s (l1Drop s pa) := serves_setWg rfl

theorem throttleMiss_serves (s : State) (line : Nat) : Serves s (throttleMiss s line) := by
  unfold throttleMiss
  split
  · exact .refl s
  · dsimp only
    split
    · exact setCore_serves ..
    · exact .refl s

theorem throttleEvict_serves (s : State) (core : Nat) (v : Option CacheLine) : Serves s (throttleEvict s core v) := by
  cases v
  · exact .refl s
  · exact setCore_serves ..

/-- A load is served (R255). -/
theorem serveLoad_serves (s : State) (lane : Nat) (order : Order) (scope : Scope) (hint : Hint) (pa key n : Nat) :
    Serves s (serveLoad s lane order scope hint pa key n).2 := by
  unfold serveLoad
  dsimp only
  split
  · have hdrop := (drainDie_serves s s.th.ident.die).trans ((l1Drop_serves _ pa).trans (rdcDrop_serves _ s.th.ident.die pa))
    split
    · exact hdrop.trans ((noteRequest_serves ..).trans (noteAsker_serves ..))
    · exact hdrop
  · split
    · split
      · exact serves_setWg (l1Insert_cached ..)
      · have hread := (throttleMiss_serves s (pa / 128 * 128)).trans (dieRead_serves _ (pa / 128 * 128) key 128)
        split
        · next heq => exact heq ▸ hread
        · next heq =>
          rw [heq] at hread
          exact hread.trans ((serves_setWg (l1Fresh_cached ..)).trans (throttleEvict_serves ..))
    · exact (l1Drop_serves ..).trans (dieRead_serves ..)

/-- The acquire part of an access (R259). -/
theorem acquire_serves (s : State) (scope : Scope) : Serves s (acquire s scope) := by
  have hnear : Serves s (if beyondWg scope then drainDie { s with wg := { s.wg with l1 := [], l1Due := [], l1Own := [] } } s.th.ident.die
      else s) := by
    split
    · exact (serves_setWg rfl).trans (drainDie_serves ..)
    · exact .refl s
  unfold acquire
  dsimp only
  split
  · exact hnear.trans ((setFab_serves ..).trans (setDie_serves ..))
  · exact hnear

/-! ### Requests of other packages and of cohort members -/

theorem pickPlane_serves {s t : State} {dsts : List Nat} {last : Option Nat} {flits n : Nat} (h : pickPlane s dsts last flits = some (n, t)) :
    Serves s t := by
  obtain ⟨n', -, heq⟩ := Option.map_eq_some_iff.mp h
  cases heq
  exact setFree_serves ..

theorem emitUnicast_serves (e : Sent) (dsts : List Nat) (s : State) : Serves s (emitUnicast e dsts s).2 := by
  induction dsts generalizing s with
  | nil => exact .refl s
  | cons d r ih =>
    unfold emitUnicast
    split
    · exact ih s
    · next hpick => exact (pickPlane_serves hpick).trans ((setFab_serves ..).trans (ih _))

theorem emitCopy_serves (key : Nat × Nat × Nat) (e : Sent) (s : State) : Serves s (emitCopy key e s).2 := by
  unfold emitCopy
  split
  · exact .refl s
  · split
    · split
      · exact .refl s
      · next hpick => exact (pickPlane_serves hpick).trans (setFab_serves ..)
    · exact (emitUnicast_serves ..).trans (setFab_serves ..)

theorem pumpWith_serves (key : Nat × Nat × Nat) (l : List Sent) (s : State) : Serves s (pumpWith key l s) := by
  induction l generalizing s with
  | nil => exact .refl s
  | cons e r ih =>
    unfold pumpWith
    split
    · exact ih s
    · dsimp only
      split
      · exact (emitCopy_serves key e s).trans (ih _)
      · exact emitCopy_serves key e s

theorem sendFrom_serves (s : State) (die : Nat) (p : Packet) : Serves s (sendFrom s die p) := by
  unfold sendFrom pump
  exact (setFab_serves ..).trans (pumpWith_serves ..)

theorem newTag_serves (s : State) : Serves s (newTag s).2 := setFab_serves ..

theorem requestNear_serves (near : Bool) (hint : Hint) (s : State) (pa key : Nat) : Serves s (requestNear near hint s pa key).2 := by
  have hrequest : Serves s (requestLine s pa key).2 := by
    unfold requestLine requestLineFrom
    exact (setFab_serves ..).trans ((newTag_serves _).trans (sendFrom_serves ..))
  unfold requestNear
  dsimp only
  split
  · exact hrequest.trans (serves_setWg rfl)
  · exact hrequest

theorem cohortAsk_serves (s : State) (core c w off : Nat) (op : CohortOp) : Serves s (cohortAsk s core c w off op).2 :=
  (newTag_serves s).trans ((newTag_serves _).trans ((setRing_serves ..).trans (setInputs_serves ..)))

/-! ### What a store leaves to the caches -/

theorem ownL1_serves (s : State) (pa key : Nat) (w : Option MemWrite) : Serves s (ownL1 s pa key w) := by
  unfold ownL1
  split
  · exact .refl s
  · exact serves_setWg (l1Insert_cached ..)

theorem ownViews_serves (s : State) (pa key : Nat) (data : List Byte) (mark : Bool) : Serves s (ownViews s pa key data mark) := by
  have hviews := (ownL1_serves s pa key (some (.one pa data mark))).trans (drainDie_serves _ s.th.ident.die)
  unfold ownViews
  dsimp only
  split
  · exact hviews.trans (setDie_serves ..)
  · exact hviews

theorem awayViews_serves (s : State) (pa key : Nat) : Serves s (awayViews s pa key) :=
  (ownL1_serves s pa key none).trans ((rdcDrop_serves ..).trans (serves_setWg rfl))

theorem awaitOwn_serves (s : State) (tag lane pa key : Nat) (data : List Byte) (mark : Bool) :
    Serves s (awaitOwn s tag lane pa key data mark) := by
  unfold awaitOwn
  split
  · exact serves_setWg rfl
  · exact .refl s

theorem lineWrite_serves (s : State) (line key : Nat) (w : MemWrite) : Serves s (lineWrite s line key w).2 :=
  (newTag_serves s).trans (sendFrom_serves ..)

theorem sendLines_serves (s : State) (out : List ((Nat × Nat) × MemWrite)) : Serves s (sendLines s out).2 :=
  Serves.foldl (R := fun a : List ((Nat × Nat) × Nat) × State => a.2) (fun _ _ => lineWrite_serves ..) out ([], s)

theorem awaitOwns_serves (w : Nat) (ps : List (LogLane × Place)) (tags : List ((Nat × Nat) × Nat)) (s : State) :
    Serves s (awaitOwns w ps tags s) := by
  refine Serves.foldl (R := id) (fun s x => ?_) ps s
  split
  · split
    · exact awaitOwn_serves ..
    · exact .refl s
  · exact .refl s
  · exact .refl s

end Sys2Proof.Machine
end

section
/-!
PROOF. Bytes of memory and of scratchpads (R20, R249, R351): which of them a write changes, and that walks, touched pages and served accesses
change none of a scratchpad.
-/

namespace Sys2Proof.Machine

/-! ### Bytes of memory -/

theorem isHost_line (a : Nat) : isHost (128 * (a / 128)) = isHost a := by
  unfold isHost
  exact decide_eq_decide.mpr (by omega)

/-- A byte of memory rests on the bytes of its line, their key index and the keys (R351). -/
theorem memByte_congr {s t : State} {key a : Nat} (hraw : ∀ i < 128, rawByte t (128 * (a / 128) + i) = rawByte s (128 * (a / 128) + i))
    (hline : tget 0 t.lineKey (a / 128) = tget 0 s.lineKey (a / 128)) (hkeys : t.keys = s.keys) : memByte t key a = memByte s key a := by
  have hbyte : rawByte t a = rawByte s a := by
    have h := hraw (a % 128) (Nat.mod_lt a (by decide))
    rwa [Nat.div_add_mod] at h
  have hcipher : cipherLine t (a / 128) = cipherLine s (a / 128) := by
    have hlist : ((List.range 128).map fun i => rawByte t (128 * (a / 128) + i)) = (List.range 128).map fun i => rawByte s (128 * (a / 128) + i) :=
      List.map_congr_left fun i hi => hraw i (List.mem_range.mp hi)
    simp only [cipherLine, hlist, hline, hkeys]
  simp only [memByte, keyMatches, foreignLine, hbyte, hcipher, hline, hkeys]
  rfl

theorem memByte_of_match {s : State} {key a : Nat} (h : keyMatches s key a = true) : memByte s key a = rawByte s a := if_pos h

theorem memByte_of_foreign {s : State} {key a : Nat} (h : keyMatches s key a = false) :
    memByte s key a = ((foreignLine s key (a / 128))[a % 128]?).getD 0 := if_neg (by rw [h]; decide)

/-- The bytes of a line are all of one key index, and all of the host or none. -/
theorem keyMatches_line (s : State) (key a : Nat) : keyMatches s key (128 * (a / 128)) = keyMatches s key a := by
  simp only [keyMatches, isHost_line, Nat.mul_div_cancel_left _ (by decide : 0 < 128)]

theorem memByte_serves {s t : State} (h : Serves s t) (key a : Nat) : memByte t key a = memByte s key a := by
  rw [h.eq_served]
  rfl

/-- A line that becomes what a key index reads keeps what that index reads, and every other line stays (R351). -/
theorem memByte_rekey (s : State) (key line k a : Nat) (h : a / 128 = line → key = k) : memByte (rekey s key line) k a = memByte s k a := by
  unfold rekey
  split
  · rfl
  · next hhost =>
    split
    · rfl
    · next hkey =>
      by_cases hl : a / 128 = line
      · obtain rfl := h hl
        subst hl
        have hmatch : keyMatches s key a = false := by rwa [keyMatches_line, Bool.not_eq_true] at hkey
        refine (memByte_of_match (by simp [keyMatches])).trans (Eq.trans ?_ (memByte_of_foreign hmatch).symm)
        rw [rawByte, tget_putRaw, if_pos (by simp only [foreignLine, List.length_map, List.length_range]; omega),
          show a - 128 * (a / 128) = a % 128 by omega]
      · refine memByte_congr (fun i hi => ?_) (tget_tset_ne _ _ _ _ _ hl) rfl
        rw [rawByte, tget_putRaw, if_neg (by simp [foreignLine]; omega)]
        rfl

theorem keyMatches_rekey_of {s : State} {key line a : Nat} (h : keyMatches s key a = true) : keyMatches (rekey s key line) key a = true := by
  unfold rekey
  split
  · exact h
  · split
    · exact h
    · by_cases hl : a / 128 = line
      · simp [keyMatches, hl]
      · simpa only [keyMatches, tget_tset_ne _ _ _ _ _ hl] using h

/-- A line that a write prepares is of the write's key index (R351). -/
theorem keyMatches_rekey_self (s : State) (key a : Nat) : keyMatches (rekey s key (a / 128)) key a = true := by
  unfold rekey
  split
  · next hhost => simp [keyMatches, (isHost_line a).symm.trans hhost]
  · split
    · next hkey => exact (keyMatches_line s key a).symm.trans hkey
    · simp [keyMatches]

theorem keyMatches_rekeys_of (ls : List Nat) {s : State} {key a : Nat} (h : keyMatches s key a = true) :
    keyMatches (ls.foldl (fun s l => rekey s key l) s) key a = true := by
  induction ls generalizing s with
  | nil => exact h
  | cons l r ih => exact ih (keyMatches_rekey_of h)

theorem keyMatches_rekeys {ls : List Nat} {a : Nat} (h : a / 128 ∈ ls) (s : State) (key : Nat) :
    keyMatches (ls.foldl (fun s l => rekey s key l) s) key a = true := by
  induction ls generalizing s with
  | nil => exact absurd h List.not_mem_nil
  | cons l r ih =>
    rcases List.mem_cons.mp h with rfl | hr
    · exact keyMatches_rekeys_of r (keyMatches_rekey_self s key a)
    · exact ih hr _

theorem memByte_rekeys (ls : List Nat) (s : State) (key k a : Nat) (h : a / 128 ∈ ls → key = k) :
    memByte (ls.foldl (fun s l => rekey s key l) s) k a = memByte s k a := by
  induction ls generalizing s with
  | nil => rfl
  | cons l r ih =>
    rw [List.foldl_cons, ih _ fun hr => h (List.mem_cons_of_mem _ hr)]
    exact memByte_rekey _ _ _ _ _ fun hl => h (hl ▸ List.mem_cons_self)

/-- The lines that bytes touch are those of their addresses. -/
theorem mem_linesOf {pa n a : Nat} (h : pa ≤ a) (h' : a < pa + n) : a / 128 ∈ linesOf pa n := by
  rw [linesOf, if_neg (by omega)]
  exact List.mem_map.mpr ⟨a / 128 - pa / 128, List.mem_range.mpr (by omega), by omega⟩

/-- A byte outside those written stays, under every key index where its line is not written and under the write's else (R249, R351). -/
theorem memByte_memPut {s : State} {k pa a : Nat} {data : List Byte} (key : Nat) (hout : a < pa ∨ pa + data.length ≤ a)
    (hline : a / 128 ∉ linesOf pa data.length ∨ key = k) : memByte (memPut s key pa data) k a = memByte s k a := by
  rw [← memByte_rekeys (linesOf pa data.length) s key k a fun h => hline.resolve_left (not_not_intro h)]
  unfold memPut
  generalize hrekeyed : (linesOf pa data.length).foldl (fun s l => rekey s key l) s = t
  by_cases hin : a / 128 ∈ linesOf pa data.length
  · obtain rfl := hline.resolve_left (not_not_intro hin)
    have hmatch : keyMatches t key a = true := hrekeyed ▸ keyMatches_rekeys hin s key
    have hput : keyMatches { t with mem := putRaw t.mem pa data } key a = true := hmatch
    refine (memByte_of_match hput).trans (Eq.trans ?_ (memByte_of_match hmatch).symm)
    rw [rawByte, tget_putRaw, if_neg (by omega)]
    rfl
  · refine memByte_congr (fun i hi => ?_) rfl rfl
    rw [rawByte, tget_putRaw, if_neg]
    · rfl
    · rintro ⟨hle, hlt⟩
      refine hin ((show (128 * (a / 128) + i) / 128 = a / 128 by omega) ▸ mem_linesOf hle hlt)

/-! ### Writes to memory -/

/-- A state with memory, its marks and the keys of its lines taken from another. -/
def State.stored (s t : State) : State := { s with mem := t.mem, memMark := t.memMark, lineKey := t.lineKey }

theorem rekey_stored (s : State) (key line : Nat) : rekey s key line = s.stored (rekey s key line) := by
  unfold rekey
  split
  · rfl
  · split <;> rfl

/-- Steps that each write memory alone write memory alone together. -/
theorem foldl_stored {α : Type} {f : State → α → State} (hf : ∀ s x, f s x = s.stored (f s x)) (l : List α) (s : State) :
    l.foldl f s = s.stored (l.foldl f s) := by
  induction l generalizing s with
  | nil => rfl
  | cons x r ih => exact (ih (f s x)).trans (congrArg (fun y => y.stored (r.foldl f (f s x))) (hf s x))

theorem memPut_stored (s : State) (key pa : Nat) (data : List Byte) : memPut s key pa data = s.stored (memPut s key pa data) := by
  have h := foldl_stored (rekey_stored · key ·) (linesOf pa data.length) s
  unfold memPut
  rw [h]
  rfl

theorem memApply_stored (s : State) (key : Nat) (w : MemWrite) : memApply s key w = s.stored (memApply s key w) := by
  have h := foldl_stored (fun s r => memPut_stored s key r.1 r.2) w.runs s
  unfold memApply
  rw [h]
  rfl

theorem memApply_th (s : State) (key : Nat) (w : MemWrite) : (memApply s key w).th = s.th :=
  (congrArg State.th (memApply_stored s key w)).trans rfl

@[simp] theorem length_toBytes (n x : Nat) : (toBytes n x).length = n := by simp [toBytes]

/-- A write of `n` bytes leaves the bytes that its place spares (R249, R351). -/
theorem memByte_memApply {n pa k key a : Nat} (h : sparesByte n key a (.mem pa k) = true) (s : State) {data : List Byte}
    (hlen : data.length = n) (mark : Bool) : memByte (memApply s k (.one pa data mark)) key a = memByte s key a := by
  subst hlen
  simp only [sparesByte, Bool.and_eq_true, Bool.or_eq_true, decide_eq_true_eq, Bool.not_eq_true', beq_iff_eq,
    List.contains_eq_mem, decide_eq_false_iff_not] at h
  exact memByte_memPut k h.1 h.2

theorem homeSpread_serves (s : State) (key : Nat) (w : MemWrite) (h by_ : Nat) : Serves s (homeSpread s key w h by_) := by
  unfold homeSpread
  exact ((drainDie_serves s h).trans (setDie_serves ..)).trans
    (Serves.foldl (R := id) (fun _ _ => (setDie_serves ..).trans (setInputs_serves ..)) _ _)

/-- Performing a write at its home changes memory as the write says, and serves (R249, R258). -/
theorem homePerform_serves (s : State) (key : Nat) (w : MemWrite) (pkg die by_ : Nat) :
    Serves (memApply s key w) (homePerform s key w pkg die by_) := by
  unfold homePerform
  dsimp only
  split
  · exact noteRequest_serves ..
  · exact (noteRequest_serves ..).trans (homeSpread_serves ..)

/-! ### Bytes of scratchpads -/

theorem scratchByte_eq (s : State) (c w off : Nat) : scratchByte s c w off =
    if s.wg.placed && s.wg.ctx == c && s.wg.wgl == w then some (tget 0 s.wg.scratch off)
    else (s.wgs.find? fun g => g.ctx == c && g.wgl == w).map fun g => tget 0 g.scratch off := by
  unfold scratchByte getWg
  split <;> rfl

theorem scratchByte_serves {s t : State} (h : Serves s t) (c w off : Nat) : scratchByte t c w off = scratchByte s c w off := by
  rw [h.eq_served, scratchByte_eq, scratchByte_eq]
  rfl

theorem scratchByte_memApply (s : State) (key : Nat) (x : MemWrite) (c w off : Nat) :
    scratchByte (memApply s key x) c w off = scratchByte s c w off := by
  rw [memApply_stored, scratchByte_eq, scratchByte_eq]
  rfl

theorem getWg_ids {s : State} {c w : Nat} {g : Workgroup} (h : getWg s c w = some g) : g.ctx = c ∧ g.wgl = w := by
  unfold getWg at h
  split at h
  · next hcur =>
    cases h
    simp only [Bool.and_eq_true, beq_iff_eq] at hcur
    exact ⟨hcur.1.2, hcur.2⟩
  · simpa using List.find?_some h

theorem putWg_th (s : State) (g : Workgroup) : (putWg s g).th = s.th := by
  unfold putWg
  split <;> rfl

theorem memByte_putWg (s : State) (g : Workgroup) (key a : Nat) : memByte (putWg s g) key a = memByte s key a := by
  unfold putWg
  split <;> rfl

/-- `g` in the place of the workgroup that it is, any other workgroup else. -/
def Workgroup.inPlace (g h : Workgroup) : Workgroup := if h.ctx == g.ctx && h.wgl == g.wgl then g else h

@[simp] theorem inPlace_ctx (g h : Workgroup) : (g.inPlace h).ctx = h.ctx := by
  unfold Workgroup.inPlace
  split
  · next hsame => simp_all
  · rfl

@[simp] theorem inPlace_wgl (g h : Workgroup) : (g.inPlace h).wgl = h.wgl := by
  unfold Workgroup.inPlace
  split
  · next hsame => simp_all
  · rfl

/-- Putting a workgroup in its place changes no answer about which workgroup is which. -/
theorem find?_inPlace (g : Workgroup) (c w : Nat) (l : List Workgroup) : (l.map g.inPlace).find? (fun x => x.ctx == c && x.wgl == w) =
    (l.find? fun x => x.ctx == c && x.wgl == w).map g.inPlace := by
  simp only [List.find?_map, Function.comp_def, inPlace_ctx, inPlace_wgl]

/-- A workgroup put in its place is found there. -/
theorem getWg_putWg_self {s : State} {g h : Workgroup} (hfound : getWg s g.ctx g.wgl = some h) (hplaced : g.placed = h.placed) :
    getWg (putWg s g) g.ctx g.wgl = some g := by
  unfold getWg at hfound
  unfold putWg
  split
  · next hcur =>
    rw [if_pos hcur] at hfound
    cases hfound
    simp only [Bool.and_eq_true] at hcur
    simp [getWg, hplaced, hcur.1.1]
  · next hcur =>
    rw [if_neg hcur] at hfound
    rw [getWg, if_neg hcur]
    refine (find?_inPlace g _ _ s.wgs).trans ?_
    rw [hfound, Option.map_some, Workgroup.inPlace, if_pos (List.find?_some hfound)]

/-- A workgroup put in its place changes no other. -/
theorem getWg_putWg_ne (s : State) {g : Workgroup} {c w : Nat} (h : ¬(g.ctx = c ∧ g.wgl = w)) : getWg (putWg s g) c w = getWg s c w := by
  have hg : (g.ctx == c && g.wgl == w) = false := by simpa using h
  unfold putWg
  split
  · next hcur =>
    simp only [Bool.and_eq_true, beq_iff_eq] at hcur
    have hs : (s.wg.ctx == c && s.wg.wgl == w) = false := by rw [hcur.1.2, hcur.2, hg]
    simp only [getWg, Bool.and_assoc, hg, hs, Bool.and_false]
    rfl
  · unfold getWg
    dsimp only
    split
    · rfl
    · refine (find?_inPlace g c w s.wgs).trans ?_
      cases hfind : s.wgs.find? fun x => x.ctx == c && x.wgl == w with
      | none => rfl
      | some x =>
        have hx := List.find?_some hfind
        simp only [Bool.and_eq_true, beq_iff_eq] at hx
        obtain ⟨rfl, rfl⟩ := hx
        rw [Option.map_some, Workgroup.inPlace, if_neg]
        rintro hsame
        simp only [Bool.and_eq_true, beq_iff_eq] at hsame
        exact h ⟨hsame.1.symm, hsame.2.symm⟩

/-- What a workgroup's scratchpad holds stays where the workgroup that takes its place holds the same. -/
theorem scratchByte_putWg {s : State} {g h : Workgroup} {c w off : Nat} (hfound : getWg s g.ctx g.wgl = some h) (hplaced : g.placed = h.placed)
    (hbyte : g.ctx = c → g.wgl = w → tget 0 g.scratch off = tget 0 h.scratch off) :
    scratchByte (putWg s g) c w off = scratchByte s c w off := by
  unfold scratchByte
  by_cases hid : g.ctx = c ∧ g.wgl = w
  · obtain ⟨rfl, rfl⟩ := hid
    rw [getWg_putWg_self hfound hplaced, hfound]
    exact congrArg some (hbyte rfl rfl)
  · rw [getWg_putWg_ne s hid]

/-! ### What the walks of a word's translations leave alone -/

/-- Translating addresses and touching pages lead from `s` to `t`, as far as threads and scratchpads show it. -/
structure Walks (s t : State) : Prop where
  th_eq : t.th = s.th
  scratch_eq (c w off : Nat) : scratchByte t c w off = scratchByte s c w off

theorem Walks.refl (s : State) : Walks s s := ⟨rfl, fun _ _ _ => rfl⟩

theorem Walks.trans {s t u : State} (h : Walks s t) (h' : Walks t u) : Walks s u :=
  ⟨h'.th_eq.trans h.th_eq, fun c w off => (h'.scratch_eq c w off).trans (h.scratch_eq c w off)⟩

theorem Walks.ite {s t u : State} {c : Prop} [Decidable c] (h : Walks s t) (h' : Walks s u) : Walks s (if c then t else u) := by
  split
  · exact h
  · exact h'

theorem Serves.walks {s t : State} (h : Serves s t) : Walks s t := ⟨h.th_eq, scratchByte_serves h⟩

theorem memApply_walks (s : State) (key : Nat) (x : MemWrite) : Walks s (memApply s key x) :=
  ⟨memApply_th s key x, scratchByte_memApply s key x⟩

theorem homeWrite_walks (s : State) (pa key : Nat) (data : List Byte) (mark : Bool) (pkg die : Nat) :
    Walks s (homeWrite s pa key data mark pkg die) :=
  (memApply_walks ..).trans (homePerform_serves s key (.one pa data mark) pkg die die).walks

theorem setWalkers_walks (s : State) (x : TMap (List WalkEntry)) : Walks s { s with walkers := x } := ⟨rfl, fun _ _ _ => rfl⟩

theorem Walks.setTlbs {s t : State} (h : Walks s t) (x : TMap (List TlbEntry)) : Walks s { t with tlbs := x } := ⟨h.th_eq, h.scratch_eq⟩

theorem cacheWalk_walks (s : State) (ix asid : Nat) (ptrs : List (Nat × Nat)) : Walks s (cacheWalk s ix asid ptrs) := by
  unfold cacheWalk
  split
  · exact .refl s
  · exact setWalkers_walks ..

theorem noteWalk_serves (s : State) (die : Nat) (known ptrs : List (Nat × Nat)) : Serves s (noteWalk s die known ptrs) :=
  Serves.foldl (R := id) (fun _ _ => noteRequest_serves ..) _ s

theorem walk_walks (s : State) (ix asid va : Nat) (p : Purpose) : Walks s (walk s ix asid va p).2 := by
  have hread (known cached ptrs : List (Nat × Nat)) (die : Nat) : Walks s (noteWalk (cacheWalk s ix asid cached) die known ptrs) :=
    (cacheWalk_walks ..).trans (noteWalk_serves ..).walks
  unfold walk
  dsimp only
  split
  · exact hread ..
  · split
    · exact hread ..
    · exact ((hread ..).ite ((hread ..).trans (homeWrite_walks ..))).setTlbs _

theorem translate_walks (s : State) (ix asid va : Nat) (p : Purpose) : Walks s (translate s ix asid va p).2 := by
  unfold translate
  split
  · exact .refl s
  · split
    · split <;> exact .refl s
    · have hwalk := walk_walks s ix asid va p
      split <;> next heq => rwa [heq] at hwalk

theorem touch_walks {s : State} {g : Workgroup} {c w : Nat} (h : getWg s c w = some g) (now : Nat) (l : List Nat) :
    Walks s (putWg s (g.touch now l)) := by
  have hshape : ∃ pages times, g.touch now l = { g with pages := pages, pinTimes := times } := by
    unfold Workgroup.touch
    split
    · exact ⟨_, _, rfl⟩
    · exact ⟨_, _, rfl⟩
  obtain ⟨pages, times, heq⟩ := hshape
  obtain ⟨rfl, rfl⟩ := getWg_ids h
  rw [heq]
  exact ⟨putWg_th .., fun c w off => scratchByte_putWg (h := g) h rfl fun _ _ => rfl⟩

theorem touchPages_walks (s : State) (c w : Nat) (l : List Nat) : Walks s (touchPages s c w l) := by
  unfold touchPages
  split
  · exact .refl s
  · next hfound =>
    split
    · exact .refl s
    · exact touch_walks hfound ..

theorem touchPlace_walks (s : State) (p : Place) (n : Nat) : Walks s (touchPlace s p n) := by
  cases p with
  | mem pa key => exact .refl s
  | scratch c w off =>
    simp only [touchPlace, touchScratch]
    split
    · exact .refl s
    · exact touchPages_walks ..
  | window off => exact touchPages_walks ..

theorem resolve_walks (s : State) (r : LaneReq) : Walks s (resolve s r).2 := by
  unfold resolve
  dsimp only
  split
  · exact .refl s
  · split
    · exact .refl s
    · split
      · split
        · exact .refl s
        · split
          · exact .refl s
          · split
            · exact .refl s
            · exact touchPlace_walks ..
      · split
        · exact .refl s
        · split
          · exact .refl s
          · have htranslate := translate_walks s (curTlb s) (curAsid s) r.va.toNat r.purpose
            split <;> next heq => rwa [heq] at htranslate

theorem resolveAll_walks (l : List LaneWork) (s : State) : Walks s (resolveAll l s).2 := by
  induction l generalizing s with
  | nil => exact .refl s
  | cons x r ih => exact (resolve_walks s x.2).trans (ih _)

/-- The walks of a memory word change no thread and no scratchpad. -/
theorem memWalk_walks (i : Instr) (hd : Hdr) (lanes : State → LaneMask → List LogLane) (ask : State → LogLane → LaneReq) (s : State) :
    Walks (wordState i s) (memWalk i hd lanes ask s).2 := resolveAll_walks ..

/-- A memory word that has issued has changed the pending words of its thread alone. -/
theorem memIssued_th (i : Instr) (uses : List (Role × Operand)) (hd : Hdr) (lanes : State → LaneMask → List LogLane)
    (ask : State → LogLane → LaneReq) (s : State) :
    (memIssued i uses hd lanes ask s).th = { s.th with pend := (memIssued i uses hd lanes ask s).th.pend } := by
  have hword : (wordState i s).th = { s.th with pend := (wordState i s).th.pend } := by
    unfold wordState
    split <;> rfl
  have hwalk := (memWalk_walks i hd lanes ask s).th_eq
  unfold memIssued
  dsimp only
  rw [hwalk, hword]
  rfl

theorem memIssued_scratch (i : Instr) (uses : List (Role × Operand)) (hd : Hdr) (lanes : State → LaneMask → List LogLane)
    (ask : State → LogLane → LaneReq) (s : State) (c w off : Nat) :
    scratchByte (memIssued i uses hd lanes ask s) c w off = scratchByte s c w off := by
  have hword : scratchByte (wordState i s) c w off = scratchByte s c w off := by
    unfold wordState
    split <;> rfl
  exact ((memWalk_walks i hd lanes ask s).scratch_eq c w off).trans hword

end Sys2Proof.Machine
end

section
/-!
PROOF. The frame of stores (R112 to R114): what the stores of a word's lanes leave of memory, of scratchpads and of the thread, by one
induction over the lanes; then the statement.
-/

namespace Sys2Proof.Machine

/-! ### The register window -/

/-- A thread without its registers and their marks. -/
def Thread.bare (th : Thread) : Thread := { th with v := [], vEmpty := [], vMark := [], k := [], kMark := [], p := [], pMark := [] }

theorem bare_wrP (th : Thread) (l n : Nat) (x mark : Bool) : (th.wrP l n x mark).bare = th.bare := by
  unfold Thread.wrP
  split <;> rfl

/-- Steps that each leave what `f` reads leave it together. -/
theorem foldl_keeps {α β γ : Type} {f : β → γ} {step : β → α → β} (l : List α) (h : ∀ x ∈ l, ∀ b, f (step b x) = f b) (b : β) :
    f (l.foldl step b) = f b := by
  induction l generalizing b with
  | nil => rfl
  | cons x r ih => exact (ih (fun y hy => h y (List.mem_cons_of_mem x hy)) _).trans (h x List.mem_cons_self b)

theorem bare_windowStoreWord (th : Thread) (off : Nat) (data : List Byte) (mark : Bool) :
    (windowStoreWord th off data mark).bare = th.bare := by
  unfold windowStoreWord
  dsimp only
  split
  · rfl
  · split
    · rfl
    · split
      · exact foldl_keeps _ (fun _ _ _ => bare_wrP ..) th
      · rfl

/-- A store in the register window changes registers and their marks alone (R11, R21). -/
theorem bare_windowStore (th : Thread) (off : Nat) (data : List Byte) (mark : Bool) : (windowStore th off data mark).bare = th.bare := by
  unfold windowStore
  split
  · exact bare_windowStoreWord ..
  · refine (foldl_keeps _ (fun _ _ _ => bare_windowStoreWord ..) _).trans ?_
    split <;> rfl

/-! ### What the stores of a word leave alone -/

/-- `f` reads nothing that a word changes which stores `w` bytes at places that are `ok`. -/
structure Spared {α : Type} (w : Nat) (ok : Place → Bool) (f : State → α) : Prop where
  serves {s t : State} (h : Serves s t) : f t = f s
  mem {pa key : Nat} (h : ok (.mem pa key) = true) (s : State) {data : List Byte} (hlen : data.length = w) (mark : Bool) :
    f (memApply s key (.one pa data mark)) = f s
  scratch {c g off : Nat} (h : ok (.scratch c g off) = true) {s : State} {wg : Workgroup} (hfound : getWg s c g = some wg) {data : List Byte}
    (hlen : data.length = w) (mark : Bool) : f (putWg s (wg.put off data mark)) = f s
  window {off : Nat} (h : ok (.window off) = true) (s : State) (data : List Byte) (mark : Bool) :
    f (s.setTh (windowStore s.th off data mark)) = f s

section
variable {α : Type} {w : Nat} {ok : Place → Bool} {f : State → α}

theorem Spared.serveStore (h : Spared w ok f) {pa key : Nat} (hok : ok (.mem pa key) = true) (s : State) {data : List Byte}
    (hlen : data.length = w) (mark : Bool) : f (serveStore s pa key data mark).2 = f s := by
  have hhome (s : State) (pkg die : Nat) : f (ownViews (homeWrite s pa key data mark pkg die) pa key data mark) = f s :=
    (h.serves ((homePerform_serves ..).trans (ownViews_serves ..))).trans (h.mem hok s hlen mark)
  unfold Machine.serveStore
  dsimp only
  split
  · exact hhome ..
  · split
    · exact (hhome ..).trans (h.serves ((drainDie_serves ..).trans (noteAsker_serves ..)))
    · exact h.serves ((awayViews_serves ..).trans ((newTag_serves _).trans ((awaitOwn_serves ..).trans (sendFrom_serves ..))))

theorem Spared.storeLane (h : Spared w ok f) {x : LogLane × Place} (hok : ok x.2 = true) (a : StoreAcc) : f (storeLane w a x).s = f a.s := by
  obtain ⟨lane, place⟩ := x
  cases place with
  | scratch c g off =>
    simp only [Machine.storeLane]
    split
    · exact h.serves (cohortAsk_serves ..)
    · split
      · next hfound => exact h.scratch hok hfound (length_toBytes ..) _
      · rfl
  | window off => exact h.window hok ..
  | mem pa key =>
    simp only [Machine.storeLane]
    split
    · exact (h.serves (countOnce_serves ..)).trans (h.serveStore hok _ (length_toBytes ..) _)
    · exact h.serves (awayViews_serves ..)

/-- The stores of a word's lanes leave what reads nothing that they change (R113). -/
theorem Spared.storeLanes (h : Spared w ok f) {ps : List (LogLane × Place)} (hok : ∀ x ∈ ps, ok x.2 = true) (s : State) :
    f (storeLanes w ps s).2 = f s := by
  have hlanes : f (ps.foldl (Machine.storeLane w) ⟨s, [], [], []⟩).s = f s :=
    foldl_keeps (f := fun a : StoreAcc => f a.s) ps (fun x hx => h.storeLane (hok x hx)) _
  unfold Machine.storeLanes
  exact (h.serves ((sendLines_serves ..).trans (awaitOwns_serves ..))).trans hlanes

end

theorem spared_memByte (w key pa : Nat) : Spared w (sparesByte w key pa) (memByte · key pa) where
  serves h := memByte_serves h key pa
  mem h s _ hlen mark := memByte_memApply h s hlen mark
  scratch _ _ _ _ _ _ _ := memByte_putWg ..
  window _ _ _ _ := rfl

theorem spared_scratchByte (n c w off : Nat) : Spared n (sparesScratch n c w off) (scratchByte · c w off) where
  serves h := scratchByte_serves h c w off
  mem _ _ _ _ _ := scratchByte_memApply ..
  scratch {c' w' a} h {s wg} hfound data hlen mark := by
    obtain ⟨rfl, rfl⟩ := getWg_ids hfound
    refine scratchByte_putWg (h := wg) hfound rfl fun hc hw => ?_
    have hsame : wg.ctx = c ∧ wg.wgl = w := ⟨hc, hw⟩
    have hout : off < a ∨ a + n ≤ off := by simpa [sparesScratch, hsame] using h
    exact (tget_putRaw ..).trans (if_neg (by omega))
  window _ _ _ _ := rfl

theorem spared_bare (w : Nat) : Spared w (fun _ => true) fun s => s.th.bare where
  serves h := congrArg Thread.bare h.th_eq
  mem _ _ _ _ _ := congrArg Thread.bare (memApply_th ..)
  scratch _ _ _ _ _ _ _ := congrArg Thread.bare (putWg_th ..)
  window _ _ _ _ := bare_windowStore ..

theorem spared_th (w : Nat) : Spared w Place.noWindow State.th where
  serves h := h.th_eq
  mem _ _ _ _ _ := memApply_th ..
  scratch _ _ _ _ _ _ _ := putWg_th ..
  window h _ _ _ := absurd h Bool.false_ne_true

/-! ### The statement -/

theorem sameSpecials_refl (th : Thread) : sameSpecials th th := ⟨rfl, rfl, rfl, rfl, rfl, rfl, rfl, rfl, rfl, rfl, rfl, rfl, rfl⟩

theorem sameSpecials_of_bare {a b : Thread} (h : a.bare = b.bare) : sameSpecials a b :=
  have hbare : sameSpecials a.bare b.bare := h ▸ sameSpecials_refl _
  hbare

/-- A word that stores changes, besides what its lanes store, its program counter and what its thread tells of writes that are out and of
marked data. -/
theorem storeAll_eq (m : Mem) (ps : List (LogLane × Place)) (s : State) : ∃ fabric blocked err,
    storeAll m ps s = (storeLanes m.width.bytes ps s).2.setTh
      (advance { (storeLanes m.width.bytes ps s).2.th with fabric := fabric, blocked := blocked, err := err }) := by
  unfold storeAll
  dsimp only
  split <;> exact ⟨_, _, _, rfl⟩

/-- The frame of a word that stores, at the places of its lanes. -/
theorem storeAll_frame (m : Mem) (ps : List (LogLane × Place)) (s : State) : let t := storeAll m ps s
    (∀ key pa, (ps.map Prod.snd).all (sparesByte m.width.bytes key pa) = true → memByte t key pa = memByte s key pa) ∧
    (∀ c w off, (ps.map Prod.snd).all (sparesScratch m.width.bytes c w off) = true → scratchByte t c w off = scratchByte s c w off) ∧
    t.th.grp.pc = nextPc s.th.grp ∧ sameSpecials t.th s.th ∧ ((ps.map Prod.snd).all Place.noWindow = true → sameRegisters t.th s.th) := by
  intro t
  have hall {ok : Place → Bool} (h : (ps.map Prod.snd).all ok = true) : ∀ x ∈ ps, ok x.2 = true := fun x hx =>
    List.all_eq_true.mp h x.2 (List.mem_map_of_mem hx)
  obtain ⟨fabric, blocked, err, heq⟩ : ∃ fabric blocked err, t = _ := storeAll_eq m ps s
  have hbare := (spared_bare m.width.bytes).storeLanes (ps := ps) (fun _ _ => rfl) s
  have hpc : nextPc (storeLanes m.width.bytes ps s).2.th.bare.grp = nextPc s.th.bare.grp := by rw [hbare]
  have hspecials : sameSpecials (storeLanes m.width.bytes ps s).2.th s.th := sameSpecials_of_bare hbare
  rw [heq]
  refine ⟨fun key pa h => ?_, fun c w off h => ?_, hpc, hspecials, fun h => ?_⟩
  · exact (spared_memByte _ key pa).storeLanes (hall h) s
  · exact (spared_scratchByte _ c w off).storeLanes (hall h) s
  · have hth : (storeLanes m.width.bytes ps s).2.th = s.th := (spared_th _).storeLanes (hall h) s
    rw [hth]
    exact ⟨fun _ _ => rfl, fun _ => rfl, fun _ _ => rfl⟩

/-- Settles O9: what the stores of the lanes spare stays, and a store moves nothing of its thread but its program counter. -/
theorem storeFrame : Obligations.StoreFrame := by
  unfold Obligations.StoreFrame
  intro m i lanes hi s t hready hexec
  have hnext : exec i s = .next (storeAll m (memPlaces i m.hd lanes (memAsk m .store) s)
      (memIssued i i.uses m.hd lanes (memAsk m .store) s)) := by
    rcases hi with ⟨rfl, rfl⟩ | ⟨rfl, rfl⟩
    · exact (exec_st ..).trans (memWord_now hready _)
    · exact (exec_stu ..).trans (memWord_now hready _)
  have hth := memIssued_th i i.uses m.hd lanes (memAsk m .store) s
  obtain rfl := Host.Outcome.next.inj (hexec.symm.trans hnext)
  obtain ⟨hmem, hscratch, hpc, hspecials, hregisters⟩ := storeAll_frame m (memPlaces i m.hd lanes (memAsk m .store) s)
    (memIssued i i.uses m.hd lanes (memAsk m .store) s)
  refine ⟨hmem, fun c w off h => (hscratch c w off h).trans (memIssued_scratch ..), ?_, ?_, fun h => ?_⟩
  · exact hpc.trans (by rw [hth])
  · rw [hth] at hspecials
    exact hspecials
  · have hsame := hregisters h
    rw [hth] at hsame
    exact hsame

end Sys2Proof.Machine
end

section
/-!
PROOF. The frame of loads (R112 to R114): what the lanes of a word read and which registers their results name; then the statement.
-/

namespace Sys2Proof.Machine

/-! ### The results of a load -/

/-- The write is to one of the `n` registers of D. -/
def Wr.fills (n : Nat) (d : Operand) : Wr → Bool
  | .v _ r _ _ => namesV n r d
  | .k r _ _ => namesK n r d
  | .p _ _ _ _ => false
  | .fl _ => false
  | .cap _ _ => false
  | .cm _ _ => false
  | .ph _ _ => false

theorem length_loadWords_le (m : Mem) (bytes : List Byte) :
    (loadWords m.width.bytes m.sx bytes).length ≤ m.destWords := by
  unfold Mem.destWords
  cases m.width <;> cases m.sx <;> exact Nat.le.refl

/-- The results of a load fill registers of its destination (R54, R112). -/
theorem fills_of_mem_wordWrites {n l : Nat} {d : Operand} {ws : List Word} {mark : Bool} {w : Wr} (hlen : ws.length ≤ n)
    (h : w ∈ wordWrites l d ws mark) : w.fills n d = true := by
  obtain ⟨⟨x, j⟩, hx, hw⟩ := List.mem_flatMap.mp h
  have hj : j < n := (List.mem_range.mp (List.of_mem_zip hx).2).trans_le hlen
  cases d with
  | v r =>
    obtain rfl := List.mem_singleton.mp hw
    simp [Wr.fills, namesV, hj]
  | k r =>
    obtain rfl := List.mem_singleton.mp hw
    simp [Wr.fills, namesK, hj]
  | s _ => exact absurd hw List.not_mem_nil
  | c _ => exact absurd hw List.not_mem_nil

section
variable {n : Nat} {d : Operand} {w : Wr}

theorem leaves_rdV_of_fills (hw : w.fills n d = true) (hfit : ∀ v, d = .v v → v.toNat + n ≤ 256) {l r : Nat} (hr : r < 256)
    (h : namesV n r d = false) : w.Leaves (·.rdV l r) := by
  cases w with
  | v l' r' x mark =>
    have hne : r ≠ r' := fun e => absurd (e ▸ h : namesV n r' d = false) (by rw [show namesV n r' d = true from hw]; decide)
    have hr' : r' < 256 := by
      cases d with
      | v q =>
        have hq := hfit q rfl
        simp only [Wr.fills, namesV, Bool.and_eq_true, decide_eq_true_eq] at hw
        omega
      | k _ => cases hw
      | s _ => cases hw
      | c _ => cases hw
    exact leaves_v_rdV x mark hr hr' fun _ => hne
  | k r' x mark => exact fun _ => rfl
  | _ => cases hw

theorem leaves_rdK_of_fills (hw : w.fills n d = true) {r : Nat} (h : namesK n r d = false) : w.Leaves (·.rdK r) := by
  cases w with
  | v l' r' x mark => exact fun _ => rfl
  | k r' x mark =>
    refine leaves_k_rdK x mark fun e => ?_
    subst e
    exact absurd (hw.symm.trans h) (by decide)
  | _ => cases hw

theorem leaves_rdP_of_fills (hw : w.fills n d = true) (l p : Nat) : w.Leaves (·.rdP l p) := by
  cases w with
  | v l' r' x mark => exact fun _ => rfl
  | k r' x mark => exact fun _ => rfl
  | _ => cases hw

theorem leaves_caps_of_fills (hw : w.fills n d = true) : w.Leaves (·.caps) := by
  cases w with
  | v l' r' x mark => exact fun _ => rfl
  | k r' x mark => exact fun _ => rfl
  | _ => cases hw

end

/-! ### Delivering them -/

section
variable (hd : Hdr) (ws : List Wr) (aw : List Await) (lw : LogWord) (th : Thread)

/-- A result that is delivered changes registers, or is one more pending word (R61). -/
theorem deliverWith_shape : deliverWith hd ws aw lw th =
    { th with pend := (deliverWith hd ws aw lw th).pend }.results (deliverWith hd ws aw lw th) := by
  unfold deliverWith
  split
  · unfold deliver
    split
    · rw [Thread.writes_shape]
      rfl
    · rfl
  · rfl

variable {ws} in
theorem deliverWith_leaves {α : Type} {R : Thread → α} (hR : ReadsRegisters R) (h : ∀ w ∈ ws, w.Leaves R) :
    R (deliverWith hd ws aw lw th) = R th := by
  unfold deliverWith
  split
  · unfold deliver
    split
    · exact (foldl_write1_leaves h _).trans (hR _ _ rfl rfl rfl rfl rfl)
    · exact hR _ _ rfl rfl rfl rfl rfl
  · exact hR _ _ rfl rfl rfl rfl rfl

variable {ws} in
theorem deliverWith_sameSpecials (h : ∀ w ∈ ws, w.Leaves (·.caps)) : sameSpecials (deliverWith hd ws aw lw th) th := by
  have hcaps : (deliverWith hd ws aw lw th).caps = th.caps := deliverWith_leaves hd aw lw th readsRegisters_caps h
  refine ⟨?_, ?_, ?_, ?_, ?_, ?_, ?_, ?_, ?_, ?_, ?_, ?_, hcaps⟩ <;>
  · rw [deliverWith_shape]
    rfl

end

/-! ### The lanes of a load -/

/-- One lane's load serves (R113, R255), and its results fill registers of D. -/
theorem loadLane_spec (m : Mem) (th : Thread) (take : Nat → Bool) (a : LoadAcc) (x : LogLane × Place) :
    Serves a.s (loadLane m th take a x).s ∧
      ∀ w ∈ (loadLane m th take a x).ws, w ∈ a.ws ∨ w.fills m.destWords m.d = true := by
  have hgot (l : Nat) (b : List Byte) (mark : Bool) :
      ∀ w ∈ (if take l then a.ws ++ wordWrites l m.d (loadWords m.width.bytes m.sx b) mark else a.ws),
        w ∈ a.ws ∨ w.fills m.destWords m.d = true := by
    intro w hw
    split at hw
    · exact (List.mem_append.mp hw).imp_right (fills_of_mem_wordWrites (length_loadWords_le m b))
    · exact .inl hw
  obtain ⟨lane, place⟩ := x
  cases place with
  | scratch c g off =>
    simp only [loadLane]
    split
    · exact ⟨cohortAsk_serves .., fun w hw => .inl hw⟩
    · split
      · exact ⟨.refl _, hgot _ _ _⟩
      · exact ⟨.refl _, fun w hw => .inl hw⟩
  | window off => exact ⟨.refl _, hgot _ _ _⟩
  | mem pa key =>
    have hload := serveLoad_serves a.s lane.lane m.order m.scope m.hint pa key m.width.bytes
    simp only [loadLane]
    split
    · next heq =>
      rw [heq] at hload
      exact ⟨hload.trans (countOnce_serves ..), hgot _ _ _⟩
    · next heq =>
      rw [heq] at hload
      refine ⟨?_, fun w hw => .inl hw⟩
      dsimp only
      split
      · exact hload
      · exact hload.trans (requestNear_serves ..)

theorem loadLanes_spec {m : Mem} {th : Thread} {take : Nat → Bool} {ps : List (LogLane × Place)} {a r : LoadAcc}
    (h : ps.foldl (loadLane m th take) a = r) : Serves a.s r.s ∧ ∀ w ∈ r.ws, w ∈ a.ws ∨ w.fills m.destWords m.d = true := by
  induction ps generalizing a with
  | nil => exact h ▸ ⟨.refl _, fun w hw => .inl hw⟩
  | cons x ps ih =>
    obtain ⟨hserves, hws⟩ := loadLane_spec m th take a x
    obtain ⟨hserves', hws'⟩ := ih h
    exact ⟨hserves.trans hserves', fun w hw => (hws' w hw).elim (hws w) .inr⟩

theorem block_eq (s : State) (order : Order) (scope : Scope) (tags : List Nat) : ∃ blocked acq,
    block s order scope tags = s.setTh { s.th with blocked := blocked, acq := acq } := by
  unfold block
  split <;> exact ⟨_, _, rfl⟩

/-- A word that loads serves its lanes and delivers results that fill registers of D. -/
theorem loadAll_eq (i : Instr) (m : Mem) (found : Thread) (act : LaneMask) (ps : List (LogLane × Place)) (s : State) :
    ∃ u ws aw lw err blocked acq, Serves s u ∧ (∀ w ∈ ws, w.fills m.destWords m.d = true) ∧
      loadAll i m found act ps s = u.setTh (advance (deliverWith m.hd ws aw lw { u.th with err := err, blocked := blocked, acq := acq })) := by
  have hacquire : Serves s (if acquires m.order && act != 0 then acquire s m.scope else s) := by
    split
    · exact acquire_serves ..
    · exact .refl s
  unfold loadAll
  dsimp only
  generalize (if acquires m.order && act != 0 then acquire s m.scope else s) = s' at hacquire ⊢
  generalize hr : ps.foldl (loadLane m found _) _ = r
  obtain ⟨hserves, hws⟩ := loadLanes_spec hr
  obtain ⟨blocked, acq, hblock⟩ := block_eq r.s m.order m.scope (r.tags.map Prod.snd)
  rw [hblock]
  refine ⟨r.s, r.ws, r.aw, logOf i m.hd s.th act 0 (ps.map Prod.fst), if r.mark then (r.s.th.raiseErr 4).err else r.s.th.err, blocked, acq,
    hacquire.trans hserves, fun w hw => (hws w hw).resolve_left List.not_mem_nil, ?_⟩
  cases r.mark <;> rfl

/-- The frame of a word that loads. -/
theorem loadAll_frame (i : Instr) (m : Mem) (found : Thread) (act : LaneMask) (ps : List (LogLane × Place)) (s : State)
    (hfit : ∀ v, m.d = .v v → v.toNat + m.destWords ≤ 256) : let t := loadAll i m found act ps s
    sameMemory t s ∧ (∀ c w off, scratchByte t c w off = scratchByte s c w off) ∧ t.th.grp.pc = nextPc s.th.grp ∧ sameSpecials t.th s.th ∧
      (∀ l r, r < 256 → namesV m.destWords r m.d = false → t.th.rdV l r = s.th.rdV l r) ∧
      (∀ r, namesK m.destWords r m.d = false → t.th.rdK r = s.th.rdK r) ∧ ∀ l p, t.th.rdP l p = s.th.rdP l p := by
  intro t
  obtain ⟨u, ws, aw, lw, err, blocked, acq, hserves, hws, heq⟩ : ∃ u ws aw lw err blocked acq, _ ∧ _ ∧ t = _ :=
    loadAll_eq i m found act ps s
  have hread {α : Type} {R : Thread → α} (hR : ReadsRegisters R) (h : ∀ w ∈ ws, w.Leaves R) : R t.th = R s.th := by
    rw [heq, ← hserves.th_eq]
    calc R (advance (deliverWith m.hd ws aw lw { u.th with err := err, blocked := blocked, acq := acq }))
      _ = R (deliverWith m.hd ws aw lw { u.th with err := err, blocked := blocked, acq := acq }) := hR _ _ rfl rfl rfl rfl rfl
      _ = R { u.th with err := err, blocked := blocked, acq := acq } := deliverWith_leaves m.hd aw lw _ hR h
      _ = R u.th := hR _ _ rfl rfl rfl rfl rfl
  have hgrp : (deliverWith m.hd ws aw lw { u.th with err := err, blocked := blocked, acq := acq }).grp = u.th.grp := by
    rw [deliverWith_shape]
    rfl
  refine ⟨?_, ?_, ?_, ?_, ?_, ?_, ?_⟩
  · rw [heq, hserves.eq_served]
    exact ⟨rfl, rfl, rfl⟩
  · have hscratch := scratchByte_serves hserves
    rw [heq]
    exact hscratch
  · rw [heq, ← hserves.th_eq, ← hgrp]
    rfl
  · have hspecials := deliverWith_sameSpecials m.hd aw lw { u.th with err := err, blocked := blocked, acq := acq }
      fun w hw => leaves_caps_of_fills (hws w hw)
    rw [heq, ← hserves.th_eq]
    exact hspecials
  · exact fun l r hr h => hread (readsRegisters_rdV l r) fun w hw => leaves_rdV_of_fills (hws w hw) hfit hr h
  · exact fun r h => hread (readsRegisters_rdK r) fun w hw => leaves_rdK_of_fills (hws w hw) h
  · exact fun l p => hread (readsRegisters_rdP l p) fun w hw => leaves_rdP_of_fills (hws w hw) l p

/-- Settles O8: the lanes of a load serve, and every write of its result is to a register of its destination. -/
theorem loadFrame : Obligations.LoadFrame := by
  unfold Obligations.LoadFrame
  intro m i lanes hi n hfit s t hready hexec
  have hnext : exec i s = .next (loadAll i m s.th (partaking i m.hd s) (memPlaces i m.hd lanes (memAsk m .load) s)
      (memIssued i i.uses m.hd lanes (memAsk m .load) s)) := by
    rcases hi with ⟨rfl, rfl⟩ | ⟨rfl, rfl⟩
    · exact (exec_ld ..).trans (memWord_now hready _)
    · exact (exec_ldu ..).trans (memWord_now hready _)
  have hth := memIssued_th i i.uses m.hd lanes (memAsk m .load) s
  obtain rfl := Host.Outcome.next.inj (hexec.symm.trans hnext)
  obtain ⟨hmem, hscratch, hpc, hspecials, hv, hk, hp⟩ := loadAll_frame i m s.th (partaking i m.hd s)
    (memPlaces i m.hd lanes (memAsk m .load) s) (memIssued i i.uses m.hd lanes (memAsk m .load) s) hfit
  rw [hth] at hpc hspecials hv hk hp
  exact ⟨hmem, fun c w off => (hscratch c w off).trans (memIssued_scratch ..), hpc, hspecials, fun l r _ => hv l r, hk, hp⟩

end Sys2Proof.Machine
end

section
/-!
PROOF. CALL, CALLX and RET (R107): the path of RET, whose targets are read before it is checked; the stack pointer; where the lanes go.
-/

namespace Sys2Proof.Machine

/-! ### The stack pointer -/

theorem stackPtr_setStackPtr (th : Thread) (x : DWord) : stackPtr (setStackPtr th x) = x := by
  have hlow : (setStackPtr th x).rdK 126 = x.setWidth 32 :=
    (leaves_k_rdK (x.extractLsb' 32 32) false (by decide : 126 ≠ 127) _).trans (sets_k_rdK 126 _ _ th)
  have hhigh : (setStackPtr th x).rdK 127 = x.extractLsb' 32 32 := sets_k_rdK 127 _ _ _
  rw [stackPtr, hlow, hhigh]
  ext i hi
  rw [BitVec.getElem_append]
  split
  · simp [BitVec.getLsbD_eq_getElem hi]
  · simp only [BitVec.getElem_extractLsb', show 32 + (i - 32) = i by omega, BitVec.getLsbD_eq_getElem hi]

theorem stackPtr_branchTo (th : Thread) (pc : Nat → DWord) : stackPtr (branchTo th pc) = stackPtr th := by
  unfold branchTo
  split <;> rfl

/-! ### Calls and returns -/

/-- The thread that goes on behind a call or return whose lanes go to `pc`, and whose stack pointer moves as `f` says where a lane takes part. -/
def moved (act : LaneMask) (f : DWord → DWord) (pc : Nat → DWord) (th : Thread) : Thread :=
  branchTo (if act = 0 then th else setStackPtr th (f (stackPtr th))) pc

theorem stackPtr_moved {act : LaneMask} (hact : act ≠ 0) (f : DWord → DWord) (pc : Nat → DWord) (th : Thread) :
    stackPtr (moved act f pc th) = f (stackPtr th) := by
  rw [moved, stackPtr_branchTo, if_neg hact, stackPtr_setStackPtr]

theorem exists_mem_moved (act : LaneMask) (f : DWord → DWord) (pc : Nat → DWord) (th : Thread) (l : Nat) (hl : th.grp.mask.getLsbD l = true) :
    ∃ g ∈ (moved act f pc th).grp :: (moved act f pc th).rest, g.mask.getLsbD l = true ∧ g.pc = pc l := by
  refine exists_mem_branchTo _ pc l ?_
  split <;> exact hl

/-- A call whose slots are in no register window moves the thread, where its writes to other packages are noted (R107). -/
theorem callAll_th {tgt : LogLane → DWord → DWord} {act : LaneMask} {ps : List (LogLane × Place)} {s : State}
    (hplaces : ∀ p ∈ ps, ∀ off, p.2 ≠ Place.window off) : ∃ fabric, (callAll tgt act ps s).th =
      moved act (· - 256) (fun l => ((ps.find? fun y => y.1.lane == l).map fun y => tgt y.1 s.th.grp.pc).getD (s.th.grp.pc + 8))
        { s.th with fabric := fabric } := by
  have hstored : ∀ ps' : List (LogLane × Place), (∀ x ∈ ps', x.2.noWindow = true) → (storeLanes 8 ps' s).2.th = s.th :=
    fun ps' h => (spared_th 8).storeLanes h s
  have hth := hstored (ps.map fun x => ({ x.1 with data := (s.th.grp.pc + 8).setWidth 128 }, x.2)) fun x hx => by
    obtain ⟨y, hy, rfl⟩ := List.mem_map.mp hx
    cases hplace : y.2 with
    | window off => exact absurd hplace (hplaces y hy off)
    | _ => rfl
  unfold callAll moved
  dsimp only
  rw [hth]
  refine ⟨_, congrArg (branchTo _) (funext fun l => ?_)⟩
  cases ps.find? fun x => x.1.lane == l <;> rfl

/-- RET loads the slot of a lane (R107). -/
def slotLoad (s : State) (x : LogLane × Place) : State :=
  match x.2 with
  | .mem pa key => (serveLoad s x.1.lane .rlx .tr .dflt pa key 8).2
  | .scratch _ _ _ => s
  | .window _ => s

theorem slotLoad_serves (s : State) (x : LogLane × Place) : Serves s (slotLoad s x) := by
  unfold slotLoad
  split
  · exact serveLoad_serves ..
  · exact .refl s
  · exact .refl s

/-- A return reads its slots and moves the thread (R107). -/
theorem returnAll_th (act : LaneMask) (got : List LogLane) (ps : List (LogLane × Place)) (s : State) : (returnAll act got ps s).th =
    moved act (· + 256) (fun l => ((got.find? fun x => x.lane == l).map LogLane.a).getD (s.th.grp.pc + 8)) s.th := by
  have hth : (ps.foldl slotLoad s).th = s.th := (Serves.foldl (R := id) slotLoad_serves ps s).th_eq
  rw [← hth]
  refine congrArg (branchTo _) (funext fun l => ?_)
  cases got.find? fun x => x.lane == l <;> rfl

/-! ### RET -/

theorem endsWindow_ret (hd : Hdr) : endsWindow (.ret hd) = true := by
  have hop : (Instr.ret hd).opcode = 452 := rfl
  rw [endsWindow, hop]
  decide

/-- What the checks and walks of a RET give of its slots. -/
def returnWalk (hd : Hdr) (s : State) : List (LogLane × Except Refused Place × DWord) × State :=
  memWalk (.ret hd) hd returnSlots (slotAsk .load false) s

/-- The places of the slots of a RET. -/
def returnPlaces (hd : Hdr) (s : State) : List (LogLane × Place) := memPlaces (.ret hd) hd returnSlots (slotAsk .load false) s

/-- A RET whose slots can be read, and whose targets are aligned, is performed. -/
theorem exec_ret_now {hd : Hdr} {s : State} (hnow : issuesNow (.ret hd) stackUses hd s = true)
    (hplaces : ∀ x ∈ returnPlaces hd s, x.2.inDirectory = false ∧ (slotValue (returnWalk hd s).2 x).isSome = true)
    (hfaults : worstOf (returnFaults (returnLanes (returnWalk hd s).2 (returnPlaces hd s)) (returnWalk hd s).1) = none) :
    exec (.ret hd) s = .next (returnAll (partaking (.ret hd) hd s) (returnLanes (returnWalk hd s).2 (returnPlaces hd s)) (returnPlaces hd s)
      (memIssued (.ret hd) stackUses hd returnSlots (slotAsk .load false) s)) := by
  have hdirectory : (returnPlaces hd s).any (fun p => p.2.inDirectory) = false :=
    List.any_eq_false.mpr fun x hx => Bool.not_eq_true _ ▸ (hplaces x hx).1
  have hvalues : (returnPlaces hd s).any (fun x => (slotValue (returnWalk hd s).2 x).isNone) = false :=
    List.any_eq_false.mpr fun x hx => by simp [Option.isSome_iff_ne_none.mp (hplaces x hx).2]
  have hword : wordState (.ret hd) s = s.setTh (closeWindows s.th s.th.grp.mask) := by
    rw [wordState, if_pos (endsWindow_ret hd)]
  have hact : partaking (.ret hd) hd s = takesPart (wordState (.ret hd) s).th hd := by
    rw [wordState_th]
    rfl
  simp only [issuesNow, ← wordState_th, Bool.not_eq_true', ← hact] at hnow
  rw [exec_ret, execRet]
  simp only [← hword, ← hact]
  rw [hnow, if_neg Bool.false_ne_true]
  refine (if_neg (c := (returnPlaces hd s).any (fun p => p.2.inDirectory) = true) (by rw [hdirectory]; decide)).trans ?_
  refine (if_neg (c := (returnPlaces hd s).any (fun x => (slotValue (returnWalk hd s).2 x).isNone) = true)
    (by rw [hvalues]; decide)).trans ?_
  generalize hworst : worstOf (returnFaults _ _) = worst
  obtain rfl : worst = none := hworst.symm.trans hfaults
  rfl

/-- Settles O26. The calls take the path of every memory word, RET its own; stores outside the register window and loads leave the
thread, whose stack pointer and lanes then move. -/
theorem callsComplete : Obligations.CallsComplete := by
  unfold Obligations.CallsComplete
  refine ⟨⟨fun hd imm s h => (exec_call ..).trans (memWord_now h _), fun hd a s h => (exec_callx ..).trans (memWord_now h _),
    fun hd s => exec_ret_now⟩, fun tgt act ps s hact hplaces => ?_, fun act got ps s hact => ?_, fun tgt act ps s l hplaces hl => ?_,
    fun act got ps s l hl => ?_⟩
  · obtain ⟨fabric, hth⟩ := callAll_th (tgt := tgt) (act := act) hplaces
    rw [hth, stackPtr_moved hact]
    rfl
  · rw [returnAll_th, stackPtr_moved hact]
  · obtain ⟨fabric, hth⟩ := callAll_th (tgt := tgt) (act := act) hplaces
    rw [hth]
    exact exists_mem_moved _ _ _ _ l hl
  · rw [returnAll_th]
    exact exists_mem_moved _ _ _ _ l hl

end Sys2Proof.Machine
end

section
/-!
PROOF. The frames of groups 0 to 6 and of plain control flow (R50, R73, R105 to R109): a word whose body answers with another thread
changes the thread alone; and control flow moves sub-groups and nothing that a word can read by name.
-/

namespace Sys2Proof.Machine

/-! ### Words that change their thread alone -/

/-- What the word answers with, if a state, is `s` but for its thread. -/
structure Confined (s : State) (o : Out) : Prop where
  eq_of_next (t : State) (h : o = .next t) : t = s.setTh t.th

theorem confined_next (s : State) (th : Thread) : Confined s (.next (s.setTh th)) :=
  ⟨fun t h => by rw [← Host.Outcome.next.inj h]; rfl⟩

/-- A word is confined where its body is. -/
theorem confined_issue {i : Instr} {uses : List (Role × Operand)} {preds : List (BitVec 3)} {hd : Hdr} {s : State}
    {body : LaneMask → State → Out} (h : ∀ act th, Confined s (body act (s.setTh th))) : Confined s (issue i uses preds hd s body) := by
  obtain heq | ⟨-, heq⟩ := issue_cases (i := i) (uses := uses) (preds := preds) (hd := hd) (s := s) body
  · rw [heq]
    exact confined_next ..
  · rw [heq]
    exact h ..

section
variable (i : Instr) (hd : Hdr) (n : Nat) (d : Operand) (pd : BitVec 3) (s : State)

theorem confined_laneOp (f : State → Nat → LaneRes) : Confined s (laneOp i hd n d f s) := confined_issue fun _ _ => confined_next ..

theorem confined_laneOpLong (f : State → Nat → LaneRes) : Confined s (laneOpLong i hd n d f s) := confined_issue fun _ _ => confined_next ..

theorem confined_predOp (f : State → Nat → Bool × FFlags) : Confined s (predOp i hd pd f s) := confined_issue fun _ _ => confined_next ..

theorem confined_predOpLong (f : State → Nat → Bool × FFlags) : Confined s (predOpLong i hd pd f s) :=
  confined_issue fun _ _ => confined_next ..

theorem confined_treeOp (f : State → LaneMask → Nat → DWord) (fl : State → LaneMask → FFlags) : Confined s (treeOp i hd n d f fl s) :=
  confined_issue fun _ _ => confined_next ..

end

theorem confined_movk (hd : Hdr) (d a b : Operand) (s : State) : Confined s (execMovk hd d a b s) := by
  refine confined_issue fun act th => ?_
  dsimp only
  split
  · exact confined_next ..
  · split
    · exact confined_next s s.th
    · exact confined_next ..

theorem confined_lbcast (hd : Hdr) (d a b : Operand) (ha b64 : Bool) (s : State) : Confined s (execLbcast hd d a b ha b64 s) := by
  unfold execLbcast
  refine confined_issue fun act th => ?_
  by_cases hfull : act ≠ 0 ∧ (!pickedFull s.th (pickLane (s.setTh th) act b) (if b64 then 2 else 1) a) = true
  · refine (congrArg (Confined s) (if_pos hfull)).mpr (confined_next s s.th)
  · refine (congrArg (Confined s) (if_neg hfull)).mpr (confined_next ..)

theorem confined_lvote (hd : Hdr) (d : Operand) (mode : BitVec 2) (ns : Bool) (ps pd : BitVec 3) (s : State) :
    Confined s (execLvote hd d mode ns ps pd s) := by
  unfold execLvote
  dsimp only
  split
  · exact confined_treeOp ..
  · exact confined_issue fun _ _ => confined_next ..

theorem confined_lscan (x : A1) (op : BitVec 4) (excl : Bool) (s : State) : Confined s (execLscan x op excl s) := confined_treeOp ..

theorem confined_lred (x : A1) (op : BitVec 4) (s : State) : Confined s (execLred x op s) := confined_treeOp ..

theorem confined_iaddc (x : A2) (cin cout : BitVec 3) (s : State) : Confined s (execIaddc x cin cout s) := by
  unfold execIaddc
  exact confined_issue fun _ _ => confined_next ..

theorem confined_isubb (x : A2) (cin cout : BitVec 3) (s : State) : Confined s (execIsubb x cin cout s) := by
  unfold execIsubb
  exact confined_issue fun _ _ => confined_next ..

theorem confined_pmovSet (hd : Hdr) (a : Operand) (ha : Bool) (s : State) : Confined s (execPmovSet hd a ha s) :=
  confined_issue fun _ _ => confined_next ..

theorem confined_cvtbx (hd : Hdr) (d a c : Operand) (rnd : BitVec 3) (bx4 : Bool) (sm : BitVec 2) (s : State) :
    Confined s (execCvtbx hd d a c rnd bx4 sm s) := by
  unfold execCvtbx
  exact confined_issue fun _ _ => confined_next ..

theorem confined_lfind (hd : Hdr) (d : Operand) (hi ns : Bool) (ps pd : BitVec 3) (s : State) :
    Confined s (execLfind hd d hi ns ps pd s) := by
  unfold execLfind
  exact confined_issue fun _ _ => confined_next ..

/-- An instruction without a header, or of a group from 7 on, is no word of groups 0 to 6. -/
theorem not_low {i : Instr} (h : (i.hdr?.isNone || decide (448 ≤ i.opcode)) = true) : ¬(i.hdr? ≠ none ∧ i.opcode < 448) := by
  rintro ⟨hhdr, hop⟩
  simp only [Bool.or_eq_true, Option.isNone_iff_eq_none, decide_eq_true_eq] at h
  exact h.elim hhdr (Nat.not_le.mpr hop)

/-- A word of groups 0 to 6 changes its thread alone (R50, R73): the words by the way in which they give their results. -/
theorem confined_exec (i : Instr) (s : State) (hhdr : i.hdr? ≠ none) (hop : i.opcode < 448) : Confined s (exec i s) := by
  cases i
  case iadd | isub | imul | imulhi | imad | imadw | imin | imax | iabs | ineg | isad | idot4 | lea | iadd64 | isub64 | isel | and |
    or | xor | andn | not | bool3 | shl | shr | sar | rotl | funnel | bfx | bfi | popc | clz | ctz | brev | byteperm | pmovGet | movi |
    movhi | iaddi | imuli | andi | ori | xori | shli | shri | sari | leai | fadd | fsub | fmul | ffma | fmin | fmax | fclass | add2h |
    mul2h | fma2h | max2h | add2b | mul2b | fma2b | max2b | cvt | unpkbx | frnd | mov =>
    exact confined_laneOp ..
  case frcp | frsq | fsqrt | fex2 | flg2 | fsin | fcos | dadd | dsub | dmul | dfma | dmin | dmax | drcp =>
    exact confined_laneOpLong ..
  case icmp | pset | icmpi | fcmp =>
    exact confined_predOp ..
  case dcmp => exact confined_predOpLong ..
  case lscan => exact confined_lscan ..
  case lred => exact confined_lred ..
  case iaddc => exact confined_iaddc ..
  case isubb => exact confined_isubb ..
  case pmovSet => exact confined_pmovSet ..
  case cvtbx => exact confined_cvtbx ..
  case lfind => exact confined_lfind ..
  case movk => exact confined_movk ..
  case lbcast => exact confined_lbcast ..
  case lvote => exact confined_lvote ..
  all_goals exact absurd ⟨hhdr, hop⟩ (not_low rfl)

/-! ### Control flow -/

/-- A thread with its sub-groups, its live lanes, its slots, its handler, its pending words and its status taken from another. -/
def Thread.flowed (a b : Thread) : Thread :=
  { a with grp := b.grp, rest := b.rest, live := b.live, slots := b.slots, handler := b.handler, log := b.log, pend := b.pend,
           issues := b.issues, status := b.status }

/-- Control flow leads from `a` to `b`. -/
structure Flows (a b : Thread) : Prop where
  eq_flowed : b = a.flowed b

theorem Flows.refl (a : Thread) : Flows a a := ⟨rfl⟩

theorem Flows.trans {a b c : Thread} (h : Flows a b) (h' : Flows b c) : Flows a c :=
  ⟨h'.eq_flowed.trans (congrArg (·.flowed c) h.eq_flowed)⟩

theorem Flows.foldl {α : Type} {f : Thread → α → Thread} (hf : ∀ a x, Flows a (f a x)) (l : List α) (a : Thread) :
    Flows a (l.foldl f a) := by
  induction l generalizing a with
  | nil => exact .refl a
  | cons x r ih => exact (hf a x).trans (ih _)

theorem Flows.ite {a b c : Thread} {p : Prop} [Decidable p] (h : Flows a b) (h' : Flows a c) : Flows a (if p then b else c) := by
  split
  · exact h
  · exact h'

theorem Flows.sameRegisters {a b : Thread} (h : Flows a b) : sameRegisters b a := by
  rw [h.eq_flowed]
  exact ⟨fun _ _ => rfl, fun _ => rfl, fun _ _ => rfl⟩

theorem Flows.sameSpecials {a b : Thread} (h : Flows a b) : sameSpecials b a := by
  rw [h.eq_flowed]
  exact ⟨rfl, rfl, rfl, rfl, rfl, rfl, rfl, rfl, rfl, rfl, rfl, rfl, rfl⟩

theorem advance_flows (th : Thread) : Flows th (advance th) := ⟨rfl⟩

theorem closeWindows_flows (th : Thread) (m : LaneMask) : Flows th (closeWindows th m) := ⟨rfl⟩

theorem atWord_flows (i : Instr) (th : Thread) : Flows th (atWord i th) := by
  unfold atWord
  split
  · exact closeWindows_flows ..
  · exact .refl th

theorem issued_flows (i : Instr) (uses : List (Role × Operand)) (preds : List (BitVec 3)) (hd : Hdr) (s : State) :
    Flows s.th (issued i uses preds hd s).th := by
  rw [issued_shape]
  exact ⟨rfl⟩

theorem branchTo_flows (th : Thread) (pc : Nat → DWord) : Flows th (branchTo th pc) := by
  unfold branchTo
  split
  · exact .refl th
  · exact ⟨rfl⟩

theorem gather_flows (th : Thread) (waits : Sub → Bool) (pc : DWord) (replay : Option LogWord) (fixed : Bool) :
    Flows th (gather th waits pc replay fixed) := by
  unfold gather
  dsimp only
  split
  · exact .refl th
  · exact ⟨rfl⟩

theorem setSlots_flows (th : Thread) (x : TMap Recon) : Flows th { th with slots := x } := ⟨rfl⟩

theorem setGrp_flows (th : Thread) (g : Sub) (rest : List Sub) : Flows th { th with grp := g, rest := rest } := ⟨rfl⟩

theorem setStatus_flows (th : Thread) (x : Status) : Flows th { th with status := x } := ⟨rfl⟩

theorem unexpect_flows (th : Thread) (j : Nat) (m : LaneMask) : Flows th (unexpect th j m) := setSlots_flows ..

theorem slotCheck_flows (th : Thread) (j : Nat) : Flows th (slotCheck th j) := by
  unfold slotCheck
  dsimp only
  split
  · exact (setSlots_flows ..).trans (gather_flows ..)
  · exact .refl th

theorem tidy_flows (th : Thread) : Flows th (tidy th) := by
  unfold tidy
  dsimp only
  split
  · split <;> exact ⟨rfl⟩
  · exact ⟨rfl⟩

theorem endHandler_flows (th : Thread) : Flows th { th with handler := none, log := [] } := ⟨rfl⟩

theorem handlerCheck_flows (th : Thread) : Flows th (handlerCheck th) := by
  unfold handlerCheck
  split
  · exact .refl th
  · dsimp only
    split
    · split
      · exact (endHandler_flows th).trans (gather_flows ..)
      · exact (endHandler_flows th).trans (gather_flows ..)
      · exact endHandler_flows th
    · exact .refl th

theorem passBroadcast_flows (th : Thread) : Flows th (passBroadcast th) := by
  unfold passBroadcast
  dsimp only
  split
  · exact .refl th
  · exact ⟨rfl⟩

theorem cutLanes_flows (th : Thread) (live : LaneMask) (g : Sub) (rest : List Sub) (pend : List Pend) :
    Flows th { th with live := live, grp := g, rest := rest, pend := pend } := ⟨rfl⟩

/-- The end of lanes is control flow (R109). -/
theorem endLanes_flows (th : Thread) (m : LaneMask) : Flows th (endLanes th m) := by
  unfold endLanes
  exact (cutLanes_flows ..).trans ((Flows.foldl (fun _ _ => unexpect_flows ..) _ _).trans
    ((Flows.foldl (fun _ _ => slotCheck_flows ..) _ _).trans ((handlerCheck_flows _).trans ((tidy_flows _).trans (passBroadcast_flows _)))))

/-- What the word answers with, if a state, is `s` but for control flow of its thread and steps that are due. -/
structure FlowsOn (s : State) (o : Out) : Prop where
  of_next (t : State) (h : o = .next t) : Flows s.th t.th ∧ t = { s with th := t.th, inputs := t.inputs }

theorem flowsOn_next {s t : State} (h : Flows s.th t.th) (ht : t = { s with th := t.th, inputs := t.inputs }) : FlowsOn s (.next t) :=
  ⟨fun u hu => by rw [← Host.Outcome.next.inj hu]; exact ⟨h, ht⟩⟩

theorem flowsOn_setTh {s : State} {th : Thread} (h : Flows s.th th) : FlowsOn s (.next (s.setTh th)) := flowsOn_next h rfl

theorem flowsOn_setInputs {s : State} {th : Thread} {l : List Instr} (h : Flows s.th th) :
    FlowsOn s (.next { s with th := th, inputs := l }) := flowsOn_next h rfl

/-- A word is control flow where its body is. -/
theorem flowsOn_issue {i : Instr} {uses : List (Role × Operand)} {preds : List (BitVec 3)} {hd : Hdr} {s : State}
    {body : LaneMask → State → Out} (h : ∀ act u, FlowsOn u (body act u)) : FlowsOn s (issue i uses preds hd s body) := by
  obtain heq | ⟨-, heq⟩ := issue_cases (i := i) (uses := uses) (preds := preds) (hd := hd) (s := s) body
  · rw [heq]
    exact flowsOn_setTh (atWord_flows ..)
  · refine ⟨fun t ht => ?_⟩
    obtain ⟨hth, hstate⟩ := (h _ _).of_next t (heq.symm.trans ht)
    exact ⟨(issued_flows ..).trans hth, hstate.trans rfl⟩

theorem flowsOn_nop (hd : Hdr) (s : State) : FlowsOn s (execNop hd s) := flowsOn_issue fun _ _ => flowsOn_setTh (advance_flows _)

theorem flowsOn_yield (hd : Hdr) (s : State) : FlowsOn s (execYield hd s) :=
  flowsOn_issue fun _ u => flowsOn_setTh (.ite (advance_flows u.th) ((advance_flows u.th).trans (setGrp_flows ..)))

theorem flowsOn_bra (hd : Hdr) (imm : BitVec 27) (s : State) : FlowsOn s (execBra hd imm s) :=
  flowsOn_issue fun _ _ => flowsOn_setTh (branchTo_flows ..)

theorem flowsOn_exit (hd : Hdr) (s : State) : FlowsOn s (execExit hd s) := by
  unfold execExit
  refine flowsOn_issue fun act u => flowsOn_setInputs ?_
  have hends : Flows u.th (endLanes (advance u.th) act) := (advance_flows u.th).trans (endLanes_flows ..)
  exact .ite (hends.trans (setStatus_flows ..)) hends

theorem flowsOn_rcb (hd : Hdr) (slot : BitVec 3) (imm : BitVec 27) (s : State) : FlowsOn s (execRcb hd slot imm s) := by
  unfold execRcb
  refine flowsOn_issue fun act u => ?_
  dsimp only
  split
  · exact flowsOn_setTh (advance_flows _)
  · refine flowsOn_setTh (Flows.trans ?_ (setSlots_flows ..))
    exact .ite ((advance_flows u.th).trans (gather_flows ..)) (advance_flows u.th)

theorem flowsOn_rcw (hd : Hdr) (slot : BitVec 3) (s : State) : FlowsOn s (execRcw hd slot s) := by
  unfold execRcw
  refine flowsOn_issue fun act u => ?_
  dsimp only
  split
  · exact flowsOn_setTh (advance_flows _)
  · refine flowsOn_setTh ((unexpect_flows u.th slot.toNat (u.th.grp.mask &&& ~~~act)).trans (Flows.trans ?_ (slotCheck_flows ..)))
    exact .ite (advance_flows _) (.ite (setGrp_flows ..) (setGrp_flows ..))

/-- Settles O11: the words of groups 0 to 6 are confined to their thread, and the six of control flow move sub-groups alone. -/
theorem controlFrame : Obligations.ControlFrame := by
  unfold Obligations.ControlFrame
  refine ⟨fun i s t hhdr hop => (confined_exec i s hhdr hop).eq_of_next t, fun i s t hi hexec => ?_⟩
  have hflows : FlowsOn s (exec i s) := by
    obtain ⟨hd, rfl | rfl | rfl⟩ | ⟨hd, imm, rfl⟩ | ⟨hd, slot, imm, rfl⟩ | ⟨hd, slot, rfl⟩ := hi
    · exact flowsOn_nop hd s
    · exact flowsOn_yield hd s
    · exact flowsOn_exit hd s
    · exact flowsOn_bra hd imm s
    · exact flowsOn_rcb hd slot imm s
    · exact flowsOn_rcw hd slot s
  obtain ⟨hth, heq⟩ := hflows.of_next t hexec
  refine ⟨?_, ?_, hth.sameRegisters, hth.sameSpecials⟩
  · rw [heq]
    exact ⟨rfl, rfl, rfl⟩
  · rw [heq]

end Sys2Proof.Machine
end

section
/-!
PROOF. MLOOP (R160): the state in which it has counted, where the sub-group goes on, and which of its words decode; then the statement.
-/

namespace Sys2Proof.Machine

/-! ### Counting down -/

/-- The state in which MLOOP has issued and has counted its register down. -/
def loopCounted (hd : Hdr) (n : BitVec 7) (off : BitVec 18) (s : State) : State :=
  let t := issued (.mloop hd (.k n) off) [] [] hd s
  t.setTh (t.th.wrK n.toNat (t.th.rdK n.toNat - 1) (t.th.markK n.toNat))

/-- The sub-group stands at the target of an MLOOP. -/
def loopedBack (off : BitVec 18) (s : State) : State :=
  s.setTh { s.th with
    issues := s.th.issues + 1, grp := { s.th.grp with pc := s.th.grp.pc + BitVec.ofInt 64 (off.toInt * 8), replay := none, fixed := false } }

section
variable {hd : Hdr} {n : BitVec 7} {off : BitVec 18} {s : State}

@[simp] theorem issued_rdK {i : Instr} {uses : List (Role × Operand)} {preds : List (BitVec 3)} (m : Nat) :
    (issued i uses preds hd s).th.rdK m = s.th.rdK m := by
  rw [issued_shape]
  rfl

/-- Counting changes the register and its mark, and what is pending, alone. -/
theorem loopCounted_shape : loopCounted hd n off s = s.setTh { s.th with
    k := tset 0 s.th.k n.toNat (s.th.rdK n.toNat - 1), kMark := (loopCounted hd n off s).th.kMark, pend := (loopCounted hd n off s).th.pend } := by
  have hkeeps : loopCounted hd n off s = s.setTh (loopCounted hd n off s).th := rfl
  rw [hkeeps]
  unfold loopCounted
  dsimp only [State.setTh_th]
  rw [issued_shape]
  rfl

theorem loopCounted_rdK (m : Nat) :
    (loopCounted hd n off s).th.rdK m = if m = n.toNat then s.th.rdK n.toNat - 1 else s.th.rdK m := by
  rw [loopCounted_shape]
  exact tget_tset 0 s.th.k n.toNat m _

@[simp] theorem loopCounted_grp : (loopCounted hd n off s).th.grp = s.th.grp := by
  rw [loopCounted_shape]
  rfl

theorem loopCounted_sameSpecials : sameSpecials (loopCounted hd n off s).th s.th := by
  rw [loopCounted_shape]
  exact sameSpecials_refl s.th

/-- An MLOOP whose lanes take part counts, and goes back while the new value is not 0 (R160). -/
theorem exec_mloop_now (h : issuesNow (.mloop hd (.k n) off) [] hd s = true) (hact : partaking (.mloop hd (.k n) off) hd s ≠ 0) :
    exec (.mloop hd (.k n) off) s = .next (
      if (issued (.mloop hd (.k n) off) [] [] hd s).th.rdK n.toNat - 1 = 0 then onward (loopCounted hd n off s)
      else loopedBack off (loopCounted hd n off s)) := by
  rw [exec_mloop, execMloop, issue_now h]
  dsimp only
  rw [if_neg hact]
  split <;> rfl

end

/-! ### Words -/

/-- A field below 256 names a per-lane register (R49). -/
theorem dec_perLane {d : BitVec 9} (h : d.toNat < 256) : ∃ n, Operand.dec d = .v n := by
  have h8 : d.getLsbD 8 = false := by
    rw [BitVec.getLsbD, Nat.testBit_eq_decide_div_mod_eq]
    exact decide_eq_false (by omega)
  exact ⟨_, if_neg (by rw [h8]; decide)⟩

/-- A field from 256 on and below 384 names a uniform register (R49). -/
theorem dec_uniform {d : BitVec 9} (h : 256 ≤ d.toNat) (h' : d.toNat < 384) : Operand.dec d = .k (d.setWidth 7) := by
  have h8 : d.getLsbD 8 = true := by
    rw [BitVec.getLsbD, Nat.testBit_eq_decide_div_mod_eq]
    exact decide_eq_true (by omega)
  have h7 : d.getLsbD 7 = false := by
    rw [BitVec.getLsbD, Nat.testBit_eq_decide_div_mod_eq]
    exact decide_eq_false (by omega)
  rw [Operand.dec, if_pos h8, if_neg (by rw [h7]; decide), BitVec.setWidth_eq_extractLsb' (by decide)]

/-- A field from 384 on names a special register or a constant (R49). -/
theorem dec_special {d : BitVec 9} (h : 384 ≤ d.toNat) : ∃ n, Operand.dec d = .s n ∨ Operand.dec d = .c n := by
  have h8 : d.getLsbD 8 = true := by
    rw [BitVec.getLsbD, Nat.testBit_eq_decide_div_mod_eq]
    exact decide_eq_true (by omega)
  have h7 : d.getLsbD 7 = true := by
    rw [BitVec.getLsbD, Nat.testBit_eq_decide_div_mod_eq]
    exact decide_eq_true (by omega)
  rw [Operand.dec, if_pos h8, if_pos h7]
  split
  · exact ⟨_, .inr rfl⟩
  · exact ⟨_, .inl rfl⟩

/-- MLOOP takes a uniform register alone (R160). -/
theorem operandsOk_mloop (hd : Hdr) (d : BitVec 9) (off : BitVec 18) (nr : Nat) :
    (Instr.mloop hd (.dec d) off).operandsOk .matrix nr = decide (256 ≤ d.toNat ∧ d.toNat < 384) := by
  by_cases hlow : d.toNat < 256
  · obtain ⟨n, hn⟩ := dec_perLane hlow
    rw [hn, decide_eq_false (by omega)]
    rfl
  · by_cases hhigh : 384 ≤ d.toNat
    · obtain ⟨n, hn | hn⟩ := dec_special hhigh <;>
      · rw [hn, decide_eq_false (by omega)]
        rfl
    · rw [dec_uniform (by omega) (by omega), decide_eq_true (by omega)]
      have hall : (Instr.mloop hd (.k (d.setWidth 7)) off).operandsOk .matrix nr = (((d.setWidth 7).toNat % 1 == 0 && true) && true) := rfl
      rw [hall, Nat.mod_one]
      rfl

/-- What the matrix sequencer decodes from a word of MLOOP, or the first reason of R64 that it meets. -/
theorem decodeFull_mloop (nr : Nat) (hd : Hdr) (d : BitVec 9) (off : BitVec 18) :
    decodeFull .matrix nr (encFull 712 hd d 0 0 off) =
      if !(Instr.mloop hd (.dec d) off).operandsOk .matrix nr then .error .operand
      else if hd.guard == 7 && hd.neg then .error .guard
      else if hd.la != 0 then .error .lookahead
      else .ok (.mloop hd (.dec d) off) := by
  have hgroup : ((BitVec.ofNat 10 712).extractLsb' 6 4).toNat = 11 := op_hi 712 (by decide)
  have hposition : ((BitVec.ofNat 10 712).extractLsb' 0 6).toNat = 8 := op_lo 712 (by decide)
  have hruns : (!engineRunsGroup .matrix 11 || (decide (8 < groupSize 11) && !engineRuns .matrix 11 8)) = false := by decide
  have hparse : (⟨BitVec.ofNat 10 712, hd.la, hd.guard, hd.neg, d, 0, 0, off⟩ : Raw).parse = some ⟨false, false, .mloop hd (.dec d) off⟩ := by
    refine (parse_at ⟨BitVec.ofNat 10 712, hd.la, hd.guard, hd.neg, d, 0, 0, off⟩ 11 8 hgroup hposition).trans ?_
    show some (Parsed.mk _ _ (.mloop _ _ (off.extractLsb' 0 18))) = _
    rw [extract_all]
    rfl
  have hhints : (Instr.mloop hd (.dec d) off).hintsOk = true := rfl
  have hfields : (Instr.mloop hd (.dec d) off).fieldsOk = true := rfl
  have hcodes : (Instr.mloop hd (.dec d) off).codesOk .matrix = true := rfl
  have hshort : (Instr.mloop hd (.dec d) off).longLatency = false := by
    unfold Instr.longLatency
    rw [show (Instr.mloop hd (.dec d) off).opcode = 712 from rfl]
    decide
  unfold decodeFull encFull
  rw [unpack_pack]
  dsimp only
  rw [hgroup, hposition, hruns, hparse]
  simp only [hhints, hfields, hcodes, hshort, Bool.not_true, Bool.not_false, Bool.or_self, Bool.and_true, Bool.false_eq_true, if_false]

/-- A full-form word decodes as one (R48). -/
theorem decode_encFull_eq (e : Engine) (n op : Nat) (hd : Hdr) (d a b : BitVec 9) (f : BitVec 18) :
    decode e n (encFull op hd d a b f) = match decodeFull e n (encFull op hd d a b f) with
      | .ok i => .ok i
      | .error r => .error ⟨encFull op hd d a b f, r, false⟩ := by
  have h63 : (encFull op hd d a b f).getLsbD 63 = false := by
    unfold encFull Raw.pack
    simp (disch := omega) only [bit_hi]
    rfl
  exact if_neg (by rw [h63]; decide)

section
variable {hd : Hdr} {d : BitVec 9} {off : BitVec 18} (nr : Nat)

theorem decode_mloop_operand (h : d.toNat < 256 ∨ 384 ≤ d.toNat) :
    decode .matrix nr (encFull 712 hd d 0 0 off) = .error ⟨encFull 712 hd d 0 0 off, .operand, false⟩ := by
  rw [decode_encFull_eq, decodeFull_mloop, operandsOk_mloop, decide_eq_false (by omega)]
  rfl

/-- A word of MLOOP with a uniform register and a guard that is no refused one decodes where L is 0 (R160). -/
theorem decode_mloop_uniform (hlow : 256 ≤ d.toNat) (hhigh : d.toNat < 384) (hguard : (hd.guard == 7 && hd.neg) = false) :
    decode .matrix nr (encFull 712 hd d 0 0 off) =
      if hd.la = 0 then .ok (.mloop hd (.k (d.setWidth 7)) off) else .error ⟨encFull 712 hd d 0 0 off, .lookahead, false⟩ := by
  rw [decode_encFull_eq, decodeFull_mloop, operandsOk_mloop, decide_eq_true ⟨hlow, hhigh⟩, hguard, dec_uniform hlow hhigh]
  by_cases hla : hd.la = 0
  · rw [if_pos hla, hla]
    rfl
  · rw [if_neg hla, if_neg (by decide), if_neg (by decide), if_pos (by simpa using hla)]

end

/-- The word of an MLOOP as the fields of R48 give it. -/
theorem encFull_mloop (la : BitVec 4) (guard : BitVec 3) (neg : BitVec 1) (d : BitVec 9) (off : BitVec 18) :
    (0#1 ++ 0x2c8#10 ++ la ++ guard ++ neg ++ d ++ 0#9 ++ 0#9 ++ off : DWord) = encFull 712 ⟨la, guard, neg == 1⟩ d 0 0 off := by
  have hneg : BitVec.ofBool (neg == 1) = neg := by
    revert neg
    decide
  unfold encFull Raw.pack
  dsimp only
  rw [hneg]
  rfl

theorem endsWindow_mloop (hd : Hdr) (d : Operand) (off : BitVec 18) : endsWindow (.mloop hd d off) = true := by
  unfold endsWindow
  rw [show (Instr.mloop hd d off).opcode = 712 from rfl]
  decide

/-! ### The statement -/

/-- Settles O13: the counting by the state in which the register has been counted down, the words by the checks of R64 in their order. -/
theorem mloopCountsDown : Obligations.MloopCountsDown := by
  refine ⟨?counts, ?words, endsWindow_mloop⟩
  case counts =>
    intro hd n off s i hissue hact
    have hself : (loopCounted hd n off s).th.rdK n.toNat = s.th.rdK n.toNat - 1 := by rw [loopCounted_rdK, if_pos rfl]
    have hother (m : Nat) (hm : m ≠ n.toNat) : (loopCounted hd n off s).th.rdK m = s.th.rdK m := by rw [loopCounted_rdK, if_neg hm]
    have hgrp : (loopCounted hd n off s).th.grp = s.th.grp := loopCounted_grp
    have hmem : sameMemory (loopCounted hd n off s) s := ⟨rfl, rfl, rfl⟩
    have hwg : (loopCounted hd n off s).wg = s.wg := rfl
    have hspecials : sameSpecials (loopCounted hd n off s).th s.th := loopCounted_sameSpecials
    have hexec := exec_mloop_now hissue hact
    rw [issued_rdK] at hexec
    generalize loopCounted hd n off s = u at hself hother hgrp hmem hwg hspecials hexec
    have hmask : u.th.grp.mask = s.th.grp.mask := by rw [hgrp]
    have hnext : nextPc u.th.grp = nextPc s.th.grp := by rw [hgrp]
    have hback : u.th.grp.pc + BitVec.ofInt 64 (off.toInt * 8) = s.th.grp.pc + BitVec.ofInt 64 (off.toInt * 8) := by rw [hgrp]
    by_cases hlast : s.th.rdK n.toNat = 1
    · rw [if_pos (sub_eq_zero.2 hlast)] at hexec
      exact ⟨_, hexec, hself, hmask, fun _ => hnext, fun h => absurd hlast h, hother, hmem, hwg, hspecials⟩
    · rw [if_neg fun h => hlast (sub_eq_zero.1 h)] at hexec
      exact ⟨_, hexec, hself, hmask, fun h => absurd h hlast, fun _ => hback, hother, hmem, hwg, hspecials⟩
  case words =>
    intro nr la guard neg d off w
    have hw : w = encFull 712 ⟨la, guard, neg == 1⟩ d 0 0 off := encFull_mloop la guard neg d off
    rw [hw]
    refine ⟨decode_mloop_operand nr, fun hlow hhigh hguard => ?_⟩
    have hfree : (guard == 7 && neg == 1) = false := by simpa using hguard
    rw [decode_mloop_uniform nr hlow hhigh hfree]
    refine ⟨fun hla => if_neg hla, ?_⟩
    rintro rfl
    exact if_pos rfl

end Sys2Proof.Machine
end

section
/-!
PROOF. Work lists (R172, R337): what a change of a context shows, that translating and writing for the front end change no context, and what
a push, a pop and a lane that finds no room do to the lists; then the statement.
-/

namespace Sys2Proof.Machine

/-! ### What keeps the contexts -/

/-- The contexts of the package are the same, the current one among them. -/
structure KeepsContexts (s t : State) : Prop where
  cx_eq : t.cx = s.cx
  cxs_eq : t.cxs = s.cxs

theorem KeepsContexts.refl (s : State) : KeepsContexts s s := ⟨rfl, rfl⟩

theorem KeepsContexts.trans {s t u : State} (h : KeepsContexts s t) (h' : KeepsContexts t u) : KeepsContexts s u :=
  ⟨h'.cx_eq.trans h.cx_eq, h'.cxs_eq.trans h.cxs_eq⟩

theorem KeepsContexts.ite {s t u : State} {c : Prop} [Decidable c] (h : KeepsContexts s t) (h' : KeepsContexts s u) :
    KeepsContexts s (if c then t else u) := by
  split
  · exact h
  · exact h'

theorem KeepsContexts.getCx_eq {s t : State} (h : KeepsContexts s t) (c : Nat) : getCx t c = getCx s c := by
  rw [getCx, getCx, h.cx_eq, h.cxs_eq]

theorem Serves.keepsContexts {s t : State} (h : Serves s t) : KeepsContexts s t :=
  ⟨(congrArg State.cx h.eq_served).trans rfl, (congrArg State.cxs h.eq_served).trans rfl⟩

theorem memApply_keepsContexts (s : State) (key : Nat) (x : MemWrite) : KeepsContexts s (memApply s key x) :=
  ⟨(congrArg State.cx (memApply_stored s key x)).trans rfl, (congrArg State.cxs (memApply_stored s key x)).trans rfl⟩

theorem homeWrite_keepsContexts (s : State) (pa key : Nat) (data : List Byte) (mark : Bool) (pkg die : Nat) :
    KeepsContexts s (homeWrite s pa key data mark pkg die) :=
  (memApply_keepsContexts ..).trans (homePerform_serves s key (.one pa data mark) pkg die die).keepsContexts

theorem cacheWalk_keepsContexts (s : State) (ix asid : Nat) (ptrs : List (Nat × Nat)) : KeepsContexts s (cacheWalk s ix asid ptrs) := by
  unfold cacheWalk
  split <;> exact ⟨rfl, rfl⟩

theorem walk_keepsContexts (s : State) (ix asid va : Nat) (p : Purpose) : KeepsContexts s (walk s ix asid va p).2 := by
  have hread (known cached ptrs : List (Nat × Nat)) (die : Nat) : KeepsContexts s (noteWalk (cacheWalk s ix asid cached) die known ptrs) :=
    (cacheWalk_keepsContexts ..).trans (noteWalk_serves ..).keepsContexts
  have htlbs {t : State} (h : KeepsContexts s t) (x : TMap (List TlbEntry)) : KeepsContexts s { t with tlbs := x } := ⟨h.cx_eq, h.cxs_eq⟩
  unfold walk
  dsimp only
  split
  · exact hread ..
  · split
    · exact hread ..
    · exact htlbs ((hread ..).ite ((hread ..).trans (homeWrite_keepsContexts ..))) _

theorem frontWalk_keepsContexts (s : State) (asid va : Nat) (k : Access) : KeepsContexts s (frontWalk s asid va k).2 := by
  have hwalk := walk_keepsContexts s 500 asid va ⟨k, false, none, false⟩
  unfold frontWalk
  split
  · exact .refl s
  · split <;> next heq =>
      rw [heq] at hwalk
      exact ⟨hwalk.cx_eq, hwalk.cxs_eq⟩

theorem frontWrite_keepsContexts (s : State) (pa key : Nat) (data : List Byte) : KeepsContexts s (frontWrite s pa key data).2 := by
  unfold frontWrite
  split
  · exact (drainDie_serves ..).keepsContexts.trans (homeWrite_keepsContexts ..)
  · exact ((rdcDrop_serves s 0 pa).trans ((newTag_serves _).trans (sendFrom_serves ..))).keepsContexts

theorem frontPost_keepsContexts (s : State) (asid pa key : Nat) (data : List Byte) : KeepsContexts s (frontPost s asid pa key data) := by
  have hwrite := frontWrite_keepsContexts s pa key data
  unfold frontPost
  split <;> next heq =>
    rw [heq] at hwrite
    exact ⟨hwrite.cx_eq, hwrite.cxs_eq⟩

/-! ### Contexts -/

/-- A context that has been changed is found as it was changed. -/
theorem getCx_putCx_self {s : State} {x y : Context} (hfound : getCx s x.ctx = some x) (hctx : y.ctx = x.ctx) (hlive : y.live = x.live) :
    getCx (putCx s y) x.ctx = some y := by
  unfold getCx at hfound
  unfold putCx getCx
  rw [hctx]
  split at hfound
  · next hcur =>
    obtain rfl := Option.some.inj hfound
    rw [if_pos hcur]
    exact if_pos (by rw [hlive, hctx]; exact hcur)
  · next hcur =>
    rw [if_neg hcur]
    refine (if_neg hcur).trans ?_
    have hmap : (fun z : Context => z.ctx == x.ctx) ∘ (fun z => if z.ctx == x.ctx then y else z) = fun z => z.ctx == x.ctx := by
      funext z
      simp only [Function.comp_apply]
      split <;> simp_all
    rw [List.find?_map, hmap, hfound]
    simp

/-! ### Lists -/

@[simp] theorem list_setList_self (x : Context) (n : Nat) (l : WorkList) : (x.setList n l).list n = l := tget_tset_self _ x.lists n l

theorem list_setList_ne (x : Context) {n m : Nat} (l : WorkList) (h : m ≠ n) : (x.setList n l).list m = x.list m :=
  tget_tset_ne _ x.lists n m l h

/-- A record that reaches the home of its list goes behind the others, and its bytes to the ring change no context (R172, R337). -/
theorem homePush_keepsContexts {s : State} {c : Nat} {x : Context} (h : getCx s c = some x) (n r : Nat) :
    KeepsContexts (putCx s (x.setList n { x.list n with recs := (x.list n).recs ++ [r] })) (homePush s c n r) := by
  unfold homePush
  simp only [h]
  have hwalk := frontWalk_keepsContexts (putCx s (x.setList n { x.list n with recs := (x.list n).recs ++ [r] })) x.asid
    (ringVa x n ((x.list n).taken + (x.list n).recs.length)) .store
  split
  · exact .refl _
  · next heq =>
    rw [heq] at hwalk
    exact hwalk.ite (hwalk.trans (frontPost_keepsContexts ..))

theorem popOne_nil {s : State} {n : Nat} (h : (s.cx.list n).recs = []) : popOne s n = (none, s) := by
  simp only [popOne, h]

theorem popOne_cons {s : State} {n r : Nat} {rs : List Nat} (h : (s.cx.list n).recs = r :: rs) :
    popOne s n = (some (ringRecord s s.cx n r), { s with cx := s.cx.setList n ⟨(s.cx.list n).taken + 1, rs⟩ }) := by
  simp only [popOne, h]

/-- A lane whose list has no room waits, and another one pushes its record (R172, R337). -/
theorem splitPush_singleton (room : Nat → Nat) (y : LogLane) :
    splitPush room [y] = if room y.addr.toNat = 0 then ([], [y]) else ([y], []) := rfl

/-! ### The statement -/

/-- Settles O41, list by list. That the list of the context holds a record that the ring has no translation for is log entry 45. -/
theorem workListsAreQueues : Obligations.WorkListsAreQueues := by
  refine ⟨?push, fun s n => popOne_nil, ?pop, fun s y => splitPush_singleton _ y⟩
  case push =>
    rintro s c n r x hfound rfl
    refine ⟨_, ((homePush_keepsContexts hfound n r).getCx_eq x.ctx).trans (getCx_putCx_self hfound rfl rfl), ?_, ?_, ?_⟩
    · rw [list_setList_self]
    · rw [list_setList_self]
    · exact fun m hm => list_setList_ne x _ hm
  case pop =>
    intro s n r rs hrecs
    rw [popOne_cons hrecs]
    refine ⟨rfl, ?_, ?_, ?_⟩
    · rw [list_setList_self]
    · rw [list_setList_self]
    · exact fun m hm => list_setList_ne s.cx _ hm

end Sys2Proof.Machine
end

section
/-!
PROOF. The words of groups 10 to 12 that issue and go on (R131 to R174): the path of such a word, of a wait, of a copy command and of a matrix
operation; then the statements about chunk maps, timeline counters and barriers.
-/

namespace Sys2Proof.Machine

/-! ### Paths of words -/

section
variable {i : Instr} {uses : List (Role × Operand)} {preds : List (BitVec 3)} {hd : Hdr}

/-- A word works that issues and whose body, with a lane that takes part and where `ok` holds, goes on behind the state that `f` gives. -/
theorem works_of_issue {ok : LaneMask → State → Prop} {f : LaneMask → State → State} {body : State → LaneMask → State → Out}
    (hexec : ∀ s, exec i s = issue i uses preds hd s (body s))
    (hbody : ∀ s act t, act ≠ 0 → ok act t → body s act t = .next (onward (f act t))) : Works i uses preds hd ok f := by
  intro s hissue hact hok
  rw [hexec, issue_now hissue]
  exact hbody s _ _ hact hok

/-- A word that waits is done where its condition holds, and else goes on with a wait open (R61). -/
theorem waitWord_of_exec {w : State → LaneMask → Wait} {done : State → Wait → Option State}
    (hexec : ∀ s, exec i s = waitWord i hd w done s) : WaitWord i hd w done := by
  refine works_of_issue hexec fun _ act t hact _ => ?_
  rw [if_neg hact]
  dsimp only
  cases done (t.setTh (noteWord t.th i act)) (w (t.setTh (noteWord t.th i act)) act) <;> rfl

end

/-! ### Chunk maps and timeline counters -/

/-- Settles O36. That SEQEND opens its wait with no lookahead is log entry 25. -/
theorem completionWordsComplete : Obligations.CompletionWordsComplete := by
  refine ⟨?init, ?test, fun hd slot a b scope => waitWord_of_exec (exec_cmwait hd slot a b scope),
    fun hd tl a scope => waitWord_of_exec (exec_tlwait hd tl a scope), ?read, ?finish⟩
  case init =>
    intro hd slot a b i
    refine works_of_issue (exec_cminit hd slot a b) fun s act t hact hok => ?_
    rw [if_neg hact]
    simp only [hok]
    rfl
  case test =>
    intro hd d slot a b scope i s hissue hact _
    rw [exec_cmtest, execCmtest, issue_now hissue]
    simp only [bne_iff_ne.2 hact, Bool.true_and]
    rfl
  case read =>
    intro hd d tl sel clr i
    refine works_of_issue (exec_tlread hd d tl sel clr) fun s act t hact _ => ?_
    simp only [bne_iff_ne.2 hact, Bool.and_true]
    rfl
  case finish =>
    intro hd s t u hissue hact
    rw [exec_seqend, execSeqend, issue_now hissue]
    dsimp only
    rw [if_neg hact]
    exact ⟨fun hdone => if_pos hdone, fun hdone => if_neg (ne_true_of_eq_false hdone)⟩

/-! ### Barriers -/

/-- A FORK takes its sequencers, `r`, or joins the FORK words that wait for them (R168), and goes on. -/
theorem next_onward_of_fork (hd : Hdr) (t : State) (w : Wait) (r : Option State) :
    (match r with
      | some u => Host.Outcome.next (u.setTh (advance u.th))
      | none =>
        let u := { t with wg := { t.wg with forkq := t.wg.forkq ++ [(t.th.agent.troupeNo, lowLane t.th.grp.mask)] } }
        .next (u.setTh (advance (openWait hd w u.th))) : Out) =
      .next (onward (match r with
        | some u => u
        | none =>
          { t with wg := { t.wg with forkq := t.wg.forkq ++ [(t.th.agent.troupeNo, lowLane t.th.grp.mask)] } }.setTh (openWait hd w t.th))) := by
  cases r <;> rfl

/-- Settles O38. That the matrix sequencer's BARRIVE gives the PHASE at issue is log entry 51. -/
theorem barrierWordsComplete : Obligations.BarrierWordsComplete := by
  refine ⟨?fork, fun hd => waitWord_of_exec (exec_rdv hd), ?barinit, ?barrive, fun hd bar a => waitWord_of_exec (exec_barwait hd bar a),
    ?barstat, ?arrivals⟩
  case fork =>
    intro hd a b i at_
    refine works_of_issue (exec_fork hd a b) fun s act t hact hok => ?_
    rw [if_neg hact]
    refine (if_neg fun h => h.elim (absurd hok.1) (absurd hok.2)).trans ?_
    exact next_onward_of_fork hd _ _ _
  case barinit =>
    intro hd bar a i
    exact works_of_issue (exec_barinit hd bar a) fun s act t hact _ => if_neg hact
  case barrive =>
    intro hd d bar i
    refine works_of_issue (exec_barrive hd d bar) fun s act t hact _ => ?_
    rw [if_neg hact]
    cases hagent : t.th.agent <;> simp only <;> rfl
  case barstat =>
    intro hd d bar sel i
    exact works_of_issue (exec_barstat hd d bar sel) fun s act t hact _ => rfl
  case arrivals =>
    intro b st
    refine ⟨fun h => if_pos h, fun h hlast => ?_, fun h hlast => ?_⟩
    · rw [Bar.arrive, if_neg h, if_pos hlast]
      exact ⟨rfl, rfl, rfl, rfl, rfl⟩
    · rw [Bar.arrive, if_neg h, if_neg hlast]
      exact ⟨rfl, rfl, rfl, rfl, rfl⟩

end Sys2Proof.Machine
end

section
/-!
PROOF. Commands that join a queue with pool entries (R131, R132): matrix operations and copy commands.
-/

namespace Sys2Proof.Machine

/-! ### Matrix operations -/

/-- A word that asks the pool for its entries joins its queue where the pool has them (R131). -/
theorem matWord_of_exec {i : Instr} {hd : Hdr} {entries : Nat} {mk : State → LaneMask → MatOp}
    (hexec : ∀ s, exec i s = issueMat i hd entries mk s) : MatWord i hd entries mk := by
  intro s u t hissue hact hpool
  rw [hexec, issueMat, issue_now hissue, if_neg hact, hpool]

/-- Settles O37. MLOOP's part is `exec_mloop_now`, which also serves O13. -/
theorem matrixWordsComplete : Obligations.MatrixWordsComplete := by
  refine ⟨fun x => matWord_of_exec (exec_mldw x), fun x => matWord_of_exec (exec_mldt x),
    fun x tile => matWord_of_exec (exec_mldtAcc x tile), fun hd bar arr => matWord_of_exec (exec_mswap hd bar arr),
    fun x tile clr => matWord_of_exec (exec_mstrm x tile clr), fun hd mask bar arr => matWord_of_exec (exec_maclr hd mask bar arr),
    fun x tile => matWord_of_exec (exec_macld x tile), fun x tile => matWord_of_exec (exec_macst x tile),
    fun hd a => matWord_of_exec (exec_mvcnt hd a), fun hd fmt => matWord_of_exec (exec_mmode hd fmt), ?mloop⟩
  case mloop =>
    intro hd n off s i t x u hissue hact
    rw [exec_mloop_now hissue hact]
    refine ⟨fun hx => ?_, fun hx => ?_⟩
    · rw [if_pos hx]
      rfl
    · rw [if_neg hx]
      rfl

/-! ### Copy commands -/

/-- A copy command joins where its counter is not full and the pool has its entries (R131, R132, R148). -/
theorem acceptCopy_of_room {s0 s u : State} {tl entries : Nat} (mk : Nat → Nat → CopyCmd) (hfull : (s.wg.tl tl).full = false)
    (hpool : poolAsk s 0 entries = some u) : acceptCopy s0 s tl entries mk = .next (joinCopy u tl mk) := by
  rw [acceptCopy, if_neg (ne_true_of_eq_false hfull), hpool]

/-- A tile command joins the copy queue (R131, R141). -/
theorem copyWord_of_exec {i : Instr} {hd : Hdr} {kind : CopyKind} {out : Bool} {tl : BitVec 3} {h : BitVec 8} {a : Operand}
    (hexec : ∀ s, exec i s = issueTile i hd kind out tl h a s) : CopyWord i hd kind out tl h a := by
  intro s u t hissue hact hfull hpool
  rw [hexec, issueTile, issue_now hissue]
  dsimp only
  rw [if_neg hact]
  exact acceptCopy_of_room _ hfull hpool

/-- Checks that all pass report nothing. -/
theorem worstOf_eq_none {rs : List (LogLane × Except Refused Place × DWord)} (h : ∀ r ∈ rs, ∃ p, r.2.1 = .ok p) : worstOf rs = none := by
  induction rs with
  | nil => rfl
  | cons r rs ih =>
    obtain ⟨x, e, va⟩ := r
    obtain ⟨p, rfl⟩ : ∃ p, e = .ok p := h _ List.mem_cons_self
    exact ih fun r hr => h r (List.mem_cons_of_mem _ hr)

/-- A check without a fault passes. -/
theorem checked_of_none {x : LogLane} {va : DWord} {e : Option Refused} (h : e = none) : ∃ p, (checked x va e).2.1 = .ok p := by
  subst h
  exact ⟨_, rfl⟩

/-- The checks of CPY report nothing where neither address of a lane faults (R139). -/
theorem cpy_checks_pass {s : State} {w : Nat} {d a : Operand} {ls : List LogLane}
    (h : ∀ x ∈ ls, cpyFault s w d x.addr = none ∧ cpyFault s w a x.a = none) :
    worstOf (ls.flatMap fun x => [checked x x.addr (cpyFault s w d x.addr), checked x x.a (cpyFault s w a x.a)]) = none := by
  refine worstOf_eq_none fun r hr => ?_
  obtain ⟨x, hx, hmem⟩ := List.mem_flatMap.1 hr
  obtain ⟨hd, ha⟩ := h x hx
  rcases List.mem_pair.1 hmem with rfl | rfl
  · exact checked_of_none hd
  · exact checked_of_none ha

/-- The command that joins takes the next ticket of its counter (R148). -/
theorem joinCopy_tl (s : State) (tl : Nat) (mk : Nat → Nat → CopyCmd) :
    (joinCopy s tl mk).wg.tl tl = { s.wg.tl tl with issued := (s.wg.tl tl).issued + 1 } :=
  tget_tset_self _ _ _ _

/-- Settles O35. -/
theorem copyCommandsComplete : Obligations.CopyCommandsComplete := by
  refine ⟨⟨fun x => copyWord_of_exec (exec_cpyt x), fun hd tl h a dir op => copyWord_of_exec (exec_cpyr hd tl h a dir op),
    fun x => copyWord_of_exec (exec_cpyn x), fun x => copyWord_of_exec (exec_cpyg x), ?cpy⟩, ?joins⟩
  case cpy =>
    intro hd tl d a width s u i t ls t' n hissue hact hthrottle hchecks hfull hpool
    rw [exec_cpy, execCpy, issue_now hissue]
    dsimp only
    rw [if_neg (by simp [hthrottle]), if_neg hact]
    have hnone := cpy_checks_pass hchecks
    split
    · next hsome => exact absurd (hnone.symm.trans hsome) (Option.some_ne_none _).symm
    · exact acceptCopy_of_room _ hfull hpool
  case joins =>
    intro s tl mk n
    rw [joinCopy_tl]
    exact ⟨rfl, rfl, congrArg CoreSt.copyq (State.core_setCore _ _ _), rfl, rfl, rfl⟩

end Sys2Proof.Machine
end

section
/-!
PROOF. Work distribution and tensor handles (R134, R170 to R174).
-/

namespace Sys2Proof.Machine

/-- A WPUSH whose records all find room and cache entries leaves nothing behind (R172, R337). -/
theorem pushRecords_of_room {i : Instr} {hd : Hdr} {ls : List LogLane} {s0 t u : State} (hroom : splitPush (listRoom t t.cx) ls = (ls, []))
    (hcache : cachePush t 32 ls = (u, [])) :
    pushRecords i hd ls s0 t =
      let v := setOpen u u.cx (u.cx.open_ + ls.length)
      onward (v.setTh (if ls.any fun x => x.dataMark then v.th.raiseErr 4 else v.th)) := by
  have hleft : (ls.filter fun _ => false) = [] := List.filter_false ls
  simp only [pushRecords, hroom, hcache, List.append_nil, List.any_nil, hleft, List.length_nil, Nat.sub_zero, List.isEmpty_nil, if_true]
  rfl

/-- The release of a WPUSH waits for nothing where no store is out, or no record is pushed (R172). -/
theorem release_ready {b : Bool} {ls : List LogLane} (h : b = false ∨ ls = []) : ¬(b && !ls.isEmpty) = true := by
  rcases h with rfl | rfl
  · exact Bool.false_ne_true
  · simp

/-- Settles O40. -/
theorem workWordsComplete : Obligations.WorkWordsComplete := by
  refine ⟨?fetch, ?push, ?pop, fun hd a s h => (exec_wdone hd a s).trans (memWord_now h _), ?handle,
    fun hd h a s hready => (exec_thget hd h a s).trans (memWord_now hready _), ?cwait⟩
  case fetch =>
    intro hd d disp i
    refine works_of_issue (exec_tfetch hd d disp) fun s act t hact _ => ?_
    rw [if_neg hact]
    rfl
  case push =>
    intro hd d a s i t ls hissue hlists hrelease
    have hexec : exec i s = .next (pushRecords i hd ls s t) := by
      rw [exec_wpush, execWpush, issue_now hissue]
      have hnone : (ls.find? fun x => listBad t.cx x.addr.toNat) = none :=
        List.find?_eq_none.2 fun x hx => ne_true_of_eq_false (hlists x hx)
      dsimp only
      rw [hnone]
      exact if_neg (release_ready hrelease)
    refine ⟨hexec, fun u hroom hcache => ?_⟩
    rw [hexec, pushRecords_of_room hroom hcache]
  case pop =>
    intro hd d a p s i t ls u hissue hlists
    rw [exec_wpop, execWpop, issue_now hissue]
    have hnone : (ls.find? fun x => listBad u.cx x.2) = none :=
      List.find?_eq_none.2 fun x hx => ne_true_of_eq_false (hlists x hx)
    dsimp only
    rw [hnone]
  case handle =>
    intro hd d h a s x p b i lanes hready hplaces hpeek
    rw [exec_thset, execThset, memWord_now hready, hplaces]
    dsimp only
    rw [hpeek]
  case cwait =>
    intro hd scope
    refine works_of_issue (exec_cwait hd scope) fun s act t hact hok => ?_
    rw [if_neg hact, if_neg fun h => hok.elim (absurd h.1) fun hcen => by simp [hcen] at h]
    dsimp only
    cases cwaitDone (creditTroupe t t.wg.ctx t.wg.wgl t.th.agent.troupeNo) (.cwait scope) <;> rfl

end Sys2Proof.Machine
end

section
/-!
PROOF. Device steps: the copy engine (R133, R142 to R145, R235, R354), the matrix array and the pool (R154, R162, R234, R238, R401).
-/

namespace Sys2Proof.Machine

/-! ### The copy engine -/

/-- The command may write its notify word: it has no fault, or one that leaves the word to be written (R140, R142). -/
abbrev CopyCmd.Good (x : CopyCmd) : Prop := x.code = 0 ∨ x.code = 5 ∨ (x.code = 2 ∧ x.isGather = true)

/-- `Good` as the model's step decides it. -/
theorem CopyCmd.good_iff (x : CopyCmd) : (decide (x.code = 0) || decide (x.code = 5) || decide (x.code = 2) && x.isGather) = true ↔ x.Good := by
  simp [CopyCmd.Good, or_assoc]

section
variable {core i : Nat} {s : State} {x : CopyCmd}

/-- A command whose notify word lies away asks for its write (R140, R143). -/
theorem exec_copyComplete_away {c w off : Nat} {v : Word}
    (hfind : ((s.core core).copyq.find? fun x => x.id == i && x.phase == .started) = some x) (hchunks : x.chunks = [])
    (hremote : x.remote = []) (hgood : x.Good) (haway : x.notifyAway s = some (c, w, off, v)) :
    exec (.copyComplete core i) s = .next
      (putCmd (cohortAsk s core c w off (.write (toBytes 4 v.toNat) false)).2 core
        { x with notify := none, remote := [(cohortAsk s core c w off (.write (toBytes 4 v.toNat) false)).1] }) := by
  rw [exec_copyComplete, execCopyComplete, hfind]
  dsimp only
  rw [if_neg (by simp [hchunks, hremote]), if_pos (x.good_iff.2 hgood), haway]

/-- A command with nothing left to do completes its ticket and leaves the queue (R142, R143). -/
theorem exec_copyComplete_done (hfind : ((s.core core).copyq.find? fun x => x.id == i && x.phase == .started) = some x)
    (hchunks : x.chunks = []) (hremote : x.remote = []) (hdone : ¬x.Good ∨ x.notifyAway s = none) :
    exec (.copyComplete core i) s =
      let u := finishTicket (if x.Good then writeNotify s x.notify else s)
        x.issuer x.tl x.ticket x.code (if x.byToken then 3 else 0) 2 x.sat x.data x.stale
      .next (u.setCore core { u.core core with copyq := (u.core core).copyq.filter fun y => y.id != i }) := by
  rw [exec_copyComplete, execCopyComplete, hfind]
  dsimp only
  rw [if_neg (by simp [hchunks, hremote])]
  by_cases hgood : x.Good
  · rw [if_pos (x.good_iff.2 hgood), hdone.resolve_left (absurd hgood), if_pos hgood, if_pos (x.good_iff.2 hgood)]
  · rw [if_neg (mt x.good_iff.1 hgood), if_neg hgood, if_neg (mt x.good_iff.1 hgood)]

end

/-- Settles O46. -/
theorem copyEngineSteps : Obligations.CopyEngineSteps := by
  refine ⟨fun core s => exec_copyStart core s, fun core s => exec_walkAheadTranslate core s, ?arrival, ?complete⟩
  case arrival =>
    intro core i s x c w m n r g hfind hchunks u hwg
    have hexec : exec (.chunkArrival core i) s =
        if (findMap g m).isNone then .next (putCmd u core x.lostMap) else .next (putWg u (g.arriveChunk m n)) := by
      rw [exec_chunkArrival, execChunkArrival, hfind]
      dsimp only
      rw [hchunks]
      dsimp only
      rw [hwg]
    rw [hexec]
    refine ⟨fun hbound => if_neg ?_, fun hlost => if_pos hlost⟩
    rw [Option.isSome_iff_ne_none] at hbound
    exact fun h => hbound (Option.isNone_iff_eq_none.1 h)
  case complete =>
    intro core i s x hfind hchunks hremote good
    exact ⟨fun c w off v => exec_copyComplete_away hfind hchunks hremote, exec_copyComplete_done hfind hchunks hremote⟩

/-! ### The matrix array -/

section
variable {core : Nat} {s : State}

/-- What a step of the array does once its owner is known. -/
theorem exec_arrayOpComplete_going {c w : Nat} {g : Workgroup} {e : EngCtx} {before after : List MatOp} {x : MatOp}
    (howner : (s.core core).owner = some (c, w)) (hwg : getWg s c w = some g) (hctx : engCtx s core (.matrix c w) = some e)
    (hgoing : goingOp g.mq = some (before, x, after)) :
    exec (.arrayOpComplete core) s =
      if x.phase = .acking then .next (finishOp core c w before x after s) else .next (performOp core e g before x after s) := by
  rw [exec_arrayOpComplete, execArrayOpComplete, howner]
  dsimp only
  rw [hwg, hctx]
  dsimp only
  rw [hgoing]

end

/-! ### The pool -/

section
variable {s : State} {core queue e : Nat} {who : Producer}

/-- A producer that has no place among those that stall takes the last (R238). -/
theorem poolWait_stalled (h : ((s.core core).stalled.any fun x => x.1 == queue && sameProducer s x.2 who) = false) :
    ((poolWait s core queue who).core core).stalled = (s.core core).stalled ++ [(queue, who)] := by
  rw [poolWait, if_neg (ne_true_of_eq_false h)]
  exact congrArg CoreSt.stalled (State.core_setCore _ _ _)

/-- It is a producer's turn when no other stalls before it (R238). -/
theorem poolTurn_iff : poolTurn s core queue who = true ↔
    ∀ x, ((s.core core).stalled.find? fun x => x.1 == queue && producerAlive s x.2) = some x → sameProducer s x.2 who = true := by
  rw [poolTurn]
  cases (s.core core).stalled.find? fun x => x.1 == queue && producerAlive s x.2 <;> simp

end

/-- Settles O47. -/
theorem matrixArraySteps : Obligations.MatrixArraySteps := by
  refine ⟨?start, ?complete, ?owner, ?idle, fun core queue s => exec_poolEntryGrant core queue s, ?pool, ?spare⟩
  case start =>
    intro core s u
    refine ⟨fun hfree => ?_, fun c w g howner hwg => ?_⟩
    · rw [exec_arrayOpStart, execArrayOpStart, hfree]
    · rw [exec_arrayOpStart, execArrayOpStart, howner]
      dsimp only
      rw [hwg]
  case complete =>
    intro core s c w g e before x after howner hwg hctx hgoing
    rw [exec_arrayOpComplete_going howner hwg hctx hgoing]
    exact ⟨fun h => if_neg h, fun h => if_pos h⟩
  case owner =>
    intro core s g r hfree hwaits u v
    rw [exec_arrayOwnershipChange, execArrayOwnershipChange, if_neg (by simp [hfree]), hwaits]
  case idle =>
    intro ctx wg copy s hagent hwaits hdone
    rw [exec_sequencerIdle, execSequencerIdle]
    refine asAgent_current hagent.symm (if_pos ?_) rfl
    rw [hwaits, hdone]
    rfl
  case pool =>
    intro s core queue e who c first own
    refine ⟨poolWait_stalled, fun x hfirst hother => ?_, fun hturn hroom => ?_⟩
    · have hnot : ¬poolTurn s core queue who = true := fun h => ne_true_of_eq_false hother (poolTurn_iff.1 h x hfirst)
      rw [poolEnter, Bool.eq_false_of_not_eq_true hnot]
      rfl
    · rw [poolEnter, poolTurn_iff.2 hturn]
      exact if_pos hroom
  case spare =>
    intro core s hnone
    rw [exec_matrixColumnSpare, execMatrixColumnSpare, if_neg (ne_true_of_eq_false hnone)]

end Sys2Proof.Machine
end

section
/-!
PROOF. Device steps: parent records and the Curtain (R173, R339, R340), die updates (R258), collectives (R208, R369, R373, R375).
-/

namespace Sys2Proof.Machine

/-! ### Members that lag -/

section
variable {s : State} {x : Coll} {m : Nat}

/-- A running member of the collective whose ring holds `m` is in a ring with it. -/
theorem mem_ringWith (hx : x ∈ s.colls) (hrun : x.phase = .running) (hring : (x.ring.any fun p => x.member p == m) = true) :
    x ∈ ringWith s x.ctx x.num m := by
  refine List.mem_filter.2 ⟨List.mem_filter.2 ⟨hx, ?_⟩, ?_⟩
  · simp
  · rw [hrun, hring]
    rfl

/-- A member lags where a survivor of this package is overdue for it (R373). -/
theorem lags_of_overdue {ctx num : Nat} (hx : x ∈ ringWith s ctx num m) (h : x.overdue m s.podTime = true) : lags s ctx num m = true := by
  refine Bool.or_eq_true_iff.2 (.inr (List.any_eq_true.2 ⟨x, hx, ?_⟩))
  rw [h, Bool.true_or]

/-- A survivor is overdue when T has passed since the issue and the laggard has not begun (R373). -/
theorem overdue_of_not_begun {now : Nat} (hme : x.me ≠ m) (hbegun : x.begun.contains m = false) (htime : x.issued + 1000 * x.timeout ≤ now) :
    x.overdue m now = true := by
  rw [Coll.overdue, hbegun]
  simp [hme, htime]

/-- A survivor is overdue when T has passed since its last progress and it follows the laggard (R373). -/
theorem overdue_of_follows {now : Nat} (hme : x.me ≠ m) (hbegun : x.begun.contains m = true) (hfollows : x.follows m = true)
    (htime : x.since + 1000 * x.timeout ≤ now) : x.overdue m now = true := by
  rw [Coll.overdue, hbegun]
  simp [hme, hfollows, htime]

end

/-! ### Cycles -/

/-- A cycle has changed nothing. -/
theorem sameColls_iff (s t : State) : (t.collq == s.collq && t.colls == s.colls) = true ↔ t.collq = s.collq ∧ t.colls = s.colls := by
  rw [Bool.and_eq_true, beq_iff_eq, beq_iff_eq]

/-- Settles O51. That T is checked for the survivors of this package and other packages say so is log entry 30; that a parent record
is kept aside until its list has room is log entry 45. -/
theorem curtainAndCollectiveSteps : Obligations.CurtainAndCollectiveSteps := by
  refine ⟨⟨?parent, ?curtain, ?die⟩, ?cycle, ?lag, ?overdue, fun s x laggard q => ⟨fun h => if_neg h, fun h => if_pos h⟩⟩
  case parent =>
    intro ctx list s x y hctx hfind hroom
    rw [exec_parentPush, execParentPush, hctx]
    dsimp only
    rw [hfind]
    exact if_neg hroom
  case curtain =>
    intro ctx s x hctx hopen hdynamic
    rw [exec_curtainQuiescent, execCurtainQuiescent, hctx]
    refine if_neg ?_
    simp [hopen, hdynamic]
  case die =>
    intro die s u r hdue
    rw [exec_dieApplyWrite, execDieApplyWrite]
    dsimp only
    rw [hdue]
  case cycle =>
    intro ctx num s t
    refine ⟨fun hchange => ?_, fun hq hc => ?_⟩
    · exact congrArg Host.Outcome.next (if_neg fun h => hchange.elim (absurd ((sameColls_iff s t).1 h).1) (absurd ((sameColls_iff s t).1 h).2))
    · exact congrArg Host.Outcome.next (if_pos ((sameColls_iff s t).2 ⟨hq, hc⟩))
  case lag =>
    intro ctx num laggard counts s lagging all q u v w again
    exact ⟨fun h => congrArg Host.Outcome.next (if_pos h), fun h => congrArg Host.Outcome.next (if_neg (ne_true_of_eq_false h))⟩
  case overdue =>
    rintro s _ _ laggard x hx rfl rfl hrun hme hring
    have hmem := mem_ringWith hx hrun hring
    exact ⟨fun hbegun htime => lags_of_overdue hmem (overdue_of_not_begun hme hbegun htime),
      fun hbegun hfollows htime => lags_of_overdue hmem (overdue_of_follows hme hbegun hfollows htime)⟩

end Sys2Proof.Machine
end

section
/-!
PROOF. Remote register access (R182 to R192): every word but RWR by the path of a word that issues; RWR by what its deliveries and its check
come to; then the statement about all of them.
-/

namespace Sys2Proof.Machine

/-! ### RWR -/

section
variable {hd : Hdr} {a : Operand} {slot : BitVec 4} {tl : BitVec 3} {scope : Scope} {rel : Bool} {off k : BitVec 3} {s : State}

/-- A word whose deliveries all leave goes on (R186). -/
theorem sendWords_of_launched {i : Instr} {act : LaneMask} {n ticket : Nat} {s0 t v : State}
    (h : launchAll (ownSends t n ticket) t = (true, v)) : sendWords i hd act n ticket s0 t = onward v := by
  simp only [sendWords, h, if_true, onward]

/-- What an RWR does at its first try, with a lane that takes part, a counter that is not full and a release that waits for nothing: the
ticket is taken, and the check of R185 decides. -/
theorem exec_rwr_first (hissue : issuesNow (.rwr hd a slot tl scope rel off k) (Instr.rwr hd a slot tl scope rel off k).uses hd s = true)
    (hact : partaking (.rwr hd a slot tl scope rel off k) hd s ≠ 0) (hreplay : s.th.grp.replay = none)
    (hfull : (s.wg.tl tl.toNat).full = false)
    (hrelease : rel = true →
      releaseWaits (issued (.rwr hd a slot tl scope rel off k) (Instr.rwr hd a slot tl scope rel off k).uses [] hd s).th scope = false) :
    let i := Instr.rwr hd a slot tl scope rel off k
    let act := partaking i hd s
    let t := issued i i.uses [] hd s
    let n := k.toNat + 1
    let parts := rwrParts t act a n
    let ticket := (t.wg.ticket tl.toNat).1
    let u := { t with wg := (t.wg.ticket tl.toNat).2 }.setTh (if parts.any fun p => p.2.any fun v => v.2 then t.th.raiseErr 4 else t.th)
    exec i s =
      if rwrCheck t (capOf t slot.toNat) off.toNat n act ≠ 0 then
        .next (onward (completeTicket (noteFailure u u.th.agent tl.toNat ticket (rwrCheck t (capOf t slot.toNat) off.toNat n act) 1 1)
          u.th.agent tl.toNat ticket))
      else if (poolAsk t 0 (1 + ceilDiv (((parts.head?).map fun p => p.2.length).getD 0) 16)).isNone then .next (poolStall s 0)
      else .next (sendWords i hd act tl.toNat ticket s (newSends tl.toNat ticket (capOf t slot.toNat) off.toNat n rel scope parts u)) := by
  intro i act t n parts ticket u
  have hgo : ¬((t.wg.tl tl.toNat).full || (rel && releaseWaits t.th scope)) = true := by
    cases rel with
    | false => simp [t, hfull]
    | true => simp [t, i, hfull, hrelease rfl]
  rw [exec_rwr, execRwr, issue_now hissue]
  dsimp only
  rw [if_neg hact, hreplay]
  exact if_neg hgo

end

/-! ### The statement -/

/-- Settles O42. That RARM first writes the results that have arrived is log entry 31. -/
theorem remoteWordsComplete : Obligations.RemoteWordsComplete := by
  refine ⟨?makeReg, ?makeLand, ?load, ?revokeReg, ?revokeLand, ?arm, ?poll, ?write⟩
  case makeReg =>
    intro hd d reg n a wr xp i
    exact works_of_issue (exec_rcapmkReg hd d reg n a wr xp) fun s act t hact _ => if_neg hact
  case makeLand =>
    intro hd d e a b wr xp i
    refine works_of_issue (exec_rcapmkLand hd d e a b wr xp) fun s act t hact hplace => ?_
    rw [if_neg hact]
    simp only [hplace]
    rfl
  case load =>
    intro hd slot a i
    refine works_of_issue (exec_rcapld hd slot a) fun s act t hact _ => (if_neg hact).trans ?_
    dsimp only
    split <;> rfl
  case revokeReg =>
    intro hd
    refine works_of_issue (exec_rcaprevReg hd) fun s act t hact _ => ?_
    simp only [if_neg hact]
    rfl
  case revokeLand =>
    intro hd e
    refine works_of_issue (exec_rcaprevLand hd e) fun s act t hact _ => ?_
    simp only [if_neg hact]
    rfl
  case arm =>
    intro hd d k
    exact works_of_issue (exec_rarm hd d k) fun s act t _ hfree => if_neg (ne_true_of_eq_false hfree)
  case poll =>
    intro hd d a k p
    exact works_of_issue (exec_rpoll hd d a k p) fun s act t _ _ => rfl
  case write =>
    intro hd a slot tl scope rel off k s i act t n cap parts ticket u hissue hact hreplay hfull hrelease
    have hexec := exec_rwr_first hissue hact hreplay hfull hrelease
    refine ⟨fun v hcheck hroom hlaunched => ?_, fun code hcheck hcode => ?_⟩
    · have hroom' : ¬(poolAsk t 0 (1 + ceilDiv (((parts.head?).map fun p => p.2.length).getD 0) 16)).isNone = true := by
        simpa [Option.isSome_iff_ne_none] using hroom
      refine hexec.trans ((if_neg (not_not.2 hcheck)).trans ((if_neg hroom').trans ?_))
      exact congrArg Host.Outcome.next (sendWords_of_launched hlaunched)
    · subst hcheck
      exact hexec.trans (if_pos hcode)

end Sys2Proof.Machine
end

section
/-!
PROOF. The phaser words and the collective words (R198 to R209): the signalling words, which signal or wait, the words that wait for a phase,
and the registration of a member; then the statement about all of them.
-/

namespace Sys2Proof.Machine

/-! ### Signalling words -/

/-- Nothing is left out of a result where no destination is given. -/
@[simp] theorem keepOthers_nil (ws : List Wr) : keepOthers [] ws = ws := List.filter_eq_self.2 fun _ _ => rfl

/-- The tags of a release are stores of the thread that are out (R200, R257). -/
theorem releaseTags_out (th : Thread) (scope : Scope) : (releaseTags th scope).filter th.fabric.contains = releaseTags th scope := by
  unfold releaseTags
  split
  · exact List.filter_eq_self.2 fun t ht => List.contains_iff_mem.2 ht
  · rfl

/-- A discarded destination has no writes (R197). -/
theorem laneWrites_discard (act : LaneMask) (n : Nat) (d : Operand) (f : Nat → DWord) (mark : Nat → Bool) :
    laneWrites act n (if d.isZero then .c 0 else d) f mark = if d.isZero then [] else laneWrites act n d f mark := by
  cases d.isZero <;> rfl

section
variable {s : State} {h : Nat} {d : Operand} {act : LaneMask} {cand : Option Cand} {bound : Option (Nat × DWord)} {tags : List Nat}
  {ph : PhHandle} {node : PhNode}

/-- A member that is not ahead signals with its phase and goes on to the next (R200). -/
theorem signalBy_now (hnode : phNode s ph.name = some node) (hphase : ph.sigph ≠ node.seen + 2)
    (hroom : bound.isSome = true → holdFull s = false) (htags : tags.filter s.th.fabric.contains = tags) :
    signalBy s (some ph) (.signal h d act cand bound tags []) =
      let t := sendOrHold s (memberOf s h) ph.name (.signal ph.sigph cand) bound tags
      some (if (handleOf t h).isNone then t
        else { t with wg := { t.wg with phs := putBy h { ph with sigph := ph.sigph + 1 } t.wg.phs } },
        laneWrites act 1 d (fun _ => ph.sigph.setWidth 64) fun _ => false) := by
  have hgo : ¬(decide (ph.sigph = node.seen + 2) || (bound.isSome && holdFull s)) = true := by
    simpa using And.intro hphase hroom
  simp only [signalBy, hnode, if_neg hgo, htags, keepOthers_nil]

/-- A member that is one phase ahead of what its package node has seen waits (R200). -/
theorem signalBy_ahead (hnode : phNode s ph.name = some node) (hphase : ph.sigph = node.seen + 2) :
    signalBy s (some ph) (.signal h d act cand bound tags []) = none := by
  simp only [signalBy, hnode, hphase, decide_true, Bool.true_or, if_true]

end

section
variable {i : Instr} {hd : Hdr} {h : Nat} {d : Operand} {any : Bool} {scope : Scope} {bind : Option Nat} {na nb : Nat} {a b : Operand}
  {s : State} {ph : PhHandle} {node : PhNode}

/-- What a signalling word whose handle names a phaser in a mode that it accepts signals with (R200). -/
def signalOf (h : Nat) (d : Operand) (any : Bool) (scope : Scope) (bind : Option Nat) (act : LaneMask) (x : LogLane) (t : State) : Wait :=
  .signal h (if d.isZero then .c 0 else d) act (if any then some ⟨x.a.setWidth 32, t.pkg, t.th.ident.die, t.wg.wgl⟩ else none)
    (bind.map fun tl => (tl, x.b)) (releaseTags t.th scope) []

/-- A signalling word by a handle in a mode that it accepts, with an entry of the die node for its binding, signals or opens its wait. -/
theorem signalWord_of_handle (hissue : issuesNow i (usesOr i d) hd s = true) (hact : partaking i hd s ≠ 0)
    (hat : handleAt (issued i (usesOr i d) [] hd s) h = some ph) (hnode : phNode (issued i (usesOr i d) [] hd s) ph.name = some node)
    (hmode : ph.mode ≠ .wait) (hany : any = true → ph.mode = .any)
    (hroom : ph.sigph ≠ node.seen + 2 → bind.isSome = true → holdFull (issued i (usesOr i d) [] hd s) = false) :
    let act := partaking i hd s
    let t := issued i (usesOr i d) [] hd s
    let x := phLane t act na a nb b
    let w := signalOf h d any scope bind act x t
    (∀ u ws, signalBy t (some ph) w = some (u, ws) →
      signalWord i hd h d any scope bind na a nb b s = .next (onward (u.setTh (noteLane (deliver hd ws u.th) x)))) ∧
    (signalBy t (some ph) w = none → signalWord i hd h d any scope bind na a nb b s =
      .next (onward (t.setTh (openKept hd w (logOf i hd t.th act 0 [x]) (noteLane t.th x))))) := by
  intro act t x w
  have haccepted : ¬(ph.mode = .wait ∨ (any = true ∧ ph.mode ≠ .any)) := fun hbad =>
    hbad.elim hmode fun hother => hother.2 (hany hother.1)
  have hentry : ¬(ph.sigph != node.seen + 2 && bind.isSome && holdFull t) = true := by
    intro hfull
    simp only [Bool.and_eq_true, bne_iff_ne] at hfull
    exact absurd hfull.2 (ne_true_of_eq_false (hroom hfull.1.1 hfull.1.2))
  have hword : signalWord i hd h d any scope bind na a nb b s = match signalBy t (some ph) w with
      | some (u, ws) => .next (u.setTh (advance (noteLane (deliver hd ws u.th) x)))
      | none => .next (t.setTh (advance (openKept hd w (logOf i hd t.th act 0 [x]) (noteLane t.th x)))) := by
    rw [signalWord, issue_now hissue]
    dsimp only
    rw [if_neg hact, hat]
    dsimp only
    rw [hnode]
    dsimp only
    rw [if_neg haccepted]
    exact if_neg hentry
  rw [hword]
  refine ⟨fun u ws hsignal => ?_, fun hwait => ?_⟩
  · rw [hsignal]
    rfl
  · rw [hwait]
    rfl

end

/-! ### Words that wait for a phase -/

section
variable {s : State} {h : Nat} {phase : Word} {scope : Scope} {ph : PhHandle} {node : PhNode}

/-- PHWAIT is done when its phase is open (R202). -/
theorem phDone_ph (hat : handleOf s h = some ph) (hnode : phNode s ph.name = some node) :
    phDone s (.ph h phase scope) = if node.open_ phase then some (acquire s scope, []) else none := by
  simp only [phDone, hat, Option.bind_some, hnode]

/-- PHWIN is done when its phase is open, with the record of the phase (R202). -/
theorem phDone_phwin (hat : handleOf s h = some ph) (hnode : phNode s ph.name = some node) (d : Operand) (act : LaneMask) :
    phDone s (.phwin h phase scope d act []) =
      if node.open_ phase then some (acquire s scope, laneWrites act 2 d (fun _ => winRecord node phase) fun _ => false) else none := by
  simp only [phDone, hat, Option.bind_some, hnode, keepOthers_nil]

end

/-! ### Registration -/

@[simp] theorem noteWord_agent {i : Instr} {act : LaneMask} (th : Thread) : (noteWord th i act).agent = th.agent := by rw [noteWord_shape]

/-! ### COLL -/

/-- A COLL whose number is free, with room for it and its entries, joins (R208, R377). -/
theorem acceptColl_of_room {s0 s u : State} {x : LogLane} {h : BitVec 8} {tl : Nat} (hfull : (s.wg.tl tl).full = false)
    (hfree : (s.colls.any fun y => y.ctx == s.wg.ctx && y.num == bitsN x.data.toNat 31 16 && y.wgl == s.wg.wgl && !y.numberFree s) = false)
    (hroom : (activeColls s).contains (s.wg.ctx, bitsN x.data.toNat 31 16) = true ∨ (activeColls s).length < bitsN s.collcfg.toNat 22 16)
    (hpool : poolAsk s 0 3 = some u) : acceptColl s0 s x h tl = .next (joinColl u x h tl) := by
  have hgo : ¬(!(activeColls s).contains (s.wg.ctx, bitsN x.data.toNat 31 16) &&
      decide (bitsN s.collcfg.toNat 22 16 ≤ (activeColls s).length)) = true := by
    rcases hroom with hactive | hless
    · rw [hactive]
      exact Bool.false_ne_true
    · rw [decide_eq_false (Nat.not_le.2 hless), Bool.and_false]
      exact Bool.false_ne_true
  rw [acceptColl]
  dsimp only
  rw [if_neg (ne_true_of_eq_false hfull), if_neg (ne_true_of_eq_false hfree), if_neg hgo, hpool]

/-! ### The statement -/

/-- Settles O43. That J of a refused PHREG is a free value is log entry 2; that SIGPH moves at issue, and that a signal two phases ahead waits
with its operands, is log entry 28. -/
theorem phaserWordsComplete : Obligations.PhaserWordsComplete := by
  refine ⟨?reg, ?drop, ?signal, ?wait, ?done, ?test, ?time, ?coll, ?collst⟩
  case reg =>
    intro x d a mode i noted name status of asked
    refine ⟨?ask, fun first => ?answered, ?refused⟩
    case ask =>
      intro node s act t hissue hact hasked hstatus hnode
      have hnone : joiningOf t (memberOf t x.x.toNat) = none := hasked
      have hname : phNode t ((phName (opnd32 t (lowLane act) a)).getD (.pkg 0)) = some node := hnode
      rw [exec_phreg, execPhreg, issue_now hissue]
      dsimp only
      rw [if_neg hact, hnone]
      refine (if_neg (not_not.2 hstatus)).trans ?_
      rw [hname]
    case answered =>
      refine works_of_issue (exec_phreg x d a mode) fun s act t hact hasked => ?_
      have hanswer : joiningOf (noted act t) (memberOf (noted act t) x.x.toNat) =
        some ⟨t.th.agent, memberOf t x.x.toNat, of act t, phMode mode, some first⟩ := hasked
      rw [if_neg hact]
      dsimp only
      rw [hanswer]
      exact if_pos ⟨(noteWord_agent t.th).symm, rfl, rfl⟩
    case refused =>
      refine works_of_issue (exec_phreg x d a mode) fun s act t hact ⟨hasked, hstatus⟩ => ?_
      have hnone : joiningOf (noted act t) (memberOf (noted act t) x.x.toNat) = none := hasked
      rw [if_neg hact]
      dsimp only
      rw [hnone]
      exact if_pos hstatus
  case drop =>
    intro x ph
    refine works_of_issue (exec_phdrop x) fun s act t hact hat => ?_
    rw [if_neg hact, hat]
    rfl
  case signal =>
    intro Signals
    have signals {i x d any scope tl na a nb b}
        (hexec : ∀ s, exec i s = signalWord i x.hd x.x.toNat d any scope tl na a nb b s) : Signals i x d any scope tl na a nb b := by
      intro ph node may cand bound
      refine ⟨?signals, ?waits⟩
      case signals =>
        rintro s hissue hact ⟨⟨hat, hnode, hmode, hany⟩, hphase, hroom⟩
        obtain ⟨hsignals, -⟩ := signalWord_of_handle (na := na) (a := a) (nb := nb) (b := b) hissue hact hat hnode hmode hany fun _ => hroom
        rw [hexec, hsignals _ _ (signalBy_now hnode hphase (by simpa using hroom) (releaseTags_out ..)), laneWrites_discard]
      case waits =>
        rintro s hissue hact ⟨⟨hat, hnode, hmode, hany⟩, hphase⟩
        obtain ⟨-, hwaits⟩ := signalWord_of_handle (na := na) (a := a) (nb := nb) (b := b) hissue hact hat hnode hmode hany (absurd hphase)
        rw [hexec, hwaits (signalBy_ahead hnode hphase)]
        rfl
    clear_value Signals
    exact ⟨fun x d scope => signals (exec_phsig x d scope), fun x d tl b => signals (exec_phsigb x d tl b),
      fun x d a => signals (exec_phany x d a), fun x d a tl b => signals (exec_phanyBind x d a tl b)⟩
  case wait =>
    intro Waits
    have waits {i x a fits w ok} (hexec : ∀ s, exec i s = phWaitWord i x.hd x.x.toNat a ok w s)
        (hfits : ∀ ph node, fits ph node → ok ph node = true) : Waits i x a fits w := by
      intro ph node
      refine works_of_issue hexec fun s act t hact ⟨hat, hnode, hfit⟩ => ?_
      rw [if_neg hact, hat]
      dsimp only
      rw [hnode]
      dsimp only
      rw [if_neg (by rw [hfits ph node hfit]; decide)]
      cases phDone t (w act ((phLane t act 1 a 0 a).a.setWidth 32)) <;> rfl
    clear_value Waits
    refine ⟨fun x a scope => waits (exec_phwait x a scope) ?_, fun x d a scope => waits (exec_phwin x d a scope) ?_⟩
    · exact fun ph node hmode => bne_iff_ne.2 hmode
    · exact fun ph node ⟨hany, hmode⟩ => by simpa [hany] using hmode
  case done =>
    exact fun s h phase scope ph node hat hnode => ⟨phDone_ph hat hnode, phDone_phwin hat hnode⟩
  case test =>
    intro x d a i
    exact works_of_issue (exec_phtest x d a) fun s act t _ _ => rfl
  case time =>
    intro x a b ph i
    refine works_of_issue (exec_phtime x a b) fun s act t hact hat => ?_
    rw [if_neg hact, hat]
    rfl
  case coll =>
    intro hd tl h a s u i t x t' num hissue hact haligned hfull hfree hroom hpool
    rw [exec_coll, execColl, issue_now hissue]
    dsimp only
    rw [if_neg hact, if_neg (not_not.2 haligned)]
    exact acceptColl_of_room hfull hfree hroom hpool
  case collst =>
    intro hd d a i
    exact works_of_issue (exec_collst hd d a) fun s act t _ _ => rfl

end Sys2Proof.Machine
end

section
/-!
PROOF. Special and system registers (R212 to R217) and the words of a control core (R218 to R220): each word issues and performs its body;
then the statements about them.
-/

namespace Sys2Proof.Machine

/-! ### Special and system registers -/

/-- A word that goes on with a thread leaves it at the next word. -/
theorem onward_setTh (s : State) (th : Thread) : onward (s.setTh th) = s.setTh (advance th) := rfl

/-- SREAD of a special register writes it to D (R212). -/
theorem exec_sread_now {hd : Hdr} {d : Operand} {n : BitVec 6} {s : State}
    (hissue : issuesNow (.sread hd d (.s n)) (Instr.sread hd d (.s n)).uses hd s = true) :
    let t := issued (.sread hd d (.s n)) (Instr.sread hd d (.s n)).uses [] hd s
    exec (.sread hd d (.s n)) s = .next (onward (t.setTh (deliver hd
      (laneWrites (partaking (.sread hd d (.s n)) hd s) (Operand.s n).specialWords d (fun l => special t l n.toNat) fun _ => false) t.th))) := by
  rw [exec_sread, execSread, issue_now hissue]
  rfl

/-- An address that is a multiple of 8 becomes the handler (R214). -/
theorem exec_sethdl_aligned {hd : Hdr} {a : Operand} {s : State} (hissue : issuesNow (.sethdl hd a) (Instr.sethdl hd a).uses hd s = true)
    (hact : partaking (.sethdl hd a) hd s ≠ 0)
    (haligned : (opnd64 (issued (.sethdl hd a) (Instr.sethdl hd a).uses [] hd s) (lowLane (partaking (.sethdl hd a) hd s)) a).toNat % 8 = 0) :
    let l := lowLane (partaking (.sethdl hd a) hd s)
    let t := issued (.sethdl hd a) (Instr.sethdl hd a).uses [] hd s
    exec (.sethdl hd a) s = .next (onward (t.setTh (noteMark { t.th with hdl := opnd64 t l a } (t.th.marked l 2 a)))) := by
  intro l t
  rw [exec_sethdl, execSethdl, issue_now hissue]
  dsimp only
  rw [if_neg hact]
  exact if_neg (not_not.2 haligned)

/-- Settles O44. The value of D for a number beyond the address-space table is free (log entry 2), how a core stands to a register of the
Ringmaster is log entry 41, and that ESTAT.eq removes one entry for the word is log entry 43. -/
theorem systemWordsComplete : Obligations.SystemWordsComplete := by
  refine ⟨fun hd d n s hissue _ _ => exec_sread_now hissue, ?readSys, ?write, ?writeSys,
    fun hd a s hissue hact haligned => exec_sethdl_aligned hissue hact haligned, ?log, ?errors, ?bump, ?beyond⟩
  case readSys =>
    intro hd d n i
    refine works_of_issue (exec_sreadSys hd d n) fun s act t _ hview => ?_
    rw [hview]
    rfl
  case write =>
    intro hd n b i
    exact works_of_issue (exec_swrite hd (.s n) b) fun s act t hact _ => if_neg hact
  case writeSys =>
    intro hd n b s i l t v u core hissue hact hview
    rw [exec_swriteSys, execSwriteSys, issue_now hissue]
    dsimp only
    rw [if_neg hact, hview]
    dsimp only
    split <;> rfl
  case log =>
    intro hd d a i
    refine works_of_issue (exec_estatLog hd d a) fun s act t hact _ => ?_
    dsimp only
    rw [if_neg hact]
    rfl
  case errors =>
    intro hd d i
    exact works_of_issue (exec_estatEq hd d) fun s act t hact _ => if_neg hact
  case bump =>
    intro hd d a i
    refine works_of_issue (exec_pggen hd d a) fun s act t hact ⟨hknown, hidle⟩ => ?_
    refine (if_neg hact).trans ((if_neg (Nat.not_le.2 hknown)).trans ((if_neg (ne_true_of_eq_false hidle)).trans ?_))
    dsimp only
    split <;> rw [onward_setTh]
  case beyond =>
    intro hd d a i
    exact works_of_issue (exec_pggen hd d a) fun s act t hact hbeyond => (if_neg hact).trans (if_pos hbeyond)

/-! ### The control core -/

/-- Settles O45. That ASSIST.next answers a request that is already taken again is log entry 24, and that HALT latches the timer event alone
is log entry 44. -/
theorem controlCoreWordsComplete : Obligations.ControlCoreWordsComplete := by
  refine ⟨?next, ?get, ?put, ?done, ?halt, ?stop⟩
  case next =>
    intro hd d i
    refine works_of_issue (exec_assistNext hd d) fun s act t hact _ => ?_
    rw [if_neg hact]
    cases hrequests : tget [] t.assists t.th.agent.cluster <;> simp only [hrequests] <;> rfl
  case get =>
    intro hd d a r j k x p i
    refine works_of_issue (exec_assistGet hd d a) fun s act t hact ⟨htaken, helem⟩ => ?_
    rw [if_neg hact, htaken]
    dsimp only [Option.bind_some]
    rw [helem]
    rfl
  case put =>
    intro hd a b r j k x p i
    refine works_of_issue (exec_assistPut hd a b) fun s act t hact ⟨htaken, helem⟩ => ?_
    rw [if_neg hact, htaken]
    dsimp only
    rw [helem]
    rfl
  case done =>
    intro hd a r
    refine works_of_issue (exec_assistDone hd) fun s act t hact ⟨hfirst, htaken⟩ => ?_
    rw [if_neg hact]
    dsimp only
    rw [hfirst]
    exact if_pos htaken
  case halt =>
    intro hd
    refine works_of_issue (exec_halt hd) fun s act t hact _ => ?_
    rw [decide_eq_false hact, Bool.false_or]
    split <;> rfl
  case stop =>
    intro hd
    exact works_of_issue (exec_haltStop hd) fun s act t hact _ => if_neg hact

end Sys2Proof.Machine
end

section
/-!
PROOF. A delivery on its way (R187, R188, R265, R270 to R275): each step finds its packet or its delivery and does what its rule names.
-/

namespace Sys2Proof.Machine

/-! ### The Carousel -/

/-- A packet that can be performed and is the first of its stop leaves the ring (R274, R275). -/
theorem ejectFirst_of_performed {cluster : Nat} {s u : State} {p : CarPacket} (r : List CarPacket) (h : performLoad s cluster p = (true, u)) :
    ejectFirst cluster (p :: r) s = ejected u cluster p := by
  simp only [ejectFirst, h, if_true]

section
variable {i : Nat} {s : State} {d : Delivery} (hfind : (s.sends.find? fun d => d.id == i) = some d)
include hfind

/-! ### Slices -/

/-- A delivery at a slice that need not hold it goes to the core that holds its target, or is performed there (R265, R187). -/
theorem exec_sliceForward_now (hphase : d.phase = .slice) (hfirst : sendBefore s d = false) (hheld : sliceHolds s d = false) :
    (∀ n, coreOf s (capTarget d.cap).1 (capTarget d.cap).2.1 = some n → exec (.sliceForward i) s = .next (takeInbound s n d).2) ∧
    (coreOf s (capTarget d.cap).1 (capTarget d.cap).2.1 = none → exec (.sliceForward i) s = .next (performSend s d none)) := by
  have hgo : ¬(decide (d.phase ≠ .slice) || sendBefore s d || sliceHolds s d) = true := by simp [hphase, hfirst, hheld]
  rw [exec_sliceForward, execSliceForward, hfind]
  dsimp only
  rw [if_neg hgo]
  refine ⟨fun n hcore => ?_, fun hcore => ?_⟩ <;> rw [hcore]

/-! ### Application and answers -/

/-- A delivery in queue 2 whose turn it is is applied and frees its entries (R187, R237). -/
theorem exec_rwrDeliveryApply_now {core : Nat} (hphase : d.phase = .inbound core) (hfirst : sendBefore s d = false) :
    let v := performSend (s.setCore core (poolFree (s.core core) 2 (d.units 16))) d (some core)
    exec (.rwrDeliveryApply i) s = .next { v with inputs := v.inputs ++ [.poolEntryGrant core 2] ++ ringWake v (core / 8) } := by
  rw [exec_rwrDeliveryApply, execRwrDeliveryApply, hfind]
  dsimp only
  rw [hphase]
  exact if_neg (ne_true_of_eq_false hfirst)

end

/-- Settles O48. That the reader's acquire is taken at the delivery is log entry 13, that deliveries of one sender to one target stay in
order is log entry 31. -/
theorem deliverySteps : Obligations.DeliverySteps := by
  refine ⟨?hop, ?eject, fun cluster stop s => exec_carouselEject cluster stop s, ?forward, ?apply, ?answer⟩
  case hop =>
    intro cluster i s p q r hfind hhop u
    rw [exec_carouselHop, execCarouselHop, hfind]
    dsimp only
    rw [hhop]
  case eject =>
    intro cluster stop s p r u hdue hperformed
    rw [exec_carouselEject, execCarouselEject, hdue, ejectFirst_of_performed r hperformed]
  case forward =>
    intro i s d hfind hphase hfirst hheld t
    exact exec_sliceForward_now hfind hphase hfirst hheld
  case apply =>
    intro i s d core hfind hphase hfirst
    exact exec_rwrDeliveryApply_now hfind hphase hfirst
  case answer =>
    intro i s d code hfind hphase u
    refine ⟨fun a core tl ticket hsender => ?_, fun p hsender => ?_⟩
    · rw [exec_rwrAnswer, execRwrAnswer, hfind]
      dsimp only
      rw [hphase, hsender] <;> rfl
    · rw [exec_rwrAnswer, execRwrAnswer, hfind]
      dsimp only
      rw [hphase, hsender]

end Sys2Proof.Machine
end

section
/-!
PROOF. Faults of a word that has a handler (R65, R127, R205, R355): what the fault record and the operand log leave alone, and what stands in
the handler; then the statement about the handles that the phaser words ask for.
-/

namespace Sys2Proof.Machine

/-! ### What is written into memory leaves alone -/

/-- Writes of records and logs lead from `s` to `t`, as far as the thread whose turn it is and its scratchpad show it. -/
structure Records (s t : State) : Prop where
  th_eq : t.th = s.th
  scratch_eq : t.wg.scratch = s.wg.scratch

theorem Records.refl (s : State) : Records s s := ⟨rfl, rfl⟩

theorem Records.trans {s t u : State} (h : Records s t) (h' : Records t u) : Records s u :=
  ⟨h'.th_eq.trans h.th_eq, h'.scratch_eq.trans h.scratch_eq⟩

theorem Records.foldl {α : Type} {f : State → α → State} (hf : ∀ s x, Records s (f s x)) (l : List α) (s : State) :
    Records s (l.foldl f s) := by
  induction l generalizing s with
  | nil => exact .refl s
  | cons x r ih => exact (hf s x).trans (ih _)

theorem Serves.records {s t : State} (h : Serves s t) : Records s t := by
  rw [h.eq_served]
  exact ⟨rfl, rfl⟩

theorem records_of_stored {s t : State} (h : t = s.stored t) : Records s t := by
  rw [h]
  exact ⟨rfl, rfl⟩

theorem homeWrite_records (s : State) (pa key : Nat) (data : List Byte) (mark : Bool) (pkg die : Nat) :
    Records s (homeWrite s pa key data mark pkg die) :=
  (records_of_stored (memApply_stored ..)).trans (homePerform_serves s key (.one pa data mark) pkg die die).records

/-- A fault record that is written (R355). -/
theorem writeRecord_records {s t : State} {va asid agent ctx wgl core id : Nat} {c : Refused} {kind : Access} {reply : Bool}
    (h : writeRecord s va asid c agent ctx wgl core kind reply = some (id, t)) : Records s t := by
  unfold writeRecord at h
  split at h
  · split at h
    · cases h
    · cases h
      exact (setTrans_serves ..).records
  · cases h
    exact (homeWrite_records ..).trans (setTrans_serves ..).records

/-- A write to a save area (R352, R358). -/
theorem savePut_records (s : State) (c pa : Nat) (data : List Byte) (marks : List Nat) : Records s (savePut s c pa data marks) := by
  unfold savePut
  split
  · dsimp only
    split
    · exact .refl s
    · split
      · exact Records.foldl (fun _ _ => (lineWrite_serves ..).records) _ s
      · refine Records.trans ?_ (homeSpread_serves ..).records
        exact (records_of_stored (foldl_stored (fun s l => rekey_stored s _ l) _ s)).trans ⟨rfl, rfl⟩
  · exact .refl s

/-- The operand log is written (R128). -/
theorem saveLog_records (s : State) (l : List LogWord) : Records s (saveLog s l) := by
  have hword (c base : Nat) (s : State) (w : LogWord) : Records s (saveLogWord c base s w) :=
    (savePut_records ..).trans (Records.foldl (fun _ _ => savePut_records ..) _ _)
  unfold saveLog
  split
  · exact Records.foldl (fun _ _ => hword ..) _ s
  all_goals exact .refl s

theorem logged_records (s : State) : Records s (logged s) := by
  unfold logged
  split
  · exact .refl s
  · exact saveLog_records ..

/-! ### The handler -/

/-- Writes of a result keep the scratchpad. -/
theorem State.writes_scratch (s : State) (ws : List Wr) : (s.writes ws).wg.scratch = s.wg.scratch := by
  have hwrite (s : State) (w : Wr) : (s.write1 w).wg.scratch = s.wg.scratch := by cases w <;> rfl
  have hfold (l : List Wr) (s : State) : (l.foldl State.write1 s).wg.scratch = s.wg.scratch := by
    induction l generalizing s with
    | nil => rfl
    | cons w r ih => exact (ih _).trans (hwrite s w)
  exact hfold ws _

@[simp] theorem retireNow_scratch (s : State) (m : LaneMask) : (retireNow s m).wg.scratch = s.wg.scratch := State.writes_scratch ..

/-- What stands in the thread and its scratchpad when a word has faulted into the handler and its log has been written (R65, R128). -/
theorem logged_takeTrap_enters {s : State} (hnone : s.th.handler = none) (hhdl : s.th.hdl ≠ 0) (htroupe : s.th.agent.isTroupe = true)
    (c : Cause) (lane : Nat) (r : TrapRegs) (log : List LogWord) :
    let t := logged (takeTrap s c lane false r log)
    t.th.grp.pc = s.th.hdl ∧ t.th.grp.mask = s.th.grp.mask ∧ t.th.handler = some ⟨s.th.grp.mask, none⟩ ∧ t.th.trappc = s.th.grp.pc ∧
      t.th.trapcause = BitVec.ofNat 32 (c.code + lane % 32 * 256) ∧ t.th.hdl = s.th.hdl ∧ t.wg.scratch = s.wg.scratch := by
  intro t
  obtain ⟨hpc, hmask, hhandler, htrappc, hcause, -, hkept, -⟩ := takeTrap_enters hnone hhdl htroupe c lane false r log
  obtain ⟨hth, hscratch⟩ := logged_records (takeTrap s c lane false r log)
  have htrap : (takeTrap s c lane false r log).wg.scratch = s.wg.scratch := by
    rw [takeTrap_eq_enterHandler hnone hhdl htroupe]
    exact retireNow_scratch ..
  refine ⟨?_, ?_, ?_, ?_, ?_, ?_, hscratch.trans htrap⟩ <;> rw [hth] <;> assumption

/-- The word has raised PROT: its sub-group stands in the handler with cause 6, and the scratchpad is as it was (R65, R205). -/
def EntersWithProt (s : State) (o : Out) : Prop :=
  ∃ t, o = .next t ∧ t.th.grp.pc = s.th.hdl ∧ t.th.grp.mask = s.th.grp.mask ∧ t.th.trappc = s.th.grp.pc ∧
    t.th.trapcause.toNat % 256 = 6 ∧ t.th.handler = some ⟨s.th.grp.mask, none⟩ ∧ t.wg.scratch = s.wg.scratch

/-- A PROT trap where the fault record has been written, or dropped. -/
theorem takeTrap_entersWithProt {s u : State} (hrecords : Records s u) (hnone : s.th.handler = none) (hhdl : s.th.hdl ≠ 0)
    (htroupe : s.th.agent.isTroupe = true) (lane : Nat) (r : TrapRegs) (log : List LogWord) :
    EntersWithProt s (.next (logged (takeTrap u .prot lane false r log))) := by
  obtain ⟨hth, hscratch⟩ := hrecords
  unfold EntersWithProt
  rw [← hth] at hnone hhdl htroupe ⊢
  obtain ⟨hpc, hmask, hhandler, htrappc, hcause, -, hkept⟩ := logged_takeTrap_enters hnone hhdl htroupe .prot lane r log
  refine ⟨_, rfl, hpc, hmask, htrappc, ?_, hhandler, hkept.trans hscratch⟩
  rw [hcause, BitVec.toNat_ofNat, show Cause.prot.code = 6 from rfl]
  omega

/-- A word of a troupe that has a handler and no store out enters it when it raises PROT (R65, R127, R355). -/
theorem protWord_enters {s0 s : State} (hfabric : s0.th.fabric = []) (hnone : s.th.handler = none) (hhdl : s.th.hdl ≠ 0)
    (htroupe : s.th.agent.isTroupe = true) (lane : Nat) (lw : LogWord) : EntersWithProt s (protWord s0 s lane lw) := by
  have hstores : ¬storesOut s0.th = true := by simp [storesOut, hfabric]
  have hout : ¬outsideHandler s.th = true := ne_true_of_eq_false (outsideHandler_of_none hnone)
  unfold protWord faultWord
  dsimp only
  rw [if_neg hstores, if_neg (by decide), if_neg hout, if_pos rfl]
  split
  · exact takeTrap_entersWithProt (.refl s) hnone hhdl htroupe ..
  · next hrecord => exact takeTrap_entersWithProt (writeRecord_records hrecord) hnone hhdl htroupe ..

/-! ### Handles that are not bound -/

section
variable {i : Instr} {hd : Hdr} {s : State} {h : Nat}

/-- A signalling word refuses a handle that is not bound, and PHANY a handle of another mode than `any` (R205, R206). -/
theorem signalWord_refuses {d : Operand} {any : Bool} {scope : Scope} {bind : Option Nat} {na nb : Nat} {a b : Operand}
    (hissue : issuesNow i (usesOr i d) hd s = true) (hact : partaking i hd s ≠ 0)
    (hbad : handleAt (issued i (usesOr i d) [] hd s) h = none ∨
      any = true ∧ ∃ ph, handleAt (issued i (usesOr i d) [] hd s) h = some ph ∧ ph.mode ≠ .any) :
    let t := issued i (usesOr i d) [] hd s
    signalWord i hd h d any scope bind na a nb b s = phRefuse s t i hd (partaking i hd s) (phLane t (partaking i hd s) na a nb b) := by
  intro t
  rw [signalWord, issue_now hissue]
  dsimp only
  rw [if_neg hact]
  rcases hbad with hunbound | ⟨hany, ph, hat, hmode⟩
  · rw [hunbound]
  · rw [hat]
    dsimp only
    cases phNode (issued i (usesOr i d) [] hd s) ph.name with
    | none => rfl
    | some node => exact if_pos (.inr ⟨hany, hmode⟩)

/-- A word that waits for a phase refuses a handle that is not bound (R206). -/
theorem phWaitWord_refuses {a : Operand} {ok : PhHandle → PhNode → Bool} {w : LaneMask → Word → Wait}
    (hissue : issuesNow i i.uses hd s = true) (hact : partaking i hd s ≠ 0) (hunbound : handleAt (issued i i.uses [] hd s) h = none) :
    let t := issued i i.uses [] hd s
    phWaitWord i hd h a ok w s = phRefuse s t i hd (partaking i hd s) (phLane t (partaking i hd s) 1 a 0 a) := by
  intro t
  rw [phWaitWord, issue_now hissue]
  dsimp only
  rw [if_neg hact, hunbound]
  rfl

end

/-- Settles O15: each word refuses its handle, and a refused word enters the handler. -/
theorem unboundHandlesRaiseProt : Obligations.UnboundHandlesRaiseProt := by
  unfold Obligations.UnboundHandlesRaiseProt
  intro Prot unbound other x
  have prot {i uses hd bad} (hrefuses : ∀ s, issuesNow i uses hd s = true → partaking i hd s ≠ 0 → bad (issued i uses [] hd s) →
      ∃ x, exec i s = phRefuse s (issued i uses [] hd s) i hd (partaking i hd s) x) : Prot i uses hd bad := by
    intro s hissue hact hbad hfabric hnone hhdl htroupe
    obtain ⟨x, hexec⟩ := hrefuses s hissue hact hbad
    rw [hexec, phRefuse]
    simpa only [EntersWithProt, issued_th_grp, issued_th_hdl, issued_wg] using protWord_enters (s := issued i uses [] hd s) hfabric
      (issued_th_handler.trans hnone) (by rwa [issued_th_hdl]) (by rwa [issued_th_agent]) x.lane
      (logOf i hd (issued i uses [] hd s).th (partaking i hd s) (laneBit x.lane) [x])
  clear_value Prot
  refine ⟨prot ?drop, fun d scope => prot ?signal, fun d tl b => prot ?bound, fun d a => prot ?any, fun d a tl b => prot ?anyBound,
    fun a scope => prot ?wait, fun d a scope => prot ?win, fun a b => prot ?time⟩
  case drop =>
    intro s hissue hact hunbound
    rw [exec_phdrop, execPhdrop, issue_now hissue, if_neg hact, hunbound]
    exact ⟨_, rfl⟩
  case signal => exact fun s hissue hact hunbound => ⟨_, (exec_phsig x d scope s).trans (signalWord_refuses hissue hact (.inl hunbound))⟩
  case bound => exact fun s hissue hact hunbound => ⟨_, (exec_phsigb x d tl b s).trans (signalWord_refuses hissue hact (.inl hunbound))⟩
  case any => exact fun s hissue hact hbad => ⟨_, (exec_phany x d a s).trans (signalWord_refuses hissue hact (hbad.imp_right (.intro rfl)))⟩
  case anyBound =>
    exact fun s hissue hact hbad => ⟨_, (exec_phanyBind x d a tl b s).trans (signalWord_refuses hissue hact (hbad.imp_right (.intro rfl)))⟩
  case wait => exact fun s hissue hact hunbound => ⟨_, (exec_phwait x a scope s).trans (phWaitWord_refuses hissue hact hunbound)⟩
  case win => exact fun s hissue hact hunbound => ⟨_, (exec_phwin x d a scope s).trans (phWaitWord_refuses hissue hact hunbound)⟩
  case time =>
    intro s hissue hact hunbound
    rw [exec_phtime, execPhtime, issue_now hissue, if_neg hact]
    dsimp only
    rw [hunbound]
    exact ⟨_, rfl⟩

end Sys2Proof.Machine
end

section
/-!
PROOF. SREAD, SETHDL and HALT (R212, R214, R219, R220): the width of a special register and the word that names an odd pair, the address that
is no multiple of 8, and the events of a core; then the statements about them.
-/

namespace Sys2Proof.Machine

/-! ### SREAD -/

/-- The words of a special register are those that its width takes (R14, R212). -/
theorem specialWords_eq (n : BitVec 6) : (Operand.s n).specialWords = if special64 n.toNat then 2 else 1 := by
  revert n
  decide

/-- A field that names a register of odd number names an odd register (R49). -/
theorem dec_odd {d : BitVec 9} (h : d.toNat < 384) (hodd : d.toNat % 2 = 1) :
    (∃ r : BitVec 8, Operand.dec d = .v r ∧ r.toNat % 2 = 1) ∨ ∃ r : BitVec 7, Operand.dec d = .k r ∧ r.toNat % 2 = 1 := by
  by_cases hlow : d.toNat < 256
  · have h8 : d.getLsbD 8 = false := by
      rw [BitVec.getLsbD, Nat.testBit_eq_decide_div_mod_eq]
      exact decide_eq_false (by omega)
    refine .inl ⟨_, if_neg (by rw [h8]; decide), ?_⟩
    rw [BitVec.extractLsb'_toNat, Nat.shiftRight_zero]
    omega
  · refine .inr ⟨_, dec_uniform (by omega) h, ?_⟩
    rw [BitVec.toNat_setWidth]
    omega

/-- SREAD of a 64-bit register takes no odd D (R10, R212). -/
theorem operandsOk_sread_odd {d : BitVec 9} {n : BitVec 6} (hd : Hdr) (nr : Nat) (hwide : special64 n.toNat = true) (h : d.toNat < 384)
    (hodd : d.toNat % 2 = 1) : (Instr.sread hd (.dec d) (.s n)).operandsOk .troupe nr = false := by
  have huses : (Instr.sread hd (.dec d) (.s n)).uses = [(.dst 2, .dec d), (.special, .s n)] := by
    show [(Role.dst (Operand.s n).specialWords, Operand.dec d), (.special, .s n)] = _
    rw [specialWords_eq, if_pos hwide]
  have hd : (Role.dst 2).accepts nr (.dec d) = false := by
    obtain ⟨r, hr, hodd⟩ | ⟨r, hr, hodd⟩ := dec_odd h hodd <;> simp [hr, Role.accepts, Operand.regOk, hodd]
  simp [Instr.operandsOk, huses, hd]

/-- What a troupe decodes from a word of SREAD whose operands may not stand where they stand (R64). -/
theorem decode_sread_operand {hd : Hdr} {d a : BitVec 9} {nr : Nat}
    (h : (Instr.sread hd (.dec d) (.dec a)).operandsOk .troupe nr = false) :
    decode .troupe nr (encFull 960 hd d a 0 0) = .error ⟨encFull 960 hd d a 0 0, .operand, false⟩ := by
  have hgroup : ((BitVec.ofNat 10 960).extractLsb' 6 4).toNat = 15 := op_hi 960 (by decide)
  have hposition : ((BitVec.ofNat 10 960).extractLsb' 0 6).toNat = 0 := op_lo 960 (by decide)
  have hruns : (!engineRunsGroup .troupe 15 || (decide (0 < groupSize 15) && !engineRuns .troupe 15 0)) = false := by decide
  have hparse : (⟨BitVec.ofNat 10 960, hd.la, hd.guard, hd.neg, d, a, 0, 0⟩ : Raw).parse =
      some ⟨false, false, .sread hd (.dec d) (.dec a)⟩ := by
    rw [parse_at ⟨BitVec.ofNat 10 960, hd.la, hd.guard, hd.neg, d, a, 0, 0⟩ 15 0 hgroup hposition, parseAt_15]
    have hspecial : (!(0 : BitVec 18).getLsbD 0) = true := by decide
    unfold parseG15
    dsimp only
    rw [if_pos hspecial]
    rfl
  have hhints : (Instr.sread hd (.dec d) (.dec a)).hintsOk = true := rfl
  have hfields : (Instr.sread hd (.dec d) (.dec a)).fieldsOk = true := rfl
  have hcodes : (Instr.sread hd (.dec d) (.dec a)).codesOk .troupe = true := rfl
  have hfull : decodeFull .troupe nr (encFull 960 hd d a 0 0) = .error .operand := by
    unfold decodeFull encFull
    rw [unpack_pack]
    dsimp only
    rw [hgroup, hposition, hruns, hparse]
    simp only [hhints, hfields, hcodes, h, Bool.not_true, Bool.not_false, Bool.or_self, Bool.false_eq_true, if_false, if_true]
  rw [decode_encFull_eq, hfull]

/-- The word of an SREAD as the fields of R48 give it. -/
theorem encFull_sread (d : BitVec 9) (n : BitVec 6) :
    (0#1 ++ 0x3c0#10 ++ 0#4 ++ 7#3 ++ 0#1 ++ d ++ (384 + n.setWidth 9) ++ 0#9 ++ 0#18 : DWord) =
      encFull 960 ⟨0, 7, false⟩ d (Operand.s n).enc 0 0 := by
  have ha : 384 + n.setWidth 9 = (Operand.s n).enc := by
    revert n
    decide
  rw [ha]
  rfl

/-- Settles O16. -/
theorem sreadReadsSpecials : Obligations.SreadReadsSpecials := by
  refine ⟨?reads, fun s l => ⟨rfl, rfl⟩, ?odd⟩
  case reads =>
    intro hd d n s i u hissue _
    rw [← specialWords_eq]
    exact exec_sread_now hissue
  case odd =>
    intro nr n d _ hwide hd hodd w
    have hw : w = encFull 960 ⟨0, 7, false⟩ d (Operand.s n).enc 0 0 := encFull_sread d n
    rw [hw]
    refine decode_sread_operand ?_
    rw [dec_enc]
    exact operandsOk_sread_odd _ nr hwide hd hodd

/-! ### SETHDL -/

/-- A marked operand sets DATAF alone (R16). -/
theorem noteMark_shape (th : Thread) (mark : Bool) : noteMark th mark = { th with err := (noteMark th mark).err } := by
  cases mark <;> rfl

/-- An address that is no multiple of 8 raises ALIGN, with no store out and no other sub-group in the handler (R127, R214). -/
theorem exec_sethdl_misaligned {hd : Hdr} {a : Operand} {s : State} (hissue : issuesNow (.sethdl hd a) (Instr.sethdl hd a).uses hd s = true)
    (hact : partaking (.sethdl hd a) hd s ≠ 0)
    (hmisaligned : (opnd64 (issued (.sethdl hd a) (Instr.sethdl hd a).uses [] hd s) (lowLane (partaking (.sethdl hd a) hd s)) a).toNat % 8 ≠ 0)
    (hfabric : s.th.fabric = []) (hnone : s.th.handler = none) :
    let act := partaking (.sethdl hd a) hd s
    let l := lowLane act
    let t := issued (.sethdl hd a) (Instr.sethdl hd a).uses [] hd s
    let w := logOf (.sethdl hd a) hd t.th act (laneBit l) [⟨l, 0, opnd64 t l a, 0, 0, false, t.th.marked l 2 a⟩]
    exec (.sethdl hd a) s = .next (logged (takeTrap t .align l false (fullTrapRegs w.word 0) [w])) := by
  intro act l t w
  have hgo : ¬(outsideHandler s.th || storesOut s.th) = true := by simp [outsideHandler_of_none hnone, storesOut, hfabric]
  rw [exec_sethdl, execSethdl, issue_now hissue]
  dsimp only
  rw [if_neg hact]
  exact (if_pos hmisaligned).trans (if_neg hgo)

/-- Settles O14. -/
theorem sethdlSetsHandler : Obligations.SethdlSetsHandler := by
  refine ⟨?sets, ?refuses⟩
  case sets =>
    intro hd a s i l hissue hact haligned
    refine ⟨_, exec_sethdl_aligned hissue hact haligned, ?_⟩
    rw [onward_setTh, noteMark_shape, issued_shape]
    exact ⟨rfl, rfl, rfl, ⟨fun _ _ => rfl, fun _ => rfl, fun _ _ => rfl⟩, rfl, rfl, rfl⟩
  case refuses =>
    intro hd a s i l hissue hact hmisaligned hfabric hnone hhdl htroupe
    obtain ⟨hpc, -, hhandler, htrappc, hcause, hkept, -⟩ := logged_takeTrap_enters (s := issued i i.uses [] hd s)
      (issued_th_handler.trans hnone) (by rwa [issued_th_hdl]) (by rwa [issued_th_agent]) .align l
      (fullTrapRegs (logOf i hd (issued i i.uses [] hd s).th (partaking i hd s) (laneBit l)
        [⟨l, 0, opnd64 (issued i i.uses [] hd s) l a, 0, 0, false, (issued i i.uses [] hd s).th.marked l 2 a⟩]).word 0) _
    rw [issued_th_hdl] at hpc hkept
    rw [issued_th_grp] at hhandler htrappc
    exact ⟨_, exec_sethdl_misaligned hissue hact hmisaligned hfabric hnone, hkept, hpc, hhandler, htrappc, hcause⟩

/-! ### HALT -/

@[simp] theorem issued_th_status {i : Instr} {uses : List (Role × Operand)} {preds : List (BitVec 3)} {hd : Hdr} {s : State} :
    (issued i uses preds hd s).th.status = s.th.status := by rw [issued_shape]

section
variable {s : State} {core : Nat} {th : Thread}

/-- The thread of an agent is that agent's. -/
theorem agent_of_thread {a : Agent} (h : s.thread a = some th) : th.agent = a := by
  unfold State.thread at h
  split at h
  · next hcurrent => exact Option.some.inj h ▸ hcurrent
  · simpa using List.find?_some h

/-- An event wakes its core, whose sub-group stays where it is (R219). -/
theorem wakeCore_thread (h : s.thread (coreAgent core) = some th) : ∃ u, (wakeCore s core).thread (coreAgent core) = some u ∧ u.grp = th.grp ∧
    u.status = if th.status = .halted then .running else th.status := by
  have hagent := agent_of_thread h
  refine ⟨_, State.thread_setThread s _ _ th h ?_, ?_, ?_⟩
  · split <;> exact hagent
  · split <;> rfl
  · split <;> rfl

/-- Waking a core changes no timer. -/
theorem wakeCore_timer (s : State) (core n : Nat) : (wakeCore s core).timer n = s.timer n := by
  unfold wakeCore State.setThread
  split <;> rfl

end

/-- A word without operands has ended, and its agent stands at the next word in a status. -/
def standing (i : Instr) (hd : Hdr) (st : Status) (s : State) : State :=
  onward ((issued i [] [] hd s).setTh { (issued i [] [] hd s).th with status := st })

section
variable {i : Instr} {hd : Hdr} {st : Status} {s : State}

theorem standing_pc : (standing i hd st s).th.grp.pc = nextPc s.th.grp :=
  congrArg nextPc (issued_th_grp (i := i) (uses := []) (preds := []) (hd := hd))

theorem standing_sameMemory : sameMemory (standing i hd st s) s := ⟨rfl, rfl, rfl⟩

theorem standing_sameRegisters : sameRegisters (standing i hd st s).th s.th :=
  (((issued_flows i [] [] hd s).trans (setStatus_flows _ st)).trans (advance_flows _)).sameRegisters

theorem standing_status : (standing i hd st s).th.status = st := rfl

/-- HALT stands halted, unless the timer event of its core is pending (R219, R220). -/
theorem exec_halt_now (hissue : issuesNow (.halt hd) [] hd s = true) (hact : partaking (.halt hd) hd s ≠ 0) :
    exec (.halt hd) s = .next (standing (.halt hd) hd (if (s.timer (coreNo s.th.agent)).timer then s.th.status else .halted) s) := by
  obtain ⟨-, -, -, -, hhalt, -⟩ := controlCoreWordsComplete
  have htimer : (issued (.halt hd) [] [] hd s).timer (coreNo (issued (.halt hd) [] [] hd s).th.agent) = s.timer (coreNo s.th.agent) := by
    rw [issued_th_agent]
    rfl
  rw [hhalt hd s hissue hact trivial]
  dsimp only
  rw [htimer]
  split
  · rw [standing, ← issued_th_status (i := .halt hd) (uses := []) (preds := []) (hd := hd)]
    rfl
  · rfl

end

/-- Settles O17. That the timer event alone is latched, so that HALT stops although another event came before, is log entry 44. -/
theorem haltWaitsForEvent : Obligations.HaltWaitsForEvent := by
  obtain ⟨-, -, -, -, -, hstop⟩ := controlCoreWordsComplete
  refine ⟨?halt, ?stop, ?event, ?timer⟩
  case halt =>
    exact fun hd s hissue hact => ⟨_, exec_halt_now hissue hact, standing_pc, standing_sameMemory, standing_sameRegisters, standing_status⟩
  case stop =>
    exact fun hd s hissue hact => ⟨standing (.haltStop hd) hd .stopped s, hstop hd s hissue hact trivial, standing_pc, standing_status⟩
  case event =>
    intro core e s th hth hevent
    have hcomes : ¬(e = .timer ∧ (!(s.timer core).timer) = true) := by
      rintro ⟨rfl, hnone⟩
      rcases hevent with h | h
      · exact h rfl
      · simp [h] at hnone
    obtain ⟨u, hu, hgrp, hstatus⟩ := wakeCore_thread hth
    exact ⟨_, u, (exec_coreEventWake core e s).trans (if_neg hcomes), hu, hgrp, hstatus⟩
  case timer =>
    intro core s th hth hdue hnone
    have hcomes : ((s.timer core).due s.clock && !(s.timer core).timer) = true := by rw [hdue, hnone]; rfl
    obtain ⟨u, hu, hgrp, hstatus⟩ := wakeCore_thread (s := s.setTimer core { s.timer core with timer := true }) hth
    refine ⟨_, u, (exec_tcmpTimerEvent core s).trans (if_pos hcomes), ?_, hu, hgrp, hstatus⟩
    rw [wakeCore_timer, State.timer_setTimer]

end Sys2Proof.Machine
end

section
/-!
PROOF. The canonical form of memory (R249, R351, R397): what rests on the three tables alone, results that come with a state, folds and what a
step answers; then that written bytes read back.
-/

namespace Sys2Proof.Machine

/-! ### The three tables -/

/-- The canonical form depends on the three tables alone, whatever the other fields are put to. -/
@[simp] theorem wf_mk (u : State) {pkg debug clock podTime inputs turns free th wg cx threads wgs cxs keys trans tlbs walkers cores dies assists
    timers sends fabric carousels nocs tether colls collq collLagged collcfg forward queues launches ras trust power mailboxes host : _} :
    Memory.wf (.mk pkg debug clock podTime inputs turns free th wg cx threads wgs cxs u.mem u.memMark u.lineKey keys trans tlbs walkers cores
      dies assists timers sends fabric carousels nocs tether colls collq collLagged collcfg forward queues launches ras trust power mailboxes
      host) = Memory.wf u := rfl

@[simp] theorem wf_ite (c : Prop) [Decidable c] (s t : State) : Memory.wf (if c then s else t) = if c then Memory.wf s else Memory.wf t :=
  apply_ite ..

theorem Serves.wf_eq {s t : State} (h : Serves s t) : Memory.wf t = Memory.wf s := by
  rw [h.eq_served]
  rfl

/-! ### Results that come with a state -/

theorem wf_snd_eq {α : Type} {p : α × State} {a : α} {t : State} (h : p = (a, t)) : Memory.wf t = Memory.wf p.2 := by rw [h]

theorem wf_fst_eq {α : Type} {p : State × α} {a : α} {t : State} (h : p = (t, a)) : Memory.wf t = Memory.wf p.1 := by rw [h]

/-- Memory is in canonical form in the state that is left, and in the state of a step that has been made, if any. -/
structure BothWf (p : Option State × State) : Prop where
  made (t : State) (h : p.1 = some t) : Memory.wf t = true
  left : Memory.wf p.2 = true

theorem bothWf_none {s : State} (hs : Memory.wf s = true) : BothWf (none, s) := by
  refine ⟨fun t h => ?_, hs⟩
  cases h

theorem bothWf_some {s t : State} (ht : Memory.wf t = true) (hs : Memory.wf s = true) : BothWf (some t, s) :=
  ⟨fun _ h => Option.some.inj h ▸ ht, hs⟩

theorem BothWf.of_some {p : Option State × State} {s t : State} (h : BothWf p) (heq : p = (some t, s)) :
    Memory.wf t = true ∧ Memory.wf s = true := by
  subst heq
  exact ⟨h.made t rfl, h.left⟩

theorem BothWf.of_none {p : Option State × State} {s : State} (h : BothWf p) (heq : p = (none, s)) : Memory.wf s = true :=
  (wf_snd_eq heq).trans h.left

/-! ### Folds -/

/-- Steps of which each keeps the canonical form of the state that they have reached keep it together. -/
theorem foldl_wf_of {α β : Type} (R : β → State) (f : β → α → β) (hf : ∀ b x, Memory.wf (R b) = true → Memory.wf (R (f b x)) = true)
    (l : List α) (b : β) (hb : Memory.wf (R b) = true) : Memory.wf (R (l.foldl f b)) = true := by
  induction l generalizing b with
  | nil => exact hb
  | cons x r ih => exact ih _ (hf b x hb)

/-- Steps of which none touches the three tables do not touch them together. -/
theorem foldl_wf_eq_of {α β : Type} (R : β → State) (f : β → α → β) (hf : ∀ b x, Memory.wf (R (f b x)) = Memory.wf (R b))
    (l : List α) (b : β) : Memory.wf (R (l.foldl f b)) = Memory.wf (R b) := by
  induction l generalizing b with
  | nil => rfl
  | cons x r ih => exact (ih _).trans (hf b x)

@[simp] theorem foldl_wf_eq {α : Type} (l : List α) (f : State → α → State) (hf : ∀ s x, Memory.wf (f s x) = Memory.wf s) (s : State) :
    Memory.wf (l.foldl f s) = Memory.wf s := foldl_wf_eq_of id f hf l s

/-! ### Answers -/

/-- The state that the step leaves, if it goes on, has its memory in canonical form. -/
def Out.wf : Out → Bool
  | .next t => Memory.wf t
  | .fault _ => true
  | .refused _ => true

@[simp] theorem Out.wf_next (t : State) : Out.wf (.next t) = Memory.wf t := rfl
@[simp] theorem Out.wf_fault (f : Fault) : Out.wf (.fault f) = true := rfl
@[simp] theorem Out.wf_refused (r : Refusal) : Out.wf (.refused r) = true := rfl

@[simp] theorem Out.wf_ite (c : Prop) [Decidable c] (a b : Out) : Out.wf (if c then a else b) = if c then Out.wf a else Out.wf b := apply_ite ..

/-- A word keeps the canonical form where its body does. -/
theorem issue_wf {i : Instr} {uses : List (Role × Operand)} {preds : List (BitVec 3)} {hd : Hdr} {s : State} {body : LaneMask → State → Out}
    (hs : Memory.wf s = true) (hbody : ∀ act u, Memory.wf u = true → Out.wf (body act u) = true) :
    Out.wf (issue i uses preds hd s body) = true := by
  obtain heq | ⟨-, heq⟩ := issue_cases (i := i) (uses := uses) (preds := preds) (hd := hd) (s := s) body
  · rw [heq]
    exact hs
  · rw [heq]
    exact hbody _ _ hs

theorem Confined.wf {s : State} {o : Out} (h : Confined s o) (hs : Memory.wf s = true) : Out.wf o = true := by
  cases o with
  | next t =>
    rw [h.eq_of_next t rfl]
    exact hs
  | fault f => rfl
  | refused r => rfl

theorem FlowsOn.wf {s : State} {o : Out} (h : FlowsOn s o) (hs : Memory.wf s = true) : Out.wf o = true := by
  cases o with
  | next t =>
    rw [(h.of_next t rfl).2]
    exact hs
  | fault f => rfl
  | refused r => rfl

/-! ### Reading back -/

/-- A line that a write touches is of the write's key index when the write ends (R351). -/
theorem keyMatches_memPut {s : State} {key pa a : Nat} {data : List Byte} (h : a / 128 ∈ linesOf pa data.length) :
    keyMatches (memPut s key pa data) key a = true := keyMatches_rekeys h s key

/-- A byte of a write reads back under the write's key index (R249, R351). -/
theorem memByte_memPut_self (s : State) (key pa : Nat) (data : List Byte) {i : Nat} (h : i < data.length) :
    memByte (memPut s key pa data) key (pa + i) = data[i] := by
  have hline : (pa + i) / 128 ∈ linesOf pa data.length := mem_linesOf (Nat.le_add_right pa i) (Nat.add_lt_add_left h pa)
  rw [memByte_of_match (keyMatches_memPut hline)]
  refine (tget_putRaw ..).trans ?_
  rw [if_pos ⟨Nat.le_add_right pa i, Nat.add_lt_add_left h pa⟩, Nat.add_sub_cancel_left, List.getElem?_eq_getElem h, Option.getD_some]

/-- Written bytes read back under the write's key index (R249, R351). -/
theorem memBytes_memPut_self (s : State) (key pa : Nat) (data : List Byte) : memBytes (memPut s key pa data) key pa data.length = data := by
  refine List.ext_getElem (by simp [memBytes]) fun i _ hi => ?_
  simp only [memBytes, List.getElem_map, List.getElem_range]
  exact memByte_memPut_self s key pa data hi

/-- Settles O7: the lines written are first made lines of the write's key index, which changes nothing that a read gives. -/
theorem memoryReadsBack : Obligations.MemoryReadsBack := by
  intro s key pa data t
  refine ⟨memBytes_memPut_self s key pa data, fun a hout => memByte_memPut key hout (.inr rfl), fun k a hline => ?_, memPut_wf s key pa data⟩
  have hnot : a / 128 ∉ linesOf pa data.length := by simpa using hline
  refine memByte_memPut key ?_ (.inl hnot)
  by_contra hin
  exact hnot (mem_linesOf (by omega) (by omega))

end Sys2Proof.Machine
end

section
/-!
PROOF. The canonical form of memory (R249, R351, R397) over the operations of an agent, the fabric, the tables of memory and the save areas.
A function that leaves the three tables alone has a lemma `…_wf_eq`; one that writes them has a lemma `…_wf`, which asks for the form before.
-/

namespace Sys2Proof.Machine

/-! ### The operations that every word shares -/

@[simp] theorem State.setTh_wf_eq (s : State) (th : Thread) : Memory.wf (s.setTh th) = Memory.wf s := rfl

@[simp] theorem State.write1_wf_eq (s : State) (y : Wr) : Memory.wf (s.write1 y) = Memory.wf s := by
  unfold State.write1
  split <;> simp

@[simp] theorem State.writes_wf_eq (s : State) (ws : List Wr) : Memory.wf (s.writes ws) = Memory.wf s := by simp [State.writes]

@[simp] theorem writeSlots_wf_eq (hd : Hdr) (olds ws res : List Wr) (s : State) :
    Memory.wf (writeSlots hd olds ws res s) = Memory.wf s := by
  simp [writeSlots]

@[simp] theorem endWorkgroupAgents_wf_eq (s : State) (c w : Nat) (why : Cause) : Memory.wf (endWorkgroupAgents s c w why) = Memory.wf s :=
  rfl

@[simp] theorem endAgent_wf_eq (s : State) (c : Cause) : Memory.wf (endAgent s c) = Memory.wf s := by
  unfold endAgent
  split <;> simp

@[simp] theorem retireNow_wf_eq (s : State) (m : LaneMask) : Memory.wf (retireNow s m) = Memory.wf s := by simp [retireNow]

@[simp] theorem takeTrap_wf_eq (s : State) (c : Cause) (lane : Nat) (slot : Bool) (r : TrapRegs) (log : List LogWord) :
    Memory.wf (takeTrap s c lane slot r log) = Memory.wf s := by simp [takeTrap]

theorem trapWord_wf (s : State) (i : Instr) (c : Cause) (m : LaneMask) (reason : Nat) (log : List LogWord) (hs : Memory.wf s = true) :
    Out.wf (trapWord s i c m reason log) = true := by simp [trapWord, hs]

/-! ### The sending side of the fabric -/

@[simp] theorem State.setFab_wf_eq (s : State) (f : Fabric) : Memory.wf (s.setFab f) = Memory.wf s := rfl

theorem pickPlane_wf_eq {s t : State} {dsts : List Nat} {last : Option Nat} {flits n : Nat}
    (h : pickPlane s dsts last flits = some (n, t)) : Memory.wf t = Memory.wf s := (pickPlane_serves h).wf_eq

@[simp] theorem emitUnicast_wf_eq (e : Sent) (l : List Nat) (s : State) : Memory.wf (emitUnicast e l s).2 = Memory.wf s :=
  (emitUnicast_serves ..).wf_eq

@[simp] theorem emitCopy_wf_eq (key : Nat × Nat × Nat) (e : Sent) (s : State) : Memory.wf (emitCopy key e s).2 = Memory.wf s :=
  (emitCopy_serves ..).wf_eq

@[simp] theorem pumpWith_wf_eq (key : Nat × Nat × Nat) (l : List Sent) (s : State) : Memory.wf (pumpWith key l s) = Memory.wf s :=
  (pumpWith_serves ..).wf_eq

@[simp] theorem pump_wf_eq (s : State) (key : Nat × Nat × Nat) : Memory.wf (pump s key) = Memory.wf s := by simp [pump]

@[simp] theorem pumpAll_wf_eq (s : State) : Memory.wf (pumpAll s) = Memory.wf s := by simp [pumpAll]

@[simp] theorem newTag_wf_eq (s : State) : Memory.wf (newTag s).2 = Memory.wf s := (newTag_serves ..).wf_eq

@[simp] theorem sendFrom_wf_eq (s : State) (die : Nat) (p : Packet) : Memory.wf (sendFrom s die p) = Memory.wf s :=
  (sendFrom_serves ..).wf_eq

@[simp] theorem sendPacket_wf_eq (s : State) (p : Packet) : Memory.wf (sendPacket s p) = Memory.wf s := by simp [sendPacket]

/-! ### Memory, walks and caches -/

@[simp] theorem noteRequest_wf_eq (s : State) (pa pkg die : Nat) : Memory.wf (noteRequest s pa pkg die) = Memory.wf s :=
  (noteRequest_serves ..).wf_eq

@[simp] theorem noteAsker_wf_eq (s : State) (pa core : Nat) : Memory.wf (noteAsker s pa core) = Memory.wf s := (noteAsker_serves ..).wf_eq

@[simp] theorem State.setDie_wf_eq (s : State) (d : Nat) (v : DieView) : Memory.wf (s.setDie d v) = Memory.wf s := rfl

@[simp] theorem drainDie_wf_eq (s : State) (d : Nat) : Memory.wf (drainDie s d) = Memory.wf s := (drainDie_serves ..).wf_eq

@[simp] theorem rdcInsert_wf_eq (s : State) (d : Nat) (c : CacheLine) : Memory.wf (rdcInsert s d c) = Memory.wf s :=
  (rdcInsert_serves ..).wf_eq

@[simp] theorem homeSpread_wf_eq (s : State) (key : Nat) (w : MemWrite) (h by_ : Nat) :
    Memory.wf (homeSpread s key w h by_) = Memory.wf s :=
  (homeSpread_serves ..).wf_eq

@[simp] theorem cacheWalk_wf_eq (s : State) (ix asid : Nat) (ptrs : List (Nat × Nat)) :
    Memory.wf (cacheWalk s ix asid ptrs) = Memory.wf s := by
  unfold cacheWalk
  split <;> simp

@[simp] theorem noteWalk_wf_eq (s : State) (die : Nat) (known : List (Nat × Nat)) (ptrs : List (Nat × Nat)) :
    Memory.wf (noteWalk s die known ptrs) = Memory.wf s := (noteWalk_serves ..).wf_eq

@[simp] theorem walk_wf (s : State) (ix asid va : Nat) (p : Purpose) (hs : Memory.wf s = true) :
    Memory.wf (walk s ix asid va p).2 = true := by
  unfold walk
  dsimp only
  repeat' split
  all_goals simp [hs, homeWrite_wf]

@[simp] theorem translate_wf (s : State) (ix asid va : Nat) (p : Purpose) (hs : Memory.wf s = true) :
    Memory.wf (translate s ix asid va p).2 = true := by
  unfold translate
  split
  · exact hs
  · split
    · split <;> exact hs
    · split <;> next hwalk => simp [wf_snd_eq hwalk, hs]

theorem writeRecord_wf {s t : State} {va asid agent ctx wgl core id : Nat} {c : Refused} {kind : Access} {reply : Bool}
    (h : writeRecord s va asid c agent ctx wgl core kind reply = some (id, t)) (hs : Memory.wf s = true) : Memory.wf t = true := by
  unfold writeRecord at h
  split at h
  · split at h
    · cases h
    · cases h
      exact hs
  · cases h
    simp [homeWrite_wf, hs]

theorem writeFault_wf {s t : State} {va asid agent ctx wgl core id : Nat} {c : Refused} {kind : Access}
    (h : writeFault s va asid c agent ctx wgl core kind = some (id, t)) (hs : Memory.wf s = true) :
    Memory.wf t = true := writeRecord_wf h hs

@[simp] theorem putWg_wf_eq (s : State) (g : Workgroup) : Memory.wf (putWg s g) = Memory.wf s := by simp [putWg]

/-! ### Save areas -/

@[simp] theorem lineWrite_wf_eq (s : State) (line key : Nat) (w : MemWrite) : Memory.wf (lineWrite s line key w).2 = Memory.wf s :=
  (lineWrite_serves ..).wf_eq

/-- Setting the key of several lines keeps the canonical form. -/
theorem twf_setKeys (ls : List Nat) (m : TMap Nat) (key : Nat) (h : twf 0 m = true) :
    twf 0 (ls.foldl (fun m l => tset 0 m l key) m) = true := by
  induction ls generalizing m with
  | nil => exact h
  | cons l r ih => exact ih _ (twf_tset _ _ _ _ h)

/-- A write to a save area keeps the canonical form (R352, R358). -/
@[simp] theorem savePut_wf (s : State) (c pa : Nat) (data : List Byte) (marks : List Nat) (hs : Memory.wf s = true) :
    Memory.wf (savePut s c pa data marks) = true := by
  unfold savePut
  split
  · next x p h _ _ =>
    dsimp only
    split
    · exact hs
    · split
      · simp [hs]
      · have hkeyed := rekeys_wf ((linesOf pa data.length).filter fun l => decide (128 * l < pa) || decide (pa + data.length < 128 * l + 128)) s
          (saveKey s x) hs
        obtain ⟨hmem, hmark, hkey⟩ := (Memory.wf_iff _).mp hkeyed
        rw [homeSpread_wf_eq, Memory.wf_iff]
        exact ⟨twf_putBlock _ _ hmem, twf_setUnits _ _ _ (twf_setUnits _ _ _ hmark), twf_setKeys _ _ _ hkey⟩
  · exact hs

@[simp] theorem freeBytes_wf_eq (s : State) (n : Nat) : Memory.wf (freeBytes s n).2 = Memory.wf s := rfl

@[simp] theorem mapWhere_wf_eq (s : State) (f : Agent → Bool) (h : Thread → Thread) : Memory.wf (mapWhere s f h) = Memory.wf s := rfl

@[simp] theorem writePage_wf (g : Workgroup) (s : State) (j : Nat) (hs : Memory.wf s = true) : Memory.wf (writePage g s j) = true := by
  simp [writePage, hs]

@[simp] theorem readPage_wf_eq (c w : Nat) (s : State) (j : Nat) : Memory.wf (readPage c w s j) = Memory.wf s := by
  unfold readPage
  dsimp only
  repeat' split
  all_goals simp

@[simp] theorem evictPages_wf (s : State) (g : Workgroup) (l : List Nat) (hs : Memory.wf s = true) :
    Memory.wf (evictPages s g l) = true := (putWg_wf_eq ..).trans (foldl_wf _ _ (writePage_wf g) _ hs)

@[simp] theorem reclaimTo_wf (n : Nat) (l : List (Workgroup × Nat)) (s : State) (hs : Memory.wf s = true) :
    Memory.wf (reclaimTo n l s) = true := by
  refine foldl_wf _ _ (fun s p hs => ?_) _ hs
  split <;> simp [hs]

@[simp] theorem reback_wf (s : State) (c w : Nat) (hs : Memory.wf s = true) : Memory.wf (reback s c w) = true := by
  unfold reback
  split
  · exact hs
  · next g _ =>
    split
    · exact hs
    · exact foldl_wf _ _ (writePage_wf g) _ hs

@[simp] theorem rebackAll_wf (s : State) (hs : Memory.wf s = true) : Memory.wf (rebackAll s) = true := by
  unfold rebackAll
  refine foldl_wf _ _ (fun s g hs => ?_) _ hs
  exact reback_wf _ _ _ hs

@[simp] theorem touchPages_wf_eq (s : State) (c w : Nat) (l : List Nat) : Memory.wf (touchPages s c w l) = Memory.wf s := by
  unfold touchPages
  split <;> simp

@[simp] theorem touchScratch_wf_eq (s : State) (c w off n : Nat) : Memory.wf (touchScratch s c w off n) = Memory.wf s := by
  unfold touchScratch
  split <;> simp

@[simp] theorem saveMatrix_wf (s : State) (g : Workgroup) (hs : Memory.wf s = true) : Memory.wf (saveMatrix s g) = true := by
  simp [saveMatrix, hs]

@[simp] theorem saveItems_wf (s : State) (g : Workgroup) (entries : Nat) (hs : Memory.wf s = true) :
    Memory.wf (saveItems s g entries) = true := by simp [saveItems, hs]

@[simp] theorem saveLogWord_wf (c base : Nat) (s : State) (w : LogWord) (hs : Memory.wf s = true) :
    Memory.wf (saveLogWord c base s w) = true :=
  foldl_wf _ _ (fun _ _ hs => savePut_wf (hs := hs) ..) _ (savePut_wf (hs := hs) ..)

@[simp] theorem saveLog_wf (s : State) (l : List LogWord) (hs : Memory.wf s = true) : Memory.wf (saveLog s l) = true := by
  unfold saveLog
  split
  · exact foldl_wf _ _ (fun _ _ hs => saveLogWord_wf (hs := hs) ..) _ hs
  all_goals exact hs

@[simp] theorem logged_wf (s : State) (hs : Memory.wf s = true) : Memory.wf (logged s) = true := by simp [logged, hs]

@[simp] theorem saveWindows_wf (s : State) (g : Workgroup) (hs : Memory.wf s = true) : Memory.wf (saveWindows s g) = true :=
  foldl_wf _ _ (fun _ _ => foldl_wf _ _ (fun _ _ hs => savePut_wf (hs := hs) ..) _) _ hs

/-- What a step has changed of a workgroup that is swapped out is written in canonical form (R359, R360). -/
@[simp] theorem backWg_wf (s t : State) (g : Workgroup) (ht : Memory.wf t = true) : Memory.wf (backWg s t g) = true := by
  unfold backWg
  split
  · exact ht
  · split
    · exact ht
    · have hpages (l : List Nat) : Memory.wf (l.foldl (writePage g) t) = true := foldl_wf l _ (writePage_wf g) t ht
      dsimp only
      split
      · exact hpages _
      · exact saveWindows_wf _ _ (hpages _)

theorem backChanges_wf (s t : State) (ht : Memory.wf t = true) : Memory.wf (backChanges s t) = true := by
  unfold backChanges
  exact foldl_wf _ _ (backWg_wf s) _ ht

@[simp] theorem saveError_wf (s : State) (c n : Nat) (e : DWord) (hs : Memory.wf s = true) : Memory.wf (saveError s c n e) = true := by
  simp [saveError, hs]

end Sys2Proof.Machine
end

section
/-!
PROOF. The canonical form of memory (R249, R351, R397) over accesses, the stops of the Carousel, groups 7 to 9 and the front end.
-/

namespace Sys2Proof.Machine

/-! ### Accesses -/

@[simp] theorem State.setCore_wf_eq (s : State) (c : Nat) (x : CoreSt) : Memory.wf (s.setCore c x) = Memory.wf s := rfl

@[simp] theorem throttleMiss_wf_eq (s : State) (line : Nat) :
    Memory.wf (throttleMiss s line) = Memory.wf s := (throttleMiss_serves ..).wf_eq

@[simp] theorem throttleEvict_wf_eq (s : State) (core : Nat) (v : Option CacheLine) : Memory.wf (throttleEvict s core v) = Memory.wf s :=
  (throttleEvict_serves ..).wf_eq

@[simp] theorem refuseSlot_wf_eq (s : State) (core : Nat) (o : Option Nat) : Memory.wf (refuseSlot s core o) = Memory.wf s := by
  unfold refuseSlot
  split <;> simp

@[simp] theorem throttleRefuse_wf_eq (s : State) : Memory.wf (throttleRefuse s) = Memory.wf s := by simp [throttleRefuse]

@[simp] theorem l1Drop_wf_eq (s : State) (pa : Nat) : Memory.wf (l1Drop s pa) = Memory.wf s := (l1Drop_serves ..).wf_eq

@[simp] theorem rdcDrop_wf_eq (s : State) (d pa : Nat) : Memory.wf (rdcDrop s d pa) = Memory.wf s := (rdcDrop_serves ..).wf_eq

@[simp] theorem recordRead_wf_eq (s : State) (pa key n : Nat) (pkg die : Nat) : Memory.wf (recordRead s pa key n pkg die).2 = Memory.wf s :=
  rfl

@[simp] theorem dieReadAt_wf_eq (s : State) (d pa key n : Nat) : Memory.wf (dieReadAt s d pa key n).2 = Memory.wf s :=
  (dieReadAt_serves ..).wf_eq

@[simp] theorem coreReadAt_wf_eq (s : State) (core pa key n : Nat) : Memory.wf (coreReadAt s core pa key n).2 = Memory.wf s := by
  simp [coreReadAt]

@[simp] theorem dieRead_wf_eq (s : State) (pa key n : Nat) : Memory.wf (dieRead s pa key n).2 = Memory.wf s := (dieRead_serves ..).wf_eq

@[simp] theorem serveLoad_wf_eq (s : State) (lane : Nat) (order : Order) (scope : Scope) (hint : Hint) (pa key n : Nat) :
    Memory.wf (serveLoad s lane order scope hint pa key n).2 = Memory.wf s := (serveLoad_serves ..).wf_eq

@[simp] theorem ownL1_wf_eq (s : State) (pa key : Nat) (w : Option MemWrite) : Memory.wf (ownL1 s pa key w) = Memory.wf s :=
  (ownL1_serves ..).wf_eq

@[simp] theorem ownViews_wf_eq (s : State) (pa key : Nat) (data : List Byte) (mark : Bool) :
    Memory.wf (ownViews s pa key data mark) = Memory.wf s := (ownViews_serves ..).wf_eq

@[simp] theorem awayViews_wf_eq (s : State) (pa key : Nat) : Memory.wf (awayViews s pa key) = Memory.wf s := (awayViews_serves ..).wf_eq

@[simp] theorem awaitOwn_wf_eq (s : State) (tag lane pa key : Nat) (data : List Byte) (mark : Bool) :
    Memory.wf (awaitOwn s tag lane pa key data mark) = Memory.wf s := (awaitOwn_serves ..).wf_eq

@[simp] theorem serveStore_wf (s : State) (pa key : Nat) (data : List Byte) (mark : Bool) (hs : Memory.wf s = true) :
    Memory.wf (serveStore s pa key data mark).2 = true := by
  unfold serveStore
  dsimp only
  repeat' split
  all_goals simp [hs, homeWrite_wf]

@[simp] theorem acquire_wf_eq (s : State) (scope : Scope) : Memory.wf (acquire s scope) = Memory.wf s := (acquire_serves ..).wf_eq

@[simp] theorem touchPlace_wf_eq (s : State) (p : Place) (n : Nat) : Memory.wf (touchPlace s p n) = Memory.wf s := by
  unfold touchPlace
  split <;> simp

@[simp] theorem resolve_wf (s : State) (r : LaneReq) (hs : Memory.wf s = true) : Memory.wf (resolve s r).2 = true := by
  unfold resolve
  dsimp only
  split
  · exact hs
  · split
    · exact hs
    · split
      · split
        · exact hs
        · split
          · exact hs
          · split <;> simp [hs]
      · split
        · exact hs
        · split
          · exact hs
          · split <;> next htranslate => simp [wf_snd_eq htranslate, hs]

@[simp] theorem resolveAll_wf (l : List LaneWork) (s : State) (hs : Memory.wf s = true) : Memory.wf (resolveAll l s).2 = true := by
  induction l generalizing s with
  | nil => exact hs
  | cons x r ih => exact ih _ (resolve_wf s x.2 hs)

/-- A word that faults keeps the canonical form (R65, R127, R355). -/
theorem faultWord_wf (s0 s : State) (kind : Access) (f : Nat × Refused × DWord) (lw : LogWord) (hs0 : Memory.wf s0 = true)
    (hs : Memory.wf s = true) : Out.wf (faultWord s0 s kind f lw) = true := by
  unfold faultWord
  dsimp only
  split
  · exact hs0
  · split
    · split
      · exact hs0
      · next hrecord => simp [writeFault_wf hrecord hs]
    · split
      · exact hs0
      · split
        · split
          · simp [hs]
          · next hrecord => simp [writeFault_wf hrecord hs]
        · simp [hs]

theorem protWord_wf (s0 s : State) (lane : Nat) (lw : LogWord) (hs0 : Memory.wf s0 = true) (hs : Memory.wf s = true) :
    Out.wf (protWord s0 s lane lw) = true := faultWord_wf _ _ _ _ _ hs0 hs

/-- A memory word keeps the canonical form where its body does (R112, R127). -/
theorem memWord_wf {i : Instr} {uses : List (Role × Operand)} {hd : Hdr} {kind : Access} {s : State}
    {lanes : State → LaneMask → List LogLane} {ask : State → LogLane → LaneReq} {waits : State → List (LogLane × Place) → Bool}
    {body : LaneMask → List (LogLane × Place) → State → Out} (hs : Memory.wf s = true)
    (hbody : ∀ act ps u, Memory.wf u = true → Out.wf (body act ps u) = true) :
    Out.wf (memWord i uses hd kind s lanes ask waits body) = true := by
  unfold memWord
  extract_lets t act reads ls r ps
  have ht : Memory.wf t = true := by simp [t, hs]
  have hr : Memory.wf r.2 = true := resolveAll_wf _ t ht
  split
  · exact ht
  · split
    · simp [ht]
    · split
      · exact faultWord_wf _ _ _ _ _ ht hr
      · split
        · rfl
        · split
          · exact hr
          · exact hbody _ _ _ (by simp [hr])

/-! ### The stops of the Carousel -/

@[simp] theorem State.setRing_wf_eq (s : State) (c : Nat) (x : Carousel) : Memory.wf (s.setRing c x) = Memory.wf s := rfl

@[simp] theorem enterRing_wf_eq (s : State) (cluster src dst len : Nat) (cw : Bool) (load : CarLoad) :
    Memory.wf (enterRing s cluster src dst len cw load) = Memory.wf s := rfl

@[simp] theorem cohortAsk_wf_eq (s : State) (core c w off : Nat) (op : CohortOp) :
    Memory.wf (cohortAsk s core c w off op).2 = Memory.wf s :=
  (cohortAsk_serves ..).wf_eq

/-! ### Loads, stores and atomics -/

@[simp] theorem countOnce_wf_eq (lines : List Nat) (pa : Nat) (s0 s : State) : Memory.wf (countOnce lines pa s0 s) = Memory.wf s :=
  (countOnce_serves ..).wf_eq

@[simp] theorem requestLineFrom_wf_eq (s : State) (die pa key : Nat) : Memory.wf (requestLineFrom s die pa key).2 = Memory.wf s := by
  simp [requestLineFrom]

@[simp] theorem requestLine_wf_eq (s : State) (pa key : Nat) : Memory.wf (requestLine s pa key).2 = Memory.wf s := by simp [requestLine]

@[simp] theorem requestNear_wf_eq (near : Bool) (hint : Hint) (s : State) (pa key : Nat) :
    Memory.wf (requestNear near hint s pa key).2 = Memory.wf s := (requestNear_serves ..).wf_eq

@[simp] theorem loadLane_wf_eq (m : Mem) (th : Thread) (take : Nat → Bool) (a : LoadAcc) (x : LogLane × Place) :
    Memory.wf (loadLane m th take a x).s = Memory.wf a.s := by
  unfold loadLane
  dsimp only
  split
  · split
    · simp
    · split <;> rfl
  · rfl
  · split
    · next hserve => simp [wf_snd_eq hserve]
    · next hserve =>
      split
      · exact (wf_snd_eq hserve).trans (serveLoad_wf_eq ..)
      · exact (requestNear_wf_eq ..).trans ((wf_snd_eq hserve).trans (serveLoad_wf_eq ..))

@[simp] theorem block_wf_eq (s : State) (order : Order) (scope : Scope) (tags : List Nat) :
    Memory.wf (block s order scope tags) = Memory.wf s := by simp [block]

@[simp] theorem blockAtomic_wf_eq (s : State) (result : Bool) (order : Order) (tags : List Nat) :
    Memory.wf (blockAtomic s result order tags) = Memory.wf s := by simp [blockAtomic]

@[simp] theorem loadAll_wf_eq (i : Instr) (m : Mem) (found : Thread) (act : LaneMask) (ps : List (LogLane × Place)) (s : State) :
    Memory.wf (loadAll i m found act ps s) = Memory.wf s := by
  simp [loadAll, foldl_wf_eq_of LoadAcc.s _ (loadLane_wf_eq m found _)]

@[simp] theorem execLd_wf (m : Mem) (s : State) (hs : Memory.wf s = true) : Out.wf (execLd m s) = true := by
  unfold execLd
  refine memWord_wf hs fun act ps u hu => ?_
  simp [hu]

@[simp] theorem execLdu_wf (m : Mem) (s : State) (hs : Memory.wf s = true) : Out.wf (execLdu m s) = true := by
  unfold execLdu
  refine memWord_wf hs fun act ps u hu => ?_
  simp [hu]

@[simp] theorem storeLane_wf (w : Nat) (a : StoreAcc) (x : LogLane × Place) (hs : Memory.wf a.s = true) :
    Memory.wf (storeLane w a x).s = true := by
  unfold storeLane
  dsimp only
  repeat' split
  all_goals simp [hs]

@[simp] theorem sendLines_wf_eq (s : State) (out : List ((Nat × Nat) × MemWrite)) : Memory.wf (sendLines s out).2 = Memory.wf s :=
  (sendLines_serves ..).wf_eq

@[simp] theorem awaitOwns_wf_eq (w : Nat) (ps : List (LogLane × Place)) (tags : List ((Nat × Nat) × Nat)) (s : State) :
    Memory.wf (awaitOwns w ps tags s) = Memory.wf s := (awaitOwns_serves ..).wf_eq

@[simp] theorem storeLanes_wf (w : Nat) (ps : List (LogLane × Place)) (s : State) (hs : Memory.wf s = true) :
    Memory.wf (storeLanes w ps s).2 = true := by
  simp [storeLanes, foldl_wf_of StoreAcc.s _ (storeLane_wf w) ps ⟨s, [], [], []⟩ hs]

@[simp] theorem storeAll_wf (m : Mem) (ps : List (LogLane × Place)) (s : State) (hs : Memory.wf s = true) :
    Memory.wf (storeAll m ps s) = true := by simp [storeAll, hs]

@[simp] theorem execSt_wf (m : Mem) (s : State) (hs : Memory.wf s = true) : Out.wf (execSt m s) = true := by
  unfold execSt
  refine memWord_wf hs fun act ps u hu => ?_
  simp [hu]

@[simp] theorem execStu_wf (m : Mem) (s : State) (hs : Memory.wf s = true) : Out.wf (execStu m s) = true := by
  unfold execStu
  refine memWord_wf hs fun act ps u hu => ?_
  simp [hu]

@[simp] theorem prefLane_wf_eq (m : Mem) (s : State) (x : LogLane × Place) : Memory.wf (prefLane m s x) = Memory.wf s := by
  unfold prefLane
  split
  · rfl
  · rfl
  · split
    · rfl
    · dsimp only
      split <;> next hserve => simp [wf_snd_eq hserve]

@[simp] theorem execPref_wf (m : Mem) (s : State) (hs : Memory.wf s = true) : Out.wf (execPref m s) = true := by
  unfold execPref
  refine issue_wf hs fun act u hu => ?_
  split <;> simp [hs, hu]

@[simp] theorem flushLane_wf_eq (m : Mem) (s : State) (x : LogLane × Place) : Memory.wf (flushLane m s x) = Memory.wf s := by
  unfold flushLane
  split <;> simp

@[simp] theorem execCflush_wf (m : Mem) (s : State) (hs : Memory.wf s = true) : Out.wf (execCflush m s) = true := by
  unfold execCflush
  refine memWord_wf hs fun act ps u hu => ?_
  simp [hu]

theorem fenceDone_wf_eq {s t : State} {w : Wait} (h : fenceDone s w = some t) : Memory.wf t = Memory.wf s := by
  unfold fenceDone at h
  split at h
  · split at h
    · cases h
    · cases h
      split <;> simp
  · cases h

@[simp] theorem execFence_wf (m : Mem) (s : State) (hs : Memory.wf s = true) : Out.wf (execFence m s) = true := by
  unfold execFence
  refine issue_wf hs fun act u hu => ?_
  split
  · simp [hs]
  · split
    · simp [hu]
    · dsimp only
      split
      · next hdone => simp [fenceDone_wf_eq hdone, hu]
      · simp [hu]

@[simp] theorem waddrLook_wf_eq (w : Nat) (geu : Bool) (s : State) (x : WaddrLane) : Memory.wf (waddrLook w geu s x).2 = Memory.wf s := by
  unfold waddrLook
  dsimp only
  repeat' split
  all_goals simp

@[simp] theorem waddrLeft_wf_eq (w : Nat) (geu : Bool) (s : State) (l : List WaddrLane) :
    Memory.wf (waddrLeft w geu s l).2 = Memory.wf s := by
  induction l generalizing s with
  | nil => rfl
  | cons x r ih => exact (ih _).trans (waddrLook_wf_eq w geu s x)

@[simp] theorem execWaddr_wf (m : Mem) (s : State) (hs : Memory.wf s = true) : Out.wf (execWaddr m s) = true := by
  unfold execWaddr
  refine memWord_wf hs fun act ps u hu => ?_
  simp [hu]

@[simp] theorem atomStep_wf (x : Atom) (op : Nat) (take : Nat → Bool) (a : LoadAcc) (p : LogLane × Place) (hs : Memory.wf a.s = true) :
    Memory.wf (atomStep x op take a p).s = true := by
  unfold atomStep
  repeat' split
  all_goals simp [hs, homeWrite_wf]

@[simp] theorem sendAtoms_wf_eq (x : Atom) (op : Nat) (take : Nat → Bool) (a : LoadAcc) (e : (Nat × Nat) × List (LogLane × Nat)) :
    Memory.wf (sendAtoms x op take a e).s = Memory.wf a.s := by simp [sendAtoms]

/-- The atomics of a word keep the canonical form (R123 to R125). -/
@[simp] theorem atomAll_wf (i : Instr) (x : Atom) (op : Nat) (result : Bool) (act : LaneMask) (ps : List (LogLane × Place)) (s : State)
    (hs : Memory.wf s = true) : Memory.wf (atomAll i x op result act ps s) = true := by
  unfold atomAll
  simp only [State.setTh_wf_eq, blockAtomic_wf_eq, block_wf_eq, foldl_wf_eq_of LoadAcc.s _ (sendAtoms_wf_eq x op _)]
  exact foldl_wf_of LoadAcc.s _ (atomStep_wf x op _) _ _ (by simp [hs])

@[simp] theorem execAtom_wf (x : Atom) (s : State) (hs : Memory.wf s = true) : Out.wf (execAtom x s) = true := by
  unfold execAtom
  refine memWord_wf hs fun act ps u hu => ?_
  simp [hu]

@[simp] theorem execAtomcas_wf (x : Atom) (s : State) (hs : Memory.wf s = true) : Out.wf (execAtomcas x s) = true := by
  unfold execAtomcas
  refine memWord_wf hs fun act ps u hu => ?_
  simp [hu]

@[simp] theorem execRed_wf (x : Atom) (s : State) (hs : Memory.wf s = true) : Out.wf (execRed x s) = true := by
  unfold execRed
  refine memWord_wf hs fun act ps u hu => ?_
  simp [hu]

/-! ### Control flow and what completes a wait -/

@[simp] theorem execNop_wf (hd : Hdr) (s : State) (hs : Memory.wf s = true) : Out.wf (execNop hd s) = true := by
  unfold execNop
  refine issue_wf hs fun act u hu => ?_
  simp [hu]

@[simp] theorem execBra_wf (hd : Hdr) (imm : BitVec 27) (s : State) (hs : Memory.wf s = true) : Out.wf (execBra hd imm s) = true := by
  unfold execBra
  refine issue_wf hs fun act u hu => ?_
  simp [hu]

@[simp] theorem execBrx_wf (hd : Hdr) (a : Operand) (s : State) (hs : Memory.wf s = true) : Out.wf (execBrx hd a s) = true := by
  unfold execBrx
  refine issue_wf hs fun act u hu => ?_
  dsimp only
  split <;> simp [hs, hu, faultWord_wf]

@[simp] theorem callAll_wf (target : LogLane → DWord → DWord) (act : LaneMask) (ps : List (LogLane × Place)) (s : State)
    (hs : Memory.wf s = true) : Memory.wf (callAll target act ps s) = true := by simp [callAll, hs]

@[simp] theorem execCall_wf (hd : Hdr) (imm : BitVec 27) (s : State) (hs : Memory.wf s = true) : Out.wf (execCall hd imm s) = true := by
  unfold execCall
  refine memWord_wf hs fun act ps u hu => ?_
  simp [hu]

@[simp] theorem execCallx_wf (hd : Hdr) (a : Operand) (s : State) (hs : Memory.wf s = true) : Out.wf (execCallx hd a s) = true := by
  unfold execCallx
  refine memWord_wf hs fun act ps u hu => ?_
  simp [hu]

@[simp] theorem askLines_wf_eq (s : State) (n : Nat) (ps : List Place) : Memory.wf (askLines s n ps) = Memory.wf s := by
  refine foldl_wf_eq _ _ (fun s p => ?_) s
  split <;> simp

@[simp] theorem askSlots_wf_eq (l : List (LogLane × Place)) (s : State) : Memory.wf (askSlots l s).2 = Memory.wf s := by
  induction l generalizing s with
  | nil => rfl
  | cons x r ih =>
    refine (ih _).trans ?_
    split
    · split <;> simp
    · rfl
    · rfl

@[simp] theorem returnWait_wf_eq (hd : Hdr) (act : LaneMask) (ps : List (LogLane × Place)) (s : State) :
    Memory.wf (returnWait hd act ps s) = Memory.wf s := by simp [returnWait]

@[simp] theorem returnAll_wf_eq (act : LaneMask) (got : List LogLane) (ps : List (LogLane × Place)) (s : State) :
    Memory.wf (returnAll act got ps s) = Memory.wf s := by
  refine (State.setTh_wf_eq ..).trans (foldl_wf_eq _ _ (fun s x => ?_) s)
  split <;> simp

@[simp] theorem execRet_wf (hd : Hdr) (s : State) (hs : Memory.wf s = true) : Out.wf (execRet hd s) = true := by
  unfold execRet
  dsimp only
  repeat' split
  all_goals simp [hs, faultWord_wf]

@[simp] theorem execRcb_wf (hd : Hdr) (slot : BitVec 3) (imm : BitVec 27) (s : State) (hs : Memory.wf s = true) :
    Out.wf (execRcb hd slot imm s) = true := by
  unfold execRcb
  refine issue_wf hs fun act u hu => ?_
  simp [hu]

@[simp] theorem execRcw_wf (hd : Hdr) (slot : BitVec 3) (s : State) (hs : Memory.wf s = true) : Out.wf (execRcw hd slot s) = true := by
  unfold execRcw
  refine issue_wf hs fun act u hu => ?_
  simp [hu]

@[simp] theorem execExit_wf (hd : Hdr) (s : State) (hs : Memory.wf s = true) : Out.wf (execExit hd s) = true := by
  unfold execExit
  refine issue_wf hs fun act u hu => ?_
  simp [hu]

@[simp] theorem execYield_wf (hd : Hdr) (s : State) (hs : Memory.wf s = true) : Out.wf (execYield hd s) = true := by
  unfold execYield
  refine issue_wf hs fun act u hu => ?_
  simp [hu]

@[simp] theorem execBrk_wf (hd : Hdr) (code : BitVec 6) (s : State) (hs : Memory.wf s = true) : Out.wf (execBrk hd code s) = true := by
  unfold execBrk
  refine issue_wf hs fun act u hu => ?_
  simp [hu]

@[simp] theorem execTrap_wf (hd : Hdr) (code : BitVec 6) (s : State) (hs : Memory.wf s = true) : Out.wf (execTrap hd code s) = true := by
  unfold execTrap
  refine issue_wf hs fun act u hu => ?_
  simp [hu, trapWord_wf]

theorem leaveHandler_wf (i : Instr) (hd : Hdr) (skip : Bool) (s : State) (hs : Memory.wf s = true) :
    Out.wf (leaveHandler i hd skip s) = true := by
  unfold leaveHandler
  refine issue_wf hs fun act u hu => ?_
  split <;> simp [hu, trapWord_wf]

@[simp] theorem execTret_wf (hd : Hdr) (s : State) (hs : Memory.wf s = true) : Out.wf (execTret hd s) = true := by
  simp [execTret, hs, leaveHandler_wf]

@[simp] theorem execTretSkip_wf (hd : Hdr) (s : State) (hs : Memory.wf s = true) : Out.wf (execTretSkip hd s) = true := by
  simp [execTretSkip, hs, leaveHandler_wf]

@[simp] theorem execReservedEncodingTrap_wf (w : BadWord) (s : State) (hs : Memory.wf s = true) :
    Out.wf (execReservedEncodingTrap w s) = true := by
  simp [execReservedEncodingTrap, hs]

@[simp] theorem focusWg_wf_eq (s : State) (k : Option (Nat × Nat)) : Memory.wf (focusWg s k) = Memory.wf s := by
  unfold focusWg
  dsimp only
  repeat' split
  all_goals simp

@[simp] theorem focusCx_wf_eq (s : State) (k : Option Nat) : Memory.wf (focusCx s k) = Memory.wf s := by
  unfold focusCx
  dsimp only
  repeat' split
  all_goals simp

theorem focus_wf_eq {s t : State} {a : Agent} (h : focus s a = some t) : Memory.wf t = Memory.wf s := by
  unfold focus at h
  dsimp only at h
  split at h
  · cases h
    rfl
  · split at h
    · cases h
    · cases h
      simp

@[simp] theorem focus_getD_wf_eq (s : State) (a : Agent) : Memory.wf ((focus s a).getD s) = Memory.wf s := by
  cases h : focus s a with
  | none => rfl
  | some t => exact focus_wf_eq h

/-- A step of another agent keeps the canonical form where what it does keeps it. -/
theorem asAgent_wf {s : State} {a : Agent} {f : State → Out} (hs : Memory.wf s = true)
    (hf : ∀ t, Memory.wf t = true → Out.wf (f t) = true) : Out.wf (asAgent s a f) = true := by
  unfold asAgent
  split
  · exact hs
  · next t hfocus =>
    have ht := hf t ((focus_wf_eq hfocus).trans hs)
    cases hout : f t with
    | next u =>
      rw [hout] at ht
      dsimp only
      exact (focus_getD_wf_eq ..).trans ht
    | fault e => rfl
    | refused e => rfl

theorem takeRefusal_wf (s : State) (i : Nat) (p : Pend) (w : LogWord) (hs : Memory.wf s = true) : Out.wf (takeRefusal s i p w) = true := by
  simp [takeRefusal, hs, faultWord_wf]

theorem writeDue_wf (s : State) (i : Nat) (p : Pend) (hs : Memory.wf s = true) : Out.wf (writeDue s i p) = true := by
  unfold writeDue
  split <;> simp [hs]

@[simp] theorem execWaddrRelease_wf (r : SubRef) (s : State) (hs : Memory.wf s = true) : Out.wf (execWaddrRelease r s) = true := by
  unfold execWaddrRelease
  refine asAgent_wf hs fun u hu => ?_
  split
  · simp [hu]
  · split <;> simp [hu]

@[simp] theorem execDebugAgentResume_wf (r : SubRef) (resume : Bool) (s : State) (hs : Memory.wf s = true) :
    Out.wf (execDebugAgentResume r resume s) = true := by
  unfold execDebugAgentResume
  refine asAgent_wf hs fun u hu => ?_
  split <;> simp [hu]

/-! ### The front end -/

@[simp] theorem frontWalk_wf (s : State) (asid va : Nat) (k : Access) (hs : Memory.wf s = true) :
    Memory.wf (frontWalk s asid va k).2 = true := by
  unfold frontWalk
  split
  · exact hs
  · split <;> next hwalk => simp [wf_snd_eq hwalk, hs]

@[simp] theorem frontRead_wf_eq (s : State) (pa key n : Nat) : Memory.wf (frontRead s pa key n).2 = Memory.wf s := by
  unfold frontRead
  split <;> next hread => simp [wf_snd_eq hread]

@[simp] theorem frontGather_wf (asid : Nat) (l : List (Nat × Nat)) (s : State) (hs : Memory.wf s = true) :
    Memory.wf (frontGather asid l s).2 = true := by
  induction l generalizing s with
  | nil => exact hs
  | cons x r ih =>
    unfold frontGather
    extract_lets got
    have hgot : Memory.wf got.2 = true := by
      unfold got
      split <;> next hwalk => simp [wf_snd_eq hwalk, hs]
    have hrest := ih got.2 hgot
    generalize frontGather asid r got.2 = q at hrest ⊢
    split <;> exact hrest

@[simp] theorem frontWrite_wf (s : State) (pa key : Nat) (data : List Byte) (hs : Memory.wf s = true) :
    Memory.wf (frontWrite s pa key data).2 = true := by
  unfold frontWrite
  split <;> simp [hs, homeWrite_wf]

@[simp] theorem frontPost_wf (s : State) (asid pa key : Nat) (data : List Byte) (hs : Memory.wf s = true) :
    Memory.wf (frontPost s asid pa key data) = true := by
  unfold frontPost
  split <;> next hwrite => simp [wf_snd_eq hwrite, hs]

@[simp] theorem hostStart_wf (o : HostOp) (s : State) (hs : Memory.wf s = true) : Memory.wf (hostStart o s).2 = true := by
  unfold hostStart
  dsimp only
  repeat' split
  all_goals simp [hs]

@[simp] theorem hostPump_wf (l : List HostOp) (s : State) (hs : Memory.wf s = true) : Memory.wf (hostPump l s) = true := by
  induction l generalizing s with
  | nil => exact hs
  | cons o r ih =>
    unfold hostPump
    split <;> next hstart =>
      have ht : Memory.wf _ = true := (wf_snd_eq hstart).trans (hostStart_wf _ _ hs)
      simp [ht, ih]

@[simp] theorem hostIssue_wf (s : State) (o : HostOp) (hs : Memory.wf s = true) :
    Memory.wf (hostIssue s o) = true := by simp [hostIssue, hs]

@[simp] theorem hostOver_wf (s : State) (t : Nat) (line : List Byte) (hs : Memory.wf s = true) : Memory.wf (hostOver s t line) = true := by
  unfold hostOver
  split <;> simp [hs]

@[simp] theorem freshDie_wf_eq (s : State) (d : Nat) : Memory.wf (freshDie s d) = Memory.wf s := rfl

@[simp] theorem acquireAll_wf_eq (s : State) : Memory.wf (acquireAll s) = Memory.wf s :=
  foldl_wf_eq _ _ freshDie_wf_eq s

@[simp] theorem logFault_wf (s : State) (res kind die unit index : Nat) (hs : Memory.wf s = true) :
    Memory.wf (logFault s res kind die unit index) = true := by simp [logFault, hs, homeWrite_wf]

end Sys2Proof.Machine
end

section
/-!
PROOF. The canonical form of memory (R249, R351, R397) over synchronisation inside a workgroup, tensors and copies.
-/

namespace Sys2Proof.Machine

/-! ### Synchronisation inside a workgroup -/

/-- A word that waits keeps the canonical form where what ends its wait does. -/
theorem waitWord_wf {i : Instr} {hd : Hdr} {w : State → LaneMask → Wait} {done : State → Wait → Option State} {s : State}
    (hs : Memory.wf s = true) (hdone : ∀ u x t, done u x = some t → Memory.wf t = Memory.wf u) :
    Out.wf (waitWord i hd w done s) = true := by
  unfold waitWord
  refine issue_wf hs fun act u hu => ?_
  split
  · simp [hu]
  · dsimp only
    split
    · next hend => simp [hdone _ _ _ hend, hu]
    · simp [hu]

/-- The end of a wait keeps the canonical form where what ends it does. -/
theorem releaseWait_wf {r : SubRef} {f : Wait → Bool} {done : State → Wait → Option State} {s : State} (hs : Memory.wf s = true)
    (hdone : ∀ u x t, done u x = some t → Memory.wf t = Memory.wf u) : Out.wf (releaseWait r f done s) = true := by
  unfold releaseWait
  refine asAgent_wf hs fun u hu => ?_
  split
  · exact hu
  · split
    · exact hu
    · split
      · exact hu
      · next hend => simp [hdone _ _ _ hend, hu]

theorem cmDone_wf_eq (s : State) (w : Wait) (t : State) (h : cmDone s w = some t) : Memory.wf t = Memory.wf s := by
  unfold cmDone at h
  split at h
  · dsimp only at h
    split at h
    · cases h
      simp
    · cases h
  · cases h

@[simp] theorem execCminit_wf (hd : Hdr) (slot : BitVec 4) (a b : Operand) (s : State) (hs : Memory.wf s = true) :
    Out.wf (execCminit hd slot a b s) = true := by
  unfold execCminit
  refine issue_wf hs fun act u hu => ?_
  dsimp only
  repeat' split
  all_goals simp [hs, hu, faultWord_wf]

@[simp] theorem execCmtest_wf (hd : Hdr) (d : Operand) (slot : BitVec 4) (a b : Operand) (scope : Scope) (s : State)
    (hs : Memory.wf s = true) : Out.wf (execCmtest hd d slot a b scope s) = true := by
  unfold execCmtest
  refine issue_wf hs fun act u hu => ?_
  simp [hu]

@[simp] theorem execCmwait_wf (hd : Hdr) (slot : BitVec 4) (a b : Operand) (scope : Scope) (s : State) (hs : Memory.wf s = true) :
    Out.wf (execCmwait hd slot a b scope s) = true := by
  unfold execCmwait
  exact waitWord_wf hs cmDone_wf_eq

@[simp] theorem execCmwaitRelease_wf (r : SubRef) (s : State) (hs : Memory.wf s = true) : Out.wf (execCmwaitRelease r s) = true :=
  releaseWait_wf hs cmDone_wf_eq

theorem tlDone_wf_eq (s : State) (w : Wait) (t : State) (h : tlDone s w = some t) : Memory.wf t = Memory.wf s := by
  unfold tlDone at h
  split at h
  · split at h
    · cases h
      simp
    · cases h
  · cases h

@[simp] theorem execTlwait_wf (hd : Hdr) (tl : BitVec 3) (a : Operand) (scope : Scope) (s : State) (hs : Memory.wf s = true) :
    Out.wf (execTlwait hd tl a scope s) = true := by
  unfold execTlwait
  exact waitWord_wf hs tlDone_wf_eq

@[simp] theorem execTlwaitRelease_wf (r : SubRef) (s : State) (hs : Memory.wf s = true) : Out.wf (execTlwaitRelease r s) = true :=
  releaseWait_wf hs tlDone_wf_eq

@[simp] theorem execTlread_wf (hd : Hdr) (d : Operand) (tl : BitVec 3) (sel : BitVec 2) (clr : Bool) (s : State) (hs : Memory.wf s = true) :
    Out.wf (execTlread hd d tl sel clr s) = true := by
  unfold execTlread
  refine issue_wf hs fun act u hu => ?_
  simp [hu]

@[simp] theorem execBarinit_wf (hd : Hdr) (bar : BitVec 4) (a : Operand) (s : State) (hs : Memory.wf s = true) :
    Out.wf (execBarinit hd bar a s) = true := by
  unfold execBarinit
  refine issue_wf hs fun act u hu => ?_
  simp [hu]

@[simp] theorem execBarrive_wf (hd : Hdr) (d : Operand) (bar : BitVec 4) (s : State) (hs : Memory.wf s = true) :
    Out.wf (execBarrive hd d bar s) = true := by
  unfold execBarrive
  refine issue_wf hs fun act u hu => ?_
  repeat' split
  all_goals simp [hu]

@[simp] theorem acquireMatrix_wf_eq (s : State) : Memory.wf (acquireMatrix s) = Memory.wf s := by simp [acquireMatrix]

theorem barDone_wf_eq (s : State) (w : Wait) (t : State) (h : barDone s w = some t) : Memory.wf t = Memory.wf s := by
  unfold barDone at h
  split at h
  · dsimp only at h
    split at h
    · cases h
      simp
    · cases h
  · cases h

@[simp] theorem execBarwait_wf (hd : Hdr) (bar : BitVec 4) (a : Operand) (s : State) (hs : Memory.wf s = true) :
    Out.wf (execBarwait hd bar a s) = true := by
  unfold execBarwait
  exact waitWord_wf hs barDone_wf_eq

@[simp] theorem execBarwaitRelease_wf (r : SubRef) (s : State) (hs : Memory.wf s = true) : Out.wf (execBarwaitRelease r s) = true :=
  releaseWait_wf hs barDone_wf_eq

@[simp] theorem execBarstat_wf (hd : Hdr) (d : Operand) (bar : BitVec 4) (sel : BitVec 2) (s : State) (hs : Memory.wf s = true) :
    Out.wf (execBarstat hd d bar sel s) = true := by
  unfold execBarstat
  refine issue_wf hs fun act u hu => ?_
  simp [hu]

@[simp] theorem State.setThread_wf_eq (s : State) (a : Agent) (f : Thread → Thread) : Memory.wf (s.setThread a f) = Memory.wf s := by
  simp [State.setThread]

theorem forkDone_wf_eq (s : State) (w : Wait) (t : State) (h : forkDone s w = some t) : Memory.wf t = Memory.wf s := by
  unfold forkDone at h
  split at h
  · dsimp only at h
    split at h
    · cases h
    · cases h
      simp
  · cases h

@[simp] theorem execFork_wf (hd : Hdr) (a b : Operand) (s : State) (hs : Memory.wf s = true) : Out.wf (execFork hd a b s) = true := by
  unfold execFork
  refine issue_wf hs fun act u hu => ?_
  extract_lets l x t w
  have ht : Memory.wf t = true := by simp [t, hu]
  split
  · simp [hu]
  · split
    · exact faultWord_wf _ _ _ _ _ hs ht
    · split
      · next hdone =>
        split at hdone
        · simp [forkDone_wf_eq _ _ _ hdone, ht]
        · cases hdone
      · exact ht

@[simp] theorem execForkStart_wf (r : SubRef) (s : State) (hs : Memory.wf s = true) : Out.wf (execForkStart r s) = true := by
  refine releaseWait_wf hs fun u w t h => ?_
  split at h
  · obtain ⟨v, hdone, rfl⟩ := Option.map_eq_some_iff.mp h
    exact (wf_mk v).trans (forkDone_wf_eq _ _ _ hdone)
  · cases h

theorem rdvDone_wf_eq (s : State) (w : Wait) (t : State) (h : rdvDone s w = some t) : Memory.wf t = Memory.wf s := by
  unfold rdvDone at h
  split at h
  · split at h
    · cases h
      simp
    · cases h
  · cases h

@[simp] theorem execRdv_wf (hd : Hdr) (s : State) (hs : Memory.wf s = true) : Out.wf (execRdv hd s) = true := by
  unfold execRdv
  exact waitWord_wf hs rdvDone_wf_eq

@[simp] theorem execRdvRelease_wf (r : SubRef) (s : State) (hs : Memory.wf s = true) : Out.wf (execRdvRelease r s) = true :=
  releaseWait_wf hs rdvDone_wf_eq

@[simp] theorem execSeqend_wf (hd : Hdr) (s : State) (hs : Memory.wf s = true) : Out.wf (execSeqend hd s) = true := by
  unfold execSeqend
  refine issue_wf hs fun act u hu => ?_
  simp [hu]

@[simp] theorem execSequencerIdle_wf (ctx wg : Nat) (copy : Bool) (s : State) (hs : Memory.wf s = true) :
    Out.wf (execSequencerIdle ctx wg copy s) = true := by
  unfold execSequencerIdle
  refine asAgent_wf hs fun u hu => ?_
  simp [hu]

/-! ### Tensor records, tiles and the queue pool -/

@[simp] theorem putCx_wf_eq (s : State) (x : Context) : Memory.wf (putCx s x) = Memory.wf s := by simp [putCx]

@[simp] theorem engPlace_wf (s : State) (e : EngCtx) (va n : Nat) (kind : Access) (key : Option Nat) (hs : Memory.wf s = true) :
    Memory.wf (engPlace s e va n kind key).2 = true := by
  unfold engPlace
  split
  · dsimp only
    split
    · exact hs
    · split <;> simp [hs]
  · split <;> next htranslate => simp [wf_snd_eq htranslate, hs]

@[simp] theorem engPlaces_wf (e : EngCtx) (kind : Access) (key : Option Nat) (l : List (Nat × Nat)) (s : State) (hs : Memory.wf s = true) :
    Memory.wf (engPlaces e kind key l s).2 = true := by
  induction l generalizing s with
  | nil => exact hs
  | cons x r ih =>
    unfold engPlaces
    split
    · next hplace => simp [wf_snd_eq hplace, hs]
    · next t hplace =>
      have ht : Memory.wf t = true := by simp [wf_snd_eq hplace, hs]
      split <;> next hrest => simp [wf_snd_eq hrest, ih t ht]

@[simp] theorem engRead_wf_eq (s : State) (core : Nat) (p : Place) (n : Nat) : Memory.wf (engRead s core p n).2 = Memory.wf s := by
  unfold engRead
  split <;> simp

@[simp] theorem engReadsAll_wf_eq (core : Nat) (l : List (Place × Nat)) (s : State) : Memory.wf (engReadsAll core l s).2 = Memory.wf s := by
  induction l generalizing s with
  | nil => rfl
  | cons x r ih =>
    unfold engReadsAll
    split
    · next hread =>
      split <;> next hrest => simp [wf_snd_eq hrest, ih, wf_snd_eq hread]
    · next hread _ => simp [ih, wf_snd_eq hread]
    · next hread _ => simp [wf_snd_eq hread]

@[simp] theorem engReads_wf_eq (core : Nat) (ps : List (Place × Nat)) (s : State) : Memory.wf (engReads core ps s).2 = Memory.wf s := by
  simp [engReads]

@[simp] theorem engWrite_wf (s : State) (core op : Nat) (p : Place) (data : List Byte) (mark : Bool) (hs : Memory.wf s = true) :
    Memory.wf (engWrite s core op p data mark).2 = true := by
  unfold engWrite
  repeat' split
  all_goals simp [hs, homeWrite_wf]

@[simp] theorem setHandle_wf_eq (d : Operand) (h : BitVec 8) (act : LaneMask) (x : LogLane) (p : Place) (b : List Byte) (mark : Bool)
    (s : State) : Memory.wf (setHandle d h act x p b mark s) = Memory.wf s := by
  unfold setHandle
  extract_lets t r st r' u th
  have ht : Memory.wf t = Memory.wf s := by
    simp only [t]
    split <;> simp
  exact ht

@[simp] theorem execThset_wf (hd : Hdr) (d : Operand) (h : BitVec 8) (a : Operand) (s : State) (hs : Memory.wf s = true) :
    Out.wf (execThset hd d h a s) = true := by
  unfold execThset
  refine memWord_wf hs fun act ps u hu => ?_
  split
  · simp [hu]
  · split <;> simp [hu]

@[simp] theorem storeHandle_wf (h : BitVec 8) (ps : List (LogLane × Place)) (s : State) (hs : Memory.wf s = true) :
    Memory.wf (storeHandle h ps s) = true := by
  refine (State.setTh_wf_eq ..).trans (foldl_wf_of Prod.fst _ (fun a x ha => ?_) ps (s, []) hs)
  split
  · split <;> simp [ha]
  · exact ha
  · split <;> next hserve => simp [wf_snd_eq hserve, ha]

@[simp] theorem execThget_wf (hd : Hdr) (h : BitVec 8) (a : Operand) (s : State) (hs : Memory.wf s = true) :
    Out.wf (execThget hd h a s) = true := by
  unfold execThget
  refine memWord_wf hs fun act ps u hu => ?_
  simp [hu]

theorem poolEnter_wf_eq {s t : State} {n q e : Nat} {who : Producer} (h : poolEnter s n q e who = some t) : Memory.wf t = Memory.wf s := by
  unfold poolEnter at h
  dsimp only at h
  split at h
  · cases h
    rfl
  · cases h

@[simp] theorem poolWait_wf_eq (s : State) (n q : Nat) (who : Producer) : Memory.wf (poolWait s n q who) = Memory.wf s := by simp [poolWait]

theorem poolAsk_wf_eq {s t : State} {q e : Nat} (h : poolAsk s q e = some t) : Memory.wf t = Memory.wf s := by
  unfold poolAsk at h
  split at h
  · cases h
  · exact poolEnter_wf_eq h

@[simp] theorem poolStall_wf_eq (s : State) (q : Nat) : Memory.wf (poolStall s q) = Memory.wf s := by simp [poolStall]

@[simp] theorem execPoolEntryGrant_wf (core queue : Nat) (s : State) (hs : Memory.wf s = true) :
    Out.wf (execPoolEntryGrant core queue s) = true := by
  simp [execPoolEntryGrant, hs]

/-! ### Copy commands -/

@[simp] theorem handSeq_wf_eq (s : State) : Memory.wf (handSeq s).2 = Memory.wf s := rfl

@[simp] theorem joinCopy_wf_eq (s : State) (tl : Nat) (mk : Nat → Nat → CopyCmd) : Memory.wf (joinCopy s tl mk) = Memory.wf s := rfl

theorem acceptCopy_wf (s0 s : State) (tl entries : Nat) (mk : Nat → Nat → CopyCmd) (hs0 : Memory.wf s0 = true) (hs : Memory.wf s = true) :
    Out.wf (acceptCopy s0 s tl entries mk) = true := by
  unfold acceptCopy
  split
  · exact hs0
  · split
    · simp [hs0]
    · next hask => simp [poolAsk_wf_eq hask, hs]

theorem issueTile_wf (i : Instr) (hd : Hdr) (kind : CopyKind) (out : Bool) (tl : BitVec 3) (h : BitVec 8) (a : Operand) (s : State)
    (hs : Memory.wf s = true) : Out.wf (issueTile i hd kind out tl h a s) = true := by
  unfold issueTile
  refine issue_wf hs fun act u hu => ?_
  split <;> simp [hs, hu, acceptCopy_wf]

@[simp] theorem execCpyt_wf (x : Tile) (s : State) (hs : Memory.wf s = true) :
    Out.wf (execCpyt x s) = true := by simp [execCpyt, hs, issueTile_wf]

@[simp] theorem execCpyr_wf (hd : Hdr) (tl : BitVec 3) (h : BitVec 8) (a : Operand) (dir : Bool) (op : BitVec 3) (s : State)
    (hs : Memory.wf s = true) : Out.wf (execCpyr hd tl h a dir op s) = true := by simp [execCpyr, hs, issueTile_wf]

@[simp] theorem execCpyn_wf (x : Tile) (s : State) (hs : Memory.wf s = true) :
    Out.wf (execCpyn x s) = true := by simp [execCpyn, hs, issueTile_wf]

@[simp] theorem execCpyg_wf (x : Tile) (s : State) (hs : Memory.wf s = true) :
    Out.wf (execCpyg x s) = true := by simp [execCpyg, hs, issueTile_wf]

@[simp] theorem execCpy_wf (hd : Hdr) (tl : BitVec 3) (d a : Operand) (width : BitVec 2) (s : State) (hs : Memory.wf s = true) :
    Out.wf (execCpy hd tl d a width s) = true := by
  unfold execCpy
  refine issue_wf hs fun act u hu => ?_
  dsimp only
  repeat' split
  all_goals simp [hs, hu, acceptCopy_wf, faultWord_wf]

@[simp] theorem walkTouches_wf (e : EngCtx) (key : Option Nat) (l : List (Access × Nat × Nat)) (s : State) (hs : Memory.wf s = true) :
    Memory.wf (walkTouches e key l s).2 = true := by
  induction l generalizing s with
  | nil => exact hs
  | cons x r ih =>
    unfold walkTouches
    split <;> next hplace => simp [wf_snd_eq hplace, ih, hs]

@[simp] theorem putCmd_wf_eq (s : State) (core : Nat) (x : CopyCmd) : Memory.wf (putCmd s core x) = Memory.wf s := rfl

@[simp] theorem holdCmd_wf (s : State) (core : Nat) (x : CopyCmd) (e : EngCtx) (va : Nat) (r : Refused) (hs : Memory.wf s = true) :
    Memory.wf (holdCmd s core x e va r) = true := by
  unfold holdCmd
  split
  · exact hs
  · next hrecord => simp [writeFault_wf hrecord hs]

@[simp] theorem noteProt_wf (s : State) (core : Nat) (e : EngCtx) (va : Nat) (r : Refused) (hs : Memory.wf s = true) :
    Memory.wf (noteProt s core e va r) = true := by
  unfold noteProt
  split
  · exact hs
  · next hrecord => exact writeFault_wf hrecord hs

@[simp] theorem putRuns_wf_eq (l : List Run) (s : State) : Memory.wf (putRuns l s) = Memory.wf s := by
  refine foldl_wf_eq _ _ (fun s r => ?_) s
  split
  · split <;> simp
  · rfl
  · rfl

@[simp] theorem readUnits_wf (core : Nat) (e : EngCtx) (x : CopyCmd) (l : List TileUnit) (s : State) (hs : Memory.wf s = true) :
    Memory.wf (readUnits core e x l s).2 = true := by
  induction l generalizing s with
  | nil => exact hs
  | cons u r ih =>
    unfold readUnits
    extract_lets zeros got
    have hgot : Memory.wf got.2 = true := by
      unfold got
      split <;> simp [hs]
    have hrest := ih got.2 hgot
    generalize readUnits core e x r got.2 = q at hrest ⊢
    split <;> exact hrest

@[simp] theorem copyWrite_wf (s : State) (core : Nat) (g : Workgroup) (op : Nat) (p : Place) (b : List Byte) (mark : Bool)
    (hs : Memory.wf s = true) : Memory.wf (copyWrite s core g op p b mark).2 = true := by
  unfold copyWrite
  repeat' split
  all_goals simp [hs]

@[simp] theorem writeRuns_wf (core : Nat) (g : Workgroup) (l : List Run) (s : State) (hs : Memory.wf s = true) :
    Memory.wf (writeRuns core g l s).2 = true := by
  refine foldl_wf_of Prod.snd _ (fun a r ha => ?_) _ ([], s) hs
  exact copyWrite_wf (hs := ha) ..

@[simp] theorem combineAt_wf (core op fmt : Nat) (p : Place) (new : List Byte) (mark : Bool) (a : Moved) (hs : Memory.wf a.s = true) :
    Memory.wf (combineAt core op fmt p new mark a).s = true := by
  unfold combineAt
  dsimp only
  repeat' split
  all_goals simp [hs]

@[simp] theorem combineIn_wf_eq (fmt op : Nat) (c w base : Nat) (a : Moved) (u : TileUnit × List Byte × Bool) :
    Memory.wf (combineIn fmt op c w base a u).s = Memory.wf a.s := by
  unfold combineIn
  split <;> simp

@[simp] theorem moveIn_wf_eq (x : CopyCmd) (c w base : Nat) (us : List (TileUnit × List Byte × Bool)) (a : Moved) :
    Memory.wf (moveIn x c w base us a).s = Memory.wf a.s := by
  unfold moveIn
  split
  · exact putRuns_wf_eq ..
  · exact foldl_wf_eq_of Moved.s _ (combineIn_wf_eq _ _ c w base) us a

@[simp] theorem moveOut_wf (core : Nat) (e : EngCtx) (x : CopyCmd) (g : Workgroup) (base : Nat) (us : List TileUnit) (a : Moved)
    (hs : Memory.wf a.s = true) : Memory.wf (moveOut core e x g base us a).s = true := by
  unfold moveOut
  extract_lets src
  split
  · exact writeRuns_wf _ _ _ _ hs
  · refine foldl_wf_of Moved.s _ (fun a u ha => ?_) src a hs
    split
    · exact ha
    · exact combineAt_wf (hs := ha) ..

@[simp] theorem withReads_wf_eq (s : State) (x : CopyCmd) : Memory.wf (withReads s x) = Memory.wf s := by
  refine foldl_wf_eq _ _ (fun s r => ?_) s
  split
  · split <;> simp
  · rfl

theorem moveLanes_wf {core : Nat} {e : EngCtx} {x : CopyCmd} {w : Nat} {ls : List (DWord × DWord)} {s : State} (hs : Memory.wf s = true) :
    (∀ a, (moveLanes core e x w ls s).1 = some a → Memory.wf a.s = true) ∧ Memory.wf (moveLanes core e x w ls s).2 = true := by
  unfold moveLanes
  extract_lets srcs
  split
  · next hread =>
    refine ⟨fun a ha => ?_, by simp [wf_snd_eq hread, hs]⟩
    cases ha
  · next t hread =>
    have ht : Memory.wf t = true := by simp [wf_snd_eq hread, hs]
    refine ⟨fun a ha => ?_, writeRuns_wf _ _ _ _ ht⟩
    cases ha
    exact writeRuns_wf _ _ _ _ ht

@[simp] theorem landingPacket_wf_eq (x : CopyCmd) (o : Nat) (b : List Byte) (mark last : Bool) (s : State) :
    Memory.wf (landingPacket x o b mark last s).2 = Memory.wf s := by simp [landingPacket]

@[simp] theorem sendLanding_wf_eq (x : CopyCmd) (us : List (TileUnit × List Byte × Bool)) (s : State) :
    Memory.wf (sendLanding x us s).2 = Memory.wf s := by
  simp [sendLanding, foldl_wf_eq_of Prod.snd]

@[simp] theorem sendCohort_wf_eq (core : Nat) (x : CopyCmd) (c w base : Nat) (us : List (TileUnit × List Byte × Bool)) (s : State) :
    Memory.wf (sendCohort core x c w base us s).2 = Memory.wf s := by
  refine foldl_wf_eq_of Prod.snd _ (fun a p => ?_) _ ([], s)
  exact cohortAsk_wf_eq ..

@[simp] theorem askReads_wf_eq (core : Nat) (x : CopyCmd) (need : List (Place × Nat)) (s : State) :
    Memory.wf (askReads core x need s).2 = Memory.wf s := by
  refine foldl_wf_eq_of Prod.snd _ (fun a p => ?_) need (x, s)
  split
  · split <;> simp
  · rfl
  · rfl

@[simp] theorem pushError_wf (s : State) (x : Context) (code kind tl troupe wgl ticket : Nat) (hs : Memory.wf s = true) :
    Memory.wf (pushError s x code kind tl troupe wgl ticket) = true := by simp [pushError, hs]

@[simp] theorem finishTicket_wf (s : State) (a : Agent) (tl ticket code kind : Nat) (err : Word) (sat data stale : Bool)
    (hs : Memory.wf s = true) : Memory.wf (finishTicket s a tl ticket code kind err sat data stale) = true := by
  unfold finishTicket
  dsimp only
  repeat' split
  all_goals simp [hs]

@[simp] theorem startedCmd_wf_eq (s : State) (core : Nat) (x : CopyCmd) : Memory.wf (startedCmd s core x) = Memory.wf s := by
  simp [startedCmd]

@[simp] theorem failCmd_wf_eq (s : State) (core : Nat) (x : CopyCmd) (code : Nat) : Memory.wf (failCmd s core x code) = Memory.wf s := by
  simp [failCmd]

@[simp] theorem refuseCmdWith_wf_eq (s : State) (core : Nat) (x : CopyCmd) (code : Nat) :
    Memory.wf (refuseCmdWith s core x code) = Memory.wf s := by simp [refuseCmdWith]

/-- A tile command that starts keeps the canonical form (R136 to R145). -/
theorem startTile_wf (core : Nat) (e : EngCtx) (x : CopyCmd) (c w base : Nat) (ch : List Nat) (s : State) (hs : Memory.wf s = true) :
    BothWf (startTile core e x c w base ch s) := by
  unfold startTile
  extract_lets t g gout us a
  have ht : Memory.wf t = true := by simp [t, hs]
  have ha : Memory.wf a.s = true := moveOut_wf _ _ _ _ _ _ _ ht
  split
  · exact bothWf_some (by simp [ha]) ha
  · split
    · next hread => exact bothWf_none (by simp [wf_snd_eq hread, ht])
    · next l v hread =>
      have hv : Memory.wf v = true := by simp [wf_snd_eq hread, ht]
      extract_lets away b
      have hb : Memory.wf b.s = true := by
        unfold b
        split
        · exact (sendCohort_wf_eq ..).trans hv
        · exact (moveIn_wf_eq ..).trans hv
      exact bothWf_some (by simp [hb]) hb

theorem startAway_wf (core : Nat) (e : EngCtx) (x : CopyCmd) (s : State) (hs : Memory.wf s = true) : BothWf (startAway core e x s) := by
  unfold startAway
  split <;> next hread => simp [bothWf_none, bothWf_some, wf_snd_eq hread, hs]

/-- A copy command that tries to start keeps the canonical form (R136, R143, R153). -/
theorem startCmd_wf (core : Nat) (x : CopyCmd) (s : State) (hs : Memory.wf s = true) : BothWf (startCmd core x s) := by
  unfold startCmd
  split
  · exact bothWf_some (by simp [hs]) hs
  · split
    · exact bothWf_none hs
    · split
      · exact bothWf_some (by simp [hs]) hs
      · split
        · exact bothWf_some (by simp [hs]) hs
        · split
          · next t hwalk =>
            have ht : Memory.wf t = true := by simp [wf_snd_eq hwalk, hs]
            split
            · exact bothWf_none (by simp [ht])
            · exact bothWf_some (by simp [ht]) (by simp [ht])
          · next t hwalk =>
            have ht : Memory.wf t = true := by simp [wf_snd_eq hwalk, hs]
            extract_lets r y v
            have hv : Memory.wf v = true := by simp [v, r, ht]
            split
            · exact bothWf_none hv
            · split
              · split
                · next hmove => exact bothWf_none ((wf_snd_eq hmove).trans (moveLanes_wf hv).2)
                · next hmove => exact bothWf_some ((startedCmd_wf_eq ..).trans ((moveLanes_wf hv).1 _ (by rw [hmove]))) hv
              · split
                · exact startAway_wf _ _ _ _ hv
                · exact startTile_wf _ _ _ _ _ _ _ _ hv

@[simp] theorem declineCmd_wf_eq (s : State) (core : Nat) (x : CopyCmd) : Memory.wf (declineCmd s core x) = Memory.wf s := by
  unfold declineCmd
  split
  · simp
  · split <;> simp

@[simp] theorem startFirst_wf (core : Nat) (l : List CopyCmd) (s : State) (hs : Memory.wf s = true) :
    Memory.wf (startFirst core l s) = true := by
  induction l generalizing s with
  | nil => exact hs
  | cons x r ih =>
    have hstart := startCmd_wf core x s hs
    unfold startFirst
    split
    · next heq => exact (hstart.of_some heq).1
    · next heq => exact ih _ (hstart.of_none heq)

@[simp] theorem execCopyStart_wf (core : Nat) (s : State) (hs : Memory.wf s = true) : Out.wf (execCopyStart core s) = true := by
  simp [execCopyStart, hs]

@[simp] theorem execChunkArrival_wf (core : Nat) (i : Nat) (s : State) (hs : Memory.wf s = true) :
    Out.wf (execChunkArrival core i s) = true := by
  unfold execChunkArrival
  dsimp only
  repeat' split
  all_goals simp [hs]

@[simp] theorem writeNotify_wf_eq (s : State) (o : Option (Nat × Nat × Nat × Word)) : Memory.wf (writeNotify s o) = Memory.wf s := by
  unfold writeNotify
  split
  · simp
  · split <;> simp

@[simp] theorem execCopyComplete_wf (core : Nat) (i : Nat) (s : State) (hs : Memory.wf s = true) :
    Out.wf (execCopyComplete core i s) = true := by
  unfold execCopyComplete
  dsimp only
  repeat' split
  all_goals simp [hs]

end Sys2Proof.Machine
end

section
/-!
PROOF. The canonical form of memory (R249, R351, R397) over the matrix sequencer, work distribution and phasers.
-/

namespace Sys2Proof.Machine

/-! ### The matrix sequencer and the array -/

@[simp] theorem joinMat_wf_eq (t : State) (op : MatOp) : Memory.wf (joinMat t op) = Memory.wf t := rfl

theorem issueMat_wf (i : Instr) (hd : Hdr) (entries : Nat) (mk : State → LaneMask → MatOp) (s : State) (hs : Memory.wf s = true) :
    Out.wf (issueMat i hd entries mk s) = true := by
  unfold issueMat
  refine issue_wf hs fun act u hu => ?_
  split
  · simp [hu]
  · split
    · simp [hs]
    · next hask => simp [poolAsk_wf_eq hask, hu]

@[simp] theorem execMldw_wf (x : MOp) (s : State) (hs : Memory.wf s = true) :
    Out.wf (execMldw x s) = true := by simp [execMldw, hs, issueMat_wf]

@[simp] theorem execMldt_wf (x : MOp) (s : State) (hs : Memory.wf s = true) :
    Out.wf (execMldt x s) = true := by simp [execMldt, hs, issueMat_wf]

@[simp] theorem execMldtAcc_wf (x : MOp) (tile : BitVec 3) (s : State) (hs : Memory.wf s = true) :
    Out.wf (execMldtAcc x tile s) = true := by
  simp [execMldtAcc, hs, issueMat_wf]

@[simp] theorem execMswap_wf (hd : Hdr) (bar : BitVec 4) (arr : Bool) (s : State) (hs : Memory.wf s = true) :
    Out.wf (execMswap hd bar arr s) = true := by
  simp [execMswap, hs, issueMat_wf]

@[simp] theorem execMstrm_wf (x : MOp) (tile : BitVec 3) (clr : Bool) (s : State) (hs : Memory.wf s = true) :
    Out.wf (execMstrm x tile clr s) = true := by
  simp [execMstrm, hs, issueMat_wf]

@[simp] theorem execMaclr_wf (hd : Hdr) (mask : BitVec 8) (bar : BitVec 4) (arr : Bool) (s : State) (hs : Memory.wf s = true) :
    Out.wf (execMaclr hd mask bar arr s) = true := by simp [execMaclr, hs, issueMat_wf]

@[simp] theorem execMacld_wf (x : MOp) (tile : BitVec 3) (s : State) (hs : Memory.wf s = true) : Out.wf (execMacld x tile s) = true := by
  simp [execMacld, hs, issueMat_wf]

@[simp] theorem execMacst_wf (x : MOp) (tile : BitVec 3) (s : State) (hs : Memory.wf s = true) : Out.wf (execMacst x tile s) = true := by
  simp [execMacst, hs, issueMat_wf]

@[simp] theorem execMvcnt_wf (hd : Hdr) (a : Operand) (s : State) (hs : Memory.wf s = true) : Out.wf (execMvcnt hd a s) = true := by
  simp [execMvcnt, hs, issueMat_wf]

@[simp] theorem execMmode_wf (hd : Hdr) (fmt : BitVec 3) (s : State) (hs : Memory.wf s = true) : Out.wf (execMmode hd fmt s) = true := by
  simp [execMmode, hs, issueMat_wf]

@[simp] theorem execMloop_wf (hd : Hdr) (d : Operand) (off : BitVec 18) (s : State) (hs : Memory.wf s = true) :
    Out.wf (execMloop hd d off s) = true := by
  unfold execMloop
  refine issue_wf hs fun act u hu => ?_
  split <;> simp [hu]

@[simp] theorem readTile_wf (core : Nat) (e : EngCtx) (key : Option Nat) (fmt : Nat) (l : List TileUnit) (s : State)
    (hs : Memory.wf s = true) : Memory.wf (readTile core e key fmt l s).2 = true := by
  induction l generalizing s with
  | nil => exact hs
  | cons u r ih =>
    unfold readTile
    extract_lets zeros ps got
    have hgot : Memory.wf got.2 = true := by
      unfold got
      split <;> simp [hs]
    have hrest := ih got.2 hgot
    generalize readTile core e key fmt r got.2 = q at hrest ⊢
    split <;> exact hrest

@[simp] theorem failWorkgroup_wf_eq (s : State) (c w : Nat) (why : Cause) (pc : DWord) :
    Memory.wf (failWorkgroup s c w why pc) = Memory.wf s := by
  unfold failWorkgroup
  dsimp only
  split <;> simp

@[simp] theorem failOp_wf_eq (s : State) (g : Workgroup) (before : List MatOp) (x : MatOp) (after : List MatOp) :
    Memory.wf (failOp s g before x after) = Memory.wf s := by
  unfold failOp
  split <;> simp

@[simp] theorem reportOp_wf (s : State) (e : EngCtx) (x : MatOp) (hs : Memory.wf s = true) : Memory.wf (reportOp s e x) = true := by
  unfold reportOp
  split
  · exact hs
  · next hrecord => exact writeFault_wf hrecord hs

/-- An operation of the matrix array that tries to start keeps the canonical form (R154 to R156). -/
@[simp] theorem startOp_wf (core : Nat) (g : Workgroup) (s : State) (hs : Memory.wf s = true) : Memory.wf (startOp core g s) = true := by
  unfold startOp
  split
  · exact hs
  · split
    · exact hs
    · split
      · simp [hs]
      · split
        · next hwalk =>
          have ht : Memory.wf _ = true := (wf_snd_eq hwalk).trans (walkTouches_wf (hs := hs) ..)
          split
          · simp [ht]
          · next hrecord => simp [writeFault_wf hrecord ht]
        · next hwalk => simp [wf_snd_eq hwalk, hs]

@[simp] theorem execArrayOpStart_wf (core : Nat) (s : State) (hs : Memory.wf s = true) : Out.wf (execArrayOpStart core s) = true := by
  unfold execArrayOpStart
  dsimp only
  repeat' split
  all_goals simp [hs]

@[simp] theorem storeOne_wf (e : EngCtx) (m : Matrix) (t : Nat) (x : MatOp) (a : Stored) (u : TileUnit × Nat) (hs : Memory.wf a.s = true) :
    Memory.wf (storeOne e m t x a u).s = true := by
  unfold storeOne
  dsimp only
  repeat' split
  all_goals simp [hs]

@[simp] theorem storeTile_wf (core : Nat) (e : EngCtx) (m : Matrix) (t : Nat) (x : MatOp) (s : State) (hs : Memory.wf s = true) :
    Memory.wf (storeTile core e m t x s).s = true := by
  refine foldl_wf_of Stored.s _ (fun a r ha => ?_) _ _ (foldl_wf_of Stored.s _ (fun a u ha => ?_) _ ⟨s, [], [], false, []⟩ hs)
  · exact engWrite_wf (hs := ha) ..
  · exact storeOne_wf (hs := ha) ..

@[simp] theorem setMatrix_wf_eq (s : State) (c w : Nat) (m : Matrix) : Memory.wf (setMatrix s c w m) = Memory.wf s := by
  unfold setMatrix
  split <;> simp

@[simp] theorem setOp_wf_eq (s : State) (c w : Nat) (before : List MatOp) (x : Option MatOp) (after : List MatOp) :
    Memory.wf (setOp s c w before x after) = Memory.wf s := by
  unfold setOp
  split <;> simp

@[simp] theorem finishOp_wf_eq (core c w : Nat) (before : List MatOp) (x : MatOp) (after : List MatOp) (s : State) :
    Memory.wf (finishOp core c w before x after s) = Memory.wf s := by
  unfold finishOp
  dsimp only
  repeat' split
  all_goals simp

@[simp] theorem opTile_wf (core : Nat) (e : EngCtx) (x : MatOp) (s : State) (hs : Memory.wf s = true) :
    Memory.wf (opTile core e x s).2 = true := by simp [opTile, hs]

@[simp] theorem askAssist_wf_eq (core : Nat) (g : Workgroup) (before : List MatOp) (x : MatOp) (after : List MatOp) (s : State) :
    Memory.wf (askAssist core g before x after s) = Memory.wf s := by simp [askAssist]

@[simp] theorem performStore_wf (core : Nat) (e : EngCtx) (g : Workgroup) (t : Nat) (before : List MatOp) (x : MatOp) (after : List MatOp)
    (s : State) (hs : Memory.wf s = true) : Memory.wf (performStore core e g t before x after s) = true := by simp [performStore, hs]

/-- An operation of the matrix array that is performed keeps the canonical form (R156 to R159). -/
@[simp] theorem performOp_wf (core : Nat) (e : EngCtx) (g : Workgroup) (before : List MatOp) (x : MatOp) (after : List MatOp) (s : State)
    (hs : Memory.wf s = true) : Memory.wf (performOp core e g before x after s) = true := by
  unfold performOp
  dsimp only
  split
  case h_1 | h_2 | h_3 | h_4 | h_5 | h_6 => simp [hs]
  all_goals split <;> next hread => simp [wf_snd_eq hread, hs]

@[simp] theorem execArrayOpComplete_wf (core : Nat) (s : State) (hs : Memory.wf s = true) : Out.wf (execArrayOpComplete core s) = true := by
  unfold execArrayOpComplete
  repeat' split
  all_goals simp [hs]

@[simp] theorem saveOwner_wf (s : State) (core : Nat) (hs : Memory.wf s = true) : Memory.wf (saveOwner s core) = true := by
  unfold saveOwner
  split
  · simp [hs]
  · split <;> simp [hs]

@[simp] theorem execArrayOwnershipChange_wf (core : Nat) (s : State) (hs : Memory.wf s = true) :
    Out.wf (execArrayOwnershipChange core s) = true := by
  unfold execArrayOwnershipChange
  split
  · simp [hs]
  · split <;> simp [hs]

theorem assistFault_wf (i : Instr) (hd : Hdr) (s0 s : State) (hs0 : Memory.wf s0 = true) (hs : Memory.wf s = true) :
    Out.wf (assistFault i hd s0 s) = true := protWord_wf _ _ _ _ hs0 hs

@[simp] theorem execAssistNext_wf (hd : Hdr) (d : Operand) (s : State) (hs : Memory.wf s = true) :
    Out.wf (execAssistNext hd d s) = true := by
  unfold execAssistNext
  refine issue_wf hs fun act u hu => ?_
  dsimp only
  repeat' split
  all_goals simp [hu]

@[simp] theorem execAssistGet_wf (hd : Hdr) (d a : Operand) (s0 : State) (hs : Memory.wf s0 = true) :
    Out.wf (execAssistGet hd d a s0) = true := by
  unfold execAssistGet
  refine issue_wf hs fun act u hu => ?_
  dsimp only
  repeat' split
  all_goals simp [hs, hu, assistFault_wf]

@[simp] theorem tagAssisted_wf_eq (s : State) (a : Assist) (t : Option Nat) : Memory.wf (tagAssisted s a t) = Memory.wf s := by
  unfold tagAssisted
  split <;> simp

@[simp] theorem execAssistPut_wf (hd : Hdr) (a b : Operand) (s0 : State) (hs : Memory.wf s0 = true) :
    Out.wf (execAssistPut hd a b s0) = true := by
  unfold execAssistPut
  refine issue_wf hs fun act u hu => ?_
  dsimp only
  repeat' split
  all_goals simp [hs, hu, assistFault_wf]

@[simp] theorem nextAssist_wf_eq (core : Nat) (g : Workgroup) (s : State) : Memory.wf (nextAssist core g s) = Memory.wf s := by
  unfold nextAssist
  split <;> simp

@[simp] theorem endAssist_wf_eq (s : State) (cl : Nat) (a : Assist) (r : List Assist) : Memory.wf (endAssist s cl a r) = Memory.wf s := by
  unfold endAssist
  dsimp only
  split <;> simp

@[simp] theorem execAssistDone_wf (hd : Hdr) (s0 : State) (hs : Memory.wf s0 = true) : Out.wf (execAssistDone hd s0) = true := by
  unfold execAssistDone
  refine issue_wf hs fun act u hu => ?_
  dsimp only
  repeat' split
  all_goals simp [hs, hu, assistFault_wf]

/-! ### Work distribution -/

@[simp] theorem execTfetch_wf (hd : Hdr) (d : Operand) (disp : BitVec 2) (s : State) (hs : Memory.wf s = true) :
    Out.wf (execTfetch hd d disp s) = true := by
  unfold execTfetch
  refine issue_wf hs fun act u hu => ?_
  dsimp only
  repeat' split
  all_goals simp [hu]

@[simp] theorem setOpen_wf_eq (s : State) (x : Context) (o : Nat) : Memory.wf (setOpen s x o) = Memory.wf s := by simp [setOpen]

@[simp] theorem homePush_wf (s : State) (c n r : Nat) (hs : Memory.wf s = true) : Memory.wf (homePush s c n r) = true := by
  unfold homePush
  split
  · exact hs
  · dsimp only
    split
    · simp [hs]
    · next hwalk => simp [wf_snd_eq hwalk, hs]

@[simp] theorem drainWork_wf (s : State) (core : Nat) (hs : Memory.wf s = true) : Memory.wf (drainWork s core) = true := by
  unfold drainWork
  extract_lets c freed t u
  have hu : Memory.wf u = true := foldl_wf _ _ (fun s r hs => by simp [hs]) _ (by simp [t, hs])
  split
  · exact hs
  · simp [hu]

@[simp] theorem cachePush_wf_eq (s : State) (n : Nat) (l : List LogLane) : Memory.wf (cachePush s n l).1 = Memory.wf s := by
  induction n generalizing s l with
  | zero => rfl
  | succ n ih =>
    unfold cachePush
    split
    · rfl
    · split
      · simp
      · next hask => simp [ih, poolAsk_wf_eq hask]

@[simp] theorem pushRecords_wf_eq (i : Instr) (hd : Hdr) (ls : List LogLane) (s0 s : State) :
    Memory.wf (pushRecords i hd ls s0 s) = Memory.wf s := by simp [pushRecords]

theorem badList_wf (s0 s : State) (w : LogWord) (lane : Nat) (hs0 : Memory.wf s0 = true) (hs : Memory.wf s = true) :
    Out.wf (badList s0 s w lane) = true := protWord_wf _ _ _ _ hs0 hs

@[simp] theorem execWpush_wf (hd : Hdr) (d a : Operand) (s : State) (hs : Memory.wf s = true) : Out.wf (execWpush hd d a s) = true := by
  unfold execWpush
  refine issue_wf hs fun act u hu => ?_
  dsimp only
  split <;> simp [hs, hu, badList_wf]

@[simp] theorem popOne_wf_eq (s : State) (n : Nat) : Memory.wf (popOne s n).2 = Memory.wf s := by
  unfold popOne
  dsimp only
  split <;> rfl

@[simp] theorem popAll_wf_eq (l : List (Nat × Nat)) (s : State) : Memory.wf (popAll l s).2 = Memory.wf s := by
  induction l generalizing s with
  | nil => rfl
  | cons x r ih => exact (ih _).trans (popOne_wf_eq s x.2)

@[simp] theorem popRecords_wf (d : Operand) (p : BitVec 3) (mark : Nat → Bool) (ls : List (Nat × Nat)) (s : State)
    (hs : Memory.wf s = true) : Memory.wf (popRecords d p mark ls s) = true := by simp [popRecords, hs]

@[simp] theorem execWpop_wf (hd : Hdr) (d a : Operand) (p : BitVec 3) (s : State) (hs : Memory.wf s = true) :
    Out.wf (execWpop hd d a p s) = true := by
  unfold execWpop
  refine issue_wf hs fun act u hu => ?_
  dsimp only
  split <;> simp [hs, hu, badList_wf]

@[simp] theorem execParentPush_wf (ctx list : Nat) (s : State) (hs : Memory.wf s = true) : Out.wf (execParentPush ctx list s) = true := by
  unfold execParentPush
  split
  · simp [hs]
  · split <;> simp [hs]

@[simp] theorem pushParent_wf (s : State) (c list r : Nat) (hs : Memory.wf s = true) : Memory.wf (pushParent s c list r) = true := by
  unfold pushParent
  split <;> simp [hs]

@[simp] theorem retire_wf_eq (s : State) (c n : Nat) : Memory.wf (retire s c n) = Memory.wf s := by
  unfold retire
  split <;> simp

@[simp] theorem joinLane_wf (s : State) (x : LogLane × Place) (hs : Memory.wf s = true) : Memory.wf (joinLane s x) = true := by
  unfold joinLane
  dsimp only
  repeat' split
  all_goals simp [hs, homeWrite_wf]

@[simp] theorem doneAll_wf (ps : List (LogLane × Place)) (s : State) (hs : Memory.wf s = true) : Memory.wf (doneAll ps s) = true := by
  unfold doneAll
  extract_lets none_ t u th
  have ht : Memory.wf t = true := foldl_wf _ _ (fun s x hs => joinLane_wf s x hs) _ hs
  simp [u, ht]

@[simp] theorem execWdone_wf (hd : Hdr) (a : Operand) (s : State) (hs : Memory.wf s = true) : Out.wf (execWdone hd a s) = true := by
  unfold execWdone
  refine memWord_wf hs fun act ps u hu => ?_
  simp [hu]

/-! ### Phasers -/

@[simp] theorem State.setTether_wf_eq (s : State) (t : Tether) : Memory.wf (s.setTether t) = Memory.wf s := rfl

@[simp] theorem setNode_wf_eq (s : State) (n : PhName) (x : PhNode) : Memory.wf (setNode s n x) = Memory.wf s := rfl

@[simp] theorem setRoot_wf_eq (s : State) (n : PhName) (x : PhRoot) : Memory.wf (setRoot s n x) = Memory.wf s := rfl

@[simp] theorem receiveRelease_wf_eq (s : State) (n : PhName) (r : PhRelease) : Memory.wf (receiveRelease s n r) = Memory.wf s := by
  unfold receiveRelease
  split <;> simp

@[simp] theorem deliverReleases_wf_eq (s : State) (n : PhName) (l : List PhRelease) : Memory.wf (deliverReleases s n l) = Memory.wf s := by
  unfold deliverReleases
  split
  · simp
  · split <;> simp

@[simp] theorem keepOwn_wf_eq (s : State) (n : PhName) (l : List (Nat × PhArrival)) : Memory.wf (keepOwn s n l) = Memory.wf s := by
  unfold keepOwn
  split <;> simp

@[simp] theorem learnPhase_wf_eq (s : State) (n : PhName) (c : Word) : Memory.wf (learnPhase s n c) = Memory.wf s := by
  unfold learnPhase
  split <;> simp

@[simp] theorem answerJoins_wf_eq (s : State) (n : PhName) : Memory.wf (answerJoins s n) = Memory.wf s := by
  unfold answerJoins
  split <;> simp

@[simp] theorem endRoot_wf_eq (s : State) (n : PhName) : Memory.wf (endRoot s n) = Memory.wf s := by
  unfold endRoot
  split <;> simp

@[simp] theorem execRootNodeCycle_wf (name : PhName) (s : State) (hs : Memory.wf s = true) : Out.wf (execRootNodeCycle name s) = true := by
  unfold execRootNodeCycle
  split <;> simp [hs]

@[simp] theorem toRoot_wf_eq (s : State) (n : PhName) (a : PhArrival) : Memory.wf (toRoot s n a) = Memory.wf s := by
  unfold toRoot
  split <;> simp

@[simp] theorem rebuilt_wf_eq (s : State) (n : PhName) : Memory.wf (rebuilt s n) = Memory.wf s := by
  unfold rebuilt
  split <;> simp

@[simp] theorem execTetherCountMessage_wf (node child : Nat) (m : TetherMsg) (s : State) (hs : Memory.wf s = true) :
    Out.wf (execTetherCountMessage node child m s) = true := by
  unfold execTetherCountMessage
  split
  · simp [hs]
  · split <;> simp [hs]

@[simp] theorem execReleaseReceipt_wf (m : Release) (s : State) (hs : Memory.wf s = true) : Out.wf (execReleaseReceipt m s) = true := by
  unfold execReleaseReceipt
  repeat' split
  all_goals simp [hs]

@[simp] theorem execPackageRelease_wf (name : PhName) (s : State) (hs : Memory.wf s = true) :
    Out.wf (execPackageRelease name s) = true := by
  unfold execPackageRelease
  split <;> simp [hs]

theorem phRefuse_wf (s0 s : State) (i : Instr) (hd : Hdr) (act : LaneMask) (x : LogLane) (hs0 : Memory.wf s0 = true)
    (hs : Memory.wf s = true) : Out.wf (phRefuse s0 s i hd act x) = true := protWord_wf _ _ _ _ hs0 hs

@[simp] theorem sendOrHold_wf_eq (s : State) (m : Nat × Nat × Nat) (n : PhName) (a : PhArrival) (bound : Option (Nat × DWord))
    (tags : List Nat) : Memory.wf (sendOrHold s m n a bound tags) = Memory.wf s := by simp [sendOrHold]

theorem signalBy_wf_eq {s t : State} {x : Option PhHandle} {w : Wait} {ws : List Wr} (h : signalBy s x w = some (t, ws)) :
    Memory.wf t = Memory.wf s := by
  unfold signalBy at h
  split at h
  · split at h
    · cases h
      rfl
    · split at h
      · cases h
        rfl
      · split at h
        · cases h
        · cases h
          simp
  · cases h

theorem signalDone_wf_eq {s t : State} {w : Wait} {ws : List Wr} (h : signalDone s w = some (t, ws)) : Memory.wf t = Memory.wf s := by
  unfold signalDone at h
  split at h
  · exact signalBy_wf_eq h
  · cases h

/-- A signalling word keeps the canonical form (R200, R203). -/
theorem signalWord_wf (i : Instr) (hd : Hdr) (h : Nat) (d : Operand) (any : Bool) (scope : Scope) (bind : Option Nat) (na : Nat)
    (a : Operand) (nb : Nat) (b : Operand) (s : State) (hs : Memory.wf s = true) :
    Out.wf (signalWord i hd h d any scope bind na a nb b s) = true := by
  unfold signalWord
  refine issue_wf hs fun act u hu => ?_
  have hrefuse (x : LogLane) : Out.wf (phRefuse s u i hd act x) = true := phRefuse_wf _ _ _ _ _ _ hs hu
  split
  · simp [hu]
  · dsimp only
    split
    · exact hrefuse _
    · split
      · exact hrefuse _
      · split
        · exact hrefuse _
        · split
          · exact hs
          · split
            · next hsignal => simp [signalBy_wf_eq hsignal, hu]
            · simp [hu]

@[simp] theorem execPhsig_wf (x : Ph) (d : Operand) (scope : Scope) (s : State) (hs : Memory.wf s = true) :
    Out.wf (execPhsig x d scope s) = true := by
  simp [execPhsig, hs, signalWord_wf]

@[simp] theorem execPhsigb_wf (x : Ph) (d : Operand) (tl : BitVec 3) (b : Operand) (s : State) (hs : Memory.wf s = true) :
    Out.wf (execPhsigb x d tl b s) = true := by simp [execPhsigb, hs, signalWord_wf]

@[simp] theorem execPhany_wf (x : Ph) (d a : Operand) (s : State) (hs : Memory.wf s = true) : Out.wf (execPhany x d a s) = true := by
  simp [execPhany, hs, signalWord_wf]

@[simp] theorem execPhanyBind_wf (x : Ph) (d a : Operand) (tl : BitVec 3) (b : Operand) (s : State) (hs : Memory.wf s = true) :
    Out.wf (execPhanyBind x d a tl b s) = true := by simp [execPhanyBind, hs, signalWord_wf]

@[simp] theorem execBoundSignalRelease_wf (die i : Nat) (s : State) (hs : Memory.wf s = true) :
    Out.wf (execBoundSignalRelease die i s) = true := by
  unfold execBoundSignalRelease
  split <;> simp [hs]

@[simp] theorem withRoot_wf_eq (s : State) (n : PhName) (x : PhNode) : Memory.wf (withRoot s n x) = Memory.wf s := by simp [withRoot]

@[simp] theorem askRoot_wf_eq (s : State) (n : PhName) (x : PhNode) (m : Nat × Nat × Nat) (mode : PhMode) :
    Memory.wf (askRoot s n x m mode) = Memory.wf s := by simp [askRoot]

@[simp] theorem endJoining_wf_eq (s : State) (m : Nat × Nat × Nat) : Memory.wf (endJoining s m) = Memory.wf s := rfl

@[simp] theorem bindHandle_wf_eq (hd : Hdr) (h : Nat) (d : Operand) (act : LaneMask) (n : PhName) (mode : PhMode) (first : Word)
    (s : State) : Memory.wf (bindHandle hd h d act n mode first s) = Memory.wf s := by
  simp [bindHandle]

@[simp] theorem execPhreg_wf (x : Ph) (d a : Operand) (mode : BitVec 2) (s : State) (hs : Memory.wf s = true) :
    Out.wf (execPhreg x d a mode s) = true := by
  unfold execPhreg
  refine issue_wf hs fun act u hu => ?_
  dsimp only
  repeat' split
  all_goals simp [hs, hu]

@[simp] theorem dropMember_wf_eq (s : State) (die : Nat) (m : Nat × Nat × Nat) (ph : PhHandle) (tags : List Nat) :
    Memory.wf (dropMember s die m ph tags) = Memory.wf s := by
  unfold dropMember
  split <;> simp

@[simp] theorem execPhdrop_wf (x : Ph) (s : State) (hs : Memory.wf s = true) : Out.wf (execPhdrop x s) = true := by
  unfold execPhdrop
  refine issue_wf hs fun act u hu => ?_
  split
  · simp [hu]
  · split <;> simp [hs, hu, phRefuse_wf]

theorem phDone_wf_eq {s t : State} {w : Wait} {ws : List Wr} (h : phDone s w = some (t, ws)) : Memory.wf t = Memory.wf s := by
  unfold phDone at h
  split at h
  case h_3 => cases h
  all_goals
    split at h
    · cases h
      rfl
    · split at h
      · cases h
        simp
      · cases h

/-- A word that waits for a phase keeps the canonical form (R201, R202). -/
theorem phWaitWord_wf (i : Instr) (hd : Hdr) (h : Nat) (a : Operand) (ok : PhHandle → PhNode → Bool) (w : LaneMask → Word → Wait)
    (s : State) (hs : Memory.wf s = true) : Out.wf (phWaitWord i hd h a ok w s) = true := by
  unfold phWaitWord
  refine issue_wf hs fun act u hu => ?_
  extract_lets x fine wait
  split
  · simp [hu]
  · split
    · exact phRefuse_wf _ _ _ _ _ _ hs hu
    · split
      · next hdone => simp [phDone_wf_eq hdone, hu]
      · simp [hu]

@[simp] theorem execPhwait_wf (x : Ph) (a : Operand) (scope : Scope) (s : State) (hs : Memory.wf s = true) :
    Out.wf (execPhwait x a scope s) = true := by
  simp [execPhwait, hs, phWaitWord_wf]

@[simp] theorem execPhwin_wf (x : Ph) (d a : Operand) (scope : Scope) (s : State) (hs : Memory.wf s = true) :
    Out.wf (execPhwin x d a scope s) = true := by simp [execPhwin, hs, phWaitWord_wf]

@[simp] theorem waitOver_wf_eq (s : State) (i : Nat) (p : Pend) (ws : List Wr) : Memory.wf (waitOver s i p ws) = Memory.wf s := by
  simp [waitOver]

@[simp] theorem execPhwaitRelease_wf (r : SubRef) (s : State) (hs : Memory.wf s = true) : Out.wf (execPhwaitRelease r s) = true := by
  unfold execPhwaitRelease
  refine asAgent_wf hs fun u hu => ?_
  split
  · exact hu
  · split
    · exact hu
    · split
      · exact hu
      · next hdone => simp [phDone_wf_eq hdone, hu]

theorem genDone_wf_eq {s t : State} {w : Wait} {ws : List Wr} (h : genDone s w = some (t, ws)) : Memory.wf t = Memory.wf s := by
  unfold genDone at h
  split at h
  · split at h
    · cases h
    · cases h
      simp
  · cases h

theorem plainDone_wf_eq {s t : State} {w : Wait} {ws : List Wr} (h : plainDone s w = some (t, ws)) : Memory.wf t = Memory.wf s := by
  unfold plainDone at h
  split at h
  · next hfence =>
    cases h
    exact fenceDone_wf_eq hfence
  · next hgen =>
    cases h
    exact genDone_wf_eq hgen
  · exact signalDone_wf_eq h

@[simp] theorem execLongLatencyResult_wf (r : SubRef) (s : State) (hs : Memory.wf s = true) :
    Out.wf (execLongLatencyResult r s) = true := by
  unfold execLongLatencyResult
  refine asAgent_wf hs fun u hu => ?_
  split
  · exact hu
  · split
    · exact takeRefusal_wf _ _ _ _ hu
    · exact writeDue_wf _ _ _ hu
    · split
      · exact hu
      · next hdone => simp [plainDone_wf_eq hdone, hu]

@[simp] theorem execPhtest_wf (x : Ph) (d a : Operand) (s : State) (hs : Memory.wf s = true) : Out.wf (execPhtest x d a s) = true := by
  unfold execPhtest
  refine issue_wf hs fun act u hu => ?_
  simp [hu]

@[simp] theorem execPhtime_wf (x : Ph) (a b : Operand) (s : State) (hs : Memory.wf s = true) : Out.wf (execPhtime x a b s) = true := by
  unfold execPhtime
  refine issue_wf hs fun act u hu => ?_
  split
  · simp [hu]
  · split <;> simp [hs, hu, phRefuse_wf]

@[simp] theorem refuseDesc_wf_eq (s : State) : Memory.wf (refuseDesc s) = Memory.wf s := rfl

@[simp] theorem createPhaser_wf_eq (s : State) (n : PhName) (d : PhDesc) : Memory.wf (createPhaser s n d) = Memory.wf s := by
  unfold createPhaser
  split <;> simp

@[simp] theorem clearRefused_wf_eq (s : State) (v : Word) : Memory.wf (clearRefused s v) = Memory.wf s := by simp [clearRefused]

@[simp] theorem execPhdescCreate_wf (value : Word) (s : State) (hs : Memory.wf s = true) : Out.wf (execPhdescCreate value s) = true := by
  simp [execPhdescCreate, hs]

@[simp] theorem destroyPhaser_wf_eq (s : State) (n : PhName) (d : PhDesc) : Memory.wf (destroyPhaser s n d) = Memory.wf s := by
  simp [destroyPhaser]

@[simp] theorem destroyPhreq_wf_eq (s : State) (n : PhName) : Memory.wf (destroyPhreq s n) = Memory.wf s := by
  unfold destroyPhreq
  split <;> simp

@[simp] theorem execPhdescDestroy_wf (value : Word) (s : State) (hs : Memory.wf s = true) : Out.wf (execPhdescDestroy value s) = true := by
  unfold execPhdescDestroy
  dsimp only
  split <;> simp [hs]

@[simp] theorem resendAll_wf_eq (s : State) : Memory.wf (resendAll s) = Memory.wf s := by
  unfold resendAll
  extract_lets pods
  rw [wf_ite, foldl_wf_eq]
  · exact ite_self _
  · intro s n
    split <;> simp

@[simp] theorem usePort_wf_eq (s : State) (p : Bool) : Memory.wf (usePort s p) = Memory.wf s := by simp [usePort]

@[simp] theorem portLost_wf (s : State) (port : Bool) (hs : Memory.wf s = true) : Memory.wf (portLost s port) = true := by
  simp [portLost, hs]

@[simp] theorem execTetherPortFailover_wf (s : State) (hs : Memory.wf s = true) : Out.wf (execTetherPortFailover s) = true := by
  simp [execTetherPortFailover, hs]

@[simp] theorem execTethcfgActiveWrite_wf (port : Bool) (s : State) (hs : Memory.wf s = true) :
    Out.wf (execTethcfgActiveWrite port s) = true := by
  simp [execTethcfgActiveWrite, hs]

@[simp] theorem execTetherPortLinkUp_wf (link : TetherLink) (s : State) (hs : Memory.wf s = true) :
    Out.wf (execTetherPortLinkUp link s) = true := by
  simp [execTetherPortLinkUp, hs]

@[simp] theorem execLeafRootFailover_wf (loss : RootLoss) (s : State) (hs : Memory.wf s = true) :
    Out.wf (execLeafRootFailover loss s) = true := by
  unfold execLeafRootFailover
  split
  · simp [hs]
  · split <;> simp [hs]

@[simp] theorem execRootlost_wf (name : PhName) (s : State) (hs : Memory.wf s = true) : Out.wf (execRootlost name s) = true := by
  unfold execRootlost
  dsimp only
  repeat' split
  all_goals simp [hs]

@[simp] theorem execTetherChildLoss_wf (node child : Nat) (s : State) (hs : Memory.wf s = true) :
    Out.wf (execTetherChildLoss node child s) = true := by
  simp [execTetherChildLoss, hs]

@[simp] theorem execTimeSyncExchange_wf (parent : DWord) (skew : Skew) (s : State) (hs : Memory.wf s = true) :
    Out.wf (execTimeSyncExchange parent skew s) = true := by simp [execTimeSyncExchange, hs]

@[simp] theorem creditTroupe_wf_eq (s : State) (c w t : Nat) : Memory.wf (creditTroupe s c w t) = Memory.wf s := by
  unfold creditTroupe
  split <;> simp

theorem cwaitDone_wf_eq (s : State) (w : Wait) (t : State) (h : cwaitDone s w = some t) : Memory.wf t = Memory.wf s := by
  unfold cwaitDone at h
  split at h
  · split at h
    · split at h
      · cases h
      · split at h
        · cases h
          simp
        · cases h
    · split at h
      · cases h
        simp
      · cases h
  · cases h

@[simp] theorem execCwait_wf (hd : Hdr) (scope : Scope) (s : State) (hs : Memory.wf s = true) : Out.wf (execCwait hd scope s) = true := by
  unfold execCwait
  refine issue_wf hs fun act u hu => ?_
  split
  · simp [hu]
  · split
    · exact phRefuse_wf _ _ _ _ _ _ hs hu
    · dsimp only
      split
      · next hdone => simp [cwaitDone_wf_eq _ _ _ hdone, hu]
      · simp [hu]

@[simp] theorem execCwaitRelease_wf (r : SubRef) (s : State) (hs : Memory.wf s = true) : Out.wf (execCwaitRelease r s) = true :=
  releaseWait_wf hs cwaitDone_wf_eq

@[simp] theorem execCurtainQuiescent_wf (ctx : Nat) (s : State) (hs : Memory.wf s = true) : Out.wf (execCurtainQuiescent ctx s) = true := by
  unfold execCurtainQuiescent
  split <;> simp [hs]

end Sys2Proof.Machine
end

section
/-!
PROOF. The canonical form of memory (R249, R351, R397) over collectives and remote register writes.
-/

namespace Sys2Proof.Machine

/-! ### Collectives -/

@[simp] theorem putColl_wf_eq (s : State) (x : Coll) : Memory.wf (putColl s x) = Memory.wf s := rfl

@[simp] theorem failColl_wf_eq (s : State) (x : Coll) (code : Nat) : Memory.wf (failColl s x code) = Memory.wf s := by simp [failColl]

@[simp] theorem collRefused_wf (s : State) (x : Coll) (e : EngCtx) (va : Nat) (kind : Access) (r : Refused) (hs : Memory.wf s = true) :
    Memory.wf (collRefused s x e va kind r) = true := by
  unfold collRefused
  split
  · exact hs
  · next hrecord => simp [writeFault_wf hrecord hs]

@[simp] theorem collPlaces_wf (s : State) (x : Coll) (kind : Access) (key : Option Nat) (ms : List (Nat × Nat)) (hs : Memory.wf s = true) :
    Memory.wf (collPlaces s x kind key ms).2 = true := by
  unfold collPlaces
  split
  · exact hs
  · split <;> next hplaces => simp [wf_snd_eq hplaces, hs]

@[simp] theorem ownPiece_wf (s : State) (x : Coll) (t seg blk : Nat) (hs : Memory.wf s = true) :
    Memory.wf (ownPiece s x t seg blk).2 = true := by
  unfold ownPiece
  dsimp only
  split <;> next hplaces => simp [wf_snd_eq hplaces, hs]

theorem writePiece_wf (s : State) (x : Coll) (seg blk : Nat) (b : List Byte) (marks : List Bool) (hs : Memory.wf s = true) :
    BothWf (writePiece s x seg blk b marks) := by
  unfold writePiece
  split
  · exact bothWf_none hs
  · dsimp only
    split <;> next hplaces =>
      have ht : Memory.wf _ = true := (wf_snd_eq hplaces).trans (collPlaces_wf (hs := hs) ..)
      simp [bothWf_none, bothWf_some, ht]

@[simp] theorem nodeValues_wf (x : Coll) (t seg blk : Nat) (l : List Nat) (s : State) (hs : Memory.wf s = true) :
    Memory.wf (nodeValues x t seg blk l s).2 = true := by
  induction l generalizing s with
  | nil => exact hs
  | cons p r ih =>
    unfold nodeValues
    split
    · split <;> next hrest => simp [wf_snd_eq hrest, ih, hs]
    · split
      · exact hs
      · split
        · next hown => simp [wf_snd_eq hown, hs]
        · next hown =>
          have ht : Memory.wf _ = true := (wf_snd_eq hown).trans (ownPiece_wf (hs := hs) ..)
          split <;> next hrest => simp [wf_snd_eq hrest, ih, ht]

@[simp] theorem nodePiece_wf (s : State) (x : Coll) (k seg blk : Nat) (hs : Memory.wf s = true) :
    Memory.wf (nodePiece s x k seg blk).2 = true := by
  unfold nodePiece
  split <;> next hvalues => simp [wf_snd_eq hvalues, hs]

@[simp] theorem emitColl_wf_eq (s : State) (x : Coll) (m : CollMsg) : Memory.wf (emitColl s x m) = Memory.wf s := by simp [emitColl]

@[simp] theorem settleLags_wf_eq (s : State) (x : Coll) : Memory.wf (settleLags s x) = Memory.wf s := by simp [settleLags]

@[simp] theorem tellDone_wf_eq (s : State) (x : Coll) : Memory.wf (tellDone s x) = Memory.wf s := by simp [tellDone]

@[simp] theorem collDone_wf (s : State) (x : Coll) (code : Nat) (hs : Memory.wf s = true) : Memory.wf (collDone s x code) = true := by
  simp [collDone, hs]

@[simp] theorem sendColl_wf (s : State) (x : Coll) (m : CollMsg) (hs : Memory.wf s = true) : Memory.wf (sendColl s x m) = true := by
  unfold sendColl
  split <;> simp [hs]

theorem finalPiece_wf (s : State) (x : Coll) (m : CollMsg) (b : List Byte) (marks : List Bool) (sat : Bool) (hs : Memory.wf s = true) :
    BothWf (finalPiece s x m b marks sat) := by
  unfold finalPiece
  split
  · exact bothWf_none hs
  · next y _ =>
    have hwrite := writePiece_wf s { y with sat := y.sat || sat } m.seg m.blk b marks hs
    split
    · next heq => exact bothWf_none (hwrite.of_none heq)
    · next heq =>
      obtain ⟨ht, hu⟩ := hwrite.of_some heq
      exact bothWf_some (by simp [ht]) hu

theorem partMsg_wf (s : State) (x : Coll) (m : CollMsg) (hs : Memory.wf s = true) : BothWf (partMsg s x m) := by
  unfold partMsg
  dsimp only
  split
  · exact bothWf_none hs
  · split <;> next hpiece =>
      have ht : Memory.wf _ = true := (wf_snd_eq hpiece).trans (nodePiece_wf (hs := hs) ..)
      simp [bothWf_none, bothWf_some, finalPiece_wf, apply_ite BothWf, ht]

theorem copyMsg_wf (s : State) (x : Coll) (m : CollMsg) (hs : Memory.wf s = true) : BothWf (copyMsg s x m) := by
  have hwrite := writePiece_wf s x m.seg m.blk m.bytes m.marks hs
  unfold copyMsg
  split
  · next heq => exact bothWf_none (hwrite.of_none heq)
  · next heq =>
    obtain ⟨ht, hu⟩ := hwrite.of_some heq
    exact bothWf_some (by simp [ht]) hu

theorem leaveMsg_wf (s : State) (x : Coll) (m : CollMsg) (hs : Memory.wf s = true) : BothWf (leaveMsg s x m) := by
  unfold leaveMsg
  dsimp only
  split <;> next hown =>
    have ht : Memory.wf _ = true := (wf_snd_eq hown).trans (ownPiece_wf (hs := hs) ..)
    simp [bothWf_none, bothWf_some, ht]

theorem takeAt_wf (s : State) (x : Coll) (m : CollMsg) (hs : Memory.wf s = true) : BothWf (takeAt s x m) := by
  unfold takeAt
  split
  · exact bothWf_some hs hs
  · split
    · exact bothWf_none hs
    · split
      · exact bothWf_some (by simp [hs]) hs
      · split
        · exact partMsg_wf s x m hs
        · split
          · exact leaveMsg_wf s x m hs
          · exact copyMsg_wf s x m hs

@[simp] theorem heardFrom_wf_eq (s : State) (x : Coll) : Memory.wf (heardFrom s x) = Memory.wf s := rfl

/-- A collective that takes a message keeps the canonical form (R369 to R373). -/
theorem takeMsg_wf (s : State) (m : CollMsg) (hs : Memory.wf s = true) : BothWf (takeMsg s m) := by
  unfold takeMsg
  dsimp only
  split
  · exact bothWf_none hs
  · next x _ =>
    have htake := takeAt_wf s x m hs
    split
    · exact bothWf_none hs
    · split
      · exact bothWf_some hs hs
      · split
        · exact bothWf_some (by simp [hs]) hs
        · split
          · exact bothWf_some (by simp [hs]) hs
          · split
            · exact bothWf_none hs
            · split
              · next heq =>
                obtain ⟨ht, hu⟩ := htake.of_some heq
                exact bothWf_some (by simp [ht]) hu
              · next heq => exact bothWf_none (htake.of_none heq)

@[simp] theorem takeMsgs_wf (l : List CollMsg) (s : State) (hs : Memory.wf s = true) : Memory.wf (takeMsgs l s) = true := by
  induction l generalizing s with
  | nil => exact hs
  | cons m r ih =>
    have htake := takeMsg_wf s m hs
    unfold takeMsgs
    split
    · next heq => exact ih _ (htake.of_some heq).1
    · next t heq =>
      have ht : Memory.wf t = true := htake.of_none heq
      exact ih _ ht

@[simp] theorem collRead_wf (s : State) (x : Coll) (va n : Nat) (hs : Memory.wf s = true) : Memory.wf (collRead s x va n).2 = true := by
  unfold collRead
  split
  · next hplaces => simp [wf_snd_eq hplaces, hs]
  · next hplaces => split <;> next hread => simp [wf_snd_eq hread, wf_snd_eq hplaces, hs]

@[simp] theorem collWalk_wf (s : State) (x : Coll) (hs : Memory.wf s = true) : Memory.wf (collWalk s x).2 = true := by
  unfold collWalk
  split
  · exact hs
  · split
    · next hwalk => simp [wf_snd_eq hwalk, hs]
    · next hwalk => split <;> next hwalk' => simp [wf_snd_eq hwalk', wf_snd_eq hwalk, hs]

@[simp] theorem beginColl_wf (s : State) (x : Coll) (m : Nat) (tab : List (Nat × Nat × Nat)) (hs : Memory.wf s = true) :
    Memory.wf (beginColl s x m tab) = true := by
  unfold beginColl
  dsimp only
  split
  · split
    · simp [hs]
    · split
      · simp [hs]
      · exact foldl_wf _ _ (fun s m hs => by simp [hs]) _ (by simp [hs])
  · simp [hs]
  · simp [hs]

/-- A collective that tries to start keeps the canonical form (R367, R368). -/
@[simp] theorem startColl_wf (s : State) (x : Coll) (hs : Memory.wf s = true) : Memory.wf (startColl s x) = true := by
  unfold startColl
  dsimp only
  split
  · simp [hs]
  · split
    · simp [hs]
    · split
      · next hread => simp [wf_snd_eq hread, hs]
      · next hread =>
        have ht : Memory.wf _ = true := (wf_snd_eq hread).trans (collRead_wf (hs := hs) ..)
        split
        · simp [ht]
        · split
          · next hread' => simp [wf_snd_eq hread', ht]
          · next hread' =>
            have hu : Memory.wf _ = true := (wf_snd_eq hread').trans (collRead_wf (hs := ht) ..)
            split
            · simp [hu]
            · split
              · next hwalk _ => simp [wf_snd_eq hwalk, hu]
              · next hwalk _ => simp [wf_snd_eq hwalk, hu]

@[simp] theorem tellFin_wf (s : State) (x : Coll) (hs : Memory.wf s = true) : Memory.wf (tellFin s x) = true := by
  unfold tellFin
  exact foldl_wf _ _ (fun s m hs => by simp [hs]) _ (by simp [hs])

/-- A cycle of a collective keeps the canonical form. -/
@[simp] theorem collCycle_wf (ctx num : Nat) (s : State) (hs : Memory.wf s = true) : Memory.wf (collCycle ctx num s) = true := by
  unfold collCycle
  extract_lets started mine q taken told ended
  have hstarted : Memory.wf started = true := foldl_wf _ _ startColl_wf _ hs
  have htaken : Memory.wf taken = true := takeMsgs_wf _ _ hstarted
  have htold : Memory.wf told = true := foldl_wf _ _ tellFin_wf _ htaken
  have hended : Memory.wf ended = true := foldl_wf _ _ (fun s x hs => collDone_wf (hs := hs) ..) _ htold
  exact foldl_wf _ _ (fun s x hs => collDone_wf (hs := hs) ..) _ hended

@[simp] theorem execCollectiveComplete_wf (ctx num : Nat) (s : State) (hs : Memory.wf s = true) :
    Out.wf (execCollectiveComplete ctx num s) = true := by
  simp [execCollectiveComplete, hs]

@[simp] theorem restitch_wf (s : State) (x : Coll) (laggard q : Nat) (hs : Memory.wf s = true) :
    Memory.wf (restitch s x laggard q) = true := by
  simp [restitch, hs]

@[simp] theorem lagTimeout_wf (ctx num laggard : Nat) (counts : List Nat) (s : State) (hs : Memory.wf s = true) :
    Memory.wf (lagTimeout ctx num laggard counts s) = true := by
  unfold lagTimeout
  extract_lets mine all q t u v again
  have ht : Memory.wf t = true := foldl_wf _ _ (fun s x hs => restitch_wf s x laggard q hs) _ hs
  have hu : Memory.wf u = true := ht
  have hv : Memory.wf v = true := foldl_wf _ _ (fun s x hs => by simp [hs]) _ hu
  simp [hv]

@[simp] theorem execCollectiveLagTimeout_wf (ctx num laggard : Nat) (counts : List Nat) (s : State) (hs : Memory.wf s = true) :
    Out.wf (execCollectiveLagTimeout ctx num laggard counts s) = true := by simp [execCollectiveLagTimeout, hs]

@[simp] theorem takeCollect_wf_eq (p : Packet) (s : State) : Memory.wf (takeCollect p s) = Memory.wf s := rfl

@[simp] theorem joinColl_wf_eq (s : State) (x : LogLane) (h : BitVec 8) (tl : Nat) : Memory.wf (joinColl s x h tl) = Memory.wf s := rfl

theorem acceptColl_wf (s0 s : State) (x : LogLane) (h : BitVec 8) (tl : Nat) (hs0 : Memory.wf s0 = true) (hs : Memory.wf s = true) :
    Out.wf (acceptColl s0 s x h tl) = true := by
  unfold acceptColl
  dsimp only
  split
  · exact hs0
  · split
    · simp [hs]
    · split
      · exact hs0
      · split
        · simp [hs0]
        · next hask => simp [poolAsk_wf_eq hask, hs]

@[simp] theorem execColl_wf (hd : Hdr) (tl : BitVec 3) (h : BitVec 8) (a : Operand) (s : State) (hs : Memory.wf s = true) :
    Out.wf (execColl hd tl h a s) = true := by
  unfold execColl
  refine issue_wf hs fun act u hu => ?_
  split <;> simp [hs, hu, acceptColl_wf, faultWord_wf]

@[simp] theorem execCollst_wf (hd : Hdr) (d a : Operand) (s : State) (hs : Memory.wf s = true) : Out.wf (execCollst hd d a s) = true := by
  unfold execCollst
  refine issue_wf hs fun act u hu => ?_
  simp [hu]

@[simp] theorem walkCmd_wf (core : Nat) (s : State) (x : CopyCmd) (hs : Memory.wf s = true) : Memory.wf (walkCmd core s x) = true := by
  unfold walkCmd
  split
  · exact hs
  · split
    · exact hs
    · split <;> next hwalk => simp [wf_snd_eq hwalk, hs]

@[simp] theorem walkOp_wf (s : State) (c w : Nat) (x : MatOp) (hs : Memory.wf s = true) : Memory.wf (walkOp s c w x) = true := by
  unfold walkOp
  split
  · exact hs
  · split
    · exact hs
    · split
      · exact hs
      · split
        · next hwalk => simp [wf_snd_eq hwalk, hs]
        · next hwalk =>
          have ht : Memory.wf _ = true := (wf_snd_eq hwalk).trans (walkTouches_wf (hs := hs) ..)
          split
          · exact ht
          · split
            · exact ht
            · next hrecord => simp [writeFault_wf hrecord ht]

@[simp] theorem walkColl_wf (s : State) (x : Coll) (hs : Memory.wf s = true) : Memory.wf (walkColl s x) = true := by
  unfold walkColl
  split
  · exact hs
  · split
    · next hwalk => simp [wf_snd_eq hwalk, hs]
    · next hwalk =>
      have ht : Memory.wf _ = true := (wf_snd_eq hwalk).trans (collWalk_wf (hs := hs) ..)
      split
      · split <;> simp [ht]
      · exact ht

@[simp] theorem walkAhead_wf (cl : Nat) (s : State) (a : Ahead) (hs : Memory.wf s = true) : Memory.wf (walkAhead cl s a) = true := by
  unfold walkAhead
  split <;> simp [hs]

@[simp] theorem execWalkAheadTranslate_wf (core : Nat) (s : State) (hs : Memory.wf s = true) :
    Out.wf (execWalkAheadTranslate core s) = true :=
  foldl_wf _ _ (walkAhead_wf (core / 8)) _ hs

/-! ### Remote register writes -/

@[simp] theorem execRcapmkReg_wf (hd : Hdr) (d : Operand) (reg : BitVec 8) (n : BitVec 3) (a : Operand) (wr xp : Bool) (s : State)
    (hs : Memory.wf s = true) : Out.wf (execRcapmkReg hd d reg n a wr xp s) = true := by
  unfold execRcapmkReg
  refine issue_wf hs fun act u hu => ?_
  simp [hu]

@[simp] theorem execRcapmkLand_wf (hd : Hdr) (d : Operand) (e : BitVec 4) (a b : Operand) (wr xp : Bool) (s : State)
    (hs : Memory.wf s = true) : Out.wf (execRcapmkLand hd d e a b wr xp s) = true := by
  unfold execRcapmkLand
  refine issue_wf hs fun act u hu => ?_
  dsimp only
  repeat' split
  all_goals simp [hs, hu, faultWord_wf]

@[simp] theorem execRcapld_wf (hd : Hdr) (slot : BitVec 4) (a : Operand) (s : State) (hs : Memory.wf s = true) :
    Out.wf (execRcapld hd slot a s) = true := by
  unfold execRcapld
  refine issue_wf hs fun act u hu => ?_
  simp [hu]

@[simp] theorem execRcaprevReg_wf (hd : Hdr) (s : State) (hs : Memory.wf s = true) : Out.wf (execRcaprevReg hd s) = true := by
  unfold execRcaprevReg
  refine issue_wf hs fun act u hu => ?_
  simp [hu]

@[simp] theorem execRcaprevLand_wf (hd : Hdr) (e : BitVec 4) (s : State) (hs : Memory.wf s = true) :
    Out.wf (execRcaprevLand hd e s) = true := by
  unfold execRcaprevLand
  refine issue_wf hs fun act u hu => ?_
  simp [hu]

@[simp] theorem writeRange_wf_eq (s : State) (act : LaneMask) (n : Nat) (d : Operand) : Memory.wf (writeRange s act n d) = Memory.wf s := by
  simp [writeRange]

@[simp] theorem execRarm_wf (hd : Hdr) (d : Operand) (k : BitVec 3) (s : State) (hs : Memory.wf s = true) :
    Out.wf (execRarm hd d k s) = true := by
  unfold execRarm
  refine issue_wf hs fun act u hu => ?_
  dsimp only
  split <;> simp [hs, hu]

@[simp] theorem execRpoll_wf (hd : Hdr) (d a : Operand) (k : BitVec 3) (p : BitVec 3) (s : State) (hs : Memory.wf s = true) :
    Out.wf (execRpoll hd d a k p s) = true := by
  unfold execRpoll
  refine issue_wf hs fun act u hu => ?_
  simp [hu]

@[simp] theorem noteFailure_wf (s : State) (a : Agent) (tl ticket code kind : Nat) (err : Word) (hs : Memory.wf s = true) :
    Memory.wf (noteFailure s a tl ticket code kind err) = true := by
  unfold noteFailure
  dsimp only
  repeat' split
  all_goals simp [hs]

@[simp] theorem completeTicket_wf_eq (s : State) (a : Agent) (tl ticket : Nat) :
    Memory.wf (completeTicket s a tl ticket) = Memory.wf s := by
  unfold completeTicket
  split
  · simp
  · split <;> simp

@[simp] theorem putSend_wf_eq (s : State) (d : Delivery) : Memory.wf (putSend s d) = Memory.wf s := rfl

@[simp] theorem leftCore_wf_eq (s : State) (d : Delivery) : Memory.wf (leftCore s d) = Memory.wf s := by
  unfold leftCore
  split <;> simp

@[simp] theorem sendPhase_wf_eq (s : State) (d : Delivery) (ph : DeliveryPhase) (next : List Instr) :
    Memory.wf (sendPhase s d ph next) = Memory.wf s := rfl

@[simp] theorem launchSend_wf_eq (s : State) (d : Delivery) (core : Nat) : Memory.wf (launchSend s d core) = Memory.wf s := by
  unfold launchSend
  dsimp only
  repeat' split
  all_goals simp

@[simp] theorem launchAll_wf_eq (l : List Delivery) (s : State) : Memory.wf (launchAll l s).2 = Memory.wf s := by
  induction l generalizing s with
  | nil => rfl
  | cons d r ih =>
    unfold launchAll
    split
    · simp
    · next hask => simp [ih, poolAsk_wf_eq hask]

@[simp] theorem newSends_wf_eq (tl ticket : Nat) (cap : BitVec 128) (off n : Nat) (rel : Bool) (scope : Scope)
    (parts : List (LaneMask × List (Word × Bool))) (s : State) :
    Memory.wf (newSends tl ticket cap off n rel scope parts s) = Memory.wf s := by
  simp [newSends]

@[simp] theorem sendWords_wf_eq (i : Instr) (hd : Hdr) (act : LaneMask) (tl ticket : Nat) (s0 s : State) :
    Memory.wf (sendWords i hd act tl ticket s0 s) = Memory.wf s := by simp [sendWords]

@[simp] theorem execRwr_wf (hd : Hdr) (a : Operand) (slot : BitVec 4) (tl : BitVec 3) (scope : Scope) (rel : Bool) (off k : BitVec 3)
    (s : State) (hs : Memory.wf s = true) : Out.wf (execRwr hd a slot tl scope rel off k s) = true := by
  unfold execRwr
  refine issue_wf hs fun act u hu => ?_
  split
  · simp [hu]
  · split <;> simp [hs, hu]

@[simp] theorem acquireFor_wf_eq (s : State) (a : Agent) (scope : Scope) : Memory.wf (acquireFor s a scope) = Memory.wf s := by
  unfold acquireFor
  split
  · rfl
  · next hfocus => simp [focus_wf_eq hfocus]

@[simp] theorem deliverWords_wf (s : State) (cap : BitVec 128) (off k : Nat) (lanes : LaneMask) (vals : List (Word × Bool)) (rel : Bool)
    (scope : Scope) (hs : Memory.wf s = true) : Memory.wf (deliverWords s cap off k lanes vals rel scope).2 = true := by
  unfold deliverWords
  dsimp only
  repeat' split
  all_goals simp [hs]

@[simp] theorem performSend_wf (s : State) (d : Delivery) (at_ : Option Nat) (hs : Memory.wf s = true) :
    Memory.wf (performSend s d at_) = true := by
  unfold performSend
  split <;> simp [hs]

@[simp] theorem takeInbound_wf_eq (s : State) (core : Nat) (d : Delivery) : Memory.wf (takeInbound s core d).2 = Memory.wf s := by
  unfold takeInbound
  split
  · next henter => simp [poolEnter_wf_eq henter]
  · simp

@[simp] theorem execRwrDeliveryApply_wf (i : Nat) (s : State) (hs : Memory.wf s = true) : Out.wf (execRwrDeliveryApply i s) = true := by
  unfold execRwrDeliveryApply
  split
  · simp [hs]
  · split <;> simp [hs]

@[simp] theorem execSliceForward_wf (i : Nat) (s : State) (hs : Memory.wf s = true) : Out.wf (execSliceForward i s) = true := by
  unfold execSliceForward
  dsimp only
  repeat' split
  all_goals simp [hs]

end Sys2Proof.Machine
end

section
/-!
PROOF. The canonical form of memory (R249, R351, R397) over queues and launches, and contexts that share the package.
-/

namespace Sys2Proof.Machine

/-! ### Queues and launches -/

@[simp] theorem State.setQueue_wf_eq (s : State) (q : Nat) (x : Queue) : Memory.wf (s.setQueue q x) = Memory.wf s := rfl

@[simp] theorem nextFetch_wf_eq (s : State) (q : Nat) : Memory.wf (nextFetch s q) = Memory.wf s := by simp [nextFetch]

@[simp] theorem startedQ_wf_eq (s : State) (q : Nat) : Memory.wf (startedQ s q) = Memory.wf s := by simp [startedQ]

@[simp] theorem haltQueue_wf_eq (s : State) (q err : Nat) : Memory.wf (haltQueue s q err) = Memory.wf s := rfl

theorem takeCmd_wf_eq {s t : State} {q typ c : Nat} (h : takeCmd s q typ = some (c, t)) : Memory.wf t = Memory.wf s := by
  unfold takeCmd at h
  dsimp only at h
  split at h
  · injection h with h
    obtain ⟨-, rfl⟩ := Prod.mk.inj h
    simp
  · cases h

@[simp] theorem setPhase_wf_eq (s : State) (q : Nat) (p : CmdPhase) : Memory.wf (setPhase s q p) = Memory.wf s := rfl

@[simp] theorem execCmdNop_wf (q : Nat) (s : State) (hs : Memory.wf s = true) : Out.wf (execCmdNop q s) = true := by
  unfold execCmdNop
  split
  · exact hs
  · next htake => simp [takeCmd_wf_eq htake, hs]

@[simp] theorem execCmdBadType_wf (q : Nat) (s : State) (hs : Memory.wf s = true) : Out.wf (execCmdBadType q s) = true := by
  simp [execCmdBadType, hs]

@[simp] theorem refuseCmd_wf (s : State) (q err asid va : Nat) (r : Refused) (k : Access) (hs : Memory.wf s = true) :
    Memory.wf (refuseCmd s q err asid va r k) = true := by
  unfold refuseCmd
  split
  · exact hs
  · next hrecord => simp [writeFault_wf hrecord hs]

@[simp] theorem execCmdWait_wf (q : Nat) (s : State) (hs : Memory.wf s = true) : Out.wf (execCmdWait q s) = true := by
  unfold execCmdWait
  split
  · exact hs
  · next htake => split <;> simp [takeCmd_wf_eq htake, hs]

@[simp] theorem execWaitConditionMet_wf (q : Nat) (s : State) (hs : Memory.wf s = true) : Out.wf (execWaitConditionMet q s) = true := by
  unfold execWaitConditionMet
  split
  · split <;> simp [hs]
  · next c _ =>
    extract_lets asid va
    split
    · exact hs
    · have hwalked := frontWalk_wf s asid va .load hs
      split
      · next hwalk => exact refuseCmd_wf (hs := (wf_snd_eq hwalk).trans hwalked) ..
      · next hwalk =>
        have ht := (wf_snd_eq hwalk).trans hwalked
        split
        · rfl
        · extract_lets u
          have hu : Memory.wf u = true := by simp [u, ht]
          split
          · next hread => simp [wf_snd_eq hread, hu]
          · next hread => split <;> simp [wf_snd_eq hread, hu]
  · exact hs

theorem trySignal_wf (s : State) (q c : Nat) (hs : Memory.wf s = true) : Out.wf (trySignal s q c) = true := by
  unfold trySignal
  dsimp only
  split
  · exact hs
  · have hwalked := frontWalk_wf s (bitsN c 207 192) (bitsN c 184 128) .store hs
    split
    · next hwalk => exact refuseCmd_wf (hs := (wf_snd_eq hwalk).trans hwalked) ..
    · next hwalk =>
      have ht := (wf_snd_eq hwalk).trans hwalked
      split
      · rfl
      · split <;> next hwrite => simp [wf_snd_eq hwrite, ht]

@[simp] theorem execCmdSignal_wf (q : Nat) (s : State) (hs : Memory.wf s = true) : Out.wf (execCmdSignal q s) = true := by
  unfold execCmdSignal
  split
  · split
    · exact hs
    · next htake => split <;> simp [trySignal_wf, takeCmd_wf_eq htake, hs]
  · split <;> simp [trySignal_wf, hs]
  · split <;> simp [hs]
  · exact hs

@[simp] theorem execCmdLaunch_wf (q : Nat) (s : State) (hs : Memory.wf s = true) : Out.wf (execCmdLaunch q s) = true := by
  unfold execCmdLaunch
  split
  · exact hs
  · next htake => simp [takeCmd_wf_eq htake, hs]

@[simp] theorem putRecord_wf (s : State) (asid pa key : Nat) (r : List Byte) (hs : Memory.wf s = true) :
    Memory.wf (putRecord s asid pa key r) = true := by simp [putRecord, hs]

theorem refuseLaunch_wf (s : State) (q c check : Nat) (hs : Memory.wf s = true) : Out.wf (refuseLaunch s q c check) = true := by
  unfold refuseLaunch
  split <;> next hwalk => simp [wf_snd_eq hwalk, hs]

@[simp] theorem gatherCode_wf_eq (l : List (Nat × Nat)) (k : List (Nat × List Byte)) (s : State) :
    Memory.wf (gatherCode l k s).2 = Memory.wf s := by
  induction l generalizing k s with
  | nil => rfl
  | cons p r ih =>
    unfold gatherCode
    split
    · exact ih ..
    · split <;> next hread => simp [ih, wf_snd_eq hread]

@[simp] theorem createPhreqs_wf_eq (c : Nat) (l : List Nat) (s : State) : Memory.wf (createPhreqs c l s).2.2 = Memory.wf s := by
  induction l generalizing s with
  | nil => rfl
  | cons i r ih =>
    unfold createPhreqs
    dsimp only
    split
    · exact ih s
    · split <;> simp [ih]

@[simp] theorem joinCurtain_wf_eq (s : State) (pcurt : Nat) : Memory.wf (joinCurtain s pcurt) = Memory.wf s := by
  unfold joinCurtain
  split <;> simp

@[simp] theorem pushSeeds_wf (s : State) (x : Context) (seeds : List Nat) (hs : Memory.wf s = true) :
    Memory.wf (pushSeeds s x seeds) = true := by
  unfold pushSeeds
  split
  · exact foldl_wf _ _ (fun s r hs => homePush_wf s x.ctx (r.2 % x.nlist) r.1 hs) _ hs
  · exact hs

theorem startLaunch_wf (s : State) (q c : Nat) (phreqs : List PhName) (hs : Memory.wf s = true) :
    Out.wf (startLaunch s q c phreqs) = true := by
  unfold startLaunch
  extract_lets asid
  split
  · next hgather => simp [wf_snd_eq hgather, hs]
  · next t httab =>
    have ht : Memory.wf t = true := by simp [wf_snd_eq httab, hs]
    split
    · next hgather => simp [wf_snd_eq hgather, ht]
    · next u huregs =>
      have hu : Memory.wf u = true := by simp [wf_snd_eq huregs, ht]
      split
      · next hgather => simp [wf_snd_eq hgather, hu]
      · next v hseeds =>
        have hv : Memory.wf v = true := by simp [wf_snd_eq hseeds, hu]
        extract_lets units far got w x w1 w2 w3 w4
        have hw : Memory.wf w3 = true := by simp [w3, w2, w1, w, got, hv]
        split
        · simp [got, hv]
        · simpa [w4] using hw

theorem checkLaunch_wf (s : State) (q c : Nat) (hs : Memory.wf s = true) : Out.wf (checkLaunch s q c) = true := by
  unfold checkLaunch
  split
  · simp [hs]
  · extract_lets n
    split
    · exact refuseLaunch_wf _ _ _ _ hs
    · have hwalked := frontWalk_wf s (lAsid c) (lDone c) .store hs
      split
      · next hwalk => exact refuseCmd_wf (hs := (wf_snd_eq hwalk).trans hwalked) ..
      · next hwalk =>
        have ht := (wf_snd_eq hwalk).trans hwalked
        split
        · rfl
        · extract_lets p
          have hp : Memory.wf p.2.2 = true := by simp [p, ht]
          split
          · exact refuseLaunch_wf _ _ _ _ (by simp [hp])
          · have hstart := startLaunch_wf p.2.2 q c p.1 hp
            split
            · next heq =>
              rw [heq] at hstart
              split
              · exact hstart
              · simp [ht]
            · rfl
            · rfl

theorem tryLaunch_wf (s : State) (q c : Nat) (hs : Memory.wf s = true) : Out.wf (tryLaunch s q c) = true := by
  simp [tryLaunch, hs, checkLaunch_wf]

@[simp] theorem execLaunchStart_wf (q : Nat) (s : State) (hs : Memory.wf s = true) : Out.wf (execLaunchStart q s) = true := by
  unfold execLaunchStart
  split <;> simp [hs, tryLaunch_wf]

@[simp] theorem seatWg_wf_eq (s : State) (c w n core : Nat) : Memory.wf (seatWg s c w n core) = Memory.wf s := by
  unfold seatWg
  exact foldl_wf_eq _ _ (fun s t => by simp) s

@[simp] theorem occupy_wf (s : State) (c w n core : Nat) (hs : Memory.wf s = true) : Memory.wf (occupy s c w n core) = true := by
  simp [occupy, hs]

@[simp] theorem launchBegun_wf_eq (s : State) (x : Context) : Memory.wf (launchBegun s x) = Memory.wf s := by
  unfold launchBegun
  split <;> simp

@[simp] theorem dropCredits_wf_eq (s : State) (x : Context) (n : Nat) : Memory.wf (dropCredits s x n) = Memory.wf s := by simp [dropCredits]

@[simp] theorem placeMember_wf (x : Context) (b : List Byte) (s : State) (p : Nat × Nat × Nat × Nat) (hs : Memory.wf s = true) :
    Memory.wf (placeMember x b s p) = true := by simp [placeMember, hs]

@[simp] theorem execWorkgroupPlace_wf (ctx wg : Nat) (s : State) (hs : Memory.wf s = true) :
    Out.wf (execWorkgroupPlace ctx wg s) = true := by
  unfold execWorkgroupPlace
  split
  · exact hs
  · split
    · exact hs
    · extract_lets mine left cores t
      have ht : Memory.wf t = true := by simp [t, hs]
      split
      · exact ht
      · split
        · exact hs
        · split
          · next hgather => simp [wf_snd_eq hgather, hs]
          · next hgather =>
            refine (launchBegun_wf_eq ..).trans (foldl_wf _ _ (fun s p hs => placeMember_wf _ _ s p hs) _ ?_)
            simp [wf_snd_eq hgather, hs]

@[simp] theorem roomAgain_wf_eq (s : State) : Memory.wf (roomAgain s) = Memory.wf s := rfl

@[simp] theorem countEnd_wf_eq (s : State) (c w t : Nat) : Memory.wf (countEnd s c w t) = Memory.wf s := by
  unfold countEnd
  split <;> simp

@[simp] theorem execTroupeEnd_wf (c w t : Nat) (s : State) (hs : Memory.wf s = true) : Out.wf (execTroupeEnd c w t s) = true := by
  unfold execTroupeEnd
  split <;> simp [hs]

@[simp] theorem countFailed_wf_eq (s : State) (g : Workgroup) : Memory.wf (countFailed s g) = Memory.wf s := by simp [countFailed]

@[simp] theorem dropJoining_wf_eq (s : State) (die : Nat) (j : Joining) : Memory.wf (dropJoining s die j) = Memory.wf s := by
  unfold dropJoining
  dsimp only
  repeat' split
  all_goals simp

@[simp] theorem dropHandles_wf_eq (s : State) (g : Workgroup) : Memory.wf (dropHandles s g) = Memory.wf s := by simp [dropHandles]

@[simp] theorem freeCohort_wf_eq (s : State) (c cohort : Nat) : Memory.wf (freeCohort s c cohort) = Memory.wf s := by simp [freeCohort]

@[simp] theorem execWorkgroupEnd_wf (c w : Nat) (s : State) (hs : Memory.wf s = true) : Out.wf (execWorkgroupEnd c w s) = true := by
  unfold execWorkgroupEnd
  dsimp only
  repeat' split
  all_goals simp [hs]

@[simp] theorem forgetContext_wf_eq (s : State) (c : Nat) : Memory.wf (forgetContext s c) = Memory.wf s := by
  unfold forgetContext
  dsimp only
  repeat' split
  all_goals simp

@[simp] theorem afterLaunch_wf_eq (s : State) : Memory.wf (afterLaunch s) = Memory.wf s := rfl

@[simp] theorem haltDone_wf_eq (s : State) (q : Nat) : Memory.wf (haltDone s q) = Memory.wf s := rfl

@[simp] theorem execLaunchEnd_wf (c : Nat) (s : State) (hs : Memory.wf s = true) : Out.wf (execLaunchEnd c s) = true := by
  unfold execLaunchEnd
  split
  · exact hs
  · split
    · exact hs
    · extract_lets u x v va
      have hv : Memory.wf v = true := by simp [v, u, hs]
      split
      · simp [hv]
      · have hwalked := frontWalk_wf v x.asid va .store hv
        split
        · next hwalk =>
          have ht := (wf_snd_eq hwalk).trans hwalked
          split
          · rfl
          · simp [ht]
        · next hwalk =>
          have ht := (wf_snd_eq hwalk).trans hwalked
          split
          · exact ht
          · next hrecord => split <;> simp [writeFault_wf hrecord ht]

/-! ### Contexts that share the package -/

@[simp] theorem mapAgents_wf_eq (s : State) (c w : Nat) (f : Thread → Thread) : Memory.wf (mapAgents s c w f) = Memory.wf s := rfl

@[simp] theorem saveSends_wf_eq (l : List Delivery) (s : State) (core : Nat) : Memory.wf (saveSends l s core) = Memory.wf s := rfl

@[simp] theorem leaveQueues_wf (s : State) (g : Workgroup) (core : Nat) (hs : Memory.wf s = true) :
    Memory.wf (leaveQueues s g core).1 = true := by simp [leaveQueues, hs]

@[simp] theorem saveOut_wf (s : State) (g : Workgroup) (core entries : Nat) (hs : Memory.wf s = true) :
    Memory.wf (saveOut s g core entries) = true := by
  unfold saveOut
  extract_lets t
  have ht : Memory.wf t = true := by simp [t, hs]
  simp [ht]

@[simp] theorem swapOut_wf (n : Nat) (s : State) (g : Workgroup) (hs : Memory.wf s = true) : Memory.wf (swapOut n s g) = true := by
  unfold swapOut
  split <;> simp [hs]

@[simp] theorem setMoving_wf_eq (s : State) (l : List Workgroup) : Memory.wf (setMoving s l) = Memory.wf s := rfl

@[simp] theorem execPreemptCohort_wf (ctx cohort : Nat) (s : State) (hs : Memory.wf s = true) :
    Out.wf (execPreemptCohort ctx cohort s) = true := by
  unfold execPreemptCohort
  split
  · exact hs
  · extract_lets l t x u n v w
    split
    · simp [hs]
    · have hu : Memory.wf u = true := by simp [u, t, hs]
      have hv : Memory.wf v = true := foldl_wf _ _ (fun s g hs => by simp [hs]) _ hu
      split
      · exact hu
      · split
        · simp [hu]
        · split
          · exact hu
          · simp [w, hv]

@[simp] theorem declineAgent_wf_eq (id : Nat) (s : State) (a : Agent) : Memory.wf (declineAgent id s a) = Memory.wf s := by
  unfold declineAgent
  split
  · rfl
  · next hfocus =>
    split
    · rfl
    · simp [focus_wf_eq hfocus]

@[simp] theorem answerCopies_wf_eq (id : Nat) (decline : Bool) (s : State) (core : Nat) :
    Memory.wf (answerCopies id decline s core) = Memory.wf s := by
  unfold answerCopies
  split <;> simp

@[simp] theorem answerOps_wf (id : Nat) (decline : Bool) (s : State) (g : Workgroup) (hs : Memory.wf s = true) :
    Memory.wf (answerOps id decline s g) = true := by
  unfold answerOps
  repeat' split
  all_goals simp [hs]

@[simp] theorem answerColls_wf_eq (id : Nat) (decline : Bool) (s : State) : Memory.wf (answerColls id decline s) = Memory.wf s := by
  simp [answerColls]

@[simp] theorem answerQueues_wf_eq (id : Nat) (decline : Bool) (s : State) : Memory.wf (answerQueues id decline s) = Memory.wf s := by
  unfold answerQueues
  refine foldl_wf_eq _ _ (fun s e => ?_) s
  split
  · split <;> simp
  · rfl

@[simp] theorem answerDone_wf_eq (id : Nat) (decline : Bool) (s : State) : Memory.wf (answerDone id decline s) = Memory.wf s := by
  simp [answerDone]

@[simp] theorem applyAnswer_wf (s : State) (id : Nat) (decline : Bool) (hs : Memory.wf s = true) :
    Memory.wf (applyAnswer s id decline) = true := by
  unfold applyAnswer
  extract_lets tr t u v w
  have ht : Memory.wf t = true := hs
  have hu : Memory.wf u = true := by simp [u, ht]
  have hv : Memory.wf v = true := by simp [v, hu]
  have hw : Memory.wf w = true := foldl_wf _ _ (fun s g hs => by simp [hs]) _ hv
  simp [hw]

@[simp] theorem answer_wf (s : State) (id : Nat) (decline : Bool) (hs : Memory.wf s = true) : Memory.wf (answer s id decline) = true := by
  unfold answer
  split <;> simp [hs]

@[simp] theorem execPfqdoneRetry_wf (id : Word) (s : State) (hs : Memory.wf s = true) : Out.wf (execPfqdoneRetry id s) = true := by
  simp [execPfqdoneRetry, hs]

@[simp] theorem execPfqdoneDecline_wf (id : Word) (s : State) (hs : Memory.wf s = true) : Out.wf (execPfqdoneDecline id s) = true := by
  simp [execPfqdoneDecline, hs]

@[simp] theorem ringRoom_wf_eq (s : State) : Memory.wf (ringRoom s) = Memory.wf s := rfl

@[simp] theorem execPfqheadWrite_wf (head : Word) (s : State) (hs : Memory.wf s = true) : Out.wf (execPfqheadWrite head s) = true := by
  simp [execPfqheadWrite, hs]

@[simp] theorem restoreCmds_wf_eq (core c w : Nat) (l : List CopyCmd) (s : State) : Memory.wf (restoreCmds core c w l s) = Memory.wf s := by
  induction l generalizing s with
  | nil => rfl
  | cons x r ih =>
    unfold restoreCmds
    split
    · refine (ih _).trans ?_
      split <;> simp
    · rfl

@[simp] theorem restoreColls_wf_eq (core : Nat) (l : List Coll) (s : State) : Memory.wf (restoreColls core l s) = Memory.wf s := by
  induction l generalizing s with
  | nil => rfl
  | cons x r ih =>
    unfold restoreColls
    split
    · simp [ih]
    · rfl

@[simp] theorem restoreSends_wf_eq (core : Nat) (l : List Delivery) (s : State) : Memory.wf (restoreSends core l s) = Memory.wf s := by
  induction l generalizing s with
  | nil => rfl
  | cons d r ih =>
    unfold restoreSends
    split
    · simp [ih]
    · rfl

@[simp] theorem restoreItems_wf_eq (core c w : Nat) (s : State) : Memory.wf (restoreItems core c w s) = Memory.wf s := by
  unfold restoreItems
  dsimp only
  repeat' split
  all_goals simp

@[simp] theorem lateAnswers_wf (s : State) (g : Workgroup) (hs : Memory.wf s = true) : Memory.wf (lateAnswers s g) = true := by
  unfold lateAnswers
  refine foldl_wf _ _ (fun s w hs => ?_) _ hs
  split <;> simp [hs]

@[simp] theorem restore_wf (s : State) (g : Workgroup) (core : Nat) (hs : Memory.wf s = true) : Memory.wf (restore s g core) = true := by
  unfold restore
  dsimp only
  split <;> simp [hs]

@[simp] theorem restoreAll_wf (s : State) (hs : Memory.wf s = true) : Memory.wf (restoreAll s) = true := by
  unfold restoreAll
  exact foldl_wf _ _ (fun s g hs => restore_wf s g (g.core.getD 0) hs) _ hs

@[simp] theorem swapIn_wf (s : State) (p : Workgroup × Nat) (hs : Memory.wf s = true) : Memory.wf (swapIn s p) = true := by
  unfold swapIn
  extract_lets g core t place u v w g' x colls y
  have hv : Memory.wf v = true := by
    simp only [v, wf_ite]
    split <;> simp [u, t, hs]
  have hw : Memory.wf w = true := foldl_wf _ _ (fun s x hs => by simp [hs]) _ hv
  simp [y, x, hw]

@[simp] theorem execResumeCohort_wf (ctx cohort : Nat) (cores : List Nat) (s : State) (hs : Memory.wf s = true) :
    Out.wf (execResumeCohort ctx cohort cores s) = true := by
  unfold execResumeCohort
  split
  · exact hs
  · extract_lets l pairs ok t
    split
    · exact hs
    · exact foldl_wf _ _ (fun s p hs => swapIn_wf s p hs) _ hs

@[simp] theorem execPageRefill_wf (ctx wg page : Nat) (s : State) (hs : Memory.wf s = true) :
    Out.wf (execPageRefill ctx wg page s) = true := by
  unfold execPageRefill
  split <;> simp [hs]

@[simp] theorem execCtxctlPreempt_wf (ctx : Nat) (s : State) (hs : Memory.wf s = true) : Out.wf (execCtxctlPreempt ctx s) = true := by
  unfold execCtxctlPreempt
  split <;> simp [hs]

@[simp] theorem endMember_wf (s : State) (g : Workgroup) (hs : Memory.wf s = true) : Memory.wf (endMember s g) = true := by
  unfold endMember
  dsimp only
  repeat' split
  all_goals simp [hs]

@[simp] theorem execCtxctlEnd_wf (ctx : Nat) (s : State) (hs : Memory.wf s = true) : Out.wf (execCtxctlEnd ctx s) = true := by
  unfold execCtxctlEnd
  split
  · exact hs
  · extract_lets mine t u colls v w
    have ht : Memory.wf t = true := (foldl_wf_eq _ _ (fun s g => by simp) s).trans hs
    have hv : Memory.wf v = true := by simp [v, u, ht, hs]
    split
    · exact hv
    · have hw : Memory.wf w = true := foldl_wf _ _ (fun s g hs => by simp [hs]) _ hv
      exact (roomAgain_wf_eq w).trans hw

theorem takeFrame_wf_eq {s t : State} {who f : Nat} (h : takeFrame s who = some (f, t)) : Memory.wf t = Memory.wf s := by
  unfold takeFrame at h
  split at h
  · split at h
    · cases h
    · injection h with h
      obtain ⟨-, rfl⟩ := Prod.mk.inj h
      rfl
  · split at h
    · cases h
    · injection h with h
      obtain ⟨-, rfl⟩ := Prod.mk.inj h
      rfl

@[simp] theorem execMigrationEpochEnd_wf (u : Nat) (s : State) (hs : Memory.wf s = true) : Out.wf (execMigrationEpochEnd u s) = true := by
  unfold execMigrationEpochEnd
  dsimp only
  split
  · exact hs
  · split
    · exact hs
    · split
      · split <;> simp [hs]
      · split
        · exact hs
        · next hframe => simp [takeFrame_wf_eq hframe, hs]

@[simp] theorem thrashHold_wf_eq (s : State) (u : Nat) (times : List (Nat × Nat)) (who home : Nat) :
    Memory.wf (thrashHold s u times who home) = Memory.wf s := by
  unfold thrashHold
  split
  · dsimp only
    split
    · exact foldl_wf_eq _ _ (fun s c => by simp) _
    · rfl
  · rfl

@[simp] theorem moveUnit_wf (u who frame by_ : Nat) (s : State) (hs : Memory.wf s = true) :
    Memory.wf (moveUnit u who frame by_ s) = true := by
  unfold moveUnit
  extract_lets old origin times t t' v w ds x
  have hv : Memory.wf v = true := hs
  have hw : Memory.wf w = true := by
    simp only [w, wf_ite]
    split
    · exact bringUnit_wf _ _ hv
    · exact hv
  have hx : Memory.wf x = true := (foldl_wf_eq _ _ (fun s d => by simp) w).trans hw
  simp [hx]

@[simp] theorem moveFrom_wf (u : Nat) (s : State) (hs : Memory.wf s = true) : Memory.wf (moveFrom u s) = true := by
  unfold moveFrom
  extract_lets who t
  have ht : Memory.wf t = true := hs
  split
  · exact ht
  · split
    · exact ht
    · next hframe => simp [takeFrame_wf_eq hframe, ht]

@[simp] theorem execPageHomeMove_wf (u : Nat) (s : State) (hs : Memory.wf s = true) : Out.wf (execPageHomeMove u s) = true := by
  unfold execPageHomeMove
  split <;> simp [hs]

@[simp] theorem execThrashHoldEnd_wf (u : Nat) (s : State) (hs : Memory.wf s = true) : Out.wf (execThrashHoldEnd u s) = true := by
  simp [execThrashHoldEnd, hs]

@[simp] theorem execMigfreePush_wf (die : Nat) (frame : DWord) (s : State) (hs : Memory.wf s = true) :
    Out.wf (execMigfreePush die frame s) = true := by
  simp [execMigfreePush, hs]

@[simp] theorem execMigpinPin_wf (u : Nat) (s : State) (hs : Memory.wf s = true) :
    Out.wf (execMigpinPin u s) = true := by simp [execMigpinPin, hs]

@[simp] theorem execMigpinUnpin_wf (u : Nat) (s : State) (hs : Memory.wf s = true) : Out.wf (execMigpinUnpin u s) = true := by
  simp [execMigpinUnpin, hs]

end Sys2Proof.Machine
end

section
/-!
PROOF. The canonical form of memory (R249, R351, R397) over packets, the Carousel, faults and keys, and the host port.
-/

namespace Sys2Proof.Machine

/-! ### Packets received -/

@[simp] theorem lateAcquires_wf_eq (s : State) : Memory.wf (lateAcquires s) = Memory.wf s := by
  unfold lateAcquires
  refine foldl_wf_eq _ _ (fun s t => ?_) s
  split <;> simp

@[simp] theorem untagThreads_wf_eq (s : State) (t : Nat) : Memory.wf (untagThreads s t) = Memory.wf s := by simp [untagThreads]

@[simp] theorem untagCopies_wf_eq (t code : Nat) (sat data : Bool) (s : State) (core : Nat) :
    Memory.wf (untagCopies t code sat data s core) = Memory.wf s := by
  unfold untagCopies
  split <;> simp

@[simp] theorem untagOps_wf_eq (t code : Nat) (s : State) (g : Workgroup) : Memory.wf (untagOps t code s g) = Memory.wf s := by
  unfold untagOps
  repeat' split
  all_goals simp

@[simp] theorem untagColls_wf_eq (t code : Nat) (s : State) : Memory.wf (untagColls t code s) = Memory.wf s := rfl

@[simp] theorem untagQueues_wf_eq (t code : Nat) (s : State) : Memory.wf (untagQueues t code s) = Memory.wf s := by
  unfold untagQueues
  refine foldl_wf_eq _ _ (fun s q => ?_) s
  split
  · split
    · split <;> simp
    · rfl
  · rfl

@[simp] theorem accessOver_wf (s : State) (t : Nat) (hs : Memory.wf s = true) :
    Memory.wf (accessOver s t) = true := by simp [accessOver, hs]

@[simp] theorem writtenWith_wf (s : State) (t code : Nat) (sat data : Bool) (hs : Memory.wf s = true) :
    Memory.wf (writtenWith s t code sat data) = true := by simp [writtenWith, hs]

@[simp] theorem written_wf (s : State) (t code : Nat) (hs : Memory.wf s = true) : Memory.wf (written s t code) = true := by
  simp [written, hs]

@[simp] theorem arrived_wf (s : State) (t : Nat) (data : List Byte) (marks : Nat) (hs : Memory.wf s = true) :
    Memory.wf (arrived s t data marks) = true := by simp [arrived, hs]

@[simp] theorem protAnswer_wf (s : State) (t : Nat) (hs : Memory.wf s = true) :
    Memory.wf (protAnswer s t) = true := by simp [protAnswer, hs]

@[simp] theorem failReaders_wf_eq (pa code : Nat) (s : State) (core : Nat) : Memory.wf (failReaders pa code s core) = Memory.wf s := by
  unfold failReaders
  refine foldl_wf_eq _ _ (fun s x => ?_) s
  split
  · rfl
  · split <;> simp

@[simp] theorem lineLost_wf (s : State) (die pa key code : Nat) (hs : Memory.wf s = true) :
    Memory.wf (lineLost s die pa key code) = true := by
  unfold lineLost
  extract_lets mine t colls u v w x
  have ht : Memory.wf t = true := (foldl_wf_eq _ _ (fun s c => failReaders_wf_eq _ _ s c) s).trans hs
  have hu : Memory.wf u = true := foldl_wf _ _ (fun s y hs => by simp [hs]) _ ht
  have hw : Memory.wf w = true := hu
  have hx : Memory.wf x = true := by
    refine foldl_wf _ _ (fun s c hs => ?_) _ hw
    have hout := execArrayOpComplete_wf c s hs
    split
    · next heq => simpa [heq] using hout
    · exact hs
    · exact hs
  simp [hx]

@[simp] theorem pumpOn_wf_eq (s : State) : Memory.wf (pumpOn s) = Memory.wf s := by simp [pumpOn]

@[simp] theorem retirePacket_wf_eq (s : State) (key : Nat × Nat × Nat) (p : Packet) : Memory.wf (retirePacket s key p) = Memory.wf s := by
  simp [retirePacket]

@[simp] theorem respond_wf_eq (s : State) (p a : Packet) : Memory.wf (respond s p a) = Memory.wf s := by simp [respond]

@[simp] theorem respondCached_wf_eq (s : State) (p a : Packet) : Memory.wf (respondCached s p a) = Memory.wf s := by simp [respondCached]

@[simp] theorem discard_wf_eq (s : State) (p : Packet) : Memory.wf (discard s p) = Memory.wf s := by
  unfold discard
  split <;> simp

@[simp] theorem passOn_wf_eq (s : State) (p : Packet) : Memory.wf (passOn s p) = Memory.wf s := by
  unfold passOn
  split <;> simp

@[simp] theorem endRelay_wf_eq (s : State) (t : Nat) : Memory.wf (endRelay s t) = Memory.wf s := rfl

@[simp] theorem remoteWrite_wf (s : State) (p : Packet) (data : List Byte) (mark : Bool) (hs : Memory.wf s = true) :
    Memory.wf (remoteWrite s p data mark) = true := by simp [remoteWrite, hs, homeWriteBy_wf]

@[simp] theorem performLdreq_wf_eq (s : State) (p : Packet) : Memory.wf (performLdreq s p) = Memory.wf s := by simp [performLdreq]

@[simp] theorem atomOne_wf (p : Packet) (a : State × List Byte × Nat) (x : AtomOp) (ha : Memory.wf a.1 = true) :
    Memory.wf (atomOne p a x).1 = true := by simp [atomOne, ha]

@[simp] theorem performAtom_wf (s : State) (p : Packet) (hs : Memory.wf s = true) : Memory.wf (performAtom s p) = true := by
  unfold performAtom
  extract_lets pa blank r old j t a new u
  have hr : Memory.wf r.2 = true := by simp [r, hs]
  have ha : Memory.wf a.1 = true := foldl_wf_of Prod.fst _ (fun a x ha => atomOne_wf p a x ha) _ (s, [], 0) hs
  split
  · simp [hs]
  · split
    · simp [hs]
    · split
      · simp [t, hr]
      · split <;> simp [u, ha, hr]

@[simp] theorem performRegwr_wf_eq (s : State) (p : Packet) : Memory.wf (performRegwr s p) = Memory.wf s := rfl

@[simp] theorem execRwrAnswer_wf (i : Nat) (s : State) (hs : Memory.wf s = true) : Out.wf (execRwrAnswer i s) = true := by
  unfold execRwrAnswer
  split
  · simp [hs]
  · split <;> simp [hs]

@[simp] theorem performLanding_wf (s : State) (p : Packet) (hs : Memory.wf s = true) : Memory.wf (performLanding s p).2 = true := by
  unfold performLanding
  split <;> simp [hs]

@[simp] theorem performCopy_wf (s : State) (p : Packet) (hs : Memory.wf s = true) : Memory.wf (performCopy s p) = true := by
  simp [performCopy, hs]

@[simp] theorem performMcast_wf (s : State) (p : Packet) (hs : Memory.wf s = true) : Memory.wf (performMcast s p) = true := by
  simp [performMcast, hs]

@[simp] theorem failWaits_wf_eq (s : State) (f : Nat → Bool) : Memory.wf (failWaits s f) = Memory.wf s := by
  unfold failWaits
  refine foldl_wf_eq _ _ (fun s q => ?_) s
  split
  · split
    · split
      · split <;> simp
      · rfl
    · rfl
  · rfl

@[simp] theorem fillL1_wf_eq (t : Nat) (line : CacheLine) (fill : Bool) (s : State) (g : Workgroup) :
    Memory.wf (fillL1 t line fill s g) = Memory.wf s := by
  unfold fillL1
  split <;> simp

@[simp] theorem performLdrsp_wf (s : State) (p : Packet) (hs : Memory.wf s = true) : Memory.wf (performLdrsp s p) = true := by
  unfold performLdrsp
  split
  · exact hs
  · extract_lets t blank u v d line fill w x y
    have ht : Memory.wf t = true := by simp [t, hs]
    have hw : Memory.wf w = true := by simp [w, ht]
    have hx : Memory.wf x = true := (foldl_wf_eq _ _ (fillL1_wf_eq _ _ _) w).trans hw
    split
    · simp [ht]
    · split
      · simp [v, u, ht]
      · simp [y, hx]

@[simp] theorem joinAnswered_wf (s : State) (t : Nat) (data : List Byte) (hs : Memory.wf s = true) :
    Memory.wf (joinAnswered s t data) = true := by
  unfold joinAnswered
  split <;> simp [hs]

@[simp] theorem performAtomrsp_wf (s : State) (p : Packet) (hs : Memory.wf s = true) : Memory.wf (performAtomrsp s p) = true := by
  unfold performAtomrsp
  dsimp only
  repeat' split
  all_goals simp [hs]

@[simp] theorem sendAnswered_wf_eq (s : State) (t code : Nat) : Memory.wf (sendAnswered s t code) = Memory.wf s := by
  unfold sendAnswered
  split <;> simp

@[simp] theorem performRegans_wf (s : State) (p : Packet) (hs : Memory.wf s = true) : Memory.wf (performRegans s p) = true := by
  unfold performRegans
  split
  · simp [hs]
  · split <;> simp [hs]

@[simp] theorem perform_wf (s : State) (p : Packet) (hs : Memory.wf s = true) : Memory.wf (perform s p) = true := by
  unfold perform
  split <;> simp [hs, homePerform_wf]

@[simp] theorem takeNext_wf (s : State) (p : Packet) (hs : Memory.wf s = true) : Memory.wf (takeNext s p) = true := by simp [takeNext, hs]

@[simp] theorem takeHeld_wf (key : Nat × Nat × Nat) (n : Nat) (s : State) (hs : Memory.wf s = true) :
    Memory.wf (takeHeld key n s) = true := by
  induction n generalizing s with
  | zero => exact hs
  | succ n ih =>
    unfold takeHeld
    dsimp only
    split
    · exact hs
    · exact ih _ (takeNext_wf _ _ hs)

@[simp] theorem newEpochIn_wf_eq (s : State) (p : Packet) : Memory.wf (newEpochIn s p) = Memory.wf s := by simp [newEpochIn]

@[simp] theorem heard_wf_eq (s : State) (p : Packet) : Memory.wf (heard s p) = Memory.wf s := by simp [heard]

@[simp] theorem receive_wf (p : Packet) (s : State) (hs : Memory.wf s = true) : Memory.wf (receive p s) = true := by simp [receive, hs]

theorem ofType_wf (t : Nat) (p : Packet) (s : State) (hs : Memory.wf s = true) : Out.wf (ofType t p s) = true := by simp [ofType, hs]

@[simp] theorem execPacketLdreq_wf (p : Packet) (s : State) (hs : Memory.wf s = true) : Out.wf (execPacketLdreq p s) = true := by
  simp [execPacketLdreq, hs, ofType_wf]

@[simp] theorem execPacketLdrsp_wf (p : Packet) (s : State) (hs : Memory.wf s = true) : Out.wf (execPacketLdrsp p s) = true := by
  simp [execPacketLdrsp, hs, ofType_wf]

@[simp] theorem execPacketWrite_wf (p : Packet) (s : State) (hs : Memory.wf s = true) : Out.wf (execPacketWrite p s) = true := by
  simp [execPacketWrite, hs, ofType_wf]

@[simp] theorem execPacketAtom_wf (p : Packet) (s : State) (hs : Memory.wf s = true) : Out.wf (execPacketAtom p s) = true := by
  simp [execPacketAtom, hs, ofType_wf]

@[simp] theorem execPacketAtomrsp_wf (p : Packet) (s : State) (hs : Memory.wf s = true) : Out.wf (execPacketAtomrsp p s) = true := by
  simp [execPacketAtomrsp, hs, ofType_wf]

@[simp] theorem execPacketRegwr_wf (p : Packet) (s : State) (hs : Memory.wf s = true) : Out.wf (execPacketRegwr p s) = true := by
  simp [execPacketRegwr, hs, ofType_wf]

@[simp] theorem execPacketRegans_wf (p : Packet) (s : State) (hs : Memory.wf s = true) : Out.wf (execPacketRegans p s) = true := by
  simp [execPacketRegans, hs, ofType_wf]

@[simp] theorem execPacketCopy_wf (p : Packet) (s : State) (hs : Memory.wf s = true) : Out.wf (execPacketCopy p s) = true := by
  simp [execPacketCopy, hs, ofType_wf]

@[simp] theorem execPacketCollect_wf (p : Packet) (s : State) (hs : Memory.wf s = true) : Out.wf (execPacketCollect p s) = true := by
  simp [execPacketCollect, hs, ofType_wf]

@[simp] theorem execPacketMcast_wf (p : Packet) (s : State) (hs : Memory.wf s = true) : Out.wf (execPacketMcast p s) = true := by
  simp [execPacketMcast, hs, ofType_wf]

@[simp] theorem execPacketReserved_wf (h : BitVec 512) (s : State) (hs : Memory.wf s = true) : Out.wf (execPacketReserved h s) = true := by
  simp [execPacketReserved, hs]

@[simp] theorem applyAck_wf (p : Packet) (s : State) (hs : Memory.wf s = true) : Memory.wf (applyAck p s) = true := by
  unfold applyAck
  extract_lets key x y t
  have hall : Memory.wf ((y.2.filter ackCompletes).foldl (fun s q => written (endRelay s q.tag) q.tag 0) t) = true :=
    foldl_wf _ _ (fun s q hs => by simp [hs]) _ (by simp [t, hs])
  simp [hall, hs]

@[simp] theorem applyRetire_wf_eq (p : Packet) (s : State) : Memory.wf (applyRetire p s) = Memory.wf s := by simp [applyRetire]

@[simp] theorem execPacketAck_wf (p : Packet) (s : State) (hs : Memory.wf s = true) : Out.wf (execPacketAck p s) = true := by
  simp [execPacketAck, hs]

@[simp] theorem execAckSend_wf (src : Nat) (x : StreamClass) (s : State) (hs : Memory.wf s = true) :
    Out.wf (execAckSend src x s) = true := by
  unfold execAckSend
  dsimp only
  split
  · simp [hs]
  · next hpick => simp [pickPlane_wf_eq hpick, hs]

@[simp] theorem execPacketDowndraft_wf (p : Packet) (s : State) (hs : Memory.wf s = true) : Out.wf (execPacketDowndraft p s) = true := by
  simp [execPacketDowndraft, hs]

@[simp] theorem execRateRecovery_wf (dst : Nat) (s : State) (hs : Memory.wf s = true) : Out.wf (execRateRecovery dst s) = true := by
  simp [execRateRecovery, hs]

@[simp] theorem replay_wf_eq (s : State) (f : Packet → Nat → Bool) : Memory.wf (replay s f) = Memory.wf s := by simp [replay]

@[simp] theorem replayLost_wf_eq (s : State) (n : Nat) : Memory.wf (replayLost s n) = Memory.wf s := by simp [replayLost]

@[simp] theorem execLinkLossReplay_wf (port plane : Nat) (s : State) (hs : Memory.wf s = true) :
    Out.wf (execLinkLossReplay port plane s) = true := by
  simp [execLinkLossReplay, hs]

@[simp] theorem execE2eTimeoutReplay_wf (dst : Nat) (tc : BitVec 2) (seq : BitVec 16) (plane : Nat) (s : State) (hs : Memory.wf s = true) :
    Out.wf (execE2eTimeoutReplay dst tc seq plane s) = true := by
  unfold execE2eTimeoutReplay
  dsimp only
  split <;> simp [hs]

@[simp] theorem execPlaneExclusionExpire_wf (dst plane : Nat) (s : State) (hs : Memory.wf s = true) :
    Out.wf (execPlaneExclusionExpire dst plane s) = true := by simp [execPlaneExclusionExpire, hs]

@[simp] theorem memberLost_wf (m : Nat) (s : State) (x : Coll) (hs : Memory.wf s = true) : Memory.wf (memberLost m s x) = true := by
  simp [memberLost, hs]

@[simp] theorem linkFailed_wf (s : State) (p : Packet) (hs : Memory.wf s = true) : Memory.wf (linkFailed s p) = true := by
  unfold linkFailed
  split
  · simp [hs]
  · split
    · exact (untagQueues_wf_eq _ _ _).trans (arrived_wf _ _ _ _ (lineLost_wf _ _ _ _ _ hs))
    · dsimp only
      split
      · exact arrived_wf _ _ _ _ (joinAnswered_wf _ _ _ hs)
      · exact arrived_wf _ _ _ _ hs
    · simp [hs]
    · exact foldl_wf _ _ (fun s x hs => memberLost_wf _ s x hs) _ hs
    · simp [hs]
    · simp [hs]
    · simp [hs]
    · exact hs

@[simp] theorem waitFailed_wf (s : State) (dst : Nat) (hs : Memory.wf s = true) : Memory.wf (waitFailed s dst) = true := by
  simp [waitFailed, hs]

@[simp] theorem execStreamClose_wf (dst : Nat) (tc : BitVec 2) (s : State) (hs : Memory.wf s = true) :
    Out.wf (execStreamClose dst tc s) = true := by
  unfold execStreamClose
  extract_lets mine flows lost f fresh f' t u
  have hu : Memory.wf u = true := by simp [u, t, hs]
  split
  · exact hs
  · exact foldl_wf _ _ linkFailed_wf _ hu

/-! ### Packets of the Carousel -/

@[simp] theorem replyCohort_wf_eq (s : State) (cluster : Nat) (p : CarPacket) (r : CohortReq) :
    Memory.wf (replyCohort s cluster p r) = Memory.wf s := rfl

@[simp] theorem fillCopies_wf_eq (t : Nat) (data : List Byte) (marks : Nat) (s : State) (core : Nat) :
    Memory.wf (fillCopies t data marks s core) = Memory.wf s := by
  unfold fillCopies
  dsimp only
  split <;> simp

@[simp] theorem cohortReply_wf (s : State) (t : Nat) (data : List Byte) (marks : Nat) (sat : Bool) (hs : Memory.wf s = true) :
    Memory.wf (cohortReply s t data marks sat) = true := by
  unfold cohortReply
  extract_lets u v
  have hv : Memory.wf v = true := (foldl_wf_eq _ _ (fillCopies_wf_eq _ _ _) u).trans hs
  simp [hv]

@[simp] theorem leftSource_wf_eq (s : State) (p q : CarPacket) : Memory.wf (leftSource s p q) = Memory.wf s := by
  unfold leftSource
  repeat' split
  all_goals simp

@[simp] theorem execCarouselHop_wf (cluster i : Nat) (s : State) (hs : Memory.wf s = true) :
    Out.wf (execCarouselHop cluster i s) = true := by
  unfold execCarouselHop
  split
  · simp [hs]
  · split <;> simp [hs]

@[simp] theorem ejected_wf_eq (s : State) (cluster : Nat) (p : CarPacket) : Memory.wf (ejected s cluster p) = Memory.wf s := by
  simp [ejected]

@[simp] theorem performLoad_wf (s : State) (cluster : Nat) (p : CarPacket) (hs : Memory.wf s = true) :
    Memory.wf (performLoad s cluster p).2 = true := by
  unfold performLoad
  dsimp only
  repeat' split
  all_goals simp [hs]

@[simp] theorem ejectFirst_wf (cluster : Nat) (l : List CarPacket) (s : State) (hs : Memory.wf s = true) :
    Memory.wf (ejectFirst cluster l s) = true := by
  induction l generalizing s with
  | nil => exact hs
  | cons p r ih =>
    unfold ejectFirst
    dsimp only
    split <;> simp [ih, hs]

@[simp] theorem execCarouselEject_wf (cluster stop : Nat) (s : State) (hs : Memory.wf s = true) :
    Out.wf (execCarouselEject cluster stop s) = true := by
  simp [execCarouselEject, hs]

@[simp] theorem performRow_wf (s : State) (cluster u : Nat) (p : CarPacket) (r : CohortReq) (hs : Memory.wf s = true) :
    Memory.wf (performRow s cluster u p r) = true := by
  unfold performRow
  split <;> simp [hs]

@[simp] theorem execBankGrant_wf (core bank : Nat) (s : State) (hs : Memory.wf s = true) : Out.wf (execBankGrant core bank s) = true := by
  unfold execBankGrant
  split
  · simp [hs]
  · split <;> simp [hs]

/-! ### Faults, leases, keys and power -/

@[simp] theorem countEvent_wf_eq (s : State) (r : Resource) (die unit index time : Nat) :
    Memory.wf (countEvent s r die unit index time).2 = Memory.wf s := rfl

@[simp] theorem disableLater_wf_eq (s : State) (core : Nat) : Memory.wf (disableLater s core) = Memory.wf s := rfl

@[simp] theorem spareRow_wf (s : State) (die stack row : Nat) (hs : Memory.wf s = true) : Memory.wf (spareRow s die stack row) = true := by
  simp [spareRow, hs]

@[simp] theorem spareColumn_wf (s : State) (core cell : Nat) (hs : Memory.wf s = true) : Memory.wf (spareColumn s core cell) = true := by
  simp [spareColumn, hs]

@[simp] theorem retireLane_wf (s : State) (die port lane : Nat) (hs : Memory.wf s = true) :
    Memory.wf (retireLane s die port lane) = true := by
  simp [retireLane, hs]

@[simp] theorem repair_wf (s : State) (r : Resource) (die unit index : Nat) (hs : Memory.wf s = true) :
    Memory.wf (repair s r die unit index) = true := by
  unfold repair
  split <;> simp [hs]

@[simp] theorem rasEvent_wf (s : State) (r : Resource) (die unit index time : Nat) (hs : Memory.wf s = true) :
    Memory.wf (rasEvent s r die unit index time) = true := by simp [rasEvent, hs]

@[simp] theorem execCorrectedError_wf (res : Resource) (die unit index time : Nat) (s : State) (hs : Memory.wf s = true) :
    Out.wf (execCorrectedError res die unit index time s) = true := by simp [execCorrectedError, hs]

@[simp] theorem execMatrixColumnSpare_wf (core : Nat) (s : State) (hs : Memory.wf s = true) :
    Out.wf (execMatrixColumnSpare core s) = true := by
  simp [execMatrixColumnSpare, hs]

@[simp] theorem execCoredis_wf (core : Nat) (s : State) (hs : Memory.wf s = true) :
    Out.wf (execCoredis core s) = true := by simp [execCoredis, hs]

@[simp] theorem bankError_wf (s : State) (g : Workgroup) (bank time : Nat) (hs : Memory.wf s = true) :
    Memory.wf (bankError s g bank time) = true := by
  unfold bankError
  split <;> simp [hs]

@[simp] theorem freeBankError_wf (s : State) (core time : Nat) (hs : Memory.wf s = true) :
    Memory.wf (freeBankError s core time) = true := by
  simp [freeBankError, hs]

@[simp] theorem someBankError_wf (s : State) (g : Workgroup) (time : Nat) (hs : Memory.wf s = true) :
    Memory.wf (someBankError s g time) = true := by
  unfold someBankError
  split <;> simp [hs]

@[simp] theorem stopCore_wf_eq (s : State) (a : Agent) : Memory.wf (stopCore s a) = Memory.wf s := by simp [stopCore]

/-- A mark set on one granule keeps the canonical form. -/
theorem setMark_wf (s : State) (n : Nat) (b : Bool) (hs : Memory.wf s = true) :
    Memory.wf { s with memMark := tset false s.memMark n b } = true := by
  obtain ⟨hmem, hmark, hkey⟩ := (Memory.wf_iff s).1 hs
  exact (Memory.wf_iff _).2 ⟨hmem, twf_tset _ _ _ _ hmark, hkey⟩

@[simp] theorem execUncorrectableError_wf (what : Struck) (time : Nat) (s : State) (hs : Memory.wf s = true) :
    Out.wf (execUncorrectableError what time s) = true := by
  unfold execUncorrectableError
  split
  case h_1 pa => exact setMark_wf s _ _ hs
  case h_8 i w =>
    split
    · exact hs
    · dsimp only
      split <;> simp [hs]
  case h_10 pa => exact logFault_wf _ _ _ _ _ _ (setMark_wf s (pa / 16) true hs)
  all_goals
    repeat' split
    all_goals simp [hs]

@[simp] theorem failAssist_wf (s : State) (cl : Nat) (hs : Memory.wf s = true) : Memory.wf (failAssist s cl) = true := by
  unfold failAssist
  split
  · exact hs
  · extract_lets k t u
    have ht : Memory.wf t = true := foldl_wf _ _ (fun s e hs => by simp [hs]) _ hs
    have hu : Memory.wf u = true := by
      simp only [u]
      split <;> simp [ht]
    split
    · exact hs
    · simp [hu]

@[simp] theorem execControlCoreRestart_wf (cl : Nat) (s : State) (hs : Memory.wf s = true) :
    Out.wf (execControlCoreRestart cl s) = true := by
  unfold execControlCoreRestart
  split <;> simp [hs]

@[simp] theorem execFirmwareCoreRestart_wf (die : Nat) (s : State) (hs : Memory.wf s = true) :
    Out.wf (execFirmwareCoreRestart die s) = true := by
  unfold execFirmwareCoreRestart
  split <;> simp [hs]

@[simp] theorem State.setLease_wf_eq (s : State) (d : Nat) (l : Lease) : Memory.wf (s.setLease d l) = Memory.wf s := rfl

@[simp] theorem hearRenewal_wf_eq (leader term : Nat) (s : State) (d : Nat) : Memory.wf (hearRenewal leader term s d) = Memory.wf s := by
  simp [hearRenewal]

@[simp] theorem execLeaseRenewal_wf (r : Renewal) (s : State) (hs : Memory.wf s = true) : Out.wf (execLeaseRenewal r s) = true := by
  simp [execLeaseRenewal, hs]

@[simp] theorem execTermProposal_wf (die : Nat) (s : State) (hs : Memory.wf s = true) : Out.wf (execTermProposal die s) = true := by
  simp [execTermProposal, hs]

@[simp] theorem execVoteRequest_wf (die proposer : Nat) (term : Word) (s : State) (hs : Memory.wf s = true) :
    Out.wf (execVoteRequest die proposer term s) = true := by simp [execVoteRequest, hs]

@[simp] theorem execVoteReceipt_wf (die source : Nat) (term : Word) (s : State) (hs : Memory.wf s = true) :
    Out.wf (execVoteReceipt die source term s) = true := by simp [execVoteReceipt, hs]

@[simp] theorem execRenewalAck_wf (die source : Nat) (term : Word) (s : State) (hs : Memory.wf s = true) :
    Out.wf (execRenewalAck die source term s) = true := by simp [execRenewalAck, hs]

@[simp] theorem execLeaseExpiry_wf (die : Nat) (s : State) (hs : Memory.wf s = true) : Out.wf (execLeaseExpiry die s) = true := by
  simp [execLeaseExpiry, hs]

@[simp] theorem drawKey_wf_eq (s : State) : Memory.wf (drawKey s).2 = Memory.wf s := rfl

@[simp] theorem drawPair_wf_eq (s : State) : Memory.wf (drawPair s).2 = Memory.wf s := rfl

@[simp] theorem execKeyAllocate_wf (_asid key : Nat) (s : State) (hs : Memory.wf s = true) :
    Out.wf (execKeyAllocate _asid key s) = true := by
  unfold execKeyAllocate
  split <;> exact hs

@[simp] theorem execKeyErase_wf (key : Nat) (s : State) (hs : Memory.wf s = true) : Out.wf (execKeyErase key s) = true := by
  unfold execKeyErase
  extract_lets t u
  refine (Out.wf_ite ..).trans ?_
  split
  · exact hs
  · have ht : Memory.wf t = true := (foldl_wf_eq _ _ (fun s d => by simp) s).trans hs
    have hu : Memory.wf u = true := foldl_wf _ _ (fun s l hs => sealLine_wf s l hs) _ ht
    simp [hu]

@[simp] theorem wipeKeyed_wf (s : State) (hs : Memory.wf s = true) : Memory.wf (wipeKeyed s) = true := by simp [wipeKeyed, hs, wipe_wf]

@[simp] theorem bootKeys_wf_eq (s : State) : Memory.wf (bootKeys s) = Memory.wf s := by
  unfold bootKeys
  dsimp only
  repeat' split
  all_goals simp

@[simp] theorem startCores_wf_eq (s : State) : Memory.wf (startCores s) = Memory.wf s := by simp [startCores]

@[simp] theorem bootWith_wf_eq (s : State) (image : List Byte) : Memory.wf (bootWith s image) = Memory.wf s := by simp [bootWith]

@[simp] theorem execResetBoot_wf (image : List Byte) (s : State) (hs : Memory.wf s = true) : Out.wf (execResetBoot image s) = true := by
  simp [execResetBoot, hs]

@[simp] theorem lifeCommand_wf (s : State) (cmd : List Byte) (hs : Memory.wf s = true) : Memory.wf (lifeCommand s cmd).2 = true := by
  unfold lifeCommand
  dsimp only
  split <;> simp [hs]

@[simp] theorem execLccmd_wf (cmd : List Byte) (s : State) (hs : Memory.wf s = true) :
    Out.wf (execLccmd cmd s) = true := by simp [execLccmd, hs]

@[simp] theorem writePwrcfg_wf_eq (s : State) (v : Nat) : Memory.wf (writePwrcfg s v) = Memory.wf s := by
  unfold writePwrcfg
  extract_lets slew cap p
  rw [wf_mk]

@[simp] theorem execPowerCeilingUpdate_wf (us iest : Nat) (waiting : Bool) (s : State) (hs : Memory.wf s = true) :
    Out.wf (execPowerCeilingUpdate us iest waiting s) = true := by simp [execPowerCeilingUpdate, hs]

@[simp] theorem execThermalLimitEnter_wf (die celsius : Nat) (s : State) (hs : Memory.wf s = true) :
    Out.wf (execThermalLimitEnter die celsius s) = true := by simp [execThermalLimitEnter, hs]

@[simp] theorem execThermalLimitLift_wf (die celsius : Nat) (s : State) (hs : Memory.wf s = true) :
    Out.wf (execThermalLimitLift die celsius s) = true := by simp [execThermalLimitLift, hs]

/-! ### The host port -/

@[simp] theorem State.setMailbox_wf_eq (s : State) (fn : Nat) (m : Mailbox) : Memory.wf (s.setMailbox fn m) = Memory.wf s := rfl

@[simp] theorem execTdiStateChange_wf (fn : Nat) (x : TdiState) (s : State) (hs : Memory.wf s = true) :
    Out.wf (execTdiStateChange fn x s) = true := by
  simp [execTdiStateChange, hs]

@[simp] theorem hostAnswer_wf_eq (s : State) (a : HostAnswer) : Memory.wf (hostAnswer s a) = Memory.wf s := rfl

@[simp] theorem hostTranslate_wf (s : State) (fn va : Nat) (kind : Access) (hs : Memory.wf s = true) :
    Memory.wf (hostTranslate s fn va kind).2 = true := by
  have hwalked := frontWalk_wf s (s.mailbox fn).asid va kind hs
  unfold hostTranslate
  dsimp only
  split
  · next hwalk => exact (wf_snd_eq hwalk).trans hwalked
  · next r t hwalk =>
    have ht : Memory.wf t = true := (wf_snd_eq hwalk).trans hwalked
    simp only [hostAnswer_wf_eq]
    cases hrecord : writeRecord t va (s.mailbox fn).asid r 4 0 0 0 kind false with
    | none => exact ht
    | some p => exact writeRecord_wf (id := p.1) hrecord ht

@[simp] theorem hostPiece_wf (fn : Nat) (kind : Access) (data : Nat → Nat → Option (List Byte)) (s : State) (p : Nat × Nat)
    (hs : Memory.wf s = true) : Memory.wf (hostPiece fn kind data s p) = true := by
  unfold hostPiece
  split <;> next htranslate => simp [wf_snd_eq htranslate, hs]

@[simp] theorem closedBar_wf_eq (s : State) (fn : Nat) (kind : Access) (width : Nat) :
    Memory.wf (closedBar s fn kind width) = Memory.wf s := by
  simp [closedBar]

@[simp] theorem execHostBar2Access_wf (fn : Nat) (kind : Access) (addr : DWord) (data : List Byte) (width : Nat) (s : State)
    (hs : Memory.wf s = true) : Out.wf (execHostBar2Access fn kind addr data width s) = true := by
  unfold execHostBar2Access
  dsimp only
  split
  · simp [hs]
  · split
    · split
      · rfl
      · exact foldl_wf _ _ (fun s p hs => hostPiece_wf _ _ _ s p hs) _ hs
    · split
      · rfl
      · exact foldl_wf _ _ (fun s p hs => hostPiece_wf _ _ _ s p hs) _ hs

@[simp] theorem finishMb_wf_eq (s : State) (fn status : Nat) (answer : List Byte) : Memory.wf (finishMb s fn status answer) = Memory.wf s :=
  rfl

@[simp] theorem startMb_wf_eq (s : State) (fn : Nat) : Memory.wf (startMb s fn) = Memory.wf s := rfl

/-- A mailbox command keeps the canonical form where what it does when it runs keeps it. -/
theorem runMb_wf {s : State} {f : State → Mailbox → State} (fn code : Nat) (hs : Memory.wf s = true)
    (hf : ∀ u m, Memory.wf u = true → Memory.wf (f u m) = true) : Out.wf (runMb s fn code f) = true := by
  unfold runMb
  extract_lets m t
  have ht : Memory.wf t = true := hs
  split
  · exact hs
  · split
    · exact hs
    · split
      · simp [ht]
      · exact hf t m ht

@[simp] theorem execMbQuote_wf (fn : Nat) (s : State) (hs : Memory.wf s = true) : Out.wf (execMbQuote fn s) = true := by
  unfold execMbQuote
  refine runMb_wf fn 1 hs fun u m hu => ?_
  extract_lets c b t
  have ht : Memory.wf t = true := hu
  repeat' split
  all_goals simp [ht, hu]

@[simp] theorem execMbGetcert_wf (fn : Nat) (s : State) (hs : Memory.wf s = true) : Out.wf (execMbGetcert fn s) = true := by
  unfold execMbGetcert
  refine runMb_wf fn 2 hs fun u m hu => ?_
  split
  · exact hu
  · split <;> simp [hu]

@[simp] theorem execMbPwrwr_wf (fn : Nat) (s : State) (hs : Memory.wf s = true) : Out.wf (execMbPwrwr fn s) = true := by
  unfold execMbPwrwr
  refine runMb_wf fn 3 hs fun u m hu => ?_
  split
  · exact hu
  · exact (finishMb_wf_eq ..).trans ((writePwrcfg_wf_eq ..).trans hu)

@[simp] theorem execMbPwrrd_wf (fn : Nat) (s : State) (hs : Memory.wf s = true) : Out.wf (execMbPwrrd fn s) = true := by
  unfold execMbPwrrd
  refine runMb_wf fn 4 hs fun u m hu => ?_
  simp [hu]

@[simp] theorem execMbLogrd_wf (fn : Nat) (s : State) (hs : Memory.wf s = true) : Out.wf (execMbLogrd fn s) = true := by
  unfold execMbLogrd
  refine runMb_wf fn 5 hs fun u m hu => ?_
  simp [hu]

@[simp] theorem execMbLccmd_wf (fn : Nat) (s : State) (hs : Memory.wf s = true) : Out.wf (execMbLccmd fn s) = true := by
  unfold execMbLccmd
  refine runMb_wf fn 6 hs fun u m hu => ?_
  simp [hu]

@[simp] theorem execMbImage_wf (fn : Nat) (seen : List Byte) (s : State) (hs : Memory.wf s = true) :
    Out.wf (execMbImage fn seen s) = true := by
  unfold execMbImage
  refine runMb_wf fn 7 hs fun u m hu => ?_
  simp [hu]

@[simp] theorem execMbHostasid_wf (fn : Nat) (s : State) (hs : Memory.wf s = true) : Out.wf (execMbHostasid fn s) = true := by
  unfold execMbHostasid
  refine runMb_wf fn 8 hs fun u m hu => ?_
  simp [hu]

@[simp] theorem execMbBadcmd_wf (fn : Nat) (s : State) (hs : Memory.wf s = true) :
    Out.wf (execMbBadcmd fn s) = true := by simp [execMbBadcmd, hs]

@[simp] theorem mailboxWrite_wf_eq (s : State) (fn off value : Nat) : Memory.wf (mailboxWrite s fn off value) = Memory.wf s := by
  simp [mailboxWrite]

end Sys2Proof.Machine
end

section
/-!
PROOF. The canonical form of memory (R249, R351, R397) over the ports, paired words and the system registers.
-/

namespace Sys2Proof.Machine

/-! ### Ports -/

@[simp] theorem portUp_wf_eq (s : State) : Memory.wf (portUp s) = Memory.wf s := by simp [portUp]

@[simp] theorem portDown_wf_eq (s : State) (n : Nat) : Memory.wf (portDown s n) = Memory.wf s := rfl

@[simp] theorem portFailed_wf_eq (s : State) (n : Nat) (x : Port) : Memory.wf (portFailed s n x) = Memory.wf s := by simp [portFailed]

@[simp] theorem execTrainingAttemptEnd_wf (n : Nat) (digest : Word) (locked : BitVec 4) (verified : Bool) (s : State)
    (hs : Memory.wf s = true) : Out.wf (execTrainingAttemptEnd n digest locked verified s) = true := by simp [execTrainingAttemptEnd, hs]

@[simp] theorem execPortctlEn_wf (n : Nat) (en : Bool) (s : State) (hs : Memory.wf s = true) : Out.wf (execPortctlEn n en s) = true := by
  simp [execPortctlEn, hs]

@[simp] theorem execPortctlReset_wf (n : Nat) (s : State) (hs : Memory.wf s = true) : Out.wf (execPortctlReset n s) = true := by
  simp [execPortctlReset, hs]

@[simp] theorem execPortctlPwidth_wf (n : Nat) (w : BitVec 2) (s : State) (hs : Memory.wf s = true) :
    Out.wf (execPortctlPwidth n w s) = true := by
  simp [execPortctlPwidth, hs]

@[simp] theorem retrainPort_wf_eq (s : State) (n : Nat) (x : Port) : Memory.wf (retrainPort s n x) = Memory.wf s := rfl

@[simp] theorem execPlannedWidthChange_wf (c : WidthChange) (s : State) (hs : Memory.wf s = true) :
    Out.wf (execPlannedWidthChange c s) = true := by
  unfold execPlannedWidthChange
  dsimp only
  split <;> simp [hs]

@[simp] theorem laneEvents_wf (n time : Nat) (lanes : BitVec 4) (s : State) (hs : Memory.wf s = true) :
    Memory.wf (laneEvents n time lanes s) = true := by
  unfold laneEvents
  exact foldl_wf _ _ (fun s i hs => by simp [hs]) _ hs

@[simp] theorem execLaneLockLoss_wf (n : Nat) (lane : Moment) (s : State) (hs : Memory.wf s = true) :
    Out.wf (execLaneLockLoss n lane s) = true := by
  simp [execLaneLockLoss, hs]

@[simp] theorem execLinkFlitFail_wf (n : Nat) (s : State) (hs : Memory.wf s = true) : Out.wf (execLinkFlitFail n s) = true := by
  simp [execLinkFlitFail, hs]

@[simp] theorem execLinkReplay_wf (n : Nat) (flit : Moment) (s : State) (hs : Memory.wf s = true) :
    Out.wf (execLinkReplay n flit s) = true := by
  simp [execLinkReplay, hs]

@[simp] theorem execLinkFlitAck_wf (n : Nat) (s : State) (hs : Memory.wf s = true) : Out.wf (execLinkFlitAck n s) = true := by
  simp [execLinkFlitAck, hs]

/-! ### Paired words -/

@[simp] theorem execPairedWord_wf (s0 s1 : Slot) (s : State) (hs : Memory.wf s = true) : Out.wf (execPairedWord s0 s1 s) = true := by
  simp [execPairedWord, hs]

/-! ### System registers -/

@[simp] theorem nextOf_wf (s : State) (y : Out) (hs : Memory.wf s = true) (hy : Out.wf y = true) : Memory.wf (nextOf s y) = true := by
  cases y with
  | next t => exact hy
  | fault f => exact hs
  | refused r => exact hs

@[simp] theorem writePoolcfg_wf_eq (s : State) (core q v : Nat) : Memory.wf (writePoolcfg s core q v) = Memory.wf s := by
  unfold writePoolcfg
  dsimp only
  split <;> simp

@[simp] theorem writePoolcnt_wf_eq (s : State) (core q v : Nat) : Memory.wf (writePoolcnt s core q v) = Memory.wf s := by
  unfold writePoolcnt
  dsimp only
  split <;> simp

@[simp] theorem writeCoreReg_wf_eq (s : State) (core off v : Nat) : Memory.wf (writeCoreReg s core off v) = Memory.wf s := by
  simp [writeCoreReg]

@[simp] theorem writeCarcfg_wf_eq (s : State) (cl v : Nat) : Memory.wf (writeCarcfg s cl v) = Memory.wf s := by simp [writeCarcfg]

@[simp] theorem writeCarstat_wf_eq (s : State) (cl n v : Nat) : Memory.wf (writeCarstat s cl n v) = Memory.wf s := rfl

@[simp] theorem State.setTimer_wf_eq (s : State) (n : Nat) (x : CoreTimer) : Memory.wf (s.setTimer n x) = Memory.wf s := rfl

@[simp] theorem wakeCore_wf_eq (s : State) (n : Nat) : Memory.wf (wakeCore s n) = Memory.wf s := by simp [wakeCore]

@[simp] theorem writeTcmp_wf_eq (s : State) (n : Nat) (v : DWord) : Memory.wf (writeTcmp s n v) = Memory.wf s := by simp [writeTcmp]

@[simp] theorem execTcmpWrite_wf (core : Nat) (value : DWord) (s : State) (hs : Memory.wf s = true) :
    Out.wf (execTcmpWrite core value s) = true := by
  simp [execTcmpWrite, hs]

@[simp] theorem execTcmpTimerEvent_wf (core : Nat) (s : State) (hs : Memory.wf s = true) : Out.wf (execTcmpTimerEvent core s) = true := by
  simp [execTcmpTimerEvent, hs]

@[simp] theorem execCoreEventWake_wf (core : Nat) (e : CoreEvent) (s : State) (hs : Memory.wf s = true) :
    Out.wf (execCoreEventWake core e s) = true := by
  simp [execCoreEventWake, hs]

@[simp] theorem State.setNoc_wf_eq (s : State) (d : Nat) (x : Noc) : Memory.wf (s.setNoc d x) = Memory.wf s := rfl

@[simp] theorem execQtailWrite_wf (q : QueueAccess) (tail : Word) (s : State) (hs : Memory.wf s = true) :
    Out.wf (execQtailWrite q tail s) = true := by
  simp [execQtailWrite, hs]

@[simp] theorem execQstatSkip_wf (q : QueueAccess) (s : State) (hs : Memory.wf s = true) : Out.wf (execQstatSkip q s) = true := by
  simp [execQstatSkip, hs]

@[simp] theorem execQcfgEnWrite_wf (q : QueueAccess) (en : Bool) (s : State) (hs : Memory.wf s = true) :
    Out.wf (execQcfgEnWrite q en s) = true := by
  simp [execQcfgEnWrite, hs]

@[simp] theorem writeQcfg_wf_eq (s : State) (q v : Nat) : Memory.wf (writeQcfg s q v) = Memory.wf s := by simp [writeQcfg]

@[simp] theorem writeQueueReg_wf (s : State) (q i v : Nat) (hs : Memory.wf s = true) : Memory.wf (writeQueueReg s q i v) = true := by
  unfold writeQueueReg
  split
  · simp [hs]
  · simp [hs]
  · exact nextOf_wf _ _ hs (execQtailWrite_wf _ _ s hs)
  · exact hs
  · split
    · exact nextOf_wf _ _ hs (execQstatSkip_wf _ s hs)
    · exact hs
  · exact hs

@[simp] theorem writeTransReg_wf (s : State) (i v : Nat) (hs : Memory.wf s = true) : Memory.wf (writeTransReg s i v) = true := by
  unfold writeTransReg
  extract_lets t put idle
  have hput (t : Trans) : Memory.wf (put t) = true := hs
  have hidle (t : Trans) : Memory.wf (idle t) = true := by
    simp only [idle, wf_ite]
    split
    · exact hs
    · exact hput t
  clear_value put idle
  split
  case h_6 => exact nextOf_wf _ _ hs (execPfqheadWrite_wf _ s hs)
  case h_7 => simp [hs]
  case h_10 | h_11 | h_12 | h_13 => exact nextOf_wf _ _ hs (execMigfreePush_wf _ _ s hs)
  case h_14 =>
    refine nextOf_wf _ _ hs ?_
    split
    · exact execMigpinPin_wf _ s hs
    · exact execMigpinUnpin_wf _ s hs
  case h_15 =>
    refine nextOf_wf _ _ hs ?_
    split
    · exact execCtxctlPreempt_wf _ s hs
    · exact execCtxctlEnd_wf _ s hs
  case h_16 => exact hs
  all_goals simp only [hput, hidle]

@[simp] theorem writeTrust_wf_eq (s : State) (n v : Nat) : Memory.wf (writeTrust s n v) = Memory.wf s := rfl

@[simp] theorem writeRasReg_wf (s : State) (die i v : Nat) (hs : Memory.wf s = true) : Memory.wf (writeRasReg s die i v) = true := by
  unfold writeRasReg
  extract_lets r
  have hras (x : Ras) : Memory.wf { s with ras := x } = true := hs
  have hcore := nextOf_wf s (execCoredis v s) hs (execCoredis_wf v s hs)
  simp [hras, hcore]

@[simp] theorem writeFabrate_wf_eq (s : State) (v : Nat) : Memory.wf (writeFabrate s v) = Memory.wf s := rfl

@[simp] theorem writeTethcfg_wf_eq (s : State) (v : Nat) : Memory.wf (writeTethcfg s v) = Memory.wf s := by simp [writeTethcfg]

@[simp] theorem writeTethstat_wf_eq (s : State) (v : Nat) : Memory.wf (writeTethstat s v) = Memory.wf s := rfl

@[simp] theorem writePhdesc_wf (s : State) (v : Nat) (hs : Memory.wf s = true) : Memory.wf (writePhdesc s v) = true := by
  unfold writePhdesc
  refine nextOf_wf _ _ hs ?_
  split
  · exact execPhdescCreate_wf _ s hs
  · exact execPhdescDestroy_wf _ s hs

@[simp] theorem writePortctl_wf (s : State) (n v : Nat) (hs : Memory.wf s = true) : Memory.wf (writePortctl s n v) = true := by
  unfold writePortctl
  extract_lets x t u w
  have ht : Memory.wf t = true := by simp [t, hs]
  have hu : Memory.wf u = true := nextOf_wf _ _ ht (execPortctlPwidth_wf _ _ t ht)
  have hw : Memory.wf w = true := by
    simp only [w, wf_ite]
    split
    · exact nextOf_wf _ _ hu (execPortctlEn_wf _ _ u hu)
    · exact hu
  split
  · exact nextOf_wf _ _ hw (execPortctlReset_wf _ w hw)
  · exact hw

@[simp] theorem writePort_wf (s : State) (n i v : Nat) (hs : Memory.wf s = true) : Memory.wf (writePort s n i v) = true := by
  unfold writePort
  dsimp only
  split <;> simp [hs]

@[simp] theorem writePodReg_wf (s : State) (i v : Nat) (hs : Memory.wf s = true) : Memory.wf (writePodReg s i v) = true := by
  simp [writePodReg, hs]

@[simp] theorem sysWrite_wf (s : State) (core n : Nat) (value : DWord) (hs : Memory.wf s = true) :
    Memory.wf (sysWrite s core n value) = true := by
  unfold sysWrite
  extract_lets v
  have hnoc (d : Nat) (x : Noc) : Memory.wf (s.setNoc d x) = true := hs
  have hpower (x : Power) : Memory.wf { s with power := x } = true := hs
  have hcfg := (writePwrcfg_wf_eq s v).trans hs
  simp [hnoc, hpower, hcfg]

@[simp] theorem leaderWrite_wf (s : State) (die via term n : Nat) (value : DWord) (hs : Memory.wf s = true) :
    Memory.wf (leaderWrite s die via term n value) = true := by simp [leaderWrite, hs]

@[simp] theorem execRingmasterCommand_wf (die : CommandPath) (term : Word) (reg : BitVec 17) (value : DWord) (s : State)
    (hs : Memory.wf s = true) : Out.wf (execRingmasterCommand die term reg value s) = true := by simp [execRingmasterCommand, hs]

@[simp] theorem execRegisterWrite_wf (n : BitVec 17) (unit : Nat) (value : DWord) (s : State) (hs : Memory.wf s = true) :
    Out.wf (execRegisterWrite n unit value s) = true := by simp [execRegisterWrite, hs]

@[simp] theorem execSread_wf (hd : Hdr) (d a : Operand) (s : State) (hs : Memory.wf s = true) : Out.wf (execSread hd d a s) = true := by
  unfold execSread
  refine issue_wf hs fun act u hu => ?_
  simp [hu]

@[simp] theorem execSreadSys_wf (hd : Hdr) (d : Operand) (n : BitVec 17) (s : State) (hs : Memory.wf s = true) :
    Out.wf (execSreadSys hd d n s) = true := by
  unfold execSreadSys
  refine issue_wf hs fun act u hu => ?_
  split <;> simp [hs, hu, trapWord_wf]

@[simp] theorem execSwrite_wf (hd : Hdr) (a b : Operand) (s : State) (hs : Memory.wf s = true) : Out.wf (execSwrite hd a b s) = true := by
  unfold execSwrite
  refine issue_wf hs fun act u hu => ?_
  simp [hu]

@[simp] theorem execSwriteSys_wf (hd : Hdr) (n : BitVec 17) (b : Operand) (s : State) (hs : Memory.wf s = true) :
    Out.wf (execSwriteSys hd n b s) = true := by
  unfold execSwriteSys
  refine issue_wf hs fun act u hu => ?_
  split
  · simp [hu]
  · split <;> simp [hs, hu, trapWord_wf]

@[simp] theorem execSethdl_wf (hd : Hdr) (a : Operand) (s : State) (hs : Memory.wf s = true) : Out.wf (execSethdl hd a s) = true := by
  unfold execSethdl
  refine issue_wf hs fun act u hu => ?_
  split <;> simp [hs, hu]

@[simp] theorem execEstatLog_wf (hd : Hdr) (d a : Operand) (s : State) (hs : Memory.wf s = true) :
    Out.wf (execEstatLog hd d a s) = true := by
  unfold execEstatLog
  refine issue_wf hs fun act u hu => ?_
  simp [hu]

@[simp] theorem execEstatEq_wf (hd : Hdr) (d : Operand) (s : State) (hs : Memory.wf s = true) : Out.wf (execEstatEq hd d s) = true := by
  unfold execEstatEq
  refine issue_wf hs fun act u hu => ?_
  simp [hu]

@[simp] theorem dropRecurred_wf_eq (s : State) (asid gen : Nat) : Memory.wf (dropRecurred s asid gen) = Memory.wf s := rfl

@[simp] theorem execPggen_wf (hd : Hdr) (d a : Operand) (s : State) (hs : Memory.wf s = true) : Out.wf (execPggen hd d a s) = true := by
  unfold execPggen
  refine issue_wf hs fun act u hu => ?_
  split <;> simp [hs, hu, homeWrite_wf]

@[simp] theorem execHalt_wf (hd : Hdr) (s : State) (hs : Memory.wf s = true) : Out.wf (execHalt hd s) = true := by
  unfold execHalt
  refine issue_wf hs fun act u hu => ?_
  simp [hu]

@[simp] theorem execHaltStop_wf (hd : Hdr) (s : State) (hs : Memory.wf s = true) : Out.wf (execHaltStop hd s) = true := by
  unfold execHaltStop
  refine issue_wf hs fun act u hu => ?_
  simp [hu]

@[simp] theorem execThrottleEpochEnd_wf (core : Nat) (s : State) (hs : Memory.wf s = true) :
    Out.wf (execThrottleEpochEnd core s) = true := by
  simp [execThrottleEpochEnd, hs]

@[simp] theorem execNocWindowEnd_wf (die : Nat) (counts : List (List Nat)) (s : State) (hs : Memory.wf s = true) :
    Out.wf (execNocWindowEnd die counts s) = true := by simp [execNocWindowEnd, hs]

@[simp] theorem execRoutingModeSwitch_wf (die : Nat) (s : State) (hs : Memory.wf s = true) :
    Out.wf (execRoutingModeSwitch die s) = true := by
  unfold execRoutingModeSwitch
  dsimp only
  split <;> simp [hs]

@[simp] theorem execDieApplyWrite_wf (die : Nat) (s : State) (hs : Memory.wf s = true) : Out.wf (execDieApplyWrite die s) = true := by
  unfold execDieApplyWrite
  dsimp only
  split <;> simp [hs]

@[simp] theorem execMemoryRequestAtHome_wf (q : HomeReq) (s : State) (hs : Memory.wf s = true) :
    Out.wf (execMemoryRequestAtHome q s) = true := by
  simp [execMemoryRequestAtHome, hs, homeWriteBy_wf]

@[simp] theorem execTranslationWalk_wf (core asid : Nat) (va : DWord) (kind : Access) (s : State) (hs : Memory.wf s = true) :
    Out.wf (execTranslationWalk core asid va kind s) = true := by simp [execTranslationWalk, hs]

end Sys2Proof.Machine
end

section
/-!
PROOF. The canonical form of memory over a step (R249, R351, R397): every instruction, the passing of a cycle, the fetch of a word, the words
of a port, and the step that chooses among them.
-/

namespace Sys2Proof.Machine

/-! ### Every instruction -/

/-- A word of groups 0 to 6 changes its thread alone, so it keeps the canonical form. -/
theorem exec_wf_of_low {i : Instr} {s : State} (hlow : (i.hdr?.isSome && decide (i.opcode < 448)) = true) (hs : Memory.wf s = true) :
    Out.wf (exec i s) = true := by
  obtain ⟨hhdr, hop⟩ := (Bool.and_eq_true _ _).mp hlow
  exact (confined_exec i s (Option.isSome_iff_ne_none.mp hhdr) (of_decide_eq_true hop)).wf hs

/-- Every instruction keeps the canonical form: a word of groups 0 to 6 because it changes its thread alone, any other word and any device
step by the lemma about what executes it. -/
theorem exec_wf (i : Instr) (s : State) (hs : Memory.wf s = true) : Out.wf (exec i s) = true := by
  cases i
  case
      iadd | isub | imul | imulhi | imad | imadw | iaddc | isubb | imin | imax | iabs | ineg | isad | idot4 | lea | iadd64 |
      isub64 | icmp | isel | and | or | xor | andn | not | bool3 | shl | shr | sar | rotl | funnel | bfx | bfi | popc | clz |
      ctz | brev | byteperm | pset | pmovGet | pmovSet | movi | movhi | iaddi | imuli | andi | ori | xori | shli | shri | sari
      | icmpi | leai | fadd | fsub | fmul | ffma | fmin | fmax | fcmp | fclass | frcp | frsq | fsqrt | fex2 | flg2 | fsin |
      fcos | dadd | dsub | dmul | dfma | dmin | dmax | dcmp | drcp | add2h | mul2h | fma2h | max2h | add2b | mul2b | fma2b |
      max2b | cvt | cvtbx | unpkbx | frnd | mov | movk | lscan | lred | lvote | lbcast | lfind =>
    exact exec_wf_of_low rfl hs
  all_goals simp [exec, hs]

/-! ### A cycle passes -/

@[simp] theorem goOnEnding_wf (s : State) (hs : Memory.wf s = true) : Memory.wf (goOnEnding s) = true := by
  unfold goOnEnding
  exact foldl_wf _ _ (fun s x hs => nextOf_wf _ _ hs (execCtxctlEnd_wf x.ctx s hs)) _ hs

@[simp] theorem endEpochs_wf (s : State) (hs : Memory.wf s = true) : Memory.wf (endEpochs s) = true := by
  unfold endEpochs
  split
  · exact foldl_wf _ _ (fun s e hs => nextOf_wf _ _ hs (execMigrationEpochEnd_wf e.1 s hs)) _ hs
  · exact hs

@[simp] theorem resumeDue_wf_eq (s : State) : Memory.wf (resumeDue s) = Memory.wf s := by
  unfold resumeDue
  split <;> simp

@[simp] theorem drainCaches_wf (s : State) (hs : Memory.wf s = true) : Memory.wf (drainCaches s) = true := by
  unfold drainCaches
  exact foldl_wf _ _ (fun s c hs => drainWork_wf s c hs) _ hs

@[simp] theorem tickClock_wf (s : State) (hs : Memory.wf s = true) : Memory.wf (tickClock s) = true := by
  unfold tickClock
  extract_lets adv t u v
  have ht : Memory.wf t = true := by simp [t, hs]
  have hu : Memory.wf u = true := endEpochs_wf _ ht
  have hv : Memory.wf v = true := by simp [v, hu]
  simp [hv]

@[simp] theorem openCycle_wf (s : State) (hs : Memory.wf s = true) : Memory.wf (openCycle s) = true := by simp [openCycle, hs]

/-! ### A word is fetched and run -/

theorem fetchFault_wf (s : State) (va : Nat) (e : Refused) (hs : Memory.wf s = true) : Out.wf (fetchFault s va e) = true := by
  unfold fetchFault
  extract_lets lane trap record
  have htrap (u : State) (hu : Memory.wf u = true) : Out.wf (trap u) = true := by simp [trap, hu]
  have hrecord {id : Nat} {u : State} (heq : record = some (id, u)) : Memory.wf u = true := writeFault_wf heq hs
  clear_value record
  split
  · exact hs
  · split
    · split
      · exact hs
      · simp [hrecord rfl]
    · split
      · exact hs
      · split
        · split
          · exact htrap s hs
          · exact htrap _ (hrecord rfl)
        · exact htrap s hs

@[simp] theorem touchWord_wf_eq (i : Instr) (s : State) : Memory.wf (touchWord i s) = Memory.wf s := by simp [touchWord]

@[simp] theorem goes_wf_eq (s : State) : Memory.wf (goes s) = Memory.wf s := rfl

/-- Whatever executes an instruction keeps the canonical form. -/
def KeepsWf (ex : Instr → State → Out) : Prop := ∀ i s, Memory.wf s = true → Out.wf (ex i s) = true

/-- An answer, if any, and the state that is left keep the canonical form. -/
structure AnswerWf (p : Option Out × State) : Prop where
  answered (o : Out) (h : p.1 = some o) : Out.wf o = true
  left : Memory.wf p.2 = true

theorem answerWf_none {s : State} (hs : Memory.wf s = true) : AnswerWf (none, s) := by
  refine ⟨fun o h => ?_, hs⟩
  cases h

theorem answerWf_some {o : Out} {s : State} (ho : Out.wf o = true) (hs : Memory.wf s = true) : AnswerWf (some o, s) :=
  ⟨fun _ h => Option.some.inj h ▸ ho, hs⟩

section

variable {ex : Instr → State → Out} (hex : KeepsWf ex)

include hex

theorem runWord_wf (s : State) (w : DWord) (hs : Memory.wf s = true) : Out.wf (runWord ex s w) = true := by
  unfold runWord
  split
  · exact hex _ _ ((touchWord_wf_eq ..).trans hs)
  · exact hex _ _ hs

theorem fetchRun_wf (s : State) (hs : Memory.wf s = true) : Out.wf (fetchRun ex s) = true := by
  unfold fetchRun
  extract_lets va
  split
  · exact runWord_wf hex s _ hs
  · split
    · exact fetchFault_wf s _ _ hs
    · have htranslated := translate_wf s (curTlb s) (curAsid s) va ⟨.fetch, s.th.agent.privileged, none, false⟩ hs
      split
      · next heq => exact fetchFault_wf _ _ _ ((wf_snd_eq heq).trans htranslated)
      · next t heq =>
        have ht : Memory.wf t = true := (wf_snd_eq heq).trans htranslated
        split
        · rfl
        · split
          · exact runWord_wf hex _ _ ht
          · split
            · exact runWord_wf hex _ _ ht
            · exact (askLines_wf_eq ..).trans ht

theorem tryWord_wf (s : State) (hs : Memory.wf s = true) : AnswerWf (tryWord ex s) := by
  have hrun := fetchRun_wf hex (goes s) hs
  unfold tryWord
  extract_lets t
  split
  · split
    · next u heq =>
      have hu : Memory.wf u = true := by simpa [t, heq] using hrun
      split
      · exact answerWf_some hu hs
      · exact answerWf_none hu
    · exact answerWf_some rfl hs
    · exact answerWf_some rfl hs
  · exact answerWf_none hs

/-! ### The words of a port -/

theorem trySubs_wf (may : Sub → Bool) (n : Nat) (s : State) (hs : Memory.wf s = true) : AnswerWf (trySubs ex may n s) := by
  induction n generalizing s with
  | zero => exact answerWf_none hs
  | succ n ih =>
    have htry : AnswerWf (if may s.th.grp then tryWord ex s else (none, s)) := by
      split
      · exact tryWord_wf hex s hs
      · exact answerWf_none hs
    unfold trySubs
    split
    · next heq => exact heq ▸ htry
    · next u heq => exact ih _ ((wf_snd_eq heq).trans htry.left)

omit hex in
@[simp] theorem issuedAt_wf_eq (p : IssuePort) (a : Agent) (m : LaneMask) (others : List Agent) (s u : State) :
    Memory.wf (issuedAt ex p a m others s u) = Memory.wf u := by
  unfold issuedAt
  extract_lets seen f slot turned v
  have hv : Memory.wf v = Memory.wf u := foldl_wf_eq _ _ (fun s t => refuseSlot_wf_eq ..) u
  split
  · exact hv
  · exact hv

theorem servePort_wf (p : IssuePort) (all l : List Agent) (s : State) (hs : Memory.wf s = true) : Out.wf (servePort ex p all l s) = true := by
  induction l generalizing s with
  | nil => exact hs
  | cons a r ih =>
    unfold servePort
    split
    · exact ih s hs
    · next u hfocus =>
      have hsubs := trySubs_wf hex (fun g => notWithheld ex s u a all g && replayFirst u.th g) (subCount u) u ((focus_wf_eq hfocus).trans hs)
      split
      · next v w heq =>
        rw [heq] at hsubs
        simpa using hsubs.answered _ rfl
      · next o w _ heq =>
        rw [heq] at hsubs
        exact hsubs.answered o rfl
      · next v heq => exact ih v ((wf_snd_eq heq).trans hsubs.left)

/-! ### The step -/

omit hex in
theorem backed_wf (s : State) (o : Out) (ho : Out.wf o = true) : Out.wf (backed s o) = true := by
  cases o with
  | next t => exact backChanges_wf s t ho
  | fault f => rfl
  | refused r => rfl

theorem stepWith_wf (s : State) (hs : Memory.wf s = true) : Out.wf (stepWith ex s) = true := by
  unfold stepWith
  split
  · exact backed_wf s _ (hex _ _ hs)
  · split
    · exact backed_wf s _ (hex _ _ hs)
    · split
      · exact openCycle_wf s hs
      · exact backed_wf s _ (servePort_wf hex _ _ _ _ hs)

end

/-- Settles O39: a step is an instruction, the words of a port or the passing of a cycle, and each function on the way either leaves the
three tables alone or writes them through the writes that keep the form. -/
theorem memoryStaysCanonical : Obligations.MemoryStaysCanonical := by
  intro s t hs hstep
  have hout := stepWith_wf exec_wf s hs
  rw [show stepWith exec s = .next t from hstep] at hout
  exact hout

end Sys2Proof.Machine
end

section
/-!
PROOF. Packets of other packages (R277 to R281, R383, R386, R389 to R393): what the link layer delivers, the packet that comes next in its
stream, rates, acknowledgements, and what is sent again; then the statement about the steps of packets.
-/

namespace Sys2Proof.Machine

/-! ### What the link layer delivers -/

/-- Nothing is delivered by a port that is not UP or that waits for a replay (R383, R386). -/
theorem Fabric.hears_eq_false {f : Fabric} {p : Packet}
    (h : (f.port p.plane).st ≠ .up ∨ ((f.port p.plane).asked = true ∧ p.resent = false)) : f.hears p = false := by
  rcases h with hdown | ⟨hasked, hfirst⟩
  · simp [Fabric.hears, hdown]
  · simp [Fabric.hears, hasked, hfirst]

theorem receive_of_not_hears {p : Packet} {s : State} (h : s.fabric.hears p = false) : receive p s = s := by simp [receive, h]

/-- That a replay has come changes no rate. -/
@[simp] theorem rate_heard (s : State) (p : Packet) (d : Nat) : (heard s p).fabric.rate d = s.fabric.rate d := by
  unfold heard
  dsimp only
  split <;> rfl

@[simp] theorem rateCfg_heard (s : State) (p : Packet) : (heard s p).fabric.rateCfg = s.fabric.rateCfg := by
  unfold heard
  dsimp only
  split <;> rfl

/-! ### Packets by their types -/

theorem ofType_of_typ {p : Packet} {k : BitVec 4} (s : State) (h : p.typ = k) : ofType k.toNat p s = .next (receive p s) :=
  if_pos (congrArg BitVec.toNat h)

theorem exec_packetAck_now {p : Packet} {s : State} (htyp : p.typ = 10) (hhears : s.fabric.hears p = true) :
    exec (.packetAck p) s = .next (applyRetire p (applyAck p (heard s p))) := by
  simp [execPacketAck, htyp, hhears]

/-- A header with a reserved TYPE or field counts as a link error (R277). -/
theorem exec_packetReserved_now {h : BitVec 512} {s : State} (hres : headerReserved h = true)
    (hup : (s.fabric.port (h.extractLsb' 52 5).toNat).st = .up) (hasked : (s.fabric.port (h.extractLsb' 52 5).toNat).asked = false) :
    exec (.packetReserved h) s = .next (s.setFab { s.fabric with linkErrors := s.fabric.linkErrors + 1 }) := by
  simp only [exec_packetReserved, execPacketReserved, hres, hup, hasked, beq_self_eq_true, Bool.not_false, Bool.and_self, if_true]

/-! ### The packet that comes next in its stream -/

/-- A packet of a trusted package advances E and is performed (R389, R414). -/
theorem takeNext_of_trusted {p : Packet} {s : State} (htrust : trusted s p.src = true) (hheld : (s.fabric.inflow (inKey p)).held = []) :
    takeNext s p = perform (s.setFab (s.fabric.setInflow (inKey p)
      { s.fabric.inflow (inKey p) with expect := (s.fabric.inflow (inKey p)).expect + 1, held := [] })) p := by
  unfold takeNext
  simp only [hheld, List.filter_nil]
  exact if_pos htrust

/-- A packet whose SEQ is E, in a stream that holds no other, is taken and acknowledged (R389). -/
theorem receive_of_next {p : Packet} {s : State} (hhears : s.fabric.hears p = true) (hepoch : newEpochIn (heard s p) p = s)
    (hseq : p.seq = (s.fabric.inflow (inKey p)).expect) (hheld : (s.fabric.inflow (inKey p)).held = []) :
    receive p s = { takeNext s p with inputs := (takeNext s p).inputs ++ [Instr.ackSend p.src ⟨p.tc, (inKey p).2.2⟩] } := by
  have hdist : (p.seq - (s.fabric.inflow (inKey p)).expect).toNat = 0 := by simp [hseq]
  unfold receive
  simp only [hhears, hepoch, hdist, hheld, Bool.not_true, Bool.false_eq_true, if_false, if_true, List.length_nil, takeHeld]
  rfl

/-! ### Rates -/

/-- A rate that is set is read back, and every other stays. -/
theorem Fabric.rate_of_rates_eq {f g : Fabric} {dst r : Nat} (h : g.rates = tset 64 f.rates dst r) :
    g.rate dst = r ∧ ∀ d, d ≠ dst → g.rate d = f.rate d := by
  unfold Fabric.rate
  rw [h]
  exact ⟨tget_tset_self .., fun d hd => tget_tset_ne _ _ _ _ _ hd⟩

/-- A notice lowers the rate toward the congested package (R280, R281). -/
theorem exec_packetDowndraft_now {p : Packet} {s : State} (htyp : p.typ = 11) (hhears : s.fabric.hears p = true)
    (hon : s.fabric.rateCfg.getLsbD 14 = false) :
    ∃ t, exec (.packetDowndraft p) s = .next t ∧
      t.fabric.rate p.congested = max (s.fabric.rate p.congested * (8 - p.severity) / 8) (max 1 (bitsN s.fabric.rateCfg.toNat 5 0)) ∧
      ∀ d, d ≠ p.congested → t.fabric.rate d = s.fabric.rate d := by
  have hhere : ¬(decide (p.typ ≠ 11) || !s.fabric.hears p) = true := by simp [htyp, hhears]
  rw [exec_packetDowndraft, execPacketDowndraft]
  dsimp only
  rw [if_neg hhere, if_neg (ne_true_of_eq_false hon), rate_heard, rateCfg_heard]
  refine ⟨_, rfl, ?_⟩
  simpa only [rate_heard] using Fabric.rate_of_rates_eq (f := (heard s p).fabric) rfl

/-- An interval without a notice raises the rate by one, up to 64 (R280). -/
theorem exec_rateRecovery_rates (dst : Nat) (s : State) :
    ∃ t, exec (.rateRecovery dst) s = .next t ∧
      t.fabric.rate dst = (if tget false s.fabric.noticed dst then s.fabric.rate dst else min (s.fabric.rate dst + 1) 64) ∧
      ∀ d, d ≠ dst → t.fabric.rate d = s.fabric.rate d := by
  rw [exec_rateRecovery, execRateRecovery]
  split
  · exact ⟨_, rfl, rfl, fun d _ => rfl⟩
  · exact ⟨_, rfl, Fabric.rate_of_rates_eq rfl⟩

/-! ### Acknowledgements -/

/-- Without a plane the ACK waits, noted once (R391). -/
theorem exec_ackSend_waits {src : Nat} (x : StreamClass) {s : State} (hpick : pickPlane s [src] none 1 = none) :
    ∃ t, exec (.ackSend src x) s = .next t ∧ (src, x.tc.toNat, x.group) ∈ t.fabric.acksDue ∧ t.mem = s.mem ∧
      t.fabric.ports = s.fabric.ports := by
  rw [exec_ackSend, execAckSend, hpick]
  refine ⟨_, rfl, ?_, rfl, rfl⟩
  rw [State.setFab_fabric]
  dsimp only
  split
  · next hnoted => exact List.contains_iff_mem.mp hnoted
  · exact List.mem_append_right _ (List.mem_singleton.mpr rfl)

/-- On a plane the ACK leaves, and with it the RETIRE point that is due (R391). -/
theorem exec_ackSend_leaves {src n : Nat} (x : StreamClass) {s u : State} (hpick : pickPlane s [src] none 1 = some (n, u)) :
    let y := u.fabric.flow (src, 0, 0)
    let f := u.fabric.emit n (ackPacket u src x.tc x.group)
    exec (.ackSend src x) s = .next (u.setFab (if y.retireDue then f.setFlow (src, 0, 0) { y with retireDue := false } else f)) := by
  rw [exec_ackSend, execAckSend, hpick]

/-! ### What is sent again -/

/-- A port that has left UP has what it did not deliver sent again (R392). -/
theorem exec_linkLossReplay_now {port : Nat} {s : State} (hdown : (s.fabric.port port).st ≠ .up) :
    exec (.linkLossReplay port port) s = .next (replayLost s port) := by
  simp [execLinkLossReplay, hdown]

/-- A stream that is closed starts again, and its unretired packets complete with LINK (R392). -/
theorem exec_streamClose_now (dst : Nat) (tc : BitVec 2) (s : State) :
    let mine (k : Nat × Nat × Nat) : Bool :=
      k.2.1 == tc.toNat && (if tc = 3 then (tget [] s.fabric.groups k.2.2).contains dst else k.1 == dst)
    let flows := s.fabric.flows.filter fun x => mine x.1
    let lost := flows.flatMap fun x => x.2.unretired.map fun e => e.pkt
    flows ≠ [] → (lost ≠ [] ∨ s.fabric.planes dst 1 = []) →
      let u := s.setFab { s.fabric with
        flows := s.fabric.flows.map fun x => if mine x.1 then (x.1, { Flow.fresh with newEpoch := true }) else x
        closed := min (s.fabric.closed + flows.length) 255 }
      exec (.streamClose dst tc) s = .next (lost.foldl linkFailed
        (if tc = 0 && lost.any fun p => p.typ == 0 then waitFailed u dst else u)) := by
  intro mine flows lost hflows hlost u
  have hcloses : ¬(flows.isEmpty || (lost.isEmpty && !(s.fabric.planes dst 1).isEmpty)) = true := by
    rcases hlost with hlost | hplanes
    · simp [hflows, hlost]
    · simp [hflows, hplanes]
  rw [exec_streamClose, execStreamClose]
  exact if_neg hcloses

/-- Settles O54. Log entry 37 stands behind the arrivals that are discarded until the replay, ACKs as packets that wait for a plane, the
RETIRE point on the next ACK, and the replay of multicast copies. -/
theorem packetSteps : Obligations.PacketSteps := by
  refine ⟨?types, ?next, ?unheard, ?reserved, ?downdraft, exec_rateRecovery_rates, ?ackSend, ?linkLoss, ?timeout, ?expire,
    exec_streamClose_now⟩
  case types =>
    intro p s
    exact ⟨ofType_of_typ s, ofType_of_typ s, ofType_of_typ s, ofType_of_typ s, ofType_of_typ s, ofType_of_typ s, ofType_of_typ s,
      ofType_of_typ s, ofType_of_typ s, ofType_of_typ s, exec_packetAck_now⟩
  case next =>
    intro p s hhears hepoch htrust x hseq hheld t
    rw [receive_of_next hhears hepoch hseq hheld, takeNext_of_trusted htrust hheld]
  case unheard =>
    intro p s h
    exact receive_of_not_hears (Fabric.hears_eq_false h)
  case reserved =>
    intro h s x hres hup hasked
    exact exec_packetReserved_now hres hup hasked
  case downdraft =>
    intro p s htyp hhears hon
    exact exec_packetDowndraft_now htyp hhears hon
  case ackSend =>
    intro src x s
    exact ⟨exec_ackSend_waits x, fun n u hpick => exec_ackSend_leaves x hpick⟩
  case linkLoss =>
    intro port s hdown
    exact exec_linkLossReplay_now hdown
  case timeout =>
    intro dst tc seq plane s x p hfind late
    rw [exec_e2eTimeoutReplay, execE2eTimeoutReplay]
    dsimp only
    rw [hfind]
  case expire =>
    intro dst plane s
    exact exec_planeExclusionExpire dst plane s

end Sys2Proof.Machine
end

section
/-!
PROOF. The steps of the Tether (R286 to R300): the root's node cycle, what other packages send, releases, held signals, PHDESC, ports and
standby roots, and the pod's time; then the statement about them.
-/

namespace Sys2Proof.Machine

/-! ### The root's node cycle -/

/-- A root that is reached takes its whole inbox and delivers what it kept (R287, R292). -/
theorem exec_rootNodeCycle_reached {name : PhName} {s : State} {r : PhRoot} (hroot : phRoot s name = some r) (hlost : r.lost = [])
    (hreached : rootReached s name = true) :
    let own := r.inbox.filter fun a => a.2.mine s.pkg
    let r' := if own.isEmpty then r else sendOwn s name r
    let q := { r' with inbox := [], unsent := [] }.cycle s.pkg (isPod name) s.podTime (degraded s name) r.inbox
    let u := deliverReleases (setRoot s name q.2) name (r'.unsent ++ q.1)
    let v := if own.any fun a => a.2.registers then learnPhase u name q.2.c else u
    exec (.rootNodeCycle name) s = .next (endRoot (answerJoins (keepOwn v name own) name) name) := by
  simp only [exec_rootNodeCycle, execRootNodeCycle, hroot, hlost, hreached, List.isEmpty_nil, Bool.not_true, Bool.true_or,
    Bool.false_eq_true, if_false, if_true, List.filter_false, List.filter_true]

/-! ### Messages of other packages -/

section
variable {node child leaf : Nat} {name : PhName} {phase : Word} {s : State} {r : PhRoot} (hother : child ≠ s.pkg)
  (hpod : isPod name = true)
include hother hpod

/-- The first registration makes the root (R289). -/
theorem exec_tetherCountMessage_first (any : Bool) (hroot : phRoot s name = none) :
    exec (.tetherCountMessage node child ⟨name, leaf, phase, .join any node⟩) s =
      .next (toRoot (setRoot s name (PhRoot.fresh any node)) name (.join child)) := by
  simp [execTetherCountMessage, hother, hpod, hroot]

/-- A registration with the root's KIND and ROOT reaches it (R289). -/
theorem exec_tetherCountMessage_join (hroot : phRoot s name = some r) (hspine : r.spine = node) :
    exec (.tetherCountMessage node child ⟨name, leaf, phase, .join r.anyOf r.rootIx⟩) s = .next (toRoot s name (.join child)) := by
  simp [execTetherCountMessage, hother, hpod, hroot, hspine]

/-- A total reaches the root at the node that it names (R286). -/
theorem exec_tetherCountMessage_totals (k : TetherCounts) (hroot : phRoot s name = some r) (hspine : r.spine = node) :
    exec (.tetherCountMessage node child ⟨name, leaf, phase, .totals k⟩) s =
      .next (toRoot s name (.totals child leaf phase (kidOf k) k.cand0 k.cand1)) := by
  simp [execTetherCountMessage, hother, hpod, hroot, hspine]

/-- A report reaches the standby root, which goes on where it was the last one (R288). -/
theorem exec_tetherCountMessage_report (found : Bool) (win : Cand) (k : TetherCounts) (hroot : phRoot s name = some r)
    (hspine : r.spine = node) :
    exec (.tetherCountMessage node child ⟨name, leaf, phase, .report found win k⟩) s =
      .next (rebuilt (setRoot s name (r.report child leaf phase found win (kidOf k) k.cand0 k.cand1)) name) := by
  simp [execTetherCountMessage, hother, hpod, hroot, hspine]

end

/-! ### Releases and held signals -/

@[simp] theorem setRoot_podTime (s : State) (n : PhName) (r : PhRoot) : (setRoot s n r).podTime = s.podTime := rfl

/-- The release that a message brings to the package node at a pod time (R298). -/
def receivedRelease (m : Release) (now : Nat) : PhRelease :=
  ⟨m.phase, m.base.toNat, m.window, m.late, m.window != 0 || m.late || decide (now < m.base.toNat), m.found, m.win, m.skewed⟩

section
variable {m : Release} {s : State} {x : PhNode} {r : PhRoot} (hnode : phNode s m.name = some x)
  (hunseen : phaseDone x.seen m.phase = false)
include hnode hunseen

/-- Without a root here, a release reaches the package node alone (R298). -/
theorem exec_releaseReceipt_noRoot (hroot : phRoot s m.name = none) :
    exec (.releaseReceipt m) s = .next (receiveRelease s m.name (receivedRelease m s.podTime)) := by
  simp [execReleaseReceipt, receivedRelease, hnode, hunseen, hroot]

/-- A root that has completed the phase stays as it is (R298). -/
theorem exec_releaseReceipt_behind (hroot : phRoot s m.name = some r) (hdone : phaseDone r.c m.phase = true) :
    exec (.releaseReceipt m) s = .next (receiveRelease s m.name (receivedRelease m s.podTime)) := by
  simp [execReleaseReceipt, receivedRelease, hnode, hunseen, hroot, hdone]

/-- A root that the release is ahead of goes on to the next phase, with its record (R298). -/
theorem exec_releaseReceipt_ahead (hroot : phRoot s m.name = some r) (hopen : phaseDone r.c m.phase = false) :
    exec (.releaseReceipt m) s = .next (receiveRelease
      (setRoot s m.name { r.toward (m.phase + 1) with found := m.found, win := m.win }) m.name (receivedRelease m s.podTime)) := by
  simp [execReleaseReceipt, receivedRelease, hnode, hunseen, hroot, hopen]

end

/-- The releases whose time has come free their waiters, and the others stay (R298). -/
theorem exec_packageRelease_now {name : PhName} {s : State} {x : PhNode} (hnode : phNode s name = some x) :
    exec (.packageRelease name) s =
      .next (setNode s name ((x.pending.filter fun p => decide (p.2.1 ≤ s.podTime)).foldl PhNode.release
        { x with pending := x.pending.filter fun p => !decide (p.2.1 ≤ s.podTime) })) := by
  simp only [exec_packageRelease, execPackageRelease, hnode]

/-- A held signal leaves when it may and is its member's first (R295). -/
theorem exec_boundSignalRelease_ready {die i : Nat} {s : State} {x : Held}
    (hheld : (s.tether.held.filter fun x => x.die == die)[i]? = some x) (hready : heldReady s x = true)
    (hfirst : (s.tether.held.find? fun y => y.member == x.member) = some x) :
    exec (.boundSignalRelease die i) s =
      .next (toRoot (s.setTether { s.tether with held := s.tether.held.erase x }) x.name x.what) := by
  rw [exec_boundSignalRelease, execBoundSignalRelease, hheld]
  simp [hready, hfirst]

/-! ### PHDESC -/

section
variable (value : Word) (s : State)

/-- A phaser without members ends by a write with its own KIND (R289). -/
theorem exec_phdescDestroy_unused {x : PhNode}
    (hnode : phNode (clearRefused s value) (selName (clearRefused s value).tether.phsel) = some x) (hmem : x.members = 0)
    (hkind : value.getLsbD 1 = x.anyOf) :
    exec (.phdescDestroy value) s =
      .next (destroyPhaser (clearRefused s value) (selName (clearRefused s value).tether.phsel) (PhDesc.of value.toNat)) := by
  simp only [exec_phdescDestroy, execPhdescDestroy, hnode, if_pos (And.intro hmem hkind)]

/-- A phaser with members, or of another KIND, refuses to end (R289). -/
theorem exec_phdescDestroy_refused {x : PhNode}
    (hnode : phNode (clearRefused s value) (selName (clearRefused s value).tether.phsel) = some x)
    (hkeep : x.members ≠ 0 ∨ value.getLsbD 1 ≠ x.anyOf) :
    exec (.phdescDestroy value) s = .next (refuseDesc (clearRefused s value)) := by
  have hno : ¬(x.members = 0 ∧ value.getLsbD 1 = x.anyOf) := not_and_or.mpr hkeep
  simp only [exec_phdescDestroy, execPhdescDestroy, hnode, if_neg hno]

/-- Where no phaser is, a write with the KIND that PHDESC holds stores its fields, and one with another is refused (R289). -/
theorem exec_phdescDestroy_noPhaser (hnode : phNode (clearRefused s value) (selName (clearRefused s value).tether.phsel) = none) :
    let u := clearRefused s value
    let n := selName u.tether.phsel
    exec (.phdescDestroy value) s = .next (if value.getLsbD 1 != ((lookupBy n u.tether.descs).getD PhDesc.reset).anyOf then refuseDesc u
      else u.setTether { u.tether with descs := putBy n (PhDesc.of value.toNat) u.tether.descs }) := by
  simp only [exec_phdescDestroy, execPhdescDestroy, hnode]

end

/-! ### Ports and standby roots -/

/-- The port in use loses its link: with AUTOFAIL the node takes the other (R287, R297). -/
theorem portLost_active (s : State) :
    let u := logFault (s.setTether (s.tether.setUp s.tether.active false)) 7 1 0 (if s.tether.active then 1 else 0) 0
    portLost s s.tether.active = if s.tether.autofail then usePort u (!s.tether.active) else u := by
  simp [portLost]

/-- A port that is not in use loses its link: the loss is logged (R287, R297). -/
theorem portLost_idle {port : Bool} {s : State} (hidle : port ≠ s.tether.active) :
    portLost s port = logFault (s.setTether (s.tether.setUp port false)) 7 1 0 (if port then 1 else 0) 0 := by
  simp [portLost, hidle]

/-- A phaser's messages go to the standby root, which awaits the packages with members and this one (R288). -/
theorem exec_leafRootFailover_pod {name : PhName} {s : State} {r : PhRoot} (standby : Nat) (hpod : isPod name = true)
    (hroot : phRoot s name = some r) :
    let lost := (r.kids.filter fun k => k.1 != s.pkg && decide (0 < k.2.e0 + k.2.e1 + k.2.later)).map Prod.fst
      ++ (if (phNode s name).isSome then [s.pkg] else [])
    exec (.leafRootFailover ⟨name, standby⟩) s = .next (setRoot s name { r with
      spine := standby, kids := if lost.isEmpty then r.kids else [], cand0 := none, cand1 := none, unsent := [], lost := lost,
      heard := false }) := by
  simp only [exec_leafRootFailover, execLeafRootFailover, hpod, hroot, Bool.not_true, Bool.false_eq_true, if_false]

/-- The package node counts the change and reports to the standby root (R288). -/
theorem exec_rootlost_pod {name : PhName} {s : State} {x : PhNode} {r : PhRoot} (hpod : isPod name = true)
    (hnode : phNode s name = some x) (hroot : phRoot s name = some r) :
    let last := ((x.pending.find? fun p => p.1.phase + 1 == x.seen).map fun p => (p.1.found, p.1.win)).getD (x.found, x.win)
    let u := s.setTether { s.tether with rootfails := min (s.tether.rootfails + 1) 15 }
    exec (.rootlost name) s = .next (rebuilt (setRoot u name (r.report s.pkg (Config.leafOf s.tether.active) x.seen last.1 last.2 x.own
      (lookupBy x.seen x.fwd) (lookupBy (x.seen + 1) x.fwd))) name) := by
  intro last u
  have hcounted : phRoot u name = some r := hroot
  rw [exec_rootlost, execRootlost]
  dsimp only
  rw [hnode]
  simp only [hpod, Bool.not_true, Bool.false_eq_true, if_false]
  rw [hcounted]
  rfl

/-! ### The pod's time -/

/-- The count steps forward at the first lock and else keeps its value; what is left over slews (R296, R300). -/
theorem exec_timeSyncExchange_follows (parent : DWord) (skb : BitVec 12) (above : Bool) (s : State) :
    ∃ t, exec (.timeSyncExchange parent ⟨skb, above⟩) s = .next t ∧ t.tether.locked = true ∧
      t.tether.skb = skb.toNat ∧ t.tether.above = above ∧
      (s.tether.locked = false → s.podTime ≤ parent.toNat → t.podTime = parent.toNat) ∧
      (s.tether.locked = true ∨ parent.toNat < s.podTime → t.podTime = s.podTime) ∧
      (s.tether.locked = true → t.tether.slew = (parent.toNat : Int) - s.podTime) := by
  rw [exec_timeSyncExchange, execTimeSyncExchange]
  dsimp only
  by_cases hlocked : s.tether.locked = true
  · rw [if_pos hlocked]
    exact ⟨_, rfl, hlocked, rfl, rfl, by simp [hlocked], fun _ => rfl, fun _ => rfl⟩
  · rw [if_neg hlocked]
    by_cases hforward : s.podTime ≤ parent.toNat
    · rw [if_pos hforward]
      exact ⟨_, rfl, rfl, rfl, rfl, fun _ _ => rfl, by simp [hlocked, hforward], by simp [hlocked]⟩
    · rw [if_neg hforward]
      exact ⟨_, rfl, rfl, rfl, rfl, fun _ h => absurd h hforward, fun _ => rfl, by simp [hlocked]⟩

/-- Settles O53. Log entry 29 stands behind the totals and reports as messages, the standby root that awaits its reports, the totals that
are lost with a leaf node, and the refusal of a write of PHDESC with another KIND. -/
theorem tetherSteps : Obligations.TetherSteps := by
  refine ⟨?cycle, ?message, ?receipt, ?release, ?held, ?desc, ?ports, ?failover, ?rootlost, exec_tetherChildLoss,
    exec_timeSyncExchange_follows⟩
  case cycle =>
    intro name s r hroot hlost hreached
    exact exec_rootNodeCycle_reached hroot hlost hreached
  case message =>
    intro node child name leaf phase s hother hpod
    refine ⟨fun any hroot => exec_tetherCountMessage_first hother hpod any hroot, fun r hroot hspine => ⟨?_, ?_, ?_⟩⟩
    · exact exec_tetherCountMessage_join hother hpod hroot hspine
    · exact fun k => exec_tetherCountMessage_totals hother hpod k hroot hspine
    · exact fun found win k => exec_tetherCountMessage_report hother hpod found win k hroot hspine
  case receipt =>
    intro m s x hnode hunseen rel
    exact ⟨exec_releaseReceipt_noRoot hnode hunseen, fun r => exec_releaseReceipt_behind hnode hunseen,
      fun r => exec_releaseReceipt_ahead hnode hunseen⟩
  case release =>
    intro name s x hnode
    exact exec_packageRelease_now hnode
  case held =>
    intro die i s x hheld hready hfirst
    exact exec_boundSignalRelease_ready hheld hready hfirst
  case desc =>
    intro value s u n kind
    refine ⟨exec_phdescCreate value s, fun x hnode => ⟨?_, ?_⟩, fun hnode => ⟨fun hkind => ?_, fun hkind => ?_⟩⟩
    · exact exec_phdescDestroy_unused value s hnode
    · exact exec_phdescDestroy_refused value s hnode
    · exact (exec_phdescDestroy_noPhaser value s hnode).trans (congrArg _ (if_pos (bne_iff_ne.mpr hkind)))
    · exact (exec_phdescDestroy_noPhaser value s hnode).trans (congrArg _ (if_neg fun hne => bne_iff_ne.mp hne hkind))
  case ports =>
    intro port s u
    refine ⟨?_, fun hidle => congrArg _ (portLost_idle hidle), exec_tetherPortLinkUp .., exec_tethcfgActiveWrite ..⟩
    rintro rfl
    exact congrArg _ (portLost_active s)
  case failover =>
    intro name standby s r hpod hroot
    exact exec_leafRootFailover_pod standby hpod hroot
  case rootlost =>
    intro name s x r hpod hnode hroot
    exact exec_rootlost_pod hpod hnode hroot

end Sys2Proof.Machine
end

section
/-!
PROOF. The state after reset (R4, R211): where the numbers of system registers lead, what the registers hold that the spec gives a reset
value, and where the homes are; then the statement about them.
-/

namespace Sys2Proof.Machine

/-! ### Numbers of system registers -/

/-- Register `off` of core `j` of a cluster (R211). -/
theorem sysRead_coreReg (s : State) (cluster : Nat) {j off : Nat} (hj : j < 8) (hoff : off < 0x1000) :
    sysRead s cluster (0x1000 * j + off) = BitVec.ofNat 64 (readCoreReg s (8 * cluster + j) off) := by
  have hrange : 0x1000 * j + off < 0x8000 := by omega
  have hcore : (0x1000 * j + off) / 0x1000 = j := by omega
  have hoffset : (0x1000 * j + off) % 0x1000 = off := by omega
  rw [sysRead, if_pos hrange, hcore, hoffset]

/-- CARSTAT of stop `j` of a cluster's Carousel (R276). -/
theorem sysRead_carstat (s : State) (cluster : Nat) {j : Nat} (hj : j < 8) :
    sysRead s cluster (0x8010 + j) = BitVec.ofNat 64 (readCarstat s cluster j) := by
  have hstop : (0x8010 + j) % 8 = j := by omega
  rw [sysRead, if_neg (by omega), if_neg (by omega), if_pos (by omega), hstop]

/-! ### Reset values -/

/-- Every unit of memory has its home at its origin (R343). -/
theorem homeOf_reset {pa : Nat} (hdevice : isHost pa = false) :
    homeOf State.reset pa = some (pa / 2 ^ 39 % 4096, pa / 2 ^ 37 % 4) :=
  if_neg (ne_true_of_eq_false hdevice)

/-- A core's THRCFG, THRSTAT and the POOLCFG of its queues 0 and 1 (R232, R233, R239). -/
theorem readCoreReg_reset (core : Nat) :
    readCoreReg State.reset core 0x200 = 512 + 2 * 2 ^ 16 + 4 * 2 ^ 22 + 1 * 2 ^ 28 + 2 ^ 31 ∧
    readCoreReg State.reset core 0x201 = 64 ∧
    readCoreReg State.reset core 0x210 = 256 + 1024 * 2 ^ 16 ∧
    readCoreReg State.reset core 0x211 = 128 + 512 * 2 ^ 16 := by
  have hfresh : State.reset.core core = CoreSt.fresh := rfl
  simp only [readCoreReg, hfresh]
  decide

/-- A Carousel stop has all its credit and no count (R276). -/
theorem readCarstat_reset (cluster n : Nat) : readCarstat State.reset cluster n = 16 + 16 * 2 ^ 5 := by
  have hfresh : (State.reset.ring cluster).stop n = CarStop.fresh := rfl
  simp only [readCarstat, hfresh]
  decide

/-- NOCCFG, QCFG and QSTAT of queue 0, MIGCFG, FABRATE, TETHCFG and TETHSTAT (R268, R281, R297, R321, R365). -/
theorem sysRead_reset_die : ∀ d < 4,
    sysRead State.reset (24 + d) 0x10000 = 32 + 20 * 2 ^ 8 + 4 * 2 ^ 16 ∧
    sysRead State.reset (24 + d) 0x12001 = 4 ∧
    sysRead State.reset (24 + d) 0x12004 = 0 ∧
    sysRead State.reset (24 + d) 0x13008 = 3 + 10 * 2 ^ 2 + 512 * 2 ^ 10 + 100 * 2 ^ 22 ∧
    sysRead State.reset (24 + d) 0x18000 = 4 + 2 * 2 ^ 6 ∧
    sysRead State.reset (24 + d) 0x18100 = 2 ∧
    sysRead State.reset (24 + d) 0x18101 = 4095 * 2 ^ 4 := by decide

/-! ### The statement -/

/-- Settles O6. That every core is stopped at reset is log entry 3, and no clause asks for it. -/
theorem resetState : Obligations.ResetState := by
  refine ⟨reset_memory_wf, fun pa => homeOf_reset, fun c _ j hj => ?core, sysRead_reset_die⟩
  case core =>
    obtain ⟨hthrcfg, hthrstat, hpool0, hpool1⟩ := readCoreReg_reset (8 * c + j)
    rw [sysRead_coreReg State.reset c hj (by decide), sysRead_coreReg State.reset c hj (by decide),
      sysRead_coreReg State.reset c hj (by decide), sysRead_coreReg State.reset c hj (by decide), sysRead_carstat State.reset c hj,
      hthrcfg, hthrstat, hpool0, hpool1, readCarstat_reset]
    exact ⟨rfl, rfl, rfl, rfl, rfl⟩

end Sys2Proof.Machine
end

section
/-!
PROOF. The commands of a queue (R321 to R326): what fetching a command does, the waits and the write of a command, the registers of a queue
and who reaches them; then the statement about them.
-/

namespace Sys2Proof.Machine

/-! ### Fetching -/

section
variable {q c : Nat} {s u : State}

/-- What CMD_WAIT does with the command that it fetches (R323). -/
theorem exec_cmdWait_taken (htake : takeCmd s q 2 = some (c, u)) :
    exec (.cmdWait q) s =
      if waitFieldsOk u q c then .next { u with inputs := u.inputs ++ [Instr.waitConditionMet q] } else .next (haltQueue u q 1) := by
  rw [exec_cmdWait, execCmdWait, htake]

/-- A SIGNAL with the fields of R323 tries to write as soon as it is fetched. -/
theorem exec_cmdSignal_taken (hfree : (s.queue q).cmd = none) (htake : takeCmd s q 3 = some (c, u)) (hfields : waitFieldsOk u q c = true) :
    exec (.cmdSignal q) s = trySignal u q c := by
  rw [exec_cmdSignal, execCmdSignal, hfree]
  dsimp only
  rw [htake]
  exact if_pos hfields

end

/-! ### WAIT and SIGNAL -/

section
variable {q c pa key : Nat} {s u v : State}

/-- A SIGNAL whose address has a place outside the origin directory writes there (R323). -/
theorem trySignal_write (hended : launchesOut s q = false)
    (hwalk : frontWalk s (bitsN c 207 192) (bitsN c 184 128) .store = (.ok (pa, key), u)) (hplace : inDirectory pa = false) :
    trySignal s q c =
      match frontWrite u pa key (toBytes 8 (bitsN c 127 64)) with
      | (none, t) => .next (startedQ t q)
      | (some n, t) => .next (setPhase t q (.sent n)) := by
  rw [trySignal, hended, hwalk]
  dsimp only
  rw [hplace]
  rfl

/-- A SIGNAL whose translation is refused (R323). -/
theorem trySignal_refused {r : Refused} (hended : launchesOut s q = false)
    (hwalk : frontWalk s (bitsN c 207 192) (bitsN c 184 128) .store = (.error r, u)) :
    trySignal s q c = .next (refuseCmd u q 1 (bitsN c 207 192) (bitsN c 184 128) r .store) := by
  rw [trySignal, hended, hwalk]
  rfl

/-- A WAIT compares the word that it has read (R323). -/
theorem exec_waitConditionMet_read {b : List Byte} {mark : Bool} (hcmd : (s.queue q).cmd = some (c, .fetched)) (htype : cmdType c = 2)
    (hwalk : frontWalk s (bitsN c 207 192) (bitsN c 184 128) .load = (.ok (pa, key), u)) (hplace : inDirectory pa = false)
    (hread : frontRead (if homedHere u pa then drainDie u 0 else u) pa key 8 = (some (b, mark), v)) :
    exec (.waitConditionMet q) s =
      if bitsN c 127 64 ≤ ofBytes b then .next (startedQ (acquireAll v) q) else .next (rdcDrop v 0 pa) := by
  rw [exec_waitConditionMet, execWaitConditionMet, hcmd]
  dsimp only
  rw [if_neg (not_not_intro htype), hwalk]
  dsimp only
  rw [hplace, if_neg Bool.false_ne_true, hread]

end

/-! ### The registers of a queue -/

/-- The firmware core reaches every queue (R321). -/
theorem queueShown_firmware (s : State) (q : Nat) : queueShown s ⟨none, q⟩ = true := rfl

/-- BAR0 of a virtual function shows no queue of another function (R422). -/
theorem queueShown_foreign (s : State) {q fn : Nat} (hvirtual : fn ≠ 16) (hforeign : q / 4 ≠ fn) : queueShown s ⟨some fn, q⟩ = false := by
  simp [queueShown, hvirtual, hforeign]

/-! ### The statement -/

/-- Settles O49. That a WAIT or SIGNAL of a misaligned word is BADCMD is log entry 33; which queues a function of the host reaches is
R422 and R423. -/
theorem queueSteps_hold : Obligations.QueueSteps := by
  refine ⟨?nop, ?launch, ?wait, ?signal, ?refused, ?badType, ?met, ?tail, ?skip, ?enable,
    fun s q => ⟨queueShown_firmware s q, fun fn => queueShown_foreign s⟩⟩
  case nop =>
    intro q s c u htake
    rw [exec_cmdNop, execCmdNop, htake]
  case launch =>
    intro q s c u htake
    rw [exec_cmdLaunch, execCmdLaunch, htake]
  case wait =>
    intro q s c u htake
    rw [exec_cmdWait_taken htake]
    exact ⟨fun hfields => if_pos hfields, fun hfields => if_neg (ne_true_of_eq_false hfields)⟩
  case signal =>
    intro q s c u v pa key hfree htake hfields hended hwalk hplace
    rw [exec_cmdSignal_taken hfree htake hfields, trySignal_write hended hwalk hplace]
    exact ⟨fun t hwrite => by rw [hwrite], fun n t hwrite => by rw [hwrite]⟩
  case refused =>
    intro q s c u r v hfree htake hfields hended hwalk
    rw [exec_cmdSignal_taken hfree htake hfields, trySignal_refused hended hwalk]
  case badType =>
    intro q s hfetch htype
    exact if_pos (by simp [hfetch, htype])
  case met =>
    intro q s c pa key u b m v hcmd htype hwalk hplace hread
    rw [exec_waitConditionMet_read hcmd htype hwalk hplace hread]
    exact ⟨fun hlarge => if_pos hlarge, fun hsmall => if_neg (Nat.not_le.mpr hsmall)⟩
  case tail =>
    intro q tail s
    exact ⟨fun hshown => if_pos hshown, fun hhidden => if_neg (ne_true_of_eq_false hhidden)⟩
  case skip =>
    intro q s
    exact ⟨fun hshown (hhalted : (s.queue q.q).halted = true) => if_neg (by simp [hshown, hhalted]), fun hhidden => if_pos (by simp [hhidden])⟩
  case enable =>
    intro q en s
    exact ⟨fun hshown => if_neg (by simp [hshown]), fun hhidden => if_pos (by simp [hhidden])⟩

end Sys2Proof.Machine
end

section
/-!
PROOF. A launch from its checks to its end (R325 to R332, R339, R359 to R362): its checks and its start, the placement of a cohort, the ends
of troupes, workgroups and launches, pre-emption and resume, and what system software asks for; then the statement about them.
-/

namespace Sys2Proof.Machine

/-! ### The checks of a launch -/

section
variable {q c pa key : Nat} {s u v : State} {p : List PhName}

/-- A launch whose waits are over is checked (R325, R326), also one whose measurement has been waiting. -/
theorem exec_launchStart_check
    (hcmd : (s.queue q).cmd = some (c, .fetched) ∨ ∃ far, (s.queue q).cmd = some (c, .measuring far)) (htype : cmdType c = 1)
    (hafter : bitsN c 31 31 = 1 → launchesOut s q = false) (hfree : ((liveCxs s).any fun x => x.ctx == lCtx c) = false) :
    exec (.launchStart q) s = checkLaunch s q c := by
  have htry : exec (.launchStart q) s = tryLaunch s q c := by
    rw [exec_launchStart, execLaunchStart]
    obtain hcmd | ⟨far, hcmd⟩ := hcmd <;> rw [hcmd]
  have hwait : ¬(bitsN c 31 31 = 1 ∧ launchesOut s q = true) := fun ⟨hbit, hout⟩ => ne_true_of_eq_false (hafter hbit) hout
  rw [htry, tryLaunch, if_neg (not_not_intro htype), if_neg hwait, if_neg (ne_true_of_eq_false hfree)]

/-- A launch that one of checks 1 to 8 fails is refused with that check (R325). -/
theorem checkLaunch_fails (haligned : lDone c % 64 = 0) (hfails : launchFails s q c ≠ 0) :
    checkLaunch s q c = refuseLaunch s q c (launchFails s q c) := by
  rw [checkLaunch, if_neg (not_not_intro haligned)]
  exact if_pos hfails

/-- A refused launch leaves a record with STATUS 1 and the check, and the queue moves on (R325, R332). -/
theorem refuseLaunch_record (check : Nat) (hwalk : frontWalk s (lAsid c) (lDone c) .store = (.ok (pa, key), u))
    (hplace : inDirectory pa = false) :
    refuseLaunch s q c check = .next (startedQ (putRecord u (lAsid c) pa key
      (doneRecord (BitVec.ofNat 64 (bitsN c 1151 1088)) 1 check ⟨0, 0, 0, 0⟩ 0 0)) q) := by
  rw [refuseLaunch, hwalk]
  exact if_neg (ne_true_of_eq_false hplace)

/-- A launch that passes checks 1 to 8 has its phasers created (check 9 of R325). -/
theorem checkLaunch_phasers (haligned : lDone c % 64 = 0) (hpasses : launchFails s q c = 0)
    (hwalk : frontWalk s (lAsid c) (lDone c) .store = (.ok (pa, key), u)) (hplace : inDirectory pa = false) :
    checkLaunch s q c =
      let p := createPhreqs c [0, 1, 2, 3] u
      if p.2.1 then refuseLaunch (p.1.foldl destroyPhreq p.2.2) q c 9
      else match startLaunch p.2.2 q c p.1 with
        | .next t =>
          if (t.queue q).cmd = some (c, .placing) then .next t
          else .next ({ u with fabric := t.fabric }.setQueue q { u.queue q with cmd := (t.queue q).cmd })
        | .fault e => .fault e
        | .refused e => .refused e := by
  rw [checkLaunch, if_neg (not_not_intro haligned)]
  dsimp only
  rw [if_neg (not_not_intro hpasses), hwalk]
  exact if_neg (ne_true_of_eq_false hplace)

/-- A launch of which a phaser is refused (check 9 of R325): the phasers that it has created go. -/
theorem checkLaunch_phaserRefused (haligned : lDone c % 64 = 0) (hpasses : launchFails s q c = 0)
    (hwalk : frontWalk s (lAsid c) (lDone c) .store = (.ok (pa, key), u)) (hplace : inDirectory pa = false)
    (hcreate : createPhreqs c [0, 1, 2, 3] u = (p, true, v)) :
    checkLaunch s q c = refuseLaunch (p.foldl destroyPhreq v) q c 9 := by
  rw [checkLaunch_phasers haligned hpasses hwalk hplace, hcreate]
  rfl

/-- A launch that passes every check and that has set up its context starts (R326). -/
theorem checkLaunch_started {t : State} (haligned : lDone c % 64 = 0) (hpasses : launchFails s q c = 0)
    (hwalk : frontWalk s (lAsid c) (lDone c) .store = (.ok (pa, key), u)) (hplace : inDirectory pa = false)
    (hcreate : createPhreqs c [0, 1, 2, 3] u = (p, false, v)) (hstart : startLaunch v q c p = .next t)
    (hcmd : (t.queue q).cmd = some (c, .placing)) :
    checkLaunch s q c = .next t := by
  rw [checkLaunch_phasers haligned hpasses hwalk hplace, hcreate]
  dsimp only
  rw [if_neg Bool.false_ne_true, hstart]
  exact if_pos hcmd

end

/-! ### The start of a launch -/

/-- A package in which a context has just begun to live, with the seeds in its lists and its workgroups still to be placed (R326, R338,
R340). -/
def contextBegun (s : State) (q : Nat) (x : Context) (seeds : List Nat) : State :=
  let y := pushSeeds { s with cxs := s.cxs ++ [x], free := s.free + 192, launches := s.launches + 1 } x seeds
  setPhase (if x.cen then joinCurtain y x.pcurt else y) q .placing

/-- A launch sets its context up once everything that it reads is there (R326 to R328, R410). -/
theorem startLaunch_gathered {q c : Nat} {s s1 s2 s3 s4 : State} {p : List PhName} {ttab uregs seeds : List Byte}
    {got : List (Nat × List Byte)}
    (httab : frontGather (lAsid c) (linePieces (lTtab c) (64 * lNh c)) s = (some ttab, s1))
    (huregs : frontGather (lAsid c) (linePieces (lUregp c) (4 * lUregs c)) s1 = (some uregs, s2))
    (hseeds : frontGather (lAsid c) (linePieces (lSeedp c) (32 * lSeedn c)) s2 = (some seeds, s3)) :
    let units := codeUnits s3 (lAsid c) 4096 (lCode c / 65536 * 65536)
    gatherCode (farCode s3 units) (measuredFar s3 q) s3 = (got, s4) → (farCode s3 units).length ≤ got.length →
    let x := newContext s4 q c ttab p units (measure s4 c ttab uregs seeds units got)
    let z := contextBegun s4 q x ((groupsOf 32 (lSeedn c) seeds).map ofBytes)
    startLaunch s q c p = .next { z with inputs := z.inputs ++ x.toPlace.map fun p => Instr.workgroupPlace x.ctx p.1 } := by
  intro units hcode hall x z
  rw [startLaunch]
  dsimp only
  rw [httab]
  dsimp only
  rw [huregs]
  dsimp only
  rw [hseeds]
  dsimp only
  rw [hcode]
  exact if_neg (Nat.not_lt.mpr hall)

/-! ### Placement -/

/-- A core with room has not been disabled. -/
theorem hasRoom_enabled {s : State} {x : Context} {core : Nat} (hroom : hasRoom s x core = true) : (s.core core).disabled = false := by
  simp only [hasRoom, Bool.and_eq_true, Bool.not_eq_true'] at hroom
  exact hroom.1

/-- A cohort whose cores all have room is placed (R328, R329). -/
theorem exec_workgroupPlace_room {ctx wg core cohort stage : Nat} {s u : State} {x : Context} {b : List Byte} (hctx : getCx s ctx = some x)
    (hfind : (x.toPlace.find? fun p => p.1 == wg) = some (wg, core, cohort, stage)) (hending : x.ending = false)
    (hroom : ∀ p ∈ x.toPlace.filter fun p => p.2.2.1 == cohort, hasRoom s x p.2.1 = true)
    (hgather : frontGather x.asid (linePieces x.uregp.toNat (4 * x.uregs)) s = (some b, u)) :
    exec (.workgroupPlace ctx wg) s = .next (launchBegun ((x.toPlace.filter fun p => p.2.2.1 == cohort).foldl (placeMember x b)
      (putCx u { x with toPlace := x.toPlace.filter fun p => p.2.2.1 != cohort })) x) := by
  have hcores : ∀ k ∈ (x.toPlace.filter fun p => p.2.2.1 == cohort).map fun p => p.2.1, hasRoom s x k = true :=
    List.forall_mem_map.mpr hroom
  rw [exec_workgroupPlace, execWorkgroupPlace, hctx]
  dsimp only
  rw [hfind]
  dsimp only
  rw [if_neg, if_neg, hgather]
  · rw [List.any_eq_true]
    rintro ⟨k, hk, hfull⟩
    simp [hcores k hk] at hfull
  · rw [hending, Bool.or_false, List.any_eq_true]
    rintro ⟨k, hk, hdisabled⟩
    exact ne_true_of_eq_false (hasRoom_enabled (hcores k hk)) hdisabled

/-! ### Ends -/

/-- A troupe without live lanes whose memory words have completed ends (R109). -/
theorem exec_troupeEnd_idle {c w t : Nat} {s : State} {th : Thread} (hthread : s.thread (.troupe c w t) = some th)
    (hfailed : th.failed = false) (hlive : th.live = 0) (hrunning : th.status = .running) (hmemory : memoryDone th = true) :
    exec (.troupeEnd c w t) s =
      let u := countEnd (s.setThread (.troupe c w t) fun th => { th with status := .ended, pend := [] }) c w t
      .next { u with inputs := u.inputs ++ [.workgroupEnd c w] } := by
  rw [exec_troupeEnd, execTroupeEnd, hthread]
  dsimp only
  rw [if_neg (ne_true_of_eq_false hfailed), if_pos (by simp [hlive, hrunning, hmemory])]

/-- A workgroup that meets the conditions of R331 ends, and gives up its core with its cohort. -/
theorem exec_workgroupEnd_done {c w : Nat} {s : State} {g0 g : Workgroup} (hfound : getWg s c w = some g0)
    (hcounted : getWg (countFailed s g0) c w = some g) (hopen : g.ended = false) (hdone : wgDone (countFailed s g0) g = true) :
    exec (.workgroupEnd c w) s =
      let u := putWg (dropHandles (countFailed s g0) g)
        { g with ended := true, phs := [], forkq := [], l1 := [], l1Due := [], l1Own := [] }
      let v := match g.core with
        | none => u
        | some core =>
          { u.setCore core { u.core core with owner := if (u.core core).owner = some (c, w) then none else (u.core core).owner } with
            inputs := u.inputs ++ [.arrayOwnershipChange core] }
      let t := roomAgain (freeCohort v c g.cohort)
      .next { t with inputs := t.inputs ++ [.launchEnd c] } := by
  rw [exec_workgroupEnd, execWorkgroupEnd, hfound]
  dsimp only
  rw [hcounted]
  dsimp only
  rw [if_neg (by simp [hopen, hdone])]
  rfl

/-- The cores of a cohort are given up once all its members have been placed and have ended (R224). -/
theorem freeCohort_ended {s : State} {c k : Nat} (hplaced : ((getCx s c).any fun x => x.toPlace.any fun p => p.2.2.1 == k) = false)
    (hended : ((allWgs s).any fun g => g.ctx == c && g.cohort == k && !g.ended) = false) :
    freeCohort s c k = (allWgs s).foldl (fun s g =>
      if g.ctx == c && g.cohort == k then putWg s { g with core := none, frames := none } else s) s := by
  rw [freeCohort]
  dsimp only
  rw [hplaced, hended]
  rfl

/-- A launch without a workgroup left writes its completion record and ends (R331, R332). -/
theorem exec_launchEnd_record {c pa key : Nat} {s u : State} {x : Context} (hctx : getCx s c = some x) (hplaced : x.toPlace = [])
    (hended : ((allWgs s).any fun g => g.ctx == c && !g.ended) = false) (hwait : x.doneWait = none) (hdeclined : x.declined = false) :
    let s1 := launchBegun s x
    let y := { x with phreqs := [], key := 0, codeLo := 0, codeHi := 0, codeUnits := [] }
    frontWalk (putCx (((getCx s1 c).getD y).phreqs.foldl destroyPhreq s1) y) x.asid x.doneaddr.toNat .store = (.ok (pa, key), u) →
    inDirectory pa = false →
      exec (.launchEnd c) s = .next (afterLaunch (putRecord (forgetContext u c) x.asid pa key y.record)) := by
  intro s1 y hwalk hplace
  rw [exec_launchEnd, execLaunchEnd, hctx]
  dsimp only
  rw [if_neg (by simp [hplaced, hended, hwait]), if_neg (ne_true_of_eq_false hdeclined), hwalk]
  exact if_neg (ne_true_of_eq_false hplace)

/-! ### Pre-emption and resume -/

/-- The members of a cohort that hold a core. -/
def residents (s : State) (ctx cohort : Nat) : List Workgroup := (cohortOf s ctx cohort).filter fun g => g.core.isSome

/-- A context of which a cohort is being swapped out. -/
def Context.preempts (x : Context) (cohort : Nat) : Context :=
  { x with preempting := if x.preempting.contains cohort then x.preempting else x.preempting ++ [cohort] }

/-- Issue stops in every member of a cohort, which is being swapped out (R359). -/
def cohortStopped (s : State) (x : Context) (l : List Workgroup) (cohort : Nat) : State :=
  putCx (l.foldl (fun s g => putWg s { g with stopping := true }) s) (x.preempts cohort)

/-- Pre-emption of a cohort with nothing on an array (R359): its forwarding entries first, then what its cores still have to apply, then
the swap. -/
theorem exec_preemptCohort_stopped {ctx cohort : Nat} {s : State} {x : Context} (hctx : getCx s ctx = some x) (hending : x.ending = false)
    (hresident : residents s ctx cohort ≠ []) (hopen : ((residents s ctx cohort).all fun g => g.ended) = false)
    (harray : (residents s ctx cohort).any onArray = false) :
    let u := cohortStopped s x (residents s ctx cohort) cohort
    let n := ((allWgs u).map fun g => g.outOrder).foldl max 0 + 1
    let v := (cohortOf u ctx cohort).foldl (swapOut n) u
    exec (.preemptCohort ctx cohort) s =
      if (residents s ctx cohort).any fun g => lookupBy (g.ctx, g.wgl) u.forward != some 1 then .next (setMoving u (residents s ctx cohort))
      else if (residents s ctx cohort).any (inboundFor u) then .next u
      else .next (roomAgain (putCx { v with inputs := v.inputs ++ sendsDue v }
        { x.preempts cohort with preempting := (x.preempts cohort).preempting.filter (· != cohort) })) := by
  intro u n v
  rw [exec_preemptCohort, execPreemptCohort, hctx]
  dsimp only
  rw [if_neg]
  · exact if_neg (ne_true_of_eq_false harray)
  · change ¬((residents s ctx cohort).isEmpty || x.ending || (residents s ctx cohort).all fun g => g.ended) = true
    simp [hresident, hending, hopen]

/-- A cohort that is swapped out resumes on distinct cores of one cluster that take it (R361). -/
theorem exec_resumeCohort_room {ctx cohort : Nat} {cores : List Nat} {s : State} {x : Context} (hctx : getCx s ctx = some x)
    (hlength : (cohortOf s ctx cohort).length = cores.length) (hdistinct : cores.eraseDups = cores)
    (hcluster : ∀ k ∈ cores, k / 8 = cores.headD 0 / 8) (hout : ∀ g ∈ cohortOf s ctx cohort, g.core = none)
    (hopen : ∃ g ∈ cohortOf s ctx cohort, g.ended = false) (hending : x.ending = false) (hroom : ∀ k ∈ cores, canResume s x k = true) :
    let u := ((cohortOf s ctx cohort).zip cores).foldl swapIn s
    exec (.resumeCohort ctx cohort cores) s = .next { u with inputs := u.inputs ++ sendsDue u } := by
  rw [exec_resumeCohort, execResumeCohort, hctx]
  refine if_neg ?_
  simpa [hlength, hdistinct, hending] using And.intro (And.intro (And.intro hcluster hout) hopen) hroom

/-- A page with a backing that is touched is pinned, where the workgroup keeps pages (R19, R361). -/
theorem exec_pageRefill_backed {ctx wg page : Nat} {s : State} {g : Workgroup} (hfound : getWg s ctx wg = some g)
    (hbacked : page < backedPages g) :
    exec (.pageRefill ctx wg page) s = .next (if g.pages = [] then s else putWg s (g.touch s.clock [page])) := by
  rw [exec_pageRefill, execPageRefill, hfound]
  dsimp only
  rw [if_pos (decide_eq_true hbacked), touchPages, hfound]
  simp only [List.isEmpty_iff]

/-! ### System software -/

/-- System software pre-empts every resident cohort of a context that may be pre-empted (R357, R359). -/
theorem exec_ctxctlPreempt_asks {ctx : Nat} {s : State} {x : Context} (hctx : getCx s ctx = some x) (hpre : x.nopre = false) :
    ∃ t, exec (.ctxctlPreempt ctx) s = .next t ∧
      ∀ g ∈ allWgs s, g.ctx = ctx → g.core.isSome = true → g.ended = false → Instr.preemptCohort ctx g.cohort ∈ t.inputs := by
  rw [exec_ctxctlPreempt, execCtxctlPreempt, hctx]
  dsimp only
  rw [if_neg (ne_true_of_eq_false hpre)]
  refine ⟨_, rfl, fun g hg hmine hresident hopen => List.mem_append_right _ (List.mem_map.mpr ⟨g.cohort, ?_, rfl⟩)⟩
  rw [List.mem_eraseDups]
  exact List.mem_map.mpr ⟨g, List.mem_filter.mpr ⟨hg, by simp [hmine, hresident, hopen]⟩, rfl⟩

/-- A context that is being ended and of which nothing is on its way ends (R362). -/
theorem exec_ctxctlEnd_idle {ctx : Nat} {s : State} {x : Context} (hctx : getCx s ctx = some x) (hending : x.ending = true)
    (hidle : contextBusy s ctx = false) :
    let u := roomAgain (((allWgs s).filter fun g => g.ctx == ctx).foldl endMember s)
    exec (.ctxctlEnd ctx) s = .next { u with inputs := u.inputs ++ [.launchEnd ctx] } := by
  rw [exec_ctxctlEnd, execCtxctlEnd, hctx]
  dsimp only
  rw [hending, if_pos rfl, if_neg (ne_true_of_eq_false hidle)]

/-! ### The statement -/

/-- Settles O50. That a launch which checks 1 to 8 refuse writes its record through its own ASID is log entry 33. -/
theorem launchSteps : Obligations.LaunchSteps := by
  refine ⟨?start, fun ctx wg s x core cohort stage b u => exec_workgroupPlace_room, fun x b s wg core cohort stage => rfl,
    fun c w t s th => exec_troupeEnd_idle, fun c w s g0 g => exec_workgroupEnd_done, fun s c k => freeCohort_ended, ?launchEnd, ?preempt,
    ?resume, fun ctx wg page s g => exec_pageRefill_backed, fun ctx s x => exec_ctxctlPreempt_asks,
    fun ctx s x => exec_ctxctlEnd_idle⟩
  case start =>
    intro q s c hcmd htype hafter hfree haligned
    rw [exec_launchStart_check hcmd htype hafter hfree]
    refine ⟨fun pa key u hfails hwalk hplace => ?_, fun pa key u p v hpasses hwalk hplace => ⟨?_, ?_⟩⟩
    · rw [checkLaunch_fails haligned hfails, refuseLaunch_record _ hwalk hplace]
    · intro hcreate at_ k w hrecord hplace'
      rw [checkLaunch_phaserRefused haligned hpasses hwalk hplace hcreate, refuseLaunch_record 9 hrecord hplace']
    · intro hcreate ttab uregs seeds s1 s2 s3 got s4 httab huregs hseeds units hcode hall x y z hplacing
      exact checkLaunch_started haligned hpasses hwalk hplace hcreate (startLaunch_gathered httab huregs hseeds hcode hall) hplacing
  case launchEnd =>
    intro c s x pa key u hctx hplaced hended hwait hdeclined
    exact exec_launchEnd_record hctx hplaced hended hwait hdeclined
  case preempt =>
    intro ctx cohort s x hctx hending l hresident hopen harray y u
    have hexec := exec_preemptCohort_stopped hctx hending hresident hopen harray
    refine ⟨fun hforward => hexec.trans (if_pos hforward), fun hmoving hinbound => hexec.trans ?_⟩
    exact (if_neg (ne_true_of_eq_false hmoving)).trans (if_neg (ne_true_of_eq_false hinbound))
  case resume =>
    intro ctx cohort cores s x hctx l hlength hdistinct hcluster hout hopen hending hroom
    exact exec_resumeCohort_room hctx hlength hdistinct hcluster hout hopen hending hroom

end Sys2Proof.Machine
end

section
/-!
PROOF. Faults, walks and page homes (R346, R355 to R357, R364, R365): what a move to a new home leaves alone and where the unit is
homed behind it, when the end of an epoch moves a unit; then the statement about them.
-/

namespace Sys2Proof.Machine

/-! ### A move to a new home -/

/-- A thrash hold changes the holds, the count of pins and what the cores count (R365), and nothing else. -/
theorem thrashHold_keeps {γ : Type} {f : State → γ} (hcore : ∀ s n x, f (s.setCore n x) = f s)
    (htrans : ∀ s hold pins, f { s with trans := { s.trans with hold := hold, pins := pins } } = f s)
    (s : State) (u : Nat) (times : List (Nat × Nat)) (who home : Nat) : f (thrashHold s u times who home) = f s := by
  unfold thrashHold
  split
  · dsimp only
    split
    · exact (foldl_keeps _ (fun _ _ _ => hcore ..) _).trans (htrans ..)
    · rfl
  · rfl

/-- A unit that moves has its new home in the table of homes, where 0 stands for its origin (R363, R364). -/
theorem moveUnit_homes (u who frame core : Nat) (s : State) :
    (moveUnit u who frame core s).trans.homes =
      tset 0 s.trans.homes u (if who = 4 * (u * 65536 / 2 ^ 39 % 4096) + u * 65536 / 2 ^ 37 % 4 then 0 else who + 1) := by
  unfold moveUnit
  extract_lets old origin times t1 t2 s1 s2 ds s3
  have hswapped : s1.trans.homes = tset 0 s.trans.homes u (if who = origin then 0 else who + 1) := rfl
  have hbrought : s2.trans.homes = s1.trans.homes := by
    simp only [s2]
    split <;> rfl
  have hdropped : s3.trans.homes = s2.trans.homes := by
    refine foldl_keeps (f := fun s : State => s.trans.homes) ds ?_ s2
    exact fun _ _ _ => rfl
  rw [thrashHold_keeps (f := fun s => s.trans.homes) (fun _ _ _ => rfl) (fun _ _ _ => rfl), hdropped, hbrought, hswapped]

/-- A unit that moves is homed at its new home (R364). -/
theorem unitHome_moveUnit (u who frame core : Nat) (s : State) : unitHome (moveUnit u who frame core s) u = who := by
  unfold unitHome
  rw [moveUnit_homes, tget_tset_self]
  by_cases horigin : who = 4 * (u * 65536 / 2 ^ 39 % 4096) + u * 65536 / 2 ^ 37 % 4
  · rw [if_pos horigin]
    exact horigin.symm
  · rw [if_neg horigin]

/-- A move changes no byte of memory but those of a unit that comes from another package (R249, R364). -/
theorem moveUnit_mem {u who : Nat} {s : State} (frame core : Nat) (hlocal : unitHome s u / 4 = s.pkg ∨ who / 4 ≠ s.pkg) :
    (moveUnit u who frame core s).mem = s.mem := by
  unfold moveUnit
  extract_lets old origin times t1 t2 s1 s2 ds s3
  have hbrought : s2.mem = s.mem := by
    simp only [s2]
    split
    · next hbrings =>
      simp only [Bool.and_eq_true, decide_eq_true_eq, bne_iff_ne] at hbrings
      obtain ⟨harrives, hforeign⟩ := hbrings
      obtain hold | hnew := hlocal
      · exact absurd hold hforeign
      · exact absurd harrives hnew
    · rfl
  have hdropped : s3.mem = s2.mem := by
    refine foldl_keeps (f := State.mem) ds ?_ s2
    exact fun _ _ _ => rfl
  rw [thrashHold_keeps (f := State.mem) (fun _ _ _ => rfl) (fun _ _ _ => rfl), hdropped, hbrought]

/-! ### The end of an epoch -/

/-- A home at the end of an epoch, which counts afresh (R364). -/
def epochEnded (s : State) (u : Nat) : State :=
  { s with trans := { s.trans with counts := tset [] s.trans.counts u [], askers := tset [] s.trans.askers u [] } }

/-- A unit of this package that lies in no save area, is not pinned, does not move and is not held moves to the candidate where there is
a frame for it (R358, R364, R365). -/
theorem exec_migrationEpochEnd_moves {u who f : Nat} {s v : State} (hcandidate : migCandidate s u = some who)
    (hmine : unitHome s u / 4 = s.pkg) (hsave : inSaveAreas s u = false) (hpinned : tget false s.trans.pinned u = false)
    (hmoving : (s.trans.moving.any fun m => m.1 == u) = false) (hhold : tget 0 s.trans.hold u ≤ s.podTime)
    (hframe : takeFrame (epochEnded s u) who = some (f, v)) :
    exec (.migrationEpochEnd u) s = .next { v with
      trans := { v.trans with moving := v.trans.moving ++ [(u, who, f, coreFor s u who)] }, inputs := v.inputs ++ [.pageHomeMove u] } := by
  have hmay : (!(unitHome s u / 4 == s.pkg) || inSaveAreas s u || tget false s.trans.pinned u ||
      s.trans.moving.any fun m => m.1 == u) = false := by
    rw [beq_iff_eq.mpr hmine, hsave, hpinned, hmoving]
    rfl
  rw [exec_migrationEpochEnd, execMigrationEpochEnd, hcandidate]
  refine (if_neg (ne_true_of_eq_false hmay)).trans ((if_neg (Nat.not_lt.mpr hhold)).trans ?_)
  rw [epochEnded] at hframe
  dsimp only
  rw [hframe]
  rfl

/-! ### The statement -/

/-- Settles O52. That a home move is one step, behind the writes that the dies owe, is log entry 35. -/
theorem pagingSteps : Obligations.PagingSteps := by
  refine ⟨fun id s => ⟨rfl, rfl⟩, fun head s => rfl, fun core asid va kind s => rfl, ?epoch, ?move, ?home, ?far, ?hold, ?frames, ?pins⟩
  case epoch =>
    intro u s who f v
    exact exec_migrationEpochEnd_moves
  case move =>
    intro u s m hfind
    rw [exec_pageHomeMove, execPageHomeMove, hfind]
  case home => exact fun u who frame core s => ⟨unitHome_moveUnit .., moveUnit_mem frame core⟩
  case far =>
    intro u s hfind hfar
    rw [exec_pageHomeMove, execPageHomeMove, hfind]
    exact if_neg hfar
  case hold =>
    intro u s hover
    exact if_pos hover
  case frames =>
    intro die frame s hroom
    exact ⟨_, if_pos hroom, tget_tset_self ..⟩
  case pins =>
    exact fun u s => ⟨⟨_, rfl, tget_tset_self false s.trans.pinned u true⟩, ⟨_, rfl, tget_tset_self false s.trans.pinned u false⟩⟩

end Sys2Proof.Machine
end

section
/-!
PROOF. Keys, boot and life cycle, power and heat (R405, R412, R415, R416, R420 to R422): which keys a device step draws or erases, when a
transition command is carried out, where the ceiling goes in a microsecond; then the statement about them.
-/

namespace Sys2Proof.Machine

/-! ### Keys -/

/-- Indices 1 to 2,047 are those of the allocated keys (R412). -/
theorem key_in_range {key : Nat} (hlow : 0 < key) (hhigh : key ≤ 2047) : ¬(key = 0 ∨ 2047 < key) := by omega

/-- A key pair is drawn for an index (R351, R412). -/
theorem exec_keyAllocate_draws {key : Nat} (asid : Nat) (s : State) (hlow : 0 < key) (hhigh : key ≤ 2047) :
    exec (.keyAllocate asid key) s = .next { (drawPair s).2 with keys := tset 0 (drawPair s).2.keys key (drawPair s).1 } :=
  if_neg (key_in_range hlow hhigh)

/-- An erased key reads 0 (R412). -/
theorem exec_keyErase_zero {key : Nat} (s : State) (hlow : 0 < key) (hhigh : key ≤ 2047) :
    ∃ t, exec (.keyErase key) s = .next t ∧ tget 0 t.keys key = 0 := by
  rw [exec_keyErase, execKeyErase, if_neg (key_in_range hlow hhigh)]
  extract_lets t u
  refine ⟨_, rfl, ?_⟩
  simp only [tget_tset_self]

/-! ### Life cycle -/

/-- A transition command is carried out where it verifies, is a move of the life cycle and, into or out of DEBUG, names the package
(R415). -/
theorem lifeCommand_done_iff (s : State) (cmd : List Byte) :
    (lifeCommand s cmd).1 = true ↔ Config.rootVerifies cmd = true ∧
      lifeMoves.contains (s.trust.lc, Config.transitionTarget cmd) = true ∧
      (Config.transitionTarget cmd = 2 ∨ s.trust.lc = 2 → Config.transitionNames cmd s.pkg = true) := by
  have hnamed : ((Config.transitionTarget cmd != 2 && s.trust.lc != 2) || Config.transitionNames cmd s.pkg) = true ↔
      (Config.transitionTarget cmd = 2 ∨ s.trust.lc = 2 → Config.transitionNames cmd s.pkg = true) := by
    simp only [Bool.or_eq_true, Bool.and_eq_true, bne_iff_ne]
    tauto
  rw [← hnamed]
  unfold lifeCommand
  extract_lets n named
  split
  · next hdone =>
    simp only [Bool.and_eq_true] at hdone
    obtain ⟨⟨hverifies, hnames⟩, hmove⟩ := hdone
    exact ⟨fun _ => ⟨hverifies, hmove, hnames⟩, fun _ => rfl⟩
  · next hfails =>
    simp only [Bool.and_eq_true] at hfails
    exact ⟨nofun, fun ⟨hverifies, hmove, hnames⟩ => absurd ⟨⟨hverifies, hnames⟩, hmove⟩ hfails⟩

/-- A transition command that is not carried out is logged, and nothing else changes (R415). -/
theorem lifeCommand_fails {s : State} {cmd : List Byte} (h : (lifeCommand s cmd).1 = false) :
    (lifeCommand s cmd).2 = logFault s 6 1 0 0 0 := by
  revert h
  unfold lifeCommand
  extract_lets n named
  split
  · exact nofun
  · exact fun _ => rfl

/-! ### The power ceiling -/

section
variable {iest : Nat} {waiting : Bool} {p : Power}

/-- In HOT the ceiling is at most 1,500 A (R420). -/
theorem powerMax_hot (hhot : p.hot = true) : powerMax p ≤ 1500 := by
  simp only [powerMax, hhot, if_true]
  exact Nat.min_le_right ..

/-- Outside HOT, or where it is at most 1,500 A, the ceiling goes where shaped work and the estimate take it (R416). -/
theorem powerTick_ceiling_free (hfree : p.hot = false ∨ p.ceiling ≤ 1500) :
    (powerTick iest waiting p).ceiling =
      if waiting && decide (p.ceiling < powerMax p) then min (powerMax p) (p.ceiling + bitsN p.cfg.toNat 8 0)
      else if iest < p.ceiling then (if p.cfg.getLsbD 9 then max iest (p.ceiling - bitsN p.cfg.toNat 8 0) else iest)
      else p.ceiling := by
  have hcool : ¬(p.hot && decide (1500 < p.ceiling)) = true := by
    simp only [Bool.and_eq_true, decide_eq_true_eq]
    rintro ⟨hhot, habove⟩
    obtain hcool | hbelow := hfree
    · exact ne_true_of_eq_false hcool hhot
    · omega
  exact if_neg hcool

/-- The ceiling rises while shaped work waits below the limit (R416); the limit of HOT keeps it below 1,500 A by itself. -/
theorem powerTick_rises (hwaiting : waiting = true) (hbelow : p.ceiling < powerMax p) :
    (powerTick iest waiting p).ceiling = min (powerMax p) (p.ceiling + bitsN p.cfg.toNat 8 0) := by
  have hfree : p.hot = false ∨ p.ceiling ≤ 1500 := by
    cases hhot : p.hot with
    | false => exact .inl rfl
    | true => exact .inr (by have := powerMax_hot hhot; omega)
  rw [powerTick_ceiling_free hfree]
  exact if_pos (by simp [hwaiting, hbelow])

/-- Where no shaped work waits, and at the limit, the ceiling does not rise (R416). -/
theorem not_rising (h : waiting = false ∨ powerMax p ≤ p.ceiling) : ¬(waiting && decide (p.ceiling < powerMax p)) = true := by
  simp only [Bool.and_eq_true, decide_eq_true_eq]
  rintro ⟨hwaiting, hbelow⟩
  obtain hidle | hlimit := h
  · exact ne_true_of_eq_false hidle hwaiting
  · omega

/-- The ceiling falls toward the estimate, by the slew rate where PWRCFG says so (R416, R421). -/
theorem powerTick_falls (hhot : p.hot = false) (hidle : waiting = false ∨ powerMax p ≤ p.ceiling) (habove : iest < p.ceiling) :
    (powerTick iest waiting p).ceiling =
      if p.cfg.getLsbD 9 then max iest (p.ceiling - bitsN p.cfg.toNat 8 0) else iest := by
  rw [powerTick_ceiling_free (.inl hhot), if_neg (not_rising hidle), if_pos habove]

/-- The ceiling stays at or below the estimate (R416). -/
theorem powerTick_stays (hidle : waiting = false ∨ powerMax p ≤ p.ceiling) (hbelow : p.ceiling ≤ iest)
    (hfree : p.hot = false ∨ p.ceiling ≤ 1500) : (powerTick iest waiting p).ceiling = p.ceiling := by
  rw [powerTick_ceiling_free hfree, if_neg (not_rising hidle), if_neg (Nat.not_lt.mpr hbelow)]

/-- In HOT the ceiling falls to 1,500 A at least by the slew rate (R420). -/
theorem powerTick_hot (hhot : p.hot = true) (habove : 1500 < p.ceiling) :
    (powerTick iest waiting p).ceiling ≤ max 1500 (p.ceiling - bitsN p.cfg.toNat 8 0) := by
  have hforced : (p.hot && decide (1500 < p.ceiling)) = true := by simp [hhot, habove]
  simp only [powerTick, hforced, if_true]
  exact Nat.min_le_right ..

end

/-! ### The statement -/

/-- Settles O58. That the ceiling moves microsecond by microsecond and rises whenever work waits is log entry 42, and that a microsecond
counts in SHAPED by the fraction at its start is log entry 51. -/
theorem trustAndPowerSteps : Obligations.TrustAndPowerSteps := by
  refine ⟨?allocate, fun key s => exec_keyErase_zero s, fun image s => rfl, ?boot,
    fun cmd s => ⟨rfl, lifeCommand_done_iff s cmd, lifeCommand_fails⟩, fun us iest waiting s => rfl,
    fun iest waiting p => ⟨rfl, fun n => rfl⟩,
    fun iest waiting p => ⟨powerTick_rises, powerTick_falls, powerTick_stays, powerTick_hot, rfl⟩, ?enter, ?lift, ?tdi⟩
  case allocate =>
    intro asid key s hlow hhigh
    exact ⟨_, exec_keyAllocate_draws asid s hlow hhigh, tget_tset_self .., fun k hk => tget_tset_ne _ _ _ _ _ hk⟩
  case boot => exact fun s => ⟨tget_tset_self .., rfl⟩
  case enter =>
    intro die celsius s habove hcool
    exact if_pos (by simp [habove, hcool])
  case lift =>
    intro die celsius s hbelow hhot
    exact if_pos (by simp [hbelow, hhot])
  case tdi =>
    intro fn x s hfn
    exact if_pos hfn

end Sys2Proof.Machine
end

section
/-!
PROOF. Ports (R382 to R387, R396, R399, R401): how a training attempt ends, what a width change and a lost lane leave of a port, what is
replayed; then the statement about them.
-/

namespace Sys2Proof.Machine

/-! ### Reading a port back -/

/-- A port reads as it was set. -/
@[simp] theorem State.port_setFab_setPort (s : State) (n : Nat) (x : Port) : (s.setFab (s.fabric.setPort n x)).fabric.port n = x :=
  Fabric.port_setPort ..

/-- A port that trains again stands in TRAIN without active lanes (R382). -/
theorem port_retrainPort (s : State) (n : Nat) (x : Port) : (retrainPort s n x).fabric.port n = { x with st := .train, active := 0 } :=
  State.port_setFab_setPort ..

/-- A replay is counted where the link retry buffer holds a flit (R386); the two spellings of that agree. -/
theorem lreplay_isEmpty (x : Port) :
    (if x.flits.isEmpty then x.lreplay else bump12 x.lreplay) = if x.flits = [] then x.lreplay else bump12 x.lreplay := by
  simp only [List.isEmpty_iff]

/-! ### Training -/

/-- A port that a training attempt has brought up with some usable lanes (R383, R384). -/
def Port.trained (x : Port) (lanes : BitVec 4) : Port :=
  { x with st := .up, active := activeOf x.pwidth lanes, tries := 0, mismatch := false, lanes := lanes, planned := false, fails := 0
           asked := false, lreplay := if x.flits = [] then x.lreplay else bump12 x.lreplay }

section
variable {n : Nat} {digest : Word} {locked : BitVec 4} {s : State}

/-- A training attempt whose digest agrees brings the port up (R383, R384). -/
theorem exec_trainingAttemptEnd_up (htraining : (s.fabric.port n).training = true) (hretired : (s.fabric.port n).retiredLanes ≠ 0xf) :
    let x := s.fabric.port n
    let lanes := locked &&& x.lmask &&& ~~~x.retiredLanes
    let own := digestOf s n (activeOf x.pwidth lanes)
    activeOf x.pwidth lanes ≠ 0 → digest.toNat % 2 ^ 14 = own % 2 ^ 14 → bitsN digest.toNat 18 14 = bitsN own 18 14 →
    digest.getLsbD 31 = true →
      exec (.trainingAttemptEnd n digest locked true) s = .next (portUp (s.setFab (s.fabric.setPort n (x.trained lanes)))) := by
  intro x lanes own hactive hmap hport hvalid
  have hagrees : (true && activeOf x.pwidth lanes != 0 && digest.toNat % 2 ^ 14 == own % 2 ^ 14 &&
      bitsN digest.toNat 18 14 == bitsN own 18 14 && digest.getLsbD 31) = true := by
    simp only [Bool.and_eq_true, bne_iff_ne, beq_iff_eq]
    exact ⟨⟨⟨⟨trivial, hactive⟩, hmap⟩, hport⟩, hvalid⟩
  rw [exec_trainingAttemptEnd, execTrainingAttemptEnd]
  dsimp only
  rw [if_neg (by simp [htraining]), if_neg hretired]
  refine (if_pos hagrees).trans ?_
  rw [lreplay_isEmpty]
  rfl

/-- A training attempt whose digest did not arrive intact is a mismatch (R383, log entry 38). -/
theorem exec_trainingAttemptEnd_mismatch (htraining : (s.fabric.port n).training = true) (hretired : (s.fabric.port n).retiredLanes ≠ 0xf) :
    let y := { s.fabric.port n with st := .train, tries := (s.fabric.port n).tries + 1, mismatch := true, active := 0 }
    exec (.trainingAttemptEnd n digest locked false) s =
      if 5 ≤ (s.fabric.port n).tries + 1 then .next (portFailed s n { y with tries := 5 })
      else .next (s.setFab (s.fabric.setPort n { y with retrain := bump8 y.retrain })) := by
  rw [exec_trainingAttemptEnd, execTrainingAttemptEnd]
  dsimp only
  rw [if_neg (by simp [htraining]), if_neg hretired]
  rfl

end

/-! ### Width changes -/

section
variable {n : Nat} {s : State}

/-- A port in UP takes the width of a planned change, or trains again where no lane of it is usable (R385). -/
theorem exec_plannedWidthChange_takes {lpm : Option (BitVec 2)} {w : BitVec 2} (hup : (s.fabric.port n).st = .up)
    (hwidth : plannedWidth (s.power.cfg.getLsbD 24) (s.fabric.port n) lpm = some w) :
    let y := { s.fabric.port n with planned := (s.fabric.port n).planned && lpm.isSome, active := activeOf w (s.fabric.port n).lanes }
    exec (.plannedWidthChange ⟨n, lpm⟩) s =
      if y.active = 0 then .next (retrainPort s n y) else .next (s.setFab (s.fabric.setPort n y)) := by
  rw [exec_plannedWidthChange, execPlannedWidthChange]
  dsimp only
  rw [hwidth]
  exact if_neg (not_not_intro hup)

/-- A change that the firmware may make is made while the port is idle, where PWIDTH allows the width (R385, R421). -/
theorem plannedWidth_lpm {x : Port} {w : BitVec 2} (hidle : x.flits = []) (hallowed : widest w ≤ widest x.pwidth) :
    plannedWidth true x (some w) = some w := by
  simp [plannedWidth, hidle, Nat.not_lt.mpr hallowed]

end

/-! ### Lanes and flits -/

section
variable {n : Nat} {s : State}

/-- The lanes of a port that stay usable when one loses its lock (R384, R385). -/
def Port.lanesLeft (x : Port) (lane : Nat) : BitVec 4 := x.lanes &&& x.lmask &&& ~~~x.retiredLanes &&& ~~~BitVec.ofNat 4 (2 ^ lane)

/-- A port whose width a lost lane has changed (R385). -/
def Port.laneLost (x : Port) (lane : Nat) : Port :=
  { x with lanes := x.lanesLeft lane, active := activeOf x.pwidth (x.lanesLeft lane), forced := bump8 x.forced, retrain := bump8 x.retrain
           lreplay := if x.flits = [] then x.lreplay else bump12 x.lreplay }

/-- An active lane of a port in UP that loses its lock forces a change (R385, R399). -/
theorem exec_laneLockLoss_active {lane : Moment} (hup : (s.fabric.port n).st = .up)
    (hactive : (s.fabric.port n).active.getLsbD lane.ix = true) :
    let y := (s.fabric.port n).laneLost lane.ix
    exec (.laneLockLoss n lane) s = .next (laneEvents n lane.time (BitVec.ofNat 4 (2 ^ lane.ix))
      (if y.active = 0 then retrainPort s n y else s.setFab (s.fabric.setPort n y))) := by
  rw [exec_laneLockLoss, execLaneLockLoss]
  dsimp only
  rw [if_neg (by simp [hup, hactive]), lreplay_isEmpty]
  rfl

/-- The sender resends from a flit that it has kept, fewer than eight times in a row from one flit (R386, R387). -/
theorem exec_linkReplay_resends {flit : Moment} (hkept : flit.ix < (s.fabric.port n).flits.length)
    (hfew : flit.ix = 0 → (s.fabric.port n).fails < 7) :
    let x := s.fabric.port n
    exec (.linkReplay n flit) s = .next (s.setFab (s.fabric.setPort n { x with
      lreplay := bump12 x.lreplay, flits := x.flits.drop flit.ix, fails := if flit.ix = 0 then x.fails + 1 else 1 })) := by
  refine (if_neg (Nat.not_le.mpr hkept)).trans (if_neg ?_)
  simp only [Bool.and_eq_true, decide_eq_true_eq]
  rintro ⟨hfails, -⟩
  split at hfails
  · next hfirst => exact absurd (hfew hfirst) (by omega)
  · omega

/-- With the eighth failure in a row of one flit a port in UP trains again (R387). -/
theorem exec_linkReplay_retrains {flit : Moment} (hkept : flit.ix < (s.fabric.port n).flits.length) (hfirst : flit.ix = 0)
    (hmany : 7 ≤ (s.fabric.port n).fails) (hup : (s.fabric.port n).st = .up) :
    let x := s.fabric.port n
    exec (.linkReplay n flit) s = .next (laneEvents n flit.time x.active
      (retrainPort s n { x with lreplay := bump12 x.lreplay, fails := 0, retrain := bump8 x.retrain })) := by
  refine (if_neg (Nat.not_le.mpr hkept)).trans ((if_pos ?_).trans ?_)
  · simp only [hfirst, if_true, Bool.and_eq_true, decide_eq_true_eq, beq_iff_eq]
    exact ⟨by omega, hup⟩
  · rw [hfirst]
    rfl

end

/-! ### The statement -/

/-- Settles O55. That the firmware narrows an idle port alone and never beyond PWIDTH, that an unverified peer is a mismatch and that the
lowest lanes are active is log entry 38; that a lost lane replays while a flit is kept is log entry 51. -/
theorem portSteps : Obligations.PortSteps := by
  refine ⟨?up, ?mismatch, ?enable, fun n s => rfl, ?reset, ?width, ?planned, ?lpm, ?laneLost, ?flitFail, ?replay, fun n s => rfl⟩
  case up =>
    intro n digest locked s x lanes active own htraining hretired
    exact exec_trainingAttemptEnd_up htraining hretired
  case mismatch =>
    intro n digest locked s htraining hretired
    have hexec := exec_trainingAttemptEnd_mismatch (digest := digest) (locked := locked) htraining hretired
    refine ⟨fun hfew => ⟨_, hexec.trans (if_neg (by omega)), ?_⟩, fun hmany => hexec.trans (if_pos (by omega))⟩
    simp
  case enable =>
    intro n s hoff
    refine ⟨_, rfl, ?_⟩
    simp [hoff]
  case reset =>
    intro n s hfailed
    exact ⟨_, if_pos hfailed, by simp⟩
  case width =>
    intro n w s hwidth
    rw [exec_portctlPwidth, execPortctlPwidth, if_neg hwidth]
    exact ⟨_, rfl, by simp⟩
  case planned =>
    intro n s hplanned hup a
    have hexec := exec_plannedWidthChange_takes (lpm := none) hup (if_pos hplanned)
    refine ⟨fun hsome => ⟨_, hexec.trans (if_neg hsome), ?_⟩, fun hnone => ⟨_, hexec.trans (if_pos hnone), ?_⟩⟩
    · simp [hup, a]
    · simp [port_retrainPort]
  case lpm =>
    intro n w s hup hlpm hidle hallowed hsome
    have hwidth : plannedWidth (s.power.cfg.getLsbD 24) (s.fabric.port n) (some w) = some w := by
      rw [hlpm]
      exact plannedWidth_lpm hidle hallowed
    exact ⟨_, (exec_plannedWidthChange_takes hup hwidth).trans (if_neg hsome), by simp⟩
  case laneLost =>
    intro n lane s x left y
    exact exec_laneLockLoss_active
  case flitFail =>
    intro n s
    exact ⟨_, rfl, by simp⟩
  case replay =>
    intro n flit s x hkept
    exact ⟨fun hfew => ⟨_, exec_linkReplay_resends hkept hfew, by simp [x]⟩, exec_linkReplay_retrains hkept⟩

end Sys2Proof.Machine
end

section
/-!
PROOF. Errors and repairs (R397 to R404): what an uncorrectable error does to what it strikes, how a control core or a firmware core stops
and runs again, how a core is taken out of use; then the statement about them.
-/

namespace Sys2Proof.Machine

/-! ### What an error strikes -/

/-- An error of a delivery that a word has sent is counted for the core of that word (R397, R399, log entry 39). -/
theorem exec_uncorrectableError_delivery {i core a b : Nat} {agent : Agent} {s : State} {d : Delivery} (w time : Nat)
    (hfind : (s.sends.find? fun d => d.id == i) = some d) (hsender : d.sender = .word agent core a b) :
    exec (.uncorrectableError (.delivery i w) time) s =
      .next (freeBankError { s with sends := s.sends.map fun d => if d.id = i then d.strike w else d } core time) := by
  simp only [exec_uncorrectableError, execUncorrectableError, hfind, hsender]

/-- An error of an array cell marks its column in the workgroup that has an operation on the array (R397, R399). -/
theorem exec_uncorrectableError_cell {core : Nat} {s : State} {g : Workgroup} (col time : Nat)
    (howner : ((s.core core).owner.bind fun o => getWg s o.1 o.2) = some g) (harray : onArray g = true) :
    exec (.uncorrectableError (.cell core col) time) s = .next (rasEvent (putWg s
      { g with matrix := { g.matrix with badCells := g.matrix.badCells ++ [col % 64] } }) .matrixCell (dieOfCore core) core col time) := by
  simp only [exec_uncorrectableError, execUncorrectableError, howner, harray, if_true]

/-- An error of an accumulator marks its element once (R397). -/
theorem exec_uncorrectableError_acc {c w tile row col : Nat} {s : State} {g : Workgroup} (time : Nat) (hfound : getWg s c w = some g)
    (hnew : accKey (tile % 8) (row % 64) (col % 64) ∉ g.matrix.badAcc) :
    exec (.uncorrectableError (.acc c w tile row col) time) s = .next (putWg s
      { g with matrix := { g.matrix with badAcc := g.matrix.badAcc ++ [accKey (tile % 8) (row % 64) (col % 64)] } }) := by
  have hcontains : g.matrix.badAcc.contains (accKey (tile % 8) (row % 64) (col % 64)) = false := by simpa
  simp only [exec_uncorrectableError, execUncorrectableError, hfound, hcontains, Bool.false_eq_true, if_false]

/-! ### Cores that stop and run again -/

/-- Changing a thread makes no step due. -/
theorem setThread_inputs (s : State) (a : Agent) (f : Thread → Thread) : (s.setThread a f).inputs = s.inputs := by
  unfold State.setThread
  split <;> rfl

/-- A core that stops keeps its thread where it stands, without a live lane (R403). -/
theorem thread_stopCore {s : State} {a : Agent} {th : Thread} (h : s.thread a = some th) :
    (stopCore s a).thread a =
      some { th with status := .faulted .data, live := 0, rest := [], grp := { th.grp with mask := 0 }, pend := [] } :=
  have hagent : th.agent = a := agent_of_thread h
  State.thread_setThread s a _ th h hagent

/-- A core that is started runs from an entry point of its image in its one lane (R403). -/
theorem thread_startCore {s : State} {a : Agent} {th : Thread} (n : Nat) (h : s.thread a = some th) :
    ∃ y, (s.setThread a (startCore n)).thread a = some y ∧
      y.status = .running ∧ y.live = 1 ∧ y.grp.mask = 1 ∧ y.grp.pc = imageEntry n :=
  have hagent : th.agent = a := agent_of_thread h
  ⟨startCore n th, State.thread_setThread s a _ th h hagent, rfl, rfl, rfl, rfl⟩

/-- A stopped control core fails its assist, is logged and starts again (R403). -/
theorem exec_controlCoreRestart_failed {cl : Nat} {s : State} {th : Thread} (hthread : s.thread (.control cl) = some th)
    (hfailed : th.failed = true) :
    let u := logFault (failAssist s cl) 5 1 (cl / 6) cl 0
    exec (.controlCoreRestart cl) s = .next { u.setThread (.control cl) (startCore u.free) with free := u.free + 1 } := by
  rw [exec_controlCoreRestart, execControlCoreRestart, hthread]
  exact if_neg (by simp [hfailed])

/-- A stopped firmware core is logged and starts again without the role (R403). -/
theorem exec_firmwareCoreRestart_failed {die : Nat} {s : State} {th : Thread} (hthread : s.thread (.firmware die) = some th)
    (hfailed : th.failed = true) :
    let v := logFault s 6 1 die die 0
    let u := v.setLease die { v.lease die with self := false }
    exec (.firmwareCoreRestart die) s = .next { u.setThread (.firmware die) (startCore u.free) with free := u.free + 1 } := by
  rw [exec_firmwareCoreRestart, execFirmwareCoreRestart, hthread]
  exact if_neg (by simp [hfailed])

/-! ### Cores out of use -/

/-- A core that is taken out of use is disabled, and each cohort with a workgroup on it that has not ended is pre-empted (R402). -/
theorem exec_coredis_disables {core : Nat} (s : State) (hcore : core ≤ 191) :
    ∃ t, exec (.coredis core) s = .next t ∧ (t.core core).disabled = true ∧
      ∀ g ∈ wgsOn s core, g.ended = false → Instr.preemptCohort g.ctx g.cohort ∈ t.inputs := by
  rw [exec_coredis, execCoredis, if_neg (Nat.not_lt.mpr hcore)]
  extract_lets ks u v
  have hread := State.core_setCore u core { u.core core with disabled := true }
  refine ⟨_, rfl, congrArg CoreSt.disabled hread, fun g hg hopen => List.mem_append_right _ ?_⟩
  refine List.mem_map.mpr ⟨(g.ctx, g.cohort), List.mem_eraseDups.mpr ?_, rfl⟩
  exact List.mem_map.mpr ⟨g, List.mem_filter.mpr ⟨hg, by simp [hopen]⟩, rfl⟩

/-! ### The statement -/

/-- Settles O56. Which bank counts an error whose bank the spec does not name is log entry 39; the logged UNIT and INDEX of a unit of L2 or
RDC are log entry 51. -/
theorem errorSteps : Obligations.ErrorSteps := by
  refine ⟨fun res die unit index time s => rfl, fun pa time s => rfl, ?scratch, ?register, ?uniform, ?l1Line, ?predicate, ?statePage,
    ?delivery, fun core i time s => rfl, fun pa time s => rfl, fun d pa time s => rfl,
    fun core col time s g => exec_uncorrectableError_cell col time, fun c w tile row col time s g => exec_uncorrectableError_acc time,
    ?firmware, ?control, fun core s => exec_coredis_disables s, ?controlRestart, ?firmwareRestart⟩
  case scratch | register | uniform | predicate | statePage =>
    intros
    rename_i hfound
    simp only [exec_uncorrectableError, execUncorrectableError, hfound]
  case l1Line =>
    intro c w pa time s g hfound h
    simp only [exec_uncorrectableError, execUncorrectableError, hfound, h]
  case delivery =>
    rintro i w core a b time s d hfind ⟨agent, hsender⟩
    exact exec_uncorrectableError_delivery w time hfind hsender
  case firmware =>
    intro die time s
    exact ⟨_, rfl, congrArg (· ++ _) (setThread_inputs ..), fun th hthread => thread_stopCore hthread⟩
  case control =>
    intro cl time s
    exact ⟨_, rfl, congrArg (· ++ _) (setThread_inputs ..), fun th hthread => thread_stopCore hthread⟩
  case controlRestart =>
    intro cl s th hthread hfailed u
    exact ⟨exec_controlCoreRestart_failed hthread hfailed, fun x hx => thread_startCore u.free hx⟩
  case firmwareRestart =>
    intro die s th hthread hfailed v u
    exact ⟨exec_firmwareCoreRestart_failed hthread hfailed, congrArg Lease.self (State.lease_setLease ..),
      fun x hx => thread_startCore u.free hx⟩

end Sys2Proof.Machine
end

section
/-!
PROOF. The Ringmaster's lease (R406, R407): what a renewal does to the leases of the dies that receive it, when a term is proposed, a vote
granted and a leader made, how long a lease runs; then the statement about them.
-/

namespace Sys2Proof.Machine

/-! ### Renewals -/

/-- The lease of a follower that has received a renewal of a leader's term at some time (R406). -/
def Lease.renewed (f : Lease) (leader term now : Nat) : Lease :=
  { f with term := term, leader := leader, ends := now + leaseCycles, any := true, self := false }

@[simp] theorem hearRenewal_clock (leader term : Nat) (s : State) (d : Nat) : (hearRenewal leader term s d).clock = s.clock := by
  unfold hearRenewal
  dsimp only
  split <;> rfl

section
variable {leader term : Nat} {s : State}

/-- A renewal leaves the lease of its leader, and that of any die but the one that receives it (R406). -/
theorem lease_hearRenewal_ne {d k : Nat} (h : k = leader ∨ k ≠ d) : (hearRenewal leader term s d).lease k = s.lease k := by
  unfold hearRenewal
  dsimp only
  split
  · rfl
  · next hhears =>
    refine State.lease_setLease_ne _ _ _ _ ?_
    rintro rfl
    obtain rfl | hne := h
    · exact hhears (.inl rfl)
    · exact hne rfl

/-- A renewal extends the lease of a follower that has seen no higher term (R406). -/
theorem lease_hearRenewal_self {d : Nat} (hfollower : d ≠ leader) (hterm : (s.lease d).term ≤ term) :
    (hearRenewal leader term s d).lease d = (s.lease d).renewed leader term s.clock := by
  have hhears : ¬(d = leader ∨ term < (s.lease d).term) := by omega
  unfold hearRenewal
  dsimp only
  rw [if_neg hhears, State.lease_setLease]
  rfl

/-- The leases that a renewal sent to some dies leaves as they are: its leader's, and those of the other dies (R406). -/
theorem lease_foldl_hearRenewal_ne {k : Nat} (l : List Nat) (h : k = leader ∨ k ∉ l) :
    (l.foldl (hearRenewal leader term) s).lease k = s.lease k := by
  refine foldl_keeps (f := fun s : State => s.lease k) l (fun d hd t => lease_hearRenewal_ne (h.imp_right ?_)) s
  rintro hout rfl
  exact hout hd

/-- A renewal that reaches a follower once more changes its lease no further (R406). -/
theorem lease_foldl_hearRenewal_again {d now : Nat} {f : Lease} (l : List Nat) (hfollower : d ≠ leader) (hnow : s.clock = now)
    (hheard : s.lease d = f.renewed leader term now) : (l.foldl (hearRenewal leader term) s).lease d = f.renewed leader term now := by
  induction l generalizing s with
  | nil => exact hheard
  | cons k r ih =>
    refine ih (by simpa) ?_
    by_cases hk : d = k
    · subst hk
      have hterm : (s.lease d).term ≤ term := by rw [hheard]; exact Nat.le_refl term
      rw [lease_hearRenewal_self hfollower hterm, hheard, hnow]
      rfl
    · rw [lease_hearRenewal_ne (.inr hk), hheard]

/-- A renewal sent to some dies extends the lease of each follower among them that has seen no higher term (R406). -/
theorem lease_foldl_hearRenewal_mem {d : Nat} {l : List Nat} (hmem : d ∈ l) (hfollower : d ≠ leader) (hterm : (s.lease d).term ≤ term) :
    (l.foldl (hearRenewal leader term) s).lease d = (s.lease d).renewed leader term s.clock := by
  induction l generalizing s with
  | nil => exact absurd hmem List.not_mem_nil
  | cons k r ih =>
    rw [List.foldl_cons]
    by_cases hk : d = k
    · subst hk
      exact lease_foldl_hearRenewal_again r hfollower (hearRenewal_clock ..) (lease_hearRenewal_self hfollower hterm)
    · have hsame : (hearRenewal leader term s k).lease d = s.lease d := lease_hearRenewal_ne (.inr hk)
      rw [ih ((List.mem_cons.mp hmem).resolve_left hk) (by rwa [hsame]), hsame, hearRenewal_clock]

end

/-- A holder of the role that renews its lease (R406). -/
def renewing (s : State) (die : Nat) : State := s.setLease die { s.lease die with sent := s.clock, acks := [] }

/-- The holder of the role sends a renewal (R406). -/
theorem exec_leaseRenewal_acts {r : Renewal} {s : State} (hacts : (s.lease r.die).acts s.clock = true) :
    exec (.leaseRenewal r) s = .next (r.heard.foldl (hearRenewal r.die (s.lease r.die).term) (renewing s r.die)) :=
  if_pos hacts

/-! ### Elections -/

section
variable {die source proposer : Nat} {term : Word} {s : State}

/-- A core whose lease has lapsed proposes itself for the next term, where it has not voted for itself in this one (R406). -/
theorem exec_termProposal_lapsed (hlapsed : (s.lease die).lapsed s.clock = true) (hfirst : (s.lease die).term ≠ 0 ∨ die = 0)
    (hvoted : (s.lease die).voted ≠ some ((s.lease die).term, die)) :
    let l := s.lease die
    exec (.termProposal die) s =
      .next (s.setLease die { l with term := l.term + 1, voted := some (l.term + 1, die), votes := [die], self := false }) := by
  have hmay : ¬(!(s.lease die).lapsed s.clock || ((s.lease die).term == 0 && die != 0)) = true := by
    obtain hterm | rfl := hfirst
    · simp [hlapsed, hterm]
    · simp [hlapsed]
  exact (if_neg hmay).trans (if_neg (by simp [hvoted]))

/-- A core whose lease has lapsed grants its vote for a higher term than it has seen (R406). -/
theorem exec_voteRequest_granted (hlapsed : (s.lease die).lapsed s.clock = true) (hhigher : (s.lease die).term < term.toNat)
    (hother : die ≠ proposer) :
    exec (.voteRequest die proposer term) s =
      .next (s.setLease die { s.lease die with term := term.toNat, voted := some (term.toNat, proposer), self := false }) :=
  if_pos (by simp [hlapsed, hhigher, hother])

/-- The third vote makes the proposer leader, with a lease from now on (R406, log entry 41). -/
theorem exec_voteReceipt_third (hterm : (s.lease die).term = term.toNat) (hown : (s.lease die).voted = some (term.toNat, die))
    (hvote : (s.lease source).voted = some (term.toNat, die)) (hself : (s.lease die).self = false) (hnew : source ∉ (s.lease die).votes)
    (htwo : (s.lease die).votes.length = 2) :
    exec (.voteReceipt die source term) s = .next (s.setLease die { s.lease die with
      votes := (s.lease die).votes ++ [source], self := true, leader := die, any := true, sent := s.clock, acks := []
      ends := s.clock + leaseCycles }) := by
  have hvotes : (if (s.lease die).votes.contains source then (s.lease die).votes else (s.lease die).votes ++ [source]) =
      (s.lease die).votes ++ [source] := if_neg (by simpa)
  rw [exec_voteReceipt, execVoteReceipt]
  dsimp only
  rw [hvotes, if_neg (by simp [hterm, hown, hvote])]
  exact if_pos (by simp [htwo, hself])

/-- A new acknowledgement is kept, and with two of them the holder's lease runs on (R406). -/
theorem exec_renewalAck_new (hterm : (s.lease die).term = term.toNat) (hacts : (s.lease die).acts s.clock = true) (hother : source ≠ die)
    (hnew : source ∉ (s.lease die).acks) :
    let l := s.lease die
    exec (.renewalAck die source term) s = .next (s.setLease die { l with
      acks := l.acks ++ [source], ends := if 1 ≤ l.acks.length then max l.ends (l.sent + leaseCycles) else l.ends }) := by
  have hacks : (if (s.lease die).acks.contains source then (s.lease die).acks else (s.lease die).acks ++ [source]) =
      (s.lease die).acks ++ [source] := if_neg (by simpa)
  rw [exec_renewalAck, execRenewalAck]
  dsimp only
  rw [hacks, if_neg (by simp [hterm, hacts, hother])]
  simp only [List.length_append, List.length_singleton, Nat.reduceLeDiff]

end

/-! ### Commands -/

/-- A command to a register that the Ringmaster alone writes goes by the higher of the terms that the register and the die on its way have
seen (R407, log entry 41). -/
theorem exec_ringmasterCommand_leaderReg {reg : BitVec 17} (c : CommandPath) (term : Word) (value : DWord) (s : State)
    (hleader : leaderReg reg.toNat true = true) (hreach : sysReach .firmware reg = true) :
    exec (.ringmasterCommand c term reg value) s = .next (leaderWrite s c.die c.via term.toNat reg.toNat value) :=
  if_pos (by rw [hleader, hreach]; rfl)

/-! ### The statement -/

/-- Settles O57. That a new leader's lease runs from the electing step, a follower's from the receipt of a renewal, and that a command's
term is held against the higher of the register's and the die's is log entry 41. -/
theorem leaseSteps : Obligations.LeaseSteps := by
  refine ⟨?renewal, ?proposal, ?request, ?receipt, ?ack, ?expiry, ?command⟩
  case renewal =>
    intro r s hacts
    have hholder : (renewing s r.die).lease r.die = { s.lease r.die with sent := s.clock, acks := [] } := State.lease_setLease ..
    have hother {d : Nat} (hd : d ≠ r.die) : (renewing s r.die).lease d = s.lease d := State.lease_setLease_ne _ _ _ _ hd
    refine ⟨_, exec_leaseRenewal_acts hacts, ?_, ?_, ?_, fun d hheard hfollower hterm => ?_, fun d hout hfollower => ?_⟩
    · rw [lease_foldl_hearRenewal_ne _ (.inl rfl), hholder]
    · rw [lease_foldl_hearRenewal_ne _ (.inl rfl), hholder]
    · rw [lease_foldl_hearRenewal_ne _ (.inl rfl), hholder]
    · rw [lease_foldl_hearRenewal_mem hheard hfollower (by rwa [hother hfollower])]
      exact ⟨rfl, rfl, rfl, rfl⟩
    · rw [lease_foldl_hearRenewal_ne _ (.inr hout), hother hfollower]
  case proposal =>
    intro die s hlapsed hfirst hvoted
    exact ⟨_, exec_termProposal_lapsed hlapsed hfirst hvoted, by simp⟩
  case request =>
    intro die proposer term s hlapsed hhigher hother
    exact ⟨_, exec_voteRequest_granted hlapsed hhigher hother, by simp⟩
  case receipt =>
    intro die source term s hterm hown hvote hself hnew htwo
    exact ⟨_, exec_voteReceipt_third hterm hown hvote hself hnew htwo, by simp⟩
  case ack =>
    intro die source term s hterm hacts hother hnew
    exact ⟨_, exec_renewalAck_new hterm hacts hother hnew, by simp, by simp, fun d hd => State.lease_setLease_ne _ _ _ _ hd⟩
  case expiry =>
    intro die s hover
    exact ⟨_, if_neg (Nat.not_lt.mpr hover), by simp⟩
  case command =>
    intro c term reg value s hleader hreach seen
    rw [exec_ringmasterCommand_leaderReg c term value s hleader hreach]
    exact ⟨fun hlow => congrArg Host.Outcome.next (if_pos hlow),
      fun hhigh => congrArg Host.Outcome.next (if_neg (Nat.not_lt.mpr hhigh))⟩

end Sys2Proof.Machine
end
